-- ==== Sys2Proof/Word.lean ====
section
/-!
DEFINITION. The word types of the FX-960 and their plainest arithmetic (02_numbers.md R15, R16).
-/

namespace Sys2Proof

/-- A byte of memory. -/
abbrev Byte := BitVec 8
/-- A 32-bit register, or an instruction word (R33). -/
abbrev Word := BitVec 32
/-- A 64-bit value, as a register pair holds it (R15). -/
abbrev DWord := BitVec 64

/-- `Wrap(x, n)` of R16 for an exact integer: the residue modulo 2^n. -/
def wrap (n : Nat) (x : Int) : BitVec n := BitVec.ofInt n x

/-- `Sat(x, n)` of R16: signed saturation of an exact integer. -/
def sat (x : Int) (n : Nat) : Int :=
  min (max x (-(2 ^ (n - 1) : Nat))) ((2 ^ (n - 1) : Nat) - 1)

/-- `SatU(x, n)` of R16: unsigned saturation of an exact integer. -/
def satU (x : Int) (n : Nat) : Int :=
  min (max x 0) ((2 ^ n : Nat) - 1)

/-- Bits `[hi:lo]` of a natural number, written as the manual writes a range (R3). -/
def bits (x hi lo : Nat) : Nat := x / 2 ^ lo % 2 ^ (hi + 1 - lo)

/-- One bit of a natural number. -/
def bit (x i : Nat) : Bool := x.testBit i

/-- `⌈a / b⌉`. -/
def ceilDiv (a b : Nat) : Nat := (a + b - 1) / b

/-- The low word of a 64-bit value (R15: the even register). -/
def DWord.lo (x : DWord) : Word := BitVec.ofNat 32 x.toNat
/-- The high word of a 64-bit value (R15: the odd register). -/
def DWord.hi (x : DWord) : Word := BitVec.ofNat 32 (x.toNat / 2 ^ 32)
/-- The 64-bit value of a register pair (R15). -/
def DWord.ofPair (lo hi : Word) : DWord := BitVec.ofNat 64 (lo.toNat + hi.toNat * 2 ^ 32)

/-- A Boolean result as the compare forms write it: 1 or 0 (R111, R122). -/
def ofBool (b : Bool) : Word := if b then 1 else 0

end Sys2Proof
end

