-- ==== Sys2Proof/Syntax.lean ====
section
/-!
DEFINITION. The instructions and happenings of the FX-960: one constructor a row of spec/opcode_table.json.
The first 254 are the words of 03_encoding.md R45 with their operands; the rest are the happenings of the
device and of its outside that the table lists without an encoding.
-/

namespace Sys2Proof

/-- The visible register space of R37. -/
inductive Reg where
  | bead (n : Fin 88)
  | uni (n : Fin 32)
  | zr
  | bx
  | sx
  | lc
  | q (n : Fin 4)
  deriving DecidableEq, Repr

/-- The number formats of R14; codes 0xE and 0xF are reserved. -/
inductive Fmt where
  | fp32 | fp16 | bf16 | e4m3 | e5m2 | e2m1 | ds8 | e8m0
  | int8 | uint8 | int16 | uint16 | int32 | uint32
  deriving DecidableEq, Repr

/-- The rounding modes of R26; codes 6 and 7 are not listed. -/
inductive Rnd where
  | rne | rtz | rdn | rup | sr | rnes
  deriving DecidableEq, Repr

/-- The scopes of R206. -/
inductive Scope where
  | strand | braid | locket | device | system
  deriving DecidableEq, Repr

/-- The access paths of R205. -/
inductive Path where
  | b | c | m | x | l
  deriving DecidableEq, Repr

/-- The kinds of FENCE (R213). -/
inductive FenceKind where
  | acq | rel | ar
  deriving DecidableEq, Repr

/-- The op of SIGWR (R284). -/
inductive SigOp where
  | set | add | maxu
  deriving DecidableEq, Repr

/-- The condition of SIGWT (R284). -/
inductive Cond where
  | eq | ne | geu | ltu
  deriving DecidableEq, Repr

/-- The selector of SLOTQ (R392). -/
inductive SlotSel where
  | refresh | calib | retrain | sweep | lpddr | info
  deriving DecidableEq, Repr

/-- The access widths of format M (R34). -/
inductive Width where
  | w8 | w16 | w32 | w64
  deriving DecidableEq, Repr

/-- The remote access an arriving flit asks for (R419). -/
inductive FlitKind where
  /-- LPUT: bytes to store. -/
  | store (addr : Nat) (data : List Byte)
  /-- LGET: a request for bytes. -/
  | read (addr len : Nat)
  /-- LRADD: one element; `ty` is 0 INT32, 1 FP32, 2 INT64 (R417). -/
  | add (addr : Nat) (ty : Nat) (val : DWord)
  /-- LSIG: a signal write (R419). -/
  | signal (addr : Nat) (op : SigOp) (val : DWord)
  deriving DecidableEq, Repr

/-- A flit as the receiving endpoint sees it: source device, context number, access (R414, R419); and what it carries of the
order of memory: the number that its sender gave its write, what an LSIG's issuer knows, and the publications that its write
carries, by scope, in the sender's numbers (R211, R215, R420; log 121). -/
structure Flit where
  src : Nat
  ctx : Nat
  kind : FlitKind
  tag : Nat := 0
  know : List (Nat × Path) := []
  pubs : List (Scope × List (Nat × Path)) := []
  deriving DecidableEq, Repr

/-- What a destination answers for a flit of a link command (R416, R419). -/
inductive Ack where
  | performed
  | data (bytes : List Byte)
  | failed (code : Nat)
  deriving DecidableEq, Repr

/-- An Announce message: the data set that the best master clock algorithm compares, the identity and the port of its sender,
and the announce interval in ns (R327, R328; log 44). -/
structure Announce where
  master : Nat
  port : Nat := 1
  priority : Nat
  clockClass : Nat := 248
  accuracy : Nat := 0xFE
  variance : Nat := 0xFFFF
  priority2 : Nat := 128
  grandmaster : Nat := 0
  steps : Nat := 0
  interval : Nat
  deriving DecidableEq, Repr

/-- A firmware image: its bytes, 32-bit version and signature (R426, R428). -/
structure Firmware where
  code : List Byte
  version : Word
  signature : List Byte
  deriving DecidableEq, Repr

/-- What a happening acts on: the numbers of the units it names, and what it carries. A happening's
constructor of Instr has no field; the step lays its operand in State.arg. -/
inductive Arg where
  | none
  | one (a : Nat)
  | two (a b : Nat)
  | three (a b c : Nat)
  /-- A register write: which one, and the value. -/
  | val (a : Nat) (v : DWord)
  /-- The offset a Sync message measures, in ns (R328). -/
  | int (z : Int)
  | flit (f : Flit)
  | ack (ctx idx : Nat) (k : Ack)
  /-- An application core's access: physical address, length, and the bytes it writes, if it writes. -/
  | host (pa len : Nat) (write : Option (List Byte))
  | announce (a : Announce)
  | image (step : Nat) (f : Firmware)
  | bytes (b : List Byte)
  deriving DecidableEq, Repr

/-- The instructions and happenings, one constructor a row of spec/opcode_table.json: first the words that
have operands, then the words and the happenings without a field, each group in the table's order. -/
inductive Instr where
  /-- ILL (R48). -/
  | ill (tag : BitVec 25)
  /-- ILL_ERASED (R48). -/
  | illErased (tag : BitVec 25)
  /-- BRA (R78). -/
  | bra (off : BitVec 25)
  /-- CALL (R83). -/
  | call (off : BitVec 25)
  /-- BNZ (R78). -/
  | bnz (c : Reg) (off : BitVec 18)
  /-- BZ (R78). -/
  | bz (c : Reg) (off : BitVec 18)
  /-- BRX (R78). -/
  | brx (a : Reg) (ea : Bool)
  /-- CALLX (R83). -/
  | callx (a : Reg) (ea : Bool)
  /-- JPT (R78). -/
  | jpt (off : BitVec 18)
  /-- LOOP (R87). -/
  | loop (c : Reg) (off : BitVec 18)
  /-- WAIT (R91). -/
  | wait (a : Reg)
  /-- SLEEPT (R93). -/
  | sleept (a : Reg) (ea : Bool)
  /-- SLEEPQ (R93). -/
  | sleepq (p : Fin 4)
  /-- SLEEPW (R93). -/
  | sleepw (a b : Reg) (ea eb : Bool)
  /-- BRKPT (R411). -/
  | brkpt (imm : BitVec 18)
  /-- TRAP (R411). -/
  | trap (imm : BitVec 18)
  /-- ADD (R104). -/
  | add (d a b : Reg) (ea eb : Bool)
  /-- ADDC (R104). -/
  | addc (d a b : Reg) (ea eb : Bool)
  /-- SUB (R104). -/
  | sub (d a b : Reg) (ea eb : Bool)
  /-- SUBB (R104). -/
  | subb (d a b : Reg) (ea eb : Bool)
  /-- ADDI (R115). -/
  | addi (d a : Reg) (imm : BitVec 10) (ea : Bool)
  /-- MUL (R104). -/
  | mul (d a b : Reg) (ea eb : Bool)
  /-- MULHU (R104). -/
  | mulhu (d a b : Reg) (ea eb : Bool)
  /-- MULHS (R104). -/
  | mulhs (d a b : Reg) (ea eb : Bool)
  /-- MULHSU (R104). -/
  | mulhsu (d a b : Reg) (ea eb : Bool)
  /-- MAD (R104). -/
  | mad (d a b : Reg) (ea eb : Bool)
  /-- DIVU (R105). -/
  | divu (d a b : Reg) (ea eb : Bool)
  /-- DIVS (R105). -/
  | divs (d a b : Reg) (ea eb : Bool)
  /-- REMU (R105). -/
  | remu (d a b : Reg) (ea eb : Bool)
  /-- REMS (R105). -/
  | rems (d a b : Reg) (ea eb : Bool)
  /-- MINU (R106). -/
  | minu (d a b : Reg) (ea eb : Bool)
  /-- MINS (R106). -/
  | mins (d a b : Reg) (ea eb : Bool)
  /-- MAXU (R106). -/
  | maxu (d a b : Reg) (ea eb : Bool)
  /-- MAXS (R106). -/
  | maxs (d a b : Reg) (ea eb : Bool)
  /-- AND (R106). -/
  | and (d a b : Reg) (ea eb : Bool)
  /-- OR (R106). -/
  | or (d a b : Reg) (ea eb : Bool)
  /-- XOR (R106). -/
  | xor (d a b : Reg) (ea eb : Bool)
  /-- ANDN (R106). -/
  | andn (d a b : Reg) (ea eb : Bool)
  /-- ANDI (R115). -/
  | andi (d a : Reg) (imm : BitVec 10) (ea : Bool)
  /-- ORI (R115). -/
  | ori (d a : Reg) (imm : BitVec 10) (ea : Bool)
  /-- XORI (R115). -/
  | xori (d a : Reg) (imm : BitVec 10) (ea : Bool)
  /-- SHL (R107). -/
  | shl (d a b : Reg) (ea eb : Bool)
  /-- SHR (R107). -/
  | shr (d a b : Reg) (ea eb : Bool)
  /-- SAR (R107). -/
  | sar (d a b : Reg) (ea eb : Bool)
  /-- ROL (R107). -/
  | rol (d a b : Reg) (ea eb : Bool)
  /-- SHLI (R116). -/
  | shli (d a : Reg) (n : BitVec 5) (ea : Bool)
  /-- SHRI (R116). -/
  | shri (d a : Reg) (n : BitVec 5) (ea : Bool)
  /-- SARI (R116). -/
  | sari (d a : Reg) (n : BitVec 5) (ea : Bool)
  /-- ROLI (R116). -/
  | roli (d a : Reg) (n : BitVec 5) (ea : Bool)
  /-- CLZ (R108). -/
  | clz (d a : Reg) (ea : Bool)
  /-- CTZ (R108). -/
  | ctz (d a : Reg) (ea : Bool)
  /-- POPC (R108). -/
  | popc (d a : Reg) (ea : Bool)
  /-- BREV (R108). -/
  | brev (d a : Reg) (ea : Bool)
  /-- BFXU (R109). -/
  | bfxu (d a b : Reg) (ea eb : Bool)
  /-- BFXS (R109). -/
  | bfxs (d a b : Reg) (ea eb : Bool)
  /-- BFI (R109). -/
  | bfi (d a b : Reg) (ea eb : Bool)
  /-- ILV2 (R110). -/
  | ilv2 (d a b : Reg) (ea eb : Bool)
  /-- ILV3 (R110). -/
  | ilv3 (d a b : Reg) (ea eb : Bool)
  /-- DLV2 (R110). -/
  | dlv2 (d a : Reg) (ea : Bool)
  /-- DLV3 (R110). -/
  | dlv3 (d a b : Reg) (ea eb : Bool)
  /-- CEQ (R111). -/
  | ceq (d a b : Reg) (ea eb : Bool)
  /-- CNE (R111). -/
  | cne (d a b : Reg) (ea eb : Bool)
  /-- CLTU (R111). -/
  | cltu (d a b : Reg) (ea eb : Bool)
  /-- CLTS (R111). -/
  | clts (d a b : Reg) (ea eb : Bool)
  /-- CLEU (R111). -/
  | cleu (d a b : Reg) (ea eb : Bool)
  /-- CLES (R111). -/
  | cles (d a b : Reg) (ea eb : Bool)
  /-- CBIT (R111). -/
  | cbit (d a b : Reg) (ea eb : Bool)
  /-- SEL (R111). -/
  | sel (d a b : Reg) (ea eb : Bool)
  /-- ABS (R112). -/
  | abs (d a : Reg) (ea : Bool)
  /-- NEG (R112). -/
  | neg (d a : Reg) (ea : Bool)
  /-- SEXT8 (R112). -/
  | sext8 (d a : Reg) (ea : Bool)
  /-- SEXT16 (R112). -/
  | sext16 (d a : Reg) (ea : Bool)
  /-- MOVH (R117). -/
  | movh (d : Reg) (imm : BitVec 18)
  /-- ORL (R117). -/
  | orl (d : Reg) (imm : BitVec 18)
  /-- MOV (R113). -/
  | mov (d a : Reg) (ea : Bool)
  /-- MOVP (R113). -/
  | movp (d a : Reg) (ea : Bool)
  /-- MOVF (R113). -/
  | movf (d a : Reg) (ea : Bool)
  /-- ADD64 (R114). -/
  | add64 (d a b : Reg) (ea eb : Bool)
  /-- SUB64 (R114). -/
  | sub64 (d a b : Reg) (ea eb : Bool)
  /-- SHL64 (R114). -/
  | shl64 (d a b : Reg) (ea eb : Bool)
  /-- SHRU64 (R114). -/
  | shru64 (d a b : Reg) (ea eb : Bool)
  /-- FADD (R120). -/
  | fadd (d a b : Reg) (ea eb : Bool)
  /-- FSUB (R120). -/
  | fsub (d a b : Reg) (ea eb : Bool)
  /-- FMUL (R120). -/
  | fmul (d a b : Reg) (ea eb : Bool)
  /-- FFMA (R120). -/
  | ffma (d a b : Reg) (ea eb : Bool)
  /-- FFMS (R120). -/
  | ffms (d a b : Reg) (ea eb : Bool)
  /-- FNMA (R120). -/
  | fnma (d a b : Reg) (ea eb : Bool)
  /-- FNMS (R120). -/
  | fnms (d a b : Reg) (ea eb : Bool)
  /-- FMIN (R121). -/
  | fmin (d a b : Reg) (ea eb : Bool)
  /-- FMAX (R121). -/
  | fmax (d a b : Reg) (ea eb : Bool)
  /-- FMINN (R121). -/
  | fminn (d a b : Reg) (ea eb : Bool)
  /-- FMAXN (R121). -/
  | fmaxn (d a b : Reg) (ea eb : Bool)
  /-- FCEQ (R122). -/
  | fceq (d a b : Reg) (ea eb : Bool)
  /-- FCLT (R122). -/
  | fclt (d a b : Reg) (ea eb : Bool)
  /-- FCLE (R122). -/
  | fcle (d a b : Reg) (ea eb : Bool)
  /-- FCUN (R122). -/
  | fcun (d a b : Reg) (ea eb : Bool)
  /-- FABS (R123). -/
  | fabs (d a : Reg) (ea : Bool)
  /-- FNEG (R123). -/
  | fneg (d a : Reg) (ea : Bool)
  /-- FCLASS (R123). -/
  | fclass (d a : Reg) (ea : Bool)
  /-- FRNE (R124). -/
  | frne (d a : Reg) (ea : Bool)
  /-- FRTZ (R124). -/
  | frtz (d a : Reg) (ea : Bool)
  /-- FRDN (R124). -/
  | frdn (d a : Reg) (ea : Bool)
  /-- FRUP (R124). -/
  | frup (d a : Reg) (ea : Bool)
  /-- CVTUF (R125). -/
  | cvtuf (d a : Reg) (ea : Bool)
  /-- CVTSF (R125). -/
  | cvtsf (d a : Reg) (ea : Bool)
  /-- CVTFU (R125). -/
  | cvtfu (d a : Reg) (ea : Bool)
  /-- CVTFS (R125). -/
  | cvtfs (d a : Reg) (ea : Bool)
  /-- CVTN (R131). -/
  | cvtn (d a : Reg) (fmt : Fmt) (rnd : Rnd) (sat : Bool) (pos : BitVec 2) (ea : Bool)
  /-- CVTW (R132). -/
  | cvtw (d a : Reg) (fmt : Fmt) (pos : BitVec 3) (ea : Bool)
  /-- BADD2 (R127). -/
  | badd2 (d a b : Reg) (ea eb : Bool)
  /-- BMUL2 (R127). -/
  | bmul2 (d a b : Reg) (ea eb : Bool)
  /-- HADD2 (R127). -/
  | hadd2 (d a b : Reg) (ea eb : Bool)
  /-- HMUL2 (R127). -/
  | hmul2 (d a b : Reg) (ea eb : Bool)
  /-- BFMA2 (R127). -/
  | bfma2 (d a b : Reg) (ea eb : Bool)
  /-- HFMA2 (R127). -/
  | hfma2 (d a b : Reg) (ea eb : Bool)
  /-- RCP (R134). -/
  | rcp (d a : Reg) (ea : Bool)
  /-- RSQ (R134). -/
  | rsq (d a : Reg) (ea : Bool)
  /-- SQRT (R134). -/
  | sqrt (d a : Reg) (ea : Bool)
  /-- EX2 (R134). -/
  | ex2 (d a : Reg) (ea : Bool)
  /-- LG2 (R134). -/
  | lg2 (d a : Reg) (ea : Bool)
  /-- SIN (R134). -/
  | sin (d a : Reg) (ea : Bool)
  /-- COS (R134). -/
  | cos (d a : Reg) (ea : Bool)
  /-- TANH (R134). -/
  | tanh (d a : Reg) (ea : Bool)
  /-- IDOT4SS (R128). -/
  | idot4ss (d a b : Reg) (ea eb : Bool)
  /-- IDOT4UU (R128). -/
  | idot4uu (d a b : Reg) (ea eb : Bool)
  /-- IDOT4SU (R128). -/
  | idot4su (d a b : Reg) (ea eb : Bool)
  /-- IDOT4US (R128). -/
  | idot4us (d a b : Reg) (ea eb : Bool)
  /-- FSCL (R126). -/
  | fscl (d a b : Reg) (ea eb : Bool)
  /-- FEXP (R126). -/
  | fexp (d a : Reg) (ea : Bool)
  /-- FMNT (R126). -/
  | fmnt (d a : Reg) (ea : Bool)
  /-- SCANI (R143). -/
  | scani (d a b : Reg) (ea eb : Bool)
  /-- SCANX (R143). -/
  | scanx (d a b : Reg) (ea eb : Bool)
  /-- SCANF (R143). -/
  | scanf (d a b : Reg) (ea eb : Bool)
  /-- SCANFX (R143). -/
  | scanfx (d a b : Reg) (ea eb : Bool)
  /-- SCANMAXS (R143). -/
  | scanmaxs (d a : Reg) (ea : Bool)
  /-- SCANMINS (R143). -/
  | scanmins (d a : Reg) (ea : Bool)
  /-- SCANMAXU (R143). -/
  | scanmaxu (d a : Reg) (ea : Bool)
  /-- SCANMINU (R143). -/
  | scanminu (d a : Reg) (ea : Bool)
  /-- SCANAND (R143). -/
  | scanand (d a : Reg) (ea : Bool)
  /-- SCANOR (R143). -/
  | scanor (d a : Reg) (ea : Bool)
  /-- SCANXOR (R143). -/
  | scanxor (d a : Reg) (ea : Bool)
  /-- SSCANI (R144). -/
  | sscani (d a b : Reg) (ea eb : Bool)
  /-- SSCANX (R144). -/
  | sscanx (d a b : Reg) (ea eb : Bool)
  /-- SSCANF (R144). -/
  | sscanf (d a b : Reg) (ea eb : Bool)
  /-- SSCANFX (R144). -/
  | sscanfx (d a b : Reg) (ea eb : Bool)
  /-- REDI (R145). -/
  | redi (d a : Reg) (ea : Bool)
  /-- REDF (R145). -/
  | redf (d a : Reg) (ea : Bool)
  /-- REDMAX (R145). -/
  | redmax (d a : Reg) (ea : Bool)
  /-- REDMIN (R145). -/
  | redmin (d a : Reg) (ea : Bool)
  /-- VANY (R145). -/
  | vany (d a : Reg) (ea : Bool)
  /-- VALL (R145). -/
  | vall (d a : Reg) (ea : Bool)
  /-- VBAL (R145). -/
  | vbal (d a : Reg) (ea : Bool)
  /-- VCNT (R145). -/
  | vcnt (d a : Reg) (ea : Bool)
  /-- BCAST (R146). -/
  | bcast (d a b : Reg) (ea eb : Bool)
  /-- BFIRST (R146). -/
  | bfirst (d a : Reg) (ea : Bool)
  /-- BLAST (R146). -/
  | blast (d a : Reg) (ea : Bool)
  /-- PREV (R147). -/
  | prev (d a b : Reg) (ea eb : Bool)
  /-- NEXT (R147). -/
  | next (d a b : Reg) (ea eb : Bool)
  /-- ROTP (R147). -/
  | rotp (d a : Reg) (ea : Bool)
  /-- ROTN (R147). -/
  | rotn (d a : Reg) (ea : Bool)
  /-- PERMG (R148). -/
  | permg (d a b : Reg) (ea eb : Bool)
  /-- PERMS (R148). -/
  | perms (d a b : Reg) (ea eb : Bool)
  /-- TOPKD (R150). -/
  | topkd (d a b : Reg) (ea eb : Bool)
  /-- TOPKA (R150). -/
  | topka (d a b : Reg) (ea eb : Bool)
  /-- TOPKM (R150). -/
  | topkm (d a b : Reg) (ea eb : Bool)
  /-- MATCH (R151). -/
  | matchB (d a : Reg) (ea : Bool)
  /-- MATCH64 (R151). -/
  | match64 (d a : Reg) (ea : Bool)
  /-- RAND (R154). -/
  | rand (d : Reg)
  /-- RANDF (R154). -/
  | randf (d : Reg)
  /-- ELECTL (R146). -/
  | electl (d : Reg)
  /-- ELECTH (R146). -/
  | electh (d : Reg)
  /-- LD (R196). -/
  | ld (d a : Reg) (p : BitVec 4) (imm : BitVec 5) (w : Width)
  /-- ST (R196). -/
  | st (d a : Reg) (p : BitVec 4) (imm : BitVec 5) (w : Width)
  /-- LDU (R197). -/
  | ldu (d a : Reg) (p : BitVec 4) (imm : BitVec 5) (w : Width)
  /-- LDS (R198). -/
  | lds (d a : Reg) (imm : BitVec 5) (w : Width)
  /-- STS (R198). -/
  | sts (d a : Reg) (imm : BitVec 5) (w : Width)
  /-- ATADD (R202). -/
  | atadd (d a b : Reg) (p : BitVec 3) (w : Bool)
  /-- ATFADD (R202). -/
  | atfadd (d a b : Reg) (p : BitVec 3)
  /-- ATMINS (R202). -/
  | atmins (d a b : Reg) (p : BitVec 3) (w : Bool)
  /-- ATMAXS (R202). -/
  | atmaxs (d a b : Reg) (p : BitVec 3) (w : Bool)
  /-- ATMINU (R202). -/
  | atminu (d a b : Reg) (p : BitVec 3) (w : Bool)
  /-- ATMAXU (R202). -/
  | atmaxu (d a b : Reg) (p : BitVec 3) (w : Bool)
  /-- ATAND (R202). -/
  | atand (d a b : Reg) (p : BitVec 3) (w : Bool)
  /-- ATOR (R202). -/
  | ator (d a b : Reg) (p : BitVec 3) (w : Bool)
  /-- ATXOR (R202). -/
  | atxor (d a b : Reg) (p : BitVec 3) (w : Bool)
  /-- ATXCH (R202). -/
  | atxch (d a b : Reg) (p : BitVec 3) (w : Bool)
  /-- ATCAS (R202). -/
  | atcas (d a b : Reg) (p : BitVec 3) (w : Bool)
  /-- FENCE (R215). -/
  | fence (paths : BitVec 5) (kind : FenceKind) (scope : Scope)
  /-- HARR (R279). -/
  | harr (h : Fin 24)
  /-- HWAIT (R279). -/
  | hwait (h : Fin 24)
  /-- HSYNC (R279). -/
  | hsync (h : Fin 24)
  /-- HTEST (R279). -/
  | htest (d : Reg) (h : Fin 24)
  /-- QBIND (R297). -/
  | qbind (p : Fin 4) (a : Reg)
  /-- QUNBIND (R297). -/
  | qunbind (p : Fin 4)
  /-- QSTAT (R298). -/
  | qstat (d : Reg) (p : Fin 4)
  /-- QCLOSE (R300). -/
  | qclose (p : Fin 4)
  /-- QCLOSEE (R300). -/
  | qclosee (p : Fin 4) (a : Reg)
  /-- QPOPS (R299). -/
  | qpops (d : Reg) (p : Fin 4) (b : Reg)
  /-- QPUSHU (R301). -/
  | qpushu (p : Fin 4) (a : Reg)
  /-- SPAWN (R302). -/
  | spawn (d a : Reg) (p : Fin 4)
  /-- LAUNCH (R325). -/
  | launch (d a : Reg)
  /-- SIGWR (R285). -/
  | sigwr (op : SigOp) (scope : Scope) (a b : Reg)
  /-- SIGWT (R285). -/
  | sigwt (cond : Cond) (scope : Scope) (a b : Reg)
  /-- SIGRD (R285). -/
  | sigrd (d a : Reg) (scope : Scope)
  /-- CPY1 (R236). -/
  | cpy1 (d a b : Reg)
  /-- CPY2 (R236). -/
  | cpy2 (d a b : Reg)
  /-- FILL (R237). -/
  | fill (d a b : Reg)
  /-- GATH (R237). -/
  | gath (d a b : Reg)
  /-- SCAT (R237). -/
  | scat (d a b : Reg)
  /-- FTEST (R242). -/
  | ftest (d a : Reg)
  /-- FCANCEL (R243). -/
  | fcancel (a : Reg)
  /-- FWAITH (R244). -/
  | fwaith (a : Reg)
  /-- FJOIN (R245). -/
  | fjoin (d a b : Reg)
  /-- LPUT (R419). -/
  | lput (d a b : Reg)
  /-- LGET (R419). -/
  | lget (d a b : Reg)
  /-- LRADD (R419). -/
  | lradd (d a b : Reg)
  /-- LSIG (R420). -/
  | lsig (d a b : Reg)
  /-- TEX (R372). -/
  | tex (d a b : Reg)
  /-- TEXL (R372). -/
  | texl (d a b : Reg)
  /-- TEXF (R372). -/
  | texf (d a b : Reg)
  /-- TEXG (R372). -/
  | texg (d a b : Reg)
  /-- IPERS (R370). -/
  | ipers (d a : Reg)
  /-- IFLAT (R370). -/
  | iflat (d a : Reg)
  /-- ICENT (R370). -/
  | icent (d a : Reg)
  /-- EMITC (R375). -/
  | emitc (a : Reg)
  /-- EMITCZ (R375). -/
  | emitcz (a b : Reg)
  /-- EMITV (R362). -/
  | emitv (d a b : Reg)
  /-- SRATE (R376). -/
  | srate (d a : Reg)
  /-- MMA (R257). -/
  | mma (d : Reg) (acc qa qb sa sb : BitVec 3) (z sp f : Bool)
  /-- ACZ (R266). -/
  | acz (d : Reg) (tile : BitVec 2)
  /-- ACLD (R266). -/
  | acld (d a : Reg) (slot : BitVec 3) (tile : BitVec 2)
  /-- ACST (R266). -/
  | acst (d a : Reg) (slot : BitVec 3) (tile : BitVec 2)
  /-- ACSTR (R266). -/
  | acstr (d a : Reg) (tile : BitVec 2)
  /-- ACLDR (R266). -/
  | acldr (d a : Reg) (tile : BitVec 2)
  /-- ACFOLD (R266). -/
  | acfold (d : Reg) (tile : BitVec 2)
  /-- MQUANT (R269). -/
  | mquant (d a b : Reg)
  /-- MDEQ (R269). -/
  | mdeq (d a b : Reg)
  /-- MPIN (R270). -/
  | mpin (d a b : Reg)
  /-- MUNPIN (R270). -/
  | munpin (a b : Reg)
  /-- SREAD (R402). -/
  | sread (d : Reg) (sr : BitVec 7) (pr : Bool)
  /-- SWRITE (R403). -/
  | swrite (sr : BitVec 7) (b : Reg)
  /-- WIN (R68). -/
  | win (a : Reg) (n : BitVec 5) (ea : Bool)
  /-- SLOTQ (R393). -/
  | slotq (d a : Reg) (sel : SlotSel)
  /-- NOP (R92). -/
  | nop
  /-- RET (R84). -/
  | ret
  /-- JOIN (R79). -/
  | join
  /-- EXIT (R86). -/
  | exit
  /-- EXITS (R86). -/
  | exits
  /-- WAITLD (R91). -/
  | waitld
  /-- WAITSFU (R91). -/
  | waitsfu
  /-- WAITALL (R91). -/
  | waitall
  /-- YIELD (R92). -/
  | yield
  /-- SLEEPT_WAKE (R93). Its operand: sid -/
  | sleeptWake
  /-- SLEEPW_RECHECK (R93). Its operand: sid -/
  | sleepwRecheck
  /-- SFU_RESULT_ARRIVAL (R136). Its operand: lane -/
  | sfuResultArrival
  /-- LOAD_ARRIVAL (R196). Its operand: id -/
  | loadArrival
  /-- STORE_PERFORM (R207). Its operand: id -/
  | storePerform
  /-- CACHE_LINE_FILL (R192). Its operand: line -/
  | cacheLineFill
  /-- ATOMIC_PERFORM (R203). Its operand: id -/
  | atomicPerform
  /-- ATOMIC_RETURN (R204). Its operand: id -/
  | atomicReturn
  /-- HINGE_DEADLOCK (R281). Its operand: bid -/
  | hingeDeadlock
  /-- SPAWN_RESERVATION (R302). Its operand: id -/
  | spawnReservation
  /-- POP_ARRIVAL (R293). Its operand: id -/
  | popArrival
  /-- SPILL_MOVE (R295). Its operand: qid -/
  | spillMove
  /-- SIGWT_RECHECK (R285). Its operand: sid -/
  | sigwtRecheck
  /-- COPY_UNIT_START (R240). Its operand: cmd, unit -/
  | copyUnitStart
  /-- COPY_UNIT_DONE (R238). Its operand: cmd, unit -/
  | copyUnitDone
  /-- CANCEL_REACH (R243). Its operand: ctx, rec -/
  | cancelReach
  /-- FUTURE_DONE (R229). Its operand: ctx, rec -/
  | futureDone
  /-- FUTURE_FAIL (R229). Its operand: ctx, rec -/
  | futureFail
  /-- FLIT_RECEIVE (R419). Its operand: flit -/
  | flitReceive
  /-- FLIT_ACK (R419). Its operand: ctx, rec, ack -/
  | flitAck
  /-- FENCE_TOKEN_ARRIVE (R222). Its operand: src, count -/
  | fenceTokenArrive
  /-- TEXEL_ARRIVAL (R373). Its operand: id -/
  | texelArrival
  /-- DISCARD (R375). -/
  | discard
  /-- BINNER_ANSWER (R362). Its operand: id -/
  | binnerAnswer
  /-- MATRIX_ENTRY_START (R253). Its operand: core, idx -/
  | matrixEntryStart
  /-- MATRIX_ENTRY_END (R256). Its operand: core, idx -/
  | matrixEntryEnd
  /-- MMA_SPAN_STOP (R259). Its operand: core, idx -/
  | mmaSpanStop
  /-- CAPTURE_END (R271). Its operand: bid -/
  | captureEnd
  /-- SH_SAVE (R405). Its operand: sid -/
  | shSave
  /-- SH_LOAD (R405). Its operand: sid -/
  | shLoad
  /-- SH_PARK (R405). Its operand: sid -/
  | shPark
  /-- BRAID_SAVED (R405). Its operand: bid -/
  | braidSaved
  /-- RTT (R410). -/
  | rtt
  /-- TRAP_ENTRY (R396). Its operand: sid -/
  | trapEntry
  /-- DBG_KILL (R400). Its operand: core, lane, slot -/
  | dbgKill
  /-- DBG_RESUME (R400). Its operand: core, lane, slot -/
  | dbgResume
  /-- WALK_START (R172). Its operand: quad, rec -/
  | walkStart
  /-- WALK_DONE (R173). Its operand: quad, rec -/
  | walkDone
  /-- MISS_RESP_RETRY (R175). Its operand: quad, rec -/
  | missRespRetry
  /-- MISS_RESP_FAULT (R175). Its operand: quad, rec -/
  | missRespFault
  /-- INV_RANGE (R177). Its operand: ctx -/
  | invRange
  /-- INV_CONTEXT (R177). Its operand: ctx -/
  | invContext
  /-- INV_ALL (R177). -/
  | invAll
  /-- INV_DONE (R178). -/
  | invDone
  /-- ZERO_START (R180). Its operand: val -/
  | zeroStart
  /-- ZERO_DONE (R163). Its operand: idx -/
  | zeroDone
  /-- VAULT_MAP_WRITE (R184). Its operand: vault, val -/
  | vaultMapWrite
  /-- CACHE_UNITS_WRITE (R184). Its operand: val -/
  | cacheUnitsWrite
  /-- CACHE_RESIZE_DONE (R184). -/
  | cacheResizeDone
  /-- KEYRING_LOAD (R421). Its operand: val -/
  | keyringLoad
  /-- EVR_HEAD_WRITE (R309). Its operand: val -/
  | evrHeadWrite
  /-- REGISTER_WRITE (R421). Its operand: off, val -/
  | registerWrite
  /-- DOORBELL (R422). Its operand: cq, tail -/
  | doorbell
  /-- CQ_EN_SET (R422). Its operand: cq, val -/
  | cqEnSet
  /-- CQ_EN_CLEAR (R422). Its operand: cq, val -/
  | cqEnClear
  /-- LAUNCH_PACKET (R315). Its operand: cq -/
  | launchPacket
  /-- FEED (R304). Its operand: cq -/
  | feed
  /-- FEED_APPEND (R305). Its operand: cq -/
  | feedAppend
  /-- SIGNAL_WRITE (R286). Its operand: cq -/
  | signalWrite
  /-- SIGNAL_WAIT (R286). Its operand: cq -/
  | signalWait
  /-- SIGNAL_WAIT_SATISFIED (R286). Its operand: cq -/
  | signalWaitSatisfied
  /-- SEED_PUSH (R164). Its operand: cq -/
  | seedPush
  /-- SEED_POP (R164). Its operand: cq -/
  | seedPop
  /-- SEED_FORK (R164). Its operand: cq -/
  | seedFork
  /-- STREAM_SET (R333). Its operand: cq -/
  | streamSet
  /-- STREAM_STOP (R333). Its operand: cq -/
  | streamStop
  /-- FRAME_SUBMIT (R355). Its operand: cq -/
  | frameSubmit
  /-- FRAME_SUBMIT_ACCEPT (R355). Its operand: cq -/
  | frameSubmitAccept
  /-- QUEUE_OPEN (R289). Its operand: cq -/
  | queueOpen
  /-- QUEUE_RESET (R290). Its operand: cq -/
  | queueReset
  /-- QUEUE_FREE (R290). Its operand: cq -/
  | queueFree
  /-- QUEUE_RESUME (R290). Its operand: cq -/
  | queueResume
  /-- FENCE_SYS (R224). Its operand: cq -/
  | fenceSys
  /-- CONTEXT_CREATE (R161). Its operand: cq -/
  | contextCreate
  /-- CONTEXT_MODIFY (R160). Its operand: cq -/
  | contextModify
  /-- CONTEXT_DESTROY (R161). Its operand: cq -/
  | contextDestroy
  /-- CONTEXT_DRAINED (R161). Its operand: ctx -/
  | contextDrained
  /-- CONTEXT_ZEROED (R161). Its operand: ctx -/
  | contextZeroed
  /-- BRAID_PLACE (R317). Its operand: kernel, index, core -/
  | braidPlace
  /-- BRAID_RESTORE (R409). Its operand: bid, core -/
  | braidRestore
  /-- SWAP_OUT (R322). Its operand: sid -/
  | swapOut
  /-- DETERMINISTIC_RELEASE (R218). Its operand: bid -/
  | deterministicRelease
  /-- KERNEL_END (R323). Its operand: kid -/
  | kernelEnd
  /-- CHAIN_CLEAR (R343). Its operand: stream, frame, strip -/
  | chainClear
  /-- CHAIN_START (R340). Its operand: stream, frame, strip -/
  | chainStart
  /-- REPLAY_LAUNCH (R366). Its operand: chain -/
  | replayLaunch
  /-- QUAD_FORM (R367). Its operand: chain -/
  | quadForm
  /-- RATE_CHECKPOINT (R348). Its operand: chain -/
  | rateCheckpoint
  /-- BLEND_RETIRE (R377). Its operand: frag -/
  | blendRetire
  /-- CHAIN_CUTOFF (R351). Its operand: chain -/
  | chainCutoff
  /-- CUTOFF_RETIRE (R413). Its operand: chain -/
  | cutoffRetire
  /-- STRIP_READ (R352). Its operand: stream, frame, strip -/
  | stripRead
  /-- DP_LINE_SEND (R379). Its operand: stream, frame, line -/
  | dpLineSend
  /-- ENCODE_STRIP (R380). Its operand: stream, frame, strip -/
  | encodeStrip
  /-- LOOPBACK_CAPTURE (R381). Its operand: stream, frame, line -/
  | loopbackCapture
  /-- PTP_SYNC (R328). Its operand: offset -/
  | ptpSync
  /-- PTP_SYNC_TIMEOUT (R328). -/
  | ptpSyncTimeout
  /-- TB_EN_SET (R328). Its operand: val -/
  | tbEnSet
  /-- TB_EN_CLEAR (R328). Its operand: val -/
  | tbEnClear
  /-- TB_SET (R329). Its operand: val -/
  | tbSet
  /-- SLOT_DRAIN_WINDOW (R385). -/
  | slotDrainWindow
  /-- REFRESH_SLOT_START (R382). -/
  | refreshSlotStart
  /-- CALIBRATION_SLOT_START (R382). -/
  | calibrationSlotStart
  /-- RETRAIN_SLOT_START (R415). -/
  | retrainSlotStart
  /-- SWEEP_SLOT (R389). -/
  | sweepSlot
  /-- SLOT_END (R387). Its operand: over, ctrl -/
  | slotEnd
  /-- SLOT_STRETCH_END (R387). Its operand: done -/
  | slotStretchEnd
  /-- DROOP_DETECT (R390). Its operand: quad -/
  | droopDetect
  /-- DROOP_STEP (R390). Its operand: quad -/
  | droopStep
  /-- DROOP_STEP_REMOVE (R390). Its operand: quad -/
  | droopStepRemove
  /-- THERMAL_SHUTDOWN (R433). Its operand: temp -/
  | thermalShutdown
  /-- BOOT (R426). -/
  | boot
  /-- HEARTBEAT (R429). -/
  | heartbeat
  /-- WATCHDOG_TIMEOUT (R429). -/
  | watchdogTimeout
  /-- RECOVERY_END (R430). -/
  | recoveryEnd
  /-- KP_READ (R432). Its operand: val -/
  | kpRead
  /-- KP_ATTEST (R432). Its operand: val -/
  | kpAttest
  /-- KEEPER_CMD_DONE (R432). -/
  | keeperCmdDone
  /-- LINK_EN_SET (R415). Its operand: port, val -/
  | linkEnSet
  /-- LINK_EN_CLEAR (R415). Its operand: port, val -/
  | linkEnClear
  /-- LINK_TRAINED (R415). Its operand: port -/
  | linkTrained
  /-- LINK_TRAIN_FAIL (R416). Its operand: port -/
  | linkTrainFail
  /-- LINK_RETRAIN_PENDING (R415). Its operand: port -/
  | linkRetrainPending
  /-- LAUNCH_ACCEPTANCE (R325). Its operand: id -/
  | launchAcceptance
  /-- HOST_MEMORY_ACCESS (R421). Its operand: pa, len, write -/
  | hostMemoryAccess
  /-- PTP_ANNOUNCE (R328). Its operand: master -/
  | ptpAnnounce
  /-- FIRMWARE_REPLACEMENT (R427). Its operand: step, image -/
  | firmwareReplacement
  /-- MGMT_ATTEST_REQUEST (R428). Its operand: nonce -/
  | mgmtAttestRequest
  deriving DecidableEq, Repr

/-- A happening with its operand. -/
structure Happening where
  row : Instr
  arg : Arg := .none
  deriving DecidableEq, Repr

end Sys2Proof
end

