-- ==== Sys2Proof/WellFormed.lean ====
section
/-!
DEFINITION. Which terms of Instr are instructions of the manual: the limits that the immediates of
03_encoding.md R46 have beyond their fields. A happening names nothing in its term.
-/

namespace Sys2Proof

/-- The formats CVTN converts to, with the positions each takes (R129, R130). -/
def cvtnOk (fmt : Fmt) (pos : BitVec 2) : Bool :=
  match fmt with
  | .fp16 | .bf16 | .int16 | .uint16 => pos.toNat < 2
  | .e4m3 | .e5m2 | .e2m1 | .ds8 | .int8 | .uint8 => true
  | .fp32 | .e8m0 | .int32 | .uint32 => false

/-- The formats CVTW widens from, with the positions each takes (R132). -/
def cvtwOk (fmt : Fmt) (pos : BitVec 3) : Bool :=
  match fmt with
  | .fp16 | .bf16 | .int16 | .uint16 => pos.toNat < 2
  | .e4m3 | .e5m2 | .ds8 | .e8m0 | .int8 | .uint8 => pos.toNat < 4
  | .e2m1 => true
  | .fp32 | .int32 | .uint32 => false

/-- The body end of LOOP lies 2 to 131,071 words ahead (R73). -/
def loopOffOk (off : BitVec 18) : Bool := 2 ≤ off.toNat && off.toNat < 2 ^ 17

/-- The limits of an instruction's immediates. -/
def Instr.wf : Instr → Bool
  | .ill _ => true
  | .illErased _ => true
  | .bra _ => true
  | .call _ => true
  | .bnz _ _ => true
  | .bz _ _ => true
  | .brx _ _ => true
  | .callx _ _ => true
  | .jpt _ => true
  | .loop _ off => loopOffOk off
  | .wait _ => true
  | .sleept _ _ => true
  | .sleepq _ => true
  | .sleepw _ _ _ _ => true
  | .brkpt _ => true
  | .trap _ => true
  | .add _ _ _ _ _ => true
  | .addc _ _ _ _ _ => true
  | .sub _ _ _ _ _ => true
  | .subb _ _ _ _ _ => true
  | .addi _ _ _ _ => true
  | .mul _ _ _ _ _ => true
  | .mulhu _ _ _ _ _ => true
  | .mulhs _ _ _ _ _ => true
  | .mulhsu _ _ _ _ _ => true
  | .mad _ _ _ _ _ => true
  | .divu _ _ _ _ _ => true
  | .divs _ _ _ _ _ => true
  | .remu _ _ _ _ _ => true
  | .rems _ _ _ _ _ => true
  | .minu _ _ _ _ _ => true
  | .mins _ _ _ _ _ => true
  | .maxu _ _ _ _ _ => true
  | .maxs _ _ _ _ _ => true
  | .and _ _ _ _ _ => true
  | .or _ _ _ _ _ => true
  | .xor _ _ _ _ _ => true
  | .andn _ _ _ _ _ => true
  | .andi _ _ _ _ => true
  | .ori _ _ _ _ => true
  | .xori _ _ _ _ => true
  | .shl _ _ _ _ _ => true
  | .shr _ _ _ _ _ => true
  | .sar _ _ _ _ _ => true
  | .rol _ _ _ _ _ => true
  | .shli _ _ _ _ => true
  | .shri _ _ _ _ => true
  | .sari _ _ _ _ => true
  | .roli _ _ _ _ => true
  | .clz _ _ _ => true
  | .ctz _ _ _ => true
  | .popc _ _ _ => true
  | .brev _ _ _ => true
  | .bfxu _ _ _ _ _ => true
  | .bfxs _ _ _ _ _ => true
  | .bfi _ _ _ _ _ => true
  | .ilv2 _ _ _ _ _ => true
  | .ilv3 _ _ _ _ _ => true
  | .dlv2 _ _ _ => true
  | .dlv3 _ _ _ _ _ => true
  | .ceq _ _ _ _ _ => true
  | .cne _ _ _ _ _ => true
  | .cltu _ _ _ _ _ => true
  | .clts _ _ _ _ _ => true
  | .cleu _ _ _ _ _ => true
  | .cles _ _ _ _ _ => true
  | .cbit _ _ _ _ _ => true
  | .sel _ _ _ _ _ => true
  | .abs _ _ _ => true
  | .neg _ _ _ => true
  | .sext8 _ _ _ => true
  | .sext16 _ _ _ => true
  | .movh _ _ => true
  | .orl _ _ => true
  | .mov _ _ _ => true
  | .movp _ _ _ => true
  | .movf _ _ _ => true
  | .add64 _ _ _ _ _ => true
  | .sub64 _ _ _ _ _ => true
  | .shl64 _ _ _ _ _ => true
  | .shru64 _ _ _ _ _ => true
  | .fadd _ _ _ _ _ => true
  | .fsub _ _ _ _ _ => true
  | .fmul _ _ _ _ _ => true
  | .ffma _ _ _ _ _ => true
  | .ffms _ _ _ _ _ => true
  | .fnma _ _ _ _ _ => true
  | .fnms _ _ _ _ _ => true
  | .fmin _ _ _ _ _ => true
  | .fmax _ _ _ _ _ => true
  | .fminn _ _ _ _ _ => true
  | .fmaxn _ _ _ _ _ => true
  | .fceq _ _ _ _ _ => true
  | .fclt _ _ _ _ _ => true
  | .fcle _ _ _ _ _ => true
  | .fcun _ _ _ _ _ => true
  | .fabs _ _ _ => true
  | .fneg _ _ _ => true
  | .fclass _ _ _ => true
  | .frne _ _ _ => true
  | .frtz _ _ _ => true
  | .frdn _ _ _ => true
  | .frup _ _ _ => true
  | .cvtuf _ _ _ => true
  | .cvtsf _ _ _ => true
  | .cvtfu _ _ _ => true
  | .cvtfs _ _ _ => true
  | .cvtn _ _ fmt _ _ pos _ => cvtnOk fmt pos
  | .cvtw _ _ fmt pos _ => cvtwOk fmt pos
  | .badd2 _ _ _ _ _ => true
  | .bmul2 _ _ _ _ _ => true
  | .hadd2 _ _ _ _ _ => true
  | .hmul2 _ _ _ _ _ => true
  | .bfma2 _ _ _ _ _ => true
  | .hfma2 _ _ _ _ _ => true
  | .rcp _ _ _ => true
  | .rsq _ _ _ => true
  | .sqrt _ _ _ => true
  | .ex2 _ _ _ => true
  | .lg2 _ _ _ => true
  | .sin _ _ _ => true
  | .cos _ _ _ => true
  | .tanh _ _ _ => true
  | .idot4ss _ _ _ _ _ => true
  | .idot4uu _ _ _ _ _ => true
  | .idot4su _ _ _ _ _ => true
  | .idot4us _ _ _ _ _ => true
  | .fscl _ _ _ _ _ => true
  | .fexp _ _ _ => true
  | .fmnt _ _ _ => true
  | .scani _ _ _ _ _ => true
  | .scanx _ _ _ _ _ => true
  | .scanf _ _ _ _ _ => true
  | .scanfx _ _ _ _ _ => true
  | .scanmaxs _ _ _ => true
  | .scanmins _ _ _ => true
  | .scanmaxu _ _ _ => true
  | .scanminu _ _ _ => true
  | .scanand _ _ _ => true
  | .scanor _ _ _ => true
  | .scanxor _ _ _ => true
  | .sscani _ _ _ _ _ => true
  | .sscanx _ _ _ _ _ => true
  | .sscanf _ _ _ _ _ => true
  | .sscanfx _ _ _ _ _ => true
  | .redi _ _ _ => true
  | .redf _ _ _ => true
  | .redmax _ _ _ => true
  | .redmin _ _ _ => true
  | .vany _ _ _ => true
  | .vall _ _ _ => true
  | .vbal _ _ _ => true
  | .vcnt _ _ _ => true
  | .bcast _ _ _ _ _ => true
  | .bfirst _ _ _ => true
  | .blast _ _ _ => true
  | .prev _ _ _ _ _ => true
  | .next _ _ _ _ _ => true
  | .rotp _ _ _ => true
  | .rotn _ _ _ => true
  | .permg _ _ _ _ _ => true
  | .perms _ _ _ _ _ => true
  | .topkd _ _ _ _ _ => true
  | .topka _ _ _ _ _ => true
  | .topkm _ _ _ _ _ => true
  | .matchB _ _ _ => true
  | .match64 _ _ _ => true
  | .rand _ => true
  | .randf _ => true
  | .electl _ => true
  | .electh _ => true
  | .ld _ _ _ _ _ => true
  | .st _ _ _ _ _ => true
  | .ldu _ _ _ _ _ => true
  | .lds _ _ _ _ => true
  | .sts _ _ _ _ => true
  | .atadd _ _ _ _ _ => true
  | .atfadd _ _ _ _ => true
  | .atmins _ _ _ _ _ => true
  | .atmaxs _ _ _ _ _ => true
  | .atminu _ _ _ _ _ => true
  | .atmaxu _ _ _ _ _ => true
  | .atand _ _ _ _ _ => true
  | .ator _ _ _ _ _ => true
  | .atxor _ _ _ _ _ => true
  | .atxch _ _ _ _ _ => true
  | .atcas _ _ _ _ _ => true
  | .fence paths _ _ => paths != 0
  | .harr _ => true
  | .hwait _ => true
  | .hsync _ => true
  | .htest _ _ => true
  | .qbind _ _ => true
  | .qunbind _ => true
  | .qstat _ _ => true
  | .qclose _ => true
  | .qclosee _ _ => true
  | .qpops _ _ _ => true
  | .qpushu _ _ => true
  | .spawn _ _ _ => true
  | .launch _ _ => true
  | .sigwr _ _ _ _ => true
  | .sigwt _ _ _ _ => true
  | .sigrd _ _ _ => true
  | .cpy1 _ _ _ => true
  | .cpy2 _ _ _ => true
  | .fill _ _ _ => true
  | .gath _ _ _ => true
  | .scat _ _ _ => true
  | .ftest _ _ => true
  | .fcancel _ => true
  | .fwaith _ => true
  | .fjoin _ _ _ => true
  | .lput _ _ _ => true
  | .lget _ _ _ => true
  | .lradd _ _ _ => true
  | .lsig _ _ _ => true
  | .tex _ _ _ => true
  | .texl _ _ _ => true
  | .texf _ _ _ => true
  | .texg _ _ _ => true
  | .ipers _ _ => true
  | .iflat _ _ => true
  | .icent _ _ => true
  | .emitc _ => true
  | .emitcz _ _ => true
  | .emitv _ _ _ => true
  | .srate _ _ => true
  | .mma _ _ _ _ _ _ _ _ _ => true
  | .acz _ _ => true
  | .acld _ _ _ _ => true
  | .acst _ _ _ _ => true
  | .acstr _ _ _ => true
  | .acldr _ _ _ => true
  | .acfold _ _ => true
  | .mquant _ _ _ => true
  | .mdeq _ _ _ => true
  | .mpin _ _ _ => true
  | .munpin _ _ => true
  | .sread _ _ _ => true
  | .swrite _ _ => true
  | .win _ _ _ => true
  | .slotq _ _ _ => true
  | .nop => true
  | .ret => true
  | .join => true
  | .exit => true
  | .exits => true
  | .waitld => true
  | .waitsfu => true
  | .waitall => true
  | .yield => true
  | .sleeptWake => true
  | .sleepwRecheck => true
  | .sfuResultArrival => true
  | .loadArrival => true
  | .storePerform => true
  | .cacheLineFill => true
  | .atomicPerform => true
  | .atomicReturn => true
  | .hingeDeadlock => true
  | .spawnReservation => true
  | .popArrival => true
  | .spillMove => true
  | .sigwtRecheck => true
  | .copyUnitStart => true
  | .copyUnitDone => true
  | .cancelReach => true
  | .futureDone => true
  | .futureFail => true
  | .flitReceive => true
  | .flitAck => true
  | .fenceTokenArrive => true
  | .texelArrival => true
  | .discard => true
  | .binnerAnswer => true
  | .matrixEntryStart => true
  | .matrixEntryEnd => true
  | .mmaSpanStop => true
  | .captureEnd => true
  | .shSave => true
  | .shLoad => true
  | .shPark => true
  | .braidSaved => true
  | .rtt => true
  | .trapEntry => true
  | .dbgKill => true
  | .dbgResume => true
  | .walkStart => true
  | .walkDone => true
  | .missRespRetry => true
  | .missRespFault => true
  | .invRange => true
  | .invContext => true
  | .invAll => true
  | .invDone => true
  | .zeroStart => true
  | .zeroDone => true
  | .vaultMapWrite => true
  | .cacheUnitsWrite => true
  | .cacheResizeDone => true
  | .keyringLoad => true
  | .evrHeadWrite => true
  | .registerWrite => true
  | .doorbell => true
  | .cqEnSet => true
  | .cqEnClear => true
  | .launchPacket => true
  | .feed => true
  | .feedAppend => true
  | .signalWrite => true
  | .signalWait => true
  | .signalWaitSatisfied => true
  | .seedPush => true
  | .seedPop => true
  | .seedFork => true
  | .streamSet => true
  | .streamStop => true
  | .frameSubmit => true
  | .frameSubmitAccept => true
  | .queueOpen => true
  | .queueReset => true
  | .queueFree => true
  | .queueResume => true
  | .fenceSys => true
  | .contextCreate => true
  | .contextModify => true
  | .contextDestroy => true
  | .contextDrained => true
  | .contextZeroed => true
  | .braidPlace => true
  | .braidRestore => true
  | .swapOut => true
  | .deterministicRelease => true
  | .kernelEnd => true
  | .chainClear => true
  | .chainStart => true
  | .replayLaunch => true
  | .quadForm => true
  | .rateCheckpoint => true
  | .blendRetire => true
  | .chainCutoff => true
  | .cutoffRetire => true
  | .stripRead => true
  | .dpLineSend => true
  | .encodeStrip => true
  | .loopbackCapture => true
  | .ptpSync => true
  | .ptpSyncTimeout => true
  | .tbEnSet => true
  | .tbEnClear => true
  | .tbSet => true
  | .slotDrainWindow => true
  | .refreshSlotStart => true
  | .calibrationSlotStart => true
  | .retrainSlotStart => true
  | .sweepSlot => true
  | .slotEnd => true
  | .slotStretchEnd => true
  | .droopDetect => true
  | .droopStep => true
  | .droopStepRemove => true
  | .thermalShutdown => true
  | .boot => true
  | .heartbeat => true
  | .watchdogTimeout => true
  | .recoveryEnd => true
  | .kpRead => true
  | .kpAttest => true
  | .keeperCmdDone => true
  | .linkEnSet => true
  | .linkEnClear => true
  | .linkTrained => true
  | .linkTrainFail => true
  | .linkRetrainPending => true
  | .launchAcceptance => true
  | .hostMemoryAccess => true
  | .ptpAnnounce => true
  | .firmwareReplacement => true
  | .mgmtAttestRequest => true

end Sys2Proof
end

