-- ==== Sys2Proof/Decode.lean ====
section
/-!
DEFINITION. Decoding of the 32-bit instruction word (03_encoding.md R33, R34, R45, R46; checks 1 to 3 of R47),
total on every word and refusing by name, and after it the encoder written from the same tables.
-/

namespace Sys2Proof

/-- Why a word names no instruction: the check of R47 that fails first. Every one of them is the ILLEGAL trap. -/
inductive DecodeError where
  /-- Check 1: the opcode is reserved. -/
  | reservedOpcode
  /-- Check 2: the form selector names no form. -/
  | noSuchForm
  /-- Check 3: a field that must be zero is not zero (R35). -/
  | mbzNonzero
  /-- Check 3: an immediate holds a value that its chapter does not list (R46). -/
  | badImmediate
  deriving DecidableEq, Repr

/-- What decoding answers. -/
abbrev Decoded := Except DecodeError Instr

/-! ### The codes of the fields -/

/-- The field value that names a register (R37). -/
def Reg.code : Reg → Nat
  | .bead n => n.val
  | .uni n => 88 + n.val
  | .zr => 120
  | .bx => 121
  | .sx => 122
  | .lc => 123
  | .q n => 124 + n.val

/-- The register a 7-bit field value names (R37). -/
def Reg.ofCode (c : Nat) : Reg :=
  if h : c < 88 then .bead ⟨c, h⟩
  else if h : c - 88 < 32 then .uni ⟨c - 88, h⟩
  else if c = 120 then .zr
  else if c = 121 then .bx
  else if c = 122 then .sx
  else if c = 123 then .lc
  else .q ⟨(c - 124) % 4, Nat.mod_lt _ (by decide)⟩

/-- The field value of a port (R37, R46). -/
def portCode (p : Fin 4) : Nat := 124 + p.val

/-- The port that a port field names, if it names one (R46). -/
def portOf (c : Nat) : Option (Fin 4) :=
  if h : c - 124 < 4 then if 124 ≤ c then some ⟨c - 124, h⟩ else none else none

/-- The format codes of R14. -/
def Fmt.code : Fmt → Nat
  | .fp32 => 0 | .fp16 => 1 | .bf16 => 2 | .e4m3 => 3 | .e5m2 => 4 | .e2m1 => 5 | .ds8 => 6
  | .e8m0 => 7 | .int8 => 8 | .uint8 => 9 | .int16 => 10 | .uint16 => 11 | .int32 => 12 | .uint32 => 13

/-- The format a code names; 0xE and 0xF are reserved (R14). -/
def Fmt.ofCode : Nat → Option Fmt
  | 0 => some .fp32 | 1 => some .fp16 | 2 => some .bf16 | 3 => some .e4m3 | 4 => some .e5m2
  | 5 => some .e2m1 | 6 => some .ds8 | 7 => some .e8m0 | 8 => some .int8 | 9 => some .uint8
  | 10 => some .int16 | 11 => some .uint16 | 12 => some .int32 | 13 => some .uint32 | _ => none

/-- The mode codes of R26. -/
def Rnd.code : Rnd → Nat
  | .rne => 0 | .rtz => 1 | .rdn => 2 | .rup => 3 | .sr => 4 | .rnes => 5

/-- The mode a code names (R26). -/
def Rnd.ofCode : Nat → Option Rnd
  | 0 => some .rne | 1 => some .rtz | 2 => some .rdn | 3 => some .rup | 4 => some .sr
  | 5 => some .rnes | _ => none

/-- The scope codes of R206. -/
def Scope.code : Scope → Nat
  | .strand => 0 | .braid => 1 | .locket => 2 | .device => 3 | .system => 4

/-- The scope a code names (R206, R214). -/
def Scope.ofCode : Nat → Option Scope
  | 0 => some .strand | 1 => some .braid | 2 => some .locket | 3 => some .device
  | 4 => some .system | _ => none

/-- The mask bit of a path (R205). -/
def Path.bit : Path → Nat
  | .b => 0 | .c => 1 | .m => 2 | .x => 3 | .l => 4

/-- The kind codes of FENCE (R213). -/
def FenceKind.code : FenceKind → Nat
  | .acq => 1 | .rel => 2 | .ar => 3

/-- The kind a code names (R213, R214). -/
def FenceKind.ofCode : Nat → Option FenceKind
  | 1 => some .acq | 2 => some .rel | 3 => some .ar | _ => none

/-- The op codes of SIGWR (R284). -/
def SigOp.code : SigOp → Nat
  | .set => 0 | .add => 1 | .maxu => 2

/-- The op a code names; 3 is not listed (R284). -/
def SigOp.ofCode : Nat → Option SigOp
  | 0 => some .set | 1 => some .add | 2 => some .maxu | _ => none

/-- The condition codes of SIGWT (R284). -/
def Cond.code : Cond → Nat
  | .eq => 0 | .ne => 1 | .geu => 2 | .ltu => 3

/-- The condition a code names (R284). -/
def Cond.ofCode : Nat → Option Cond
  | 0 => some .eq | 1 => some .ne | 2 => some .geu | 3 => some .ltu | _ => none

/-- The selector codes of SLOTQ (R392). -/
def SlotSel.code : SlotSel → Nat
  | .refresh => 0 | .calib => 1 | .retrain => 2 | .sweep => 3 | .lpddr => 4 | .info => 5

/-- The selector a code names; 6 and 7 are not listed (R392). -/
def SlotSel.ofCode : Nat → Option SlotSel
  | 0 => some .refresh | 1 => some .calib | 2 => some .retrain | 3 => some .sweep
  | 4 => some .lpddr | 5 => some .info | _ => none

/-- The width codes of format M (R34). -/
def Width.code : Width → Nat
  | .w8 => 0 | .w16 => 1 | .w32 => 2 | .w64 => 3

/-- The width a 2-bit code names (R34). -/
def Width.ofCode : Nat → Width
  | 0 => .w8 | 1 => .w16 | 2 => .w32 | _ => .w64

/-- The bytes of an access width, 2^w (R196). -/
def Width.bytes (w : Width) : Nat := 2 ^ w.code

/-! ### The fields of the formats (R33) -/

/-- The major opcode, bits [31:25]. -/
def fOp (x : Nat) : Nat := x / 2 ^ 25 % 128
/-- Bits [24:18]. -/
def fD (x : Nat) : Nat := x / 2 ^ 18 % 128
/-- Bits [17:11]. -/
def fA (x : Nat) : Nat := x / 2 ^ 11 % 128
/-- Bits [10:4]. -/
def fB (x : Nat) : Nat := x / 2 ^ 4 % 128
/-- Bits [3:0], the f field of format X. -/
def fX (x : Nat) : Nat := x % 16
/-- Bits [1:0], the f field of format R. -/
def fR (x : Nat) : Nat := x % 4
/-- Bit [3], the e bit of source a in format R. -/
def fEa (x : Nat) : Nat := x / 8 % 2
/-- Bit [2], the e bit of source b in format R. -/
def fEb (x : Nat) : Nat := x / 4 % 2
/-- Bits [10:1], the immediate of format I. -/
def fI (x : Nat) : Nat := x / 2 % 1024
/-- Bit [0], the e bit of format I and the width of format A. -/
def f0 (x : Nat) : Nat := x % 2
/-- Bits [17:0], the offset of format B and the immediate of format U. -/
def f18 (x : Nat) : Nat := x % 2 ^ 18
/-- Bits [24:0], the offset of format J. -/
def f25 (x : Nat) : Nat := x % 2 ^ 25
/-- Bits [10:7], the base pair of format M. -/
def fP (x : Nat) : Nat := x / 2 ^ 7 % 16
/-- Bits [6:2], the displacement of format M. -/
def fDisp (x : Nat) : Nat := x / 4 % 32
/-- Bits [3:1], the base pair of format A. -/
def fP3 (x : Nat) : Nat := x / 2 % 8

/-- The register named by bits [24:18]. -/
def rD (x : Nat) : Reg := Reg.ofCode (fD x)
/-- The register named by bits [17:11]. -/
def rA (x : Nat) : Reg := Reg.ofCode (fA x)
/-- The register named by bits [10:4]. -/
def rB (x : Nat) : Reg := Reg.ofCode (fB x)
/-- A one-bit field as a Boolean. -/
def flag (n : Nat) : Bool := n == 1

/-- Check 3 for the fields that must be zero: their sum is zero (R35). -/
def mbz (n : Nat) (k : Decoded) : Decoded := if n = 0 then k else .error .mbzNonzero

/-- Check 3 for an immediate: go on with the value it names, if it is listed (R46). -/
def listed {α : Type} (o : Option α) (k : α → Decoded) : Decoded :=
  match o with
  | some v => k v
  | none => .error .badImmediate

/-- Check 3 for a limit on an immediate. -/
def limit (c : Bool) (k : Decoded) : Decoded := if c then k else .error .badImmediate

/-- A hinge number below 24, if the field holds one (R278). -/
def hingeOf (n : Nat) : Option (Fin 24) := if h : n < 24 then some ⟨n, h⟩ else none

/-! ### One decoder an opcode -/

/-- Opcode 0x00, format J. -/
def decode00 (x : Nat) : Decoded :=
  .ok (.ill (BitVec.ofNat 25 (f25 x)))

/-- Opcode 0x01, format J. -/
def decode01 (x : Nat) : Decoded :=
  mbz (f25 x) (.ok (.nop))

/-- Opcode 0x02, format J. -/
def decode02 (x : Nat) : Decoded :=
  .ok (.bra (BitVec.ofNat 25 (f25 x)))

/-- Opcode 0x03, format J. -/
def decode03 (x : Nat) : Decoded :=
  .ok (.call (BitVec.ofNat 25 (f25 x)))

/-- Opcode 0x04, format B. -/
def decode04 (x : Nat) : Decoded :=
  .ok (.bnz (rD x) (BitVec.ofNat 18 (f18 x)))

/-- Opcode 0x05, format B. -/
def decode05 (x : Nat) : Decoded :=
  .ok (.bz (rD x) (BitVec.ofNat 18 (f18 x)))

/-- Opcode 0x06, format R. -/
def decode06 (x : Nat) : Decoded :=
  match fR x with
  | 0 => mbz (fD x + fB x + fEb x) (.ok (.brx (rA x) (flag (fEa x))))
  | 1 => mbz (fD x + fB x + fEb x) (.ok (.callx (rA x) (flag (fEa x))))
  | 2 => mbz (fD x + fA x + fB x + fEa x + fEb x) (.ok (.ret))
  | _ => .error .noSuchForm

/-- Opcode 0x07, format B. -/
def decode07 (x : Nat) : Decoded :=
  mbz (fD x) (.ok (.jpt (BitVec.ofNat 18 (f18 x))))

/-- Opcode 0x08, format J. -/
def decode08 (x : Nat) : Decoded :=
  mbz (f25 x) (.ok (.join))

/-- Opcode 0x09, format B. -/
def decode09 (x : Nat) : Decoded :=
  limit (loopOffOk (BitVec.ofNat 18 (f18 x))) (.ok (.loop (rD x) (BitVec.ofNat 18 (f18 x))))

/-- Opcode 0x0A, format R. -/
def decode0A (x : Nat) : Decoded :=
  match fR x with
  | 0 => mbz (fD x + fA x + fB x + fEa x + fEb x) (.ok (.exit))
  | 1 => mbz (fD x + fA x + fB x + fEa x + fEb x) (.ok (.exits))
  | _ => .error .noSuchForm

/-- Opcode 0x0B, format R. -/
def decode0B (x : Nat) : Decoded :=
  match fR x with
  | 0 => mbz (fD x + fB x + fEa x + fEb x) (.ok (.wait (rA x)))
  | 1 => mbz (fD x + fA x + fB x + fEa x + fEb x) (.ok (.waitld))
  | 2 => mbz (fD x + fA x + fB x + fEa x + fEb x) (.ok (.waitsfu))
  | _ => mbz (fD x + fA x + fB x + fEa x + fEb x) (.ok (.waitall))

/-- Opcode 0x0C, format J. -/
def decode0C (x : Nat) : Decoded :=
  mbz (f25 x) (.ok (.yield))

/-- Opcode 0x0D, format R. -/
def decode0D (x : Nat) : Decoded :=
  match fR x with
  | 0 => mbz (fD x + fB x + fEb x) (.ok (.sleept (rA x) (flag (fEa x))))
  | 1 => mbz (fD x + fB x + fEa x + fEb x) (listed (portOf (fA x)) fun p => .ok (.sleepq p))
  | 2 => mbz (fD x) (.ok (.sleepw (rA x) (rB x) (flag (fEa x)) (flag (fEb x))))
  | _ => .error .noSuchForm

/-- Opcode 0x0E, format U. -/
def decode0E (x : Nat) : Decoded :=
  mbz (fD x) (.ok (.brkpt (BitVec.ofNat 18 (f18 x))))

/-- Opcode 0x0F, format U. -/
def decode0F (x : Nat) : Decoded :=
  mbz (fD x) (.ok (.trap (BitVec.ofNat 18 (f18 x))))

/-- Opcode 0x10, format R. -/
def decode10 (x : Nat) : Decoded :=
  match fR x with
  | 0 => .ok (.add (rD x) (rA x) (rB x) (flag (fEa x)) (flag (fEb x)))
  | 1 => .ok (.addc (rD x) (rA x) (rB x) (flag (fEa x)) (flag (fEb x)))
  | 2 => .ok (.sub (rD x) (rA x) (rB x) (flag (fEa x)) (flag (fEb x)))
  | _ => .ok (.subb (rD x) (rA x) (rB x) (flag (fEa x)) (flag (fEb x)))

/-- Opcode 0x11, format I. -/
def decode11 (x : Nat) : Decoded :=
  .ok (.addi (rD x) (rA x) (BitVec.ofNat 10 (fI x)) (flag (f0 x)))

/-- Opcode 0x12, format R. -/
def decode12 (x : Nat) : Decoded :=
  match fR x with
  | 0 => .ok (.mul (rD x) (rA x) (rB x) (flag (fEa x)) (flag (fEb x)))
  | 1 => .ok (.mulhu (rD x) (rA x) (rB x) (flag (fEa x)) (flag (fEb x)))
  | 2 => .ok (.mulhs (rD x) (rA x) (rB x) (flag (fEa x)) (flag (fEb x)))
  | _ => .ok (.mulhsu (rD x) (rA x) (rB x) (flag (fEa x)) (flag (fEb x)))

/-- Opcode 0x13, format R. -/
def decode13 (x : Nat) : Decoded :=
  match fR x with
  | 0 => .ok (.mad (rD x) (rA x) (rB x) (flag (fEa x)) (flag (fEb x)))
  | _ => .error .noSuchForm

/-- Opcode 0x14, format R. -/
def decode14 (x : Nat) : Decoded :=
  match fR x with
  | 0 => .ok (.divu (rD x) (rA x) (rB x) (flag (fEa x)) (flag (fEb x)))
  | 1 => .ok (.divs (rD x) (rA x) (rB x) (flag (fEa x)) (flag (fEb x)))
  | 2 => .ok (.remu (rD x) (rA x) (rB x) (flag (fEa x)) (flag (fEb x)))
  | _ => .ok (.rems (rD x) (rA x) (rB x) (flag (fEa x)) (flag (fEb x)))

/-- Opcode 0x15, format R. -/
def decode15 (x : Nat) : Decoded :=
  match fR x with
  | 0 => .ok (.minu (rD x) (rA x) (rB x) (flag (fEa x)) (flag (fEb x)))
  | 1 => .ok (.mins (rD x) (rA x) (rB x) (flag (fEa x)) (flag (fEb x)))
  | 2 => .ok (.maxu (rD x) (rA x) (rB x) (flag (fEa x)) (flag (fEb x)))
  | _ => .ok (.maxs (rD x) (rA x) (rB x) (flag (fEa x)) (flag (fEb x)))

/-- Opcode 0x16, format R. -/
def decode16 (x : Nat) : Decoded :=
  match fR x with
  | 0 => .ok (.and (rD x) (rA x) (rB x) (flag (fEa x)) (flag (fEb x)))
  | 1 => .ok (.or (rD x) (rA x) (rB x) (flag (fEa x)) (flag (fEb x)))
  | 2 => .ok (.xor (rD x) (rA x) (rB x) (flag (fEa x)) (flag (fEb x)))
  | _ => .ok (.andn (rD x) (rA x) (rB x) (flag (fEa x)) (flag (fEb x)))

/-- Opcode 0x17, format I. -/
def decode17 (x : Nat) : Decoded :=
  .ok (.andi (rD x) (rA x) (BitVec.ofNat 10 (fI x)) (flag (f0 x)))

/-- Opcode 0x18, format I. -/
def decode18 (x : Nat) : Decoded :=
  .ok (.ori (rD x) (rA x) (BitVec.ofNat 10 (fI x)) (flag (f0 x)))

/-- Opcode 0x19, format I. -/
def decode19 (x : Nat) : Decoded :=
  .ok (.xori (rD x) (rA x) (BitVec.ofNat 10 (fI x)) (flag (f0 x)))

/-- Opcode 0x1A, format R. -/
def decode1A (x : Nat) : Decoded :=
  match fR x with
  | 0 => .ok (.shl (rD x) (rA x) (rB x) (flag (fEa x)) (flag (fEb x)))
  | 1 => .ok (.shr (rD x) (rA x) (rB x) (flag (fEa x)) (flag (fEb x)))
  | 2 => .ok (.sar (rD x) (rA x) (rB x) (flag (fEa x)) (flag (fEb x)))
  | _ => .ok (.rol (rD x) (rA x) (rB x) (flag (fEa x)) (flag (fEb x)))

/-- Opcode 0x1B, format I. -/
def decode1B (x : Nat) : Decoded :=
  match fI x / 256 with
  | 0 => mbz (fI x / 32 % 8) (.ok (.shli (rD x) (rA x) (BitVec.ofNat 5 (fI x % 32)) (flag (f0 x))))
  | 1 => mbz (fI x / 32 % 8) (.ok (.shri (rD x) (rA x) (BitVec.ofNat 5 (fI x % 32)) (flag (f0 x))))
  | 2 => mbz (fI x / 32 % 8) (.ok (.sari (rD x) (rA x) (BitVec.ofNat 5 (fI x % 32)) (flag (f0 x))))
  | _ => mbz (fI x / 32 % 8) (.ok (.roli (rD x) (rA x) (BitVec.ofNat 5 (fI x % 32)) (flag (f0 x))))

/-- Opcode 0x1C, format R. -/
def decode1C (x : Nat) : Decoded :=
  match fR x with
  | 0 => mbz (fB x + fEb x) (.ok (.clz (rD x) (rA x) (flag (fEa x))))
  | 1 => mbz (fB x + fEb x) (.ok (.ctz (rD x) (rA x) (flag (fEa x))))
  | 2 => mbz (fB x + fEb x) (.ok (.popc (rD x) (rA x) (flag (fEa x))))
  | _ => mbz (fB x + fEb x) (.ok (.brev (rD x) (rA x) (flag (fEa x))))

/-- Opcode 0x1D, format R. -/
def decode1D (x : Nat) : Decoded :=
  match fR x with
  | 0 => .ok (.bfxu (rD x) (rA x) (rB x) (flag (fEa x)) (flag (fEb x)))
  | 1 => .ok (.bfxs (rD x) (rA x) (rB x) (flag (fEa x)) (flag (fEb x)))
  | _ => .error .noSuchForm

/-- Opcode 0x1E, format R. -/
def decode1E (x : Nat) : Decoded :=
  match fR x with
  | 0 => .ok (.bfi (rD x) (rA x) (rB x) (flag (fEa x)) (flag (fEb x)))
  | _ => .error .noSuchForm

/-- Opcode 0x1F, format R. -/
def decode1F (x : Nat) : Decoded :=
  match fR x with
  | 0 => .ok (.ilv2 (rD x) (rA x) (rB x) (flag (fEa x)) (flag (fEb x)))
  | 1 => .ok (.ilv3 (rD x) (rA x) (rB x) (flag (fEa x)) (flag (fEb x)))
  | 2 => mbz (fB x + fEb x) (.ok (.dlv2 (rD x) (rA x) (flag (fEa x))))
  | _ => .ok (.dlv3 (rD x) (rA x) (rB x) (flag (fEa x)) (flag (fEb x)))

/-- Opcode 0x20, format R. -/
def decode20 (x : Nat) : Decoded :=
  match fR x with
  | 0 => .ok (.ceq (rD x) (rA x) (rB x) (flag (fEa x)) (flag (fEb x)))
  | 1 => .ok (.cne (rD x) (rA x) (rB x) (flag (fEa x)) (flag (fEb x)))
  | 2 => .ok (.cltu (rD x) (rA x) (rB x) (flag (fEa x)) (flag (fEb x)))
  | _ => .ok (.clts (rD x) (rA x) (rB x) (flag (fEa x)) (flag (fEb x)))

/-- Opcode 0x21, format R. -/
def decode21 (x : Nat) : Decoded :=
  match fR x with
  | 0 => .ok (.cleu (rD x) (rA x) (rB x) (flag (fEa x)) (flag (fEb x)))
  | 1 => .ok (.cles (rD x) (rA x) (rB x) (flag (fEa x)) (flag (fEb x)))
  | 2 => .ok (.cbit (rD x) (rA x) (rB x) (flag (fEa x)) (flag (fEb x)))
  | _ => .error .noSuchForm

/-- Opcode 0x22, format R. -/
def decode22 (x : Nat) : Decoded :=
  match fR x with
  | 0 => .ok (.sel (rD x) (rA x) (rB x) (flag (fEa x)) (flag (fEb x)))
  | _ => .error .noSuchForm

/-- Opcode 0x23, format R. -/
def decode23 (x : Nat) : Decoded :=
  match fR x with
  | 0 => mbz (fB x + fEb x) (.ok (.abs (rD x) (rA x) (flag (fEa x))))
  | 1 => mbz (fB x + fEb x) (.ok (.neg (rD x) (rA x) (flag (fEa x))))
  | 2 => mbz (fB x + fEb x) (.ok (.sext8 (rD x) (rA x) (flag (fEa x))))
  | _ => mbz (fB x + fEb x) (.ok (.sext16 (rD x) (rA x) (flag (fEa x))))

/-- Opcode 0x24, format U. -/
def decode24 (x : Nat) : Decoded :=
  .ok (.movh (rD x) (BitVec.ofNat 18 (f18 x)))

/-- Opcode 0x25, format U. -/
def decode25 (x : Nat) : Decoded :=
  .ok (.orl (rD x) (BitVec.ofNat 18 (f18 x)))

/-- Opcode 0x26, format R. -/
def decode26 (x : Nat) : Decoded :=
  match fR x with
  | 0 => mbz (fB x + fEb x) (.ok (.mov (rD x) (rA x) (flag (fEa x))))
  | 1 => mbz (fB x + fEb x) (.ok (.movp (rD x) (rA x) (flag (fEa x))))
  | 2 => mbz (fB x + fEb x) (.ok (.movf (rD x) (rA x) (flag (fEa x))))
  | _ => .error .noSuchForm

/-- Opcode 0x27, format R. -/
def decode27 (x : Nat) : Decoded :=
  match fR x with
  | 0 => .ok (.add64 (rD x) (rA x) (rB x) (flag (fEa x)) (flag (fEb x)))
  | 1 => .ok (.sub64 (rD x) (rA x) (rB x) (flag (fEa x)) (flag (fEb x)))
  | 2 => .ok (.shl64 (rD x) (rA x) (rB x) (flag (fEa x)) (flag (fEb x)))
  | _ => .ok (.shru64 (rD x) (rA x) (rB x) (flag (fEa x)) (flag (fEb x)))

/-- Opcode 0x30, format R. -/
def decode30 (x : Nat) : Decoded :=
  match fR x with
  | 0 => .ok (.fadd (rD x) (rA x) (rB x) (flag (fEa x)) (flag (fEb x)))
  | 1 => .ok (.fsub (rD x) (rA x) (rB x) (flag (fEa x)) (flag (fEb x)))
  | 2 => .ok (.fmul (rD x) (rA x) (rB x) (flag (fEa x)) (flag (fEb x)))
  | _ => .error .noSuchForm

/-- Opcode 0x31, format R. -/
def decode31 (x : Nat) : Decoded :=
  match fR x with
  | 0 => .ok (.ffma (rD x) (rA x) (rB x) (flag (fEa x)) (flag (fEb x)))
  | 1 => .ok (.ffms (rD x) (rA x) (rB x) (flag (fEa x)) (flag (fEb x)))
  | 2 => .ok (.fnma (rD x) (rA x) (rB x) (flag (fEa x)) (flag (fEb x)))
  | _ => .ok (.fnms (rD x) (rA x) (rB x) (flag (fEa x)) (flag (fEb x)))

/-- Opcode 0x32, format R. -/
def decode32 (x : Nat) : Decoded :=
  match fR x with
  | 0 => .ok (.fmin (rD x) (rA x) (rB x) (flag (fEa x)) (flag (fEb x)))
  | 1 => .ok (.fmax (rD x) (rA x) (rB x) (flag (fEa x)) (flag (fEb x)))
  | 2 => .ok (.fminn (rD x) (rA x) (rB x) (flag (fEa x)) (flag (fEb x)))
  | _ => .ok (.fmaxn (rD x) (rA x) (rB x) (flag (fEa x)) (flag (fEb x)))

/-- Opcode 0x33, format R. -/
def decode33 (x : Nat) : Decoded :=
  match fR x with
  | 0 => .ok (.fceq (rD x) (rA x) (rB x) (flag (fEa x)) (flag (fEb x)))
  | 1 => .ok (.fclt (rD x) (rA x) (rB x) (flag (fEa x)) (flag (fEb x)))
  | 2 => .ok (.fcle (rD x) (rA x) (rB x) (flag (fEa x)) (flag (fEb x)))
  | _ => .ok (.fcun (rD x) (rA x) (rB x) (flag (fEa x)) (flag (fEb x)))

/-- Opcode 0x34, format R. -/
def decode34 (x : Nat) : Decoded :=
  match fR x with
  | 0 => mbz (fB x + fEb x) (.ok (.fabs (rD x) (rA x) (flag (fEa x))))
  | 1 => mbz (fB x + fEb x) (.ok (.fneg (rD x) (rA x) (flag (fEa x))))
  | 2 => mbz (fB x + fEb x) (.ok (.fclass (rD x) (rA x) (flag (fEa x))))
  | _ => .error .noSuchForm

/-- Opcode 0x35, format R. -/
def decode35 (x : Nat) : Decoded :=
  match fR x with
  | 0 => mbz (fB x + fEb x) (.ok (.frne (rD x) (rA x) (flag (fEa x))))
  | 1 => mbz (fB x + fEb x) (.ok (.frtz (rD x) (rA x) (flag (fEa x))))
  | 2 => mbz (fB x + fEb x) (.ok (.frdn (rD x) (rA x) (flag (fEa x))))
  | _ => mbz (fB x + fEb x) (.ok (.frup (rD x) (rA x) (flag (fEa x))))

/-- Opcode 0x36, format R. -/
def decode36 (x : Nat) : Decoded :=
  match fR x with
  | 0 => mbz (fB x + fEb x) (.ok (.cvtuf (rD x) (rA x) (flag (fEa x))))
  | 1 => mbz (fB x + fEb x) (.ok (.cvtsf (rD x) (rA x) (flag (fEa x))))
  | 2 => mbz (fB x + fEb x) (.ok (.cvtfu (rD x) (rA x) (flag (fEa x))))
  | _ => mbz (fB x + fEb x) (.ok (.cvtfs (rD x) (rA x) (flag (fEa x))))

/-- Opcode 0x37, format I. -/
def decode37 (x : Nat) : Decoded :=
  listed (Fmt.ofCode (fI x / 64)) fun fmt => listed (Rnd.ofCode (fI x / 8 % 8)) fun rnd =>
      limit (cvtnOk fmt (BitVec.ofNat 2 (fI x % 4)))
        (.ok (.cvtn (rD x) (rA x) fmt rnd (flag (fI x / 4 % 2)) (BitVec.ofNat 2 (fI x % 4)) (flag (f0 x))))

/-- Opcode 0x38, format I. -/
def decode38 (x : Nat) : Decoded :=
  mbz (fI x % 8) (listed (Fmt.ofCode (fI x / 64)) fun fmt =>
      limit (cvtwOk fmt (BitVec.ofNat 3 (fI x / 8 % 8))) (.ok (.cvtw (rD x) (rA x) fmt (BitVec.ofNat 3 (fI x / 8 % 8)) (flag (f0 x)))))

/-- Opcode 0x39, format R. -/
def decode39 (x : Nat) : Decoded :=
  match fR x with
  | 0 => .ok (.badd2 (rD x) (rA x) (rB x) (flag (fEa x)) (flag (fEb x)))
  | 1 => .ok (.bmul2 (rD x) (rA x) (rB x) (flag (fEa x)) (flag (fEb x)))
  | 2 => .ok (.hadd2 (rD x) (rA x) (rB x) (flag (fEa x)) (flag (fEb x)))
  | _ => .ok (.hmul2 (rD x) (rA x) (rB x) (flag (fEa x)) (flag (fEb x)))

/-- Opcode 0x3A, format R. -/
def decode3A (x : Nat) : Decoded :=
  match fR x with
  | 0 => .ok (.bfma2 (rD x) (rA x) (rB x) (flag (fEa x)) (flag (fEb x)))
  | 1 => .ok (.hfma2 (rD x) (rA x) (rB x) (flag (fEa x)) (flag (fEb x)))
  | _ => .error .noSuchForm

/-- Opcode 0x3B, format R. -/
def decode3B (x : Nat) : Decoded :=
  match fB x with
  | 0 => mbz (fEb x + fR x) (.ok (.rcp (rD x) (rA x) (flag (fEa x))))
  | 1 => mbz (fEb x + fR x) (.ok (.rsq (rD x) (rA x) (flag (fEa x))))
  | 2 => mbz (fEb x + fR x) (.ok (.sqrt (rD x) (rA x) (flag (fEa x))))
  | 3 => mbz (fEb x + fR x) (.ok (.ex2 (rD x) (rA x) (flag (fEa x))))
  | 4 => mbz (fEb x + fR x) (.ok (.lg2 (rD x) (rA x) (flag (fEa x))))
  | 5 => mbz (fEb x + fR x) (.ok (.sin (rD x) (rA x) (flag (fEa x))))
  | 6 => mbz (fEb x + fR x) (.ok (.cos (rD x) (rA x) (flag (fEa x))))
  | 7 => mbz (fEb x + fR x) (.ok (.tanh (rD x) (rA x) (flag (fEa x))))
  | _ => .error .noSuchForm

/-- Opcode 0x3C, format R. -/
def decode3C (x : Nat) : Decoded :=
  match fR x with
  | 0 => .ok (.idot4ss (rD x) (rA x) (rB x) (flag (fEa x)) (flag (fEb x)))
  | 1 => .ok (.idot4uu (rD x) (rA x) (rB x) (flag (fEa x)) (flag (fEb x)))
  | 2 => .ok (.idot4su (rD x) (rA x) (rB x) (flag (fEa x)) (flag (fEb x)))
  | _ => .ok (.idot4us (rD x) (rA x) (rB x) (flag (fEa x)) (flag (fEb x)))

/-- Opcode 0x3D, format R. -/
def decode3D (x : Nat) : Decoded :=
  match fR x with
  | 0 => .ok (.fscl (rD x) (rA x) (rB x) (flag (fEa x)) (flag (fEb x)))
  | 1 => mbz (fB x + fEb x) (.ok (.fexp (rD x) (rA x) (flag (fEa x))))
  | 2 => mbz (fB x + fEb x) (.ok (.fmnt (rD x) (rA x) (flag (fEa x))))
  | _ => .error .noSuchForm

/-- Opcode 0x40, format R. -/
def decode40 (x : Nat) : Decoded :=
  match fR x with
  | 0 => .ok (.scani (rD x) (rA x) (rB x) (flag (fEa x)) (flag (fEb x)))
  | 1 => .ok (.scanx (rD x) (rA x) (rB x) (flag (fEa x)) (flag (fEb x)))
  | 2 => .ok (.scanf (rD x) (rA x) (rB x) (flag (fEa x)) (flag (fEb x)))
  | _ => .ok (.scanfx (rD x) (rA x) (rB x) (flag (fEa x)) (flag (fEb x)))

/-- Opcode 0x41, format R. -/
def decode41 (x : Nat) : Decoded :=
  match fR x with
  | 0 => mbz (fB x + fEb x) (.ok (.scanmaxs (rD x) (rA x) (flag (fEa x))))
  | 1 => mbz (fB x + fEb x) (.ok (.scanmins (rD x) (rA x) (flag (fEa x))))
  | 2 => mbz (fB x + fEb x) (.ok (.scanmaxu (rD x) (rA x) (flag (fEa x))))
  | _ => mbz (fB x + fEb x) (.ok (.scanminu (rD x) (rA x) (flag (fEa x))))

/-- Opcode 0x42, format R. -/
def decode42 (x : Nat) : Decoded :=
  match fR x with
  | 0 => mbz (fB x + fEb x) (.ok (.scanand (rD x) (rA x) (flag (fEa x))))
  | 1 => mbz (fB x + fEb x) (.ok (.scanor (rD x) (rA x) (flag (fEa x))))
  | 2 => mbz (fB x + fEb x) (.ok (.scanxor (rD x) (rA x) (flag (fEa x))))
  | _ => .error .noSuchForm

/-- Opcode 0x43, format R. -/
def decode43 (x : Nat) : Decoded :=
  match fR x with
  | 0 => .ok (.sscani (rD x) (rA x) (rB x) (flag (fEa x)) (flag (fEb x)))
  | 1 => .ok (.sscanx (rD x) (rA x) (rB x) (flag (fEa x)) (flag (fEb x)))
  | 2 => .ok (.sscanf (rD x) (rA x) (rB x) (flag (fEa x)) (flag (fEb x)))
  | _ => .ok (.sscanfx (rD x) (rA x) (rB x) (flag (fEa x)) (flag (fEb x)))

/-- Opcode 0x44, format R. -/
def decode44 (x : Nat) : Decoded :=
  match fR x with
  | 0 => mbz (fB x + fEb x) (.ok (.redi (rD x) (rA x) (flag (fEa x))))
  | 1 => mbz (fB x + fEb x) (.ok (.redf (rD x) (rA x) (flag (fEa x))))
  | 2 => mbz (fB x + fEb x) (.ok (.redmax (rD x) (rA x) (flag (fEa x))))
  | _ => mbz (fB x + fEb x) (.ok (.redmin (rD x) (rA x) (flag (fEa x))))

/-- Opcode 0x45, format R. -/
def decode45 (x : Nat) : Decoded :=
  match fR x with
  | 0 => mbz (fB x + fEb x) (.ok (.vany (rD x) (rA x) (flag (fEa x))))
  | 1 => mbz (fB x + fEb x) (.ok (.vall (rD x) (rA x) (flag (fEa x))))
  | 2 => mbz (fB x + fEb x) (.ok (.vbal (rD x) (rA x) (flag (fEa x))))
  | _ => mbz (fB x + fEb x) (.ok (.vcnt (rD x) (rA x) (flag (fEa x))))

/-- Opcode 0x46, format R. -/
def decode46 (x : Nat) : Decoded :=
  match fR x with
  | 0 => .ok (.bcast (rD x) (rA x) (rB x) (flag (fEa x)) (flag (fEb x)))
  | 1 => mbz (fB x + fEb x) (.ok (.bfirst (rD x) (rA x) (flag (fEa x))))
  | 2 => mbz (fB x + fEb x) (.ok (.blast (rD x) (rA x) (flag (fEa x))))
  | _ => .error .noSuchForm

/-- Opcode 0x47, format R. -/
def decode47 (x : Nat) : Decoded :=
  match fR x with
  | 0 => .ok (.prev (rD x) (rA x) (rB x) (flag (fEa x)) (flag (fEb x)))
  | 1 => .ok (.next (rD x) (rA x) (rB x) (flag (fEa x)) (flag (fEb x)))
  | 2 => mbz (fB x + fEb x) (.ok (.rotp (rD x) (rA x) (flag (fEa x))))
  | _ => mbz (fB x + fEb x) (.ok (.rotn (rD x) (rA x) (flag (fEa x))))

/-- Opcode 0x48, format R. -/
def decode48 (x : Nat) : Decoded :=
  match fR x with
  | 0 => .ok (.permg (rD x) (rA x) (rB x) (flag (fEa x)) (flag (fEb x)))
  | 1 => .ok (.perms (rD x) (rA x) (rB x) (flag (fEa x)) (flag (fEb x)))
  | _ => .error .noSuchForm

/-- Opcode 0x49, format R. -/
def decode49 (x : Nat) : Decoded :=
  match fR x with
  | 0 => .ok (.topkd (rD x) (rA x) (rB x) (flag (fEa x)) (flag (fEb x)))
  | 1 => .ok (.topka (rD x) (rA x) (rB x) (flag (fEa x)) (flag (fEb x)))
  | 2 => .ok (.topkm (rD x) (rA x) (rB x) (flag (fEa x)) (flag (fEb x)))
  | _ => .error .noSuchForm

/-- Opcode 0x4A, format R. -/
def decode4A (x : Nat) : Decoded :=
  match fR x with
  | 0 => mbz (fB x + fEb x) (.ok (.matchB (rD x) (rA x) (flag (fEa x))))
  | 1 => mbz (fB x + fEb x) (.ok (.match64 (rD x) (rA x) (flag (fEa x))))
  | _ => .error .noSuchForm

/-- Opcode 0x4B, format R. -/
def decode4B (x : Nat) : Decoded :=
  match fR x with
  | 0 => mbz (fA x + fB x + fEa x + fEb x) (.ok (.rand (rD x)))
  | 1 => mbz (fA x + fB x + fEa x + fEb x) (.ok (.randf (rD x)))
  | _ => .error .noSuchForm

/-- Opcode 0x4C, format R. -/
def decode4C (x : Nat) : Decoded :=
  match fR x with
  | 0 => mbz (fA x + fB x + fEa x + fEb x) (.ok (.electl (rD x)))
  | 1 => mbz (fA x + fB x + fEa x + fEb x) (.ok (.electh (rD x)))
  | _ => .error .noSuchForm

/-- Opcode 0x50, format M. -/
def decode50 (x : Nat) : Decoded :=
  .ok (.ld (rD x) (rA x) (BitVec.ofNat 4 (fP x)) (BitVec.ofNat 5 (fDisp x)) (Width.ofCode (x % 4)))

/-- Opcode 0x51, format M. -/
def decode51 (x : Nat) : Decoded :=
  .ok (.st (rD x) (rA x) (BitVec.ofNat 4 (fP x)) (BitVec.ofNat 5 (fDisp x)) (Width.ofCode (x % 4)))

/-- Opcode 0x52, format M. -/
def decode52 (x : Nat) : Decoded :=
  .ok (.ldu (rD x) (rA x) (BitVec.ofNat 4 (fP x)) (BitVec.ofNat 5 (fDisp x)) (Width.ofCode (x % 4)))

/-- Opcode 0x53, format M. -/
def decode53 (x : Nat) : Decoded :=
  mbz (fP x) (.ok (.lds (rD x) (rA x) (BitVec.ofNat 5 (fDisp x)) (Width.ofCode (x % 4))))

/-- Opcode 0x54, format M. -/
def decode54 (x : Nat) : Decoded :=
  mbz (fP x) (.ok (.sts (rD x) (rA x) (BitVec.ofNat 5 (fDisp x)) (Width.ofCode (x % 4))))

/-- Opcode 0x56, format A. -/
def decode56 (x : Nat) : Decoded :=
  .ok (.atadd (rD x) (rA x) (rB x) (BitVec.ofNat 3 (fP3 x)) (flag (f0 x)))

/-- Opcode 0x57, format A. -/
def decode57 (x : Nat) : Decoded :=
  limit (f0 x == 0) (.ok (.atfadd (rD x) (rA x) (rB x) (BitVec.ofNat 3 (fP3 x))))

/-- Opcode 0x58, format A. -/
def decode58 (x : Nat) : Decoded :=
  .ok (.atmins (rD x) (rA x) (rB x) (BitVec.ofNat 3 (fP3 x)) (flag (f0 x)))

/-- Opcode 0x59, format A. -/
def decode59 (x : Nat) : Decoded :=
  .ok (.atmaxs (rD x) (rA x) (rB x) (BitVec.ofNat 3 (fP3 x)) (flag (f0 x)))

/-- Opcode 0x5A, format A. -/
def decode5A (x : Nat) : Decoded :=
  .ok (.atminu (rD x) (rA x) (rB x) (BitVec.ofNat 3 (fP3 x)) (flag (f0 x)))

/-- Opcode 0x5B, format A. -/
def decode5B (x : Nat) : Decoded :=
  .ok (.atmaxu (rD x) (rA x) (rB x) (BitVec.ofNat 3 (fP3 x)) (flag (f0 x)))

/-- Opcode 0x5C, format A. -/
def decode5C (x : Nat) : Decoded :=
  .ok (.atand (rD x) (rA x) (rB x) (BitVec.ofNat 3 (fP3 x)) (flag (f0 x)))

/-- Opcode 0x5D, format A. -/
def decode5D (x : Nat) : Decoded :=
  .ok (.ator (rD x) (rA x) (rB x) (BitVec.ofNat 3 (fP3 x)) (flag (f0 x)))

/-- Opcode 0x5E, format A. -/
def decode5E (x : Nat) : Decoded :=
  .ok (.atxor (rD x) (rA x) (rB x) (BitVec.ofNat 3 (fP3 x)) (flag (f0 x)))

/-- Opcode 0x5F, format A. -/
def decode5F (x : Nat) : Decoded :=
  .ok (.atxch (rD x) (rA x) (rB x) (BitVec.ofNat 3 (fP3 x)) (flag (f0 x)))

/-- Opcode 0x60, format A. -/
def decode60 (x : Nat) : Decoded :=
  .ok (.atcas (rD x) (rA x) (rB x) (BitVec.ofNat 3 (fP3 x)) (flag (f0 x)))

/-- Opcode 0x62, format X. -/
def decode62 (x : Nat) : Decoded :=
  match fX x with
  | 0 => mbz (fD x / 32 + fA x / 32 + fB x) (limit (fD x % 32 != 0)
      (listed (FenceKind.ofCode (fA x / 8 % 4)) fun kind => listed (Scope.ofCode (fA x % 8)) fun scope =>
        .ok (.fence (BitVec.ofNat 5 (fD x % 32)) kind scope)))
  | _ => .error .noSuchForm

/-- Opcode 0x63, format X. -/
def decode63 (x : Nat) : Decoded :=
  match fX x with
  | 0 => mbz (fD x + fA x + fB x / 32) (listed (hingeOf (fB x % 32)) fun h => .ok (.harr h))
  | 1 => mbz (fD x + fA x + fB x / 32) (listed (hingeOf (fB x % 32)) fun h => .ok (.hwait h))
  | 2 => mbz (fD x + fA x + fB x / 32) (listed (hingeOf (fB x % 32)) fun h => .ok (.hsync h))
  | 3 => mbz (fA x + fB x / 32) (listed (hingeOf (fB x % 32)) fun h => .ok (.htest (rD x) h))
  | _ => .error .noSuchForm

/-- Opcode 0x64, format X. -/
def decode64 (x : Nat) : Decoded :=
  match fX x with
  | 0 => mbz (fB x) (listed (portOf (fD x)) fun p => .ok (.qbind p (rA x)))
  | 1 => mbz (fA x + fB x) (listed (portOf (fD x)) fun p => .ok (.qunbind p))
  | 2 => mbz (fB x) (listed (portOf (fA x)) fun p => .ok (.qstat (rD x) p))
  | 3 => mbz (fA x + fB x) (listed (portOf (fD x)) fun p => .ok (.qclose p))
  | 4 => mbz (fB x) (listed (portOf (fD x)) fun p => .ok (.qclosee p (rA x)))
  | 5 => listed (portOf (fA x)) fun p => .ok (.qpops (rD x) p (rB x))
  | 6 => mbz (fB x) (listed (portOf (fD x)) fun p => .ok (.qpushu p (rA x)))
  | _ => .error .noSuchForm

/-- Opcode 0x65, format X. -/
def decode65 (x : Nat) : Decoded :=
  match fX x with
  | 0 => listed (portOf (fB x)) fun p => .ok (.spawn (rD x) (rA x) p)
  | _ => .error .noSuchForm

/-- Opcode 0x66, format X. -/
def decode66 (x : Nat) : Decoded :=
  match fX x with
  | 0 => mbz (fB x) (.ok (.launch (rD x) (rA x)))
  | _ => .error .noSuchForm

/-- Opcode 0x67, format X. -/
def decode67 (x : Nat) : Decoded :=
  match fX x with
  | 0 => mbz (fD x / 32) (listed (SigOp.ofCode (fD x / 8 % 4)) fun op => listed (Scope.ofCode (fD x % 8)) fun scope => .ok (.sigwr op scope (rA x) (rB x)))
  | 1 => mbz (fD x / 32) (listed (Cond.ofCode (fD x / 8 % 4)) fun cond => listed (Scope.ofCode (fD x % 8)) fun scope => .ok (.sigwt cond scope (rA x) (rB x)))
  | 2 => mbz (fB x / 8) (listed (Scope.ofCode (fB x % 8)) fun scope => .ok (.sigrd (rD x) (rA x) scope))
  | _ => .error .noSuchForm

/-- Opcode 0x68, format X. -/
def decode68 (x : Nat) : Decoded :=
  match fX x with
  | 0 => .ok (.cpy1 (rD x) (rA x) (rB x))
  | 1 => .ok (.cpy2 (rD x) (rA x) (rB x))
  | 2 => .ok (.fill (rD x) (rA x) (rB x))
  | 3 => .ok (.gath (rD x) (rA x) (rB x))
  | 4 => .ok (.scat (rD x) (rA x) (rB x))
  | _ => .error .noSuchForm

/-- Opcode 0x69, format X. -/
def decode69 (x : Nat) : Decoded :=
  match fX x with
  | 0 => mbz (fB x) (.ok (.ftest (rD x) (rA x)))
  | 1 => mbz (fD x + fB x) (.ok (.fcancel (rA x)))
  | 2 => mbz (fD x + fB x) (.ok (.fwaith (rA x)))
  | 3 => .ok (.fjoin (rD x) (rA x) (rB x))
  | _ => .error .noSuchForm

/-- Opcode 0x6A, format X. -/
def decode6A (x : Nat) : Decoded :=
  match fX x with
  | 0 => .ok (.lput (rD x) (rA x) (rB x))
  | 1 => .ok (.lget (rD x) (rA x) (rB x))
  | 2 => .ok (.lradd (rD x) (rA x) (rB x))
  | 3 => .ok (.lsig (rD x) (rA x) (rB x))
  | _ => .error .noSuchForm

/-- Opcode 0x6B, format X. -/
def decode6B (x : Nat) : Decoded :=
  match fX x with
  | 0 => .ok (.tex (rD x) (rA x) (rB x))
  | 1 => .ok (.texl (rD x) (rA x) (rB x))
  | 2 => .ok (.texf (rD x) (rA x) (rB x))
  | 3 => .ok (.texg (rD x) (rA x) (rB x))
  | _ => .error .noSuchForm

/-- Opcode 0x6C, format X. -/
def decode6C (x : Nat) : Decoded :=
  match fX x with
  | 0 => mbz (fB x) (.ok (.ipers (rD x) (rA x)))
  | 1 => mbz (fB x) (.ok (.iflat (rD x) (rA x)))
  | 2 => mbz (fB x) (.ok (.icent (rD x) (rA x)))
  | _ => .error .noSuchForm

/-- Opcode 0x6D, format X. -/
def decode6D (x : Nat) : Decoded :=
  match fX x with
  | 0 => mbz (fD x + fB x) (.ok (.emitc (rA x)))
  | 1 => mbz (fD x) (.ok (.emitcz (rA x) (rB x)))
  | 2 => mbz (fD x + fA x + fB x) (.ok (.discard))
  | _ => .error .noSuchForm

/-- Opcode 0x6E, format X. -/
def decode6E (x : Nat) : Decoded :=
  match fX x with
  | 0 => .ok (.emitv (rD x) (rA x) (rB x))
  | _ => .error .noSuchForm

/-- Opcode 0x6F, format X. -/
def decode6F (x : Nat) : Decoded :=
  match fX x with
  | 0 => mbz (fB x) (.ok (.srate (rD x) (rA x)))
  | _ => .error .noSuchForm

/-- Opcode 0x70, format T. -/
def decode70 (x : Nat) : Decoded :=
  .ok (.mma (rD x) (BitVec.ofNat 3 (x / 2 ^ 15 % 8)) (BitVec.ofNat 3 (x / 2 ^ 12 % 8)) (BitVec.ofNat 3 (x / 2 ^ 9 % 8)) (BitVec.ofNat 3 (x / 2 ^ 6 % 8)) (BitVec.ofNat 3 (x / 2 ^ 3 % 8)) (flag (x / 4 % 2)) (flag (x / 2 % 2)) (flag (x % 2)))

/-- Opcode 0x71, format X. -/
def decode71 (x : Nat) : Decoded :=
  match fX x with
  | 0 => mbz (fA x + fB x / 4) (.ok (.acz (rD x) (BitVec.ofNat 2 (fB x % 4))))
  | 1 => mbz (fB x / 32) (.ok (.acld (rD x) (rA x) (BitVec.ofNat 3 (fB x / 4 % 8)) (BitVec.ofNat 2 (fB x % 4))))
  | 2 => mbz (fB x / 32) (.ok (.acst (rD x) (rA x) (BitVec.ofNat 3 (fB x / 4 % 8)) (BitVec.ofNat 2 (fB x % 4))))
  | 3 => mbz (fB x / 4) (.ok (.acstr (rD x) (rA x) (BitVec.ofNat 2 (fB x % 4))))
  | 4 => mbz (fB x / 4) (.ok (.acldr (rD x) (rA x) (BitVec.ofNat 2 (fB x % 4))))
  | 5 => mbz (fA x + fB x / 4) (.ok (.acfold (rD x) (BitVec.ofNat 2 (fB x % 4))))
  | _ => .error .noSuchForm

/-- Opcode 0x72, format X. -/
def decode72 (x : Nat) : Decoded :=
  match fX x with
  | 0 => .ok (.mquant (rD x) (rA x) (rB x))
  | 1 => .ok (.mdeq (rD x) (rA x) (rB x))
  | _ => .error .noSuchForm

/-- Opcode 0x73, format X. -/
def decode73 (x : Nat) : Decoded :=
  match fX x with
  | 0 => .ok (.mpin (rD x) (rA x) (rB x))
  | 1 => mbz (fD x) (.ok (.munpin (rA x) (rB x)))
  | _ => .error .noSuchForm

/-- Opcode 0x78, format X. -/
def decode78 (x : Nat) : Decoded :=
  match fX x with
  | 0 => mbz (fB x / 2) (.ok (.sread (rD x) (BitVec.ofNat 7 (fA x)) (flag (fB x % 2))))
  | _ => .error .noSuchForm

/-- Opcode 0x79, format X. -/
def decode79 (x : Nat) : Decoded :=
  match fX x with
  | 0 => mbz (fD x) (.ok (.swrite (BitVec.ofNat 7 (fA x)) (rB x)))
  | _ => .error .noSuchForm

/-- Opcode 0x7A, format I. -/
def decode7A (x : Nat) : Decoded :=
  mbz (fD x + fI x / 32) (.ok (.win (rA x) (BitVec.ofNat 5 (fI x % 32)) (flag (f0 x))))

/-- Opcode 0x7B, format X. -/
def decode7B (x : Nat) : Decoded :=
  match fX x with
  | 0 => mbz (fB x / 8) (listed (SlotSel.ofCode (fB x % 8)) fun sel => .ok (.slotq (rD x) (rA x) sel))
  | _ => .error .noSuchForm

/-- Opcode 0x7C, format J. -/
def decode7C (x : Nat) : Decoded :=
  mbz (f25 x) (.ok (.rtt))

/-- Opcode 0x7F, format J. -/
def decode7F (x : Nat) : Decoded :=
  .ok (.illErased (BitVec.ofNat 25 (f25 x)))

/-- The opcodes 0x00 to 0x0F, by the low digit. -/
def decodeRow0 (low x : Nat) : Decoded :=
  match low with
  | 0x0 => decode00 x
  | 0x1 => decode01 x
  | 0x2 => decode02 x
  | 0x3 => decode03 x
  | 0x4 => decode04 x
  | 0x5 => decode05 x
  | 0x6 => decode06 x
  | 0x7 => decode07 x
  | 0x8 => decode08 x
  | 0x9 => decode09 x
  | 0xA => decode0A x
  | 0xB => decode0B x
  | 0xC => decode0C x
  | 0xD => decode0D x
  | 0xE => decode0E x
  | _ => decode0F x

/-- The opcodes 0x10 to 0x1F, by the low digit. -/
def decodeRow1 (low x : Nat) : Decoded :=
  match low with
  | 0x0 => decode10 x
  | 0x1 => decode11 x
  | 0x2 => decode12 x
  | 0x3 => decode13 x
  | 0x4 => decode14 x
  | 0x5 => decode15 x
  | 0x6 => decode16 x
  | 0x7 => decode17 x
  | 0x8 => decode18 x
  | 0x9 => decode19 x
  | 0xA => decode1A x
  | 0xB => decode1B x
  | 0xC => decode1C x
  | 0xD => decode1D x
  | 0xE => decode1E x
  | _ => decode1F x

/-- The opcodes 0x20 to 0x2F, by the low digit. -/
def decodeRow2 (low x : Nat) : Decoded :=
  match low with
  | 0x0 => decode20 x
  | 0x1 => decode21 x
  | 0x2 => decode22 x
  | 0x3 => decode23 x
  | 0x4 => decode24 x
  | 0x5 => decode25 x
  | 0x6 => decode26 x
  | 0x7 => decode27 x
  | _ => .error .reservedOpcode

/-- The opcodes 0x30 to 0x3F, by the low digit. -/
def decodeRow3 (low x : Nat) : Decoded :=
  match low with
  | 0x0 => decode30 x
  | 0x1 => decode31 x
  | 0x2 => decode32 x
  | 0x3 => decode33 x
  | 0x4 => decode34 x
  | 0x5 => decode35 x
  | 0x6 => decode36 x
  | 0x7 => decode37 x
  | 0x8 => decode38 x
  | 0x9 => decode39 x
  | 0xA => decode3A x
  | 0xB => decode3B x
  | 0xC => decode3C x
  | 0xD => decode3D x
  | _ => .error .reservedOpcode

/-- The opcodes 0x40 to 0x4F, by the low digit. -/
def decodeRow4 (low x : Nat) : Decoded :=
  match low with
  | 0x0 => decode40 x
  | 0x1 => decode41 x
  | 0x2 => decode42 x
  | 0x3 => decode43 x
  | 0x4 => decode44 x
  | 0x5 => decode45 x
  | 0x6 => decode46 x
  | 0x7 => decode47 x
  | 0x8 => decode48 x
  | 0x9 => decode49 x
  | 0xA => decode4A x
  | 0xB => decode4B x
  | 0xC => decode4C x
  | _ => .error .reservedOpcode

/-- The opcodes 0x50 to 0x5F, by the low digit. -/
def decodeRow5 (low x : Nat) : Decoded :=
  match low with
  | 0x0 => decode50 x
  | 0x1 => decode51 x
  | 0x2 => decode52 x
  | 0x3 => decode53 x
  | 0x4 => decode54 x
  | 0x6 => decode56 x
  | 0x7 => decode57 x
  | 0x8 => decode58 x
  | 0x9 => decode59 x
  | 0xA => decode5A x
  | 0xB => decode5B x
  | 0xC => decode5C x
  | 0xD => decode5D x
  | 0xE => decode5E x
  | 0xF => decode5F x
  | _ => .error .reservedOpcode

/-- The opcodes 0x60 to 0x6F, by the low digit. -/
def decodeRow6 (low x : Nat) : Decoded :=
  match low with
  | 0x0 => decode60 x
  | 0x2 => decode62 x
  | 0x3 => decode63 x
  | 0x4 => decode64 x
  | 0x5 => decode65 x
  | 0x6 => decode66 x
  | 0x7 => decode67 x
  | 0x8 => decode68 x
  | 0x9 => decode69 x
  | 0xA => decode6A x
  | 0xB => decode6B x
  | 0xC => decode6C x
  | 0xD => decode6D x
  | 0xE => decode6E x
  | 0xF => decode6F x
  | _ => .error .reservedOpcode

/-- The opcodes 0x70 to 0x7F, by the low digit. -/
def decodeRow7 (low x : Nat) : Decoded :=
  match low with
  | 0x0 => decode70 x
  | 0x1 => decode71 x
  | 0x2 => decode72 x
  | 0x3 => decode73 x
  | 0x8 => decode78 x
  | 0x9 => decode79 x
  | 0xA => decode7A x
  | 0xB => decode7B x
  | 0xC => decode7C x
  | 0xF => decode7F x
  | _ => .error .reservedOpcode

/-- The decoder of an opcode: the opcode fixes the format (R33), and one that R45 does not list is reserved. -/
def decodeAt (op x : Nat) : Decoded :=
  match op / 16 with
  | 0 => decodeRow0 (op % 16) x
  | 1 => decodeRow1 (op % 16) x
  | 2 => decodeRow2 (op % 16) x
  | 3 => decodeRow3 (op % 16) x
  | 4 => decodeRow4 (op % 16) x
  | 5 => decodeRow5 (op % 16) x
  | 6 => decodeRow6 (op % 16) x
  | _ => decodeRow7 (op % 16) x

/-- The decoder: the major opcode, and then its form and its fields. -/
def decodeNat (x : Nat) : Decoded := decodeAt (fOp x) x

/-- The instruction a word stands for (R33), or the check of R47 it fails. -/
def decode (w : Word) : Decoded := decodeNat w.toNat

/-- The word that four bytes of memory hold, the first byte at the lowest address (R3, R33). -/
def wordOfBytes (bs : List Byte) : Word :=
  BitVec.ofNat 32 (bs.foldr (fun b acc => b.toNat + 256 * acc) 0)

/-- The bytes of a word as memory holds it (R3). -/
def bytesOfWord (w : Word) : List Byte :=
  [BitVec.ofNat 8 w.toNat, BitVec.ofNat 8 (w.toNat / 2 ^ 8), BitVec.ofNat 8 (w.toNat / 2 ^ 16),
    BitVec.ofNat 8 (w.toNat / 2 ^ 24)]

/-- The instruction that the decoder reads from a word of the opcode table, laid out in memory as the
hardware stores it. Every instruction is one word, so bits above the table's are zero. -/
def decodeTableWord (nbits w : Nat) : Option Instr :=
  match decode (wordOfBytes (bytesOfWord (BitVec.ofNat 32 (w % 2 ^ nbits)))) with
  | .ok i => some i
  | .error _ => none

/-! ### The encoder -/

/-- A format J word (R33). -/
def encJ (op off : Nat) : Nat := op * 2 ^ 25 + off
/-- A format B or format U word (R33). -/
def encB (op d imm : Nat) : Nat := op * 2 ^ 25 + d * 2 ^ 18 + imm
/-- A format R word (R33). -/
def encR (op d a b ea eb f : Nat) : Nat :=
  op * 2 ^ 25 + d * 2 ^ 18 + a * 2 ^ 11 + b * 2 ^ 4 + ea * 8 + eb * 4 + f
/-- A format I word (R33). -/
def encI (op d a imm ea : Nat) : Nat := op * 2 ^ 25 + d * 2 ^ 18 + a * 2 ^ 11 + imm * 2 + ea
/-- A format M word (R33). -/
def encM (op d a p imm w : Nat) : Nat :=
  op * 2 ^ 25 + d * 2 ^ 18 + a * 2 ^ 11 + p * 2 ^ 7 + imm * 4 + w
/-- A format A word (R33). -/
def encA (op d a b p w : Nat) : Nat :=
  op * 2 ^ 25 + d * 2 ^ 18 + a * 2 ^ 11 + b * 2 ^ 4 + p * 2 + w
/-- A format X word (R33). -/
def encX (op d a b f : Nat) : Nat := op * 2 ^ 25 + d * 2 ^ 18 + a * 2 ^ 11 + b * 2 ^ 4 + f
/-- A format T word (R33). -/
def encT (op d acc qa qb sa sb fl : Nat) : Nat :=
  op * 2 ^ 25 + d * 2 ^ 18 + acc * 2 ^ 15 + qa * 2 ^ 12 + qb * 2 ^ 9 + sa * 2 ^ 6 + sb * 2 ^ 3 + fl

/-- The word of an instruction as a number; a happening has none (R33, R45). -/
def encodeNat : Instr → Option Nat
  | .ill tag => some (encJ 0x00 tag.toNat)
  | .illErased tag => some (encJ 0x7F tag.toNat)
  | .bra off => some (encJ 0x02 off.toNat)
  | .call off => some (encJ 0x03 off.toNat)
  | .bnz c off => some (encB 0x04 c.code off.toNat)
  | .bz c off => some (encB 0x05 c.code off.toNat)
  | .brx a ea => some (encR 0x06 0 a.code 0 ea.toNat 0 0)
  | .callx a ea => some (encR 0x06 0 a.code 0 ea.toNat 0 1)
  | .jpt off => some (encB 0x07 0 off.toNat)
  | .loop c off => some (encB 0x09 c.code off.toNat)
  | .wait a => some (encR 0x0B 0 a.code 0 0 0 0)
  | .sleept a ea => some (encR 0x0D 0 a.code 0 ea.toNat 0 0)
  | .sleepq p => some (encR 0x0D 0 (portCode p) 0 0 0 1)
  | .sleepw a b ea eb => some (encR 0x0D 0 a.code b.code ea.toNat eb.toNat 2)
  | .brkpt imm => some (encB 0x0E 0 imm.toNat)
  | .trap imm => some (encB 0x0F 0 imm.toNat)
  | .add d a b ea eb => some (encR 0x10 d.code a.code b.code ea.toNat eb.toNat 0)
  | .addc d a b ea eb => some (encR 0x10 d.code a.code b.code ea.toNat eb.toNat 1)
  | .sub d a b ea eb => some (encR 0x10 d.code a.code b.code ea.toNat eb.toNat 2)
  | .subb d a b ea eb => some (encR 0x10 d.code a.code b.code ea.toNat eb.toNat 3)
  | .addi d a imm ea => some (encI 0x11 d.code a.code imm.toNat ea.toNat)
  | .mul d a b ea eb => some (encR 0x12 d.code a.code b.code ea.toNat eb.toNat 0)
  | .mulhu d a b ea eb => some (encR 0x12 d.code a.code b.code ea.toNat eb.toNat 1)
  | .mulhs d a b ea eb => some (encR 0x12 d.code a.code b.code ea.toNat eb.toNat 2)
  | .mulhsu d a b ea eb => some (encR 0x12 d.code a.code b.code ea.toNat eb.toNat 3)
  | .mad d a b ea eb => some (encR 0x13 d.code a.code b.code ea.toNat eb.toNat 0)
  | .divu d a b ea eb => some (encR 0x14 d.code a.code b.code ea.toNat eb.toNat 0)
  | .divs d a b ea eb => some (encR 0x14 d.code a.code b.code ea.toNat eb.toNat 1)
  | .remu d a b ea eb => some (encR 0x14 d.code a.code b.code ea.toNat eb.toNat 2)
  | .rems d a b ea eb => some (encR 0x14 d.code a.code b.code ea.toNat eb.toNat 3)
  | .minu d a b ea eb => some (encR 0x15 d.code a.code b.code ea.toNat eb.toNat 0)
  | .mins d a b ea eb => some (encR 0x15 d.code a.code b.code ea.toNat eb.toNat 1)
  | .maxu d a b ea eb => some (encR 0x15 d.code a.code b.code ea.toNat eb.toNat 2)
  | .maxs d a b ea eb => some (encR 0x15 d.code a.code b.code ea.toNat eb.toNat 3)
  | .and d a b ea eb => some (encR 0x16 d.code a.code b.code ea.toNat eb.toNat 0)
  | .or d a b ea eb => some (encR 0x16 d.code a.code b.code ea.toNat eb.toNat 1)
  | .xor d a b ea eb => some (encR 0x16 d.code a.code b.code ea.toNat eb.toNat 2)
  | .andn d a b ea eb => some (encR 0x16 d.code a.code b.code ea.toNat eb.toNat 3)
  | .andi d a imm ea => some (encI 0x17 d.code a.code imm.toNat ea.toNat)
  | .ori d a imm ea => some (encI 0x18 d.code a.code imm.toNat ea.toNat)
  | .xori d a imm ea => some (encI 0x19 d.code a.code imm.toNat ea.toNat)
  | .shl d a b ea eb => some (encR 0x1A d.code a.code b.code ea.toNat eb.toNat 0)
  | .shr d a b ea eb => some (encR 0x1A d.code a.code b.code ea.toNat eb.toNat 1)
  | .sar d a b ea eb => some (encR 0x1A d.code a.code b.code ea.toNat eb.toNat 2)
  | .rol d a b ea eb => some (encR 0x1A d.code a.code b.code ea.toNat eb.toNat 3)
  | .shli d a n ea => some (encI 0x1B d.code a.code (0 + n.toNat) ea.toNat)
  | .shri d a n ea => some (encI 0x1B d.code a.code (256 + n.toNat) ea.toNat)
  | .sari d a n ea => some (encI 0x1B d.code a.code (512 + n.toNat) ea.toNat)
  | .roli d a n ea => some (encI 0x1B d.code a.code (768 + n.toNat) ea.toNat)
  | .clz d a ea => some (encR 0x1C d.code a.code 0 ea.toNat 0 0)
  | .ctz d a ea => some (encR 0x1C d.code a.code 0 ea.toNat 0 1)
  | .popc d a ea => some (encR 0x1C d.code a.code 0 ea.toNat 0 2)
  | .brev d a ea => some (encR 0x1C d.code a.code 0 ea.toNat 0 3)
  | .bfxu d a b ea eb => some (encR 0x1D d.code a.code b.code ea.toNat eb.toNat 0)
  | .bfxs d a b ea eb => some (encR 0x1D d.code a.code b.code ea.toNat eb.toNat 1)
  | .bfi d a b ea eb => some (encR 0x1E d.code a.code b.code ea.toNat eb.toNat 0)
  | .ilv2 d a b ea eb => some (encR 0x1F d.code a.code b.code ea.toNat eb.toNat 0)
  | .ilv3 d a b ea eb => some (encR 0x1F d.code a.code b.code ea.toNat eb.toNat 1)
  | .dlv2 d a ea => some (encR 0x1F d.code a.code 0 ea.toNat 0 2)
  | .dlv3 d a b ea eb => some (encR 0x1F d.code a.code b.code ea.toNat eb.toNat 3)
  | .ceq d a b ea eb => some (encR 0x20 d.code a.code b.code ea.toNat eb.toNat 0)
  | .cne d a b ea eb => some (encR 0x20 d.code a.code b.code ea.toNat eb.toNat 1)
  | .cltu d a b ea eb => some (encR 0x20 d.code a.code b.code ea.toNat eb.toNat 2)
  | .clts d a b ea eb => some (encR 0x20 d.code a.code b.code ea.toNat eb.toNat 3)
  | .cleu d a b ea eb => some (encR 0x21 d.code a.code b.code ea.toNat eb.toNat 0)
  | .cles d a b ea eb => some (encR 0x21 d.code a.code b.code ea.toNat eb.toNat 1)
  | .cbit d a b ea eb => some (encR 0x21 d.code a.code b.code ea.toNat eb.toNat 2)
  | .sel d a b ea eb => some (encR 0x22 d.code a.code b.code ea.toNat eb.toNat 0)
  | .abs d a ea => some (encR 0x23 d.code a.code 0 ea.toNat 0 0)
  | .neg d a ea => some (encR 0x23 d.code a.code 0 ea.toNat 0 1)
  | .sext8 d a ea => some (encR 0x23 d.code a.code 0 ea.toNat 0 2)
  | .sext16 d a ea => some (encR 0x23 d.code a.code 0 ea.toNat 0 3)
  | .movh d imm => some (encB 0x24 d.code imm.toNat)
  | .orl d imm => some (encB 0x25 d.code imm.toNat)
  | .mov d a ea => some (encR 0x26 d.code a.code 0 ea.toNat 0 0)
  | .movp d a ea => some (encR 0x26 d.code a.code 0 ea.toNat 0 1)
  | .movf d a ea => some (encR 0x26 d.code a.code 0 ea.toNat 0 2)
  | .add64 d a b ea eb => some (encR 0x27 d.code a.code b.code ea.toNat eb.toNat 0)
  | .sub64 d a b ea eb => some (encR 0x27 d.code a.code b.code ea.toNat eb.toNat 1)
  | .shl64 d a b ea eb => some (encR 0x27 d.code a.code b.code ea.toNat eb.toNat 2)
  | .shru64 d a b ea eb => some (encR 0x27 d.code a.code b.code ea.toNat eb.toNat 3)
  | .fadd d a b ea eb => some (encR 0x30 d.code a.code b.code ea.toNat eb.toNat 0)
  | .fsub d a b ea eb => some (encR 0x30 d.code a.code b.code ea.toNat eb.toNat 1)
  | .fmul d a b ea eb => some (encR 0x30 d.code a.code b.code ea.toNat eb.toNat 2)
  | .ffma d a b ea eb => some (encR 0x31 d.code a.code b.code ea.toNat eb.toNat 0)
  | .ffms d a b ea eb => some (encR 0x31 d.code a.code b.code ea.toNat eb.toNat 1)
  | .fnma d a b ea eb => some (encR 0x31 d.code a.code b.code ea.toNat eb.toNat 2)
  | .fnms d a b ea eb => some (encR 0x31 d.code a.code b.code ea.toNat eb.toNat 3)
  | .fmin d a b ea eb => some (encR 0x32 d.code a.code b.code ea.toNat eb.toNat 0)
  | .fmax d a b ea eb => some (encR 0x32 d.code a.code b.code ea.toNat eb.toNat 1)
  | .fminn d a b ea eb => some (encR 0x32 d.code a.code b.code ea.toNat eb.toNat 2)
  | .fmaxn d a b ea eb => some (encR 0x32 d.code a.code b.code ea.toNat eb.toNat 3)
  | .fceq d a b ea eb => some (encR 0x33 d.code a.code b.code ea.toNat eb.toNat 0)
  | .fclt d a b ea eb => some (encR 0x33 d.code a.code b.code ea.toNat eb.toNat 1)
  | .fcle d a b ea eb => some (encR 0x33 d.code a.code b.code ea.toNat eb.toNat 2)
  | .fcun d a b ea eb => some (encR 0x33 d.code a.code b.code ea.toNat eb.toNat 3)
  | .fabs d a ea => some (encR 0x34 d.code a.code 0 ea.toNat 0 0)
  | .fneg d a ea => some (encR 0x34 d.code a.code 0 ea.toNat 0 1)
  | .fclass d a ea => some (encR 0x34 d.code a.code 0 ea.toNat 0 2)
  | .frne d a ea => some (encR 0x35 d.code a.code 0 ea.toNat 0 0)
  | .frtz d a ea => some (encR 0x35 d.code a.code 0 ea.toNat 0 1)
  | .frdn d a ea => some (encR 0x35 d.code a.code 0 ea.toNat 0 2)
  | .frup d a ea => some (encR 0x35 d.code a.code 0 ea.toNat 0 3)
  | .cvtuf d a ea => some (encR 0x36 d.code a.code 0 ea.toNat 0 0)
  | .cvtsf d a ea => some (encR 0x36 d.code a.code 0 ea.toNat 0 1)
  | .cvtfu d a ea => some (encR 0x36 d.code a.code 0 ea.toNat 0 2)
  | .cvtfs d a ea => some (encR 0x36 d.code a.code 0 ea.toNat 0 3)
  | .cvtn d a fmt rnd sat pos ea => some (encI 0x37 d.code a.code (fmt.code * 64 + rnd.code * 8 + sat.toNat * 4 + pos.toNat) ea.toNat)
  | .cvtw d a fmt pos ea => some (encI 0x38 d.code a.code (fmt.code * 64 + pos.toNat * 8) ea.toNat)
  | .badd2 d a b ea eb => some (encR 0x39 d.code a.code b.code ea.toNat eb.toNat 0)
  | .bmul2 d a b ea eb => some (encR 0x39 d.code a.code b.code ea.toNat eb.toNat 1)
  | .hadd2 d a b ea eb => some (encR 0x39 d.code a.code b.code ea.toNat eb.toNat 2)
  | .hmul2 d a b ea eb => some (encR 0x39 d.code a.code b.code ea.toNat eb.toNat 3)
  | .bfma2 d a b ea eb => some (encR 0x3A d.code a.code b.code ea.toNat eb.toNat 0)
  | .hfma2 d a b ea eb => some (encR 0x3A d.code a.code b.code ea.toNat eb.toNat 1)
  | .rcp d a ea => some (encR 0x3B d.code a.code 0 ea.toNat 0 0)
  | .rsq d a ea => some (encR 0x3B d.code a.code 1 ea.toNat 0 0)
  | .sqrt d a ea => some (encR 0x3B d.code a.code 2 ea.toNat 0 0)
  | .ex2 d a ea => some (encR 0x3B d.code a.code 3 ea.toNat 0 0)
  | .lg2 d a ea => some (encR 0x3B d.code a.code 4 ea.toNat 0 0)
  | .sin d a ea => some (encR 0x3B d.code a.code 5 ea.toNat 0 0)
  | .cos d a ea => some (encR 0x3B d.code a.code 6 ea.toNat 0 0)
  | .tanh d a ea => some (encR 0x3B d.code a.code 7 ea.toNat 0 0)
  | .idot4ss d a b ea eb => some (encR 0x3C d.code a.code b.code ea.toNat eb.toNat 0)
  | .idot4uu d a b ea eb => some (encR 0x3C d.code a.code b.code ea.toNat eb.toNat 1)
  | .idot4su d a b ea eb => some (encR 0x3C d.code a.code b.code ea.toNat eb.toNat 2)
  | .idot4us d a b ea eb => some (encR 0x3C d.code a.code b.code ea.toNat eb.toNat 3)
  | .fscl d a b ea eb => some (encR 0x3D d.code a.code b.code ea.toNat eb.toNat 0)
  | .fexp d a ea => some (encR 0x3D d.code a.code 0 ea.toNat 0 1)
  | .fmnt d a ea => some (encR 0x3D d.code a.code 0 ea.toNat 0 2)
  | .scani d a b ea eb => some (encR 0x40 d.code a.code b.code ea.toNat eb.toNat 0)
  | .scanx d a b ea eb => some (encR 0x40 d.code a.code b.code ea.toNat eb.toNat 1)
  | .scanf d a b ea eb => some (encR 0x40 d.code a.code b.code ea.toNat eb.toNat 2)
  | .scanfx d a b ea eb => some (encR 0x40 d.code a.code b.code ea.toNat eb.toNat 3)
  | .scanmaxs d a ea => some (encR 0x41 d.code a.code 0 ea.toNat 0 0)
  | .scanmins d a ea => some (encR 0x41 d.code a.code 0 ea.toNat 0 1)
  | .scanmaxu d a ea => some (encR 0x41 d.code a.code 0 ea.toNat 0 2)
  | .scanminu d a ea => some (encR 0x41 d.code a.code 0 ea.toNat 0 3)
  | .scanand d a ea => some (encR 0x42 d.code a.code 0 ea.toNat 0 0)
  | .scanor d a ea => some (encR 0x42 d.code a.code 0 ea.toNat 0 1)
  | .scanxor d a ea => some (encR 0x42 d.code a.code 0 ea.toNat 0 2)
  | .sscani d a b ea eb => some (encR 0x43 d.code a.code b.code ea.toNat eb.toNat 0)
  | .sscanx d a b ea eb => some (encR 0x43 d.code a.code b.code ea.toNat eb.toNat 1)
  | .sscanf d a b ea eb => some (encR 0x43 d.code a.code b.code ea.toNat eb.toNat 2)
  | .sscanfx d a b ea eb => some (encR 0x43 d.code a.code b.code ea.toNat eb.toNat 3)
  | .redi d a ea => some (encR 0x44 d.code a.code 0 ea.toNat 0 0)
  | .redf d a ea => some (encR 0x44 d.code a.code 0 ea.toNat 0 1)
  | .redmax d a ea => some (encR 0x44 d.code a.code 0 ea.toNat 0 2)
  | .redmin d a ea => some (encR 0x44 d.code a.code 0 ea.toNat 0 3)
  | .vany d a ea => some (encR 0x45 d.code a.code 0 ea.toNat 0 0)
  | .vall d a ea => some (encR 0x45 d.code a.code 0 ea.toNat 0 1)
  | .vbal d a ea => some (encR 0x45 d.code a.code 0 ea.toNat 0 2)
  | .vcnt d a ea => some (encR 0x45 d.code a.code 0 ea.toNat 0 3)
  | .bcast d a b ea eb => some (encR 0x46 d.code a.code b.code ea.toNat eb.toNat 0)
  | .bfirst d a ea => some (encR 0x46 d.code a.code 0 ea.toNat 0 1)
  | .blast d a ea => some (encR 0x46 d.code a.code 0 ea.toNat 0 2)
  | .prev d a b ea eb => some (encR 0x47 d.code a.code b.code ea.toNat eb.toNat 0)
  | .next d a b ea eb => some (encR 0x47 d.code a.code b.code ea.toNat eb.toNat 1)
  | .rotp d a ea => some (encR 0x47 d.code a.code 0 ea.toNat 0 2)
  | .rotn d a ea => some (encR 0x47 d.code a.code 0 ea.toNat 0 3)
  | .permg d a b ea eb => some (encR 0x48 d.code a.code b.code ea.toNat eb.toNat 0)
  | .perms d a b ea eb => some (encR 0x48 d.code a.code b.code ea.toNat eb.toNat 1)
  | .topkd d a b ea eb => some (encR 0x49 d.code a.code b.code ea.toNat eb.toNat 0)
  | .topka d a b ea eb => some (encR 0x49 d.code a.code b.code ea.toNat eb.toNat 1)
  | .topkm d a b ea eb => some (encR 0x49 d.code a.code b.code ea.toNat eb.toNat 2)
  | .matchB d a ea => some (encR 0x4A d.code a.code 0 ea.toNat 0 0)
  | .match64 d a ea => some (encR 0x4A d.code a.code 0 ea.toNat 0 1)
  | .rand d => some (encR 0x4B d.code 0 0 0 0 0)
  | .randf d => some (encR 0x4B d.code 0 0 0 0 1)
  | .electl d => some (encR 0x4C d.code 0 0 0 0 0)
  | .electh d => some (encR 0x4C d.code 0 0 0 0 1)
  | .ld d a p imm w => some (encM 0x50 d.code a.code p.toNat imm.toNat w.code)
  | .st d a p imm w => some (encM 0x51 d.code a.code p.toNat imm.toNat w.code)
  | .ldu d a p imm w => some (encM 0x52 d.code a.code p.toNat imm.toNat w.code)
  | .lds d a imm w => some (encM 0x53 d.code a.code 0 imm.toNat w.code)
  | .sts d a imm w => some (encM 0x54 d.code a.code 0 imm.toNat w.code)
  | .atadd d a b p w => some (encA 0x56 d.code a.code b.code p.toNat w.toNat)
  | .atfadd d a b p => some (encA 0x57 d.code a.code b.code p.toNat 0)
  | .atmins d a b p w => some (encA 0x58 d.code a.code b.code p.toNat w.toNat)
  | .atmaxs d a b p w => some (encA 0x59 d.code a.code b.code p.toNat w.toNat)
  | .atminu d a b p w => some (encA 0x5A d.code a.code b.code p.toNat w.toNat)
  | .atmaxu d a b p w => some (encA 0x5B d.code a.code b.code p.toNat w.toNat)
  | .atand d a b p w => some (encA 0x5C d.code a.code b.code p.toNat w.toNat)
  | .ator d a b p w => some (encA 0x5D d.code a.code b.code p.toNat w.toNat)
  | .atxor d a b p w => some (encA 0x5E d.code a.code b.code p.toNat w.toNat)
  | .atxch d a b p w => some (encA 0x5F d.code a.code b.code p.toNat w.toNat)
  | .atcas d a b p w => some (encA 0x60 d.code a.code b.code p.toNat w.toNat)
  | .fence paths kind scope => some (encX 0x62 paths.toNat (kind.code * 8 + scope.code) 0 0)
  | .harr h => some (encX 0x63 0 0 h.val 0)
  | .hwait h => some (encX 0x63 0 0 h.val 1)
  | .hsync h => some (encX 0x63 0 0 h.val 2)
  | .htest d h => some (encX 0x63 d.code 0 h.val 3)
  | .qbind p a => some (encX 0x64 (portCode p) a.code 0 0)
  | .qunbind p => some (encX 0x64 (portCode p) 0 0 1)
  | .qstat d p => some (encX 0x64 d.code (portCode p) 0 2)
  | .qclose p => some (encX 0x64 (portCode p) 0 0 3)
  | .qclosee p a => some (encX 0x64 (portCode p) a.code 0 4)
  | .qpops d p b => some (encX 0x64 d.code (portCode p) b.code 5)
  | .qpushu p a => some (encX 0x64 (portCode p) a.code 0 6)
  | .spawn d a p => some (encX 0x65 d.code a.code (portCode p) 0)
  | .launch d a => some (encX 0x66 d.code a.code 0 0)
  | .sigwr op scope a b => some (encX 0x67 (op.code * 8 + scope.code) a.code b.code 0)
  | .sigwt cond scope a b => some (encX 0x67 (cond.code * 8 + scope.code) a.code b.code 1)
  | .sigrd d a scope => some (encX 0x67 d.code a.code scope.code 2)
  | .cpy1 d a b => some (encX 0x68 d.code a.code b.code 0)
  | .cpy2 d a b => some (encX 0x68 d.code a.code b.code 1)
  | .fill d a b => some (encX 0x68 d.code a.code b.code 2)
  | .gath d a b => some (encX 0x68 d.code a.code b.code 3)
  | .scat d a b => some (encX 0x68 d.code a.code b.code 4)
  | .ftest d a => some (encX 0x69 d.code a.code 0 0)
  | .fcancel a => some (encX 0x69 0 a.code 0 1)
  | .fwaith a => some (encX 0x69 0 a.code 0 2)
  | .fjoin d a b => some (encX 0x69 d.code a.code b.code 3)
  | .lput d a b => some (encX 0x6A d.code a.code b.code 0)
  | .lget d a b => some (encX 0x6A d.code a.code b.code 1)
  | .lradd d a b => some (encX 0x6A d.code a.code b.code 2)
  | .lsig d a b => some (encX 0x6A d.code a.code b.code 3)
  | .tex d a b => some (encX 0x6B d.code a.code b.code 0)
  | .texl d a b => some (encX 0x6B d.code a.code b.code 1)
  | .texf d a b => some (encX 0x6B d.code a.code b.code 2)
  | .texg d a b => some (encX 0x6B d.code a.code b.code 3)
  | .ipers d a => some (encX 0x6C d.code a.code 0 0)
  | .iflat d a => some (encX 0x6C d.code a.code 0 1)
  | .icent d a => some (encX 0x6C d.code a.code 0 2)
  | .emitc a => some (encX 0x6D 0 a.code 0 0)
  | .emitcz a b => some (encX 0x6D 0 a.code b.code 1)
  | .emitv d a b => some (encX 0x6E d.code a.code b.code 0)
  | .srate d a => some (encX 0x6F d.code a.code 0 0)
  | .mma d acc qa qb sa sb z sp f => some (encT 0x70 d.code acc.toNat qa.toNat qb.toNat sa.toNat sb.toNat (z.toNat * 4 + sp.toNat * 2 + f.toNat))
  | .acz d tile => some (encX 0x71 d.code 0 tile.toNat 0)
  | .acld d a slot tile => some (encX 0x71 d.code a.code (slot.toNat * 4 + tile.toNat) 1)
  | .acst d a slot tile => some (encX 0x71 d.code a.code (slot.toNat * 4 + tile.toNat) 2)
  | .acstr d a tile => some (encX 0x71 d.code a.code tile.toNat 3)
  | .acldr d a tile => some (encX 0x71 d.code a.code tile.toNat 4)
  | .acfold d tile => some (encX 0x71 d.code 0 tile.toNat 5)
  | .mquant d a b => some (encX 0x72 d.code a.code b.code 0)
  | .mdeq d a b => some (encX 0x72 d.code a.code b.code 1)
  | .mpin d a b => some (encX 0x73 d.code a.code b.code 0)
  | .munpin a b => some (encX 0x73 0 a.code b.code 1)
  | .sread d sr pr => some (encX 0x78 d.code sr.toNat pr.toNat 0)
  | .swrite sr b => some (encX 0x79 0 sr.toNat b.code 0)
  | .win a n ea => some (encI 0x7A 0 a.code n.toNat ea.toNat)
  | .slotq d a sel => some (encX 0x7B d.code a.code sel.code 0)
  | .nop => some (encJ 0x01 0)
  | .ret => some (encR 0x06 0 0 0 0 0 2)
  | .join => some (encJ 0x08 0)
  | .exit => some (encR 0x0A 0 0 0 0 0 0)
  | .exits => some (encR 0x0A 0 0 0 0 0 1)
  | .waitld => some (encR 0x0B 0 0 0 0 0 1)
  | .waitsfu => some (encR 0x0B 0 0 0 0 0 2)
  | .waitall => some (encR 0x0B 0 0 0 0 0 3)
  | .yield => some (encJ 0x0C 0)
  | .sleeptWake => none
  | .sleepwRecheck => none
  | .sfuResultArrival => none
  | .loadArrival => none
  | .storePerform => none
  | .cacheLineFill => none
  | .atomicPerform => none
  | .atomicReturn => none
  | .hingeDeadlock => none
  | .spawnReservation => none
  | .popArrival => none
  | .spillMove => none
  | .sigwtRecheck => none
  | .copyUnitStart => none
  | .copyUnitDone => none
  | .cancelReach => none
  | .futureDone => none
  | .futureFail => none
  | .flitReceive => none
  | .flitAck => none
  | .fenceTokenArrive => none
  | .texelArrival => none
  | .discard => some (encX 0x6D 0 0 0 2)
  | .binnerAnswer => none
  | .matrixEntryStart => none
  | .matrixEntryEnd => none
  | .mmaSpanStop => none
  | .captureEnd => none
  | .shSave => none
  | .shLoad => none
  | .shPark => none
  | .braidSaved => none
  | .rtt => some (encJ 0x7C 0)
  | .trapEntry => none
  | .dbgKill => none
  | .dbgResume => none
  | .walkStart => none
  | .walkDone => none
  | .missRespRetry => none
  | .missRespFault => none
  | .invRange => none
  | .invContext => none
  | .invAll => none
  | .invDone => none
  | .zeroStart => none
  | .zeroDone => none
  | .vaultMapWrite => none
  | .cacheUnitsWrite => none
  | .cacheResizeDone => none
  | .keyringLoad => none
  | .evrHeadWrite => none
  | .registerWrite => none
  | .doorbell => none
  | .cqEnSet => none
  | .cqEnClear => none
  | .launchPacket => none
  | .feed => none
  | .feedAppend => none
  | .signalWrite => none
  | .signalWait => none
  | .signalWaitSatisfied => none
  | .seedPush => none
  | .seedPop => none
  | .seedFork => none
  | .streamSet => none
  | .streamStop => none
  | .frameSubmit => none
  | .frameSubmitAccept => none
  | .queueOpen => none
  | .queueReset => none
  | .queueFree => none
  | .queueResume => none
  | .fenceSys => none
  | .contextCreate => none
  | .contextModify => none
  | .contextDestroy => none
  | .contextDrained => none
  | .contextZeroed => none
  | .braidPlace => none
  | .braidRestore => none
  | .swapOut => none
  | .deterministicRelease => none
  | .kernelEnd => none
  | .chainClear => none
  | .chainStart => none
  | .replayLaunch => none
  | .quadForm => none
  | .rateCheckpoint => none
  | .blendRetire => none
  | .chainCutoff => none
  | .cutoffRetire => none
  | .stripRead => none
  | .dpLineSend => none
  | .encodeStrip => none
  | .loopbackCapture => none
  | .ptpSync => none
  | .ptpSyncTimeout => none
  | .tbEnSet => none
  | .tbEnClear => none
  | .tbSet => none
  | .slotDrainWindow => none
  | .refreshSlotStart => none
  | .calibrationSlotStart => none
  | .retrainSlotStart => none
  | .sweepSlot => none
  | .slotEnd => none
  | .slotStretchEnd => none
  | .droopDetect => none
  | .droopStep => none
  | .droopStepRemove => none
  | .thermalShutdown => none
  | .boot => none
  | .heartbeat => none
  | .watchdogTimeout => none
  | .recoveryEnd => none
  | .kpRead => none
  | .kpAttest => none
  | .keeperCmdDone => none
  | .linkEnSet => none
  | .linkEnClear => none
  | .linkTrained => none
  | .linkTrainFail => none
  | .linkRetrainPending => none
  | .launchAcceptance => none
  | .hostMemoryAccess => none
  | .ptpAnnounce => none
  | .firmwareReplacement => none
  | .mgmtAttestRequest => none

/-- The word of an instruction (R33, R45). -/
def encode (i : Instr) : Option Word := (encodeNat i).map (BitVec.ofNat 32)

end Sys2Proof
end

