-- ==== Sys2Proof/Machine/Num.lean ====
section
/-!
DEFINITION. Exact numbers, the formats of 02_numbers.md and their one rounding rule (R14 to R28).
-/

namespace Sys2Proof

/-! ### Formats -/

/-- Element width in bits (R14). -/
def Fmt.width : Fmt → Nat
  | .fp32 | .int32 | .uint32 => 32
  | .fp16 | .bf16 | .int16 | .uint16 => 16
  | .e4m3 | .e5m2 | .ds8 | .e8m0 | .int8 | .uint8 => 8
  | .e2m1 => 4

/-- Fraction bits of the floating-point formats (R17, R20); 0 for the others. -/
def Fmt.fracBits : Fmt → Nat
  | .fp32 => 23 | .fp16 => 10 | .bf16 => 7 | .e4m3 => 3 | .e5m2 => 2 | .e2m1 => 1
  | _ => 0

/-- Exponent bias (R17, R20); 0 for the integer formats and DS8. -/
def Fmt.bias : Fmt → Nat
  | .fp32 | .bf16 | .e8m0 => 127 | .fp16 | .e5m2 => 15 | .e4m3 => 7 | .e2m1 => 1
  | _ => 0

/-- The least exponent of a normal number (R17, R20). -/
def Fmt.emin (f : Fmt) : Int := 1 - (f.bias : Int)

/-- The code of the largest finite magnitude (R17, R20). -/
def Fmt.maxCode : Fmt → Nat
  | .fp32 => 0x7F7FFFFF | .fp16 => 0x7BFF | .bf16 => 0x7F7F | .e4m3 => 0x7E | .e5m2 => 0x7B | .e2m1 => 7
  | _ => 0

/-- The canonical NaN (R17, R20); 0 where the format has none (R27). -/
def Fmt.nanCode : Fmt → Nat
  | .fp32 => 0x7FC00000 | .fp16 => 0x7E00 | .bf16 => 0x7FC0 | .e4m3 | .e5m2 => 0x7F | .e8m0 => 0xFF
  | _ => 0

/-- The magnitude code of an overflow that is not saturated: infinity, or the NaN of E4M3 (R28). -/
def Fmt.overCode : Fmt → Nat
  | .fp32 => 0x7F800000 | .fp16 => 0x7C00 | .bf16 => 0x7F80 | .e4m3 => 0x7F | .e5m2 => 0x7C
  | f => f.maxCode

/-- The sign bit of a format, set or clear. -/
def Fmt.signed (f : Fmt) (neg : Bool) (mag : Nat) : Nat := if neg then 2 ^ (f.width - 1) + mag else mag

end Sys2Proof

namespace Sys2Proof.Machine
open Sys2Proof

/-- An exact real: num / den, with den positive. -/
structure Frac where
  num : Int
  den : Nat
  deriving DecidableEq, Repr

/-- A value of a floating-point format: a NaN, an infinity or a zero with its sign, or a nonzero real. -/
inductive FVal where
  | nan
  | inf (neg : Bool)
  | zero (neg : Bool)
  | fin (x : Frac)
  deriving DecidableEq, Repr

/-! ### Exact arithmetic -/

/-- m × 2^e. -/
def dyadic (m : Int) (e : Int) : Frac :=
  if 0 ≤ e then ⟨m * (2 ^ e.toNat : Nat), 1⟩ else ⟨m, 2 ^ (-e).toNat⟩

/-- The sum of two reals. -/
def Frac.plus (x y : Frac) : Frac :=
  if x.den = y.den then ⟨x.num + y.num, x.den⟩ else ⟨x.num * y.den + y.num * x.den, x.den * y.den⟩

/-- The product of two reals. -/
def Frac.times (x y : Frac) : Frac := ⟨x.num * y.num, x.den * y.den⟩

/-- The reciprocal of a nonzero real. -/
def Frac.recip (x : Frac) : Frac :=
  if x.num < 0 then ⟨-(x.den : Int), x.num.natAbs⟩ else ⟨x.den, x.num.natAbs⟩

/-- x × 2^e. -/
def Frac.scale (x : Frac) (e : Int) : Frac := x.times (dyadic 1 e)

/-- x < y. -/
def Frac.less (x y : Frac) : Bool := decide (x.num * y.den < y.num * x.den)

/-- |x|. -/
def Frac.mag (x : Frac) : Frac := ⟨x.num.natAbs, x.den⟩

/-- ⌊log2 (a / b)⌋ for positive a and b. -/
def floorLog2 (a b : Nat) : Int :=
  let k : Int := (Nat.log2 a : Int) - Nat.log2 b
  let below : Bool := if 0 ≤ k then decide (a < b * 2 ^ k.toNat) else decide (a * 2 ^ (-k).toNat < b)
  if below then k - 1 else k

/-- ⌊log2 |x|⌋ of a nonzero real. -/
def Frac.log (x : Frac) : Int := floorLog2 x.num.natAbs x.den

/-- ⌊|x| / 2^e⌋ and the rest of that division: the quotient, the remainder and the divisor. -/
def Frac.divPow (x : Frac) (e : Int) : Nat × Nat × Nat :=
  let a := if 0 ≤ e then x.num.natAbs else x.num.natAbs * 2 ^ (-e).toNat
  let b := if 0 ≤ e then x.den * 2 ^ e.toNat else x.den
  (a / b, a % b, b)

/-- The real as a value: an exact zero is +0. -/
def Frac.toVal (x : Frac) : FVal := if x.num = 0 then .zero false else .fin x

/-- The value of one code of FP32, FP16, BF16, E4M3, E5M2 or E2M1 (R17, R20). -/
def floatVal (f : Fmt) (code : Nat) : FVal :=
  let neg := code.testBit (f.width - 1)
  let mag := code % 2 ^ (f.width - 1)
  let sgn : Int := if neg then -1 else 1
  if mag = 0 then .zero neg
  else if mag ≤ f.maxCode then
    let e := mag / 2 ^ f.fracBits
    let m := mag % 2 ^ f.fracBits
    if e = 0 then .fin (dyadic (sgn * m) (f.emin - f.fracBits))
    else .fin (dyadic (sgn * (m + 2 ^ f.fracBits : Nat)) ((e : Int) - f.bias - f.fracBits))
  else if mag = f.overCode ∧ f ≠ .e4m3 then .inf neg
  else .nan

/-- Term(s, c) of R21, in eighths. -/
def ds8Term (s : Bool) (c : Nat) : Int :=
  if c = 0 then 0 else (if s then -1 else 1) * (2 ^ (c - 1) : Nat)

/-- The value of a DS8 byte, in eighths (R21). -/
def ds8Eighths (code : Nat) : Int :=
  ds8Term (code.testBit 7) (bits code 6 4) + ds8Term (code.testBit 3) (bits code 2 0)

/-- Two's complement of n bits. -/
def signedOf (n x : Nat) : Int := if x.testBit (n - 1) then (x : Int) - 2 ^ n else x

/-- The value of one element code of any format (R14, R20, R21, R132). -/
def elemVal (f : Fmt) (code : Nat) : FVal :=
  match f with
  | .ds8 => (Frac.mk (ds8Eighths code) 8).toVal
  | .e8m0 => if code = 0xFF then .nan else .fin (dyadic 1 ((code : Int) - 127))
  | .int8 => (Frac.mk (signedOf 8 code) 1).toVal
  | .uint8 => (Frac.mk code 1).toVal
  | .int16 => (Frac.mk (signedOf 16 code) 1).toVal
  | .uint16 => (Frac.mk code 1).toVal
  | .int32 => (Frac.mk (signedOf 32 code) 1).toVal
  | .uint32 => (Frac.mk code 1).toVal
  | f => floatVal f code

/-- F(x): the FP32 value of a register (R94). -/
def fp (x : Word) : FVal := floatVal .fp32 x.toNat

/-- Elem(x, w, i) of R100. -/
def elem (x : Word) (w i : Nat) : Nat := x.toNat / 2 ^ (w * i) % 2 ^ w

/-! ### Rounding -/

/-- The random bits that a rounding compares: none is a mode other than SR; `d` is the number of the source's
bits below the target's spacing, or none when it is unbounded (R27). -/
def roundsUp (mode : Rnd) (neg : Bool) (n rem den : Nat) (d : Option Nat) (r : Nat) : Bool :=
  match mode with
  | .rne | .rnes => decide (2 * rem > den) || (decide (2 * rem = den) && n % 2 == 1)
  | .rtz => false
  | .rdn => decide (rem > 0) && neg
  | .rup => decide (rem > 0) && !neg
  | .sr =>
    match d with
    | none => decide (rem * 2 ^ 16 / den + r % 2 ^ 16 ≥ 2 ^ 16)
    | some d =>
      if d ≥ 16 then decide (rem * 2 ^ 16 / den + r % 2 ^ 16 ≥ 2 ^ 16)
      else decide (rem * 2 ^ d / den + r % 2 ^ 16 / 2 ^ (16 - d) ≥ 2 ^ d)

/-- Overflow(s, f, mode, sat) of R28. -/
def overflowCode (neg : Bool) (f : Fmt) (mode : Rnd) (sat : Bool) : Nat :=
  if sat then f.signed neg f.maxCode
  else match mode with
    | .rnes | .rtz => f.signed neg f.maxCode
    | .rne | .sr => f.signed neg f.overCode
    | .rdn => if neg then f.signed true f.overCode else f.maxCode
    | .rup => if neg then f.signed true f.maxCode else f.overCode

/-- Round(x, f, mode, sat, r) of R27 into a floating-point format, with the bits `d` of R27. -/
def round (x : FVal) (f : Fmt) (mode : Rnd) (sat : Bool) (r : Nat) (d : Option Nat := none) : Nat :=
  match x with
  | .nan => f.nanCode
  | .inf neg => overflowCode neg f mode sat
  | .zero neg => f.signed neg 0
  | .fin x =>
    let neg := decide (x.num < 0)
    let e := max x.log f.emin
    let (n, rem, den) := x.divPow (e - f.fracBits)
    let m := if roundsUp mode neg n rem den d r then n + 1 else n
    let mag := (e - f.emin).toNat * 2 ^ f.fracBits + m
    if mag > f.maxCode then overflowCode neg f mode sat else f.signed neg mag

/-- RN(x) of R118. -/
def rn (x : FVal) : Word := BitVec.ofNat 32 (round x .fp32 .rne false 0)

/-- The number of bits of FP32's own spacing at |x| that lie below 2^q (R27). -/
def fp32Below (x : Frac) (q : Int) : Nat := (q - (max x.log (-126) - 23)).toNat

/-- `d` of R27 for a stored FP32 value converted to format f. -/
def storedBits (x : FVal) (f : Fmt) : Option Nat :=
  match x with
  | .fin x => some (fp32Below x (max x.log f.emin - f.fracBits))
  | _ => some 0

/-- The distance of |v| (in eighths, as a fraction) from k eighths. -/
def eighthsOff (x : Frac) (k : Nat) : Frac :=
  (Frac.plus ⟨8 * x.num.natAbs, x.den⟩ ⟨-(k : Int), 1⟩).mag

/-- The DS8 magnitude, in eighths, nearest |x|, the smaller of two equally near ones (R22). -/
def ds8Nearest (x : Frac) : Nat :=
  ((List.range 129).filter fun k => (List.range 256).any fun c => (ds8Eighths c).natAbs == k).foldl
    (fun best k => if (eighthsOff x k).less (eighthsOff x best) then k else best) 0

/-- ConvDS8(v) of R22. -/
def convDs8 (v : FVal) : Nat :=
  match v with
  | .nan | .zero _ => 0
  | .inf neg => if neg then 0xFF else 0x77
  | .fin x =>
    let k : Int := ds8Nearest x
    let k := if x.num < 0 then -k else k
    ((List.range 256).find? fun c => decide (ds8Eighths c = k)).getD 0

/-- A real rounded to an integer under a mode, with spacing 1 (R124, R131). -/
def roundInt (x : Frac) (mode : Rnd) (d : Option Nat) (r : Nat) : Int :=
  let neg := decide (x.num < 0)
  let (n, rem, den) := x.divPow 0
  let m : Int := if roundsUp mode neg n rem den d r then n + 1 else n
  if neg then -m else m

/-- IntConv(v, fmt, rnd, r) of R131, as the bits of the element. -/
def intConv (v : FVal) (w : Nat) (sgn : Bool) (mode : Rnd) (r : Nat) : Nat :=
  let clip (z : Int) : Nat := ((if sgn then Sys2Proof.sat z w else satU z w) % (2 ^ w : Nat)).toNat
  match v with
  | .nan | .zero _ => 0
  | .inf neg => clip (if neg then -(2 ^ 64 : Nat) else (2 ^ 64 : Nat))
  | .fin x => clip (roundInt x mode (some (fp32Below x 0)) r)

/-- The code of a value in any narrow format, as CVTN and the matrix epilogues form it (R22, R25, R131). -/
def convElem (v : FVal) (f : Fmt) (mode : Rnd) (sat : Bool) (r : Nat) : Nat :=
  match f with
  | .ds8 => convDs8 v
  | .e2m1 => round v .e2m1 mode true r (storedBits v .e2m1)
  | .int8 => intConv v 8 true mode r
  | .uint8 => intConv v 8 false mode r
  | .int16 => intConv v 16 true mode r
  | .uint16 => intConv v 16 false mode r
  | .int32 => intConv v 32 true mode r
  | .uint32 => intConv v 32 false mode r
  | .e8m0 => 0
  | f => round v f mode sat r (storedBits v f)

/-! ### Operations on values -/

/-- Whether a value counts as negative by its sign bit. -/
def FVal.neg : FVal → Bool
  | .nan => false
  | .inf n => n
  | .zero n => n
  | .fin x => decide (x.num < 0)

/-- −x. -/
def fNegVal : FVal → FVal
  | .nan => .nan
  | .inf n => .inf (!n)
  | .zero n => .zero (!n)
  | .fin x => .fin ⟨-x.num, x.den⟩

/-- The exact sum, with the signs of zero under RNE (R18, R120). -/
def fAddVal (x y : FVal) : FVal :=
  match x, y with
  | .nan, _ | _, .nan => .nan
  | .inf a, .inf b => if a = b then .inf a else .nan
  | .inf a, _ | _, .inf a => .inf a
  | .zero a, .zero b => .zero (a && b)
  | .zero _, v => v
  | v, .zero _ => v
  | .fin a, .fin b => (a.plus b).toVal

/-- The exact product (R18, R120). -/
def fMulVal (x y : FVal) : FVal :=
  match x, y with
  | .nan, _ | _, .nan => .nan
  | .inf _, .zero _ | .zero _, .inf _ => .nan
  | .inf a, v | v, .inf a => .inf (a != v.neg)
  | .zero a, v | v, .zero a => .zero (a != v.neg)
  | .fin a, .fin b => .fin (a.times b)

/-- x < y for numbers; false if either is NaN; zeros of either sign are equal (R122). -/
def fLtVal (x y : FVal) : Bool :=
  match x, y with
  | .nan, _ | _, .nan => false
  | .inf a, .inf b => a && !b
  | .inf a, _ => a
  | _, .inf b => !b
  | .zero _, .zero _ => false
  | .zero _, .fin b => decide (0 < b.num)
  | .fin a, .zero _ => decide (a.num < 0)
  | .fin a, .fin b => a.less b

/-- x = y for numbers (R122). -/
def fEqVal (x y : FVal) : Bool :=
  !(x matches .nan) && !(y matches .nan) && !fLtVal x y && !fLtVal y x

/-- The larger integer whose square does not exceed `a`, among those below 2^k, built from its top bit. -/
def isqrt (a : Nat) : Nat → Nat → Nat
  | 0, acc => acc
  | k + 1, acc => if (acc + 2 ^ k) * (acc + 2 ^ k) ≤ a then isqrt a k (acc + 2 ^ k) else isqrt a k acc

/-- A real as near √x as any rounding to FP32 can tell: the root to 2^-40 of its size, with a last bit that
says whether something was cut off. -/
def rootSticky (x : Frac) : Frac :=
  let e := x.log / 2
  let (n, rem, _) := x.divPow (2 * e - 80)
  let s := isqrt n 42 0
  dyadic (2 * s + (if s * s = n ∧ rem = 0 then 0 else 1) : Nat) (e - 41)

end Sys2Proof.Machine
end

