-- ==== Sys2Proof/Config.lean ====
section
/-!
DEFINITION. What the manual leaves open: free values, each a constant without a body, so that nothing about it
can be proved.
-/

namespace Sys2Proof.Config

/-- Free value number n. The step applies it to the counter State.choice, and advances the counter, wherever
the manual leaves an order, a time or a choice open (R66, R209; log 1, 2, 7). -/
opaque free (n : Nat) : Nat

/-- The result bits of special function `op` (R133's code) for an input that R134 fixes only within a bound; the
model keeps it only where it meets the bound (log 10). -/
opaque sfu (op : Nat) (x : Word) : Word

/-- Whether a firmware image carries a valid SLH-DSA-SHA2-128s signature of FIPS 205 under the keeper's public
key (R426; log 12). -/
opaque verify (image signature : List Byte) : Bool

/-- The SLH-DSA-SHA2-128s signature of a report under the device key (R428; log 12). -/
opaque sign (report : List Byte) : List Byte

/-- The digest of the keeper's ROM (R428; log 12). -/
opaque romDigest : List Byte

/-- The bytes of an attestation report in memory, whose layout the manual does not give (R428, R432; log 45): from its
parts, which are the entries of the log, the ROM digest, the nonce, the time and the signature. -/
opaque reportBytes (parts : List (List Byte)) : List Byte

/-- The AV1 bitstream of one coded tile row: session parameters, references, and the planes of YCbCr samples (R380;
log 13). -/
opaque av1 (params : List Nat) (refs samples : List Word) : List Byte

/-- The reconstruction of the same tile row, which becomes the session's LAST frame (R380; log 13). -/
opaque av1Recon (params : List Nat) (refs samples : List Word) : List Word

/-- Whether byte `a` of the destination of copy command `id` takes, where source and destination overlap, the value that the
command itself writes to its source byte, and not the byte as it stood (R238; log 127). -/
opaque copyOwn (id a : Nat) : Bool

/-- The word of the reference stores at which word n of strip k of a coded frame of a session stands, taken modulo their size
(R182, R380; log 110). -/
opaque refPlace (session frame k n : Nat) : Nat

/-- The place in memory of byte number n of the bitstream of a session with a ring address (R380; log 111). -/
opaque ringPlace (ring n : Nat) : Nat

end Sys2Proof.Config
end

