-- ==== Sys2Proof/Machine/Crypto.lean ====
section
/-!
DEFINITION. The two standards the manual names and whose results memory shows: AES-256-XTS of IEEE 1619 (R179)
and SHA-256 of FIPS 180-4 (R426).
-/

namespace Sys2Proof.Machine
open Sys2Proof

/-- The bytes of a number, least first. -/
def toLE : Nat → Nat → List Byte
  | 0, _ => []
  | n + 1, x => BitVec.ofNat 8 x :: toLE n (x / 256)

/-- The number whose bytes are given, least first. -/
def ofLE : List Byte → Nat
  | [] => 0
  | b :: t => b.toNat + 256 * ofLE t

/-! ### AES-256 -/

/-- Multiplication by x in GF(2^8). -/
def xtime (a : Byte) : Byte := if a.msb then (a <<< 1) ^^^ 0x1B else a <<< 1

/-- Multiplication in GF(2^8), over the low n bits of b. -/
def gfMul : Nat → Byte → Byte → Byte
  | 0, _, _ => 0
  | n + 1, a, b => (if b.getLsbD 0 then a else 0) ^^^ gfMul n (xtime a) (b >>> 1)

/-- Square-and-multiply over the exponent 254 = 0b11111110: the inverse, and 0 for 0. -/
def gfInv (a : Byte) : Byte :=
  let rec go : Nat → Byte → Byte → Byte
    | 0, _, acc => acc
    | n + 1, p, acc => let p := gfMul 8 p p; go n p (gfMul 8 acc p)
  go 7 a 1

/-- The substitution box. -/
def subByte (a : Byte) : Byte :=
  let i := gfInv a
  i ^^^ i.rotateLeft 1 ^^^ i.rotateLeft 2 ^^^ i.rotateLeft 3 ^^^ i.rotateLeft 4 ^^^ 0x63

/-- The inverse substitution box. -/
def invSubByte (a : Byte) : Byte :=
  gfInv (a.rotateLeft 1 ^^^ a.rotateLeft 3 ^^^ a.rotateLeft 6 ^^^ 0x05)

/-- Bytewise exclusive or. -/
def xorBytes (a b : List Byte) : List Byte := List.zipWith (· ^^^ ·) a b

/-- Byte i of a list. -/
def byteN (l : List Byte) (i : Nat) : Byte := l.getD i 0

/-- ShiftRows: row r of the column-major block moves left by r. -/
def shiftRows (s : List Byte) : List Byte := (List.range 16).map fun i => byteN s ((i + 4 * (i % 4)) % 16)

/-- The inverse of ShiftRows. -/
def invShiftRows (s : List Byte) : List Byte := (List.range 16).map fun i => byteN s ((i + 12 * (i % 4)) % 16)

/-- One MixColumns product with the four coefficients of row 0. -/
def mixWith (c0 c1 c2 c3 : Byte) (s : List Byte) : List Byte :=
  (List.range 16).map fun i =>
    let col := i / 4 * 4
    let at_ := fun k => byteN s (col + (i + k) % 4)
    gfMul 8 (at_ 0) c0 ^^^ gfMul 8 (at_ 1) c1 ^^^ gfMul 8 (at_ 2) c2 ^^^ gfMul 8 (at_ 3) c3

/-- The key schedule: n further words of four bytes after the newest eight, newest first. -/
def expandKey : Nat → Nat → Byte → List (List Byte) → List (List Byte)
  | 0, _, _, ws => ws
  | n + 1, i, rcon, ws =>
    let prev := ws.headD []
    let t :=
      if i % 8 = 0 then xorBytes (((prev.drop 1) ++ prev.take 1).map subByte) [rcon, 0, 0, 0]
      else if i % 8 = 4 then prev.map subByte
      else prev
    expandKey n (i + 1) (if i % 8 = 0 then xtime rcon else rcon) (xorBytes (ws.getD 7 []) t :: ws)

/-- The fifteen round keys of a 32-byte key. -/
def roundKeys (key : List Byte) : List (List Byte) :=
  let w0 := (List.range 8).map fun i => (key.drop (4 * i)).take 4
  let ws := (expandKey 52 8 1 w0.reverse).reverse
  (List.range 15).map fun r => ((ws.drop (4 * r)).take 4).flatten

/-- AES-256 of one block. -/
def aesEnc (rk : List (List Byte)) (blk : List Byte) : List Byte :=
  let s := xorBytes blk (rk.getD 0 [])
  let s := (List.range 13).foldl (fun s r =>
    xorBytes (mixWith 2 3 1 1 (shiftRows (s.map subByte))) (rk.getD (r + 1) [])) s
  xorBytes (shiftRows (s.map subByte)) (rk.getD 14 [])

/-- The inverse of AES-256 of one block. -/
def aesDec (rk : List (List Byte)) (blk : List Byte) : List Byte :=
  let s := (invShiftRows (xorBytes blk (rk.getD 14 []))).map invSubByte
  let s := (List.range 13).foldl (fun s r =>
    (invShiftRows (mixWith 14 11 13 9 (xorBytes s (rk.getD (13 - r) [])))).map invSubByte) s
  xorBytes s (rk.getD 0 [])

/-- The tweak's multiplication by α, on a 128-bit number. -/
def xtsAlpha (t : Nat) : Nat := let d := 2 * t; if d < 2 ^ 128 then d else (d - 2 ^ 128) ^^^ 0x87

/-- Eight blocks of a line under XTS from tweak t. -/
def xtsBlocks (f : List Byte → List Byte) : Nat → Nat → List Byte → List Byte
  | 0, _, _ => []
  | n + 1, t, d =>
    let tb := toLE 16 t
    xorBytes (f (xorBytes (d.take 16) tb)) tb ++ xtsBlocks f n (xtsAlpha t) (d.drop 16)

/-- AES-256-XTS of the 128-byte line with number `line`, under a key pair: the data key in the low 256 bits, then
the tweak key (R179, R421). -/
def xtsLine (encrypt : Bool) (pair line : Nat) (d : List Byte) : List Byte :=
  let k1 := roundKeys (toLE 32 pair)
  let k2 := roundKeys (toLE 32 (pair / 2 ^ 256))
  xtsBlocks (if encrypt then aesEnc k1 else aesDec k1) 8 (ofLE (aesEnc k2 (toLE 16 line))) d

/-! ### SHA-256 -/

/-- The first primes, of which SHA-256 takes cube and square roots. -/
def primes64 : List Nat :=
  [2, 3, 5, 7, 11, 13, 17, 19, 23, 29, 31, 37, 41, 43, 47, 53, 59, 61, 67, 71, 73, 79, 83, 89, 97, 101, 103, 107,
   109, 113, 127, 131] ++
  [137, 139, 149, 151, 157, 163, 167, 173, 179, 181, 191, 193, 197, 199, 211, 223, 227, 229, 233, 239, 241, 251,
   257, 263, 269, 271, 277, 281, 283, 293, 307, 311]

/-- ⌊a^(1/p)⌋ below 2^k, bit by bit. -/
def iroot (p a : Nat) : Nat → Nat → Nat
  | 0, acc => acc
  | k + 1, acc => if (acc + 2 ^ k) ^ p ≤ a then iroot p a k (acc + 2 ^ k) else iroot p a k acc

/-- The first 32 bits of the fraction of the p-th root of n. -/
def rootFrac (p n : Nat) : Word := BitVec.ofNat 32 (iroot p (n * 2 ^ (32 * p)) 40 0)

/-- The message schedule, newest word first: n further words. -/
def shaSchedule : Nat → List Word → List Word
  | 0, w => w
  | n + 1, w =>
    let x := w.getD 14 0
    let y := w.getD 1 0
    let s0 := x.rotateRight 7 ^^^ x.rotateRight 18 ^^^ (x >>> 3)
    let s1 := y.rotateRight 17 ^^^ y.rotateRight 19 ^^^ (y >>> 10)
    shaSchedule n ((w.getD 15 0 + s0 + w.getD 6 0 + s1) :: w)

/-- One round, on the eight working words, with constant plus schedule word. -/
def shaRound (v : List Word) (kw : Word) : List Word :=
  let g := fun i => v.getD i 0
  let e := g 4
  let s1 := e.rotateRight 6 ^^^ e.rotateRight 11 ^^^ e.rotateRight 25
  let t1 := g 7 + s1 + ((e &&& g 5) ^^^ (~~~e &&& g 6)) + kw
  let a := g 0
  let s0 := a.rotateRight 2 ^^^ a.rotateRight 13 ^^^ a.rotateRight 22
  let t2 := s0 + ((a &&& g 1) ^^^ (a &&& g 2) ^^^ (g 1 &&& g 2))
  [t1 + t2, a, g 1, g 2, g 3 + t1, e, g 5, g 6]

/-- One 64-byte block. -/
def shaBlock (h : List Word) (blk : List Byte) : List Word :=
  let w := (List.range 16).map fun i => BitVec.ofNat 32 (ofLE ((blk.drop (4 * i)).take 4).reverse)
  let ws := (shaSchedule 48 w.reverse).reverse
  let kw := List.zipWith (fun p x => rootFrac 3 p + x) primes64 ws
  List.zipWith (· + ·) h (kw.foldl shaRound h)

/-- The blocks of a padded message. -/
def shaBlocks : Nat → List Word → List Byte → List Word
  | 0, h, _ => h
  | n + 1, h, d => shaBlocks n (shaBlock h (d.take 64)) (d.drop 64)

/-- The 32-byte SHA-256 digest of a message. -/
def sha256 (msg : List Byte) : List Byte :=
  let n := msg.length
  let z := (119 - n % 64) % 64
  let m := msg ++ [0x80] ++ List.replicate z 0 ++ (toLE 8 (8 * n)).reverse
  let h0 := (primes64.take 8).map (rootFrac 2)
  ((shaBlocks (m.length / 64) h0 m).map fun w => (toLE 4 w.toNat).reverse).flatten

end Sys2Proof.Machine
end

