-- ==== Sys2Proof/Machine/State.lean ====
section
/-!
DEFINITION. The state of the FX-960: everything the manual gives the machine, as plain data. Each type names
the rule that gives it. Tables that the manual numbers (registers, beads, queues, vaults) are association
lists with strictly rising keys, in which a key that is not listed holds the reset value.
-/

namespace Sys2Proof.Machine
open Sys2Proof

/-- A table by number, keys strictly rising. -/
abbrev SMap (α : Type) := List (Nat × α)

/-! ### Memory and its order -/

/-- A pair (w, q) of a knowledge set: the write with that number is known on path q (R208). -/
abbrev Known := Nat × Path

/-- Who releases or acquires, as far as a scope asks (R206). -/
inductive Party where
  | strand (sid bid : Nat) (locket : Option Nat)
  | queue (n : Nat)
  | device (n : Nat)
  | host
  deriving DecidableEq, Repr

/-- A publication: what a release hands on, its scope and its releaser (R210). -/
structure Pub where
  scope : Scope
  by_ : Party
  pairs : List Known
  deriving DecidableEq, Repr

/-- One write in the coherence order of its bytes (R207): number, physical address, the bytes before and
after, the path it travelled, and the publications it carries (R215). -/
structure Write where
  id : Nat
  pa : Nat
  old : List Byte
  new : List Byte
  path : Option Path
  pubs : List Pub
  deriving DecidableEq, Repr

/-- A range whose bytes were replaced by no write, when the order of writes had length `at_`: no read goes behind that
moment. It was zeroed (R163, R180), or one line of it came under another key pair (R179): `pair` is the old pair and the
new. -/
structure Floor where
  pa : Nat
  len : Nat
  at_ : Nat
  pair : Option (Nat × Nat) := none
  deriving DecidableEq, Repr

/-- Physical memory (R167) with the coherence order of its writes, newest first (R207), what no read goes behind, newest
first; the 8-byte words that hold an uncorrectable error, those with a single-bit error, and the corrections counted by
index (R193, R431); the key pair each LPDDR6 line is encrypted under (R179), and, for lines that it does not list, the ranges
that a zeroing put under a key pair, as first line, number of lines and pair, newest first (R180). -/
structure Memory where
  bytes : SMap Byte := []
  log : List Write := []
  nextWrite : Nat := 0
  floors : List Floor := []
  ecc : List Nat := []
  flips : List Nat := []
  corrected : SMap Nat := []
  lineKey : SMap Nat := []
  keyed : List (Nat × Nat × Nat) := []
  deriving DecidableEq, Repr

/-! ### Cached translations -/

/-- The translation caches (R176): a core's fetch, bead-path and M/X caches, a quad's second level and its
walk cache of pointer entries. -/
inductive CacheId where
  | fetch (core : Nat)
  | bead (core : Nat)
  | mx (core : Nat)
  | second (quad : Nat)
  | walk (quad : Nat)
  deriving DecidableEq, Repr

/-- A cached table entry: where, whose, the first address it covers, its level, the entry's 64 bits, and the first address of
the contiguous group whose first entry it is taken from. -/
structure TlbEntry where
  cache : CacheId
  ctx : Nat
  va : Nat
  level : Nat
  pte : Nat
  group : Option Nat := none
  deriving DecidableEq, Repr

/-! ### The strand -/

/-- The full/empty state of a register (R41): full, empty until a result arrives, empty until the future whose
handle it holds reaches a final state (R230), or full because that future's completion filled it (R211). -/
inductive Fill where
  | full | due | future | futured
  deriving DecidableEq, Repr

/-- A register: its value and its full/empty state. -/
structure RegVal where
  val : Word := 0
  fill : Fill := .full
  deriving DecidableEq, Repr

/-- A physical register of a strand: a bead register (index × 64 + bead) or a uniform register, where 32 to
35 are the handler's s0 to s3 (R39, R40); or the count of the innermost loop (R89). -/
inductive RKey where
  | b (k : Nat)
  | u (k : Nat)
  | lc
  deriving DecidableEq, Repr

/-- What an access needs of a leaf (R171). -/
inductive Need where
  | read | write | both | fetch
  deriving DecidableEq, Repr

/-- The kinds of divergence entries (R75); a code above 3 is invalid. -/
inductive DivKind where
  | join | path | xjoin | xpath
  | invalid (code : Nat)
  deriving DecidableEq, Repr

/-- A divergence-stack entry (R75). -/
structure DivEntry where
  kind : DivKind
  mask : DWord
  pc : Word
  loop : Nat
  deriving DecidableEq, Repr

/-- A return entry (R80). -/
structure RetEntry where
  ret : Word
  d0 : Nat
  l0 : Nat
  deriving DecidableEq, Repr

/-- A bead's return stack: its depth and the newest entries, held on chip, newest first (R80, R81). -/
structure CallStack where
  depth : Nat := 0
  top : List RetEntry := []
  deriving DecidableEq, Repr

/-- A hardware-loop level (R87). -/
structure LoopLevel where
  start : Word
  stop : Word
  lc : Word
  d : Nat
  frame : Nat
  deriving DecidableEq, Repr

/-- What a trap sets aside and RTT reinstates: the mask, the divergence stack (depth, and the entries on
chip, newest first), the loop levels (innermost first), the return stacks and the window base (R396). -/
structure Flow where
  mask : DWord := 0
  divDepth : Nat := 0
  divTop : List DivEntry := []
  loops : List LoopLevel := []
  calls : SMap CallStack := []
  winBase : Nat := 0
  deriving DecidableEq, Repr

/-- The trap registers 0x20 to 0x27 (R51). -/
structure TrapRegs where
  cause : Word := 0
  bead : Word := 0
  pc : Word := 0
  info : Word := 0
  mask : DWord := 0
  addr : DWord := 0
  deriving DecidableEq, Repr

/-- Why a strand is blocked (R69), and so when it is ready again. -/
inductive Wait where
  /-- A register is empty (R42, R43, R91). -/
  | reg (k : RKey)
  /-- Any of several registers is empty (R139). -/
  | regs (ks : List RKey)
  /-- An access to an address waits on a miss record of a quad (R174). -/
  | miss (quad idx : Nat) (need : Need) (va : Nat)
  /-- All 64 miss records of the quad are in use (R172). -/
  | missFull (quad : Nat)
  /-- A pop request has not been answered (R293, R294). -/
  | pop
  /-- The requests of a bead that pops more than once, or pops and pushes: some pop has no element yet (R294). -/
  | ports (pops : List Nat) (push : Option Nat)
  /-- The special-function queue of the lane is full (R136). -/
  | sfuFull
  /-- A pending arrival at a hinge (R279). -/
  | hinge (h : Nat)
  /-- SLEEPT: until the timebase reaches a time in ns (R93). -/
  | time (ns : Nat)
  /-- SLEEPQ: until the queue holds something a pop would return (R93). -/
  | queue (qid : Nat)
  /-- SLEEPW: until a recheck after a write to the address's line finds another word than b (R93); `seen` is the
  length of the order of writes at the last read. -/
  | word (va pa key : Nat) (b : Word) (seen : Nat)
  /-- SIGWT: until a recheck after a write to the object finds its condition true (R285). -/
  | signal (va pa key : Nat) (cond : Cond) (operand : DWord) (seen : Nat)
  /-- FWAITH: until the future is final (R244). -/
  | future (handle : Word)
  /-- Every record of the context's future table is pending (R228). -/
  | table
  /-- The copy engine holds 64 commands (R233). -/
  | copyFull
  /-- The matrix queue holds 8 entries, or a record still has to re-enter it (R253, R273). -/
  | matrixFull
  /-- 256 device launches await acceptance (R325). -/
  | launchFull
  /-- WAITLD, WAITSFU, WAITALL (R91). -/
  | loads | sfus | all
  /-- FENCE: accesses on these paths have not performed, or, at system scope, stores that its tokens follow have not been sent
  (R216). -/
  | fence (paths : Nat) (sys : Bool)
  /-- A write that the strand knows has not performed on a range that its access reads (R209). -/
  | stores (pa n : Nat)
  /-- An earlier access of the strand has not performed on a range that its access touches (R199). -/
  | order (pa n : Nat)
  /-- An access would reach LPDDR6, whose requests a slot or a change of the cache region's size holds (R184, R385). -/
  | lines (pa n : Nat)
  /-- A SPAWN of the strand has not made its reservation at a queue at which it makes its next request (R293, R300). -/
  | spawns (qid : Nat)
  /-- A hinge arrival waits on the strand's accesses (R211, R280). -/
  | perform
  /-- A command of sh_ctl is under way (R405). -/
  | shadow
  /-- Matrix capture is under way (R271, R273). -/
  | capture
  /-- The ordered-release buffer has no room for a braid that is not the head (R219). -/
  | staging
  deriving DecidableEq, Repr

/-- What a strand is doing (R69). -/
inductive Run where
  | ready
  | blocked (w : Wait)
  /-- PARK has performed, or the strand waits for its braid's save (R405). -/
  | parked
  /-- A double fault, or a trap without an entry (R399, R401): the cause of the halt. -/
  | halted (cause : Nat)
  deriving DecidableEq, Repr

/-- An asynchronous cause that is due or held (R395, R412), with what it records. -/
structure Async where
  cause : Nat
  bead : Nat := 255
  pc : Word := 0
  info : Word := 0
  addr : DWord := 0
  deriving DecidableEq, Repr

/-- A fault that a miss record's answer left for the access that waits on it, and whether that is a fetch (R173, R174,
R322). -/
structure AccFault where
  fetch : Bool
  cause : Nat
  info : Nat
  addr : Nat
  deriving DecidableEq, Repr

/-- A fragment that a bead carries (R369, R375): its block, coverage, place in the order of formation, and the depth of
each pixel of the block (R368). -/
structure FragBead where
  x : Nat
  y : Nat
  w : Nat
  h : Nat
  cover : Nat
  helper : Bool
  order : Nat
  emitted : Bool := false
  zs : List Word := []
  deriving DecidableEq, Repr

/-- Publications that a strand's later writes carry: the paths of the FENCE and what it releases (R215). -/
structure FencePub where
  paths : Nat
  pub : Pub
  deriving DecidableEq, Repr

/-- A strand on its lane, or of a saved braid. `insn` is the word at which it is held in the middle of an instruction
(R69), `stamp` numbers the instruction (R203) and `savedStamp` the one that a trap interrupted, with its pc, `srHeld` the words that an SREAD held in its middle read at its issue
(R403), `woken` the wake from SLEEPQ that an append gave (R305), `entering` a trap entry whose deliveries are still to come
(R396), `given` the translation with which a walk ended that its access waited for (R173), `waits` the miss record that
counts it although it has left for a save, and whether a fetch waits (R408), `lastTb` the latest time it has read (R326). -/
structure Strand where
  braid : Nat := 0
  kernel : Nat := 0
  ctx : Nat := 0
  core : Nat := 0
  lane : Nat := 0
  slot : Nat := 0
  sx : Nat := 0
  width : Nat := 16
  regs : Nat := 16
  uregs : Nat := 8
  strip : Bool := false
  pc : Word := 0
  flow : Flow := {}
  retired : DWord := 0
  breg : SMap RegVal := []
  ureg : SMap RegVal := []
  pos : Nat := 0
  run : Run := .ready
  yielded : Bool := false
  issued : Nat := 0
  placed : Nat := 0
  ports : SMap Nat := []
  popped : List (Option (List Byte) × Word) := []
  stk : DWord := 0
  stkLimit : Word := 0
  draw : Word := 0
  save : DWord := 0
  trap : TrapRegs := {}
  inTrap : Bool := false
  savedFlow : Flow := {}
  savedPos : Nat := 0
  held : List Async := []
  shIdx : Nat := 0
  shCmd : Nat := 0
  sync : Option Nat := none
  accFault : Option AccFault := none
  afterTrap : Option AccFault := none
  resuming : Bool := false
  bary : SMap Word := []
  frags : SMap FragBead := []
  know : List Known := []
  reads : List Known := []
  fencePubs : List FencePub := []
  blockedAt : Nat := 0
  insn : Option Word := none
  stamp : Nat := 0
  savedStamp : Option (Word × Nat) := none
  srHeld : List Word := []
  woken : Bool := false
  entering : Bool := false
  given : Option TlbEntry := none
  waits : Option (Nat × Nat × Bool × Nat) := none
  lastTb : Nat := 0
  deriving DecidableEq, Repr

/-! ### Braids, kernels and contexts -/

/-- The arrival state of a member at a hinge (R275). -/
inductive Arrival where
  | idle
  | pending (phase : Bool)
  | passed
  deriving DecidableEq, Repr

/-- A hinge (R275): members and arrivals as bit masks, phase, arrival states by member, and the
publications of the arrivals of this phase and of the completed one (R211). -/
structure Hinge where
  members : Nat := 0
  arrived : Nat := 0
  phase : Bool := false
  st : SMap Arrival := []
  pubs : List Known := []
  done : List Known := []
  deriving DecidableEq, Repr

/-- The states of a braid that has a record (R321); a braid that was never placed has none. -/
inductive BraidSt where
  | placed | saved | swapped | retired
  deriving DecidableEq, Repr

/-- A matrix-queue entry (R253, R272): the instruction word, its captured operands, the physical
tile it names and the follower's (R252, R258), its handle, what its issuer knew on path M, how far it has come, its place in
the order of issue, the reads that its writes come after (R212), and when it reached the rule of pins (R263), 0 before. -/
structure MEntry where
  insn : Word
  form : Nat
  sid : Nat
  bid : Nat
  ctx : Nat
  tile : Nat
  tile2 : Nat := 0
  opA : List Word
  opB : List Word
  sbaseA : DWord
  sbaseB : DWord
  slotA : DWord
  slotB : DWord
  neg : Bool
  epi : Word
  drawHi : Nat := 0
  drawSeed : Nat := 0
  handle : Word
  kdone : Nat := 0
  started : Bool := false
  cancel : Bool := false
  resumed : Bool := false
  know : List Known := []
  pubs : List Pub := []
  seq : Nat := 0
  after : List Nat := []
  atPins : Nat := 0
  stall : Option (Nat × Nat) := none
  err : Option Nat := none
  given : Option TlbEntry := none
  pinAll : Bool := false
  deriving DecidableEq, Repr

/-- A staged write or atomic of a deterministic kernel (R200, R218). -/
structure Staged where
  va : Nat
  pa : Nat
  key : Nat
  form : Nat
  bytes : List Byte
  cmp : DWord := 0
  writeId : Nat
  pubs : List Pub
  deriving DecidableEq, Repr

/-- A braid (R321): where it is placed, its window (R185), save area (R406), tiles (R252), its strands' lanes (R66), hinges (R275),
checkpoint registers and records (R272), staged writes (R218), and the quad and record of the miss for which it was swapped
out (R322). -/
structure Braid where
  kernel : Nat := 0
  index : Nat := 0
  ctx : Nat := 0
  core : Nat := 0
  st : BraidSt := .placed
  locket : Option Nat := none
  mate : Option Nat := none
  leader : Bool := false
  slot : Nat := 0
  winOff : Nat := 0
  saveVault : Nat := 0
  saveOff : Nat := 0
  tiles : List Nat := []
  lanes : List Nat := []
  hinges : SMap Hinge := []
  mcCount : Nat := 0
  mcPtr : Nat := 0
  mcEpi : Word := 0
  mcStore : SMap Word := []
  capture : Bool := false
  mpins : List Nat := []
  staged : List Staged := []
  saving : Bool := false
  swapRec : Option (Nat × Nat) := none
  deriving DecidableEq, Repr

/-- A launch record (R312, R313), and whether a field that must be zero was not. -/
structure LaunchRec where
  prog : Nat := 0
  args : DWord := 0
  signal : Nat := 0
  stk : Nat := 0
  save : Nat := 0
  vault : Nat := 0
  det : Bool := false
  prio : Bool := false
  tiles : Nat := 0
  lk : Bool := false
  nstr : Nat := 0
  wc : Nat := 0
  rc : Nat := 0
  uc : Nat := 0
  gx : Nat := 1
  gy : Nat := 1
  gz : Nat := 1
  group : Nat := 0
  entry : Word := 0
  trap : Word := 0
  resume : Word := 0
  delay : Nat := 0
  qbind : List Nat := []
  hmask : List Nat := []
  pmask : List Nat := []
  slots : List DWord := []
  mbzBad : Bool := false
  deriving DecidableEq, Repr

/-- How a kernel came to be launched, and who learns of its acceptance (R325, R338, R366). -/
inductive Origin where
  | packet (cq : Nat)
  | insn (sid : Nat)
  | chain (chain : Nat)
  | geometry (stream frame : Nat)
  | replay (chain : Nat)
  deriving DecidableEq, Repr

/-- A strand of fragments as the raster front end fills it (R369): the fragment of each bead, the barycentrics, the
preloads b0 to b4 by register × 64 + bead, and s6. -/
structure FormedStrand where
  frags : SMap FragBead := []
  bary : SMap Word := []
  regs : SMap Word := []
  s6 : Word := 0
  quads : Nat := 0
  deriving DecidableEq, Repr

/-- A braid that the raster front end has formed and that waits for placement (R369). -/
structure FormedBraid where
  index : Nat
  strands : List FormedStrand
  deriving DecidableEq, Repr

/-- A kernel (R312 to R323): its record, the seed captured at acceptance (R165), what its strands start
knowing (R211), the braids placed and released so far, the strip of a replay (R366), what its completion signal will
carry, and how the signal's write stands (R283, R446). -/
structure Kernel where
  ctx : Nat := 0
  lrec : LaunchRec := {}
  origin : Origin := .packet 0
  kind : Nat := 0
  chain : Option Nat := none
  strip : Bool := false
  seed : DWord := 0
  know : List Known := []
  ends : List Known := []
  t0 : Option Nat := none
  startLog : Nat := 0
  total : Nat := 0
  open_ : Bool := false
  placed : List Nat := []
  released : List Nat := []
  discarded : Bool := false
  formed : List FormedBraid := []
  err : Word := 0
  stripNo : Word := 0xFFFFFFFF
  stall : Option Nat := none
  lost : Bool := false
  given : Option TlbEntry := none
  deriving DecidableEq, Repr

/-- The states of a future record (R229). -/
inductive FutSt where
  | free | pending | done | failed | cancelled
  deriving DecidableEq, Repr

/-- A record of a future table (R227 to R229): generation, state, error code, the publication of its end,
the publications of earlier generations (R244), its place in the order of ends (R228), the handles a join
waits for (R245), whether a cancel is on its way (R243), the kernel that issued the
command, and what its issuer knew on the command's path (R211). -/
structure Future where
  gen : Nat := 0
  st : FutSt := .free
  err : Nat := 0
  pub : List Known := []
  past : List (Nat × List Known) := []
  order : Nat := 0
  join : Option (Word × Word) := none
  cancel : Bool := false
  kernel : Nat := 0
  know : List Known := []
  pubs : List Pub := []
  deriving DecidableEq, Repr

/-- The states of a context (R161). -/
inductive CtxSt where
  | free | active | draining | zeroing
  deriving DecidableEq, Repr

/-- A context (R156, R161, R164) with its future table (R227). The top of the seed stack comes first. -/
structure Context where
  st : CtxSt := .free
  pinQuota : Nat := 0
  spillQuota : Nat := 0
  saveQuota : Nat := 0
  bankKey : Nat := 0
  keyBase : Nat := 0
  keyCount : Nat := 0
  prio : Bool := false
  ptBase : Nat := 0
  seedInit : DWord := 0
  seeds : List DWord := []
  fork : Word := 0
  futures : SMap Future := []
  deriving DecidableEq, Repr

/-! ### Translation, vaults and the cache region -/

/-- An access that waits on a miss record: whose it is (the model's own number of its strand or engine operation), its path
and what it needs (R173, R175). -/
structure Waiting where
  who : Nat
  path : Option Path
  need : Need
  deriving DecidableEq, Repr

/-- A miss record that is in use, with the accesses that wait on it (R172, R173, R175). -/
structure MissRec where
  ctx : Nat
  vpn : Nat
  pending : Bool := false
  walker : Bool := false
  level : Nat := 0
  waiting : List Waiting := []
  deriving DecidableEq, Repr

/-- The supervisor's invalidation registers (R177); the scope, context and range of the one that runs. -/
structure InvRegs where
  busy : Bool := false
  lost : Bool := false
  scope : Nat := 0
  ctx : Nat := 0
  atVa : Nat := 0
  atCnt : Nat := 0
  va : Nat := 0
  cnt : Nat := 0
  deriving DecidableEq, Repr

/-- A resource that the zero engine works on (R163, R180): physical range, its new owner's key, whether
zero_ctl shows it, the context that leaves it, and the number from which accesses come after it. -/
structure ZeroJob where
  pa : Nat
  len : Nat
  upto : Nat := 0
  key : Nat := 0
  shown : Bool := false
  ctx : Option Nat := none
  tile : Option Nat := none
  deriving DecidableEq, Repr

/-- Translation state (R172 to R180): caches, miss records by quad × 64 + record, invalidation, keyring. -/
structure Trans where
  tlb : List TlbEntry := []
  miss : SMap MissRec := []
  inv : InvRegs := {}
  keyring : SMap Nat := []
  krIdx : Nat := 0
  krData : SMap DWord := []
  zeroPa : DWord := 0
  zeroKey : Nat := 0
  zeroOwner : Nat := 0
  zeroSize : Nat := 0
  zeroing : List ZeroJob := []
  deriving DecidableEq, Repr

/-- The region register of a vault, in units of 8 MiB (R183). -/
structure VaultMap where
  direct : Nat := 6
  window : Nat := 0
  save : Nat := 0
  ring : Nat := 0
  ref : Nat := 0
  err : Bool := false
  deriving DecidableEq, Repr

/-- A line held in a cache region (R190, R191): line number, the keyring index it is tagged with, and who
pins it (R261, R270): matrix entries by handle, and braids by MPIN. -/
structure CacheLine where
  line : Nat
  key : Nat
  pinMma : List (Nat × Word) := []
  pinBraid : List (Nat × Nat) := []
  deriving DecidableEq, Repr

/-- The vaults' region registers, cache_units, and the lines held, most recently used first (R183 to R191). -/
structure Vaults where
  maps : SMap VaultMap := []
  units : Nat := 2
  newUnits : Nat := 2
  cuBusy : Bool := false
  cuErr : Bool := false
  lines : List CacheLine := []
  deriving DecidableEq, Repr

/-! ### Results and accesses under way -/

/-- A load handed to the memory (R196): the knowledge at its issue (R209), the number of its braid's staged writes that it
reads over the view of a deterministic kernel (R200), whether its line is allocated (R197), whether the LPDDR6 read that it
waited for has come (R192), whether it met an uncorrectable error, and whether its strand has been told of it (R193, R412). -/
structure LoadOp where
  id : Nat
  sid : Nat
  bead : Nat
  dst : List RKey
  len : Nat
  pa : Nat
  va : Nat
  key : Nat
  know : List Known := []
  snap : Option Nat := none
  pc : Word := 0
  alloc : Bool := true
  served : Bool := false
  failed : Bool := false
  told : Bool := false
  deriving DecidableEq, Repr

/-- A store that a vault has not yet performed (R196, R207): writeId is its number in knowledge sets, `served` whether the
LPDDR6 read of its line has come (R192). -/
structure StoreOp where
  id : Nat
  sid : Nat
  ctx : Nat := 0
  pa : Nat
  key : Nat
  bytes : List Byte
  writeId : Nat
  pubs : List Pub
  served : Bool := false
  deriving DecidableEq, Repr

/-- An atomic on its way (R203): form by opcode, operand, compare value, the instruction's stamp, the number of its braid's
staged writes that it reads over the view of a deterministic kernel (R200), the old value once performed, the writes it
read, whether the LPDDR6 read of its line has come (R192), whether it met an uncorrectable error, and whether its strand has
been told of it (R193, R412). -/
structure AtomOp where
  id : Nat
  sid : Nat
  ctx : Nat := 0
  snap : Option Nat := none
  bead : Nat
  form : Nat
  wide : Bool
  pa : Nat
  va : Nat
  key : Nat
  b : DWord
  cmp : DWord
  dst : List RKey
  writeId : Nat
  pubs : List Pub
  pc : Word := 0
  inst : Nat := 0
  old : Option DWord := none
  seen : List Nat := []
  served : Bool := false
  failed : Bool := false
  told : Bool := false
  deriving DecidableEq, Repr

/-- A result due from the special-function queue of a lane (R136), oldest first in its list. -/
structure SfuOp where
  lane : Nat
  sid : Nat
  bead : Nat
  dst : List RKey
  val : Word
  deriving DecidableEq, Repr

/-- An LPDDR6 read for a line (R192), and whether the line is allocated when it comes. -/
structure LineFill where
  line : Nat
  key : Nat
  alloc : Bool := true
  deriving DecidableEq, Repr

/-- A pop request (R293, R294). -/
structure PopOp where
  id : Nat
  sid : Nat
  bead : Nat
  qid : Nat
  deriving DecidableEq, Repr

/-- A SPAWN at its queue's home (R302): elements offered by the active beads in order, with
the numbers of their writes, which the strand knows from issue (R208). -/
structure SpawnOp where
  id : Nat
  sid : Nat
  qid : Nat
  dst : List RKey
  elems : List (List Byte)
  ids : List Nat := []
  pubs : List Pub
  deriving DecidableEq, Repr

/-- An EMITV of a kernel that the binner has not answered (R362); one whose bead has retired fills no register;
its writes carry the publications of the strand's FENCEs (R215). -/
structure BinOp where
  id : Nat
  sid : Nat
  bead : Nat
  kernel : Nat
  dst : Option RKey
  vals : List Word
  pubs : List Pub := []
  deriving DecidableEq, Repr

/-- A texture read under way (R373): destination registers, and the physical address of each texel with its
format and the filter weights, in the order c00, c10, c01, c11; the paths of the FENCEs after it that named its own
(R212), the LPDDR6 lines that have come for it (R192), whether it met an uncorrectable error, and whether its strand has been
told of it (R193, R412). -/
structure TexOp where
  id : Nat
  sid : Nat
  bead : Nat
  dst : List RKey
  fmt : Nat
  mode : Nat
  alpha : Nat
  beta : Nat
  texels : List (Nat × Nat)
  fenced : Nat := 0
  know : List Known := []
  va : Nat := 0
  pc : Word := 0
  served : List Nat := []
  failed : Bool := false
  told : Bool := false
  deriving DecidableEq, Repr

/-- The size of a texel of a read (R371). -/
def TexOp.size (op : TexOp) : Nat := if op.fmt = 2 then 8 else 4

/-- A launch record handed over by LAUNCH (R325). -/
structure LaunchOp where
  id : Nat
  sid : Nat
  ctx : Nat
  dst : List RKey
  lrec : LaunchRec
  know : List Known
  deriving DecidableEq, Repr

/-- Everything under way that no register holds yet. -/
structure Flight where
  nextId : Nat := 0
  loads : List LoadOp := []
  stores : List StoreOp := []
  atoms : List AtomOp := []
  sfu : List SfuOp := []
  fills : List LineFill := []
  pops : List PopOp := []
  spawns : List SpawnOp := []
  bins : List BinOp := []
  texels : List TexOp := []
  launches : List LaunchOp := []
  deriving DecidableEq, Repr

/-! ### Engines -/

/-- A copy command (R234 to R240): its form and operand values, the units not yet started as ranges and those
started, the reads that its writes come after (R212), the miss record it stalls on (R174), the code with which it fails, and the
translations with which walks ended that a unit waited for, until it is done (R173). -/
structure CopyCmd where
  id : Nat
  sid : Nat
  ctx : Nat
  core : Nat
  handle : Word
  form : Nat
  dst : Nat
  src : Nat
  rowBytes : Nat
  rows : Nat
  spitch : Nat
  layout : Nat
  list : Nat
  know : List Known
  pubs : List Pub
  waiting : List (Nat × Nat)
  started : List Nat := []
  after : List Nat := []
  writes : List Known := []
  stall : Option (Nat × Nat) := none
  err : Option Nat := none
  given : List TlbEntry := []
  deriving DecidableEq, Repr

/-- A link command that its destination has not acknowledged whole (R419): its place in the order of acceptance, its flits, how
many left and how many are done, an LGET's data that have come and are not yet written, the number of the first of its local
writes, which its issuer knows from its issue (R420), and the reads that its writes come after (R212). -/
structure LinkCmd where
  ctx : Nat
  sid : Nat
  core : Nat
  handle : Word
  form : Nat
  dest : Nat
  port : Nat
  raddr : Nat
  laddr : Nat
  len : Nat
  ty : Nat
  val : DWord
  know : List Known
  pubs : List Pub
  flits : Nat
  firstId : Nat := 0
  seq : Nat := 0
  sent : Nat := 0
  acked : Nat := 0
  data : List (List Byte) := []
  after : List Nat := []
  writes : List Known := []
  stall : Option (Nat × Nat) := none
  err : Option Nat := none
  given : Option TlbEntry := none
  deriving DecidableEq, Repr

/-- An MPIN visiting its lines (R270). -/
structure PinCmd where
  bid : Nat
  ctx : Nat
  core : Nat
  handle : Word
  vas : List Nat
  stall : Option (Nat × Nat) := none
  err : Option Nat := none
  given : Option TlbEntry := none
  deriving DecidableEq, Repr

/-- The engines: copy commands, matrix queues by core, the checkpoint records by core that wait to re-enter one (R273),
accumulator words by ((core × 3 + tile) × 65,536 + element) × 2 + chain (R252), link and pin commands, and the order of
ends. -/
structure Engines where
  copies : List CopyCmd := []
  mq : SMap (List MEntry) := []
  waiting : List (Nat × MEntry) := []
  tiles : SMap Word := []
  links : List LinkCmd := []
  pins : List PinCmd := []
  ends : Nat := 0
  deriving DecidableEq, Repr

/-! ### Queues and the command processor -/

/-- The states of a queue (R290). -/
inductive QSt where
  | free | open_ | closed | drained
  deriving DecidableEq, Repr

/-- A hardware queue (R287 to R295). Elements lie in the ring and the spill ring in memory. -/
structure HwQueue where
  st : QSt := .free
  stopped : Bool := false
  lost : Bool := false
  quota : Bool := false
  err : Bool := false
  ecode : Nat := 0
  head : Nat := 0
  tail : Nat := 0
  /-- The closing token: its position, and its error code if it is an error token (R290). -/
  token : Option (Nat × Option Nat) := none
  ctx : Nat := 0
  esize : Nat := 4
  lslots : Nat := 1
  work : Bool := false
  ringPa : Nat := 0
  /-- The offset of the spill ring in its first page, and its pages by physical address and key (R289). -/
  spillOff : Nat := 0
  spillPages : List (Nat × Nat) := []
  spillMax : Nat := 0
  spilled : Nat := 0
  spillHead : Nat := 0
  deriving DecidableEq, Repr

/-- A packet that waits at the head of its queue (R286, R304, R355, R446), once it is taken. -/
inductive HeldPacket where
  | none
  | feed
  | signalWait
  | frameSubmit
  | miss (quad rec : Nat)
  | drain
  deriving DecidableEq, Repr

/-- A packet that a command queue takes: type, payload length, tag, whether the header is well formed but for its length,
and the payload (R306), with the context of its queue and whether that was the supervisor's when it was taken (R422). -/
structure Packet where
  type : Nat
  len : Nat
  user : Nat
  clean : Bool
  body : Nat
  ctx : Nat
  sup : Bool
  deriving DecidableEq, Repr

/-- A command queue (R422) with V(queue) (R211), the miss answer it met (R446), the kernels it launched, and what the
signals of those that have ended published (R224). -/
structure CmdQueue where
  en : Bool := false
  sup : Bool := false
  ctx : Nat := 0
  lsize : Nat := 0
  base : Nat := 0
  head : Nat := 0
  tail : Nat := 0
  stopped : Bool := false
  lost : Bool := false
  know : List Known := []
  held : HeldPacket := .none
  faulted : Bool := false
  kernels : List Nat := []
  ended : List Known := []
  given : Option TlbEntry := none
  packet : Option Packet := none
  got : List (Nat × Nat) := []
  deriving DecidableEq, Repr

/-- The host event ring's registers (R308), the source of the first lost event (R309), and the entries posted whose writes a
slot holds, oldest first (R385). -/
structure EvRing where
  base : Nat := 0
  en : Bool := false
  lsize : Nat := 6
  tail : Nat := 0
  head : Nat := 0
  lost : Nat := 0
  lostSrc : Nat := 0
  queued : List Nat := []
  deriving DecidableEq, Repr

/-- The command processor: command queues, the kernel id counter (R316), kernels by id. -/
structure Command where
  cqs : SMap CmdQueue := []
  nextKernel : Nat := 1
  kernels : SMap Kernel := []
  evr : EvRing := {}
  deriving DecidableEq, Repr

/-! ### Time, slots and power -/

/-- The states of the timebase (R328). -/
inductive TbSt where
  | free | locking | locked | holdover
  deriving DecidableEq, Repr

/-- The slot classes of R382. -/
inductive SlotClass where
  | refresh | calibration | retrain | sweep
  deriving DecidableEq, Repr

/-- A slot under way: class, published start and end in ns, and the controller whose housekeeping overran
once the slot stretches (R387). -/
structure Slot where
  cls : SlotClass
  start : Nat
  stop : Nat
  stretched : Option Nat := none
  deriving DecidableEq, Repr

/-- A published retrain slot: its start and the ports it names (R382, R393). -/
structure Retrain where
  start : Nat
  ports : List Nat
  deriving DecidableEq, Repr

/-- The timebase in units of 2^-16 ns, the cores' cycle counters, the PTP servo with the masters it has heard and when (R326 to
R330); the calendar: its version, the retrain slots that are published, in order, the ordinals of the next slots, the slots
under way, whether requests drain, the classes whose next slot completes abandoned housekeeping, and the refresh slots that a
step skipped (R382 to R387); and the clock steps, the quads whose supply sags or recovers, each with the time of its next step,
and the junction temperature in 1/16 °C (R390, R391, R433). -/
structure Clock where
  tb : Nat := 0
  cyc : SMap Nat := []
  st : TbSt := .free
  en : Bool := false
  stepOk : Bool := false
  port : Nat := 0
  domain : Nat := 0
  offset : Int := 0
  good : Nat := 0
  master : Option Announce := none
  masters : List (Announce × Nat) := []
  lastSync : Nat := 0
  calVersion : Word := 1
  retrains : List Retrain := []
  refreshNext : Nat := 0
  calNext : Nat := 0
  sweepNext : Nat := 0
  slots : List Slot := []
  drain : Bool := false
  owed : List SlotClass := []
  skipped : Nat := 0
  droop : SMap Nat := []
  sagging : SMap Nat := []
  recovering : SMap Nat := []
  thermal : Nat := 0
  temp : Nat := 0
  deriving DecidableEq, Repr

/-! ### Streams, chains and raster -/

/-- A stream (R331 to R333, R348): its record, its state, the predictor's values in ns × 2^16, the frames submitted, the strips (frame × N +
strip) next to be cleared for, started and read, and the line next to be sent. -/
structure Stream where
  active : Bool := false
  stopping : Bool := false
  tOrigin : Nat := 0
  lineP : Nat := 0
  vTotal : Nat := 0
  vStart : Nat := 0
  outW : Nat := 0
  outH : Nat := 0
  rendW : Nat := 0
  rendH : Nat := 0
  cInit : Nat := 0
  eInit : Nat := 0
  fill : Nat := 0
  ring : Nat := 0
  outIdx : Nat := 0
  outKind : Nat := 0
  up : Nat := 0
  sh : Nat := 0
  lead : Nat := 1
  halo : Nat := 0
  floor : Nat := 0
  ctx : Nat := 0
  firstFrame : Nat := 0
  submitted : List Nat := []
  cost : List Nat := []
  eUp : Nat := 0
  nextClear : Nat := 0
  nextStart : Nat := 0
  nextRead : Nat := 0
  nextLine : Nat := 0
  deriving DecidableEq, Repr

/-- A kernel of a chain table: its record and its entry word (R354). -/
structure ChainKernel where
  lrec : LaunchRec
  kind : Nat
  blend : Bool
  zearly : Bool
  zw : Bool
  zf : Nat
  deriving DecidableEq, Repr

/-- A frame submitted for a stream (R354, R355), with what its queue knew (R211), and the end of the geometry
kernel (R356). -/
structure Frame where
  stream : Nat
  frame : Nat
  kernels : List ChainKernel
  geom : Option LaunchRec
  know : List Known := []
  geomDone : Bool := false
  geomKnow : List Known := []
  deriving DecidableEq, Repr

/-- The states of a chain (R340). -/
inductive ChainSt where
  | waiting | clearing | running | done | missed
  deriving DecidableEq, Repr

/-- A triangle as the front end takes it: the 12 inputs, p and attr (R361, R363). -/
abbrev Tri := List Word

/-- A replay under way (R366): the least p it takes, the triangles kept so far, whether one was refused or displaced, and
the kernel that runs. -/
structure Replay where
  pLo : Nat := 0
  kept : List Tri := []
  refused : Bool := false
  kernel : Option Nat := none
  deriving DecidableEq, Repr

/-- The front end at work for a chain's kernel (R364 to R369): the triangles left, the first being rasterised; the row and
column of its next quad; the parts of it already formed, as (rows below, rows below with columns below); the strands of
the braid under formation; and whether the kernel's quads have run out. -/
structure Front where
  todo : List Tri := []
  y : Nat := 0
  x : Nat := 0
  begun : Bool := false
  rung : Nat := 0
  done : List (Nat × Nat × Nat) := []
  strands : List FormedStrand := []
  filling : FormedStrand := {}
  nextBraid : Nat := 0
  replay : Option Replay := none
  deriving DecidableEq, Repr

/-- A strip chain (R338 to R353): stream, frame, strip; state, rung, the time of admission; the kernel of the chain table
that comes next or runs; whether its part before the upscale stage is over; the predictor's data (R348, R349); the front
end; the quads formed and checked; the time at which R413 retires what is left; the cores kept clear (R343); the lines
that were not ready when the output took the strip's marks, once it has (R352, R353); and its stream and its
frame as they were, once a later SET has replaced them (R337). -/
structure Chain where
  stream : Nat
  frame : Nat
  strip : Nat
  st : ChainSt := .waiting
  rung : Nat := 0
  admitted : Nat := 0
  stage : Nat := 0
  kernel : Option Nat := none
  preDone : Bool := false
  know : List Known := []
  preKnow : List Known := []
  tPrev : Nat := 0
  fullQuads : Nat := 0
  checkpoints : Nat := 0
  stalled : Nat := 0
  started : Nat := 0
  front : Front := {}
  order : Nat := 0
  formed : Nat := 0
  cutAt : Option Nat := none
  cores : List Nat := []
  unready : Option Nat := none
  oldStream : Option Stream := none
  oldFrame : Option Frame := none
  deriving DecidableEq, Repr

/-- The binner's state of one strip list (R363): its entries in number, and whether a replay marker closes it. -/
structure BinList where
  count : Nat := 0
  closed : Bool := false
  deriving DecidableEq, Repr

/-- A fragment that blend holds (R375, R377): its bead's block and colour; a discard has none. Its writes are its strand's and
carry the publications of that strand's FENCEs (R208, R215). -/
structure Fragment where
  chain : Nat
  kernel : Nat
  bead : FragBead
  color : Option (List Word)
  zOver : Option Word := none
  sid : Nat := 0
  pubs : List Pub := []
  deriving DecidableEq, Repr

/-- A line that left through a serialiser (R352, R379): port, frame, line, filled, pixel words. -/
structure SentLine where
  port : Nat
  frame : Nat
  line : Nat
  filled : Bool
  pixels : List Word
  deriving DecidableEq, Repr

/-- A coded strip of an encoder session (R380). -/
structure CodedStrip where
  session : Nat
  frame : Nat
  strip : Nat
  skip : Bool
  data : List Byte
  deriving DecidableEq, Repr

/-- An encoder session: the words that each strip's reconstruction takes in the reference store, for the frame under coding,
LAST and GOLDEN, with the frames that LAST and GOLDEN are (R182, R380; log 110); the pixel words taken for the strip under
coding and the lines among them that were ready (R352); the frames coded, and the bytes put into the bitstream ring
(log 111). -/
structure Encoder where
  next : SMap Nat := []
  last : SMap Nat := []
  golden : SMap Nat := []
  lastAt : Nat := 0
  goldenAt : Nat := 0
  row : List Word := []
  rowReady : Nat := 0
  frames : Nat := 0
  written : Nat := 0
  deriving DecidableEq, Repr

/-- A loopback frame under capture (R381): lines of which a word was lost, and the writes made. -/
structure Capture where
  stream : Nat
  frame : Nat
  lost : List Nat := []
  writes : List Nat := []
  deriving DecidableEq, Repr

/-- A write of a loopback capture that a slot holds (R381, R385): address, key and bytes, and its number; or the signal after
a frame's last line, with the writes that it releases. -/
structure LateWrite where
  id : Nat := 0
  pa : Nat
  key : Nat
  bytes : List Byte := []
  signal : Option (List Known) := none
  deriving DecidableEq, Repr

/-- Streams, frames, chains, bins, blend and outputs (R331 to R381). -/
structure Strips where
  streams : SMap Stream := []
  frames : List Frame := []
  chains : SMap Chain := []
  bins : SMap BinList := []
  recCount : SMap Nat := []
  marks : List (Nat × Nat) := []
  frags : SMap Fragment := []
  nextFrag : Nat := 0
  sent : List SentLine := []
  coded : List CodedStrip := []
  captures : List Capture := []
  encoders : SMap Encoder := []
  readMarks : SMap (List Nat) := []
  late : List LateWrite := []
  deriving DecidableEq, Repr

/-! ### Links, host and keeper -/

/-- The states of a link (R415). -/
inductive LinkSt where
  | down | training | up | retrainPending | failed
  deriving DecidableEq, Repr

/-- A link port (R415, R421). -/
structure Link where
  en : Bool := false
  thr : Nat := 0
  st : LinkSt := .down
  fails : Nat := 0
  deriving DecidableEq, Repr

/-- A flit that arrived and whose access has not performed: the count of the newest token from its source that it must
wait for (R222), the miss record its access waits on, and the code with which it fails (R419). -/
structure FlitWait where
  flit : Flit
  after : Option Nat := none
  stall : Option (Nat × Nat) := none
  err : Option Nat := none
  given : Option TlbEntry := none
  deriving DecidableEq, Repr

/-- What an endpoint sends to a device: a flit (R414), a fence token with its count (R221), an answer (R419), or the LSIG SET of
a watched signal (R424). -/
inductive LinkMsg where
  | flit (f : Flit)
  | token (count : Nat)
  | reply (a : Ack)
  | signal (addr : Nat) (v : DWord)
  deriving DecidableEq, Repr

/-- A message that waits for its link, or, a token, for the stores accepted before it: `seq` is its place among the link
commands (R222, R386, R420). The count of a token is fixed as it leaves. -/
structure HeldMsg where
  seq : Nat
  dest : Nat
  msg : LinkMsg
  deriving DecidableEq, Repr

/-- The fabric: ports; counts of stores sent and performed by device (R221, R222); the tokens of each source whose count has not
been reached, and the count of its newest; flits that wait and, by source, the writes performed, with the numbers that the
source gave those that it named (R211), as source, its number and this device's; what left, oldest first, and what is held. -/
structure Fabric where
  ports : SMap Link := []
  sent : SMap Nat := []
  performed : SMap Nat := []
  tokens : SMap Nat := []
  open_ : List (Nat × Nat) := []
  arrived : List FlitWait := []
  wrote : SMap (List Nat) := []
  tags : List (Nat × Nat × Nat) := []
  out : List (Nat × LinkMsg) := []
  held : List HeldMsg := []
  deriving DecidableEq, Repr

/-- A measurement-log entry (R428): step, digest, version. -/
structure Measure where
  step : Nat
  digest : List Byte
  version : Word
  deriving DecidableEq, Repr

/-- An attestation report (R428): log, ROM digest, nonce, time of signing, signature. -/
structure Report where
  log : List Measure
  rom : List Byte
  nonce : List Byte
  time : Nat
  sig : List Byte
  deriving DecidableEq, Repr

/-- What the keeper reports over the management port (R427, R428, R433). -/
inductive MgmtMsg where
  | bootFailed (step : Nat)
  | overTemperature
  | report (r : Report)
  deriving DecidableEq, Repr

/-- A keeper command under way (R432). -/
inductive KeeperCmd where
  | read (idx : Nat)
  | attest (addr : Nat)
  deriving DecidableEq, Repr

/-- The keeper (R426 to R433): parts released, failed step, whether a thermal shutdown holds the parts, flash images, log,
management port, heartbeat; the time of detection of a recovery, as RECOVERED gives it, and the moment from which it is measured;
kernels that ended during it; lifetime counters and the keeper window. -/
structure Keeper where
  released : Nat := 0
  failed : Option Nat := none
  held : Bool := false
  images : SMap Firmware := []
  log : List Measure := []
  mgmt : List MgmtMsg := []
  lastBeat : Nat := 0
  recovering : Option Nat := none
  recoverAt : Nat := 0
  due : List Nat := []
  counters : SMap Nat := []
  busy : Option KeeperCmd := none
  err : Bool := false
  data : DWord := 0
  deriving DecidableEq, Repr

/-- The application cores: interrupts of watched signals (R424), the bytes of their last read (R421), the writes they
made (R422), and the writes released at system scope, theirs among them (R225). -/
structure HostSide where
  irqs : List Nat := []
  lastRead : List Byte := []
  wrote : List Nat := []
  seen : List Nat := []
  deriving DecidableEq, Repr

/-! ### The whole machine -/

/-- The state of the FX-960. `inputs`, `arg`, `choice` and `cur` are the model's own fields: the happenings of
the outside still to come, the operand of the happening that takes place, the counter of the free values, and
the strand that issues. `sreg` holds the supervisor registers without behaviour of their own, by offset. -/
structure State where
  mem : Memory := {}
  strands : SMap Strand := []
  nextSid : Nat := 0
  braids : SMap Braid := []
  nextBid : Nat := 0
  ctxs : SMap Context := []
  trans : Trans := {}
  vaults : Vaults := {}
  flight : Flight := {}
  eng : Engines := {}
  queues : SMap HwQueue := []
  cmd : Command := {}
  clk : Clock := {}
  strips : Strips := {}
  fab : Fabric := {}
  keep : Keeper := {}
  host : HostSide := {}
  sreg : SMap DWord := []
  inputs : List Happening := []
  arg : Arg := .none
  choice : Nat := 0
  cur : Nat := 0
  deriving DecidableEq, Repr

/-- Why the model stops. -/
inductive Fault where
  /-- Raised by every meaning of an instruction word when no strand issues (`cur` names none). Safe: the
  hardware executes no instruction without a strand, so no step of it is claimed. -/
  | noStrand
  /-- Raised by HOST_MEMORY_ACCESS for a physical address that names no memory and no register (R167, R421).
  Safe: the manual gives such an access no effect. -/
  | noSuchAddress (pa : Nat)
  deriving DecidableEq, Repr

/-- Why the model gives an instruction no meaning. -/
inductive Refusal where
  /-- Raised by an arm of exec whose instruction has no meaning in the model yet. Safe: nothing is claimed. -/
  | notModelled (mnemonic : String)
  deriving DecidableEq, Repr

/-- The machine right after reset: the keeper has released nothing yet (R426), every register holds its
reset value, and no strand exists. swap_thr (offset 0x10) resets to 20 (R421). -/
def State.reset : State := { sreg := [(0x10, 20)] }

end Sys2Proof.Machine
end

