-- ==== Sys2Proof/Machine/Map.lean ====
section
/-!
DEFINITION. The tables of the state: reading, writing and removing the entry of a number.
-/

namespace Sys2Proof.Machine
open Sys2Proof

/-- The entry of key `k`. -/
def look {α : Type} : SMap α → Nat → Option α
  | [], _ => none
  | (k', v) :: t, k => if k = k' then some v else look t k

/-- The entry of key `k`, or `d` when none is listed. -/
def lookD {α : Type} (m : SMap α) (k : Nat) (d : α) : α := (look m k).getD d

/-- The table with entry `v` at key `k`, keys kept rising. -/
def put {α : Type} : SMap α → Nat → α → SMap α
  | [], k, v => [(k, v)]
  | (k', v') :: t, k, v =>
    if k < k' then (k, v) :: (k', v') :: t
    else if k = k' then (k, v) :: t
    else (k', v') :: put t k v

/-- The table without the entry of key `k`. -/
def del {α : Type} : SMap α → Nat → SMap α
  | [], _ => []
  | (k', v') :: t, k => if k = k' then del t k else (k', v') :: del t k

/-- `put` for a table in which an unlisted key holds `d`: writing `d` removes the entry. -/
def putD {α : Type} [DecidableEq α] (d : α) (m : SMap α) (k : Nat) (v : α) : SMap α :=
  if v = d then del m k else put m k v

/-- The table with the entry of key `k` changed by `f`, if one is listed. -/
def upd {α : Type} (m : SMap α) (k : Nat) (f : α → α) : SMap α :=
  match look m k with
  | some v => put m k (f v)
  | none => m

/-- Keys strictly rising, all above `lo` (the keys' lower bound, exclusive). -/
def risingFrom {α : Type} : Nat → SMap α → Bool
  | _, [] => true
  | lo, (k, _) :: t => decide (lo ≤ k) && risingFrom (k + 1) t

/-- The canonical form of a table whose unlisted keys hold `d`: keys strictly rising, no entry equal to `d`. -/
def canonical {α : Type} [DecidableEq α] (d : α) (m : SMap α) : Bool :=
  risingFrom 0 m && m.all (fun e => decide (e.2 ≠ d))

/-- Memory is in canonical form: rising addresses, and no byte equal to the 0 that an unlisted address reads as. -/
def Memory.wf (m : Memory) : Bool := canonical (0 : Byte) m.bytes

/-- The first element that meets a test, with the others in order. -/
def takeFirst {α : Type} (p : α → Bool) : List α → Option (α × List α)
  | [] => none
  | x :: t => if p x then some (x, t) else (takeFirst p t).map fun (y, r) => (y, x :: r)

/-- The list with every element that meets a test replaced by its image. -/
def mapWhere {α : Type} (p : α → Bool) (f : α → α) (l : List α) : List α :=
  l.map fun x => if p x then f x else x

/-- Element `i` of a list of numbers, 0 beyond its end. -/
def nth (l : List Word) (i : Nat) : Word := l.getD i 0

end Sys2Proof.Machine
end

