-- ==== Sys2Proof/Machine/Mem.lean ====
section
/-!
DEFINITION. Physical memory: homes and regions (R167, R182, R190), the cache region and encryption (R179, R191),
the coherence order and what a read may return (R207 to R209), zeroing (R163), and the host event ring (R308).
-/

namespace Sys2Proof.Machine
open Sys2Proof

/-! ### Free values and time -/

/-- The next free value, and the state with the counter advanced (log 1). -/
def drawFree (s : State) : Nat × State := (Config.free s.choice, { s with choice := s.choice + 1 })

/-- A free bit for each number below n, and the state with the counter advanced past them (log 1). -/
def drawBits (s : State) (n : Nat) : (Nat → Bool) × State :=
  (fun k => Config.free (s.choice + k) % 2 = 1, { s with choice := s.choice + n })

/-- The timebase in whole nanoseconds (R326). -/
def nowNs (s : State) : Nat := s.clk.tb / 2 ^ 16

/-! ### Physical addresses -/

/-- The first vault frame (R167). -/
def vaultBase : Nat := 0x80000000000

/-- The physical address of offset o of vault v (R167). -/
def vaultPa (v o : Nat) : Nat := vaultBase + v * 2 ^ 26 + o

/-- Whether a physical address lies in a vault. -/
def isVault (pa : Nat) : Bool := decide (vaultBase ≤ pa) && decide (pa < vaultBase + 48 * 2 ^ 26)

/-- Whether a physical address lies in LPDDR6. -/
def isLpddr (pa : Nat) : Bool := decide (pa < 2 ^ 40)

/-- The home vault of R190 of an LPDDR6 line. -/
def homeOfLine (n : Nat) : Nat := (n ^^^ n / 2 ^ 13 ^^^ n / 2 ^ 26) % 48

/-- The home of a physical address (R207). -/
def homeVault (pa : Nat) : Nat := if isVault pa then (pa - vaultBase) / 2 ^ 26 else homeOfLine (pa / 128)

/-- The region register of a vault (R183). -/
def vaultMap (s : State) (v : Nat) : VaultMap := lookD s.vaults.maps v {}

/-- The regions of a vault from offset 0 upward, as (start, length) in bytes (R182). -/
def windowArea (m : VaultMap) : Nat × Nat := ((m.direct - m.window) * 2 ^ 23, m.window * 2 ^ 23)
/-- The save pool. -/
def saveArea (m : VaultMap) : Nat × Nat := (m.direct * 2 ^ 23, m.save * 2 ^ 23)
/-- The ring store. -/
def ringArea (m : VaultMap) : Nat × Nat := ((m.direct + m.save) * 2 ^ 23, m.ring * 2 ^ 23)
/-- The reference store. -/
def refArea (m : VaultMap) : Nat × Nat := ((m.direct + m.save + m.ring) * 2 ^ 23, m.ref * 2 ^ 23)

/-- Rot6 of R188. -/
def rot6 (x n : Nat) : Nat := (x * 2 ^ n ||| x / 2 ^ (6 - n)) % 64

/-- Bank(L, k) of R188. -/
def bank (l k : Nat) : Nat :=
  bits l 5 0 ^^^ rot6 (bits l 11 6) (bits k 2 0 % 6) ^^^ rot6 (bits l 17 12) (bits k 5 3 % 6) ^^^
    (if bit l 18 then bits k 11 6 else 0) ^^^ bits k 15 12

/-- The bank of a vault address that a context owns: under the context's bank key in the page area and the window area, and
under key 0 in the save pool, the ring store, the reference store and the cache region (R188). What two accesses to one bank
cost is time (log 2). -/
def bankOf (s : State) (owner pa : Nat) : Nat :=
  let o := pa % 2 ^ 26
  let direct := (lookD s.vaults.maps ((pa - vaultBase) / 2 ^ 26) {}).direct * 2 ^ 23
  bank (o / 128) (if o < direct then (lookD s.ctxs owner {}).bankKey else 0)

/-- The lines of a byte range, by number. -/
def linesOf (pa n : Nat) : List Nat := (List.range ((pa + n - 1) / 128 + 1 - pa / 128)).map (· + pa / 128)

/-! ### Bytes -/

/-- The newest value of a byte; an address that nothing has written reads 0 (log 6). -/
def Memory.byteAt (m : Memory) (a : Nat) : Byte := lookD m.bytes a 0

/-- n bytes from address a, as they stand. -/
def Memory.read (m : Memory) (a n : Nat) : List Byte := (List.range n).map fun i => m.byteAt (a + i)

/-- Bytes laid down from address a. -/
def poke : SMap Byte → Nat → List Byte → SMap Byte
  | m, _, [] => m
  | m, a, b :: t => poke (putD 0 m a b) (a + 1) t

/-- Memory with bytes laid down and no entry in the order of writes: what no write of the manual does (a line
that changes its key, R179). -/
def Memory.lay (m : Memory) (a : Nat) (bs : List Byte) : Memory := { m with bytes := poke m.bytes a bs }

/-- The words that no write of n bytes at an address touches. -/
def wordsOff (ws : List Nat) (pa n : Nat) : List Nat := ws.filter fun w => decide (w < pa / 8) || decide (w > (pa + n - 1) / 8)

/-- A write performed (R207): it becomes the newest in the coherence order of its bytes, and removes an error of
the words it touches (R193; log 102). -/
def Memory.perform (m : Memory) (id pa : Nat) (bs : List Byte) (path : Option Path) (pubs : List Pub) : Memory :=
  { m with
    bytes := poke m.bytes pa bs
    log := { id := id, pa := pa, old := m.read pa bs.length, new := bs, path := path, pubs := pubs } :: m.log
    ecc := wordsOff m.ecc pa bs.length, flips := wordsOff m.flips pa bs.length }

/-- The length of the order of writes that no read of byte x goes behind: its last zeroing or change of key (R163,
R179). -/
def Memory.floorAt (m : Memory) (x : Nat) : Nat :=
  match m.floors.find? fun f => decide (f.pa ≤ x) && decide (x < f.pa + f.len) with
  | some f => f.at_
  | none => 0

/-- A fresh write number. -/
def newWrite (s : State) : Nat × State :=
  (s.mem.nextWrite, { s with mem := { s.mem with nextWrite := s.mem.nextWrite + 1 } })

/-- Fresh write numbers. -/
def newWrites : Nat → State → List Nat × State
  | 0, s => ([], s)
  | n + 1, s =>
    let (ids, s) := newWrites n s
    let (id, s) := newWrite s
    (ids ++ [id], s)

/-- The writes to byte x that a read may return, newest first, with their numbers; the walk ends at the first
write that is known (R209), and where the order had length `floor`. -/
def versions (known : Nat → Bool) (x floor : Nat) : List Write → Byte → List (Byte × Option Nat)
  | [], cur => [(cur, none)]
  | w :: t, cur =>
    if t.length < floor then [(cur, none)]
    else if w.pa ≤ x ∧ x < w.pa + w.new.length then
      (cur, some w.id) :: (if known w.id then [] else versions known x floor t (byteN w.old (x - w.pa)))
    else versions known x floor t cur

/-- The value of byte x when the order of writes had length n (R200). -/
def byteAsOf (x : Nat) : List Write → Nat → Byte → Byte
  | [], _, cur => cur
  | w :: t, n, cur =>
    if t.length < n then cur
    else byteAsOf x t n (if w.pa ≤ x ∧ x < w.pa + w.new.length then byteN w.old (x - w.pa) else cur)

/-- Byte x as it stood when the order of writes had length `len`, or after its last zeroing or change of key. -/
def Memory.byteAsOf (m : Memory) (len x : Nat) : Byte := Machine.byteAsOf x m.log (max len (m.floorAt x)) (m.byteAt x)

/-- n bytes as they stood when the order of writes had length `len`. -/
def Memory.readAsOf (m : Memory) (len a n : Nat) : List Byte := (List.range n).map fun i => m.byteAsOf len (a + i)

/-- The set of bytes read, and the writes returned. -/
structure ReadBack where
  bytes : List Byte
  writes : List Nat
  deriving DecidableEq, Repr

/-- A read of n bytes on path q by a party with knowledge `know`: each byte returns one of the writes that R209
allows; where several are allowed, a free value picks (log 7). -/
def readKnown (s : State) (know : List Known) (q : Path) (pa : Nat) : Nat → ReadBack × State
  | 0 => (⟨[], []⟩, s)
  | n + 1 =>
    let known := fun id => know.any fun k => k.1 == id && k.2 == q
    let vs := versions known pa (s.mem.floorAt pa) s.mem.log (s.mem.byteAt pa)
    let (i, s) := if vs.length ≤ 1 then (0, s) else drawFree s
    let (b, w) := vs.getD (i % vs.length) (s.mem.byteAt pa, none)
    let (r, s) := readKnown s know q (pa + 1) n
    (⟨b :: r.bytes, match w with | some id => if r.writes.contains id then r.writes else id :: r.writes | none => r.writes⟩, s)

/-- Whether a range touches a word that holds an uncorrectable error (R193). -/
def eccHit (s : State) (pa n : Nat) : Bool :=
  s.mem.ecc.any fun w => decide (pa / 8 ≤ w) && decide (w ≤ (pa + n - 1) / 8)

/-! ### The cache region and encryption -/

/-- The key pair of a keyring entry (R179). -/
def keyPair (s : State) (key : Nat) : Nat := lookD s.trans.keyring key 0

/-- Whether no write has touched a line since the order of writes had a length. -/
def Memory.untouched (m : Memory) (line at_ : Nat) : Bool :=
  !(m.log.take (m.log.length - at_)).any fun w => decide (w.pa < line * 128 + 128) && decide (line * 128 < w.pa + w.new.length)

/-- What no read goes behind, once a line has gone from one key pair to another. Where the line goes back to the pair under
which it was before, and no write has touched it since, it stands as it did. -/
def Memory.turned (m : Memory) (line old new : Nat) : List Floor :=
  match m.floors.find? fun f => decide (f.pa < line * 128 + 128) && decide (line * 128 < f.pa + f.len) with
  | some f =>
    if f.pa = line * 128 ∧ f.len = 128 ∧ f.pair = some (new, old) ∧ m.untouched line f.at_ then
      m.floors.erase f
    else { pa := line * 128, len := 128, at_ := m.log.length, pair := some (old, new) } :: m.floors
  | none => { pa := line * 128, len := 128, at_ := m.log.length, pair := some (old, new) } :: m.floors

/-- The key pair that a line of LPDDR6 is encrypted under: its own, or that of the newest zeroing of a range that holds it
(R179, R180). -/
def Memory.pairOf (m : Memory) (line : Nat) : Option Nat :=
  (look m.lineKey line).orElse fun _ =>
    (m.keyed.find? fun e => decide (e.1 ≤ line) && decide (line < e.1 + e.2.1)).map (·.2.2)

/-- The line's plaintext as key `key` shows it: a line under another key pair comes back as the decryption of
that pair's ciphertext (R179). A line that was never under a key takes any without change (log 6). -/
def decryptAs (s : State) (line key : Nat) : State :=
  let k := keyPair s key
  match s.mem.pairOf line with
  | none => { s with mem := { s.mem with lineKey := put s.mem.lineKey line k } }
  | some t =>
    if t = k then s
    else
      let d := xtsLine false k line (xtsLine true t line (s.mem.read (line * 128) 128))
      { s with mem := { s.mem.lay (line * 128) d with
        lineKey := put s.mem.lineKey line k, floors := s.mem.turned line t k } }

/-- The sets of a vault's cache region (R190). -/
def cacheSets (s : State) : Nat := s.vaults.units * 2 ^ 23 / (128 * 16)

/-- Whether two lines fall in one set of one vault (R190). -/
def sameSet (s : State) (a b : Nat) : Bool :=
  homeOfLine a == homeOfLine b && a / 48 % cacheSets s == b / 48 % cacheSets s

/-- Whether a line is pinned (R261, R270). -/
def CacheLine.pinned (l : CacheLine) : Bool := !l.pinMma.isEmpty || !l.pinBraid.isEmpty

/-- The state with the cache region's lines replaced. -/
def setLines (s : State) (ls : List CacheLine) : State := { s with vaults := { s.vaults with lines := ls } }

/-- A line enters the cache region as the most recently used; the least recently used unpinned way of a full set
leaves (R191). With no cache region, or while it changes size (R184), no line enters. A line that leaves is written back under
the key pair under which it was fetched, which `lineKey` holds already (R179; log 40). -/
def insertLine (s : State) (l : CacheLine) : State :=
  if s.vaults.units = 0 ∨ s.vaults.cuBusy then s
  else
    let ways := s.vaults.lines.filter fun x => sameSet s x.line l.line
    let victim := if ways.length < 16 then none else (ways.filter fun x => !x.pinned).getLast?
    match victim with
    | none => setLines s (l :: s.vaults.lines)
    | some v => setLines s (l :: s.vaults.lines.filter fun x => x.line != v.line)

/-- The line held for a number, if any. -/
def heldLine (s : State) (line : Nat) : Option CacheLine := s.vaults.lines.find? fun l => l.line == line

/-- A line made readable under a key: from the cache region, or fetched from LPDDR6 and allocated unless
`alloc` is clear (R179, R191, R197). -/
def openLine (s : State) (line key : Nat) (alloc : Bool) : State :=
  match heldLine s line with
  | some l =>
    let rest := s.vaults.lines.filter fun x => x.line != line
    if l.key = key then setLines s (l :: rest)
    else insertLine (decryptAs (setLines s rest) line key) { l with key := key }
  | none =>
    let s := decryptAs s line key
    if alloc then insertLine s { line := line, key := key } else s

/-- The lifetime counter of a vault word's corrections (R431); those of a cached LPDDR6 word count in its home's first row
group (log 102). -/
def eccCounter (w : Nat) : Nat :=
  if isVault (8 * w) then 128 * ((8 * w - vaultBase) / 2 ^ 26) + (8 * w - vaultBase) % 2 ^ 26 / 2 ^ 19
  else 128 * homeVault (8 * w)

/-- Single-bit errors of the words of a range corrected, and counted for the keeper (R193). -/
def Memory.correct (m : Memory) (pa n : Nat) : Memory :=
  match m.flips with
  | [] => m
  | ws =>
    let hit := ws.filter fun w => decide (pa / 8 ≤ w) && decide (w ≤ (pa + n - 1) / 8)
    { m with
      flips := wordsOff ws pa n
      corrected := hit.foldl (fun c w => put c (eccCounter w) (min (lookD c (eccCounter w) 0 + 1) (2 ^ 64 - 1))) m.corrected }

/-- Every LPDDR6 line of a range under a key (R179, R191). -/
def openRange (s : State) (pa n key : Nat) (alloc : Bool) : State :=
  if isLpddr pa then (linesOf pa n).foldl (fun s l => openLine s l key alloc) s else s

/-- A range made readable under a key: its single-bit errors are corrected and counted (R193). -/
def openRead (s : State) (pa n key : Nat) (alloc : Bool) : State :=
  openRange { s with mem := s.mem.correct pa n } pa n key alloc

/-- The newest bytes of a range, read at its home under a key. -/
def readNow (s : State) (pa key n : Nat) : List Byte × State :=
  let s := openRead s pa n key true
  (s.mem.read pa n, s)

/-- Writes released at system scope (R225). -/
def releaseSystem (s : State) (ids : List Nat) : State :=
  { s with host := { s.host with seen := ids.foldl (fun l x => if l.contains x then l else x :: l) s.host.seen } }

/-- Whether a slot, or a change of the cache region's size, holds the requests that would reach LPDDR6 (R184, R385). -/
def lpddrHeld (s : State) : Bool :=
  s.vaults.cuBusy || s.clk.drain || s.clk.slots.any fun x => x.cls == .refresh || x.cls == .calibration

/-- Whether an access to a range would reach LPDDR6 while a slot, or a change of the cache region's size, holds it (R184,
R385). -/
def heldBySlot (s : State) (pa n : Nat) : Bool :=
  lpddrHeld s && isLpddr pa && (linesOf pa n).any fun l => (heldLine s l).isNone

/-- Offset of slot 0, period and duration of a class, in ns (R382). -/
def SlotClass.times : SlotClass → Nat × Nat × Nat
  | .refresh => (0, 15625, 1250)
  | .calibration => (250000, 1000000, 8000)
  | .retrain => (750000, 64000000, 30000)
  | .sweep => (62500, 125000, 250)

/-- The start of slot n of a class. -/
def SlotClass.startOf (c : SlotClass) (n : Nat) : Nat := c.times.1 + n * c.times.2.1

/-- The start of the next refresh or calibration slot. -/
def nextHold (s : State) : Nat :=
  min (SlotClass.refresh.startOf s.clk.refreshNext) (SlotClass.calibration.startOf s.clk.calNext)

/-- Whether a unit of n lines may start, of the copy engine or of the overflow engine: its predicted time ends 150 ns before
the next slot, and no slot holds it (R240, R295, R385); times are in thirds of the timebase's unit. -/
def unitFits (s : State) (n : Nat) : Bool :=
  n == 0 || (!lpddrHeld s && decide (3 * s.clk.tb + (360 + 5 * n) * 2 ^ 16 ≤ 3 * (nextHold s - 150) * 2 ^ 16))

/-- The length of the order of writes below the newest write to a range that has been released at system scope, and
whether a newer one touches it. -/
def systemFloor (seen : List Nat) (pa n : Nat) : List Write → Bool → Nat × Bool
  | [], newer => (0, newer)
  | w :: t, newer =>
    if w.pa < pa + n ∧ pa < w.pa + w.new.length then
      if seen.contains w.id then (t.length + 1, newer) else systemFloor seen pa n t true
    else systemFloor seen pa n t newer

/-- A read by a page-table walk or an application core: what the range held at some moment since the newest write to it
that was released at system scope (R225); a free value picks the moment (log 7). -/
def readSystem (s : State) (pa key n : Nat) : List Byte × State :=
  let s := openRead s pa n key true
  match systemFloor s.host.seen pa n s.mem.log false with
  | (_, false) => (s.mem.read pa n, s)
  | (floor, true) =>
    let (f, s) := drawFree s
    (s.mem.readAsOf (floor + f % (s.mem.log.length - floor + 1)) pa n, s)

/-- A supervisor register by offset (R421). -/
def sregOf (s : State) (off : Nat) : DWord := lookD s.sreg off 0

/-- Whether a core is in the strip reserve pool (R341). -/
def inPool (s : State) (core : Nat) : Bool := (sregOf s 0x18).getLsbD (core / 4)

/-- The port toward a device, if its route is valid (R414, R421). -/
def routeOf (s : State) (dev : Nat) : Option Nat :=
  let r := (sregOf s (0x1E000 + 8 * dev)).toNat
  if bit r 3 then some (bits r 2 0) else none

/-- The state of a port (R415). -/
def linkSt (s : State) (port : Nat) : LinkSt := (lookD s.fab.ports port {}).st

/-- The state of the link to a device; down, where it has no route. -/
def stateTo (s : State) (dev : Nat) : LinkSt :=
  match routeOf s dev with
  | some p => linkSt s p
  | none => .down

/-- Whether a device is reached over a link in state up (R206). -/
def deviceUp (s : State) (dev : Nat) : Bool := stateTo s dev == .up

/-- Whether a link command sends stores or LRADD operations that its endpoint has not sent yet (R221, R420). -/
def LinkCmd.unsent (c : LinkCmd) : Bool := (c.form == 0 || c.form == 2) && c.err.isNone && decide (c.sent < c.flits)

/-- A message that leaves; a token takes the count of its destination (R221). -/
def sendMsg (s : State) (h : HeldMsg) : State :=
  let m := match h.msg with | .token _ => .token (lookD s.fab.sent h.dest 0) | m => m
  { s with fab := { s.fab with out := s.fab.out ++ [(h.dest, m)] } }

/-- Whether a held message may leave, behind those that stay: its link is up, and a token follows the stores of every command
accepted before it, and tokens and signals one another (R222, R386, R420). -/
def mayLeave (s : State) (stay : List HeldMsg) (h : HeldMsg) : Bool :=
  deviceUp s h.dest &&
    match h.msg with
    | .reply _ | .flit _ => true
    | .signal _ _ => stay.all fun x => x.dest != h.dest || (x.msg matches .reply _)
    | .token _ =>
      (stay.all fun x => x.dest != h.dest || (x.msg matches .reply _)) &&
        s.eng.links.all fun c => c.dest != h.dest || decide (c.seq ≥ h.seq) || !c.unsent

/-- Every held message that may leave does, in order. -/
def flowOut (s : State) : State :=
  let r := s.fab.held.foldl (fun (acc : List HeldMsg × State) h =>
    if mayLeave acc.2 acc.1 h then (acc.1, sendMsg acc.2 h) else (acc.1 ++ [h], acc.2)) ([], s)
  { r.2 with fab := { r.2.fab with held := r.1 } }

/-- A message for a device: it waits while the link is down to train, and is lost where there is none (R222, R386, R416). -/
def holdMsg (s : State) (dest : Nat) (m : LinkMsg) : State :=
  match stateTo s dest with
  | .down | .failed => s
  | .up | .training | .retrainPending =>
    { s with
      fab := { s.fab with held := s.fab.held ++ [{ seq := s.flight.nextId, dest := dest, msg := m }] }
      flight := { s.flight with nextId := s.flight.nextId + 1 } }

/-- The devices that stores have gone to, or will go to (R221). -/
def sentTo (s : State) : List Nat :=
  (s.fab.sent.map (·.1) ++ (s.eng.links.filter (·.unsent)).map (·.dest)).eraseDups

/-- A system-scope release: its writes are released (R225), and a token goes to each device that stores go to (R221, R420); a
port that trains keeps it queued (R222). -/
def sendTokens (s : State) (know : List Known) : State :=
  let s := releaseSystem s (know.map (·.1))
  flowOut ((sentTo s).foldl (fun s d => holdMsg s d (.token 0)) s)

/-- A supervisor register written. -/
def setSreg (s : State) (off : Nat) (v : DWord) : State := { s with sreg := putD 0 s.sreg off v }

/-- A condition of R284 on unsigned values. -/
def condHolds (c : Nat) (v x : Nat) : Bool :=
  if c = 0 then v == x else if c = 1 then v != x else if c = 2 then decide (v ≥ x) else decide (v < x)

/-- The slots that watch the signal at an address (R424). -/
def watchSlots (s : State) (pa : Nat) : List Nat :=
  (s.sreg.filter fun e => decide (0xE00 ≤ e.1) && decide (e.1 < 0x1000) && bit e.2.toNat 0 &&
    e.2.toNat / 32 * 32 == pa).map fun e => (e.1 - 0xE00) / 8

/-- Whether a slot names an application core or another device (R223, R424). -/
def watchOutside (s : State) (k : Nat) : Bool :=
  let op := (sregOf s (0x1000 + 8 * k)).toNat
  bit op 12 || bits op 11 2 != (sregOf s 8).toNat % 1024

/-- What a slot does when its condition holds (R424): an interrupt, an LSIG SET to another device, which follows the tokens and waits for its link (R222, R386), or a SET here, which
another slot may watch in turn. -/
def fireSlot (again : State → Nat → State) (s : State) (k pa : Nat) : State :=
  let v := ofLE (s.mem.read pa 8)
  let op := (sregOf s (0x1000 + 8 * k)).toNat
  let dst := (sregOf s (0x1400 + 8 * k)).toNat
  if !condHolds (bits op 1 0) v (sregOf s (0x1200 + 8 * k)).toNat then s
  else if bit op 12 then { s with host := { s.host with irqs := s.host.irqs ++ [k] } }
  else if watchOutside s k then flowOut (holdMsg s (bits op 11 2) (.signal dst (BitVec.ofNat 64 v)))
  else
    let (id, s) := newWrite s
    again { s with mem := s.mem.perform id dst (toLE 8 v) none [] } dst

/-- The slots that watch a signal act, and those that watch what they set, in turn (R424; log 18). -/
def fireWatches : Nat → State → Nat → State
  | 0, s, _ => s
  | n + 1, s, pa => (watchSlots s pa).foldl (fun s k => fireSlot (fireWatches n) s k pa) s

/-- The signal objects whose `value` a write touches, where one is watched. -/
def watchedBy (s : State) (pa n : Nat) : List Nat :=
  ((s.sreg.filter fun e => decide (0xE00 ≤ e.1) && decide (e.1 < 0x1000) && bit e.2.toNat 0 &&
    decide (pa < e.2.toNat / 32 * 32 + 8) && decide (e.2.toNat / 32 * 32 < pa + n)).map fun e =>
      e.2.toNat / 32 * 32).eraseDups

/-- A write performed at its home under a key (R191, R207), which a watched signal sees (R424). -/
def writeNow (s : State) (id pa key : Nat) (bs : List Byte) (path : Option Path) (pubs : List Pub) : State :=
  if bs.isEmpty then s
  else
    let s := openRange s pa bs.length key true
    let s := { s with mem := s.mem.perform id pa bs path pubs }
    (watchedBy s pa bs.length).foldl (fun s x => fireWatches 64 s x) s

/-- A write of the device itself, with a number of its own. -/
def writeOwn (s : State) (pa key : Nat) (bs : List Byte) (path : Option Path) (pubs : List Pub) : Nat × State :=
  let (id, s) := newWrite s
  (id, writeNow s id pa key bs path pubs)

/-! ### Zeroing -/

/-- The zero engine's resource that a range touches (R163). -/
def zeroingAt (s : State) (pa n : Nat) : Bool :=
  s.trans.zeroing.any fun z => decide (z.len > 0) && decide (z.pa < pa + n) && decide (pa < z.pa + z.len)

/-- The LPDDR6 lines of a range come under a new owner's key, without regard to what they held (R180). -/
def rekeyRange (s : State) (pa n key : Nat) : State :=
  let hit := fun (line : Nat) => isLpddr pa && decide (pa / 128 ≤ line) && decide (line ≤ (pa + n - 1) / 128)
  let mem := { s.mem with
    lineKey := s.mem.lineKey.filter fun e => !hit e.1
    keyed := if isLpddr pa then (pa / 128, (pa + n - 1) / 128 + 1 - pa / 128, keyPair s key) :: s.mem.keyed else s.mem.keyed }
  setLines { s with mem := mem } (mapWhere (fun l => hit l.line) (fun l => { l with key := key }) s.vaults.lines)

/-- Two byte ranges overlap. -/
def overlaps (pa n pa' n' : Nat) : Bool := decide (pa < pa' + n') && decide (pa' < pa + n)

/-- Memory with a range zero: no read goes behind it, and it holds no error (R163, R193). -/
def Memory.zeroed (m : Memory) (pa n : Nat) : Memory :=
  { m with
    bytes := m.bytes.filter fun e => decide (e.1 < pa) || decide (pa + n ≤ e.1)
    floors := { pa := pa, len := n, at_ := m.log.length } :: m.floors
    ecc := wordsOff m.ecc pa n, flips := wordsOff m.flips pa n }

/-- A range zeroed by the zero engine (R163, R180). Stores to it that were issued before it left its owner, numbered below
`upto`, perform before it: nothing is left of them, and the atomics among them return what they met. -/
def zeroRange (s : State) (z : ZeroJob) : State :=
  let s := rekeyRange s z.pa z.len z.key
  let early := fun (id pa n : Nat) => decide (id < z.upto) && overlaps pa n z.pa z.len
  { s with
    mem := s.mem.zeroed z.pa z.len
    flight := { s.flight with
      stores := s.flight.stores.filter fun x => !early x.id x.pa x.bytes.length
      atoms := mapWhere (fun x => x.old.isNone && !x.failed && early x.id x.pa 8)
        (fun x => { x with old := some (BitVec.ofNat 64 (ofLE (s.mem.read x.pa (if x.wide then 8 else 4)))) }) s.flight.atoms } }

/-- A job of the zero engine is added. A resource that leaves a context is zeroed after the accesses issued so far. -/
def startZero (s : State) (z : ZeroJob) : State :=
  let z := { z with upto := if z.ctx.isSome then s.flight.nextId else 0 }
  { s with trans := { s.trans with zeroing := s.trans.zeroing ++ [z] } }

/-- The zeroing of every resource that a range touches is brought to its end, as an access that waits for it finds (R163),
where the access of number `id` comes after it. -/
def settleZeroFor (s : State) (id pa n : Nat) : State :=
  let hit := fun (z : ZeroJob) => decide (z.len > 0) && decide (z.upto ≤ id) && overlaps z.pa z.len pa n
  let jobs := s.trans.zeroing.filter hit
  if jobs.isEmpty then s
  else
    let s := { s with trans := { s.trans with zeroing := mapWhere hit (fun z => { z with len := 0 }) s.trans.zeroing } }
    jobs.foldl zeroRange s

/-- The same for an access that is made now. -/
def settleZero (s : State) (pa n : Nat) : State := settleZeroFor s s.flight.nextId pa n

/-! ### Signals -/

/-- The number of the write whose value byte x held when the order of writes had length `hi`, if it had more than `lo`. -/
def writerOf (x lo hi : Nat) : List Write → Option Nat
  | [] => none
  | w :: t =>
    if t.length < lo then none
    else if t.length < hi ∧ w.pa ≤ x ∧ x < w.pa + w.new.length then some w.id
    else writerOf x lo hi t

/-- The write whose value a byte holds, if any. -/
def newestWrite (s : State) (x : Nat) : Option Nat := writerOf x (s.mem.floorAt x) s.mem.log.length s.mem.log

/-- The writes whose values n bytes hold. -/
def newestWrites (s : State) (pa n : Nat) : List Nat :=
  ((List.range n).filterMap fun i => newestWrite s (pa + i)).eraseDups

/-- A waiter registered on a signal lies outside the device (R223, R424). -/
def promotes (s : State) (pa : Nat) : Bool := (watchSlots s pa).any (watchOutside s)

/-- The scope at which a write to a signal releases (R223). -/
def signalScope (s : State) (pa : Nat) (scope : Scope) : Scope :=
  if scope = .device ∧ promotes s pa then .system else scope

/-- What SIGWR makes of the value (R285). -/
def sigNew (op : SigOp) (m b : Nat) : Nat :=
  match op with
  | .set => b
  | .add => (m + b) % 2 ^ 64
  | .maxu => max m b

/-- A signal's `value` replaced at its home, as a release with its publication (R211, R285); the numbers of the write
and of the writes it read. -/
def signalWrite (s : State) (pa key : Nat) (op : SigOp) (v : DWord) (path : Option Path) (pubs : List Pub)
    (scope : Scope) (by_ : Party) (know : List Known) : Nat × List Nat × State :=
  let s := settleZero s pa 32
  let scope := signalScope s pa scope
  let (bs, s) := readNow s pa key 8
  let seen := newestWrites s pa 8
  let pub : Pub := { scope := scope, by_ := by_, pairs := know }
  let s := if scope = .system then sendTokens s know else s
  let (id, s) := writeOwn s pa key (toLE 8 (sigNew op (ofLE bs) v.toNat)) path (pub :: pubs)
  (id, seen, s)

/-! ### The host event ring -/

/-- The number of free entries is not zero, and the ring is in use (R308, R309). An entry whose write is held has its place. -/
def evrRoom (s : State) : Bool :=
  let r := s.cmd.evr
  r.en && (r.tail + r.queued.length + 2 ^ 32 - r.head) % 2 ^ 32 != 2 ^ r.lsize

/-- The address of the entry at the tail (R308). -/
def evrSlot (s : State) : Nat := s.cmd.evr.base + 32 * (s.cmd.evr.tail % 2 ^ s.cmd.evr.lsize)

/-- An entry written at the tail (R308). -/
def evrPut (s : State) (e : Nat) : State :=
  let (id, s) := writeOwn s (evrSlot s) 0 (toLE 32 e) none []
  let s := releaseSystem s [id]
  { s with cmd := { s.cmd with evr := { s.cmd.evr with tail := (s.cmd.evr.tail + 1) % 2 ^ 32 } } }

/-- The entries whose writes a slot held are written, once it holds them no more (R385; log 122). -/
def evrFlush : Nat → State → State
  | 0, s => s
  | n + 1, s =>
    match s.cmd.evr.queued with
    | [] => s
    | e :: t =>
      if heldBySlot s (evrSlot s) 32 then s
      else evrFlush n (evrPut { s with cmd := { s.cmd with evr := { s.cmd.evr with queued := t } } } e)

/-- The held writes of the event ring are made where nothing holds them (R385). -/
def flushEvents (s : State) : State := evrFlush s.cmd.evr.queued.length s

/-- A write of a loopback capture that a slot held is made: of a word, or of the signal that releases them (R381). -/
def latePut (s : State) (w : LateWrite) : State :=
  match w.signal with
  | some know => (signalWrite s w.pa w.key .add 1 none [] .device (.queue 0) know).2.2
  | none => writeNow (settleZero s w.pa w.bytes.length) w.id w.pa w.key w.bytes (some .x) []

/-- The writes of loopback captures that a slot held are made, in order, where nothing holds them (R381, R385; log 117). -/
def lateFlush : Nat → State → State
  | 0, s => s
  | n + 1, s =>
    match s.strips.late with
    | [] => s
    | w :: t =>
      if heldBySlot s w.pa 32 then s else lateFlush n (latePut { s with strips := { s.strips with late := t } } w)

/-- What a slot, or a change of the cache region's size, held of the device's own is made, once it is over (R184, R385). -/
def afterHold (s : State) : State :=
  let s := flushEvents s
  lateFlush s.strips.late.length s

/-- An entry posted: written at the tail, or, where a slot holds its write, as soon as the slot is over (R308, R385; log 122). -/
def evrWrite (s : State) (src ctx type data : Nat) : State :=
  let r := s.cmd.evr
  let e := data % 2 ^ 128 * 2 ^ 128 + nowNs s % 2 ^ 64 * 2 ^ 64 + src % 2 ^ 16 * 2 ^ 48 + ctx % 2 ^ 8 * 2 ^ 40 +
    type % 2 ^ 16 * 2 ^ 16 + (r.tail + r.queued.length) % 2 ^ 16
  if r.queued.isEmpty && !heldBySlot s (evrSlot s) 32 then evrPut s e
  else { s with cmd := { s.cmd with evr := { r with queued := r.queued ++ [e] } } }

/-- An event is lost: the counter, the first source, and the source queue's sticky bits (R309). -/
def evrLose (s : State) (src : Nat) : State :=
  let r := s.cmd.evr
  let s := { s with cmd := { s.cmd with evr := { r with
    lost := min (r.lost + 1) (2 ^ 32 - 1), lostSrc := if r.lost = 0 then src else r.lostSrc } } }
  if src = 0xFFFF then s
  else if src ≥ 2 ^ 15 then
    { s with cmd := { s.cmd with
      cqs := put s.cmd.cqs (src % 4096) { lookD s.cmd.cqs (src % 4096) {} with stopped := true, lost := true } } }
  else
    { s with queues := put s.queues (src % 4096) { lookD s.queues (src % 4096) {} with stopped := true, lost := true } }

/-- RING_OVERFLOW is posted when room has returned, before any newer event (R309). -/
def evrOverflow (s : State) : State :=
  let r := s.cmd.evr
  if r.lost ≠ 0 ∧ evrRoom s then
    let s := evrWrite s 0xFFFF 0xFF 0x0006 (r.lost + r.lostSrc * 2 ^ 32)
    { s with cmd := { s.cmd with evr := { s.cmd.evr with lost := 0, lostSrc := 0 } } }
  else s

/-- An event is posted (R308, R309). -/
def postEvent (s : State) (src ctx type data : Nat) : State :=
  let s := evrOverflow (flushEvents s)
  if evrRoom s then evrWrite s src ctx type data else evrLose s src

end Sys2Proof.Machine
end

