-- ==== Sys2Proof/Machine/Translate.lean ====
section
/-!
DEFINITION. Virtual addresses: page-table entries and their checks (R167 to R171), the apertures (R185, R187,
R359, R406), the translation caches (R176) and the miss records (R172 to R174).
-/

namespace Sys2Proof.Machine
open Sys2Proof

/-- Who makes an access: its context, its core (none for a unit that has none), the quad whose records it uses,
the braid it belongs to, its path, what it needs (R171, R205), the translations with which walks ended that it waited
for (R173), the number by which a miss record knows it (R175), and the strand whose command it serves. -/
structure Accessor where
  ctx : Nat
  core : Option Nat := none
  quad : Nat
  bid : Option Nat := none
  path : Option Path := none
  need : Need := .read
  given : List TlbEntry := []
  who : Nat := 0
  sid : Option Nat := none
  deriving DecidableEq, Repr

/-- The number by which a miss record knows an engine operation: its handle's (R175). -/
def engineWho (handle : Word) : Nat := 2 * handle.toNat + 1

/-- The outcome of a translation: a physical address with its keyring index and whether its lines may be pinned,
a miss, or a fault with its cause and trap_info (R170). -/
inductive Translated where
  | ok (pa key : Nat) (pin : Bool)
  | miss
  | fault (cause info : Nat)
  deriving DecidableEq, Repr

/-- trap_info of R170: the reason, and the level of the entry that failed. -/
def accInfo (reason level : Nat) : Nat := reason + level * 2 ^ 8

/-- ACCESS (R394). -/
def causeAccess : Nat := 0x05
/-- PAGE_FAULT (R394). -/
def causePage : Nat := 0x04

/-! ### Page-table entries -/

/-- The bytes a leaf of a level maps (R168). -/
def pageBytes (level : Nat) : Nat := 2 ^ (13 + 10 * (3 - level))

/-- The index into the table of a level (R168). -/
def tableIndex (va level : Nat) : Nat := va / 2 ^ (13 + 10 * (3 - level)) % 1024

/-- `frame` of an entry, as a physical address (R169). -/
def pteFrame (e : Nat) : Nat := bits e 43 13 * 2 ^ 13

/-- Check 3 of R170: an entry that is malformed at its level. A leaf that names no frame of LPDDR6, and a
pointer to one, count as malformed (log 14). -/
def pteBad (level e : Nat) : Bool :=
  let leaf := bit e 62
  bits e 12 4 != 0 || bit e 0 ||
  if leaf then
    level == 0 || (bit e 61 && level == 1) || (bit e 61 && bits e 58 50 != 0) ||
      pteFrame e % pageBytes level != 0 || (!bit e 61 && decide (pteFrame e ≥ 2 ^ 40))
  else
    level == 3 || bits e 61 59 != 0 || bits e 58 44 != 0 || bits e 3 1 != 0 || decide (pteFrame e ≥ 2 ^ 40)

/-- Whether a leaf grants what an access needs (R171). -/
def pteGrants (e : Nat) (n : Need) : Bool :=
  match n with
  | .read => bit e 1
  | .write => bit e 2
  | .both => bit e 1 && bit e 2
  | .fetch => bit e 3

/-- Checks 4 to 6 of R170 on a leaf: the reason of the first that fails. -/
def leafReason (s : State) (ctx level e : Nat) : Option Nat :=
  let c := lookD s.ctxs ctx {}
  let f := pteFrame e
  let v := (f - vaultBase) / 2 ^ 26
  let m := vaultMap s v
  if bit e 61 && (decide (f < vaultBase) || decide (v ≥ 48) ||
      decide ((f - vaultBase) % 2 ^ 26 + pageBytes level > (m.direct - m.window) * 2 ^ 23)) then some 0x03
  else if bits e 49 44 ≠ ctx then some 0x04
  else if !bit e 61 && (decide (bits e 58 50 < c.keyBase) || decide (bits e 58 50 ≥ c.keyBase + c.keyCount)) then
    some 0x05
  else none

/-- Checks 4 to 7 of R170 on a leaf, and the address it gives. -/
def useLeaf (s : State) (a : Accessor) (va level e : Nat) : Translated :=
  match leafReason s a.ctx level e with
  | some r => .fault causeAccess (accInfo r level)
  | none =>
    if !pteGrants e a.need then .fault causeAccess (accInfo 0x06 level)
    else .ok (pteFrame e + va % pageBytes level) (bits e 58 50) (bit e 60 && !bit e 61)

/-! ### Apertures -/

/-- The first aperture address (R187). -/
def apertureBase : Nat := 0x1FFC0000000000
/-- The save aperture (R406). -/
def saveAperture : Nat := 0x1FFD0000000000
/-- The window aperture (R185). -/
def windowAperture : Nat := 0x1FFE0000000000

/-- The window size of a braid in bytes (R313). -/
def bwSize (s : State) (b : Braid) : Nat := (lookD s.cmd.kernels b.kernel {}).lrec.vault * 65536

/-- The window base of R185. -/
def windowBase (core slot : Nat) : Nat := windowAperture + core * 2 ^ 33 + slot * 2 ^ 24

/-- The vault offset of a ring descriptor, its vault and the size of its ring store (R357, R359). -/
def ringDesc (s : State) (i : Nat) : Nat :=
  (lookD s.sreg (0x400 + 16 * i) 0).toNat + (lookD s.sreg (0x408 + 16 * i) 0).toNat * 2 ^ 64

/-- The physical address of byte o of a ring's store (R357). -/
def ringPa (s : State) (ring o : Nat) : Nat :=
  let v := bits (ringDesc s ring) 5 0
  vaultPa v ((ringArea (vaultMap s v)).1 + o)

/-- An aperture address (R187, R359, R406). Of an access that several rows of R187 refuse, a fetch reports reason 0x06
(log 106). -/
def useAperture (s : State) (a : Accessor) (va size : Nat) : Translated :=
  if a.need = .fetch then .fault causeAccess 0x06
  else if va < saveAperture then
    let ring := (va - apertureBase) / 2 ^ 28
    let o := va % 2 ^ 28
    let v := bits (ringDesc s ring) 5 0
    if decide (ring < 64) && decide (v < 48) && decide (o + size ≤ (ringArea (vaultMap s v)).2) &&
        (a.path == some .b || a.path == some .x) && a.bid.isSome &&
        s.strips.streams.any (fun e => e.2.active && e.2.ring == ring && e.2.ctx == a.ctx) then
      .ok (ringPa s ring o) 0 false
    else .fault causeAccess 0x09
  else if va < windowAperture then
    let v := (va - saveAperture) / 2 ^ 26
    let o := va % 2 ^ 26
    let own : Bool := match a.bid with
      | none => false
      | some bid =>
        match look s.braids bid with
        | none => false
        | some b => b.saveVault == v && decide (b.saveOff ≤ o) &&
            decide (o + size ≤ b.saveOff + (lookD s.cmd.kernels b.kernel {}).lrec.save * 65536)
    if decide (v < 48) && own && (a.path == some .b || a.path == some .m) then .ok (vaultPa v o) 0 false
    else .fault causeAccess 0x0A
  else
    let core := bits va 40 33
    let slot := bits va 32 24
    match s.braids.find? fun e => e.2.st == .placed && e.2.core == core && e.2.slot == slot with
    | none => .fault causeAccess 0x07
    | some (_, b) =>
      if b.ctx ≠ a.ctx ∨ va % 2 ^ 24 + size > bwSize s b then .fault causeAccess 0x07
      else .ok (vaultPa (core / 4) (b.winOff + va % 2 ^ 24)) 0 false

/-! ### Translation caches -/

/-- The entries a cache holds (R176). -/
def cacheRoom : CacheId → Nat
  | .fetch _ => 32
  | .bead _ => 128
  | .mx _ => 64
  | .second _ => 2048
  | .walk _ => 256

/-- The first-level cache of an access (R176). -/
def cacheOf (a : Accessor) : Option CacheId :=
  match a.core with
  | none => none
  | some c =>
    if a.need = .fetch then some (.fetch c)
    else match a.path with
      | some .b => some (.bead c)
      | some .m | some .x => some (.mx c)
      | _ => none

/-- Whether a cached entry translates an address of a context. -/
def TlbEntry.maps (e : TlbEntry) (ctx va : Nat) : Bool :=
  e.ctx == ctx && decide (e.va ≤ va) && decide (va < e.va + pageBytes e.level)

/-- The entry of a cache that covers an address of a context. -/
def tlbFind (s : State) (id : CacheId) (ctx va : Nat) : Option TlbEntry :=
  s.trans.tlb.find? fun e => e.cache == id && e.maps ctx va

/-- A cache keeps its newest entries up to its room; the oldest leaves (log 9). -/
def tlbTrim (id : CacheId) : Nat → List TlbEntry → List TlbEntry
  | _, [] => []
  | room, e :: t =>
    if e.cache = id then
      match room with
      | 0 => tlbTrim id 0 t
      | n + 1 => e :: tlbTrim id n t
    else e :: tlbTrim id room t

/-- An entry enters a cache. -/
def tlbInsert (s : State) (e : TlbEntry) : State :=
  if s.trans.tlb.any (fun x => x == e) then s
  else { s with trans := { s.trans with tlb := tlbTrim e.cache (cacheRoom e.cache) (e :: s.trans.tlb) } }

/-- The first-level cache of an access takes a translation (R176). -/
def firstLevel (s : State) (a : Accessor) (e : TlbEntry) : State :=
  match cacheOf a with
  | some id => tlbInsert s { e with cache := id }
  | none => s

/-- A translation as an access makes it: the high bits, the apertures, its first-level cache, a walk it waited for, the second
level, then a miss (R167, R170, R173, R176, R187). -/
def translation (s : State) (a : Accessor) (va size : Nat) : Translated × State :=
  if va ≥ 2 ^ 53 then (.fault causeAccess 0x01, s)
  else if va ≥ apertureBase then (useAperture s a va size, s)
  else
    match (cacheOf a).bind fun id => tlbFind s id a.ctx va with
    | some e => (useLeaf s a va e.level e.pte, s)
    | none =>
      match (a.given.find? fun e => e.maps a.ctx va).orElse fun _ => tlbFind s (.second a.quad) a.ctx va with
      | some e => (useLeaf s a va e.level e.pte, firstLevel s a e)
      | none => (.miss, s)

/-! ### Miss records -/

/-- The bit of a path in `paths` (R175). -/
def pathBit : Option Path → Nat
  | some .b => 1
  | some .c => 2
  | some .m => 4
  | some .x => 8
  | _ => 0

/-- An access that misses joins the record of its page, or takes the free record of lowest index; none when all
64 are in use (R172, R173). -/
def joinMiss (s : State) (a : Accessor) (va : Nat) : Option Nat × State :=
  let vpn := va / 2 ^ 13
  let mine := (List.range 64).find? fun i =>
    match look s.trans.miss (a.quad * 64 + i) with
    | some r => r.ctx == a.ctx && r.vpn == vpn
    | none => false
  let spare := (List.range 64).find? fun i => (look s.trans.miss (a.quad * 64 + i)).isNone
  match mine.orElse fun _ => spare with
  | none => (none, s)
  | some i =>
    let r := lookD s.trans.miss (a.quad * 64 + i) { ctx := a.ctx, vpn := vpn }
    let r := { r with waiting := r.waiting ++ [{ who := a.who, path := a.path, need := a.need }] }
    (some i, { s with trans := { s.trans with miss := put s.trans.miss (a.quad * 64 + i) r } })

/-- The paths of the accesses that wait on a record, fetches aside (R175). -/
def MissRec.paths (r : MissRec) : Nat :=
  (r.waiting.filter fun x => x.need != .fetch).foldl (fun n x => n ||| pathBit x.path) 0

/-- Whether a fetch waits on a record (R175). -/
def MissRec.fetch (r : MissRec) : Bool := r.waiting.any fun x => x.need == .fetch

/-- Whether an access that waits on a record needs w (R175). -/
def MissRec.write (r : MissRec) : Bool := r.waiting.any fun x => x.need == .write || x.need == .both

/-- The number of accesses that wait on a record (R175). -/
def MissRec.waiters (r : MissRec) : Nat := r.waiting.length

/-- A record gives up one waiter (R175). -/
def leaveMiss (s : State) (quad idx who : Nat) : State :=
  { s with trans := { s.trans with
    miss := upd s.trans.miss (quad * 64 + idx) fun r => { r with waiting := r.waiting.eraseP fun x => x.who == who } } }

/-! ### Walks -/

/-- What a walk comes to: a leaf with its level, the 64 bits to use and the group it is taken from, an entry with v = 0, a
failed check, or a read that a slot holds (R385). -/
inductive Walked where
  | leaf (level pte : Nat) (group : Option Nat)
  | invalid (level : Nat)
  | bad (cause info : Nat)
  | held
  deriving DecidableEq, Repr

/-- A read of a table, through the cache region under key 0 (R168, R225), once its frame is no longer being zeroed (R180); none
while a slot holds it (R385). A word with an uncorrectable error reads as it stands (log 103). -/
def readTable (s : State) (pa : Nat) : Option Nat × State :=
  if heldBySlot s pa 8 then (none, s)
  else
    let (b, s) := readSystem (settleZero s pa 8) pa 0 8
    (some (ofLE b), s)

/-- The entry of a table at an index: from the walk cache, or read (R168, R176). -/
def readEntry (s : State) (quad ctx va level table : Nat) : Option Nat × State :=
  match s.trans.tlb.find? fun e =>
      e.cache == .walk quad && e.ctx == ctx && e.level == level && e.va == va / pageBytes level * pageBytes level with
  | some e => (some e.pte, s)
  | none => readTable s (table + 8 * tableIndex va level)

/-- The leaf that a contiguous hint lets the device use in place of an entry's own, with the group's first address: the
group's first entry with the frame offset added; a free value picks (R176; where the group breaks the rule, log 107). -/
def contigLeaf (s : State) (va level table e : Nat) : Option (Nat × Option Nat) × State :=
  if bit e 59 then
    let (f, s) := drawFree s
    if f % 2 = 0 then (some (e, none), s)
    else
      let i := tableIndex va level
      match readTable s (table + 8 * (i - i % 32)) with
      | (none, s) => (none, s)
      | (some g, s) =>
        if bit g 63 && bit g 62 then
          (some (g + i % 32 * pageBytes level, some (va / pageBytes level * pageBytes level - i % 32 * pageBytes level)), s)
        else (some (e, none), s)
  else (some (e, none), s)

/-- The walk from a level downward, with the levels left as fuel (R170). -/
def walkFrom (s : State) (quad ctx va : Nat) : Nat → Nat → Nat → Walked × State
  | 0, _, _ => (.invalid 3, s)
  | n + 1, level, table =>
    match readEntry s quad ctx va level table with
    | (none, s) => (.held, s)
    | (some e, s) =>
      if !bit e 63 then (.invalid level, s)
      else if pteBad level e then (.bad causePage (accInfo 0x02 level), s)
      else if bit e 62 then
        match contigLeaf s va level table e with
        | (none, s) => (.held, s)
        | (some (e, group), s) =>
          if pteBad level e then (.bad causePage (accInfo 0x02 level), s)
          else match leafReason s ctx level e with
            | some r => (.bad causeAccess (accInfo r level), s)
            | none => (.leaf level e group, s)
      else
        let s := tlbInsert s { cache := .walk quad, ctx := ctx, va := va / pageBytes level * pageBytes level,
                               level := level, pte := e }
        walkFrom s quad ctx va n (level + 1) (pteFrame e)

/-- A whole walk of a context's tables (R168); a context that is free has the record of reset, with its tables at 0 (R156; log 114). -/
def walkTables (s : State) (quad ctx va : Nat) : Walked × State :=
  walkFrom s quad ctx va 4 0 (lookD s.ctxs ctx {}).ptBase

end Sys2Proof.Machine
end

