-- ==== Sys2Proof/Machine/Operands.lean ====
section
/-!
DEFINITION. The visible registers (R37 to R40): their physical places, the checks of check 4 of R47, their
values and full/empty states (R41 to R43), and the class of an instruction (R44).
-/

namespace Sys2Proof.Machine
open Sys2Proof

/-- A strand that issues, set apart from the rest of the state until its instruction has its outcome. -/
structure Issue where
  s : State
  sid : Nat
  st : Strand
  deriving DecidableEq, Repr

/-- What a trap records beside the pc and the mask (R394): the bead where it is not the one that executes (255
for one decided for the strand, R395), and the instruction that faulted where trap_pc names another (R399, R411). -/
structure TrapInfo where
  cause : Nat
  info : Nat := 0
  addr : Nat := 0
  bead : Option Nat := none
  at_ : Option Word := none
  deriving DecidableEq, Repr

/-- What becomes of a bead's part of an instruction: done, the strand blocks at it, or a fault at it (R69, R395). -/
inductive BeadOut where
  | ok (i : Issue)
  | block (w : Wait) (i : Issue)
  | trap (t : TrapInfo) (i : Issue)
  deriving DecidableEq, Repr

/-- The next part, where the first is done. -/
def BeadOut.andThen (o : BeadOut) (f : Issue → BeadOut) : BeadOut :=
  match o with
  | .ok i => f i
  | .block w i => .block w i
  | .trap t i => .trap t i

/-! ### Classes and physical places -/

/-- The bead class of R37. -/
def isBead : Reg → Bool
  | .bead _ | .bx | .q _ => true
  | _ => false

/-- The q-ports of R37. -/
def isPort : Reg → Bool
  | .q _ => true
  | _ => false

/-- The physical bead register that bn names (R39, R40). -/
def physBead (st : Strand) (n : Nat) : Nat :=
  if st.inTrap && decide (n < 16) then st.regs + n else st.flow.winBase + n

/-- The key of bead j's physical bead register p. -/
def beadKey (p j : Nat) : Nat := p * 64 + j

/-- The physical uniform register that sn names (R40). -/
def physUni (st : Strand) (n : Nat) : Nat := if st.inTrap && decide (n < 4) then 32 + n else n

/-- The place of a register of bead j that holds a result; none for the registers without one. -/
def regKey (st : Strand) (j : Nat) : Reg → Option RKey
  | .bead n => some (.b (beadKey (physBead st n) j))
  | .uni n => some (.u (physUni st n))
  | .lc => some .lc
  | _ => none

/-- A register's value and full/empty state. lc is always full (R41). -/
def getKey (st : Strand) : RKey → RegVal
  | .b k => lookD st.breg k {}
  | .u k => lookD st.ureg k {}
  | .lc => { val := match st.flow.loops with | l :: _ => l.lc | [] => 0 }

/-- A register set to a value and state. lc takes the value into the innermost loop level (R89). -/
def setKey (st : Strand) (k : RKey) (v : RegVal) : Strand :=
  match k with
  | .b k => { st with breg := putD {} st.breg k v }
  | .u k => { st with ureg := putD {} st.ureg k v }
  | .lc =>
    match st.flow.loops with
    | l :: t => { st with flow := { st.flow with loops := { l with lc := v.val } :: t } }
    | [] => st

/-- The value bead j reads from a register other than a q-port (R37). -/
def readReg (st : Strand) (j : Nat) : Reg → Word
  | .bead n => (getKey st (.b (beadKey (physBead st n) j))).val
  | .uni n => (getKey st (.u (physUni st n))).val
  | .zr => 0
  | .bx => BitVec.ofNat 32 j
  | .sx => BitVec.ofNat 32 st.sx
  | .lc => (getKey st .lc).val
  | .q _ => 0

/-- The full/empty state of a register for bead j; zr, bx, sx and lc are always full (R41). -/
def fillOf (st : Strand) (j : Nat) (r : Reg) : Fill :=
  match r with
  | .bead _ | .uni _ => match regKey st j r with | some k => (getKey st k).fill | none => .full
  | _ => .full

/-- Full, whatever filled it. -/
def Fill.isFull : Fill → Bool
  | .full | .futured => true
  | .due | .future => false

/-- A register written by bead j, and full (R41); zr discards (R37). -/
def writeReg (st : Strand) (j : Nat) (r : Reg) (v : Word) : Strand :=
  match regKey st j r with
  | some k => setKey st k { val := v }
  | none => st

/-! ### Check 4 of R47 -/

/-- A register that exists for the strand: a bead register below regs, a uniform one below uregs (R39, R40). -/
def regExists (st : Strand) : Reg → Bool
  | .bead n => (st.inTrap && decide (n.val < 16)) || decide (st.flow.winBase + n.val < st.regs)
  | .uni n => (st.inTrap && decide (n.val < 4)) || decide (n.val < st.uregs)
  | .zr | .bx | .sx | .lc => true
  | .q p => (look st.ports p.val).isSome

/-- A register usable as a source. -/
def srcOk (st : Strand) (r : Reg) : Bool := regExists st r

/-- A register usable as a destination (R37). -/
def dstOk (st : Strand) : Reg → Bool
  | .bx | .sx => false
  | .lc => !st.flow.loops.isEmpty
  | r => regExists st r

/-- The registers of a pair operand, even first; zr stands for both (R38). -/
def pairOf : Reg → List Reg
  | .bead n => if h : n.val + 1 < 88 then [.bead n, .bead ⟨n.val + 1, h⟩] else []
  | .uni n => if h : n.val + 1 < 32 then [.uni n, .uni ⟨n.val + 1, h⟩] else []
  | .zr => [.zr, .zr]
  | _ => []

/-- Register n places after a register of the same file. -/
def regAfter (r : Reg) (k : Nat) : Option Reg :=
  match r with
  | .bead n => if h : n.val + k < 88 then some (.bead ⟨n.val + k, h⟩) else none
  | .uni n => if h : n.val + k < 32 then some (.uni ⟨n.val + k, h⟩) else none
  | .zr => some .zr
  | _ => none

/-- A run of registers from r, or none where it leaves its file. -/
def runOf (r : Reg) : Nat → Option (List Reg)
  | 0 => some []
  | n + 1 =>
    match runOf r n, regAfter r n with
    | some l, some x => some (l ++ [x])
    | _, _ => none

/-- A pair operand that R38 and R39 admit. -/
def pairOk (st : Strand) : Reg → Bool
  | .bead n => n.val % 2 == 0 && (pairOf (.bead n)).length == 2 && (pairOf (.bead n)).all (regExists st)
  | .uni n => n.val % 2 == 0 && (pairOf (.uni n)).length == 2 && (pairOf (.uni n)).all (regExists st)
  | .zr => true
  | _ => false

/-- A quad operand of uniform registers, or zr (R38, R39). -/
def uniQuadOk (st : Strand) : Reg → Bool
  | .uni n => n.val % 4 == 0 && (runOf (.uni n) 4).elim false (fun l => l.all (regExists st))
  | .zr => true
  | _ => false

/-- The four registers of a quad. -/
def quadOf (r : Reg) : List Reg := (runOf r 4).getD []

/-- A uniform pair, or zr. -/
def uniPairOk (st : Strand) (r : Reg) : Bool := !isBead r && pairOk st r

/-- A uniform-class source. -/
def uniSrcOk (st : Strand) (r : Reg) : Bool := !isBead r && srcOk st r

/-- A uniform register or zr, as a destination of engine forms. -/
def uniDstOk (st : Strand) : Reg → Bool
  | .uni n => regExists st (.uni n)
  | .zr => true
  | _ => false

/-- A run of n bead registers. -/
def beadRunOk (st : Strand) (r : Reg) (n : Nat) : Bool :=
  match r with
  | .bead _ => (runOf r n).elim false (fun l => l.all (regExists st))
  | _ => false

/-- R44: an instruction is uniform when its destination and its register sources are. -/
def allUniform (rs : List Reg) : Bool := rs.all fun r => !isBead r

/-- R44: a uniform destination other than zr takes no bead-class source. -/
def classOk (d : Reg) (srcs : List Reg) : Bool := isBead d || d == .zr || allUniform srcs

/-! ### Sources -/

/-- A source as an instruction reads it: the register, its e bit (R42), and the field value that EMPTY_READ
reports (R394). -/
structure Src where
  reg : Reg
  e : Bool := false
  field : Nat := 0
  deriving DecidableEq, Repr

/-- A source operand with its e bit. -/
def src (r : Reg) (e : Bool) : Src := { reg := r, e := e, field := r.code }

/-- A source that always waits (R42, R95). -/
def srcW (r : Reg) : Src := { reg := r, field := r.code }

/-- The two registers of a pair source; both report the field of the pair. -/
def srcPair (r : Reg) (e : Bool) : List Src := (pairOf r).map fun x => { reg := x, e := e, field := r.code }

/-- A list of sources that always wait. -/
def srcsW (rs : List Reg) : List Src := rs.map srcW

/-- Sources in the order of their tests: uniform ones before the first bead's own, so that at each later bead they are
full (R42). -/
def testOrder (srcs : List Src) : List Src := srcs.filter (fun x => !isBead x.reg) ++ srcs.filter fun x => isBead x.reg

/-- The first empty source of bead j, in the order of their tests. -/
def firstEmpty (st : Strand) (j : Nat) (srcs : List Src) : Option Src :=
  (testOrder srcs).find? fun x => !(fillOf st j x.reg).isFull

/-- EMPTY_READ of a source (R42, R394). -/
def emptyRead (x : Src) : TrapInfo := { cause := 0x03, info := x.field }

/-- What waits for a register to fill. -/
def waitReg (st : Strand) (j : Nat) (r : Reg) : Wait :=
  match regKey st j r with
  | some k => .reg k
  | none => .regs []

/-- The sources of bead j tested: an empty one with e = 0 blocks, with e = 1 faults (R42). A destination that is still
empty waits (R43). All this comes before any q-port of the bead is popped or pushed (log 97). -/
def readyOr (i : Issue) (j : Nat) (srcs : List Src) (dsts : List Reg) (k : BeadOut) : BeadOut :=
  match firstEmpty i.st j srcs with
  | some x => if x.e then .trap (emptyRead x) i else .block (waitReg i.st j x.reg) i
  | none =>
    match dsts.find? fun r => !(fillOf i.st j r).isFull with
    | some r => .block (waitReg i.st j r) i
    | none => k

end Sys2Proof.Machine
end

