-- ==== Sys2Proof/Machine/Flight.lean ====
section
/-!
DEFINITION. What is under way between a strand and memory: loads, stores and atomics (R196, R203, R207), special
functions (R136), the order of one strand's accesses (R199), and the knowledge they add (R208 to R211).
-/

namespace Sys2Proof.Machine
open Sys2Proof

/-! ### The strand's surroundings -/

/-- The kernel of a strand. -/
def kernelOf (s : State) (st : Strand) : Kernel := lookD s.cmd.kernels st.kernel {}

/-- The braid of a strand. -/
def braidOf (s : State) (st : Strand) : Braid := lookD s.braids st.braid {}

/-- A braid changed. -/
def setBraid (s : State) (bid : Nat) (f : Braid → Braid) : State := { s with braids := upd s.braids bid f }

/-- A kernel changed. -/
def setKernel (s : State) (kid : Nat) (f : Kernel → Kernel) : State :=
  { s with cmd := { s.cmd with kernels := upd s.cmd.kernels kid f } }

/-- The flights changed. -/
def setFlight (s : State) (f : Flight → Flight) : State := { s with flight := f s.flight }

/-- The mask of all W beads (R60). -/
def fullMask (w : Nat) : DWord := BitVec.ofNat 64 (2 ^ w - 1)

/-- The active beads in issue order (R59). -/
def activeBeads (st : Strand) : List Nat := (List.range st.width).filter fun j => st.flow.mask.getLsbD j

/-- The beads not retired. -/
def liveMask (st : Strand) : DWord := fullMask st.width &&& ~~~st.retired

/-- The quad of a core (R9). -/
def quadOfCore (c : Nat) : Nat := c / 4

/-- The number by which a miss record knows a strand that waits on it (R175); engine operations have odd ones. -/
def strandWho (st : Strand) : Nat := 2 * (st.braid * 64 + st.sx) + 2

/-- A strand's access on a path (R205). -/
def strandAccess (st : Strand) (path : Path) (need : Need) : Accessor :=
  { ctx := st.ctx, core := some st.core, quad := quadOfCore st.core, bid := some st.braid, path := some path,
    need := need, given := st.given.toList, who := strandWho st }

/-! ### Knowledge (R208 to R211) -/

/-- A pair joins a knowledge set. -/
def addKnown (v : List Known) (k : Known) : List Known := if v.contains k then v else k :: v

/-- The union of two knowledge sets. -/
def joinKnown (v w : List Known) : List Known := w.foldl addKnown v

/-- A strand acquires a publication (R210). -/
def acquire (st : Strand) (p : List Known) : Strand := { st with know := joinKnown st.know p }

/-- The pairs of a path. -/
def onPath (v : List Known) (q : Path) : List Known := v.filter fun k => k.2 == q

/-- Writes known on a path. -/
def knownOn (q : Path) (ws : List Nat) : List Known := ws.map fun w => (w, q)

/-- The future record a handle names in its context's table (R227). -/
def futureOf (s : State) (h : Word) : Future :=
  let x := h.toNat
  lookD (lookD s.ctxs (bits x 31 26) {}).futures (bits x 25 16) {}

/-- A handle with generation 0 is the null handle (R227). -/
def handleNull (h : Word) : Bool := bits h.toNat 15 0 == 0

/-- A handle is current while its generation is the record's (R227). -/
def handleCurrent (s : State) (h : Word) : Bool := bits h.toNat 15 0 == (futureOf s h).gen

/-- A current handle whose record is pending. -/
def handlePending (s : State) (h : Word) : Bool :=
  !handleNull h && handleCurrent s h && (futureOf s h).st == .pending

/-- The publication a handle's wait acquires: its record's, or that of the command that last held a stale handle
(R244). -/
def handlePub (s : State) (h : Word) : List Known :=
  if handleNull h then []
  else if handleCurrent s h then (futureOf s h).pub
  else match (futureOf s h).past.find? fun p => p.1 == bits h.toNat 15 0 with
    | some p => p.2
    | none => []

/-- Reading registers that a future's completion filled acquires its publication (R211). -/
def acquireRegs (i : Issue) (j : Nat) (rs : List Reg) : Issue :=
  rs.foldl (fun i r =>
    if fillOf i.st j r == .futured then { i with st := acquire i.st (handlePub i.s (readReg i.st j r)) } else i) i

/-- A strand as a party to releases and acquires (R206); a locket belongs to one kernel. -/
def partyOf (s : State) (sid : Nat) (st : Strand) : Party :=
  .strand sid st.braid ((braidOf s st).locket.map fun l => st.kernel * 2 ^ 32 + l)

/-- A strand or a unit of this device (R206). -/
def Party.isHere : Party → Bool
  | .strand _ _ _ | .queue _ => true
  | .device _ | .host => false

/-- Whether an observer is a member of a scope counted from a party (R206). -/
def inScope (s : State) (sc : Scope) (from_ obs : Party) : Bool :=
  match sc with
  | .system =>
    match from_, obs with
    | .device n, .device m => n == m || (deviceUp s n && deviceUp s m)
    | .device n, _ | _, .device n => deviceUp s n
    | _, _ => true
  | .device => from_.isHere && obs.isHere
  | .strand => obs == from_
  | .braid => match from_, obs with
    | .strand _ b _, .strand _ b' _ => b == b'
    | _, _ => obs == from_
  | .locket => match from_, obs with
    | .strand _ b l, .strand _ b' l' => b == b' || (l.isSome && l == l')
    | _, _ => obs == from_

/-- The publications that the writes a read returned carry, where releaser and observer are in each other's
scope (R210). -/
def pubsOf (s : State) (obs : Party) (sc : Scope) (ws : List Nat) : List Known :=
  let carried := (s.mem.log.map fun w => (w.id, w.pubs)) ++
    s.braids.flatMap fun b => b.2.staged.map fun x => (x.writeId, x.pubs)
  carried.foldl (fun acc w =>
    if ws.contains w.1 then
      w.2.foldl (fun acc p =>
        if inScope s p.scope p.by_ obs && inScope s sc obs p.by_ then joinKnown acc p.pairs else acc) acc
    else acc) []

/-- The publications a strand's write on a path carries (R215). -/
def carriedPubs (st : Strand) (q : Path) : List Pub :=
  (st.fencePubs.filter fun f => bit f.paths q.bit).map (·.pub)

/-! ### Results -/

/-- Results written to the registers they are due to, which become full (R41). -/
def fillKeys : Strand → List RKey → List Word → Strand
  | st, k :: ks, v :: vs => fillKeys (setKey st k { val := v }) ks vs
  | st, _, _ => st

/-- The registers left empty until a result arrives (R41); their values stay. -/
def emptyKeys (st : Strand) (ks : List RKey) : Strand :=
  ks.foldl (fun st k => setKey st k { val := (getKey st k).val, fill := .due }) st

/-- The places of registers of bead j that a result can fill. -/
def regKeys (st : Strand) (j : Nat) (rs : List Reg) : List RKey := rs.filterMap (regKey st j)

/-- The words a load delivers: the bytes zero-extended, or a pair (R196). -/
def wordsOf (bs : List Byte) : List Word :=
  let x := ofLE bs
  if bs.length ≤ 4 then [BitVec.ofNat 32 x] else [BitVec.ofNat 32 x, BitVec.ofNat 32 (x / 2 ^ 32)]

/-! ### The view of a deterministic kernel (R200) -/

/-- Whether a strand's access to an address is staged: its kernel is deterministic, and the address lies outside its
braid's own window (R200). -/
def isStaged (s : State) (st : Strand) (va n : Nat) : Bool :=
  let b := braidOf s st
  let base := windowBase b.core b.slot
  (kernelOf s st).lrec.det && !(decide (base ≤ va) && decide (va + n ≤ base + bwSize s b))

/-- New(M) of R202, by opcode, for width n. -/
def atomNew (form n m b cmp : Nat) : Nat :=
  if form = 0x56 then (m + b) % 2 ^ n
  else if form = 0x57 then (rn (fAddVal (fp (BitVec.ofNat 32 m)) (fp (BitVec.ofNat 32 b)))).toNat
  else if form = 0x58 then (if signedOf n m ≤ signedOf n b then m else b)
  else if form = 0x59 then (if signedOf n m ≤ signedOf n b then b else m)
  else if form = 0x5A then min m b
  else if form = 0x5B then max m b
  else if form = 0x5C then m &&& b
  else if form = 0x5D then m ||| b
  else if form = 0x5E then m ^^^ b
  else if form = 0x5F then b
  else (if m = cmp then b else m)

/-- Staged bytes by address, each with the number of its write. -/
abbrev Overlay := SMap (Byte × Nat)

/-- A byte of the view that staged writes overlay, with its write (R200). -/
def viewByte (s : State) (start : Nat) (laid : Overlay) (a : Nat) : Byte × Option Nat :=
  match look laid a with
  | some b => (b.1, some b.2)
  | none => (s.mem.byteAsOf start a, writerOf a (s.mem.floorAt a) (max start (s.mem.floorAt a)) s.mem.log)

/-- n bytes of that view, and the writes that they show. -/
def viewBytes (s : State) (start : Nat) (laid : Overlay) (pa n : Nat) : ReadBack :=
  let bs := (List.range n).map fun i => viewByte s start laid (pa + i)
  { bytes := bs.map (·.1), writes := (bs.filterMap (·.2)).eraseDups }

/-- Bytes laid over the view. -/
def overLay (id : Nat) : Overlay → Nat → List Byte → Overlay
  | m, _, [] => m
  | m, a, b :: t => overLay id (put m a (b, id)) (a + 1) t

/-- A staged write laid over the view: a store's bytes, or what an atomic makes of the value it meets (R200). -/
def applyStaged (s : State) (start : Nat) (laid : Overlay) (x : Staged) : Overlay :=
  let n := x.bytes.length
  if x.form = 0 then overLay x.writeId laid x.pa x.bytes
  else overLay x.writeId laid x.pa (toLE n (atomNew x.form (8 * n) (ofLE (viewBytes s start laid x.pa n).bytes) (ofLE x.bytes)
    (x.cmp.toNat % 2 ^ (8 * n))))

/-- Staged writes of a braid, overlaid in issue order (R200). -/
def stagedView (s : State) (start : Nat) (xs : List Staged) : Overlay := xs.foldl (applyStaged s start) []

/-- The overlay of a braid's staged writes with numbers below n. -/
def overlayOf (s : State) (st : Strand) (n : Nat) : Overlay :=
  stagedView s (kernelOf s st).startLog ((braidOf s st).staged.filter fun x => decide (x.writeId < n))

/-- What a strand's bead-path read of a staged range returns: memory as it stood before the kernel, overlaid with the staged
writes of its braid that have numbers below n (R200). -/
def readStaged (s : State) (st : Strand) (n pa len : Nat) : ReadBack :=
  viewBytes s (kernelOf s st).startLog (overlayOf s st n) pa len

/-- Whether an access meets an uncorrectable error, in a byte that no staged write covers (R193, R200). -/
def eccMet (s : State) (st : Strand) (snap : Option Nat) (pa n : Nat) : Bool :=
  match snap with
  | none => eccHit s pa n
  | some k => eccHit s pa n && (List.range n).any fun x => eccHit s (pa + x) 1 && (look (overlayOf s st k) (pa + x)).isNone

/-! ### Performing -/

/-- A store performs at its home (R207). -/
def performStore (s : State) (op : StoreOp) : State :=
  let s := setFlight s fun f => { f with stores := f.stores.filter fun x => x.id != op.id }
  let s := settleZeroFor s op.id op.pa op.bytes.length
  writeNow s op.writeId op.pa op.key op.bytes (some .b) op.pubs

/-- An asynchronous cause is held; a second request for one already held or being handled is merged (R412). -/
def holdCause (st : Strand) (a : Async) : Strand :=
  if (st.held.any fun x => x.cause == a.cause) || (st.inTrap && st.trap.cause.toNat == a.cause) then st
  else { st with held := st.held ++ [a] }

/-- Whether an access of a strand that meets an uncorrectable error may fail now: no such error of another instruction is
held or being handled, with which it would be merged; it is made again once that has been handled (R193, R412). -/
def mayFail (st : Strand) (pc : Word) : Bool :=
  (st.held.all fun x => x.cause != 0x13 || x.pc == pc) && !(st.inTrap && st.trap.cause.toNat == 0x13 && st.trap.pc != pc)

/-- What a strand knows of the writes that a bead-path read returned (R208). -/
def noteRead (st : Strand) (ws : List Nat) : Strand :=
  { st with know := joinKnown st.know (knownOn .b ws), reads := joinKnown st.reads (knownOn .b ws) }

/-- A load that an uncorrectable error has stopped: its strand is due ECC_UNCORRECTABLE as soon as that may be told (R193,
R412). -/
def failLoad (i : Issue) (op : LoadOp) : Issue :=
  let told := mayFail i.st op.pc
  { i with
    s := setFlight i.s fun f => { f with
      loads := mapWhere (fun x => x.id == op.id) (fun x => { x with failed := true, told := told }) f.loads }
    st := if told then holdCause i.st { cause := 0x13, bead := op.bead, pc := op.pc, addr := BitVec.ofNat 64 op.va } else i.st }

/-- A load returns (R196): an uncorrectable error (R193), the view of a deterministic kernel (R200), or what R209
allows, no older than what the strand's earlier reads on the bead path returned (R199). -/
def performLoad (i : Issue) (op : LoadOp) : Issue :=
  let i := { i with s := settleZero i.s op.pa op.len }
  if op.failed || eccMet i.s i.st op.snap op.pa op.len then failLoad i op
  else
    let s := setFlight i.s fun f => { f with loads := f.loads.filter fun x => x.id != op.id }
    let s := openRead s op.pa op.len op.key op.alloc
    let (r, s) := match op.snap with
      | some n => (readStaged s i.st n op.pa op.len, s)
      | none => readKnown s (joinKnown op.know (onPath i.st.reads .b)) .b op.pa op.len
    { i with s := s, st := noteRead (fillKeys i.st op.dst (wordsOf r.bytes)) r.writes }

/-- An atomic reads and writes its home, indivisibly (R203); one of a deterministic kernel computes against the view alone
(R200). -/
def performAtom (s : State) (op : AtomOp) : State :=
  let n := if op.wide then 64 else 32
  let st := (look s.strands op.sid).getD {}
  let change := fun (s : State) (f : AtomOp → AtomOp) =>
    setFlight s fun fl => { fl with atoms := mapWhere (fun x => x.id == op.id) f fl.atoms }
  let s := settleZeroFor s op.id op.pa (n / 8)
  if eccMet s st op.snap op.pa (n / 8) then
    setBraid (change s fun x => { x with failed := true }) st.braid fun b =>
      { b with staged := b.staged.filter fun x => op.snap != some x.writeId }
  else
    match op.snap with
    | some k =>
      let s := openRead s op.pa (n / 8) op.key true
      let r := readStaged s st k op.pa (n / 8)
      change s fun x => { x with old := some (BitVec.ofNat 64 (ofLE r.bytes)), seen := r.writes }
    | none =>
      let (bs, s) := readNow s op.pa op.key (n / 8)
      let m := ofLE bs
      let seen := newestWrites s op.pa (n / 8)
      let new := atomNew op.form n m (op.b.toNat % 2 ^ n) (op.cmp.toNat % 2 ^ n)
      let s := writeNow s op.writeId op.pa op.key (toLE (n / 8) new) (some .b) op.pubs
      change s fun x => { x with old := some (BitVec.ofNat 64 m), seen := seen }

/-- An atomic's old value reaches its destination (R203, R204). -/
def returnAtom (i : Issue) (op : AtomOp) : Issue :=
  let s := setFlight i.s fun f => { f with atoms := f.atoms.filter fun x => x.id != op.id }
  match op.old with
  | none => { i with s := s }
  | some m => { i with s := s, st := noteRead (fillKeys i.st op.dst [m.lo, m.hi]) op.seen }

/-- A failed atomic: the destination stays empty, and the strand is due ECC_UNCORRECTABLE as soon as that may be told (R193,
R412). -/
def failAtom (i : Issue) (op : AtomOp) : Issue :=
  let told := mayFail i.st op.pc
  { i with
    s := setFlight i.s fun f => { f with atoms := mapWhere (fun x => x.id == op.id) (fun x => { x with told := told }) f.atoms }
    st := if told then holdCause i.st { cause := 0x13, bead := op.bead, pc := op.pc, addr := BitVec.ofNat 64 op.va } else i.st }

/-- A number in a rising list. -/
def insertNat (n : Nat) : List Nat → List Nat
  | [] => [n]
  | x :: t => if n ≤ x then n :: x :: t else x :: insertNat n t

/-- A list of numbers in rising order. -/
def sortNat (l : List Nat) : List Nat := l.foldl (fun acc n => insertNat n acc) []

/-- The numbers of a strand's bead-path accesses under way, in issue order (R199). -/
def ownOps (s : State) (sid : Nat) : List Nat :=
  sortNat ((s.flight.loads.filter fun x => x.sid == sid).map (·.id) ++
    (s.flight.stores.filter fun x => x.sid == sid).map (·.id) ++
    (s.flight.atoms.filter fun x => x.sid == sid).map (·.id))

/-- The bytes of an atomic. -/
def AtomOp.len (op : AtomOp) : Nat := if op.wide then 8 else 4

/-- Whether a strand may now be told of an access at a pc that has failed (R193, R412). -/
def mayTell (s : State) (sid : Nat) (pc : Word) : Bool :=
  match look s.strands sid with
  | some st => mayFail st pc
  | none => false

/-- The range that the access of a number has still to touch; one stopped by an uncorrectable error is made again later, and
nothing waits for it meanwhile (R193, R410). -/
def opRange (s : State) (id : Nat) : Option (Nat × Nat) :=
  match s.flight.stores.find? fun x => x.id == id with
  | some op => some (op.pa, op.bytes.length)
  | none =>
    match s.flight.loads.find? fun x => x.id == id with
    | some op => if op.failed then none else some (op.pa, op.len)
    | none =>
      match s.flight.atoms.find? fun x => x.id == id with
      | some op => if op.old.isSome || op.failed then none else some (op.pa, op.len)
      | none => none

/-- Every load of a strand has returned, but for those that an uncorrectable error stopped. -/
def loadsDone (s : State) (sid : Nat) : Bool := s.flight.loads.all fun x => x.sid != sid || x.failed

/-- Every bead-path access of a strand has performed: loads and the reads of atomics have returned, stores are taken, and
pushes are made (R216). -/
def beadDone (s : State) (sid : Nat) : Bool :=
  loadsDone s sid && (s.flight.atoms.all fun x => x.sid != sid || (x.old.isNone && x.failed)) &&
    (s.flight.stores.all fun x => x.sid != sid) && s.flight.spawns.all fun x => x.sid != sid

/-- Every access of a strand on the bead and pixel paths has performed: engine commands are not waited for (R211, R280). -/
def performedAll (s : State) (sid : Nat) : Bool :=
  beadDone s sid && (s.flight.texels.all fun x => x.sid != sid) && s.flight.bins.all fun x => x.sid != sid

/-- No earlier bead-path access of the strand that overlaps a range is still to perform (R199). -/
def firstInOrder (s : State) (sid id pa n : Nat) : Bool :=
  (ownOps s sid).all fun x =>
    decide (x ≥ id) || match opRange s x with
      | some (pa', n') => !overlaps pa n pa' n'
      | none => true

/-! ### Bead-path accesses as they issue -/

/-- A translated access, or what stops it: a fault (R170), or a miss (R172, R174). -/
def beadAccess (i : Issue) (va size : Nat) (path : Path) (need : Need)
    (k : Nat → Nat → Issue → BeadOut) : BeadOut :=
  let a := strandAccess i.st path need
  match translation i.s a va size with
  | (.ok pa key _, s) => k pa key { i with s := s }
  | (.fault cause info, s) => .trap { cause := cause, info := info, addr := va } { i with s := s }
  | (.miss, s) =>
    match joinMiss s a va with
    | (some idx, s) => .block (.miss a.quad idx need va) { i with s := s }
    | (none, s) => .block (.missFull a.quad) { i with s := s }

/-- A fresh number for what is under way. -/
def newFlight (s : State) : Nat × State :=
  (s.flight.nextId, setFlight s fun f => { f with nextId := f.nextId + 1 })

/-- An LPDDR6 read is requested for each line of a range that no cache region holds (R191, R192, R197). -/
def needLines (s : State) (pa n key : Nat) (alloc : Bool) : State :=
  if isLpddr pa then
    (linesOf pa n).foldl (fun s l =>
      if (heldLine s l).isSome then s
      else setFlight s fun f =>
        if f.fills.any fun x => x.line == l then
          { f with fills := mapWhere (fun x => x.line == l) (fun x => { x with alloc := x.alloc || alloc }) f.fills }
        else { f with fills := f.fills ++ [{ line := l, key := key, alloc := alloc }] }) s
  else s

/-- Whether no LPDDR6 read is under way for a range. -/
def linesReady (s : State) (pa n : Nat) : Bool :=
  !isLpddr pa || !s.flight.fills.any fun x => (linesOf pa n).contains x.line

/-- Whether an access may reach the memory of its range: the LPDDR6 read that it waits for has come, and served it, or else no
slot and no change of the cache region's size holds it (R184, R192, R385). -/
def reachable (s : State) (served : Bool) (pa n : Nat) : Bool := linesReady s pa n && (served || !heldBySlot s pa n)

/-- A store meets the conditions of its own strand and of its line. -/
def storeOpen (s : State) (op : StoreOp) : Bool :=
  firstInOrder s op.sid op.id op.pa op.bytes.length && reachable s op.served op.pa op.bytes.length

/-- A write of a strand of a pool quad to its vault's save pool, in a save that the pre-emption of its braid began (R344). -/
def savesToPool (s : State) (sid pa : Nat) : Bool :=
  match look s.strands sid with
  | none => false
  | some st =>
    let v := quadOfCore st.core
    let (o, n) := saveArea (vaultMap s v)
    st.inTrap && st.trap.cause.toNat == 0x11 && inPool s st.core && decide (vaultBase + v * 2 ^ 26 + o ≤ pa) &&
      decide (pa < vaultBase + v * 2 ^ 26 + o + n)

/-- The vault of an address performs a save-pool write of its pre-empted quad before any other write; `sid` is the strand whose
write it is, or whose command's (R344; log 115). -/
def poolFirst (s : State) (sid : Option Nat) (pa : Nat) : Bool :=
  isVault pa && !(sid.any fun k => savesToPool s k pa) &&
    s.flight.stores.any fun x => x.pa / 2 ^ 26 == pa / 2 ^ 26 && savesToPool s x.sid x.pa && storeOpen s x

/-! ### Staging (R200, R219) -/

/-- Whether a braid is the head of its deterministic kernel (R219). -/
def isHead (s : State) (b : Braid) : Bool :=
  let k := lookD s.cmd.kernels b.kernel {}
  (List.range b.index).all fun x => k.released.contains x

/-- The entries that braids other than the head hold in the ordered-release unit over a core (R219). -/
def stagedByOthers (s : State) (core : Nat) : Nat :=
  (s.braids.filter fun e => e.2.core / 4 == core / 4 && !isHead s e.2).foldl (fun n e => n + e.2.staged.length) 0

/-- Whether the unit has room for one more entry of a braid (R219). -/
def stagingRoom (s : State) (bid : Nat) : Bool :=
  let b := lookD s.braids bid {}
  isHead s b || decide (stagedByOthers s b.core < 49152)

/-- ACCESS, reason 0x08 (R219). -/
def stagingFull (va : Nat) : TrapInfo := { cause := causeAccess, info := accInfo 0x08 0, addr := va }

/-- A write staged, if the limits of R219 admit it; its number joins what the strand knows (R208). -/
def stageWrite (i : Issue) (va : Nat) (mk : Nat → Staged) (k : Issue → BeadOut) : BeadOut :=
  if (braidOf i.s i.st).staged.length ≥ 16384 then .trap (stagingFull va) i
  else if !stagingRoom i.s i.st.braid then .block .staging i
  else
    let (id, s) := newWrite i.s
    k { i with
      s := setBraid s i.st.braid fun b => { b with staged := b.staged ++ [mk id] }
      st := { i.st with know := addKnown i.st.know (id, .b) } }

/-! ### Accesses of the device itself on the bead path (R82, R93) -/

/-- What an access of the device itself waits for: the strand's earlier accesses to the range (R199), and LPDDR6 (R184,
R385). -/
def deviceWait (i : Issue) (pa n : Nat) : Option Wait :=
  if !firstInOrder i.s i.sid i.s.flight.nextId pa n then some (.order pa n)
  else if heldBySlot i.s pa n then some (.lines pa n)
  else none

/-- A read of the device itself on the bead path, as of now (R82, R93): the bytes, and the knowledge it adds. In a
deterministic kernel it reads the view of R200. A word with an uncorrectable error reads as it stands (log 103). -/
def readBeadPath (i : Issue) (va pa key n : Nat) (k : List Byte → Issue → BeadOut) : BeadOut :=
  match deviceWait i pa n with
  | some w => .block w i
  | none =>
    let s := openRead (settleZero i.s pa n) pa n key true
    let (r, s) := if isStaged s i.st va n then (readStaged s i.st s.mem.nextWrite pa n, s)
      else readKnown s (joinKnown i.st.know i.st.reads) .b pa n
    k r.bytes { i with s := s, st := noteRead i.st r.writes }

/-- A write of the device itself on the bead path for a strand (R82); in a deterministic kernel it is staged as a store is
(R200). -/
def writeBeadPath (i : Issue) (va pa key : Nat) (bs : List Byte) (k : Issue → BeadOut) : BeadOut :=
  match deviceWait i pa bs.length with
  | some w => .block w i
  | none =>
    let pubs := carriedPubs i.st .b
    if isStaged i.s i.st va bs.length then
      stageWrite i va (fun w => { va := va, pa := pa, key := key, form := 0, bytes := bs, writeId := w, pubs := pubs }) k
    else if poolFirst i.s (some i.sid) pa then .block (.lines pa bs.length) i
    else
      let (id, s) := writeOwn (settleZero i.s pa bs.length) pa key bs (some .b) pubs
      k { i with s := s, st := { i.st with know := addKnown i.st.know (id, .b) } }

end Sys2Proof.Machine
end

