-- ==== Sys2Proof/Machine/Timeline.lean ====
section
/-!
DEFINITION. The times and bands of a stream's strips (R334 to R337), in units of 2^-16 ns.
-/

namespace Sys2Proof.Machine
open Sys2Proof

/-- Strip height S in output lines (R332). -/
def Stream.stripH (x : Stream) : Nat := 8 * 2 ^ x.sh

/-- The numerator of the upscale factor (R332). -/
def Stream.num (x : Stream) : Nat := if x.up = 0 then 1 else if x.up = 2 then 2 else 3

/-- The denominator of the upscale factor (R332). -/
def Stream.den (x : Stream) : Nat := if x.up = 1 then 2 else 1

/-- F_n (R334). -/
def Stream.frameStart (x : Stream) (n : Nat) : Nat := x.tOrigin * 2 ^ 16 + n * x.vTotal * x.lineP

/-- L_n(y) (R334). -/
def Stream.lineTime (x : Stream) (n y : Nat) : Nat := x.frameStart n + (x.vStart + y) * x.lineP

/-- N, the strips of a frame (R334). -/
def Stream.strips (x : Stream) : Nat := ceilDiv x.outH x.stripH

/-- The first output line of strip k and the line after its last (R334). -/
def Stream.outLines (x : Stream) (k : Nat) : Nat × Nat := (k * x.stripH, min ((k + 1) * x.stripH) x.outH)

/-- R_k (R335). -/
def Stream.bound (x : Stream) (k : Nat) : Nat := if k ≥ x.strips then x.rendH else k * x.stripH * x.den / x.num

/-- The render lines of chain k: the first, and the line after the last (R335). -/
def Stream.band (x : Stream) (k : Nat) : Nat × Nat :=
  (if k = 0 then 0 else min (x.bound k + x.halo) x.rendH,
   if k + 1 ≥ x.strips then x.rendH else min (x.bound (k + 1) + x.halo) x.rendH)

/-- The ring lines that strip k's upscale stage reads (R335). -/
def Stream.upLines (x : Stream) (k : Nat) : Nat × Nat :=
  (x.bound k - x.halo, min (x.bound (k + 1) + x.halo) x.rendH)

/-- g_cut (R336). -/
def gCut : Nat := 1000 * 2 ^ 16

/-- D_k (R336). -/
def Stream.deadline (x : Stream) (n k : Nat) : Int := x.lineTime n (k * x.stripH) - gCut

/-- A_k (R336). -/
def Stream.start (x : Stream) (n k : Nat) : Int := x.deadline n k - x.lead * x.stripH * x.lineP

/-- A time in whole nanoseconds, rounded toward −∞, as a 64-bit register shows it (R336). -/
def wholeNs (t : Int) : DWord := BitVec.ofInt 64 (t.fdiv (2 ^ 16))

/-- A stream by number. -/
def streamOf (s : State) (n : Nat) : Stream := lookD s.strips.streams n {}

/-- The stream of a chain, as it was where the chain is left from an earlier use of the stream's number (log 130). -/
def chainStream (s : State) (ch : Chain) : Stream := ch.oldStream.getD (streamOf s ch.stream)

/-- Whether a chain belongs to a stream as it is set now. -/
def Chain.isOf (ch : Chain) (stream : Nat) : Bool := ch.stream == stream && ch.oldStream.isNone

/-- Whether anything of a chain is left: a kernel, a fragment in blend, or strands to be retired. -/
def chainLives (s : State) (c : Nat) (ch : Chain) : Bool :=
  ch.cutAt.isSome || (s.cmd.kernels.any fun e => e.2.chain == some c) || s.strips.frags.any fun f => f.2.chain == c

/-- The time as the strip rules count it. -/
def nowTb (s : State) : Int := s.clk.tb

end Sys2Proof.Machine
end

