-- ==== Sys2Proof/Machine/Flags.lean ====
section
/-!
DEFINITION. Carries, borrows, conditions and classes. The device keeps no carry flag (R104): each of these is the
result of a form.
-/

namespace Sys2Proof.Machine
open Sys2Proof

/-- The carry out of A + B (R104). -/
def carryOut (a b : Word) : Word := BitVec.ofNat 32 ((a.toNat + b.toNat) / 2 ^ 32)

/-- The borrow out of A − B (R104). -/
def borrowOut (a b : Word) : Word := ofBool (decide (a.toNat < b.toNat))

/-- CEQ (R111). -/
def condEq (a b : Word) : Word := ofBool (a == b)
/-- CNE (R111). -/
def condNe (a b : Word) : Word := ofBool (a != b)
/-- CLTU (R111). -/
def condLtu (a b : Word) : Word := ofBool (decide (a.toNat < b.toNat))
/-- CLTS (R111). -/
def condLts (a b : Word) : Word := ofBool (decide (a.toInt < b.toInt))
/-- CLEU (R111). -/
def condLeu (a b : Word) : Word := ofBool (decide (a.toNat ≤ b.toNat))
/-- CLES (R111). -/
def condLes (a b : Word) : Word := ofBool (decide (a.toInt ≤ b.toInt))
/-- CBIT (R111). -/
def condBit (a b : Word) : Word := ofBool (bit a.toNat (b.toNat % 32))

/-- FCEQ (R122). -/
def condFeq (a b : Word) : Word := ofBool (fEqVal (fp a) (fp b))
/-- FCLT (R122). -/
def condFlt (a b : Word) : Word := ofBool (fLtVal (fp a) (fp b))
/-- FCLE (R122). -/
def condFle (a b : Word) : Word := ofBool (fLtVal (fp a) (fp b) || fEqVal (fp a) (fp b))
/-- FCUN (R122). -/
def condFun (a b : Word) : Word := ofBool ((fp a matches .nan) || (fp b matches .nan))

/-- The class bit of FCLASS (R123). -/
def classBit (a : Word) : Nat :=
  match fp a with
  | .nan => 8
  | .inf neg => if neg then 0 else 7
  | .zero neg => if neg then 3 else 4
  | .fin x =>
    let sub := decide (x.log < -126)
    if x.num < 0 then (if sub then 2 else 1) else (if sub then 5 else 6)

/-- FCLASS (R123). -/
def classMask (a : Word) : Word := BitVec.ofNat 32 (2 ^ classBit a)

end Sys2Proof.Machine
end

