-- ==== Sys2Proof/Machine/Alu.lean ====
section
/-!
DEFINITION. The arithmetic of chapters 5 and 6, as functions of register values: integer (R104 to R117), floating
point (R118 to R128), conversions (R129 to R132) and random draws (R153).
-/

namespace Sys2Proof.Machine
open Sys2Proof

/-- SignExt(x, n) of R100. -/
def signExt (n : Nat) (x : Nat) : Word := BitVec.ofInt 32 (signedOf n (x % 2 ^ n))

/-! ### Integers (R104 to R117) -/

/-- MULHU. -/
def mulHu (a b : Word) : Word := BitVec.ofNat 32 (a.toNat * b.toNat / 2 ^ 32)
/-- MULHS. -/
def mulHs (a b : Word) : Word := BitVec.ofInt 32 (a.toInt * b.toInt / 2 ^ 32)
/-- MULHSU. -/
def mulHsu (a b : Word) : Word := BitVec.ofInt 32 (a.toInt * (b.toNat : Int) / 2 ^ 32)

/-- DIVU (R105). -/
def divU (a b : Word) : Word := if b = 0 then 0xFFFFFFFF else BitVec.ofNat 32 (a.toNat / b.toNat)
/-- REMU (R105). -/
def remU (a b : Word) : Word := if b = 0 then a else BitVec.ofNat 32 (a.toNat % b.toNat)
/-- DIVS (R105): the quotient rounded toward zero. -/
def divS (a b : Word) : Word := if b = 0 then 0xFFFFFFFF else BitVec.ofInt 32 (Int.tdiv a.toInt b.toInt)
/-- REMS (R105). -/
def remS (a b : Word) : Word := if b = 0 then a else BitVec.ofInt 32 (a.toInt - b.toInt * Int.tdiv a.toInt b.toInt)

/-- MINU. -/
def minU (a b : Word) : Word := if a.toNat ≤ b.toNat then a else b
/-- MAXU. -/
def maxU (a b : Word) : Word := if a.toNat ≤ b.toNat then b else a
/-- MINS. -/
def minS (a b : Word) : Word := if a.toInt ≤ b.toInt then a else b
/-- MAXS. -/
def maxS (a b : Word) : Word := if a.toInt ≤ b.toInt then b else a

/-- SHL by n. -/
def shlBy (a : Word) (n : Nat) : Word := BitVec.ofNat 32 (a.toNat * 2 ^ n)
/-- SHR by n. -/
def shrBy (a : Word) (n : Nat) : Word := BitVec.ofNat 32 (a.toNat / 2 ^ n)
/-- SAR by n. -/
def sarBy (a : Word) (n : Nat) : Word := BitVec.ofInt 32 (a.toInt / (2 ^ n : Nat))
/-- ROL by n. -/
def rolBy (a : Word) (n : Nat) : Word := shlBy a n ||| shrBy a (32 - n)
/-- The count of R107. -/
def shiftCount (b : Word) : Nat := b.toNat % 32

/-- The number of zero bits above the highest one bit of an n-bit value. -/
def leadZeros : Nat → Nat → Nat
  | 0, _ => 0
  | n + 1, x => if bit x n then 0 else 1 + leadZeros n x
/-- CLZ. -/
def clz32 (a : Word) : Word := BitVec.ofNat 32 (leadZeros 32 a.toNat)
/-- CTZ. -/
def ctz32 (a : Word) : Word :=
  BitVec.ofNat 32 (((List.range 32).find? fun i => bit a.toNat i).getD 32)
/-- POPC. -/
def popc32 (a : Word) : Word := BitVec.ofNat 32 ((List.range 32).countP fun i => bit a.toNat i)

/-- The number whose bit i is f i, for i below n. -/
def gatherBits (n : Nat) (f : Nat → Bool) : Nat :=
  (List.range n).foldl (fun acc i => if f i then acc + 2 ^ i else acc) 0
/-- BREV. -/
def brev32 (a : Word) : Word := BitVec.ofNat 32 (gatherBits 32 fun i => bit a.toNat (31 - i))

/-- The position and length of a bit field (R109). -/
def fieldPos (b : Word) : Nat := bits b.toNat 4 0
/-- The length of a bit field (R109). -/
def fieldLen (b : Word) : Nat := min (bits b.toNat 13 8) (32 - fieldPos b)
/-- v of R109. -/
def fieldVal (a b : Word) : Nat := a.toNat / 2 ^ fieldPos b % 2 ^ fieldLen b
/-- BFXU. -/
def bfxU (a b : Word) : Word := BitVec.ofNat 32 (fieldVal a b)
/-- BFXS. -/
def bfxS (a b : Word) : Word :=
  let v := fieldVal a b
  if fieldLen b > 0 ∧ bit v (fieldLen b - 1) then BitVec.ofInt 32 ((v : Int) - 2 ^ fieldLen b) else BitVec.ofNat 32 v
/-- BFI. -/
def bfIns (a b d : Word) : Word :=
  let m := BitVec.ofNat 32 ((2 ^ fieldLen b - 1) * 2 ^ fieldPos b)
  (d &&& ~~~m) ||| (shlBy a (fieldPos b) &&& m)

/-- ILV2 (R110). -/
def ilv2Of (a b : Word) : Word :=
  BitVec.ofNat 32 (gatherBits 32 fun i => if i % 2 = 0 then bit a.toNat (i / 2) else bit b.toNat (i / 2))
/-- ILV3 (R110). -/
def ilv3Of (a b d : Word) : Word :=
  BitVec.ofNat 32 (gatherBits 30 fun i =>
    if i % 3 = 0 then bit a.toNat (i / 3) else if i % 3 = 1 then bit b.toNat (i / 3) else bit d.toNat (i / 3))
/-- DLV2 (R110). -/
def dlv2Of (a : Word) : Word :=
  BitVec.ofNat 32 (gatherBits 32 fun i => if i < 16 then bit a.toNat (2 * i) else bit a.toNat (2 * (i - 16) + 1))
/-- DLV3 (R110). -/
def dlv3Of (a b : Word) : Word :=
  let c := bits b.toNat 1 0
  if c = 3 then 0 else BitVec.ofNat 32 (gatherBits 10 fun i => bit a.toNat (3 * i + c))

/-- ABS (R112). -/
def absOf (a : Word) : Word := BitVec.ofInt 32 (a.toInt.natAbs : Int)

/-- A 64-bit result as its two words. -/
def words64 (x : DWord) : List Word := [x.lo, x.hi]
/-- SHL64 (R114). -/
def shl64By (a : DWord) (n : Nat) : DWord := BitVec.ofNat 64 (a.toNat * 2 ^ n)
/-- SHRU64 (R114). -/
def shr64By (a : DWord) (n : Nat) : DWord := BitVec.ofNat 64 (a.toNat / 2 ^ n)

/-! ### Floating point (R118 to R128) -/

/-- FFMA, FFMS, FNMA, FNMS: ±(a × b) ± d, rounded once (R120). -/
def fusedOf (negProduct negAddend : Bool) (a b d : Word) : Word :=
  let p := fMulVal (fp a) (fp b)
  let p := if negProduct then fNegVal p else p
  let c := if negAddend then fNegVal (fp d) else fp d
  rn (fAddVal p c)

/-- The canonical NaN (R18). -/
def nan32 : Word := 0x7FC00000

/-- Whether x comes before y with −0 below +0 (R121, R149). -/
def fBelow (x y : FVal) : Bool :=
  match x, y with
  | .zero a, .zero b => a && !b
  | _, _ => fLtVal x y

/-- FMIN, FMAX, FMINN, FMAXN (R121): `greater` chooses the maximum, `number` a number over a NaN. -/
def fPick (greater number : Bool) (a b : Word) : Word :=
  match fp a, fp b with
  | .nan, .nan => nan32
  | .nan, _ => if number then b else nan32
  | _, .nan => if number then a else nan32
  | x, y => if greater then (if fBelow x y then b else a) else (if fBelow y x then b else a)

/-- FABS (R123). -/
def fAbsOf (a : Word) : Word := if (fp a matches .nan) then nan32 else a &&& 0x7FFFFFFF
/-- FNEG (R123). -/
def fNegOf (a : Word) : Word := if (fp a matches .nan) then nan32 else a ^^^ 0x80000000

/-- FRNE, FRTZ, FRDN, FRUP: rounding to an integral value (R124). -/
def fRoundOf (mode : Rnd) (a : Word) : Word :=
  match fp a with
  | .nan => nan32
  | .inf _ | .zero _ => a
  | .fin x =>
    let z := roundInt x mode none 0
    if z = 0 then (if x.num < 0 then 0x80000000 else 0) else rn (.fin ⟨z, 1⟩)

/-- A number truncated toward zero; infinities as integers beyond every bound. -/
def truncOf (v : FVal) : Int :=
  match v with
  | .nan | .zero _ => 0
  | .inf neg => if neg then -(2 ^ 200 : Nat) else (2 ^ 200 : Nat)
  | .fin x => roundInt x .rtz none 0

/-- CVTUF (R125). -/
def cvtUf (a : Word) : Word := rn (Frac.toVal ⟨a.toNat, 1⟩)
/-- CVTSF (R125). -/
def cvtSf (a : Word) : Word := rn (Frac.toVal ⟨a.toInt, 1⟩)
/-- CVTFU (R125). -/
def cvtFu (a : Word) : Word := BitVec.ofInt 32 (satU (truncOf (fp a)) 32)
/-- CVTFS (R125). -/
def cvtFs (a : Word) : Word := BitVec.ofInt 32 (Sys2Proof.sat (truncOf (fp a)) 32)

/-- FSCL (R126). A scale beyond what any finite result can show acts as its bound. -/
def fScale (a b : Word) : Word :=
  match fp a with
  | .nan => nan32
  | .inf _ | .zero _ => a
  | .fin x => rn (.fin (x.scale (max (-1000) (min 1000 b.toInt))))
/-- FEXP (R126). -/
def fExpOf (a : Word) : Word :=
  match fp a with
  | .nan | .inf _ => 0x7FFFFFFF
  | .zero _ => 0x80000000
  | .fin x => BitVec.ofInt 32 x.log
/-- FMNT (R126). -/
def fMntOf (a : Word) : Word :=
  match fp a with
  | .nan => nan32
  | .inf _ | .zero _ => a
  | .fin x => rn (.fin (x.scale (-x.log)))

/-- A packed form: each 16-bit element of the operands in a format, rounded (R127). -/
def packed2 (fmt : Fmt) (f : FVal → FVal → FVal → FVal) (a b d : Word) : Word :=
  let e := fun i => round (f (floatVal fmt (elem a 16 i)) (floatVal fmt (elem b 16 i)) (floatVal fmt (elem d 16 i)))
    fmt .rne false 0
  BitVec.ofNat 32 (e 1 * 2 ^ 16 + e 0)

/-- IDOT4 (R128). -/
def idot4 (sa sb : Bool) (a b d : Word) : Word :=
  let v := fun (sgn : Bool) (x : Nat) => if sgn then signedOf 8 x else (x : Int)
  BitVec.ofInt 32 ((List.range 4).foldl (fun acc i => acc + v sa (elem a 8 i) * v sb (elem b 8 i)) (d.toNat : Int))

/-! ### Conversions (R129 to R132) -/

/-- The element number that CVTN writes (R130). -/
def cvtnPos (fmt : Fmt) (sat : Bool) (pos : Nat) : Nat := if fmt = .e2m1 then sat.toNat * 4 + pos else pos

/-- A word with element p of width w replaced (R131). -/
def withElem (d : Word) (w p c : Nat) : Word :=
  BitVec.ofNat 32 (d.toNat - elem d w p * 2 ^ (w * p) + c % 2 ^ w * 2 ^ (w * p))

/-- CVTN (R131) with the random bits r. -/
def cvtNarrow (fmt : Fmt) (rnd : Rnd) (sat : Bool) (pos r : Nat) (a d : Word) : Word :=
  withElem d fmt.width (cvtnPos fmt sat pos) (convElem (fp a) fmt rnd sat r)

/-- CVTW (R132). -/
def cvtWiden (fmt : Fmt) (pos : Nat) (a : Word) : Word := rn (elemVal fmt (elem a fmt.width pos))

/-! ### Random draws (R153) -/

/-- The rounds of Draw from (hi, lo, key), the number of the next round counted up. -/
def drawRounds : Nat → Nat → Nat → Nat → Nat → Nat
  | 0, _, _, lo, _ => lo
  | n + 1, i, hi, lo, key =>
    let m := if i % 2 = 0 then 0xD2B74407B1CE6E93 else 0xCA5A826395121157
    let p := lo * m
    drawRounds n (i + 1) (p % 2 ^ 64) (p / 2 ^ 64 ^^^ hi ^^^ key) ((key + 0x9E3779B97F4A7C15) % 2 ^ 64)

/-- The 64-bit lo after the six rounds. -/
def drawLo (hi lo key : Nat) : Nat := drawRounds 6 0 hi lo key

end Sys2Proof.Machine
end

