-- ==== Sys2Proof/Machine/Flow.lean ====
section
/-!
DEFINITION. Control flow within a strand: the divergence stack (R75 to R77), the return stacks and their space in
memory (R80 to R82), transfers (R85), the empty mask (R86) and the hardware loops (R87, R88).
-/

namespace Sys2Proof.Machine
open Sys2Proof

/-- DIVERGENCE, decided for the strand (R394). -/
def divergence : TrapInfo := { cause := 0x07, bead := some 255 }

/-- MISALIGNED at an address (R394). -/
def misaligned (addr : Nat) : TrapInfo := { cause := 0x06, addr := addr }

/-- STACK_LIMIT (R394). -/
def stackLimit : TrapInfo := { cause := 0x09 }

/-- ILLEGAL_OPERAND with a reason, before any bead executes (R47). -/
def illegalOperand (info : Nat := 0) : TrapInfo := { cause := 0x02, info := info, bead := some 255 }

/-- A fault is recorded at b, and a block holds its position there (R69, R395). -/
def BeadOut.atBead (o : BeadOut) (b : Nat) : BeadOut :=
  match o with
  | .trap t i => .trap { t with bead := some b } i
  | .block w i => .block w { i with st := { i.st with pos := b } }
  | .ok i => .ok i

/-- A control instruction that stops has changed nothing but the miss records and caches, and the position at which it
blocks (R69, R71). -/
def whole (i : Issue) (o : BeadOut) : BeadOut :=
  let back := fun (x : Issue) =>
    { i with s := { i.s with trans := { x.s.trans with zeroing := i.s.trans.zeroing }, choice := x.s.choice }
             st := { i.st with accFault := x.st.accFault, pos := x.st.pos } }
  match o with
  | .ok x => .ok x
  | .block w x => .block w (back x)
  | .trap t x => .trap t (back x)

/-! ### Geometry of the stack space (R81) -/

/-- The size of a slice: stk_limit with bits [3:0] zero. -/
def sliceSize (st : Strand) : Nat := st.stkLimit.toNat / 16 * 16

/-- The address of divergence entry e. -/
def divAddr (st : Strand) (e : Nat) : Nat := (st.stk.toNat + st.width * sliceSize st + 16 * e) % 2 ^ 64

/-- The address of return entry e of bead j. -/
def retAddr (st : Strand) (j e : Nat) : Nat := (st.stk.toNat + j * sliceSize st + 8 * e) % 2 ^ 64

/-- DivMax of R76; 16 in trap mode (R397). -/
def divMax (st : Strand) : Nat := if st.inTrap then 16 else min 255 (16 + sliceSize st / 16)

/-- RetMax of R81; 4 in trap mode (R397). -/
def retMax (st : Strand) : Nat := if st.inTrap then 4 else 4 + sliceSize st / 8

/-- A read of the stack space for bead j, 255 for the strand (R82). -/
def stackRead (i : Issue) (j va n : Nat) (k : List Byte → Issue → BeadOut) : BeadOut :=
  (beadAccess i va n .b .read fun pa key i => readBeadPath i va pa key n k).atBead j

/-- A write of the stack space for bead j, 255 for the strand (R82). -/
def stackWrite (i : Issue) (j va : Nat) (bs : List Byte) (k : Issue → BeadOut) : BeadOut :=
  (beadAccess i va bs.length .b .write fun pa key i => writeBeadPath i va pa key bs k).atBead j

/-! ### Entries in memory (R75, R80) -/

/-- The kind field of a divergence entry. -/
def DivKind.code : DivKind → Nat
  | .join => 0 | .path => 1 | .xjoin => 2 | .xpath => 3 | .invalid c => c

/-- The kind of a kind field. -/
def divKindOf (c : Nat) : DivKind :=
  if c = 0 then .join else if c = 1 then .path else if c = 2 then .xjoin else if c = 3 then .xpath else .invalid c

/-- The 16 bytes of a divergence entry (R75). -/
def divBytes (e : DivEntry) : List Byte :=
  toLE 16 (e.mask.toNat + e.pc.toNat * 2 ^ 64 + e.kind.code * 2 ^ 96 + e.loop * 2 ^ 104)

/-- The divergence entry of 16 bytes (R75). -/
def divOfBytes (bs : List Byte) : DivEntry :=
  let x := ofLE bs
  { mask := BitVec.ofNat 64 x, pc := BitVec.ofNat 32 (bits x 95 64), kind := divKindOf (bits x 103 96),
    loop := bits x 106 104 }

/-- The 8 bytes of a return entry (R80). -/
def retBytes (e : RetEntry) : List Byte := toLE 8 (e.ret.toNat + e.d0 * 2 ^ 32 + e.l0 * 2 ^ 40)

/-- The return entry of 8 bytes (R80). -/
def retOfBytes (bs : List Byte) : RetEntry :=
  let x := ofLE bs
  { ret := BitVec.ofNat 32 x, d0 := bits x 39 32, l0 := bits x 42 40 }

/-! ### The divergence stack -/

/-- The control-flow part of a strand changed. -/
def setFlow (i : Issue) (f : Flow → Flow) : Issue := { i with st := { i.st with flow := f i.st.flow } }

/-- A push, which spills the oldest of 16 entries on chip (R76, R81). -/
def pushDiv (i : Issue) (e : DivEntry) : BeadOut :=
  let f := i.st.flow
  let put := fun (i : Issue) =>
    BeadOut.ok (setFlow i fun f => { f with divDepth := f.divDepth + 1, divTop := (e :: f.divTop).take 16 })
  if f.divDepth ≥ divMax i.st then .trap { stackLimit with bead := some 255 } i
  else if f.divTop.length < 16 then put i
  else match f.divTop.getLast? with
    | some old => stackWrite i 255 (divAddr i.st (f.divDepth - 16)) (divBytes old) put
    | none => put i

/-- Several pushes, in order. -/
def pushDivs : Issue → List DivEntry → BeadOut
  | i, [] => .ok i
  | i, e :: t => (pushDiv i e).andThen fun i => pushDivs i t

/-- An entry without the bits of retired beads (R76; log 15), nor those at and above W (R60). -/
def DivEntry.cut (st : Strand) (e : DivEntry) : DivEntry := { e with mask := e.mask &&& liveMask st }

/-- The top entry removed, the entry that becomes one of the newest 16 read back (R81). -/
def takeDiv (i : Issue) (k : DivEntry → Issue → BeadOut) : BeadOut :=
  let f := i.st.flow
  match f.divTop with
  | [] => .trap divergence i
  | e :: rest =>
    if f.divDepth > 16 then
      stackRead i 255 (divAddr i.st (f.divDepth - 17)) 16 fun bs i =>
        k (e.cut i.st) (setFlow i fun f => { f with divDepth := f.divDepth - 1, divTop := rest ++ [(divOfBytes bs).cut i.st] })
    else k (e.cut i.st) (setFlow i fun f => { f with divDepth := f.divDepth - 1, divTop := rest })

/-- PopDiv(e) of R76, and what follows. -/
def popDiv (i : Issue) (k : DivEntry → Issue → BeadOut) : BeadOut :=
  match i.st.flow.divTop with
  | [] => .trap divergence i
  | e :: _ =>
    if e.loop > i.st.flow.loops.length ∨ e.kind matches .invalid _ then .trap divergence i
    else takeDiv i fun e i =>
      k e (setFlow i fun f => { f with mask := e.mask, loops := f.loops.drop (f.loops.length - e.loop) })

/-- Whether an entry ends the search of R77. -/
def DivEntry.joins (e : DivEntry) : Bool := e.kind matches .join | .xjoin | .xpath

/-- The topmost joining entry among the n oldest, which lie in memory (R77, R81). -/
def findJoinMem : Nat → Issue → (Option (Nat × DivEntry) → Issue → BeadOut) → BeadOut
  | 0, i, k => k none i
  | n + 1, i, k =>
    stackRead i 255 (divAddr i.st n) 16 fun bs i =>
      if (divOfBytes bs).joins then k (some (n, divOfBytes bs)) i else findJoinMem n i k

/-- The topmost joining entry and its index (R77). -/
def findJoin (i : Issue) (k : Option (Nat × DivEntry) → Issue → BeadOut) : BeadOut :=
  let f := i.st.flow
  match (List.zip (List.range f.divTop.length) f.divTop).find? fun e => e.2.joins with
  | some (p, e) => k (some (f.divDepth - 1 - p, e)) i
  | none => findJoinMem (f.divDepth - f.divTop.length) i k

/-! ### Return stacks -/

/-- The return stack of bead j. -/
def callStack (st : Strand) (j : Nat) : CallStack := lookD st.flow.calls j {}

/-- call_depth of the lowest active bead (R87). -/
def frameNow (st : Strand) : Nat := (callStack st ((activeBeads st).headD 0)).depth

/-- A push on bead j, which spills the oldest of 4 entries on chip (R80, R81). -/
def pushCall (i : Issue) (j : Nat) (e : RetEntry) : BeadOut :=
  let c := callStack i.st j
  let put := fun (i : Issue) =>
    BeadOut.ok (setFlow i fun f => { f with
      calls := putD {} f.calls j { depth := c.depth + 1, top := (e :: c.top).take 4 } })
  if c.top.length < 4 then put i
  else match c.top.getLast? with
    | some old => stackWrite i j (retAddr i.st j (c.depth - 4)) (retBytes old) put
    | none => put i

/-- The same push on several beads. -/
def pushCalls (e : RetEntry) : List Nat → Issue → BeadOut
  | [], i => .ok i
  | j :: t, i => (pushCall i j e).andThen (pushCalls e t)

/-- The top entry of bead j removed, the entry that becomes one of the newest 4 read back (R81). -/
def popCall (i : Issue) (j : Nat) : BeadOut :=
  let c := callStack i.st j
  let put := fun (i : Issue) (back : List RetEntry) =>
    BeadOut.ok (setFlow i fun f => { f with
      calls := putD {} f.calls j { depth := c.depth - 1, top := c.top.drop 1 ++ back } })
  if c.depth > 4 then
    stackRead i j (retAddr i.st j (c.depth - 5)) 8 fun bs i => put i [retOfBytes bs]
  else put i []

/-- The same removal on several beads. -/
def popCalls : List Nat → Issue → BeadOut
  | [], i => .ok i
  | j :: t, i => (popCall i j).andThen (popCalls t)

/-! ### Loops and transfers -/

/-- The program address plus a target (R70). -/
def programAddr (s : State) (st : Strand) (t : Word) : Nat := ((kernelOf s st).lrec.prog + t.toNat) % 2 ^ 64

/-- A level is dormant while the lowest active bead's call_depth differs from its frame (R88). -/
def dormant (st : Strand) (l : LoopLevel) : Bool := frameNow st != l.frame

/-- A target lies in a level's body. -/
def LoopLevel.holds (l : LoopLevel) (t : Word) : Bool := decide (l.start.toNat ≤ t.toNat) && decide (t.toNat < l.stop.toNat)

/-- The end test of R87 at the strand's pc, reached by sequential flow, over the levels left as fuel: whether it passes, and
the strand. Where it faults, the levels that ended before stay discarded. -/
def endTest : Nat → Strand → Bool × Strand
  | 0, st => (true, st)
  | n + 1, st =>
    let f := st.flow
    let asleep := f.loops.takeWhile (dormant st)
    match f.loops.dropWhile (dormant st) with
    | [] => (true, st)
    | l :: outer =>
      if l.stop ≠ st.pc then (true, st)
      else if f.divDepth ≠ l.d then (false, st)
      else if l.lc.toNat ≤ 1 then endTest n { st with flow := { f with loops := asleep ++ outer } }
      else (true, { st with pc := l.start, flow := { f with loops := asleep ++ { l with lc := l.lc - 1 } :: outer } })

/-- Sequential flow to the strand's pc: the end test, whose fault records that pc (R87). -/
def sequential (i : Issue) : BeadOut :=
  match endTest (i.st.flow.loops.length + 1) i.st with
  | (true, st) => .ok { i with st := st }
  | (false, st) => .trap divergence { i with st := st }

/-- The pc moves on to the next instruction (R69, R87). -/
def advance (i : Issue) : BeadOut := sequential { i with st := { i.st with pc := i.st.pc + 4 } }

/-- The levels left by a transfer to t, innermost first; none when it faults with DIVERGENCE (R85). -/
def leaveLevels (st : Strand) (t : Word) : List LoopLevel → Option (List LoopLevel)
  | [] => some []
  | l :: rest =>
    if dormant st l then (leaveLevels st t rest).map (l :: ·)
    else if l.holds t then some (l :: rest)
    else if st.flow.divDepth > l.d then none
    else leaveLevels st t rest

/-- Goto(t) of R85; a Goto to pc + 4 is sequential flow. -/
def goto (i : Issue) (t : Word) : BeadOut :=
  if t = i.st.pc + 4 then advance i
  else match leaveLevels i.st t i.st.flow.loops with
    | none => .trap divergence i
    | some ls => .ok { i with st := { i.st with pc := t, flow := { i.st.flow with loops := ls } } }

/-- A set of active beads with their common target (R77). -/
structure Branch where
  mask : DWord
  target : Word
  deriving DecidableEq, Repr

/-- A bead joins the set of its target; sets stay in the order of their lowest beads. -/
def addBranch (j : Nat) (t : Word) : List Branch → List Branch
  | [] => [⟨1 <<< j, t⟩]
  | b :: rest => if b.target = t then ⟨b.mask ||| 1 <<< j, t⟩ :: rest else b :: addBranch j t rest

/-- The active beads grouped by target, in the order of their lowest beads (R77). -/
def groupBy (targets : List (Nat × Word)) : List Branch := targets.foldl (fun acc x => addBranch x.1 x.2 acc) []

/-- The beads that take a branch and the others, each with its target, without the empty set, in the order of their lowest
beads (R77, R78). -/
def takenSets (vs : List (Nat × Bool)) (there next : Word) : List Branch :=
  let maskOf := fun (b : Bool) => vs.foldl (fun (m : DWord) e => if e.2 = b then m ||| 1 <<< e.1 else m) 0
  let both := [(⟨maskOf true, there⟩ : Branch), ⟨maskOf false, next⟩]
  let sets := match vs with | (_, true) :: _ => both | _ => both.reverse
  sets.filter fun b => b.mask != 0

/-- Split(S) of R77, on sets in the order of their lowest beads. -/
def split (i : Issue) (sets : List Branch) : BeadOut :=
  match sets with
  | [] => .ok i
  | [b] => goto i b.target
  | b1 :: rest =>
    findJoin i fun found i =>
      let f := i.st.flow
      let inner := f.loops.find? fun l => !dormant i.st l
      let d := match inner with | some l => l.d | none => 0
      let d0 := match (callStack i.st ((activeBeads i.st).headD 0)).top with | e :: _ => e.d0 | [] => 0
      match found with
      | none => .trap divergence i
      | some (idx, e) =>
        if e.kind ≠ .join ∨ idx < max d d0 then .trap divergence i
        else if (match f.loops.head? with
            | some l => !dormant i.st l && sets.any fun b => !l.holds b.target
            | none => false) then .trap divergence i
        else if f.divDepth + sets.length - 1 > divMax i.st then .trap { stackLimit with bead := some 255 } i
        else
          (pushDivs i (rest.reverse.map fun b =>
              { kind := .path, mask := b.mask, pc := b.target, loop := f.loops.length })).andThen fun i =>
            .ok { i with st := { i.st with pc := b1.target, flow := { i.st.flow with mask := b1.mask } } }

/-- Unwind of R86, over the divergence depth as fuel: it ends with beads active, or with the mask and the stack
empty, when the strand retires. -/
def unwind : Nat → Issue → BeadOut
  | 0, i => .ok i
  | n + 1, i =>
    if i.st.flow.mask ≠ 0 ∨ i.st.flow.divDepth = 0 then .ok i
    else popDiv i fun e i =>
      if e.kind = .join then
        let i := { i with st := { i.st with pc := e.pc + 4 } }
        if i.st.flow.mask = 0 then unwind n i
        else (sequential i).andThen (unwind n)
      else unwind n { i with st := { i.st with pc := e.pc } }

/-- Unwind where the mask is empty. -/
def unwindAll (i : Issue) : BeadOut := unwind (i.st.flow.divDepth + 1) i

end Sys2Proof.Machine
end

