-- ==== Sys2Proof/Machine/Queues.lean ====
section
/-!
DEFINITION. Queues: status (R291), room (R295), pushing an element and taking one (R293, R294).
-/

namespace Sys2Proof.Machine
open Sys2Proof

/-- The record of a queue (R290). -/
def queueOf (s : State) (qid : Nat) : HwQueue := lookD s.queues qid {}

/-- A queue's record changed. -/
def setQueue (s : State) (qid : Nat) (f : HwQueue → HwQueue) : State :=
  { s with queues := put s.queues qid (f (queueOf s qid)) }

/-- The count of a queue, Wrap(t − h, 32) (R290). -/
def HwQueue.count (q : HwQueue) : Nat := (q.tail + 2 ^ 32 - q.head) % 2 ^ 32

/-- The state field of the status word (R291). -/
def QSt.code : QSt → Nat
  | .free => 0 | .open_ => 1 | .closed => 2 | .drained => 3

/-- The status word (R291). -/
def HwQueue.status (q : HwQueue) : Word :=
  BitVec.ofNat 32 (q.st.code * 2 ^ 30 + q.stopped.toNat * 2 ^ 29 + q.lost.toNat * 2 ^ 28 + q.quota.toNat * 2 ^ 27 +
    q.err.toNat * 2 ^ 26 + (decide (q.spilled > 0)).toNat * 2 ^ 25 + q.ecode % 2 ^ 24)

/-- QUEUE_CLOSED with its reason (R294). -/
def queueClosed (info : Nat) : TrapInfo := { cause := 0x0B, info := info }

/-- QUEUE_QUOTA with its reason (R294). -/
def queueQuota (info : Nat) : TrapInfo := { cause := 0x0A, info := info }

/-! ### Room (R295) -/

/-- The spill units of a queue that holds n spilled elements. -/
def spillUnits (q : HwQueue) (n : Nat) : Nat := ceilDiv (n * q.esize) 8192

/-- The context's spill use without one queue's part. -/
def spillOthers (s : State) (qid ctx : Nat) : Nat :=
  (s.queues.filter fun e => e.1 != qid && e.2.ctx == ctx && e.2.st != .free).foldl
    (fun n e => n + spillUnits e.2 e.2.spilled) 0

/-- Where the next element goes: the ring, the spill ring, or nowhere with the limit met (0 spill_max,
1 spill_quota; R294). -/
inductive Room where
  | ring | spill
  | full (limit : Nat)
  deriving DecidableEq, Repr

/-- The room for the next element of a queue (R295). -/
def roomOf (s : State) (qid : Nat) (q : HwQueue) : Room :=
  if q.spilled = 0 ∧ q.count < 2 ^ q.lslots then .ring
  else if q.spilled ≥ q.spillMax then .full 0
  else if spillOthers s qid q.ctx + spillUnits q (q.spilled + 1) > (lookD s.ctxs q.ctx {}).spillQuota then .full 1
  else .spill

/-- The counts of a queue after one more element. -/
def HwQueue.grown (q : HwQueue) (spill : Bool) : HwQueue :=
  { q with tail := (q.tail + 1) % 2 ^ 32, spilled := if spill then q.spilled + 1 else q.spilled }

/-- The largest number, up to n, of elements for which there is room (R302). -/
def roomFor (s : State) (qid : Nat) : Nat → HwQueue → Nat
  | 0, _ => 0
  | n + 1, q =>
    match roomOf s qid q with
    | .full _ => 0
    | .ring => 1 + roomFor s qid n (q.grown false)
    | .spill => 1 + roomFor s qid n (q.grown true)

/-! ### Elements -/

/-- The ring slot of a sequence number (R290). -/
def ringSlot (q : HwQueue) (seq : Nat) : Nat := q.ringPa + seq % 2 ^ q.lslots * q.esize

/-- The pieces of spill slot k by address, key and length: one, or two where it crosses a page (R289). -/
def spillPieces (q : HwQueue) (k : Nat) : List (Nat × Nat × Nat) :=
  let o := q.spillOff + k % max 1 q.spillMax * q.esize
  let first := min q.esize (8192 - o % 8192)
  let piece := fun (o n : Nat) => match q.spillPages[o / 8192]? with
    | some (pa, key) => [(pa + o % 8192, key, n)]
    | none => []
  piece o first ++ (if first < q.esize then piece (o + first) (q.esize - first) else [])

/-- Bytes written, as one write, over the pieces of a spill slot. -/
def writePieces (s : State) (id : Nat) (path : Path) (pubs : List Pub) : List (Nat × Nat × Nat) → List Byte → State
  | [], _ => s
  | (pa, key, n) :: t, bs =>
    writePieces (writeNow (settleZero s pa n) id pa key (bs.take n) (some path) pubs) id path pubs t (bs.drop n)

/-- The bytes of the pieces of a spill slot. -/
def readPieces (s : State) : List (Nat × Nat × Nat) → List Byte × State
  | [] => ([], s)
  | (pa, key, n) :: t =>
    let (b, s) := readNow s pa key n
    let (r, s) := readPieces s t
    (b ++ r, s)

/-- Every strand that sleeps in SLEEPQ on a port bound to a queue wakes, whether or not an element is left when it pops
(R93, R305). -/
def wakeSleepers (s : State) (qid : Nat) : State :=
  { s with strands := s.strands.map fun e =>
      if e.2.run = .blocked (.queue qid) then (e.1, { e.2 with run := .ready, woken := true }) else e }

/-- An element takes sequence number t and is written, as write number `id` (R293, R295); none when there is no room. -/
def pushElement (s : State) (qid id : Nat) (bs : List Byte) (path : Path) (pubs : List Pub) : Option State :=
  let q := queueOf s qid
  match roomOf s qid q with
  | .full _ => none
  | .ring =>
    let pa := ringSlot q q.tail
    let s := settleZero s pa q.esize
    let s := writeNow s id pa 0 bs (some path) pubs
    some (wakeSleepers (setQueue s qid fun q => q.grown false) qid)
  | .spill =>
    let s := writePieces s id path pubs (spillPieces q (q.spillHead + q.spilled)) bs
    some (wakeSleepers (setQueue s qid fun q => q.grown true) qid)

/-- Elements pushed in order, each as a write of a number, and the sequence numbers they took (R302). -/
def pushAll (s : State) (qid : Nat) (pubs : List Pub) : List (Nat × List Byte) → List Word × State
  | [] => ([], s)
  | (id, bs) :: t =>
    let seq := BitVec.ofNat 32 (queueOf s qid).tail
    match pushElement s qid id bs .b pubs with
    | some s =>
      let (ns, s) := pushAll s qid pubs t
      (seq :: ns, s)
    | none => ([], s)

/-- A SPAWN's reservation at its queue's home (R302): the k elements that have room are pushed, which wakes the strand too if it
sleeps on them; every bead's destination is filled. -/
def reserveSpawn (i : Issue) (op : SpawnOp) : Issue :=
  let s := setFlight i.s fun f => { f with spawns := f.spawns.filter fun x => x.id != op.id }
  let q := queueOf s op.qid
  let k := if q.st = .open_ ∧ ¬ q.stopped then roomFor s op.qid op.elems.length q else 0
  let (ns, s) := pushAll s op.qid op.pubs ((op.ids.zip op.elems).take k)
  let vals := ns ++ List.replicate (op.elems.length - k) 0xFFFFFFFF
  let st := if i.st.run = .blocked (.queue op.qid) ∧ k > 0 then { i.st with run := .ready, woken := true } else i.st
  { i with s := s, st := fillKeys st op.dst vals }

/-- Whether a strand's SPAWN has still to make its reservation at a queue. -/
def spawnsDue (s : State) (sid qid : Nat) : Bool := s.flight.spawns.any fun x => x.sid == sid && x.qid == qid

/-- A strand's reservations at a queue are made before its next request there (R293, R300). -/
def afterSpawns (i : Issue) (qid : Nat) (k : BeadOut) : BeadOut :=
  if spawnsDue i.s i.sid qid then .block (.spawns qid) i else k

/-- Whether LPDDR6 holds a reservation, whose elements may go to the spill ring (R295, R385), or the writes of a save come before
it (R344). -/
def spawnHeld (s : State) (op : SpawnOp) : Bool :=
  let q := queueOf s op.qid
  poolFirst s (some op.sid) q.ringPa || lpddrHeld s && decide (q.spillMax > 0) && (decide (q.spilled > 0) || decide (q.count + op.elems.length > 2 ^ q.lslots))

/-- What a push meets at a queue's record: the fault of R294, if any (log 59). -/
def pushFault (s : State) (qid : Nat) (q : HwQueue) : Option TrapInfo :=
  match q.st with
  | .closed | .drained | .free => some (queueClosed 4)
  | .open_ =>
    if q.stopped then some (queueClosed 3)
    else match roomOf s qid q with
      | .full limit => some (queueQuota limit)
      | _ => none

/-- A push that faults with QUEUE_QUOTA sets `quota` (R291, R294). -/
def notePush (s : State) (qid : Nat) (t : TrapInfo) : State :=
  if t.cause = 0x0A then setQueue s qid fun q => { q with quota := true } else s

/-- What a piece of an element's write waits for: as any access of the device itself, and the writes of a save (R344). -/
def pieceWait (i : Issue) (pa n : Nat) : Option Wait :=
  (deviceWait i pa n).orElse fun _ => if poolFirst i.s (some i.sid) pa then some (.lines pa n) else none

/-- What the write of an element waits for, in the ring or the spill ring: the strand's earlier accesses (R199), LPDDR6 (R385),
and the writes of a save (R344). -/
def pushWait (i : Issue) (qid : Nat) (q : HwQueue) : Option Wait :=
  match roomOf i.s qid q with
  | .ring => pieceWait i (ringSlot q q.tail) q.esize
  | .spill => (spillPieces q (q.spillHead + q.spilled)).findSome? fun p => pieceWait i p.1 p.2.2
  | .full _ => none

/-- A push by a strand: the fault of R294, or the element pushed. -/
def pushBead (i : Issue) (qid : Nat) (bs : List Byte) : BeadOut :=
  afterSpawns i qid
    (let q := queueOf i.s qid
     match pushFault i.s qid q with
     | some t => .trap t { i with s := notePush i.s qid t }
     | none =>
       match pushWait i qid q with
       | some w => .block w i
       | none =>
         let (id, s) := newWrite i.s
         match pushElement s qid id bs .b (carriedPubs i.st .b) with
         | some s => .ok { i with s := s, st := { i.st with know := addKnown i.st.know (id, .b) } }
         | none => .ok i)

/-- The element of a register push: the value in bytes [3:0], zeros above (R292). -/
def elementOfWord (q : HwQueue) (v : Word) : List Byte := toLE q.esize v.toNat

/-- The element of a list of words. -/
def elementOfWords (ws : List Word) : List Byte := ws.flatMap fun w => toLE 4 w.toNat

/-- Word k of an element. -/
def wordOfElement (bs : List Byte) (k : Nat) : Word := BitVec.ofNat 32 (ofLE ((bs.drop (4 * k)).take 4))

/-- Whether a pop would return something: an element in the ring, or the token (R293, R294). -/
def popReady (q : HwQueue) : Bool :=
  decide (q.count > q.spilled) || (q.count == 0 && (q.st == .closed || q.st == .drained))

/-- The queue that a port is bound to. -/
def portQueue (st : Strand) (p : Fin 4) : Nat := lookD st.ports p.val 0

/-- The n-th pop of bead j's part of an instruction: its answer if it has arrived, else a request, at which the bead
waits (R293). -/
def popAt (i : Issue) (j n : Nat) (p : Fin 4) (k : Option (List Byte) × Word → Issue → BeadOut) : BeadOut :=
  match i.st.popped[n]? with
  | some r => k r i
  | none =>
    afterSpawns i (portQueue i.st p)
      (let (id, s) := newFlight i.s
       let op : PopOp := { id := id, sid := i.sid, bead := j, qid := portQueue i.st p }
       .block .pop { i with s := setFlight s fun f => { f with pops := f.pops ++ [op] } })

/-- The n-th pop of bead j's part as a register source: bytes [3:0] of the element, or QUEUE_CLOSED at a token, whose
answer is not kept (R292, R294). -/
def popReg (i : Issue) (j n : Nat) (p : Fin 4) (k : Word → Issue → BeadOut) : BeadOut :=
  popAt i j n p fun r i =>
    match r with
    | (some bs, _) => k (wordOfElement bs 0) i
    | (none, code) =>
      .trap (queueClosed code.toNat) { i with st := { i.st with popped := i.st.popped.take n } }

/-! ### Beads that make several requests (R94, R98, R294) -/

/-- What a register pop reports of the token (R294): 1, or 2 with the code above it. -/
def tokenWord (q : HwQueue) : Word :=
  match q.token with
  | some (_, some c) => BitVec.ofNat 32 (c * 2 ^ 8 + 2)
  | _ => 1

/-- The element at a queue's head is taken by a strand (R293). -/
def takeElement (i : Issue) (qid : Nat) : Issue :=
  let q := queueOf i.s qid
  let pa := ringSlot q q.head
  let s := settleZero i.s pa q.esize
  let (bs, s) := readNow s pa 0 q.esize
  let ws := knownOn .b (newestWrites s pa q.esize)
  { i with
    s := setQueue s qid fun q => { q with head := (q.head + 1) % 2 ^ 32 }
    st := { i.st with popped := i.st.popped ++ [(some bs, 0)], know := joinKnown i.st.know ws,
                      reads := joinKnown i.st.reads ws } }

/-- What the requests of one bead come to: they wait; a pop meets the token or a push faults, before any is made; or all can be
made. -/
inductive Plan where
  | wait
  | token (qid : Nat)
  | fault (t : TrapInfo) (qid : Nat)
  | take
  deriving DecidableEq, Repr

/-- The requests of a bead against the queues as they stand, in their order: pops, of which `seen` come before, then a
push (R96, R294). -/
def planPorts (s : State) (push : Option Nat) : List Nat → List Nat → Plan
  | seen, qid :: t =>
    let q := queueOf s qid
    let m := seen.count qid
    if q.count - q.spilled > m then planPorts s push (qid :: seen) t
    else if q.count = m ∧ (q.st = .closed ∨ q.st = .drained) then .token qid
    else .wait
  | seen, [] =>
    match push with
    | none => .take
    | some qid =>
      let q := queueOf s qid
      match pushFault s qid { q with head := (q.head + seen.count qid) % 2 ^ 32 } with
      | some t => .fault t qid
      | none => .take

/-- The queues that a bead's sources pop, in order. -/
def popQueues (st : Strand) (srcs : List Src) : List Nat :=
  srcs.filterMap fun x => match x.reg with | .q p => some (portQueue st p) | _ => none

/-- The queue that a bead's destination pushes to, if any. -/
def pushQueue (st : Strand) (dsts : List Reg) : Option Nat :=
  dsts.findSome? fun d => match d with | .q p => some (portQueue st p) | _ => none

/-- What the requests of a bead wait for beside their elements: its strand's earlier accesses to the rings (R199), and the write of
the element pushed, at the queue as the pops leave it (R385). -/
def portsWait (i : Issue) (pops : List Nat) (push : Option Nat) : Option Wait :=
  match pops.find? fun qid =>
      let q := queueOf i.s qid
      !firstInOrder i.s i.sid i.s.flight.nextId q.ringPa (2 ^ q.lslots * q.esize) with
  | some qid => some (.order (queueOf i.s qid).ringPa (2 ^ (queueOf i.s qid).lslots * (queueOf i.s qid).esize))
  | none => push.bind fun qid =>
      let q := queueOf i.s qid
      pushWait i qid { q with head := (q.head + pops.count qid) % 2 ^ 32 }

/-- A bead that pops and makes a further request makes them all together, once none of them faults, each pop has its element and
the push need not wait, so that a fault finds nothing popped (R98, R294; log 64). A pop that meets the token drains its queue
(R290). A bead with one request makes it by itself. -/
def withPorts (i : Issue) (srcs : List Src) (dsts : List Reg) (k : Issue → BeadOut) : BeadOut :=
  let pops := popQueues i.st srcs
  let push := pushQueue i.st dsts
  if pops.length ≤ i.st.popped.length ∨ pops.length + push.toList.length ≤ 1 then k i
  else
    match (pops ++ push.toList).find? (spawnsDue i.s i.sid) with
    | some qid => .block (.spawns qid) i
    | none => match planPorts i.s push [] pops with
    | .wait => .block (.ports pops push) i
    | .token qid =>
      let q := queueOf i.s qid
      .trap (queueClosed (tokenWord q).toNat)
        { i with s := if q.count = 0 then setQueue i.s qid fun q => { q with st := .drained } else i.s }
    | .fault t qid => .trap t { i with s := notePush i.s qid t }
    | .take => match portsWait i pops push with
      | some w => .block w i
      | none => k (pops.foldl takeElement i)

end Sys2Proof.Machine
end

