-- ==== Sys2Proof/Machine/Futures.lean ====
section
/-!
DEFINITION. Future records: taking one (R227, R228), final states (R229), and the registers they fill (R230).
-/

namespace Sys2Proof.Machine
open Sys2Proof

/-- A context changed. -/
def setCtx (s : State) (c : Nat) (f : Context → Context) : State := { s with ctxs := upd s.ctxs c f }

/-- A future record changed. -/
def setFuture (s : State) (c r : Nat) (f : Future → Future) : State :=
  setCtx s c fun x => { x with futures := put x.futures r (f (lookD x.futures r {})) }

/-- The handle of a record (R227). -/
def handleOf (c r gen : Nat) : Word := BitVec.ofNat 32 (c * 2 ^ 26 + r * 2 ^ 16 + gen)

/-- The fields of a handle. -/
def handleCtx (h : Word) : Nat := bits h.toNat 31 26
/-- The record index of a handle. -/
def handleRec (h : Word) : Nat := bits h.toNat 25 16

/-- A final state (R229). -/
def FutSt.final : FutSt → Bool
  | .done | .failed | .cancelled => true
  | .free | .pending => false

/-- The record an allocation takes: the free one of lowest index, else the one that ended earliest (R228). -/
def pickRecord (c : Context) : Option Nat :=
  let all := List.range 1024
  match all.find? fun r => (lookD c.futures r {}).st == .free with
  | some r => some r
  | none =>
    all.foldl (fun best r =>
      let f := lookD c.futures r {}
      if f.st.final then
        match best with
        | none => some r
        | some b => if f.order < (lookD c.futures b {}).order then some r else best
      else best) none

/-- An allocation for a command of kernel `kid`, whose issuer knows `know` on the command's path; none when every
record is pending (R228). -/
def allocFuture (s : State) (ctx kid : Nat) (know : List Known) : Option (Word × State) :=
  match pickRecord (lookD s.ctxs ctx {}) with
  | none => none
  | some r =>
    let f := lookD (lookD s.ctxs ctx {}).futures r {}
    let gen := if f.gen = 65535 then 1 else f.gen + 1
    let past := if f.gen = 0 then f.past else (f.gen, f.pub) :: f.past.filter fun p => p.1 != f.gen
    some (handleOf ctx r gen,
      setFuture s ctx r fun _ => { gen := gen, st := .pending, past := past, kernel := kid, know := know })

/-- The registers that hold a handle and wait for its future become full (R230). -/
def fillHandle (h : Word) (m : SMap RegVal) : SMap RegVal :=
  m.map fun e => if e.2.val = h ∧ e.2.fill = .future then (e.1, { e.2 with fill := .futured }) else e

/-- A pending record reaches a final state with the publication of its end (R211, R229). -/
def endFuture (s : State) (c r : Nat) (st : FutSt) (err : Nat) (writes : List Known) : State :=
  let f := lookD (lookD s.ctxs c {}).futures r {}
  if f.st ≠ .pending then s
  else
    let pub := joinKnown writes f.know
    let h := handleOf c r f.gen
    let s := setFuture s c r fun f => { f with
      st := st, err := if st = .failed then err else 0, pub := pub, order := s.eng.ends, cancel := false }
    let s := setKernel s f.kernel fun k => { k with ends := joinKnown k.ends pub }
    { s with
      eng := { s.eng with ends := s.eng.ends + 1 }
      strands := s.strands.map fun e =>
        if e.2.ctx = c then (e.1, { e.2 with breg := fillHandle h e.2.breg, ureg := fillHandle h e.2.ureg }) else e }

/-- The same by handle, where the handle is current. -/
def endHandle (s : State) (h : Word) (st : FutSt) (err : Nat) (writes : List Known) : State :=
  if handleCurrent s h then endFuture s (handleCtx h) (handleRec h) st err writes else s

/-- A cancel on its way to a record, or to the pending constituents of a join, the depth of joins as fuel (R243). -/
def sendCancel : Nat → State → Word → State
  | 0, s, _ => s
  | n + 1, s, h =>
    if handlePending s h then
      match (futureOf s h).join with
      | some (a, b) => sendCancel n (sendCancel n s a) b
      | none => setFuture s (handleCtx h) (handleRec h) fun f => { f with cancel := true }
    else s

end Sys2Proof.Machine
end

