-- ==== Sys2Proof/Machine/TileDesc.lean ====
section
/-!
DEFINITION. The operands of the matrix forms: format slots (R247, R248), tile descriptors (R249, R250), their checks
(R251), and the matrix queue's entries with their checkpoint records (R253, R272, R273).
-/

namespace Sys2Proof.Machine
open Sys2Proof

/-! ### Format slots -/

/-- A format slot (R247). -/
structure FormatSlot where
  loc : Nat
  neg : Bool
  sat : Bool
  rnd : Nat
  lk : Bool
  scale : Nat
  fmt : Nat
  mbz : Bool
  deriving DecidableEq, Repr

/-- The slot of 64 bits (R247). -/
def slotOf (w : DWord) : FormatSlot :=
  let x := w.toNat
  { loc := bits x 63 32, neg := bit x 13, sat := bit x 12, rnd := bits x 11 9, lk := bit x 8, scale := bits x 7 6,
    fmt := bits x 3 0, mbz := bits x 31 14 != 0 || bits x 5 4 != 0 }

/-- Format slot n of a strand's kernel. -/
def slotWord (s : State) (st : Strand) (n : Nat) : DWord := (kernelOf s st).lrec.slots.getD n 0

/-- Reason 0x31 of R251. -/
def FormatSlot.bad (f : FormatSlot) : Bool :=
  decide (f.fmt ≥ 14) || f.scale == 3 || decide (f.rnd ≥ 6) || f.mbz || (f.lk && decide (f.loc ≥ 16))

/-- Reason 0x33 of R251. -/
def FormatSlot.badScale (f : FormatSlot) : Bool :=
  f.scale == 1 && !(f.fmt == 3 || f.fmt == 4 || f.fmt == 5 || f.fmt == 6)

/-- The element width of a slot's format (R14). -/
def FormatSlot.width (f : FormatSlot) : Nat := match Fmt.ofCode f.fmt with | some x => x.width | none => 8

/-- The uniform pair that a slot with lk = 1 names (R247). -/
def slotPair (f : FormatSlot) : Option Nat := if f.lk then some (2 * bits f.loc 3 0) else none

/-- A slot's pair names registers that exist; otherwise reason 0x38 (R251). -/
def slotPairOk (st : Strand) (f : FormatSlot) : Bool :=
  match slotPair f with | some p => decide (p + 1 < st.uregs) | none => true

/-- The registers of a slot's pair. -/
def slotRegs (f : FormatSlot) : List Reg :=
  match slotPair f with
  | some p => if h : p < 32 then pairOf (.uni ⟨p, h⟩) else []
  | none => []

/-- The scale base of an operand at a tile address (R248). -/
def scaleBase (st : Strand) (f : FormatSlot) (addr : Nat) : Nat :=
  if f.scale = 0 then 0
  else match slotPair f with
    | some _ =>
      match slotRegs f with
      | [lo, hi] => (readReg st 0 lo).toNat + (readReg st 0 hi).toNat * 2 ^ 32
      | _ => 0
    | none => (addr + (if f.loc ≥ 2 ^ 31 then f.loc + 2 ^ 64 - 2 ^ 32 else f.loc)) % 2 ^ 64

/-! ### Tile descriptors -/

/-- A tile descriptor (R249). -/
structure TileDesc where
  addr : Nat
  pitch : Nat
  cm : Bool
  swz : Bool
  span : Nat
  rows : Nat
  k : Nat
  mbz : Bool
  deriving DecidableEq, Repr

/-- The descriptor of a quad's four words (R249). -/
def descOf (ws : List Word) : TileDesc :=
  let l := (nth ws 2).toNat
  let e := (nth ws 3).toNat
  { addr := (nth ws 0).toNat + (nth ws 1).toNat * 2 ^ 32, pitch := bits l 31 16, cm := bit l 7, swz := bit l 3,
    span := 16 * 2 ^ bits l 2 0, rows := bits e 15 0, k := bits e 31 16,
    mbz := bits l 15 8 != 0 || bits l 6 4 != 0 }

/-- The byte address and the sub-byte position of element (l, k) with element width eb bits (R250). -/
def descAddr (d : TileDesc) (eb l k : Nat) : Nat × Nat :=
  let row := if d.cm then k else l
  let pos := if d.cm then l else k
  let c := pos * eb / 8
  let c := if d.swz then c / d.span * d.span + 16 * (c % d.span / 16 ^^^ row % (d.span / 16)) + c % 16 else c
  ((d.addr + 16 * d.pitch * row + c) % 2 ^ 64, pos % 2)

/-- The bytes of a stored row (R251). -/
def storedRow (d : TileDesc) (eb : Nat) : Nat := if d.cm then ceilDiv (d.rows * eb) 8 else d.k * eb / 8

/-- Reason 0x37 of R251, without the scale base. -/
def descBad (d : TileDesc) (eb : Nat) : Bool :=
  d.addr % 16 != 0 || decide (16 * d.pitch < storedRow d eb) ||
    (d.swz && (d.addr % d.span != 0 || 16 * d.pitch % d.span != 0))

/-- The first reason that holds. -/
def firstReason (l : List (Bool × Nat)) : Option Nat := (l.find? fun e => e.1).map (·.2)

/-- Whether the array accepts a format pair (R256): formats of A and of B. -/
def mmaPair (a b : Nat) : Bool :=
  if b = 5 then a == 5
  else if b = 6 ∨ b = 3 ∨ b = 4 then a == 5 || a == 3 || a == 4
  else if b = 2 then a == 2 || a == 1
  else false

/-- A scale base that FP32 scales forbid (R251). -/
def baseBad (f : FormatSlot) (base : Nat) : Bool := f.scale == 2 && base % 4 != 0

/-! ### Entries -/

/-- The forms of the matrix queue, by number. -/
def formMma : Nat := 0
/-- ACZ. -/
def formAcz : Nat := 1
/-- ACLD. -/
def formAcld : Nat := 2
/-- ACST. -/
def formAcst : Nat := 3
/-- ACSTR. -/
def formAcstr : Nat := 4
/-- ACLDR. -/
def formAcldr : Nat := 5
/-- ACFOLD. -/
def formAcfold : Nat := 6
/-- MQUANT. -/
def formMquant : Nat := 7
/-- MDEQ. -/
def formMdeq : Nat := 8

/-- The first reason of R251 for which an entry's captured values fail; several at once give the lowest (log 16).
`pairsOk` says that slot pairs exist. -/
def entryReason (e : MEntry) (pairsOk span2 : Bool) : Option Nat :=
  let sa := slotOf e.slotA
  let sb := slotOf e.slotB
  let a := descOf e.opA
  let b := descOf e.opB
  if e.form = formMma then
    firstReason [
      (sa.bad || sb.bad, 0x31), (!mmaPair sa.fmt sb.fmt, 0x32), (sa.badScale || sb.badScale, 0x33),
      (a.mbz || b.mbz, 0x34), (a.k == 0 || a.k % 32 != 0 || b.k != a.k, 0x35),
      (a.rows == 0 || decide (a.rows > 256) || b.rows == 0 || decide (b.rows > if span2 then 512 else 256), 0x36),
      (descBad a sa.width || descBad b sb.width || baseBad sa e.sbaseA.toNat || baseBad sb e.sbaseB.toNat, 0x37),
      (!pairsOk, 0x38)]
  else if e.form = formAcld ∨ e.form = formAcst then
    firstReason [
      (sa.bad, 0x31), (decide (sa.fmt > 6), 0x32), (sa.badScale, 0x33), (a.mbz, 0x34),
      (a.k == 0 || a.k % 32 != 0 || decide (a.k > 256), 0x35), (a.rows == 0 || decide (a.rows > 256), 0x36),
      (descBad a sa.width || baseBad sa e.sbaseA.toNat, 0x37), (!pairsOk, 0x38)]
  else if e.form = formAcstr ∨ e.form = formAcldr then
    firstReason [(((nth e.opA 0).toNat + (nth e.opA 1).toNat * 2 ^ 32) % 128 != 0, 0x38)]
  else if e.form = formMquant ∨ e.form = formMdeq then
    let addr := (nth e.opB 0).toNat + (nth e.opB 1).toNat * 2 ^ 32
    let pitch := (nth e.opB 2).toNat
    firstReason [
      (sa.bad, 0x31), (sa.fmt == 0 || decide (sa.fmt > 6), 0x32), (sa.badScale, 0x33), (a.mbz, 0x34),
      (a.k == 0 || a.k % 32 != 0 || decide (a.k > 256), 0x35), (a.rows == 0 || decide (a.rows > 256), 0x36),
      (descBad a sa.width || baseBad sa e.sbaseA.toNat, 0x37),
      (!pairsOk || decide ((nth e.opB 3).toNat ≥ 8) || addr % 4 != 0 || pitch % 4 != 0 || decide (pitch < 4 * a.k), 0x38)]
  else none

/-- The form and tile number that an instruction word names, for the forms of 0x70 to 0x72 (R273), with its slot
numbers (A, B) and whether an MMA spans the pair. -/
def entryForm : Instr → Option (Nat × Nat × Nat × Nat × Bool)
  | .mma _ acc _ _ sa sb _ sp _ => some (formMma, acc.toNat, sa.toNat, sb.toNat, sp)
  | .acz _ t => some (formAcz, t.toNat, 0, 0, false)
  | .acld _ _ sl t => some (formAcld, t.toNat, sl.toNat, 0, false)
  | .acst _ _ sl t => some (formAcst, t.toNat, sl.toNat, 0, false)
  | .acstr _ _ t => some (formAcstr, t.toNat, 0, 0, false)
  | .acldr _ _ t => some (formAcldr, t.toNat, 0, 0, false)
  | .acfold _ t => some (formAcfold, t.toNat, 0, 0, false)
  | .mquant _ _ _ => some (formMquant, 0, 0, 0, false)
  | .mdeq _ _ _ => some (formMdeq, 0, 0, 0, false)
  | _ => none

/-- Whether a form names a tile. -/
def formTiled (form : Nat) : Bool := !(form == formMquant || form == formMdeq)

/-- The 16 words of an entry's checkpoint record (R272). -/
def recordWords (e : MEntry) : List Word :=
  let four := fun (l : List Word) => [nth l 0, nth l 1, nth l 2, nth l 3]
  [e.insn, BitVec.ofNat 32 e.kdone, e.handle, e.epi] ++ four e.opA ++ four e.opB ++
    [e.sbaseA.lo, e.sbaseA.hi, e.sbaseB.lo, e.sbaseB.hi]

/-- The entry of a checkpoint record, where it is valid; otherwise its future ends failed with 0x0C, if it is current
and pending (R273). `tiles` are the braid's physical tiles and `mate` its follower's (an MMA with s = 1 in a braid without one,
log 126). -/
def entryOfRecord (s : State) (sid : Nat) (st : Strand) (tiles mate : List Nat) (ws : List Word) : Except Word MEntry :=
  let h := nth ws 2
  let word := fun i => DWord.ofPair (nth ws i) (nth ws (i + 1))
  match decode (nth ws 0) with
  | .error _ => .error h
  | .ok ins =>
    match entryForm ins with
    | none => .error h
    | some (form, tile, na, nb, span2) =>
      let opB := [nth ws 8, nth ws 9, nth ws 10, nth ws 11]
      let na := if formTiled form then na else (nth opB 3).toNat % 8
      let e : MEntry :=
        { insn := nth ws 0, form := form, sid := sid, bid := st.braid, ctx := st.ctx,
          tile := tiles.getD tile 0, tile2 := if span2 then mate.getD tile 0 else 0,
          opA := [nth ws 4, nth ws 5, nth ws 6, nth ws 7], opB := opB, sbaseA := word 12, sbaseB := word 14,
          slotA := slotWord s st na, slotB := slotWord s st nb,
          neg := (slotOf (slotWord s st na)).neg != (slotOf (slotWord s st nb)).neg,
          epi := nth ws 3, drawHi := st.kernel * 2 ^ 32 + (braidOf s st).index, drawSeed := (kernelOf s st).seed.toNat,
          handle := h, kdone := (nth ws 1).toNat, resumed := decide ((nth ws 1).toNat > 0),
          know := (futureOf s h).know, pubs := (futureOf s h).pubs }
      let k := (descOf e.opA).k
      if (formTiled form && decide (tile ≥ tiles.length)) || (entryReason e true span2).isSome ||
          !(handlePending s h && handleCtx h == st.ctx) ||
          (if form = formMma then e.kdone % 64 != 0 || decide (e.kdone ≥ k) else e.kdone != 0) then .error h
      else .ok e

/-! ### The queue -/

/-- The matrix queue of a core (R253). -/
def queueOfCore (s : State) (core : Nat) : List MEntry := lookD s.eng.mq core []

/-- The matrix queue of a core replaced. -/
def setMq (s : State) (core : Nat) (q : List MEntry) : State := { s with eng := { s.eng with mq := putD [] s.eng.mq core q } }

/-- Entries join the queue of a core, each with its place in the order of issue (R253). -/
def enqueueEntries (s : State) (core : Nat) : List MEntry → State
  | [] => s
  | e :: t =>
    let (n, s) := newFlight s
    enqueueEntries (setMq s core (queueOfCore s core ++ [{ e with seq := n }])) core t

/-- The records that wait to re-enter the queue of a core (R273). -/
def waitingAt (s : State) (core : Nat) : List MEntry := (s.eng.waiting.filter fun e => e.1 == core).map (·.2)

/-- The records that wait at a core replaced. -/
def setWaiting (s : State) (core : Nat) (es : List MEntry) : State :=
  { s with eng := { s.eng with waiting := (s.eng.waiting.filter fun e => e.1 != core) ++ es.map fun e => (core, e) } }

/-- Records that wait to re-enter do so as the queue has room (R273). -/
def reenterRecords (s : State) (core : Nat) : State :=
  let n := 8 - (queueOfCore s core).length
  let es := waitingAt s core
  setWaiting (enqueueEntries s core (es.take n)) core (es.drop n)

end Sys2Proof.Machine
end

