-- ==== Sys2Proof/Machine/Ops.lean ====
section
/-!
DEFINITION. The shared operations of the instructions: retiring (R86, R277, R321), taking a trap (R394 to R401) and
returning from one (R410, R412), and the run of an instruction over its beads (R47, R59, R69).
-/

namespace Sys2Proof.Machine
open Sys2Proof

/-- The outcome of a step. -/
abbrev Out := Host.Outcome State Fault Refusal

/-! ### Hinges (R274 to R277) -/

/-- The other braid of a locket, while it has a record. -/
def mateOf (s : State) (b : Braid) : Option Nat := b.mate.filter fun m => (look s.braids m).isSome

/-- The braid that holds a hinge: a pair hinge is held with the leader (R277), and with the follower once the leader is
gone. -/
def hingeHome (s : State) (st : Strand) (h : Nat) : Nat :=
  if h < 16 then st.braid
  else
    let b := braidOf s st
    if b.leader then st.braid else (mateOf s b).getD st.braid

/-- The member number of a strand at a hinge (R274). -/
def hingeMember (s : State) (st : Strand) (h : Nat) : Nat :=
  if h < 16 then st.sx else if (braidOf s st).leader then st.sx else 16 + st.sx

/-- A hinge of a braid. -/
def hingeOfBraid (s : State) (bid h : Nat) : Hinge := lookD (lookD s.braids bid {}).hinges h {}

/-- A hinge changed. -/
def setHinge (s : State) (bid h : Nat) (f : Hinge → Hinge) : State :=
  setBraid s bid fun b => { b with hinges := put b.hinges h (f (lookD b.hinges h {})) }

/-- The phase completes when every member has arrived (R276). -/
def hingeTest (hg : Hinge) : Hinge :=
  if hg.members ≠ 0 ∧ hg.arrived &&& hg.members = hg.members then
    { hg with
      phase := !hg.phase, arrived := 0, done := hg.pubs, pubs := []
      st := hg.st.map fun e => match e.2 with
        | .pending _ => (e.1, .passed)
        | a => (e.1, a) }
  else hg

/-- A member that retires leaves the member set, and its arrival is removed (R277). -/
def hingeLeave (hg : Hinge) (m : Nat) : Hinge :=
  let clear := fun x => if bit x m then x - 2 ^ m else x
  hingeTest { hg with members := clear hg.members, arrived := clear hg.arrived, st := del hg.st m }

/-- A strand leaves every hinge it belongs to. -/
def leaveHinges (s : State) (st : Strand) : State :=
  (List.range 24).foldl (fun s h =>
    let bid := hingeHome s st h
    let m := hingeMember s st h
    if bit (hingeOfBraid s bid h).members m then setHinge s bid h fun hg => hingeLeave hg m else s) s

/-! ### Retiring -/

/-- A bead's fragment handed to blend with a colour, or discarded (R375). -/
def handFragment (s : State) (st : Strand) (fb : FragBead) (color : Option (List Word)) (z : Option Word)
    (sid : Nat := 0) : State :=
  match (kernelOf s st).chain with
  | none => s
  | some c =>
    let f : Fragment :=
      { chain := c, kernel := st.kernel, bead := { fb with emitted := true }, color := color, zOver := z, sid := sid
        pubs := carriedPubs st .x }
    { s with strips := { s.strips with
        frags := put s.strips.frags s.strips.nextFrag f, nextFrag := s.strips.nextFrag + 1 } }

/-- The fragments of beads that retire without emitting are discarded (R375). -/
def discardFrags (s : State) (st : Strand) (beads : DWord) : State :=
  (st.frags.filter fun e => beads.getLsbD e.1 && !e.2.emitted && !e.2.helper).foldl
    (fun s e => handFragment s st e.2 none none) s

/-- What is due to a strand that retires is discarded; stores and atomics under way still perform (R86). Its entries of the
special-function queue are free at once (R136; log 101). -/
def dropDue (s : State) (sid : Nat) : State :=
  setFlight s fun f => { f with
    loads := f.loads.filter fun x => x.sid != sid
    sfu := f.sfu.filter fun x => x.sid != sid
    pops := f.pops.filter fun x => x.sid != sid
    texels := f.texels.filter fun x => x.sid != sid
    bins := mapWhere (fun x => x.sid == sid) (fun x => { x with dst := none }) f.bins
    atoms := f.atoms.filter fun x => x.sid != sid || (x.old.isNone && !x.failed) }

/-- What is due to the registers of beads that retire is discarded (R86); their entries of the special-function queue are free at
once (R136; log 101). -/
def dropBeads (s : State) (sid : Nat) (beads : DWord) : State :=
  let hit := fun (x j : Nat) => x == sid && decide (j < 64) && beads.getLsbD j
  setFlight s fun f => { f with
    loads := f.loads.filter fun x => !hit x.sid x.bead
    sfu := f.sfu.filter fun x => !hit x.sid x.bead
    texels := f.texels.filter fun x => !hit x.sid x.bead
    bins := mapWhere (fun x => hit x.sid x.bead) (fun x => { x with dst := none }) f.bins
    atoms := (f.atoms.filter fun x => !hit x.sid x.bead || (x.old.isNone && !x.failed)).map fun x =>
      if hit x.sid x.bead then { x with dst := [], bead := 254 } else x }

/-- Pins that a braid holds by MPIN are released (R270). -/
def dropBraidPins (s : State) (bid : Nat) : State :=
  setLines s (s.vaults.lines.map fun l => { l with pinBraid := l.pinBraid.filter fun p => p.1 != bid })

/-- A braid is released (R218, R321); the pair hinges that a leader held stay with the follower (R277). -/
def releaseBraid (s : State) (bid : Nat) : State :=
  match look s.braids bid with
  | none => s
  | some b =>
    let s := setKernel s b.kernel fun k => { k with released := b.index :: k.released }
    let s := match b.leader, mateOf s b with
      | true, some m => setBraid s m fun f => { f with hinges :=
          (b.hinges.filter fun (e : Nat × Hinge) => decide (e.1 ≥ 16)).foldl (fun (hs : SMap Hinge) (e : Nat × Hinge) => put hs e.1 e.2) f.hinges }
      | _, _ => s
    { s with braids := del s.braids bid }

/-- The lanes, tiles and window of a braid that leaves its core are freed, and pass through the zero engine (R163,
R186, R252). -/
def freePlace (s : State) (b : Braid) : State :=
  let n := bwSize s b
  let s := if n > 0 then startZero s { pa := vaultPa (b.core / 4) b.winOff, len := n, ctx := some b.ctx } else s
  b.tiles.foldl (fun s t => startZero s { pa := 0, len := 0, ctx := some b.ctx, tile := some (b.core * 3 + t) }) s

/-- The last strand of a braid has retired (R321). -/
def retireBraid (s : State) (bid : Nat) : State :=
  match look s.braids bid with
  | none => s
  | some b =>
    let k := lookD s.cmd.kernels b.kernel {}
    let s := if b.st = .placed then freePlace s b else s
    let s := startZero s { pa := vaultPa b.saveVault b.saveOff, len := k.lrec.save * 65536, ctx := some b.ctx }
    let s := dropBraidPins s bid
    let s := setBraid s bid fun b => { b with st := .retired, capture := false, tiles := [] }
    if k.lrec.det then s else releaseBraid s bid

/-- A strand that a miss record counts although it has left for a save is counted no longer (R322). -/
def leaveWaits (s : State) (st : Strand) : State :=
  match st.waits with
  | some (q, r, _) => leaveMiss s q r (strandWho st)
  | none => s

/-- A strand retires: it leaves its hinges, what is due to it is discarded, its knowledge joins its kernel's, and its
braid retires with its last strand (R69, R86, R211, R277, R321). -/
def retireStrand (s : State) (sid : Nat) : State :=
  match look s.strands sid with
  | none => s
  | some st =>
    let s := match st.run with
      | .blocked (.miss q r _ _) => leaveMiss s q r (strandWho st)
      | _ => leaveWaits s st
    let s := discardFrags s st (liveMask st)
    let s := dropDue s sid
    let s := leaveHinges s st
    let s := setKernel s st.kernel fun k => { k with ends := joinKnown k.ends st.know }
    let s := { s with strands := del s.strands sid }
    if s.strands.any fun e => e.2.braid == st.braid then s else retireBraid s st.braid

/-- Beads retire: their bits leave the mask and every entry on chip, and their return stacks and what is due to their
registers go (R76, R86; of entries in stack memory, log 15). -/
def retireBeads (i : Issue) (beads : DWord) : Issue :=
  let s := dropBeads (discardFrags i.s i.st beads) i.sid beads
  { i with
    s := s
    st := { i.st with
      retired := i.st.retired ||| beads
      frags := i.st.frags.map fun e => if beads.getLsbD e.1 then (e.1, { e.2 with emitted := true }) else e
      flow := { i.st.flow with
        mask := i.st.flow.mask &&& ~~~beads
        divTop := i.st.flow.divTop.map fun e => { e with mask := e.mask &&& ~~~beads }
        calls := i.st.flow.calls.filter fun e => !beads.getLsbD e.1 } } }

/-! ### Taking a trap -/

/-- The strand returned to the state. -/
def commit (i : Issue) : State := { i.s with strands := put i.s.strands i.sid i.st }

/-- The value of an absent entry in a launch record (R312). -/
def noEntry : Word := 0xFFFFFFFF

/-- A strand halts at the instruction that faulted, and a HALT event is posted (R399). -/
def haltWith (i : Issue) (cause handled : Nat) (at_ : Word) : State :=
  let st := i.st
  let data := cause + handled % 256 * 2 ^ 8 + st.trap.bead.toNat % 256 * 2 ^ 16 + st.core * 2 ^ 24 + st.lane * 2 ^ 32 +
    st.slot * 2 ^ 40 + st.kernel * 2 ^ 64 + at_.toNat * 2 ^ 96
  postEvent (commit { i with st := { st with run := .halted cause } }) 0xFFFF st.ctx 0x0009 data

/-- A pop request is withdrawn, with nothing taken (R294, R396). -/
def withdrawPops (i : Issue) : Issue :=
  { i with s := setFlight i.s fun f => { f with pops := f.pops.filter fun x => x.sid != i.sid } }

/-- Trap registers recorded, the interrupted control flow set aside, and the handler's begun (R396). What is still due to
the strand is delivered before the handler's first instruction: until then it is entering. -/
def setAside (st : Strand) (t : TrapInfo) (pc : Word) (bead : Nat) : Strand :=
  { st with
    trap := { cause := BitVec.ofNat 32 t.cause, bead := BitVec.ofNat 32 bead, pc := pc,
              info := BitVec.ofNat 32 t.info, mask := st.flow.mask, addr := BitVec.ofNat 64 t.addr }
    inTrap := true
    savedFlow := st.flow, savedPos := st.pos, savedStamp := some (st.pc, st.stamp)
    flow := { mask := liveMask st, winBase := st.flow.winBase }
    pos := 0, popped := [], run := .ready, accFault := none, insn := none, srHeld := [],
    woken := false, resuming := false, entering := true }

/-- A cause for which a braid is saved (R271, R408). -/
def savingCause (c : Nat) : Bool := c == 0x11 || c == 0x12 || c == 0x15

/-- Capture of the braid's matrix work begins at the first trap entry of a save (R271; log 17). -/
def beginCapture (s : State) (bid cause : Nat) : State :=
  if savingCause cause && !(lookD s.braids bid {}).saving then
    dropBraidPins (setBraid s bid fun b => { b with saving := true, capture := true }) bid
  else s

/-- A strand blocked on a miss record gives up its place; for a save it stays counted in `waiters` (R322, R408). -/
def leavesMiss (i : Issue) (cause : Nat) : Issue :=
  match i.st.run with
  | .blocked (.miss q r need va) =>
    if cause = 0x11 ∨ cause = 0x15 then { i with st := { i.st with waits := some (q, r, need == .fetch, va) } }
    else { i with s := leaveMiss i.s q r (strandWho i.st) }
  | _ => i

/-- THE ONE WAY INTO A HANDLER: a trap taken with a cause, at a program counter and a bead (R395 to R401). In trap mode
it is a double fault (R399). A kernel without a trap entry halts the strand, or retires it at a cutoff (R401). -/
def takeTrapAt (i : Issue) (t : TrapInfo) (pc : Word) (bead : Nat) : State :=
  if i.st.inTrap then haltWith i t.cause i.st.trap.cause.toNat (t.at_.getD pc)
  else
    let i := withdrawPops (leavesMiss i t.cause)
    let k := kernelOf i.s i.st
    let at_ := i.st.pc
    let was := i.st
    let i := { i with st := setAside i.st t pc bead }
    if k.lrec.trap = noEntry then
      if t.cause = 0x12 then retireStrand (commit i) i.sid
      else haltWith { i with st := { i.st with pc := at_, inTrap := false, flow := was.flow } } t.cause 0 (t.at_.getD pc)
    else
      commit { i with s := beginCapture i.s i.st.braid t.cause, st := { i.st with pc := k.lrec.trap } }

/-- A synchronous fault, at the bead that executes unless it was decided for the strand (R395). -/
def takeTrap (i : Issue) (t : TrapInfo) : State := takeTrapAt i t i.st.pc (t.bead.getD i.st.pos)

/-- The order in which asynchronous causes are taken (R412). -/
def asyncOrder : List Nat := [0x12, 0x15, 0x11, 0x13]

/-- The held cause that is taken first, and the others. -/
def pickHeld (held : List Async) : Option (Async × List Async) :=
  asyncOrder.findSome? fun c => takeFirst (fun a => a.cause == c) held

/-- The bead at which an asynchronous cause finds the strand: where it blocked, or 0xFF at an instruction boundary
(R395). -/
def asyncBead (st : Strand) : Nat :=
  match st.run with
  | .blocked _ => st.pos
  | _ => if st.pos = 0 ∧ ¬ st.resuming then 255 else st.pos

/-- The first held asynchronous cause is taken (R395, R412). A parked or halted strand takes none. -/
def takeAsync (i : Issue) : State :=
  match i.st.run with
  | .parked | .halted _ => commit i
  | _ =>
    match pickHeld i.st.held with
    | none => commit i
    | some (a, rest) =>
      let i := { i with st := { i.st with held := rest } }
      if a.cause = 0x13 then
        takeTrapAt { i with st := { i.st with pos := asyncBead i.st } } { cause := 0x13, info := i.st.pc.toNat, addr := a.addr.toNat } a.pc a.bead
      else takeTrapAt i { cause := a.cause, info := a.info.toNat } i.st.pc (asyncBead i.st)

/-! ### Blocking, completing -/

/-- What an instruction has come to: completed, blocked at its position, or faulted (R69). A strand with no unretired
bead, or with an empty mask and no pending entry, retires (R86). -/
def settle (o : BeadOut) : State :=
  match o with
  | .ok i =>
    let st := { i.st with
      run := .ready, pos := 0, popped := [], accFault := none, insn := none, srHeld := [], woken := false }
    let s := commit { i with st := st }
    if liveMask st = 0 ∨ (st.flow.mask = 0 ∧ st.flow.divDepth = 0) then retireStrand s i.sid else s
  | .block w i => commit { i with st := { i.st with run := .blocked w, blockedAt := i.s.clk.tb } }
  | .trap t i => takeTrap i t

/-- The strand that issues. -/
def issueOf (s : State) : Option Issue := (look s.strands s.cur).map fun st => { s := s, sid := s.cur, st := st }

/-- The run of an instruction by the strand that issues. An RTT that resumed here fixed no arrival: the sync register
is cleared, unless the instruction is the HSYNC that `keep` names (R279). -/
def onStrandKeep (s : State) (keep : Option Nat) (f : Issue → BeadOut) : Out :=
  match issueOf s with
  | none => .fault .noStrand
  | some i =>
    let sync := if i.st.resuming && i.st.sync != keep then none else i.st.sync
    .next (settle (f { i with st := { i.st with resuming := false, sync := sync } }))

/-- The run of any instruction but HSYNC. -/
def onStrand (s : State) (f : Issue → BeadOut) : Out := onStrandKeep s none f

/-! ### Forms -/

/-- HANDLER_FORBIDDEN (R398). -/
def handlerForbidden : TrapInfo := { cause := 0x0E, bead := some 255 }

/-- The checks before any bead executes: the forms a handler may not use, then check 4 (R47, R398). -/
def guarded (i : Issue) (forbid ok : Bool) (k : BeadOut) : BeadOut :=
  if i.st.inTrap && forbid then .trap handlerForbidden i
  else if !ok then .trap illegalOperand i
  else k

/-- The bead at which a strand resumes; 0xFF, or a uniform instruction's place, is the start (R410). -/
def startBead (st : Strand) : Nat := if st.pos = 255 then 0 else st.pos

/-- Whether a wait begins after a read that has performed (R93, R285). -/
def Wait.hasRead : Wait → Bool
  | .word _ _ _ _ _ | .signal _ _ _ _ _ _ => true
  | _ => false

/-- A bead that has not completed has added nothing to what its strand knew, `st` (R217); a sleeper keeps what its read
returned. -/
def BeadOut.unlearnt (o : BeadOut) (st : Strand) : BeadOut :=
  let back := fun (i : Issue) => { i with st := { i.st with know := st.know, reads := st.reads } }
  match o with
  | .ok i => .ok i
  | .trap t i => .trap t (back i)
  | .block w i => .block w (if w.hasRead then i else back i)

/-- The same part for each bead, in order; what a bead popped is done with when it completes. -/
def eachBead (f : Nat → Issue → BeadOut) : List Nat → Issue → BeadOut
  | [], i => .ok i
  | j :: t, i =>
    ((f j { i with st := { i.st with pos := j } }).unlearnt i.st).andThen fun i =>
      eachBead f t { i with st := { i.st with popped := [] } }

/-- The active beads from the one at which the instruction stopped (R59, R69, R410). -/
def beadsLeft (st : Strand) : List Nat := (activeBeads st).filter fun j => decide (startBead st ≤ j)

/-- A bead form on the beads left. -/
def runBeads (f : Nat → Issue → BeadOut) (i : Issue) : BeadOut := eachBead f (beadsLeft i.st) i

/-- A uniform form, once for the strand; its faults record 0xFF (R44). -/
def runUniform (f : Issue → BeadOut) (i : Issue) : BeadOut :=
  ((f { i with st := { i.st with pos := 255 } }).unlearnt i.st).atBead 255

/-- A whole form: checks, then its beads or its single part, then the next instruction. -/
def runForm (forbid ok uniform : Bool) (f : Nat → Issue → BeadOut) (i : Issue) : BeadOut :=
  guarded i forbid ok
    ((if uniform then runUniform (f 255) i else runBeads f i).andThen advance)

/-- The sources of bead j read in order, q-ports popped (R94, R96). Registers that a future filled are acquired
(R211). -/
def readAll (j : Nat) : List Src → Nat → Issue → (List Word → Issue → BeadOut) → BeadOut
  | [], _, i, k => k [] i
  | x :: t, n, i, k =>
    match x.reg with
    | .q p => popReg i j n p fun v i => readAll j t (n + 1) i fun vs i => k (v :: vs) i
    | r => readAll j t n (acquireRegs i j [r]) fun vs i => k (readReg i.st j r :: vs) i

/-- A result written to a register, or pushed to a q-port (R37, R96). -/
def writeDst (j : Nat) (d : Reg) (v : Word) (i : Issue) : BeadOut :=
  match d with
  | .q p => pushBead i (portQueue i.st p) (elementOfWord (queueOf i.s (portQueue i.st p)) v)
  | r => .ok { i with st := writeReg i.st j r v }

/-- Results written in order. -/
def writeAll (j : Nat) : List Reg → List Word → Issue → BeadOut
  | d :: ds, v :: vs, i => (writeDst j d v i).andThen (writeAll j ds vs)
  | _, _, i => .ok i

/-- One bead's part of a form of class I or F: sources tested and read, results written (R42, R43, R94). -/
def beadOp (srcs : List Src) (dsts : List Reg) (f : List Word → List Word) (j : Nat) (i : Issue) : BeadOut :=
  readyOr i j srcs dsts (withPorts i srcs dsts fun i => readAll j srcs 0 i fun vs i => writeAll j dsts (f vs) i)

/-- A handle left in a future destination, which stays empty while the future is pending (R230). -/
def writeHandle (i : Issue) (j : Nat) (d : Reg) (h : Word) (pending : Bool) : Issue :=
  match regKey i.st j d with
  | some k => { i with st := setKey i.st k { val := h, fill := if pending then .future else .full } }
  | none => i

/-- The 64-bit value of a pair that bead j reads. -/
def readPair (st : Strand) (j : Nat) (r : Reg) : DWord :=
  match pairOf r with
  | [lo, hi] => DWord.ofPair (readReg st j lo) (readReg st j hi)
  | _ => 0

/-- The texture reads of a strand that a FENCE naming both paths sets before a command on a path (R212). -/
def readsBefore (s : State) (sid : Nat) (q : Path) : List Nat :=
  (s.flight.texels.filter fun x => x.sid == sid && bit x.fenced q.bit).map (·.id)

/-- Whether every read that a command's writes come after has performed (R212). -/
def afterReads (s : State) (after : List Nat) : Bool := s.flight.texels.all fun x => !after.contains x.id

/-- Whether an LGET has a local write that a party knows and that has not performed on a range (R209, R420). -/
def awaitsLink (s : State) (know : List Known) (q : Path) (pa n : Nat) : Bool :=
  s.eng.links.any fun x => (List.range (x.flits - x.acked)).any fun k =>
    let f := x.acked + k
    x.form == 1 && know.contains (x.firstId + f, q) &&
      match (translation s { ctx := x.ctx, quad := quadOfCore x.core, path := some .l, need := .write, given := x.given.toList } (x.laddr + 64 * f)
        (min 64 (x.len - 64 * f))).1 with
      | .ok pa' _ _ => overlaps pa' (min 64 (x.len - 64 * f)) pa n
      | _ => false

/-- Whether a write that a party knows on a path has not yet performed on a range, a staged one not been released (R209, R218).
The party's own accesses keep their own order (R199). -/
def awaitsWrite (s : State) (sid : Option Nat) (know : List Known) (q : Path) (pa n : Nat) : Bool :=
  awaitsLink s know q pa n ||
  (s.braids.any fun b => b.2.staged.any fun x => overlaps x.pa x.bytes.length pa n && know.contains (x.writeId, q)) ||
  (s.flight.stores.any fun x => some x.sid != sid && overlaps x.pa x.bytes.length pa n && know.contains (x.writeId, q)) ||
  (s.flight.atoms.any fun x => some x.sid != sid && x.old.isNone && overlaps x.pa (if x.wide then 8 else 4) pa n &&
    know.contains (x.writeId, q))

/-- A read of the device itself on the bead path, once every write that the strand knows has performed. -/
def readWhen (i : Issue) (va pa key n : Nat) (k : List Byte → Issue → BeadOut) : BeadOut :=
  if !isStaged i.s i.st va n && awaitsWrite i.s (some i.sid) i.st.know .b pa n then .block (.stores pa n) i
  else readBeadPath i va pa key n k

/-! ### Returning from a trap -/

/-- The access of a fetch (R170, R174). -/
def fetchAccess (st : Strand) : Accessor :=
  { ctx := st.ctx, core := some st.core, quad := quadOfCore st.core, bid := some st.braid, need := .fetch,
    given := st.given.toList, who := strandWho st }

/-- The word at the pc as memory holds it, where a translation cache maps it. -/
def wordAhead (i : Issue) : Option Word :=
  match translation i.s (fetchAccess i.st) (programAddr i.s i.st i.st.pc) 4 with
  | (.ok pa key _, s) => some (wordOfBytes (readNow (settleZero s pa 4) pa key 4).1)
  | _ => none

/-- RTT at an instruction that is no HSYNC of the hinge in sync clears sync (R279). Where no cache maps the word, the instruction
itself does so as it issues (log 120). -/
def resumeSync (i : Issue) : Issue :=
  match i.st.sync, (wordAhead i).map decode with
  | some h, some (.ok (.hsync k)) => if k.val = h then i else { i with st := { i.st with sync := none } }
  | _, none => i
  | _, some _ => { i with st := { i.st with sync := none } }

/-- The strand as the state holds it: what befalls its registers outside its own instruction reaches it. -/
def reload (i : Issue) : Issue := { i with st := (look i.s.strands i.sid).getD i.st }

/-- Records 0 to mc_count − 1 re-enter the matrix queue as it has room, the braid's later fate aside; those that are not valid
end their futures (R273). The mark of a save is over with the first RTT (log 129), and a handler that returns without a save
leaves its braid to be swapped out again (R322). -/
def reenter (i : Issue) : Issue :=
  let bid := i.st.braid
  let swapped := fun (b : Braid) => if i.st.trap.cause.toNat = 0x11 then { b with swapRec := none } else b
  let i := { i with s := setBraid (commit i) bid swapped }
  let b := braidOf i.s i.st
  if b.mcCount = 0 then { i with s := setBraid i.s bid fun b => { b with saving := false } }
  else
    let mate := match b.mate with | some m => (lookD i.s.braids m {}).tiles | none => []
    let recs := (List.range b.mcCount).map fun r =>
      entryOfRecord i.s i.sid i.st b.tiles mate ((List.range 16).map fun w => lookD b.mcStore (16 * r + w) 0)
    let good := recs.filterMap fun r => match r with | .ok e => some e | .error _ => none
    let s := recs.foldl (fun s r => match r with
      | .ok _ => s
      | .error h => if handlePending s h && handleCtx h == i.st.ctx then endHandle s h .failed 0x0C [] else s) i.s
    let s := setBraid s bid fun b => { b with mcCount := 0, saving := false }
    let s := setWaiting s b.core (waitingAt s b.core ++ good)
    reload { i with s := reenterRecords s b.core }

/-- A load is made again (R410): it comes after every access made meanwhile (R199). -/
def reissueLoad (i : Issue) (op : LoadOp) : Issue :=
  let (id, s) := newFlight i.s
  let op := { op with
    id := id, served := false, failed := false, told := false, know := i.st.know, snap := op.snap.map fun _ => s.mem.nextWrite }
  { i with s := needLines (setFlight s fun f => { f with loads := f.loads ++ [op] }) op.pa op.len op.key op.alloc }

/-- An atomic is made again (R410); one of a deterministic kernel is staged anew (R200). -/
def reissueAtom (i : Issue) (op : AtomOp) : Issue :=
  let (id, s) := newFlight i.s
  let (w, s) := newWrite s
  let pubs := carriedPubs i.st .b
  let s := if op.snap.isSome then setBraid s i.st.braid fun b => { b with staged := b.staged ++
      [{ va := op.va, pa := op.pa, key := op.key, form := op.form, bytes := toLE op.len op.b.toNat, cmp := op.cmp,
         writeId := w, pubs := pubs }] } else s
  let op := { op with
    id := id, served := false, failed := false, told := false, writeId := w, pubs := pubs, snap := op.snap.map fun _ => w }
  { i with
    s := needLines (setFlight s fun f => { f with atoms := f.atoms ++ [op] }) op.pa op.len op.key true
    st := { i.st with know := addKnown i.st.know (w, .b) } }

/-- A texture read is made again (R410; log 32). -/
def reissueTexels (i : Issue) (op : TexOp) : Issue :=
  let (id, s) := newFlight i.s
  let op := { op with id := id, served := [], failed := false, told := false, know := i.st.know }
  let s := setFlight s fun f => { f with texels := f.texels ++ [op] }
  { i with s := op.texels.foldl (fun s x => needLines s x.1 op.size x.2 true) s }

/-- After ECC_UNCORRECTABLE, the accesses at trap_pc whose destinations are still empty are made again, as new accesses of
the strand (R199, R410). -/
def reissueFailed (i : Issue) : Issue :=
  let mine := fun (sid : Nat) (failed : Bool) (pc : Word) => sid == i.sid && failed && pc == i.st.trap.pc
  let again := fun (ks : List RKey) => ks.any fun k => !(getKey i.st k).fill.isFull
  let f := i.s.flight
  let loads := f.loads.filter fun x => mine x.sid x.failed x.pc && again x.dst
  let atoms := f.atoms.filter fun x => mine x.sid x.failed x.pc && again x.dst
  let texels := f.texels.filter fun x => mine x.sid x.failed x.pc && again x.dst
  let i := { i with s := setFlight i.s fun f => { f with
      loads := f.loads.filter fun x => !mine x.sid x.failed x.pc
      atoms := f.atoms.filter fun x => !mine x.sid x.failed x.pc
      texels := f.texels.filter fun x => !mine x.sid x.failed x.pc } }
  texels.foldl reissueTexels (atoms.foldl reissueAtom (loads.foldl reissueLoad i))

/-- The interrupted state reinstated (R410). -/
def reinstate (i : Issue) : Issue :=
  let st := i.st
  let ecc := decide (st.trap.cause.toNat = 0x13)
  { i with s := leaveWaits i.s st, st := { st with
      inTrap := false, waits := none
      flow := { st.savedFlow with mask := st.trap.mask &&& liveMask st }
      pc := if ecc then st.trap.info else st.trap.pc
      pos := if ecc then st.savedPos else st.trap.bead.toNat
      popped := [], savedFlow := {}, resuming := true, run := .ready
      accFault := st.afterTrap, afterTrap := none, insn := none } }

/-- THE ONE WAY OUT OF A HANDLER: RTT's reinstatement and what follows it (R410, R412). -/
def returnFromTrap (i : Issue) : State :=
  if (braidOf i.s i.st).capture then settle (.block .capture i)
  else if i.st.trap.cause.toNat = 0x12 then
    let x := reenter i
    retireStrand (commit x) x.sid
  else
    let back := reinstate (if i.st.trap.cause.toNat = 0x13 then reissueFailed i else i)
    match if back.st.flow.mask = 0 then whole i (unwindAll back) else .ok back with
    | .block w x => settle (.block w x)
    | .trap t x => takeTrap x { t with bead := some 255 }
    | .ok x =>
      let x := resumeSync (reenter x)
      if x.st.flow.mask = 0 then retireStrand (commit x) x.sid
      else if x.st.accFault.isSome then commit x
      else takeAsync x

end Sys2Proof.Machine
end

