-- ==== Sys2Proof/Machine/IntOps.lean ====
section
/-!
DEFINITION. The integer instructions (R103 to R117), and the shapes that the arithmetic families share.
-/

namespace Sys2Proof.Machine
open Sys2Proof

/-! ### Shapes -/

/-- The 64-bit value of two of a list of words, from k on. -/
def pairAt (vs : List Word) (k : Nat) : DWord := DWord.ofPair (nth vs k) (nth vs (k + 1))

/-- A one-source form `d, a` (R101). -/
def form1 (d a : Reg) (ea : Bool) (f : Word → Word) (i : Issue) : BeadOut :=
  runForm (isPort d) (dstOk i.st d && srcOk i.st a && classOk d [a]) (allUniform [d, a])
    (beadOp [src a ea] [d] fun vs => [f (nth vs 0)]) i

/-- A two-source form `d, a, b` (R101). -/
def form2 (d a b : Reg) (ea eb : Bool) (f : Word → Word → Word) (i : Issue) : BeadOut :=
  runForm (isPort d) (dstOk i.st d && srcOk i.st a && srcOk i.st b && classOk d [a, b]) (allUniform [d, a, b])
    (beadOp [src a ea, src b eb] [d] fun vs => [f (nth vs 0) (nth vs 1)]) i

/-- A two-source form that also reads d, which is no q-port and waits when empty (R95). -/
def form3 (d a b : Reg) (ea eb : Bool) (f : Word → Word → Word → Word) (i : Issue) : BeadOut :=
  runForm (isPort d) (dstOk i.st d && !isPort d && srcOk i.st a && srcOk i.st b && classOk d [a, b])
    (allUniform [d, a, b])
    (beadOp [src a ea, src b eb, srcW d] [d] fun vs => [f (nth vs 0) (nth vs 1) (nth vs 2)]) i

/-- A form without a register source (R117). -/
def form0 (d : Reg) (v : Word) (i : Issue) : BeadOut :=
  runForm (isPort d) (dstOk i.st d) (allUniform [d]) (beadOp [] [d] fun _ => [v]) i

/-- A 64-bit form on two pairs (R114). -/
def formPairs (d a b : Reg) (ea eb : Bool) (f : DWord → DWord → DWord) (i : Issue) : BeadOut :=
  runForm (isPort d) (pairOk i.st d && pairOk i.st a && pairOk i.st b && classOk d [a, b]) (allUniform [d, a, b])
    (beadOp (srcPair a ea ++ srcPair b eb) (pairOf d) fun vs => words64 (f (pairAt vs 0) (pairAt vs 2))) i

/-- A 64-bit form on a pair and a register (R114). -/
def formPairWord (d a b : Reg) (ea eb : Bool) (f : DWord → Word → DWord) (i : Issue) : BeadOut :=
  runForm (isPort d) (pairOk i.st d && pairOk i.st a && srcOk i.st b && classOk d [a, b]) (allUniform [d, a, b])
    (beadOp (srcPair a ea ++ [src b eb]) (pairOf d) fun vs => words64 (f (pairAt vs 0) (nth vs 2))) i

/-- The sign-extended immediate of format I (R115). -/
def immOf (imm : BitVec 10) : Word := signExt 10 imm.toNat

/-! ### Instructions -/

/-- ADD (R104). -/
def execAdd (d a b : Reg) (ea eb : Bool) (s : State) : Out :=
  onStrand s (form2 d a b ea eb fun x y => x + y)

/-- ADDC (R104). -/
def execAddc (d a b : Reg) (ea eb : Bool) (s : State) : Out :=
  onStrand s (form2 d a b ea eb carryOut)

/-- SUB (R104). -/
def execSub (d a b : Reg) (ea eb : Bool) (s : State) : Out :=
  onStrand s (form2 d a b ea eb fun x y => x - y)

/-- SUBB (R104). -/
def execSubb (d a b : Reg) (ea eb : Bool) (s : State) : Out :=
  onStrand s (form2 d a b ea eb borrowOut)

/-- MUL (R104). -/
def execMul (d a b : Reg) (ea eb : Bool) (s : State) : Out :=
  onStrand s (form2 d a b ea eb fun x y => x * y)

/-- MULHU (R104). -/
def execMulhu (d a b : Reg) (ea eb : Bool) (s : State) : Out :=
  onStrand s (form2 d a b ea eb mulHu)

/-- MULHS (R104). -/
def execMulhs (d a b : Reg) (ea eb : Bool) (s : State) : Out :=
  onStrand s (form2 d a b ea eb mulHs)

/-- MULHSU (R104). -/
def execMulhsu (d a b : Reg) (ea eb : Bool) (s : State) : Out :=
  onStrand s (form2 d a b ea eb mulHsu)

/-- MAD (R104). -/
def execMad (d a b : Reg) (ea eb : Bool) (s : State) : Out :=
  onStrand s (form3 d a b ea eb fun x y z => x * y + z)

/-- MINU (R106). -/
def execMinu (d a b : Reg) (ea eb : Bool) (s : State) : Out :=
  onStrand s (form2 d a b ea eb minU)

/-- MINS (R106). -/
def execMins (d a b : Reg) (ea eb : Bool) (s : State) : Out :=
  onStrand s (form2 d a b ea eb minS)

/-- MAXU (R106). -/
def execMaxu (d a b : Reg) (ea eb : Bool) (s : State) : Out :=
  onStrand s (form2 d a b ea eb maxU)

/-- MAXS (R106). -/
def execMaxs (d a b : Reg) (ea eb : Bool) (s : State) : Out :=
  onStrand s (form2 d a b ea eb maxS)

/-- AND (R106). -/
def execAnd (d a b : Reg) (ea eb : Bool) (s : State) : Out :=
  onStrand s (form2 d a b ea eb fun x y => x &&& y)

/-- OR (R106). -/
def execOr (d a b : Reg) (ea eb : Bool) (s : State) : Out :=
  onStrand s (form2 d a b ea eb fun x y => x ||| y)

/-- XOR (R106). -/
def execXor (d a b : Reg) (ea eb : Bool) (s : State) : Out :=
  onStrand s (form2 d a b ea eb fun x y => x ^^^ y)

/-- ANDN (R106). -/
def execAndn (d a b : Reg) (ea eb : Bool) (s : State) : Out :=
  onStrand s (form2 d a b ea eb fun x y => x &&& ~~~y)

/-- SHL (R107). -/
def execShl (d a b : Reg) (ea eb : Bool) (s : State) : Out :=
  onStrand s (form2 d a b ea eb fun x y => shlBy x (shiftCount y))

/-- SHR (R107). -/
def execShr (d a b : Reg) (ea eb : Bool) (s : State) : Out :=
  onStrand s (form2 d a b ea eb fun x y => shrBy x (shiftCount y))

/-- SAR (R107). -/
def execSar (d a b : Reg) (ea eb : Bool) (s : State) : Out :=
  onStrand s (form2 d a b ea eb fun x y => sarBy x (shiftCount y))

/-- ROL (R107). -/
def execRol (d a b : Reg) (ea eb : Bool) (s : State) : Out :=
  onStrand s (form2 d a b ea eb fun x y => rolBy x (shiftCount y))

/-- CLZ (R108). -/
def execClz (d a : Reg) (ea : Bool) (s : State) : Out := onStrand s (form1 d a ea clz32)

/-- CTZ (R108). -/
def execCtz (d a : Reg) (ea : Bool) (s : State) : Out := onStrand s (form1 d a ea ctz32)

/-- POPC (R108). -/
def execPopc (d a : Reg) (ea : Bool) (s : State) : Out := onStrand s (form1 d a ea popc32)

/-- BREV (R108). -/
def execBrev (d a : Reg) (ea : Bool) (s : State) : Out := onStrand s (form1 d a ea brev32)

/-- BFXU (R109). -/
def execBfxu (d a b : Reg) (ea eb : Bool) (s : State) : Out :=
  onStrand s (form2 d a b ea eb bfxU)

/-- BFXS (R109). -/
def execBfxs (d a b : Reg) (ea eb : Bool) (s : State) : Out :=
  onStrand s (form2 d a b ea eb bfxS)

/-- BFI (R109). -/
def execBfi (d a b : Reg) (ea eb : Bool) (s : State) : Out :=
  onStrand s (form3 d a b ea eb bfIns)

/-- ILV2 (R110). -/
def execIlv2 (d a b : Reg) (ea eb : Bool) (s : State) : Out :=
  onStrand s (form2 d a b ea eb ilv2Of)

/-- ILV3 (R110). -/
def execIlv3 (d a b : Reg) (ea eb : Bool) (s : State) : Out :=
  onStrand s (form3 d a b ea eb ilv3Of)

/-- DLV2 (R110). -/
def execDlv2 (d a : Reg) (ea : Bool) (s : State) : Out := onStrand s (form1 d a ea dlv2Of)

/-- DLV3 (R110). -/
def execDlv3 (d a b : Reg) (ea eb : Bool) (s : State) : Out :=
  onStrand s (form2 d a b ea eb dlv3Of)

/-- CEQ (R111). -/
def execCeq (d a b : Reg) (ea eb : Bool) (s : State) : Out :=
  onStrand s (form2 d a b ea eb condEq)

/-- CNE (R111). -/
def execCne (d a b : Reg) (ea eb : Bool) (s : State) : Out :=
  onStrand s (form2 d a b ea eb condNe)

/-- CLTU (R111). -/
def execCltu (d a b : Reg) (ea eb : Bool) (s : State) : Out :=
  onStrand s (form2 d a b ea eb condLtu)

/-- CLTS (R111). -/
def execClts (d a b : Reg) (ea eb : Bool) (s : State) : Out :=
  onStrand s (form2 d a b ea eb condLts)

/-- CLEU (R111). -/
def execCleu (d a b : Reg) (ea eb : Bool) (s : State) : Out :=
  onStrand s (form2 d a b ea eb condLeu)

/-- CLES (R111). -/
def execCles (d a b : Reg) (ea eb : Bool) (s : State) : Out :=
  onStrand s (form2 d a b ea eb condLes)

/-- CBIT (R111). -/
def execCbit (d a b : Reg) (ea eb : Bool) (s : State) : Out :=
  onStrand s (form2 d a b ea eb condBit)

/-- SEL (R111). -/
def execSel (d a b : Reg) (ea eb : Bool) (s : State) : Out :=
  onStrand s (form3 d a b ea eb fun x y z => if z ≠ 0 then x else y)

/-- ABS (R112). -/
def execAbs (d a : Reg) (ea : Bool) (s : State) : Out := onStrand s (form1 d a ea absOf)

/-- NEG (R112). -/
def execNeg (d a : Reg) (ea : Bool) (s : State) : Out := onStrand s (form1 d a ea fun x => -x)

/-- SEXT8 (R112). -/
def execSext8 (d a : Reg) (ea : Bool) (s : State) : Out := onStrand s (form1 d a ea fun x => signExt 8 x.toNat)

/-- SEXT16 (R112). -/
def execSext16 (d a : Reg) (ea : Bool) (s : State) : Out := onStrand s (form1 d a ea fun x => signExt 16 x.toNat)

/-- MOV (R113). -/
def execMov (d a : Reg) (ea : Bool) (s : State) : Out := onStrand s (form1 d a ea fun x => x)

/-- MOVP (R113). -/
def execMovp (d a : Reg) (ea : Bool) (s : State) : Out :=
  onStrand s fun i =>
    runForm (isPort d) (pairOk i.st d && pairOk i.st a && classOk d [a]) (allUniform [d, a])
      (beadOp (srcPair a ea) (pairOf d) fun vs => [nth vs 0, nth vs 1]) i

/-- One bead's part of MOVF: a source that waits only on a future gives its handle, and d fills when that future does
(R113, R230, R231). -/
def movfBead (d a : Reg) (ea : Bool) (j : Nat) (i : Issue) : BeadOut :=
  if fillOf i.st j a = .future then
    let h := readReg i.st j a
    readyOr i j [] [d]
      (match d with
        | .q _ => writeDst j d h i
        | _ => .ok (writeHandle i j d h true))
  else beadOp [src a ea] [d] (fun vs => [nth vs 0]) j i

/-- MOVF (R113). -/
def execMovf (d a : Reg) (ea : Bool) (s : State) : Out :=
  onStrand s fun i =>
    runForm (isPort d) (dstOk i.st d && srcOk i.st a && classOk d [a]) (allUniform [d, a]) (movfBead d a ea) i

/-- ADD64 (R114). -/
def execAdd64 (d a b : Reg) (ea eb : Bool) (s : State) : Out :=
  onStrand s (formPairs d a b ea eb fun x y => x + y)

/-- SUB64 (R114). -/
def execSub64 (d a b : Reg) (ea eb : Bool) (s : State) : Out :=
  onStrand s (formPairs d a b ea eb fun x y => x - y)

/-- SHL64 (R114). -/
def execShl64 (d a b : Reg) (ea eb : Bool) (s : State) : Out :=
  onStrand s (formPairWord d a b ea eb fun x y => shl64By x (y.toNat % 64))

/-- SHRU64 (R114). -/
def execShru64 (d a b : Reg) (ea eb : Bool) (s : State) : Out :=
  onStrand s (formPairWord d a b ea eb fun x y => shr64By x (y.toNat % 64))

/-- ADDI (R115). -/
def execAddi (d a : Reg) (imm : BitVec 10) (ea : Bool) (s : State) : Out :=
  onStrand s (form1 d a ea fun x => x + immOf imm)

/-- ANDI (R115). -/
def execAndi (d a : Reg) (imm : BitVec 10) (ea : Bool) (s : State) : Out :=
  onStrand s (form1 d a ea fun x => x &&& immOf imm)

/-- ORI (R115). -/
def execOri (d a : Reg) (imm : BitVec 10) (ea : Bool) (s : State) : Out :=
  onStrand s (form1 d a ea fun x => x ||| immOf imm)

/-- XORI (R115). -/
def execXori (d a : Reg) (imm : BitVec 10) (ea : Bool) (s : State) : Out :=
  onStrand s (form1 d a ea fun x => x ^^^ immOf imm)

/-- SHLI (R116). -/
def execShli (d a : Reg) (n : BitVec 5) (ea : Bool) (s : State) : Out :=
  onStrand s (form1 d a ea fun x => shlBy x n.toNat)

/-- SHRI (R116). -/
def execShri (d a : Reg) (n : BitVec 5) (ea : Bool) (s : State) : Out :=
  onStrand s (form1 d a ea fun x => shrBy x n.toNat)

/-- SARI (R116). -/
def execSari (d a : Reg) (n : BitVec 5) (ea : Bool) (s : State) : Out :=
  onStrand s (form1 d a ea fun x => sarBy x n.toNat)

/-- ROLI (R116). -/
def execRoli (d a : Reg) (n : BitVec 5) (ea : Bool) (s : State) : Out :=
  onStrand s (form1 d a ea fun x => rolBy x n.toNat)

/-- MOVH (R117). -/
def execMovh (d : Reg) (imm : BitVec 18) (s : State) : Out :=
  onStrand s (form0 d (BitVec.ofNat 32 (imm.toNat * 2 ^ 14)))

/-- ORL (R117): d is read. -/
def execOrl (d : Reg) (imm : BitVec 18) (s : State) : Out :=
  onStrand s fun i =>
    runForm (isPort d) (dstOk i.st d && !isPort d) (allUniform [d])
      (beadOp [srcW d] [d] fun vs => [nth vs 0 ||| BitVec.ofNat 32 imm.toNat]) i

end Sys2Proof.Machine
end

