-- ==== Sys2Proof/Machine/Special.lean ====
section
/-!
DEFINITION. The special registers (R49 to R51, R272, R303, R337, R404) and SREAD and SWRITE (R402, R403).
-/

namespace Sys2Proof.Machine
open Sys2Proof

/-- The numbers of the map of R51 that are not reserved. -/
def srExists (n : Nat) : Bool :=
  decide (n ≤ 0x02) || n == 0x04 || n == 0x05 || (decide (0x08 ≤ n) && decide (n ≤ 0x12)) ||
    (decide (0x14 ≤ n) && decide (n ≤ 0x1C)) || (decide (0x20 ≤ n) && decide (n ≤ 0x29)) ||
    (decide (0x30 ≤ n) && decide (n ≤ 0x3A)) || (decide (0x40 ≤ n) && decide (n ≤ 0x42)) ||
    (decide (0x48 ≤ n) && decide (n ≤ 0x4C)) || (decide (0x58 ≤ n) && decide (n ≤ 0x5B)) ||
    (decide (0x60 ≤ n) && decide (n ≤ 0x67))

/-- The TW registers (R49, R51, R272, R404). -/
def srWritable (n : Nat) : Bool :=
  (decide (0x1A ≤ n) && decide (n ≤ 0x1C)) || (decide (0x20 ≤ n) && decide (n ≤ 0x29)) || n == 0x3A ||
    (decide (0x48 ≤ n) && decide (n ≤ 0x4C)) || (decide (0x58 ≤ n) && decide (n ≤ 0x5B))

/-- The bead-varying registers (R49, R404). -/
def srVarying (n : Nat) : Bool := n == 0x17 || n == 0x4A || n == 0x4C

/-- The even registers of the pairs of R50. -/
def srPair (n : Nat) : Bool :=
  n == 0x00 || n == 0x04 || n == 0x14 || n == 0x1A || n == 0x24 || n == 0x26 || n == 0x28 || n == 0x30 || n == 0x32 ||
    n == 0x38 || n == 0x40

/-- A word from a number. -/
def word (n : Nat) : Word := BitVec.ofNat 32 n

/-- One half of a 64-bit value: the low one for an even register. -/
def half (n : Nat) (v : DWord) : Word := if n % 2 = 0 then v.lo else v.hi

/-- The index of the grid point of a braid (R314). -/
def gridPoint (s : State) (b : Braid) : Nat := if (lookD s.cmd.kernels b.kernel {}).lrec.lk then b.index / 2 else b.index

/-- The strip registers (R337); 0 outside a strip chain. -/
def stripReg (s : State) (st : Strand) (n : Nat) : Word :=
  match (kernelOf s st).chain with
  | none => 0
  | some c =>
    let ch := lookD s.strips.chains c { stream := 0, frame := 0, strip := 0 }
    let x := chainStream s ch
    if n ≤ 0x31 then half n (wholeNs (x.deadline ch.frame ch.strip))
    else if n ≤ 0x33 then half n (wholeNs (x.start ch.frame ch.strip))
    else if n = 0x34 then word ch.strip
    else if n = 0x35 then word ch.rung
    else if n = 0x36 then word ch.stream
    else word ch.frame

/-- The shadow registers (R404) as bead j reads them. -/
def shadowReg (st : Strand) (n j : Nat) : Word :=
  if n = 0x49 then word st.shIdx
  else if !st.inTrap then 0
  else
    let v := getKey st (.b (beadKey st.shIdx j))
    if n = 0x4A then v.val
    else if n = 0x4B then (getKey st (.u (st.shIdx % 4))).val
    else if n = 0x4C then ofBool (v.fill == .future)
    else 0

/-- The matrix checkpoint registers (R272). -/
def checkpointReg (b : Braid) (n : Nat) : Word :=
  if n = 0x58 then word b.mcCount
  else if n = 0x59 then word b.mcPtr
  else if n = 0x5A then lookD b.mcStore b.mcPtr 0
  else b.mcEpi

/-- The port registers (R303). -/
def portReg (s : State) (st : Strand) (n : Nat) : Word :=
  match look st.ports (n % 4) with
  | none => 0
  | some q => if n < 0x64 then word (2 ^ 31 + q) else (queueOf s q).status

/-- A strand's read of the timebase: within 4 ns of the count, and never earlier than its last read (R326; log 28). -/
def readTime (i : Issue) : Nat × Issue :=
  let (f, s) := drawFree i.s
  let t := max i.st.lastTb (nowNs s + f % 9 - 4)
  (t, { i with s := s, st := { i.st with lastTb := t } })

/-- The value of special register n as bead j reads it, at time t (R51). -/
def specialReg (s : State) (st : Strand) (t n j : Nat) : Word :=
  let b := braidOf s st
  let k := kernelOf s st
  let g := gridPoint s b
  if n ≤ 0x01 then half n (BitVec.ofNat 64 t)
  else if n = 0x02 then word (s.clk.tb % 2 ^ 16)
  else if n ≤ 0x05 then half n (BitVec.ofNat 64 (lookD s.clk.cyc st.core 0))
  else if n = 0x08 then word st.width
  else if n = 0x09 then word st.sx
  else if n = 0x0A then word b.index
  else if n = 0x0B then word (g % max 1 k.lrec.gx)
  else if n = 0x0C then word (g / max 1 k.lrec.gx % max 1 k.lrec.gy)
  else if n = 0x0D then word (g / max 1 k.lrec.gx / max 1 k.lrec.gy)
  else if n = 0x0E then word (b.locket.getD 0xFFFFFFFF)
  else if n = 0x0F then word st.core
  else if n = 0x10 then word st.lane
  else if n = 0x11 then word st.kernel
  else if n = 0x12 then word st.ctx
  else if n ≤ 0x15 then half n st.flow.mask
  else if n = 0x16 then word st.flow.divDepth
  else if n = 0x17 then word (callStack st j).depth
  else if n = 0x18 then word st.flow.winBase
  else if n = 0x19 then word st.regs
  else if n ≤ 0x1B then half n st.stk
  else if n = 0x1C then st.stkLimit
  else if n = 0x20 then st.trap.cause
  else if n = 0x21 then st.trap.bead
  else if n = 0x22 then st.trap.pc
  else if n = 0x23 then st.trap.info
  else if n ≤ 0x25 then half n st.trap.mask
  else if n ≤ 0x27 then half n st.trap.addr
  else if n ≤ 0x29 then half n st.save
  else if n ≤ 0x37 then stripReg s st n
  else if n ≤ 0x39 then half n k.seed
  else if n = 0x3A then st.draw
  else if n ≤ 0x41 then half n (BitVec.ofNat 64 (windowBase b.core b.slot))
  else if n = 0x42 then word (bwSize s b)
  else if n ≤ 0x4C then shadowReg st n j
  else if n ≤ 0x5B then checkpointReg b n
  else portReg s st n

/-- The pointer of mc_data moves on (R272). -/
def stepCheckpoint (i : Issue) (n : Nat) : Issue :=
  if n = 0x5A then
    { i with s := setBraid i.s i.st.braid fun b => { b with mcPtr := (b.mcPtr + 1) % 128 } }
  else i

/-- An access to sh_b or sh_e beyond the strand's registers (R404). -/
def shadowBad (st : Strand) (n : Nat) : Bool :=
  (n == 0x4A || n == 0x4C) && st.inTrap && decide (st.shIdx ≥ st.regs)

/-- A register that SREAD and SWRITE admit (R403). -/
def srOperandOk : Reg → Bool
  | .bead _ | .uni _ | .zr => true
  | .bx | .sx | .lc | .q _ => false

/-- What bead j reads of a special register or of a pair. A uniform one is read once, at issue, and gives every bead the same
words, which stay with a strand that blocks before its last bead (R50, R403). -/
def readSpecial (i : Issue) (n : Nat) (pr : Bool) (j : Nat) : List Word × Issue :=
  let words := fun (i : Issue) (t : Nat) =>
    specialReg i.s i.st t n j :: if pr then [specialReg i.s i.st t (n + 1) j] else []
  if srVarying n then (words i 0, i)
  else match i.st.srHeld with
    | [] =>
      let (t, i) := if n ≤ 0x01 then readTime i else (0, i)
      (words i t, { i with st := { i.st with srHeld := words i t } })
    | vs => (vs, i)

/-- SREAD (R402, R403). -/
def execSread (d : Reg) (sr : BitVec 7) (pr : Bool) (s : State) : Out :=
  onStrand s fun i =>
    let n := sr.toNat
    let ds := if pr then pairOf d else [d]
    let ok := srExists n && srOperandOk d && !(srVarying n && !isBead d) && !shadowBad i.st n &&
      (if pr then srPair n && pairOk i.st d else regExists i.st d)
    (runForm (isPort d) ok (!isBead d)
      (fun j i => readyOr i j [] ds (let (vs, i) := readSpecial i n pr j; writeAll j ds vs i)) i).andThen
      fun i => .ok (stepCheckpoint i n)

/-- A half of a 64-bit value replaced. -/
def setHalf (n : Nat) (old : DWord) (v : Word) : DWord :=
  if n % 2 = 0 then DWord.ofPair v old.hi else DWord.ofPair old.lo v

/-- A write to a special register for bead j, of the forms without a wait (R272, R403, R404). -/
def setSpecial (i : Issue) (n j : Nat) (v : Word) : Issue :=
  let st := i.st
  let t := st.trap
  let trap := fun (t : TrapRegs) => { i with st := { st with trap := t } }
  let braid := fun (f : Braid → Braid) => { i with s := setBraid i.s st.braid f }
  if n ≤ 0x1B then { i with st := { st with stk := setHalf n st.stk v } }
  else if n = 0x1C then { i with st := { st with stkLimit := v } }
  else if n = 0x20 then trap { t with cause := v }
  else if n = 0x21 then trap { t with bead := v }
  else if n = 0x22 then trap { t with pc := v &&& ~~~3 }
  else if n = 0x23 then trap { t with info := v }
  else if n ≤ 0x25 then trap { t with mask := setHalf n t.mask v }
  else if n ≤ 0x27 then trap { t with addr := setHalf n t.addr v }
  else if n ≤ 0x29 then { i with st := { st with save := setHalf n st.save v } }
  else if n = 0x3A then { i with st := { st with draw := v } }
  else if n = 0x49 then { i with st := { st with shIdx := v.toNat % 256 } }
  else if n = 0x4A then { i with st := setKey st (.b (beadKey st.shIdx j)) { val := v } }
  else if n = 0x4B then { i with st := setKey st (.u (st.shIdx % 4)) { val := v } }
  else if n = 0x4C then
    let key := RKey.b (beadKey st.shIdx j)
    let h := (getKey st key).val
    if v.getLsbD 0 then
      { i with st := setKey st key { val := h, fill := if handlePending i.s h then .future else .full } }
    else i
  else if n = 0x58 then if v.toNat > 8 then i else braid fun b => { b with mcCount := v.toNat }
  else if n = 0x59 then braid fun b => { b with mcPtr := v.toNat % 128 }
  else if n = 0x5A then braid fun b => { b with mcStore := putD 0 b.mcStore b.mcPtr v }
  else if n = 0x5B then braid fun b => { b with mcEpi := v }
  else i

/-- A command of sh_ctl (R404, R405): SWRITE completes when the command has performed, which the mark 4 says. Values
above 3 name no command (log 20). -/
def shadowCommand (i : Issue) (v : Word) : BeadOut :=
  if i.st.shCmd = 4 then .ok { i with st := { i.st with shCmd := 0 } }
  else if v.toNat = 0 ∨ v.toNat > 3 then .ok i
  else if v.toNat = 3 ∧ i.st.trap.cause.toNat ≠ 0x11 ∧ i.st.trap.cause.toNat ≠ 0x15 then .trap illegalOperand i
  else .block .shadow { i with st := { i.st with shCmd := v.toNat } }

/-- SWRITE (R402, R403). -/
def execSwrite (sr : BitVec 7) (b : Reg) (s : State) : Out :=
  onStrand s fun i =>
    let n := sr.toNat
    let ok := srExists n && srWritable n && i.st.inTrap && srOperandOk b && regExists i.st b &&
      !(isBead b && !srVarying n) && !shadowBad i.st n
    (runForm false ok (!srVarying n)
      (fun j i => readyOr i j [srcW b] []
        (let i := acquireRegs i j [b]
         let v := readReg i.st j b
         if n = 0x48 then shadowCommand i v else .ok (setSpecial i n j v))) i).andThen
      fun i => .ok (stepCheckpoint i n)

end Sys2Proof.Machine
end

