-- ==== Sys2Proof/Machine/Control.lean ====
section
/-!
DEFINITION. Illegal words (R48) and the control instructions of chapter 4: branches, calls, exits, loops, waits and
sleeps (R68 to R93).
-/

namespace Sys2Proof.Machine
open Sys2Proof

/-- ILLEGAL (R47). -/
def illegal : TrapInfo := { cause := 0x01, bead := some 255 }

/-- ILL (R48). -/
def execIll (_tag : BitVec 25) (s : State) : Out := onStrand s fun i => .trap illegal i

/-- ILL_ERASED (R48). -/
def execIllErased (_tag : BitVec 25) (s : State) : Out := onStrand s fun i => .trap illegal i

/-- NOP (R92). -/
def execNop (s : State) : Out := onStrand s advance

/-- YIELD (R92). -/
def execYield (s : State) : Out := onStrand s fun i => advance { i with st := { i.st with yielded := true } }

/-! ### Branches (R77 to R79) -/

/-- pc + 4 × off, for a signed word offset of n bits (R70). -/
def target (st : Strand) (n off : Nat) : Word := st.pc + BitVec.ofInt 32 (4 * signedOf n off)

/-- A split under R71; a single target is a Goto. -/
def splitWhole (i : Issue) (sets : List Branch) : BeadOut :=
  match sets with
  | [b] => goto i b.target
  | _ => whole i (split i sets)

/-- The first active bead, in issue order, for which a test holds. -/
def firstBead (st : Strand) (p : Nat → Bool) : Option Nat := (activeBeads st).find? p

/-- A register read for beads in issue order, each value checked before the next bead is read: an empty register blocks or
faults at its bead (R42), and `bad` gives the fault of a value. `place` is the bead that a stop records. -/
def readTargets (x : Src) (place : Nat → Nat) (bad : Issue → Nat → Word → Option TrapInfo)
    (k : List (Nat × Word) → Issue → BeadOut) : List Nat → Issue → BeadOut
  | [], i => k [] i
  | j :: t, i =>
    let i := { i with st := { i.st with pos := place j } }
    if !(fillOf i.st j x.reg).isFull then
      if x.e then .trap { emptyRead x with bead := some (place j) } i else .block (waitReg i.st j x.reg) i
    else
      let i := acquireRegs i j [x.reg]
      let v := readReg i.st j x.reg
      match bad i j v with
      | some f => .trap { f with bead := some (place j) } i
      | none => readTargets x place bad (fun vs i => k ((j, v) :: vs) i) t i

/-- What a stop at a bead records: a uniform instruction records 0xFF (R44, R59). -/
def placeOf (x : Src) (j : Nat) : Nat := if isBead x.reg then j else 255

/-- BRA (R78). -/
def execBra (off : BitVec 25) (s : State) : Out := onStrand s fun i => goto i (target i.st 25 off.toNat)

/-- BNZ and BZ: beads for which `taken` holds go to the target, the others on (R78). -/
def condBranch (c : Reg) (off : BitVec 18) (taken : Word → Bool) (i : Issue) : BeadOut :=
  guarded i false (srcOk i.st c && !isPort c)
    (readTargets (srcW c) (placeOf (srcW c)) (fun _ _ _ => none) (fun vs i =>
      splitWhole i (takenSets (vs.map fun e => (e.1, taken e.2)) (target i.st 18 off.toNat) (i.st.pc + 4)))
      (activeBeads i.st) i)

/-- BNZ (R78). -/
def execBnz (c : Reg) (off : BitVec 18) (s : State) : Out := onStrand s (condBranch c off fun v => v != 0)

/-- BZ (R78). -/
def execBz (c : Reg) (off : BitVec 18) (s : State) : Out := onStrand s (condBranch c off fun v => v == 0)

/-- MISALIGNED of a target that is not a multiple of 4 (R70). -/
def oddTarget (i : Issue) (_ : Nat) (t : Word) : Option TrapInfo :=
  if t.toNat % 4 ≠ 0 then some (misaligned (programAddr i.s i.st t)) else none

/-- BRX (R78). -/
def execBrx (a : Reg) (ea : Bool) (s : State) : Out :=
  onStrand s fun i =>
    guarded i false (srcOk i.st a && !isPort a)
      (readTargets (src a ea) (placeOf (src a ea)) oddTarget (fun vs i => splitWhole i (groupBy vs)) (activeBeads i.st) i)

/-- JPT (R78). -/
def execJpt (off : BitVec 18) (s : State) : Out :=
  onStrand s fun i =>
    (whole i (pushDiv i { kind := .join, mask := i.st.flow.mask, pc := target i.st 18 off.toNat,
                          loop := i.st.flow.loops.length })).andThen advance

/-- JOIN (R79). -/
def execJoin (s : State) : Out :=
  onStrand s fun i =>
    match i.st.flow.divTop with
    | [] => .trap divergence i
    | e :: _ =>
      if e.kind = .path then
        whole i (popDiv i fun e i => unwindAll { i with st := { i.st with pc := e.pc } })
      else if e.kind = .join ∧ e.pc = i.st.pc then
        let out := whole i (popDiv i fun _ i => unwindAll { i with st := { i.st with pc := i.st.pc + 4 } })
        if e.mask &&& liveMask i.st ≠ 0 then out.andThen sequential else out
      else .trap divergence i

/-! ### Loops (R87) -/

/-- LOOP (R87). -/
def execLoop (c : Reg) (off : BitVec 18) (s : State) : Out :=
  onStrand s fun i =>
    guarded i false (uniSrcOk i.st c)
      (readyOr { i with st := { i.st with pos := 255 } } 255 [srcW c] []
        (let i := acquireRegs i 255 [c]
         let n := readReg i.st 255 c
         let stop := target i.st 18 off.toNat
         if n = 0 then goto i stop
         else if i.st.flow.loops.length ≥ 4 then .trap { cause := 0x08, bead := some 255 } i
         else
          let l : LoopLevel :=
            { start := i.st.pc + 4, stop := stop, lc := n, d := i.st.flow.divDepth, frame := frameNow i.st }
          .ok { i with st := { i.st with pc := i.st.pc + 4, flow := { i.st.flow with loops := l :: i.st.flow.loops } } }))

/-! ### Calls (R83, R84) -/

/-- The fault of one bead's call: its target is not a multiple of 4, or its return stack is full (R83). -/
def callFault (i : Issue) (j : Nat) (t : Word) : Option TrapInfo :=
  if t.toNat % 4 ≠ 0 then some (misaligned (programAddr i.s i.st t))
  else if (callStack i.st j).depth ≥ retMax i.st then some stackLimit
  else none

/-- CALL and CALLX, with each active bead's target, once every bead's check has passed (R83). -/
def callTo (targets : List (Nat × Word)) (i : Issue) : BeadOut :=
  let sets := groupBy targets
  let n := sets.length
  let f := i.st.flow
  if n > 1 ∧ f.divDepth + n > divMax i.st then .trap { stackLimit with bead := some 255 } i
  else
    whole i ((pushCalls { ret := i.st.pc + 4, d0 := f.divDepth, l0 := f.loops.length } (targets.map (·.1)) i).andThen fun i =>
      match sets with
      | [] => .ok i
      | [b] => .ok { i with st := { i.st with pc := b.target } }
      | b1 :: rest =>
        (pushDivs i ({ kind := .xjoin, mask := f.mask, pc := i.st.pc + 4, loop := f.loops.length } ::
          (rest.reverse.map fun b => { kind := .xpath, mask := b.mask, pc := b.target, loop := f.loops.length }))).andThen
          fun i => .ok { i with st := { i.st with pc := b1.target, flow := { i.st.flow with mask := b1.mask } } })

/-- CALL: each bead's check, then the call (R83). -/
def execCall (off : BitVec 25) (s : State) : Out :=
  onStrand s fun i =>
    let t := target i.st 25 off.toNat
    match (activeBeads i.st).findSome? fun j => (callFault i j t).map fun f => { f with bead := some j } with
    | some f => .trap f i
    | none => callTo ((activeBeads i.st).map fun j => (j, t)) i

/-- CALLX: each bead's target is read and checked in issue order, a uniform one at each bead too (R44, R83). -/
def execCallx (a : Reg) (ea : Bool) (s : State) : Out :=
  onStrand s fun i =>
    guarded i false (srcOk i.st a && !isPort a) (readTargets (src a ea) id callFault callTo (activeBeads i.st) i)

/-- Divergence entry `idx`, on chip or in memory (R81). -/
def entryAt (i : Issue) (idx : Nat) (k : DivEntry → Issue → BeadOut) : BeadOut :=
  let f := i.st.flow
  if idx + f.divTop.length ≥ f.divDepth then
    match f.divTop[f.divDepth - 1 - idx]? with
    | some e => k e i
    | none => .trap divergence i
  else stackRead i 255 (divAddr i.st idx) 16 fun bs i => k (divOfBytes bs) i

/-- Every entry from the top down, n of them, is XPATH (R84). -/
def allXpath : Nat → Nat → Issue → (Bool → Issue → BeadOut) → BeadOut
  | 0, _, i, k => k true i
  | n + 1, idx, i, k => entryAt i idx fun e i => if e.kind = .xpath then allXpath n (idx - 1) i k else k false i

/-- The return of every active bead to (ret, d0, l0), the entries having been checked (R84). -/
def returnTo (e : RetEntry) (i : Issue) : BeadOut :=
  (popCalls (activeBeads i.st) i).andThen fun i =>
    let i := setFlow i fun f => { f with loops := f.loops.drop (f.loops.length - e.l0) }
    if i.st.flow.divDepth = e.d0 then .ok { i with st := { i.st with pc := e.ret } }
    else popDiv i fun x i =>
      unwindAll { i with st := { i.st with pc := if x.kind = .xpath then x.pc else e.ret } }

/-- RET (R84). -/
def execRet (s : State) : Out :=
  onStrand s fun i =>
    let act := activeBeads i.st
    let top := fun j => (callStack i.st j).top.head?
    match act.find? fun j => (callStack i.st j).depth == 0 with
    | some j => .trap { stackLimit with bead := some j } i
    | none =>
      match top (act.headD 0) with
      | none => .trap { stackLimit with bead := some (act.headD 0) } i
      | some e =>
        let f := i.st.flow
        if act.any fun j => top j != some e then .trap divergence i
        else if e.ret.toNat % 4 ≠ 0 then .trap { misaligned (programAddr i.s i.st e.ret) with bead := some 255 } i
        else if f.loops.length < e.l0 then .trap divergence i
        else if f.divDepth = e.d0 then whole i (returnTo e i)
        else if f.divDepth < e.d0 then .trap divergence i
        else
          whole i (entryAt i e.d0 fun x i =>
            if x.kind = .xjoin ∧ x.pc = e.ret then
              allXpath (f.divDepth - 1 - e.d0) (f.divDepth - 1) i fun ok i =>
                if ok then returnTo e i else .trap divergence i
            else .trap divergence i)

/-! ### Exit (R86) -/

/-- EXITS: every bead of the strand retires (R86). -/
def execExits (s : State) : Out := onStrand s fun i => .ok (retireBeads i (liveMask i.st))

/-- EXIT: the active beads retire and the strand unwinds; in trap mode the whole strand retires (R86). -/
def execExit (s : State) : Out :=
  onStrand s fun i =>
    if i.st.inTrap then .ok (retireBeads i (liveMask i.st))
    else whole i (unwindAll (retireBeads i i.st.flow.mask))

/-! ### Waits (R91) -/

/-- WAIT (R91). -/
def execWait (a : Reg) (s : State) : Out :=
  onStrand s fun i =>
    runForm false (srcOk i.st a && !isPort a) (!isBead a)
      (fun j i => readyOr i j [srcW a] [] (.ok (acquireRegs i j [a]))) i

/-- Whether a load or a value-returning atomic of a strand has not filled its destination (R91, R204). -/
def loadsDue (s : State) (sid : Nat) : Bool :=
  (s.flight.loads.any fun x => x.sid == sid) || s.flight.atoms.any fun x => x.sid == sid && !x.dst.isEmpty

/-- Whether a special-function result is due to a strand (R91). -/
def sfusDue (s : State) (sid : Nat) : Bool := s.flight.sfu.any fun x => x.sid == sid && !x.dst.isEmpty

/-- The registers of a strand's unretired beads, and its uniform ones, that are not full (R91). -/
def emptyRegs (st : Strand) : List RKey :=
  ((st.breg.filter fun e => !e.2.fill.isFull && !st.retired.getLsbD (e.1 % 64)).map fun e => RKey.b e.1) ++
    (st.ureg.filter fun e => !e.2.fill.isFull).map fun e => RKey.u e.1

/-- Every publication of a future that filled a register of the strand is acquired (R211). -/
def acquireAll (i : Issue) : Issue :=
  ((i.st.breg ++ i.st.ureg).filter fun e => e.2.fill == .futured).foldl
    (fun i e => { i with st := acquire i.st (handlePub i.s e.2.val) }) i

/-- WAITLD (R91). -/
def execWaitld (s : State) : Out :=
  onStrand s fun i => runForm false true true (fun _ i => if loadsDue i.s i.sid then .block .loads i else .ok i) i

/-- WAITSFU (R91). -/
def execWaitsfu (s : State) : Out :=
  onStrand s fun i => runForm false true true (fun _ i => if sfusDue i.s i.sid then .block .sfus i else .ok i) i

/-- WAITALL (R91). -/
def execWaitall (s : State) : Out :=
  onStrand s fun i =>
    runForm false true true (fun _ i => if emptyRegs i.st ≠ [] then .block .all i else .ok (acquireAll i)) i

/-! ### Sleeps (R93) -/

/-- SLEEPT (R93). -/
def execSleept (a : Reg) (ea : Bool) (s : State) : Out :=
  onStrand s fun i =>
    runForm true (uniPairOk i.st a) true
      (fun j i => readyOr i j (srcPair a ea) [] (readAll j (srcPair a ea) 0 i fun vs i =>
        let t := (pairAt vs 0).toNat
        if nowNs i.s ≥ t then .ok i else .block (.time t) i)) i

/-- Whether a queue holds an element or a token that a pop would return (R93). -/
def queueHolds (q : HwQueue) : Bool := decide (q.count > 0) || q.st == .closed || q.st == .drained

/-- SLEEPQ (R93); an append wakes it for good (R305). -/
def execSleepq (p : Fin 4) (s : State) : Out :=
  onStrand s fun i =>
    runForm true (regExists i.st (.q p)) true
      (fun _ i =>
        let qid := portQueue i.st p
        if i.st.woken || queueHolds (queueOf i.s qid) then .ok i else .block (.queue qid) i) i

/-- SLEEPW (R93). -/
def execSleepw (a b : Reg) (ea eb : Bool) (s : State) : Out :=
  onStrand s fun i =>
    runForm true (uniPairOk i.st a && uniSrcOk i.st b) true
      (fun j i =>
        let srcs := srcPair a ea ++ [src b eb]
        readyOr i j srcs [] (readAll j srcs 0 i fun vs i =>
          let va := (pairAt vs 0).toNat
          if va % 4 ≠ 0 then .trap (misaligned va) i
          else beadAccess i va 4 .b .read fun pa key i =>
            readWhen i va pa key 4 fun bs i =>
              if BitVec.ofNat 32 (ofLE bs) ≠ nth vs 2 then .ok i
              else
                let now := BitVec.ofNat 32 (ofLE (i.s.mem.read pa 4))
                .block (.word va pa key (nth vs 2) (if now = nth vs 2 then i.s.mem.log.length else 0)) i)) i

/-- SLEEPT_WAKE: a sleeper whose time has come is ready (R93). Its operand is the strand. -/
def execSleeptWake (s : State) : Out :=
  match s.arg with
  | .one sid =>
    .next { s with strands := upd s.strands sid fun st =>
      match st.run with
      | .blocked (.time t) => if nowNs s ≥ t then { st with run := .ready } else st
      | _ => st }
  | _ => .next s

/-- Whether a write performed since the order of writes had length `seen` touches a range. -/
def writtenSince (s : State) (seen pa n : Nat) : Bool :=
  (s.mem.log.take (s.mem.log.length - seen)).any fun w => overlaps w.pa w.new.length pa n

/-- A blocked strand is ready, or waits anew. -/
def setRun (s : State) (sid : Nat) (r : Run) : State :=
  { s with strands := upd s.strands sid fun st => { st with run := r } }

/-- The word that a sleeper reads again: in a deterministic kernel, of the view of R200 (R220). -/
def sleeperWord (s : State) (st : Strand) (va pa key : Nat) : Word × State :=
  let (bs, s) := if isStaged s st va 4 then ((readStaged s st s.mem.nextWrite pa 4).bytes, s)
    else readNow (settleZero s pa 4) pa key 4
  (BitVec.ofNat 32 (ofLE bs), s)

/-- Whether a sleeper's word is to be read again (R93): its line has been written, or what its braid has staged makes it
differ (R200); no slot holds the read (R385). -/
def wordDue (s : State) (st : Strand) (va pa key : Nat) (b : Word) (seen : Nat) : Bool :=
  !heldBySlot s pa 4 &&
    if isStaged s st va 4 then (sleeperWord s st va pa key).1 != b else writtenSince s seen (pa / 128 * 128) 128

/-- SLEEPW_RECHECK: after a write to its line a sleeper's word is read again; it is ready when the word differs
(R93). Its operand is the strand. -/
def execSleepwRecheck (s : State) : Out :=
  match s.arg with
  | .one sid =>
    match look s.strands sid with
    | some st =>
      match st.run with
      | .blocked (.word va pa key b seen) =>
        if wordDue s st va pa key b seen then
          let (v, s) := sleeperWord s st va pa key
          .next (setRun s sid (if v ≠ b then .ready else .blocked (.word va pa key b s.mem.log.length)))
        else .next s
      | _ => .next s
    | none => .next s
  | _ => .next s

/-! ### The window (R68) -/

/-- WIN (R68). -/
def execWin (a : Reg) (n : BitVec 5) (ea : Bool) (s : State) : Out :=
  onStrand s fun i =>
    runForm false (uniSrcOk i.st a) true
      (fun j i => readyOr i j [src a ea] [] (readAll j [src a ea] 0 i fun vs i =>
        let base := 8 * ((nth vs 0).toNat + n.toNat)
        if base ≥ i.st.regs then .trap illegalOperand i
        else .ok (setFlow i fun f => { f with winBase := base }))) i

end Sys2Proof.Machine
end

