-- ==== Sys2Proof/Machine/MemOps.lean ====
section
/-!
DEFINITION. Loads and stores (R194 to R200), atomics (R201 to R204), and the staging of a deterministic kernel's
writes (R200, R218, R219).
-/

namespace Sys2Proof.Machine
open Sys2Proof

/-! ### Loads and stores -/

/-- The base pair s(2p):s(2p+1) of formats M and A. -/
def basePair (p : Nat) : List Reg := if h : 2 * p < 32 then pairOf (.uni ⟨2 * p, h⟩) else []

/-- A register, or the pair at width 64, as an operand that R195 admits. -/
def dataOk (st : Strand) (r : Reg) (wide : Bool) : Bool :=
  if wide then pairOk st r else regExists st r && !isPort r

/-- A destination that R195 admits. -/
def loadDstOk (st : Strand) (r : Reg) (wide : Bool) : Bool :=
  dataOk st r wide && !(r == .bx || r == .sx || r == .lc)

/-- The registers of a data operand. -/
def dataRegs (r : Reg) (wide : Bool) : List Reg := if wide then pairOf r else [r]

/-- The number below which an access of a strand reads its braid's staged writes, where it reads the view of a deterministic
kernel (R200). -/
def snapOf (s : State) (st : Strand) (va n : Nat) : Option Nat :=
  if isStaged s st va n then some s.mem.nextWrite else none

/-- A read handed to the memory; its destinations are empty until it arrives (R196, R200, R208). -/
def startLoad (i : Issue) (j : Nat) (dsts : List Reg) (va pa key n : Nat) (alloc : Bool) : Issue :=
  let ks := regKeys i.st j dsts
  let (id, s) := newFlight i.s
  let op : LoadOp :=
    { id := id, sid := i.sid, bead := j, dst := ks, len := n, pa := pa, va := va, key := key, know := i.st.know,
      snap := snapOf s i.st va n, pc := i.st.pc, alloc := alloc }
  let s := setFlight s fun f => { f with loads := f.loads ++ [op] }
  { i with s := needLines s pa n key alloc, st := emptyKeys i.st ks }

/-- A store handed to its vault, or staged (R196, R200, R208). -/
def startStore (i : Issue) (va pa key : Nat) (bs : List Byte) : BeadOut :=
  let pubs := carriedPubs i.st .b
  if isStaged i.s i.st va bs.length then
    stageWrite i va (fun w => { va := va, pa := pa, key := key, form := 0, bytes := bs, writeId := w, pubs := pubs }) .ok
  else
    let (id, s) := newFlight i.s
    let (w, s) := newWrite s
    let op : StoreOp := { id := id, sid := i.sid, ctx := i.st.ctx, pa := pa, key := key, bytes := bs, writeId := w, pubs := pubs }
    let s := setFlight s fun f => { f with stores := f.stores ++ [op] }
    .ok { i with s := needLines s pa bs.length key true, st := { i.st with know := addKnown i.st.know (w, .b) } }

/-- One bead's load at an address (R196). -/
def loadAt (i : Issue) (j va n : Nat) (dsts : List Reg) (alloc : Bool) : BeadOut :=
  if va % n ≠ 0 then .trap (misaligned va) i
  else beadAccess i va n .b .read fun pa key i => .ok (startLoad i j dsts va pa key n alloc)

/-- One bead's store at an address (R196). -/
def storeAt (i : Issue) (va : Nat) (bs : List Byte) : BeadOut :=
  if va % bs.length ≠ 0 then .trap (misaligned va) i
  else beadAccess i va bs.length .b .write fun pa key i => startStore i va pa key bs

/-- Base + A + imm × wb (R196). -/
def effAddr (vs : List Word) (imm wb : Nat) : Nat := ((pairAt vs 0).toNat + (nth vs 2).toNat + imm * wb) % 2 ^ 64

/-- LD and LDU (R195, R196, R197). -/
def formLoad (d a : Reg) (p imm : Nat) (w : Width) (alloc : Bool) (i : Issue) : BeadOut :=
  let wide := w == .w64
  let base := basePair p
  let srcs := srcsW (base ++ [a])
  runForm (isPort d) (loadDstOk i.st d wide && srcOk i.st a && !isPort a && base.all (regExists i.st) && classOk d [a])
    (allUniform [d, a])
    (fun j i => readyOr i j srcs (dataRegs d wide) (readAll j srcs 0 i fun vs i =>
      loadAt i j (effAddr vs imm w.bytes) w.bytes (dataRegs d wide) alloc)) i

/-- LD (R196). -/
def execLd (d a : Reg) (p : BitVec 4) (imm : BitVec 5) (w : Width) (s : State) : Out :=
  onStrand s (formLoad d a p.toNat imm.toNat w true)

/-- LDU (R197). -/
def execLdu (d a : Reg) (p : BitVec 4) (imm : BitVec 5) (w : Width) (s : State) : Out :=
  onStrand s (formLoad d a p.toNat imm.toNat w false)

/-- The low bytes of a data operand's words (R196). -/
def dataBytes (vs : List Word) (n : Nat) : List Byte := toLE n (pairAt vs 0).toNat

/-- ST (R196). -/
def execSt (d a : Reg) (p : BitVec 4) (imm : BitVec 5) (w : Width) (s : State) : Out :=
  onStrand s fun i =>
    let wide := w == .w64
    let base := basePair p.toNat
    let srcs := srcsW (base ++ [a] ++ dataRegs d wide)
    runForm false (dataOk i.st d wide && srcOk i.st a && !isPort a && base.all (regExists i.st)) (allUniform [d, a])
      (fun j i => readyOr i j srcs [] (readAll j srcs 0 i fun vs i =>
        storeAt i (effAddr vs imm.toNat w.bytes) (dataBytes (vs.drop 3) w.bytes))) i

/-- The address of an access to the stack space, for a bead or, in a uniform form, the divergence slice (R198). -/
def stackAddr (st : Strand) (uniform : Bool) (j off : Nat) : Nat :=
  (st.stk.toNat + (if uniform then st.width else j) * sliceSize st + off) % 2 ^ 64

/-- The limit of R198, then the access. -/
def stackAccess (i : Issue) (uniform : Bool) (j off n : Nat) (k : Nat → BeadOut) : BeadOut :=
  let va := stackAddr i.st uniform j off
  if off + n > sliceSize i.st then .trap { stackLimit with addr := va } i else k va

/-- LDS (R198). -/
def execLds (d a : Reg) (imm : BitVec 5) (w : Width) (s : State) : Out :=
  onStrand s fun i =>
    let wide := w == .w64
    let uni := allUniform [d, a]
    runForm (isPort d) (loadDstOk i.st d wide && srcOk i.st a && !isPort a && classOk d [a]) uni
      (fun j i => readyOr i j [srcW a] (dataRegs d wide) (readAll j [srcW a] 0 i fun vs i =>
        stackAccess i uni j ((nth vs 0).toNat + imm.toNat * w.bytes) w.bytes fun va =>
          loadAt i j va w.bytes (dataRegs d wide) true)) i

/-- STS (R198). -/
def execSts (d a : Reg) (imm : BitVec 5) (w : Width) (s : State) : Out :=
  onStrand s fun i =>
    let wide := w == .w64
    let uni := allUniform [d, a]
    let srcs := srcsW (a :: dataRegs d wide)
    runForm false (dataOk i.st d wide && srcOk i.st a && !isPort a) uni
      (fun j i => readyOr i j srcs [] (readAll j srcs 0 i fun vs i =>
        stackAccess i uni j ((nth vs 0).toNat + imm.toNat * w.bytes) w.bytes fun va =>
          storeAt i va (dataBytes (vs.drop 1) w.bytes))) i

/-! ### Atomics -/

/-- An atomic sent to its home vault, or staged and computed against the view of a deterministic kernel (R200, R203). -/
def startAtom (i : Issue) (j form va pa key : Nat) (wide : Bool) (dsts : List Reg) (b cmp : DWord) : BeadOut :=
  let n := if wide then 8 else 4
  let pubs := carriedPubs i.st .b
  let ks := regKeys i.st j dsts
  let snap := snapOf i.s i.st va n
  let send := fun (w : Nat) (i : Issue) =>
    let (id, s) := newFlight i.s
    let op : AtomOp :=
      { id := id, sid := i.sid, ctx := i.st.ctx, snap := snap, bead := j, form := form, wide := wide, pa := pa, va := va,
        key := key, b := b, cmp := cmp, dst := ks, writeId := w, pubs := pubs, pc := i.st.pc, inst := i.st.stamp }
    let s := needLines (setFlight s fun f => { f with atoms := f.atoms ++ [op] }) pa n key true
    { i with s := s, st := emptyKeys i.st ks }
  if snap.isSome then
    stageWrite i va (fun w => { va := va, pa := pa, key := key, form := form, bytes := toLE n b.toNat, cmp := cmp,
                                writeId := w, pubs := pubs })
      fun i => .ok (send (i.s.mem.nextWrite - 1) i)
  else
    let (w, s) := newWrite i.s
    .ok (send w { i with s := s, st := { i.st with know := addKnown i.st.know (w, .b) } })

/-- An atomic (R195, R201, R203). ATCAS also reads d (R201). -/
def formAtom (form : Nat) (d a b : Reg) (p : Nat) (wide : Bool) (i : Issue) : BeadOut :=
  let base := basePair p
  let cas := form == 0x60
  let srcs := srcsW (base ++ [a] ++ dataRegs b wide ++ if cas then dataRegs d wide else [])
  let n := if wide then 8 else 4
  runForm (isPort d)
    (loadDstOk i.st d wide && dataOk i.st b wide && srcOk i.st a && !isPort a && base.all (regExists i.st) &&
      classOk d [a, b])
    (allUniform [d, a, b])
    (fun j i => readyOr i j srcs (dataRegs d wide) (readAll j srcs 0 i fun vs i =>
      let va := effAddr vs 0 0
      let bv := if wide then pairAt vs 3 else DWord.ofPair (nth vs 3) 0
      let cv := if wide then pairAt vs 5 else DWord.ofPair (nth vs 4) 0
      if va % n ≠ 0 then .trap (misaligned va) i
      else beadAccess i va n .b .both fun pa key i =>
        startAtom i j form va pa key wide (dataRegs d wide) bv (if cas then cv else 0))) i

/-- ATADD (R202). -/
def execAtadd (d a b : Reg) (p : BitVec 3) (w : Bool) (s : State) : Out := onStrand s (formAtom 0x56 d a b p.toNat w)

/-- ATFADD (R202). -/
def execAtfadd (d a b : Reg) (p : BitVec 3) (s : State) : Out := onStrand s (formAtom 0x57 d a b p.toNat false)

/-- ATMINS (R202). -/
def execAtmins (d a b : Reg) (p : BitVec 3) (w : Bool) (s : State) : Out := onStrand s (formAtom 0x58 d a b p.toNat w)

/-- ATMAXS (R202). -/
def execAtmaxs (d a b : Reg) (p : BitVec 3) (w : Bool) (s : State) : Out := onStrand s (formAtom 0x59 d a b p.toNat w)

/-- ATMINU (R202). -/
def execAtminu (d a b : Reg) (p : BitVec 3) (w : Bool) (s : State) : Out := onStrand s (formAtom 0x5A d a b p.toNat w)

/-- ATMAXU (R202). -/
def execAtmaxu (d a b : Reg) (p : BitVec 3) (w : Bool) (s : State) : Out := onStrand s (formAtom 0x5B d a b p.toNat w)

/-- ATAND (R202). -/
def execAtand (d a b : Reg) (p : BitVec 3) (w : Bool) (s : State) : Out := onStrand s (formAtom 0x5C d a b p.toNat w)

/-- ATOR (R202). -/
def execAtor (d a b : Reg) (p : BitVec 3) (w : Bool) (s : State) : Out := onStrand s (formAtom 0x5D d a b p.toNat w)

/-- ATXOR (R202). -/
def execAtxor (d a b : Reg) (p : BitVec 3) (w : Bool) (s : State) : Out := onStrand s (formAtom 0x5E d a b p.toNat w)

/-- ATXCH (R202). -/
def execAtxch (d a b : Reg) (p : BitVec 3) (w : Bool) (s : State) : Out := onStrand s (formAtom 0x5F d a b p.toNat w)

/-- ATCAS (R202). -/
def execAtcas (d a b : Reg) (p : BitVec 3) (w : Bool) (s : State) : Out := onStrand s (formAtom 0x60 d a b p.toNat w)

/-! ### Happenings -/

/-- What an access of a strand does to it, on the strand's own copy. -/
def onOwner (s : State) (sid : Nat) (f : Issue → Issue) : State :=
  match look s.strands sid with
  | some st => commit (f { s := s, sid := sid, st := st })
  | none => s

/-- A read may return: the strand's earlier overlapping accesses have performed (R199), no write that it knew is still
to perform (R209), and its line is there (R192, R385). Of one that an uncorrectable error has stopped, the strand may be told
(R193, R412). -/
def loadReady (s : State) (op : LoadOp) : Bool :=
  if op.failed then !op.told && mayTell s op.sid op.pc
  else reachable s op.served op.pa op.len &&
    (op.snap.isSome ||
      (firstInOrder s op.sid op.id op.pa op.len && !awaitsWrite s (some op.sid) op.know .b op.pa op.len))

/-- LOAD_ARRIVAL: a load performs and fills its destination (R196, R199, R209). Its operand is the access. -/
def execLoadArrival (s : State) : Out :=
  match s.arg with
  | .one id =>
    match s.flight.loads.find? fun x => x.id == id with
    | some op => .next (if loadReady s op then onOwner s op.sid fun i => performLoad i op else s)
    | none => .next s
  | _ => .next s

/-- A store may perform at its home. -/
def storeReady (s : State) (op : StoreOp) : Bool := storeOpen s op && !poolFirst s (some op.sid) op.pa

/-- STORE_PERFORM: a store takes its place in the coherence order of its bytes (R207). Its operand is the access. -/
def execStorePerform (s : State) : Out :=
  match s.arg with
  | .one id =>
    match s.flight.stores.find? fun x => x.id == id with
    | some op => .next (if storeReady s op then performStore s op else s)
    | none => .next s
  | _ => .next s

/-- What waited for an LPDDR6 line has it (R192). -/
def serveLine (s : State) (line : Nat) : State :=
  let on := fun (pa n : Nat) => isLpddr pa && (linesOf pa n).contains line
  setFlight s fun f => { f with
    loads := mapWhere (fun x => on x.pa x.len) (fun x => { x with served := true }) f.loads
    stores := mapWhere (fun x => on x.pa x.bytes.length) (fun x => { x with served := true }) f.stores
    atoms := mapWhere (fun x => on x.pa x.len) (fun x => { x with served := true }) f.atoms
    texels := mapWhere (fun x => x.texels.any fun y => on y.1 x.size) (fun x => { x with served := line :: x.served }) f.texels }

/-- CACHE_LINE_FILL: LPDDR6 returns a line, which the cache region takes unless LDU alone asked for it (R191, R192,
R197). Its operand is the line. -/
def execCacheLineFill (s : State) : Out :=
  match s.arg with
  | .one line =>
    match s.flight.fills.find? fun x => x.line == line with
    | some x =>
      if lpddrHeld s then .next s
      else
        let s := serveLine (setFlight s fun f => { f with fills := f.fills.filter fun y => y.line != line }) line
        .next (if x.alloc then openLine s line x.key true else s)
    | none => .next s
  | _ => .next s

/-- An atomic may perform at its home, once those of the same instruction before it have (R203). Of one that an uncorrectable
error has stopped, the strand may be told (R193, R412). -/
def atomReady (s : State) (op : AtomOp) : Bool :=
  if op.failed then !op.told && mayTell s op.sid op.pc
  else op.old.isNone && reachable s op.served op.pa op.len && !poolFirst s (some op.sid) op.pa &&
    (!s.flight.atoms.any fun x => x.sid == op.sid && x.inst == op.inst && decide (x.id < op.id) && x.old.isNone && !x.failed) &&
    (op.snap.isSome ||
      (firstInOrder s op.sid op.id op.pa op.len &&
        !awaitsWrite s (some op.sid) (match look s.strands op.sid with | some st => st.know | none => []) .b op.pa op.len))

/-- An atomic whose strand or bead has retired leaves nothing behind once it has performed (R86). -/
def dropAtom (s : State) (op : AtomOp) : State :=
  if (look s.strands op.sid).isSome && op.bead != 254 then s
  else setFlight s fun f => { f with atoms := f.atoms.filter fun x => x.id != op.id || x.old.isNone && !x.failed }

/-- ATOMIC_PERFORM: an atomic reads and writes its home, indivisibly (R203). Its operand is the access. -/
def execAtomicPerform (s : State) : Out :=
  match s.arg with
  | .one id =>
    match s.flight.atoms.find? fun x => x.id == id with
    | some op =>
      if atomReady s op then
        let t := if op.failed then s else performAtom s op
        let t := if t.flight.atoms.any fun x => x.id == id && x.failed then onOwner t op.sid fun i => failAtom i op else t
        .next (dropAtom t op)
      else .next s
    | none => .next s
  | _ => .next s

/-- ATOMIC_RETURN: an atomic's old value reaches its destination (R203, R204). Its operand is the access. -/
def execAtomicReturn (s : State) : Out :=
  match s.arg with
  | .one id =>
    match s.flight.atoms.find? fun x => x.id == id with
    | some op =>
      .next (if op.old.isSome then
          dropAtom (onOwner s op.sid fun i => returnAtom i op) op
        else s)
    | none => .next s
  | _ => .next s

/-- The happenings of this file that may take place. -/
def dueMemory (s : State) : List Happening :=
  (s.flight.loads.filter (loadReady s)).map (fun x => ⟨.loadArrival, .one x.id⟩) ++
    (s.flight.stores.filter (storeReady s)).map (fun x => ⟨.storePerform, .one x.id⟩) ++
    (if lpddrHeld s then [] else s.flight.fills.map fun x => ⟨.cacheLineFill, .one x.line⟩) ++
    (s.flight.atoms.filter (atomReady s)).map (fun x => ⟨.atomicPerform, .one x.id⟩) ++
    (s.flight.atoms.filter fun x => x.old.isSome).map fun x => ⟨.atomicReturn, .one x.id⟩

end Sys2Proof.Machine
end

