-- ==== Sys2Proof/Machine/Sync.lean ====
section
/-!
DEFINITION. FENCE (R213 to R217), the hinges (R274 to R281), and the signals (R282 to R285) with the fence tokens
that a system-scope release sends (R221, R223).
-/

namespace Sys2Proof.Machine
open Sys2Proof

/-! ### Links -/

/-- The code of a link state (R415). -/
def LinkSt.code : LinkSt → Nat
  | .down => 0 | .training => 1 | .up => 2 | .retrainPending => 3 | .failed => 4

/-! ### FENCE -/

/-- The waits of R216 for a path mask, and at system scope for the stores after which its tokens go; a link command is handed to
its endpoint as it issues. -/
def fenceClear (s : State) (sid paths : Nat) (sys : Bool) : Bool :=
  (!bit paths 0 || beadDone s sid) && (!sys || s.eng.links.all fun c => !c.unsent || !deviceUp s c.dest)

/-- The paths of a mask. -/
def pathsOf (paths : Nat) : List Path := [Path.b, .c, .m, .x, .l].filter fun q => bit paths q.bit

/-- The cross-path step (R215). -/
def crossPaths (paths : Nat) (v : List Known) : List Known :=
  (v.filter fun k => bit paths k.2.bit).foldl (fun acc k =>
    (pathsOf paths).foldl (fun acc q => addKnown acc (k.1, q)) acc) v

/-- The three steps of R215; a pending texture read keeps the paths of a FENCE that names its own (R212). -/
def fenceEffect (paths : Nat) (kind : FenceKind) (scope : Scope) (i : Issue) : Issue :=
  let me := partyOf i.s i.sid i.st
  let reads := (i.st.reads.filter fun k => bit paths k.2.bit).map (·.1)
  let st := if kind = .rel then i.st else acquire i.st (pubsOf i.s me scope reads)
  let st := { st with know := crossPaths paths st.know }
  let pub : Pub := { scope := scope, by_ := me, pairs := st.know.filter fun k => bit paths k.2.bit }
  let st := if kind = .acq then st else { st with fencePubs := st.fencePubs ++ [{ paths := paths, pub := pub }] }
  let s := if bit paths Path.x.bit then setFlight i.s fun f => { f with
      texels := mapWhere (fun x => x.sid == i.sid) (fun x => { x with fenced := x.fenced ||| paths }) f.texels } else i.s
  { i with st := st, s := if scope = .system then sendTokens s (if kind = .acq then [] else pub.pairs) else s }

/-- FENCE (R213 to R216). -/
def execFence (paths : BitVec 5) (kind : FenceKind) (scope : Scope) (s : State) : Out :=
  onStrand s (runForm false true true fun _ i =>
    if fenceClear i.s i.sid paths.toNat (scope == .system) then .ok (fenceEffect paths.toNat kind scope i)
    else .block (.fence paths.toNat (scope == .system)) i)

/-! ### Hinges -/

/-- HINGE with its reason (R279, R281). -/
def hingeFault (reason h : Nat) : TrapInfo := { cause := 0x0D, info := reason * 2 ^ 8 + h, bead := some 255 }

/-- A hinge that the strand may name: present, with the strand a member, and in a locket if it is a pair hinge (R278). -/
def hingeOk (i : Issue) (h : Nat) : Bool :=
  (decide (h < 16) || (braidOf i.s i.st).locket.isSome) &&
    bit (hingeOfBraid i.s (hingeHome i.s i.st h) h).members (hingeMember i.s i.st h)

/-- The strand's arrival state (R275). -/
def arrivalOf (i : Issue) (h : Nat) : Arrival :=
  lookD (hingeOfBraid i.s (hingeHome i.s i.st h) h).st (hingeMember i.s i.st h) .idle

/-- A pending arrival. -/
def Arrival.isPending : Arrival → Bool
  | .pending _ => true
  | .idle | .passed => false

/-- The strand arrives and publishes what it knows, once its accesses have performed (R211, R276, R279, R280). -/
def arrive (i : Issue) (h : Nat) (k : Issue → BeadOut) : BeadOut :=
  if !performedAll i.s i.sid then .block .perform i
  else
    let m := hingeMember i.s i.st h
    k { i with s := setHinge i.s (hingeHome i.s i.st h) h fun hg => hingeTest { hg with
      arrived := hg.arrived ||| 2 ^ m, st := put hg.st m (.pending hg.phase), pubs := joinKnown hg.pubs i.st.know } }

/-- The strand acquires the publications of the completed phase (R211). -/
def hingeAcquire (i : Issue) (h : Nat) : Issue :=
  { i with st := acquire i.st (hingeOfBraid i.s (hingeHome i.s i.st h) h).done }

/-- HARR (R279). -/
def execHarr (h : Fin 24) (s : State) : Out :=
  onStrand s fun i =>
    runForm true (hingeOk i h) true
      (fun _ i => if (arrivalOf i h).isPending then .block (.hinge h) i else arrive i h .ok) i

/-- HWAIT (R279). -/
def execHwait (h : Fin 24) (s : State) : Out :=
  onStrand s fun i =>
    runForm true (hingeOk i h) true
      (fun _ i =>
        match arrivalOf i h with
        | .idle => .trap (hingeFault 2 0) i
        | .pending _ => .block (.hinge h) i
        | .passed => .ok (hingeAcquire i h)) i

/-- The end of HSYNC (R279). -/
def syncWait (h : Nat) (i : Issue) : BeadOut :=
  if arrivalOf i h = .passed then
    let i := hingeAcquire i h
    .ok { i with st := { i.st with sync := none } }
  else .block (.hinge h) i

/-- HSYNC (R279). -/
def execHsync (h : Fin 24) (s : State) : Out :=
  onStrandKeep s (some h.val) fun i =>
    runForm true (hingeOk i h) true
      (fun _ i =>
        let fix := fun (i : Issue) => syncWait h { i with st := { i.st with sync := some h.val } }
        if i.st.sync = some h.val then syncWait h i
        else if (arrivalOf i h).isPending then fix i
        else arrive i h fix) i

/-- The number of members of a set of strands. -/
def setSize (x : Nat) : Nat := (List.range 32).countP fun m => bit x m

/-- HTEST (R279). -/
def execHtest (d : Reg) (h : Fin 24) (s : State) : Out :=
  onStrand s fun i =>
    runForm true (!isBead d && dstOk i.st d && hingeOk i h) true
      (fun j i =>
        let hg := hingeOfBraid i.s (hingeHome i.s i.st h) h
        let passed := arrivalOf i h == .passed
        let rest := setSize hg.members - setSize (hg.members &&& hg.arrived)
        let v := BitVec.ofNat 32 (rest * 2 ^ 16 + hg.phase.toNat * 2 + passed.toNat)
        readyOr i j [] [d] (writeDst j d v (if passed then hingeAcquire i h else i))) i

/-- A strand that is hinge-blocked, and at which hinge (R281). One whose arrival has passed is no longer blocked (R280). -/
def hingeBlocked (s : State) (st : Strand) : Option Nat :=
  match st.run with
  | .blocked (.hinge h) =>
    if st.inTrap || (braidOf s st).st != .placed ||
        !(lookD (hingeOfBraid s (hingeHome s st h) h).st (hingeMember s st h) .idle).isPending then none
    else some h
  | _ => none

/-- Whether every member that the hinge of a strand still lacks is among `d` (R281). -/
def lacksOnly (s : State) (d : List (Nat × Strand)) (st : Strand) (h : Nat) : Bool :=
  let home := hingeHome s st h
  let hg := hingeOfBraid s home h
  (List.range 32).all fun m =>
    !(bit hg.members m && !bit hg.arrived m) ||
      d.any fun e => hingeHome s e.2 h == home && hingeMember s e.2 h == m

/-- The largest set of R281 within `d`, with its size as fuel. -/
def deadlocked (s : State) : Nat → List (Nat × Strand) → List (Nat × Strand)
  | 0, d => d
  | n + 1, d =>
    let d' := d.filter fun e => match hingeBlocked s e.2 with
      | some h => lacksOnly s d e.2 h
      | none => false
    if d'.length = d.length then d else deadlocked s n d'

/-- The deadlocked strands of a braid and its mate. -/
def deadlockOf (s : State) (bid : Nat) : List (Nat × Strand) :=
  let mate := (lookD s.braids bid {}).mate
  let d := s.strands.filter fun e =>
    (e.2.braid == bid || some e.2.braid == mate) && (hingeBlocked s e.2).isSome
  deadlocked s (d.length + 1) d

/-- A trap taken by a strand of the state, if it is still there. -/
def trapStrand (s : State) (sid : Nat) (t : TrapInfo) : State :=
  match look s.strands sid with
  | some st => takeTrap { s := s, sid := sid, st := st } t
  | none => s

/-- HINGE_DEADLOCK: each strand of D faults with HINGE (R281). Its operand is the braid. -/
def execHingeDeadlock (s : State) : Out :=
  match s.arg with
  | .one bid =>
    .next ((deadlockOf s bid).foldl (fun s e =>
      match hingeBlocked s e.2 with
      | some h => trapStrand s e.1 (hingeFault 1 h)
      | none => s) s)
  | _ => .next s

/-! ### Signals -/

/-- A signal's address checked and translated (R284). -/
def signalAccess (i : Issue) (va : Nat) (need : Need) (k : Nat → Nat → Issue → BeadOut) : BeadOut :=
  if va % 32 ≠ 0 then .trap (misaligned va) i else beadAccess i va 32 .b need k

/-- The `value` of a signal as a strand reads it, and the writes that it returns: the newest at its home (R203, R209; log 124), or
the view of a deterministic kernel (R200). -/
def signalValue (s : State) (st : Strand) (va pa key : Nat) : Nat × List Nat × State :=
  let s := openRead (settleZero s pa 32) pa 8 key true
  if isStaged s st va 32 then
    let r := readStaged s st s.mem.nextWrite pa 8
    (ofLE r.bytes, r.writes, s)
  else (ofLE (s.mem.read pa 8), newestWrites s pa 8, s)

/-- The `value` of a signal, read once every write that the strand knows has performed (R203, R209). -/
def signalRead (i : Issue) (va pa key : Nat) (k : Nat → List Nat → Issue → BeadOut) : BeadOut :=
  if !isStaged i.s i.st va 32 && awaitsWrite i.s (some i.sid) i.st.know .b pa 8 then .block (.stores pa 8) i
  else match deviceWait i pa 32 with
    | some w => .block w i
    | none =>
      let (v, seen, s) := signalValue i.s i.st va pa key
      k v seen { i with s := s, st := noteRead i.st seen }

/-- A signal read acquires what the write that it returned published (R211). -/
def signalAcquire (i : Issue) (scope : Scope) (seen : List Nat) : Issue :=
  { i with st := acquire i.st (pubsOf i.s (partyOf i.s i.sid i.st) scope seen) }

/-- SIGWR (R284, R285). -/
def execSigwr (op : SigOp) (scope : Scope) (a b : Reg) (s : State) : Out :=
  onStrand s fun i =>
    let srcs := srcsW (pairOf a ++ pairOf b)
    runForm false (uniPairOk i.st a && uniPairOk i.st b) true
      (fun j i => readyOr i j srcs [] (readAll j srcs 0 i fun vs i =>
        signalAccess i (pairAt vs 0).toNat .both fun pa key i =>
          if !fenceClear i.s i.sid 31 (scope == .system) then .block (.fence 31 (scope == .system)) i
          else if heldBySlot i.s pa 32 || poolFirst i.s (some i.sid) pa then .block (.lines pa 32) i
          else
            let (id, seen, s) := signalWrite i.s pa key op (pairAt vs 2) (some .b) (carriedPubs i.st .b) scope
              (partyOf i.s i.sid i.st) i.st.know
            .ok { i with
              s := s
              st := noteRead { i.st with know := addKnown i.st.know (id, .b) } seen })) i

/-- SIGWT (R284, R285). -/
def execSigwt (cond : Cond) (scope : Scope) (a b : Reg) (s : State) : Out :=
  onStrand s fun i =>
    let srcs := srcsW (pairOf a ++ pairOf b)
    runForm false (uniPairOk i.st a && uniPairOk i.st b) true
      (fun j i => readyOr i j srcs [] (readAll j srcs 0 i fun vs i =>
        signalAccess i (pairAt vs 0).toNat .read fun pa key i =>
          signalRead i (pairAt vs 0).toNat pa key fun v seen i =>
            if condHolds cond.code v (pairAt vs 2).toNat then .ok (signalAcquire i scope seen)
            else .block (.signal (pairAt vs 0).toNat pa key cond (pairAt vs 2) i.s.mem.log.length) i)) i

/-- SIGRD (R284, R285). -/
def execSigrd (d a : Reg) (scope : Scope) (s : State) : Out :=
  onStrand s fun i =>
    let srcs := srcsW (pairOf a)
    runForm (isPort d) (uniPairOk i.st d && uniPairOk i.st a) true
      (fun j i => readyOr i j srcs (pairOf d) (readAll j srcs 0 i fun vs i =>
        signalAccess i (pairAt vs 0).toNat .read fun pa key i =>
          signalRead i (pairAt vs 0).toNat pa key fun v seen i =>
            writeAll j (pairOf d) (words64 (BitVec.ofNat 64 v)) (signalAcquire i scope seen))) i

/-- SIGWT_RECHECK: after a write to the object a waiter reads `value` again; it is ready when its condition holds
(R285). Its operand is the strand. -/
def execSigwtRecheck (s : State) : Out :=
  match s.arg with
  | .one sid =>
    match look s.strands sid with
    | some st =>
      match st.run with
      | .blocked (.signal va pa key cond operand seen) =>
        if writtenSince s seen pa 32 && !heldBySlot s pa 32 then
          let (v, _, s) := signalValue s st va pa key
          .next (setRun s sid (if condHolds cond.code v operand.toNat then .ready
            else .blocked (.signal va pa key cond operand s.mem.log.length)))
        else .next s
      | _ => .next s
    | none => .next s
  | _ => .next s

/-- The happenings of sleeps, hinges and signals that may take place. -/
def dueSync (s : State) : List Happening :=
  (s.strands.filterMap fun e => match e.2.run with
    | .blocked (.time t) => if nowNs s ≥ t then some ⟨.sleeptWake, .one e.1⟩ else none
    | .blocked (.word va pa key b seen) =>
      if wordDue s e.2 va pa key b seen then some ⟨.sleepwRecheck, .one e.1⟩ else none
    | .blocked (.signal _ pa _ _ _ seen) =>
      if writtenSince s seen pa 32 && !heldBySlot s pa 32 then some ⟨.sigwtRecheck, .one e.1⟩ else none
    | _ => none) ++
  (s.braids.filterMap fun e =>
    if (e.2.leader || (mateOf s e.2).isNone) && !(deadlockOf s e.1).isEmpty then some ⟨.hingeDeadlock, .one e.1⟩ else none)

end Sys2Proof.Machine
end

