-- ==== Sys2Proof/Machine/TrapOps.lean ====
section
/-!
DEFINITION. TRAP, BRKPT and RTT (R410, R411), the entry of asynchronous causes (R396, R412), the debug commands (R400),
and the saving of a strand: SAVE, LOAD, PARK and the end of a braid's save (R404 to R408).
-/

namespace Sys2Proof.Machine
open Sys2Proof

/-! ### Traps by instruction -/

/-- A software cause, with trap_pc at the next instruction; in trap mode it is a double fault where it stands (R399,
R411). -/
def softTrap (cause : Nat) (imm : BitVec 18) (i : Issue) : BeadOut :=
  let t : TrapInfo := { cause := cause, info := imm.toNat, bead := some 255 }
  if i.st.inTrap then .trap t i
  else (advance { i with st := { i.st with pos := 255 } }).andThen fun x => .trap { t with at_ := some i.st.pc } x

/-- BRKPT (R411). -/
def execBrkpt (imm : BitVec 18) (s : State) : Out := onStrand s (softTrap 0x0F imm)

/-- TRAP (R411). -/
def execTrap (imm : BitVec 18) (s : State) : Out := onStrand s (softTrap 0x10 imm)

/-- RTT (R410). -/
def execRtt (s : State) : Out :=
  match issueOf s with
  | none => .fault .noStrand
  | some i => .next (if i.st.inTrap then returnFromTrap i else takeTrap i illegalOperand)

/-! ### Asynchronous causes -/

/-- Whether a strand may take a held cause now: not in trap mode, not parked or halted, not held at a full
special-function queue, whose wait cannot be interrupted (R136), not with a popped element that its bead still has to use
(R294), and not where a synchronous fault is due (R395, R412). -/
def asyncReady (s : State) (st : Strand) : Bool :=
  !st.held.isEmpty && !st.inTrap && (braidOf s st).st == .placed && st.popped.isEmpty && st.accFault.isNone &&
    match st.run with
    | .parked | .halted _ | .blocked .sfuFull => false
    | _ => true

/-- TRAP_ENTRY: a strand takes the first cause it holds (R395, R396, R412). Its operand is the strand. -/
def execTrapEntry (s : State) : Out :=
  match s.arg with
  | .one sid =>
    match look s.strands sid with
    | some st => .next (if asyncReady s st then takeAsync { s := s, sid := sid, st := st } else s)
    | none => .next s
  | _ => .next s

/-! ### The debug commands -/

/-- The halted strand of a lane's slot, with its cause (R400). -/
def haltedAt (s : State) (core lane slot : Nat) : Option (Nat × Strand × Nat) :=
  s.strands.findSome? fun e =>
    if e.2.core == core && e.2.lane == lane && e.2.slot == slot && (braidOf s e.2).st == .placed then
      match e.2.run with
      | .halted c => some (e.1, e.2, c)
      | _ => none
    else none

/-- A halted strand retires as by EXITS, and its kernel's signal carries the cause (R283, R400). -/
def killStrand (s : State) (sid kernel cause : Nat) : State :=
  retireStrand (setKernel s kernel fun k => { k with err := word (0x200 + cause) }) sid

/-- A write of dbg_ctl that names a halted strand names the one whose special registers the core's debug window then shows
(R400, R421; log 47). -/
def nameStrand (s : State) (core lane slot : Nat) : State :=
  setSreg s (0x20000 + 0x1000 * core) (BitVec.ofNat 64 (lane % 64 + slot % 8 * 2 ^ 8))

/-- DBG_KILL (R400). Its operand is the core, the lane and the slot. -/
def execDbgKill (s : State) : Out :=
  match s.arg with
  | .three core lane slot =>
    match haltedAt s core lane slot with
    | some (sid, st, c) => .next (killStrand (nameStrand s core lane slot) sid st.kernel c)
    | none => .next s
  | _ => .next s

/-- DBG_RESUME: RTT on the recorded trap state, for a strand that halted for want of a trap entry (R400, R401). Its
operand is the core, the lane and the slot. -/
def execDbgResume (s : State) : Out :=
  match s.arg with
  | .three core lane slot =>
    match haltedAt s core lane slot with
    | some (sid, st, c) =>
      if (kernelOf s st).lrec.trap = noEntry ∧ c ≠ 0x11 ∧ c ≠ 0x12 ∧ c ≠ 0x15 then
        .next (returnFromTrap { s := nameStrand s core lane slot, sid := sid, st := { st with run := .ready } })
      else .next s
    | none => .next s
  | _ => .next s

/-! ### The save area (R405 to R407) -/

/-- The control record of the interrupted strand (R407). -/
def controlRecord (st : Strand) : List Byte :=
  let f := st.savedFlow
  let head := toLE 16 (f.winBase % 2 ^ 32 + f.divDepth % 2 ^ 16 * 2 ^ 32 + f.loops.length % 8 * 2 ^ 48)
  let divs := f.divTop.reverse.flatMap divBytes
  let loops := f.loops.reverse.flatMap fun l =>
    toLE 16 (l.start.toNat + l.stop.toNat * 2 ^ 32 + l.lc.toNat * 2 ^ 64 + l.d % 256 * 2 ^ 96 + l.frame % 2 ^ 16 * 2 ^ 104)
  let body := head ++ divs ++ List.replicate (256 - divs.length) 0 ++ loops
  body ++ List.replicate (512 - body.length) 0

/-- The bead shadow of bead j (R407). -/
def beadShadow (st : Strand) (j : Nat) : List Byte :=
  let c := lookD st.savedFlow.calls j {}
  let rets := c.top.reverse.flatMap retBytes
  rets ++ List.replicate (32 - rets.length) 0 ++ toLE 4 c.depth ++ [0, 0, 0, 0] ++
    ((List.range 4).flatMap fun k => toLE 4 (lookD st.bary (4 * j + k) 0).toNat) ++ List.replicate 8 0

/-- The offset of the control record in the save area (R406). -/
def controlOff (st : Strand) : Nat := 0x1000 + 512 * st.sx

/-- The offset of the bead shadow of bead j (R406). -/
def shadowOff (st : Strand) (j : Nat) : Nat :=
  65536 * (1 + st.sx / 4) + 16384 * (st.sx % 4) + 16384 - 64 * (st.width - j)

/-- The beads of a strand that have not retired. -/
def liveBeads (st : Strand) : List Nat := (List.range st.width).filter fun j => (liveMask st).getLsbD j

/-- The 64-byte pieces of a list of bytes, with their addresses. -/
def pieces : Nat → Nat → List Byte → List (Nat × List Byte)
  | 0, _, _ => []
  | n + 1, va, bs => if bs.isEmpty then [] else (va, bs.take 64) :: pieces n (va + 64) (bs.drop 64)

/-- Pieces written in order. -/
def storePieces : List (Nat × List Byte) → Issue → BeadOut
  | [], i => .ok i
  | (va, bs) :: t, i =>
    beadAccess i (va % 2 ^ 64) bs.length .b .write fun pa key i =>
      writeBeadPath i (va % 2 ^ 64) pa key bs (storePieces t)

/-- n pieces of 64 bytes read in order. -/
def loadPieces : Nat → Nat → Issue → (List Byte → Issue → BeadOut) → BeadOut
  | 0, _, i, k => k [] i
  | n + 1, va, i, k =>
    beadAccess i (va % 2 ^ 64) 64 .b .read fun pa key i =>
      readWhen i (va % 2 ^ 64) pa key 64 fun bs i => loadPieces n (va + 64) i fun rest i => k (bs ++ rest) i

/-- SAVE (R405, R407). -/
def saveStrand (i : Issue) : BeadOut :=
  let base := i.st.save.toNat
  let record := pieces 8 (base + controlOff i.st) (controlRecord i.st)
  let shadows := (liveBeads i.st).map fun j => (base + shadowOff i.st j, beadShadow i.st j)
  storePieces (record ++ shadows) i

/-- Bytes of a record by position. -/
def field (bs : List Byte) (o n : Nat) : Nat := ofLE ((bs.drop o).take n)

/-- The interrupted control flow that a control record holds, return stacks apart (R407). -/
def flowOfRecord (bs : List Byte) : Flow :=
  let depth := field bs 4 2
  let levels := min (field bs 6 1 % 8) 4
  { winBase := field bs 0 4
    divDepth := depth
    divTop := ((List.range (min depth 16)).map fun k => divOfBytes ((bs.drop (16 + 16 * k)).take 16)).reverse
    loops := ((List.range levels).map fun k =>
      let o := 272 + 16 * k
      { start := word (field bs o 4), stop := word (field bs (o + 4) 4), lc := word (field bs (o + 8) 4),
        d := field bs (o + 12) 1, frame := field bs (o + 13) 2 }).reverse }

/-- A bead shadow installed (R405, R407). -/
def installShadow (i : Issue) (j : Nat) (bs : List Byte) : Issue :=
  let depth := field bs 32 4
  let c : CallStack :=
    { depth := depth, top := ((List.range (min depth 4)).map fun k => retOfBytes ((bs.drop (8 * k)).take 8)).reverse }
  let bary := (List.range 4).foldl (fun m k => putD 0 m (4 * j + k) (word (field bs (40 + 4 * k) 4))) i.st.bary
  { i with st := { i.st with
      savedFlow := { i.st.savedFlow with calls := putD {} i.st.savedFlow.calls j c }, bary := bary } }

/-- The shadows of beads read and installed. -/
def loadShadows : List Nat → Issue → BeadOut
  | [], i => .ok i
  | j :: t, i =>
    loadPieces 1 (i.st.save.toNat + shadowOff i.st j) i fun bs i => loadShadows t (installShadow i j bs)

/-- LOAD (R405, R407). -/
def loadStrand (i : Issue) : BeadOut :=
  loadPieces 8 (i.st.save.toNat + controlOff i.st) i fun bs i =>
    let f := flowOfRecord bs
    loadShadows (liveBeads i.st)
      { i with st := { i.st with savedFlow := { f with
          mask := i.st.savedFlow.mask, calls := i.st.savedFlow.calls, divTop := f.divTop.map (·.cut i.st) } } }

/-- The strand that waits for a command of sh_ctl. -/
def shadowWaiter (s : State) (sid cmd : Nat) : Option Issue :=
  match look s.strands sid with
  | some st =>
    if st.shCmd = cmd ∧ st.run = .blocked .shadow then some { s := s, sid := sid, st := st } else none
  | none => none

/-- trap_info and trap_addr of a fault in SAVE or LOAD (R405). -/
def shadowFault (i : Issue) (t : TrapInfo) : Issue :=
  { i with st := { i.st with trap := { i.st.trap with info := word t.info, addr := BitVec.ofNat 64 t.addr } } }

/-- What a command of sh_ctl comes to: done, so that SWRITE completes; waiting; or a double fault, with trap_addr and
trap_info as R170 gives them (R405). -/
def shadowSettle (o : BeadOut) : State :=
  match o with
  | .ok i => commit { i with st := { i.st with shCmd := 4, accFault := none } }
  | .block w i => commit { i with st := { i.st with run := .blocked w, blockedAt := i.s.clk.tb } }
  | .trap t i => takeTrap (shadowFault i t) { t with bead := some 255 }

/-- SH_SAVE: the control record and the bead shadows are written (R405). Its operand is the strand. -/
def execShSave (s : State) : Out :=
  match s.arg with
  | .one sid => .next (match shadowWaiter s sid 1 with | some i => shadowSettle (whole i (saveStrand i)) | none => s)
  | _ => .next s

/-- SH_LOAD: the same records are read and installed (R405). Its operand is the strand. -/
def execShLoad (s : State) : Out :=
  match s.arg with
  | .one sid => .next (match shadowWaiter s sid 2 with | some i => shadowSettle (whole i (loadStrand i)) | none => s)
  | _ => .next s

/-- Whether a strand's accesses on paths B and M have performed (R405): no entry of its own is left in the matrix queue. -/
def parkClear (s : State) (sid : Nat) : Bool :=
  beadDone s sid && s.eng.mq.all fun q => q.2.all fun e => e.sid != sid

/-- SH_PARK: once the strand's accesses on paths B and M have performed, it issues nothing more (R405). Its operand is
the strand. -/
def execShPark (s : State) : Out :=
  match s.arg with
  | .one sid =>
    .next (match shadowWaiter s sid 3 with
      | some i =>
        if parkClear s sid then commit { i with st := { i.st with shCmd := 0, run := .parked } } else s
      | none => s)
  | _ => .next s

/-- Whether a placed braid's save is complete: every strand left has parked, every access of it has performed, and capture has
ended (R217, R405). -/
def savedWhole (s : State) (bid : Nat) : Bool :=
  let b := lookD s.braids bid {}
  let mine := s.strands.filter fun e => e.2.braid == bid
  b.st == .placed && !b.capture && !mine.isEmpty && mine.all fun e => e.2.run == .parked && performedAll s e.1

/-- Whether the miss record for which a braid was swapped out is still pending (R321, R322). -/
def swapPending (s : State) (b : Braid) : Bool :=
  match b.swapRec with
  | some r => ((look s.trans.miss (r.1 * 64 + r.2)).map (·.pending)) == some true
  | none => false

/-- BRAID_SAVED: the braid leaves its core; its lanes, tiles and window are freed (R321, R405). Its operand is the
braid. -/
def execBraidSaved (s : State) : Out :=
  match s.arg with
  | .one bid =>
    if savedWhole s bid then
      let b := lookD s.braids bid {}
      .next (setBraid (freePlace s b) bid fun x => { x with
        st := if swapPending s b then .swapped else .saved, tiles := [], saving := false })
    else .next s
  | _ => .next s

/-- The happenings of traps and saves that may take place. -/
def dueTraps (s : State) : List Happening :=
  (s.strands.filterMap fun e =>
    if asyncReady s e.2 then some ⟨.trapEntry, .one e.1⟩
    else match e.2.run with
      | .blocked .shadow =>
        if e.2.shCmd = 1 then some ⟨.shSave, .one e.1⟩
        else if e.2.shCmd = 2 then some ⟨.shLoad, .one e.1⟩
        else if e.2.shCmd = 3 ∧ parkClear s e.1 then some ⟨.shPark, .one e.1⟩
        else none
      | _ => none) ++
  ((s.braids.filter fun e => savedWhole s e.1).map fun e => ⟨.braidSaved, .one e.1⟩)

end Sys2Proof.Machine
end

