-- ==== Sys2Proof/Machine/Kernel.lean ====
section
/-!
DEFINITION. Kernels: launch records (R312, R313), acceptance (R315, R316), LAUNCH (R324, R325), placement and restoring
(R317 to R320, R409), swapping out (R322), deterministic release (R218), and the completion signal at kernel end (R283).
-/

namespace Sys2Proof.Machine
open Sys2Proof

/-! ### Launch records -/

/-- Fields of n bits each from bit `lo` of a record. -/
def fieldsFrom (x lo n count : Nat) : List Nat := (List.range count).map fun i => bits x (lo + n * i + n - 1) (lo + n * i)

/-- The launch record of 192 bytes (R312, R313). -/
def parseRecord (bs : List Byte) : LaunchRec :=
  let x := ofLE bs
  let ctl := bits x 255 192
  let q := fieldsFrom x 448 16 4
  { prog := bits x 63 0, args := BitVec.ofNat 64 (bits x 127 64), signal := bits x 191 128
    stk := bits ctl 63 50, save := bits ctl 49 41, vault := bits ctl 40 32, det := bit ctl 29, prio := bit ctl 28
    tiles := bits ctl 27 26, lk := bit ctl 25, nstr := bits ctl 24 21, wc := bits ctl 7 6, rc := bits ctl 5 2
    uc := bits ctl 1 0
    gx := bits x 271 256, gy := bits x 287 272, gz := bits x 303 288, group := bits x 319 304
    entry := word (bits x 351 320), trap := word (bits x 383 352), resume := word (bits x 415 384)
    delay := bits x 431 416, qbind := q, hmask := fieldsFrom x 512 16 16, pmask := fieldsFrom x 768 32 8
    slots := (fieldsFrom x 1024 64 8).map (BitVec.ofNat 64)
    mbzBad := bits ctl 31 30 != 0 || bits ctl 20 8 != 0 || bits x 447 432 != 0 || q.any fun v => bits v 14 12 != 0 }

/-- W of a record. -/
def LaunchRec.width (r : LaunchRec) : Nat := 16 * 2 ^ r.wc
/-- regs of a record. -/
def LaunchRec.regs (r : LaunchRec) : Nat := 16 * (r.rc + 1)
/-- The words that a strand takes of its lane (R67). -/
def LaunchRec.laneWords (r : LaunchRec) : Nat := r.width * (r.regs + 16)
/-- Strands in a whole braid. -/
def LaunchRec.strands (r : LaunchRec) : Nat := r.nstr + 1
/-- stk_limit in bytes (R313). -/
def LaunchRec.stkBytes (r : LaunchRec) : Nat := 16 * r.stk
/-- Braids of the grid (R314). -/
def LaunchRec.braids (r : LaunchRec) : Nat := r.gx * r.gy * r.gz * if r.lk then 2 else 1

/-- An entry offset that is neither none nor a multiple of 4 (R312, R315). -/
def badEntry (e : Word) : Bool := e != noEntry && e.toNat % 4 != 0

/-- The checks of R315, in the order of its table; `strip` is the class the kernel would run in and `grid` says whether
the grid counts (R355). -/
def refuseCode (s : State) (ctx : Nat) (r : LaunchRec) (strip grid : Bool) : Option Nat :=
  let c := lookD s.ctxs ctx {}
  if c.st ≠ .active ∨ (strip ∧ ¬ c.prio) then some 1
  else if r.mbzBad ∨ r.wc = 3 then some 2
  else if r.laneWords > 4096 then some 3
  else if r.vault > 256 ∨ r.strands * (r.width + 1) * r.stkBytes > 65536 * r.vault ∨
      r.save < 1 + ceilDiv r.strands 4 + 8 * r.tiles + r.vault then some 4
  else if grid ∧ (r.gx = 0 ∨ r.gy = 0 ∨ r.gz = 0 ∨ r.braids ≥ 2 ^ 32) then some 5
  else if r.prog % 256 ≠ 0 ∨ r.entry.toNat % 4 ≠ 0 ∨ badEntry r.trap ∨ badEntry r.resume then some 6
  else if r.qbind.any (fun q => bit q 15 && let x := queueOf s (q % 4096); x.st == .free || x.ctx != ctx) then some 7
  else if r.save > c.saveQuota then some 8
  else none

/-- A kernel accepted or refused: its id, the code of R315 if it is refused, and the state with its record (R165, R316).
Kernels of kinds 1 and 2 form their braids later (R369). -/
def acceptKernel (s : State) (ctx : Nat) (r : LaunchRec) (origin : Origin) (know : List Known) (kind : Nat)
    (chain : Option Nat) (strip : Bool) : Nat × Option Nat × State :=
  let kid := s.cmd.nextKernel
  let code := refuseCode s ctx r strip (kind == 0)
  let k : Kernel :=
    { ctx := ctx, lrec := r, origin := origin, kind := kind, chain := chain, strip := strip
      seed := ((lookD s.ctxs ctx {}).seeds.head?).getD 0, know := know, startLog := s.mem.log.length
      total := if code.isSome || kind != 0 then 0 else r.braids
      open_ := code.isNone && kind != 0
      err := match code with | some c => word (0x100 + c) | none => 0 }
  (kid, code, { s with cmd := { s.cmd with
    nextKernel := if kid = 0x7FFFFFFF then 1 else kid + 1, kernels := put s.cmd.kernels kid k } })

/-- Whether the command processor is at work: released, and not under recovery (R426, R430). -/
def cmdUp (s : State) : Bool := decide (s.keep.released ≥ 2) && s.keep.recovering.isNone

/-! ### LAUNCH -/

/-- The 192 bytes of a record as a strand's bead-path reads return them (R199, R200, R325). -/
def readRecord (i : Issue) (va : Nat) (k : List Byte → Issue → BeadOut) : BeadOut := loadPieces 3 va i k

/-- LAUNCH (R324, R325). -/
def execLaunch (d a : Reg) (s : State) : Out :=
  onStrand s fun i =>
    let srcs := srcsW (pairOf a)
    runForm true (uniDstOk i.st d && uniPairOk i.st a) true
      (fun j i => readyOr i j srcs [d] (readAll j srcs 0 i fun vs i =>
        let va := (pairAt vs 0).toNat
        if va % 64 ≠ 0 then .trap (misaligned va) i
        else readRecord i va fun bs i =>
          if i.s.flight.launches.length ≥ 256 then .block .launchFull i
          else
            let ks := regKeys i.st j [d]
            let (id, s) := newFlight i.s
            let op : LaunchOp := { id := id, sid := i.sid, ctx := i.st.ctx, dst := ks, lrec := parseRecord bs, know := i.st.know }
            .ok { i with s := setFlight s fun f => { f with launches := f.launches ++ [op] }, st := emptyKeys i.st ks })) i

/-- LAUNCH_ACCEPTANCE: a record handed over by LAUNCH is accepted or refused, and the destination takes the kernel id or
the code (R325). Its operand is the launch. -/
def execLaunchAcceptance (s : State) : Out :=
  match s.arg with
  | .one id =>
    match s.flight.launches.find? fun x => x.id == id with
    | some op =>
      if !cmdUp s || s.flight.launches.any fun x => x.sid == op.sid && decide (x.id < id) then .next s
      else
        let s := setFlight s fun f => { f with launches := f.launches.filter fun x => x.id != id }
        let (kid, code, s) := acceptKernel s op.ctx op.lrec (.insn op.sid) op.know 0 none op.lrec.prio
        let v := match code with | some c => word (0x80000100 + c) | none => word kid
        .next { s with strands := upd s.strands op.sid fun st => fillKeys st op.dst [v] }
    | none => .next s
  | _ => .next s

/-! ### What is free on a core (R317) -/

/-- The braids placed on the cores that a test admits. -/
def placedWhere (s : State) (p : Nat → Bool) : List (Nat × Braid) :=
  s.braids.filter fun e => e.2.st == .placed && p e.2.core

/-- The kernel of a braid. -/
def kernelOfBraid (s : State) (b : Braid) : Kernel := lookD s.cmd.kernels b.kernel {}

/-- The strands resident on a lane, retired ones included until their braid has retired, and the words that those not
retired hold (R66, R67, R69). -/
def laneLoad (s : State) (core lane : Nat) : Nat × Nat :=
  (placedWhere s (· == core)).foldl (fun acc e =>
    let live := s.strands.countP fun x => x.2.braid == e.1 && x.2.lane == lane
    (acc.1 + e.2.lanes.countP (· == lane), acc.2 + live * (kernelOfBraid s e.2).lrec.laneWords)) (0, 0)

/-- A slot of a lane that no strand holds. -/
def freeSlot (s : State) (core lane : Nat) : Nat :=
  ((List.range 8).find? fun x => !s.strands.any fun e =>
    e.2.core == core && e.2.lane == lane && e.2.slot == x && (braidOf s e.2).st == .placed).getD 0

/-- The lanes of a core with room for one more strand (R67). -/
def freeLanes (s : State) (core words : Nat) : List Nat :=
  (List.range 64).filter fun l =>
    let (n, w) := laneLoad s core l
    decide (n < 8) && decide (w + words ≤ 4096)

/-- The 64 KiB-aligned offsets of an area at which a range fits clear of others. -/
def freeOffsets (area : Nat × Nat) (size : Nat) (used : List (Nat × Nat)) : List Nat :=
  if size = 0 then [area.1]
  else ((List.range (area.2 / 65536)).map fun i => area.1 + 65536 * i).filter fun o =>
    decide (o + size ≤ area.1 + area.2) && used.all fun u => !overlaps o size u.1 u.2

/-- The ranges of a vault that are still being zeroed (R186). -/
def zeroingIn (s : State) (v : Nat) : List (Nat × Nat) :=
  (s.trans.zeroing.filter fun z => decide (z.len > 0) && isVault z.pa && (z.pa - vaultBase) / 2 ^ 26 == v).map fun z =>
    (z.pa % 2 ^ 26, z.len)

/-- The windows held in a vault. -/
def usedWindows (s : State) (v : Nat) : List (Nat × Nat) :=
  (placedWhere s fun c => c / 4 == v).map (fun e => (e.2.winOff, bwSize s e.2)) ++ zeroingIn s v

/-- The save areas held in a vault. -/
def usedSaves (s : State) (v : Nat) : List (Nat × Nat) :=
  ((s.braids.filter fun e => e.2.st != .retired && e.2.saveVault == v).map fun e =>
    (e.2.saveOff, (kernelOfBraid s e.2).lrec.save * 65536)) ++ zeroingIn s v

/-- The physical tiles of a core that are free (R252). -/
def freeTiles (s : State) (core : Nat) : List Nat :=
  (List.range 3).filter fun t =>
    !((placedWhere s (· == core)).any fun e => e.2.tiles.contains t) &&
      !s.trans.zeroing.any fun z => z.tile == some (core * 3 + t)

/-- The save-pool units that a context's braids hold (R159). -/
def savesHeld (s : State) (ctx : Nat) : Nat :=
  (s.braids.filter fun e => e.2.ctx == ctx && e.2.st != .retired).foldl
    (fun n e => n + (kernelOfBraid s e.2).lrec.save) 0

/-- Both entries, without which a braid is never saved (R401). -/
def savable (k : Kernel) : Bool := k.lrec.trap != noEntry && k.lrec.resume != noEntry

/-- The limit of R342, and the cores that a chain keeps clear (R343), for a background braid. -/
def backgroundOk (s : State) (k : Kernel) (core : Nat) : Bool :=
  k.strip ||
    (!(s.strips.chains.any fun e => e.2.cores.contains core) &&
      (!inPool s core ||
        (savable k &&
          let others := (placedWhere s fun c => c / 4 == core / 4).filter fun e => !(kernelOfBraid s e.2).strip
          decide (others.foldl (fun n e => n + bwSize s e.2) 0 + k.lrec.vault * 65536 ≤ 2 * 2 ^ 20) &&
            decide (others.foldl (fun n e => n + e.2.tiles.length) 0 + k.lrec.tiles ≤ 2))))

/-- At most one deterministic kernel on a quad (R219). -/
def detOk (s : State) (kid : Nat) (k : Kernel) (core : Nat) : Bool :=
  !k.lrec.det || !(placedWhere s fun c => c / 4 == core / 4).any fun e =>
    (kernelOfBraid s e.2).lrec.det && e.2.kernel != kid

/-! ### Placing (R317, R320, R186) -/

/-- Distinct elements of a list, each picked by a free value (log 1). -/
def pickSome : Nat → List Nat → State → List Nat × State
  | 0, _, s => ([], s)
  | n + 1, l, s =>
    let (f, s) := drawFree s
    let x := l.getD (f % l.length) 0
    let (r, s) := pickSome n (l.filter fun y => y != x) s
    (x :: r, s)

/-- One element of a list, picked by a free value. -/
def pickOne (l : List Nat) (s : State) : Nat × State :=
  let (f, s) := drawFree s
  (l.getD (f % l.length) 0, s)

/-- Where a braid is placed. -/
structure Site where
  core : Nat
  lanes : List Nat
  slot : Nat
  winOff : Nat
  saveVault : Nat
  saveOff : Nat
  tiles : List Nat
  deriving DecidableEq, Repr

/-- A place on a core for a braid of n strands that meets R317, each choice by a free value; a braid that has a save area
keeps it (R186). -/
def siteOn (s : State) (kid : Nat) (k : Kernel) (n core : Nat) (held : Option (Nat × Nat)) : Option (Site × State) :=
  let v := core / 4
  let r := k.lrec
  let m := vaultMap s v
  let lanes := freeLanes s core r.laneWords
  let offs := freeOffsets (windowArea m) (r.vault * 65536) (usedWindows s v)
  let saves := match held with
    | some h => [h.2]
    | none => freeOffsets (saveArea m) (r.save * 65536) (usedSaves s v)
  let tiles := freeTiles s core
  let slots := (List.range 512).filter fun x => !(placedWhere s (· == core)).any fun e => e.2.slot == x
  let quota := held.isSome || decide (savesHeld s k.ctx + r.save ≤ (lookD s.ctxs k.ctx {}).saveQuota)
  if (lookD s.ctxs k.ctx {}).st ≠ .active ∨ lanes.length < n ∨ offs = [] ∨ saves = [] ∨ slots = [] ∨ tiles.length < r.tiles ∨
      ¬ quota ∨ ¬ backgroundOk s k core ∨ ¬ detOk s kid k core then none
  else
    let (ls, s) := pickSome n lanes s
    let (slot, s) := pickOne slots s
    let (w, s) := pickOne offs s
    let (o, s) := pickOne saves s
    let (ts, s) := pickSome r.tiles tiles s
    some (⟨core, ls, slot, w, match held with | some h => h.1 | none => v, o, ts⟩, s)

/-- The base of the stack space of strand x (R320, R409). -/
def stackBase (r : LaunchRec) (core slot x : Nat) : DWord :=
  BitVec.ofInt 64 ((windowBase core slot : Int) + r.vault * 65536 - (x + 1) * (r.width + 1) * r.stkBytes)

/-- The address of a save area (R406). -/
def saveAddr (v o : Nat) : DWord := BitVec.ofNat 64 (saveAperture + v * 2 ^ 26 + o)

/-- The ports that a record binds (R312). -/
def boundPorts (r : LaunchRec) : SMap Nat :=
  ((List.zip (List.range 4) r.qbind).filter fun e => bit e.2 15).map fun e => (e.1, e.2 % 4096)

/-- The beads that carry a fragment, helpers included (R369). -/
def beadSet (m : SMap FragBead) : DWord := m.foldl (fun acc e => acc ||| 1 <<< e.1) 0

/-- The preloads s6 and s7 of a kernel's strands (R356, R369). -/
def stripPreloads (s : State) (k : Kernel) (f : Option FormedStrand) : List (Nat × Word) :=
  match f with
  | some x =>
    let strip := match k.chain.bind fun c => look s.strips.chains c with | some c => c.strip | none => 0
    [(6, x.s6), (7, word strip)]
  | none =>
    match k.origin with
    | .geometry _ frame => [(6, word frame), (7, 0xFFFFFFFF)]
    | .replay c => [(6, word ((look s.strips.chains c).elim 0 (·.frame))), (7, k.stripNo)]
    | _ => []

/-- Words laid into a register table whose unlisted registers are zero and full. -/
def regTable (l : List (Nat × Word)) : SMap RegVal := l.foldl (fun m e => putD {} m e.1 { val := e.2 }) []

/-- A strand at its start (R320). -/
def newStrand (s : State) (kid : Nat) (k : Kernel) (bid index x : Nat) (t : Site) (f : Option FormedStrand) : Strand :=
  let r := k.lrec
  let base : DWord := BitVec.ofNat 64 (windowBase t.core t.slot)
  let lane := t.lanes.getD x 0
  { braid := bid, kernel := kid, ctx := k.ctx, core := t.core, lane := lane, slot := freeSlot s t.core lane, sx := x
    width := r.width, regs := r.regs, uregs := 8 * (r.uc + 1), strip := k.strip, pc := r.entry
    flow := { mask := match f with | some x => beadSet x.frags | none => fullMask r.width }
    breg := match f with | some x => regTable x.regs | none => []
    ureg := regTable ([(0, r.args.lo), (1, r.args.hi), (2, base.lo), (3, base.hi), (4, word index), (5, word x)] ++
      stripPreloads s k f)
    issued := s.choice, placed := s.choice, ports := boundPorts r
    stk := stackBase r t.core t.slot x, stkLimit := word r.stkBytes, save := saveAddr t.saveVault t.saveOff
    bary := match f with | some x => x.bary | none => []
    frags := match f with | some x => x.frags | none => []
    know := k.know }

/-- The hinges of a braid of n strands: its own, and, where it holds the pair hinges, those of the locket's strands, given by
their numbers in the leader and in the follower (R274, R275). -/
def newHinges (r : LaunchRec) (n : Nat) (locket : Option (Nat × Nat)) : SMap Hinge :=
  let own := (List.zip (List.range 16) r.hmask).map fun e => (e.1, bits e.2 15 0 % 2 ^ n)
  let pair := match locket with
    | none => []
    | some (a, b) => (List.zip ((List.range 8).map (· + 16)) r.pmask).map fun e =>
      (e.1, bits e.2 15 0 % 2 ^ a + bits e.2 31 16 % 2 ^ b * 2 ^ 16)
  ((own ++ pair).filter fun e => e.2 != 0).map fun e => (e.1, { members := e.2 })

/-- The strands that a braid of an index has: those that hold quads, for a braid that the front end formed (R369). -/
def strandsOf (k : Kernel) (index : Nat) : Nat :=
  match k.formed.find? fun f => f.index == index with
  | some f => f.strands.length
  | none => k.lrec.strands

/-- The strands of the leader and of the follower, for a braid that holds its locket's pair hinges: the leader, or a braid of
a locket that was placed alone (log 112). -/
def pairStrands (k : Kernel) (index : Nat) (mate : Option Nat) (leader : Bool) : Option (Nat × Nat) :=
  if !k.lrec.lk then none
  else if leader then some (strandsOf k index, if mate.isSome then strandsOf k (index + 1) else 0)
  else if mate.isNone then some (0, strandsOf k index)
  else none

/-- A braid laid on a site: its record, its strands, and the kernel's count (R318, R320, R321). -/
def layBraid (s : State) (kid : Nat) (k : Kernel) (index : Nat) (t : Site) (mate : Option Nat) (leader : Bool) : Nat × State :=
  let bid := s.nextBid
  let formed := k.formed.find? fun f => f.index == index
  let n := strandsOf k index
  let b : Braid :=
    { kernel := kid, index := index, ctx := k.ctx, core := t.core, locket := if k.lrec.lk then some (index / 2) else none
      mate := mate, leader := leader, slot := t.slot, winOff := t.winOff, saveVault := t.saveVault, saveOff := t.saveOff
      tiles := t.tiles, lanes := t.lanes, hinges := newHinges k.lrec n (pairStrands k index mate leader) }
  let (f, s) := drawFree s
  let cyc := put s.clk.cyc t.core (lookD s.clk.cyc t.core 0 + f)
  let s := { s with braids := put s.braids bid b, nextBid := bid + 1, clk := { s.clk with cyc := cyc } }
  let s := (List.range n).foldl (fun s x =>
    let st := newStrand s kid k bid index x t (formed.bind fun f => f.strands[x]?)
    { s with strands := put s.strands s.nextSid st, nextSid := s.nextSid + 1 }) s
  (bid, setKernel s kid fun k => { k with
    t0 := k.t0.orElse fun _ => some (nowNs s)
    placed := k.placed ++ [index]
    formed := k.formed.filter fun f => f.index != index })

/-- Whether the braid of an index and the next are placed as a locket: always where a grid gives them, and where the front
end has formed both (R317, R369; log 112). -/
def pairedAt (k : Kernel) (index : Nat) : Bool := k.kind == 0 || k.formed.any fun f => f.index == index + 1

/-- A braid, or a locket by its leader's index, placed on a core (R317); none where the conditions do not hold. -/
def placeOn (s : State) (kid index core : Nat) : Option State :=
  match look s.cmd.kernels kid with
  | none => none
  | some k =>
    let n := strandsOf k index
    if !k.lrec.lk then
      (siteOn s kid k n core none).map fun x => (layBraid x.2 kid k index x.1 none false).2
    else if core % 2 ≠ index % 2 then none
    else if index % 2 = 1 ∨ ¬ pairedAt k index then
      (siteOn s kid k n core none).map fun x => (layBraid x.2 kid k index x.1 none (index % 2 == 0)).2
    else match siteOn s kid k n core none with
      | none => none
      | some (t, s) =>
        let (b1, s) := layBraid s kid k index t (some (s.nextBid + 1)) true
        match siteOn s kid k (strandsOf k (index + 1)) (core + 1) none with
        | none => none
        | some (t, s) => some (layBraid s kid k (index + 1) t (some b1) false).2

/-- Whether a group of the stagger may be placed (R318). -/
def staggerOk (s : State) (k : Kernel) (index : Nat) : Bool :=
  let g := if k.lrec.group = 0 then 0 else index / k.lrec.group
  decide (k.t0.getD (nowNs s) + g * k.lrec.delay ≤ nowNs s)

/-- Whether a formed braid of a locket waits for no other: the next is formed too, or is not formed before this one has
shaded, and a follower's leader has been placed (R348, R369; log 112). -/
def locketFormed (s : State) (k : Kernel) (index : Nat) : Bool :=
  if index % 2 = 1 then !k.formed.any fun f => f.index + 1 == index
  else pairedAt k index || !k.open_ || match k.chain.bind fun c => look s.strips.chains c with
    | some ch => k.kind == 1 && ch.formed == 256 * (ch.checkpoints + 1)
    | none => true

/-- The next braids of a kernel, in ascending index and lockets by their leaders: the formed ones, or the lowest that is not
placed, since the braids of a grid all need the same; of a deterministic kernel the lowest alone (R317, R318, R219). -/
def usableIndexes (s : State) (k : Kernel) : List Nat :=
  if k.discarded then []
  else
    let all := if k.kind ≠ 0 then (k.formed.map (·.index)).filter fun x => !k.lrec.lk || locketFormed s k x
      else ((List.range (k.placed.length + 2)).filter fun x =>
        decide (x < k.total) && !k.placed.contains x && (!k.lrec.lk || x % 2 == 0)).take 1
    let all := if k.lrec.det then all.take 1 else all
    all.filter fun x => staggerOk s k x && (!k.lrec.lk || staggerOk s k (x + 1))

/-! ### Restoring (R409) -/

/-- A strand started again at its resume entry, in trap mode. What R409 does not name of the interrupted state, and the
resume handler restores, starts as free values (log 27). -/
def restoredStrand (s : State) (k : Kernel) (b : Braid) (t : Site) (st : Strand) : Strand :=
  let area := saveAddr b.saveVault b.saveOff
  let base : DWord := BitVec.ofNat 64 (windowBase t.core t.slot)
  let lane := t.lanes.getD st.sx 0
  { st with
    core := t.core, lane := lane, slot := freeSlot s t.core lane
    pc := k.lrec.resume, inTrap := true, run := .ready, pos := 0, popped := [], yielded := false, insn := none
    flow := { mask := liveMask st }, savedFlow := {}, savedPos := 0
    breg := []
    ureg := regTable [(32, area.lo), (33, area.hi), (34, base.lo), (35, base.hi)]
    save := area, stk := stackBase k.lrec t.core t.slot st.sx, stkLimit := word k.lrec.stkBytes
    trap := { cause := st.trap.cause, mask := liveMask st }
    draw := word (Config.free (s.choice + 256))
    bary := if st.frags.isEmpty then [] else
      (List.range 256).foldl (fun m x => putD 0 m x (word (Config.free (s.choice + x)))) []
    issued := s.choice, placed := s.choice }

/-- A saved braid laid on a site. -/
def relayBraid (s : State) (bid : Nat) (t : Site) : State :=
  match look s.braids bid with
  | none => s
  | some b =>
    let k := kernelOfBraid s b
    let again := fun (e : Nat × Strand) =>
      if e.2.braid = bid then (e.1, restoredStrand { s with choice := s.choice + 257 * e.1 } k b t e.2) else e
    let s := { s with strands := s.strands.map again }
    let (f, s) := drawFree { s with choice := s.choice + 257 * s.nextSid }
    let s := { s with clk := { s.clk with cyc := put s.clk.cyc t.core (lookD s.clk.cyc t.core 0 + f) } }
    setBraid s bid fun b => { b with
      st := .placed, core := t.core, slot := t.slot, winOff := t.winOff, tiles := t.tiles, lanes := t.lanes,
      mcCount := 0, mcStore := [], swapRec := none }

/-- The lanes a saved braid needs: one for each strand number it started with. -/
def lanesNeeded (b : Braid) : Nat := b.lanes.length

/-- A saved braid, with its mate where that is saved too, placed again on a core (R317, R409). A mate that is still on its
core, or waits on its miss record, holds the locket back. -/
def restoreOn (s : State) (bid core : Nat) : Option State :=
  match look s.braids bid with
  | none => none
  | some b =>
    if b.st ≠ .saved then none
    else
      let one := fun (s : State) (bid core : Nat) (b : Braid) =>
        (siteOn s b.kernel (kernelOfBraid s b) (lanesNeeded b) core (some (b.saveVault, b.saveOff))).map fun x =>
          relayBraid x.2 bid x.1
      match b.mate.bind fun m => (look s.braids m).map fun x => (m, x) with
      | none => if b.locket.isSome ∧ core % 2 ≠ (if b.leader then 0 else 1) then none else one s bid core b
      | some (m, mb) =>
        if mb.st = .retired then if core % 2 = (if b.leader then 0 else 1) then one s bid core b else none
        else if mb.st ≠ .saved ∨ ¬ b.leader ∨ core % 2 = 1 then none
        else (one s bid core b).bind fun s => one s m (core + 1) mb

/-! ### The distributor's order (R317, R321, R339) -/

/-- What the distributor offers: a saved braid, or the next braid of a kernel. -/
inductive Offer where
  | saved (bid : Nat)
  | fresh (kid index : Nat)
  deriving DecidableEq, Repr

/-- The cores on which an offer can be placed. -/
def offerCores (s : State) : Offer → List Nat
  | .saved bid => (List.range 192).filter fun c => (restoreOn s bid c).isSome
  | .fresh kid index => (List.range 192).filter fun c => (placeOn s kid index c).isSome

/-- The saved braids of a class. -/
def savedOffers (s : State) (strip : Bool) : List Offer :=
  (s.braids.filter fun e => e.2.st == .saved && (kernelOfBraid s e.2).strip == strip).map fun e => .saved e.1

/-- What is offered of a kernel's next braids: the lowest that can be placed (R317). -/
def freshOffers (s : State) (e : Nat × Kernel) : List Offer :=
  (((usableIndexes s e.2).map fun x => Offer.fresh e.1 x).find? fun o => !(offerCores s o).isEmpty).toList

/-- The deadline of a kernel's chain (R339). -/
def kernelDeadline (s : State) (k : Kernel) : Option Int :=
  (k.chain.bind fun c => look s.strips.chains c).map fun c => (chainStream s c).deadline c.frame c.strip

/-- The stream of a kernel's chain. -/
def kernelStream (s : State) (k : Kernel) : Nat := ((k.chain.bind fun c => look s.strips.chains c).map (·.stream)).getD 64

/-- Whether a chain's kernel goes before another (R339). -/
def chainBefore (s : State) (a b : Nat × Kernel) : Bool :=
  match kernelDeadline s a.2, kernelDeadline s b.2 with
  | some x, some y => decide (x < y) || (decide (x = y) && decide (kernelStream s a.2 < kernelStream s b.2))
  | _, _ => false

/-- A kernel put into its place among chain kernels. -/
def insertKernel (s : State) (x : Nat × Kernel) : List (Nat × Kernel) → List (Nat × Kernel)
  | [] => [x]
  | y :: t => if chainBefore s x y then x :: y :: t else y :: insertKernel s x t

/-- The offers in the order of R317, R321 and R339: each list is offered before the next. -/
def offerTiers (s : State) : List (List Offer) :=
  let ks := s.cmd.kernels
  let inChain := fun (e : Nat × Kernel) => e.2.strip && (kernelDeadline s e.2).isSome
  [savedOffers s true] ++
  (((ks.filter inChain).foldl (fun acc x => insertKernel s x acc) []).map (freshOffers s)) ++
  [(ks.filter fun e => e.2.strip && !inChain e).flatMap (freshOffers s), savedOffers s false,
   (ks.filter fun e => !e.2.strip).flatMap (freshOffers s)]

/-- The offers that can be placed now (R430). -/
def openOffers (s : State) : List Offer :=
  if !cmdUp s then []
  else match (offerTiers s).findSome? fun t =>
      let ok := t.filter fun o => !(offerCores s o).isEmpty
      if ok.isEmpty then none else some ok with
  | some l => l
  | none => []

/-- BRAID_PLACE: a waiting braid, or a locket, is placed (R317, R318, R320). Its operand is the kernel, the index and the
core. -/
def execBraidPlace (s : State) : Out :=
  match s.arg with
  | .three kid index core =>
    .next (if (openOffers s).contains (.fresh kid index) then (placeOn s kid index core).getD s else s)
  | _ => .next s

/-- BRAID_RESTORE: a saved braid is placed again, at its resume entry (R321, R409). Its operand is the braid and the
core. -/
def execBraidRestore (s : State) : Out :=
  match s.arg with
  | .two bid core =>
    .next (if (openOffers s).contains (.saved bid) then (restoreOn s bid core).getD s else s)
  | _ => .next s

/-! ### Saving on request (R408), and swapping out (R322) -/

/-- A cause held for every strand of a braid and of its mate in a locket (R408, R412). -/
def requestSave (s : State) (bid cause info : Nat) : State :=
  let mate := (lookD s.braids bid {}).mate
  { s with strands := s.strands.map fun e =>
      if e.2.braid = bid ∨ some e.2.braid = mate then (e.1, holdCause e.2 { cause := cause, info := word info }) else e }

/-- A member of a hinge of the strand waits there, in a phase that the strand has not arrived at (R322). -/
def hingeHolds (s : State) (st : Strand) : Bool :=
  (List.range 24).any fun h =>
    let home := hingeHome s st h
    let m := hingeMember s st h
    let hg := hingeOfBraid s home h
    bit hg.members m && !bit hg.arrived m &&
      s.strands.any fun e => hingeBlocked s e.2 == some h && hingeHome s e.2 h == home

/-- Whether a strand's wait on a miss record swaps its braid out (R322, R401). -/
def swapReady (s : State) (st : Strand) : Bool :=
  let b := braidOf s st
  let thr := (sregOf s 0x10).toNat % 2 ^ 16
  match st.run with
  | .blocked (.miss q r _ _) =>
    b.st == .placed && b.swapRec.isNone && !b.saving && savable (kernelOf s st) &&
      (match look s.trans.miss (q * 64 + r) with | some m => m.pending | none => false) &&
      ((thr != 0 && decide (s.clk.tb > st.blockedAt + thr * 1000 * 2 ^ 16)) || hingeHolds s st)
  | _ => false

/-- SWAP_OUT: the braid of a strand that waits on a pending miss record is swapped out (R322). Its operand is the
strand. -/
def execSwapOut (s : State) : Out :=
  match s.arg with
  | .one sid =>
    match look s.strands sid with
    | some st =>
      match st.run with
      | .blocked (.miss q r _ _) =>
        .next (if swapReady s st then
            requestSave (setBraid s st.braid fun b => { b with swapRec := some (q, r) }) st.braid 0x11 1
          else s)
      | _ => .next s
    | none => .next s
  | _ => .next s

/-! ### Deterministic release (R218) -/

/-- Whether the address of a staged entry of a context still names what it named: an aperture address does so while its
aperture gives the same place to a strand of the context, and a save area while its braid holds it (R163, R187, R359, R406;
log 105). -/
def entryHolds (s : State) (ctx : Nat) (x : Staged) : Bool :=
  decide (x.va < apertureBase) ||
    match useAperture s { ctx := ctx, quad := 0, bid := if x.va < saveAperture then some 0 else none, path := some .b,
                          need := .write } x.va x.bytes.length with
    | .ok pa _ _ => pa == x.pa
    | _ => false

/-- A staged entry performed at its home; an atomic is performed again on the value it meets (R200, R218). -/
def releaseEntry (ctx : Nat) (s : State) (x : Staged) : State :=
  let n := x.bytes.length
  let s := settleZero s x.pa n
  if !entryHolds s ctx x then s
  else if x.form = 0 then writeNow s x.writeId x.pa x.key x.bytes (some .b) x.pubs
  else if eccHit s x.pa n then s
  else
    let (m, s) := readNow s x.pa x.key n
    let v := atomNew x.form (8 * n) (ofLE m) (ofLE x.bytes) (x.cmp.toNat % 2 ^ (8 * n))
    writeNow s x.writeId x.pa x.key (toLE n v) (some .b) x.pubs

/-- Whether a retired braid's entries may be released: every braid of lower index has been (R218). -/
def releaseReady (s : State) (b : Braid) : Bool :=
  b.st == .retired && isHead s b && !b.staged.any fun x => heldBySlot s x.pa x.bytes.length || poolFirst s none x.pa

/-- DETERMINISTIC_RELEASE (R218). Its operand is the braid. -/
def execDeterministicRelease (s : State) : Out :=
  match s.arg with
  | .one bid =>
    match look s.braids bid with
    | some b => .next (if releaseReady s b then releaseBraid (b.staged.foldl (releaseEntry b.ctx) s) bid else s)
    | none => .next s
  | _ => .next s

/-! ### Kernel end (R283, R323) -/

/-- Whether a kernel has ended but for its signal: every braid is released, every command of its strands is final, and no
fragment of it waits at blend and no triangle at the binner (R323, R362, R377). -/
def kernelOver (s : State) (kid : Nat) (k : Kernel) : Bool :=
  !k.open_ && k.formed.isEmpty &&
    (if k.discarded then k.released.length == k.placed.length else k.released.length == k.total) &&
    !(s.ctxs.any fun c => c.2.futures.any fun f => f.2.st == .pending && f.2.kernel == kid && f.2.join.isNone) &&
    !(s.strips.frags.any fun f => f.2.kernel == kid) && !s.flight.bins.any fun x => x.kernel == kid

/-- The 32 bytes that the completion signal takes (R282, R283). -/
def signalBytes (s : State) (k : Kernel) (value : Nat) (sys : Bool) : List Byte :=
  let now := nowNs s
  toLE 32 ((value + 1) % 2 ^ 64 + (k.t0.getD now) % 2 ^ 64 * 2 ^ 64 + now % 2 ^ 64 * 2 ^ 128 + k.err.toNat * 2 ^ 192 +
    2 ^ 224 + (k.err != 0).toNat * 2 ^ 225 + sys.toNat * 2 ^ 226)

/-- Whether a write that a publication names has still to perform here (R216). -/
def writesDue (s : State) (ks : List Known) : Bool :=
  (s.flight.stores.any fun x => ks.any fun k => k.1 == x.writeId) ||
    (s.flight.atoms.any fun x => x.old.isNone && ks.any fun k => k.1 == x.writeId) ||
    s.flight.spawns.any fun x => ks.any fun k => x.ids.contains k.1

/-- The write of the completion signal: done, or waiting, on a miss record, for LPDDR6 or, where it releases at system scope, for
what it publishes, in which case nothing is said yet (R221, R283, R446). -/
def endSignal (s : State) (kid : Nat) (k : Kernel) : Option State × State :=
  let lose := fun (s : State) => (some (postEvent s 0xFFFF k.ctx 0x0004 kid), s)
  if k.lrec.signal = 0 then (some s, s)
  else if k.lrec.signal % 32 ≠ 0 ∨ k.lost then lose s
  else
    let a : Accessor := { ctx := k.ctx, quad := 0, need := .both, given := k.given.toList }
    match translation s a k.lrec.signal 32 with
    | (.fault _ _, s) => lose s
    | (.miss, s) =>
      match joinMiss s a k.lrec.signal with
      | (some idx, s) => (none, setKernel s kid fun k => { k with stall := some idx })
      | (none, s) => (none, s)
    | (.ok pa key _, s) =>
      let scope := signalScope s pa .device
      if heldBySlot s pa 32 || poolFirst s none pa || (scope == .system && writesDue s k.ends) then (none, s) else
      let s := settleZero s pa 32
      let s := if scope = .system then sendTokens s k.ends else s
      let (old, s) := readNow s pa key 8
      let pub : Pub := { scope := scope, by_ := .queue 0, pairs := k.ends }
      let s := (writeOwn s pa key (signalBytes s k (ofLE old) (scope == .system)) none [pub]).2
      (some s, s)

/-- The kernels that ended during a recovery and whose signals no miss holds back (R430, R446). -/
def dueEnded (s : State) : List Nat :=
  s.keep.due.filter fun kid => match look s.cmd.kernels kid with | some k => k.stall.isNone | none => false

/-- The kernels whose end may take place; those that ended during a recovery come first, in the order in which they
ended, but for those whose signal waits on a miss (R430, R446). -/
def endsReady (s : State) : List (Nat × Kernel) :=
  if !cmdUp s then []
  else s.cmd.kernels.filter fun e =>
    e.2.stall.isNone && kernelOver s e.1 e.2 && ((dueEnded s).isEmpty || (dueEnded s).head? == some e.1)

/-- The kernels that have ended during a recovery, in order, with those that end now (R430). -/
def noteEnded (s : State) : State :=
  if s.keep.recovering.isSome then
    let now := (s.cmd.kernels.filter fun e => !s.keep.due.contains e.1 && kernelOver s e.1 e.2).map (·.1)
    { s with keep := { s.keep with due := s.keep.due ++ now } }
  else s

/-- The happenings of kernels that may take place. -/
def dueKernels (s : State) : List Happening :=
  ((openOffers s).map fun o =>
    let cores := offerCores s o
    let core := cores.getD (Config.free s.choice % cores.length) 0
    match o with
    | .saved bid => ⟨.braidRestore, .two bid core⟩
    | .fresh kid index => ⟨.braidPlace, .three kid index core⟩) ++
  (s.strands.filterMap fun e => if swapReady s e.2 then some ⟨.swapOut, .one e.1⟩ else none) ++
  (s.braids.filterMap fun e => if releaseReady s e.2 then some ⟨.deterministicRelease, .one e.1⟩ else none) ++
  (((if cmdUp s then s.flight.launches else []).filter fun x => !s.flight.launches.any fun y => y.sid == x.sid && decide (y.id < x.id)).map fun x =>
    ⟨.launchAcceptance, .one x.id⟩) ++
  ((endsReady s).map fun e => ⟨.kernelEnd, .one e.1⟩)

end Sys2Proof.Machine
end

