-- ==== Sys2Proof/Machine/Raster.lean ====
section
/-!
DEFINITION. Rings and their areas (R357, R358), triangles and coverage (R361, R367), depth and barycentrics (R368, R369),
the blocks of a quad, and colour codes (R378).
-/

namespace Sys2Proof.Machine
open Sys2Proof

/-! ### Areas of a ring (R357, R358) -/

/-- A 16-bit field of a stream's ring descriptor, from bit `lo`. -/
def ringField (s : State) (x : Stream) (lo : Nat) : Nat := bits (ringDesc s x.ring) (lo + 15) lo

/-- Entries per strip list. -/
def lcap (s : State) (x : Stream) : Nat := ringField s x 16
/-- Render line slots. -/
def nlines (s : State) (x : Stream) : Nat := ringField s x 32
/-- P_r. -/
def Stream.pitchR (x : Stream) : Nat := 128 * ceilDiv (4 * x.rendW) 128
/-- P_o. -/
def Stream.pitchO (x : Stream) : Nat := 128 * ceilDiv (4 * x.outW) 128
/-- M. -/
def Stream.slotsM (x : Stream) : Nat := x.lead + 2
/-- B. -/
def Stream.bandB (x : Stream) : Nat := ceilDiv (x.stripH * x.den) x.num
/-- The strip slot of strip k of frame n. -/
def Stream.slotOf (x : Stream) (n k : Nat) : Nat := (n * x.strips + k) % x.slotsM

/-- An offset of an area, whose field counts 64 KiB units. -/
def areaOff (s : State) (x : Stream) (lo : Nat) : Nat := ringField s x lo * 65536

/-- The ring offset of pixel px of render line y of frame n. -/
def rendOff (s : State) (x : Stream) (n y px : Nat) : Nat :=
  areaOff s x 48 + (n * x.rendH + y) % max 1 (nlines s x) * x.pitchR + 4 * px

/-- The ring offset of pixel px of output line y of frame n. -/
def outOff (s : State) (x : Stream) (n y px : Nat) : Nat :=
  let k := y / x.stripH
  areaOff s x 64 + (x.slotOf n k * x.stripH + y % x.stripH) * x.pitchO + 4 * px

/-- The ring offset of the depth of pixel px of render line y in chain k. -/
def depOff (s : State) (x : Stream) (n k y px : Nat) : Nat :=
  areaOff s x 80 + x.slotOf n k * x.bandB * x.pitchR + (y - (x.band k).1) * x.pitchR + 4 * px

/-- Bytes of half a bin pool. -/
def binHalf (s : State) (x : Stream) : Nat := ringField s x 112 * 65536 / 2

/-- The ring offset of list k of frame n. -/
def listOff (s : State) (x : Stream) (n k : Nat) : Nat :=
  areaOff s x 96 + n % 2 * binHalf s x + k * lcap s x * 4

/-- The ring offset of record r of frame n. -/
def recOff (s : State) (x : Stream) (n r : Nat) : Nat :=
  areaOff s x 96 + n % 2 * binHalf s x + x.strips * lcap s x * 4 + 64 * r

/-- Records for which half a pool has room (R363). -/
def recRoom (s : State) (x : Stream) : Nat := (binHalf s x - x.strips * lcap s x * 4) / 64

/-- A word of a ring store. -/
def ringWord (s : State) (x : Stream) (o : Nat) : Word := BitVec.ofNat 32 (ofLE (s.mem.read (ringPa s x.ring o) 4))

/-- Whether the device may write to a ring's store: the writes of a save to its vault come first (R344). -/
def ringOpen (s : State) (x : Stream) : Bool := !poolFirst s none (ringPa s x.ring 0)

/-- The device reads n bytes of a ring store: single-bit errors are corrected and counted (R193, R431). -/
def ringSeen (s : State) (x : Stream) (o n : Nat) : State := { s with mem := s.mem.correct (ringPa s x.ring o) n }

/-- Bytes written to a ring store on path X, with the write's number (R205, R215). -/
def ringBytes (s : State) (x : Stream) (o : Nat) (bs : List Byte) (pubs : List Pub) : Nat × State :=
  writeOwn s (ringPa s x.ring o) 0 bs (some .x) pubs

/-- A word written to a ring store, with the write's number. -/
def putRingWord (s : State) (x : Stream) (o : Nat) (w : Word) (pubs : List Pub := []) : Nat × State :=
  ringBytes s x o (toLE 4 w.toNat) pubs

/-- Writes to a ring store that the device makes for a strand are the strand's, known to it, if it still runs, and to the end of
its kernel (R205, R208, R211; log 70). -/
def wroteFor (s : State) (sid kernel : Nat) (ids : List Nat) : State :=
  let ks := knownOn .x ids
  let s := { s with strands := upd s.strands sid fun st => if st.kernel = kernel then acquire st ks else st }
  setKernel s kernel fun k => { k with ends := joinKnown k.ends ks }

/-! ### Triangles -/

/-- A vertex: its place in 1/256 pixel (R367), depth and q. -/
structure Vertex where
  x : Int
  y : Int
  z : Word
  q : Word
  deriving DecidableEq, Repr

/-- A triangle. -/
structure Triangle where
  a : Vertex
  b : Vertex
  c : Vertex
  p : Word
  attr : Word
  deriving DecidableEq, Repr

/-- A coordinate rounded to 1/256 pixel, ties to even (R367). -/
def snap (w : Word) : Int :=
  match fp w with
  | .fin x => roundInt (x.times ⟨256, 1⟩) .rne none 0
  | _ => 0

/-- The triangle of its words: x, y, z, q three times, p, attr (R361, R363). -/
def triangleOf (t : Tri) : Triangle :=
  let v := fun k => (⟨snap (nth t k), snap (nth t (k + 1)), nth t (k + 2), nth t (k + 3)⟩ : Vertex)
  ⟨v 0, v 4, v 8, nth t 12, nth t 13⟩

/-- The edge function of a and b at a point in 1/256 pixel. -/
def edge (a b : Vertex) (px py : Int) : Int := (b.x - a.x) * (py - a.y) - (b.y - a.y) * (px - a.x)

/-- Twice the signed area. -/
def Triangle.area (t : Triangle) : Int := edge t.a t.b t.c.x t.c.y

/-- Whether a point lies on the inner side of an edge, or on the edge where that is a left edge, or a horizontal one with
the interior below (R367); `sg` is the sign of the area. -/
def insideEdge (a b : Vertex) (sg px py : Int) : Bool :=
  let e := sg * edge a b px py
  decide (e > 0) || (decide (e = 0) &&
    (decide (sg * (b.y - a.y) < 0) || (decide (b.y = a.y) && decide (sg * (b.x - a.x) > 0))))

/-- Whether a triangle covers the centre of a pixel (R367). -/
def Triangle.covers (t : Triangle) (px py : Nat) : Bool :=
  let sg : Int := if t.area < 0 then -1 else 1
  let x : Int := 256 * px + 128
  let y : Int := 256 * py + 128
  t.area != 0 && insideEdge t.a t.b sg x y && insideEdge t.b t.c sg x y && insideEdge t.c t.a sg x y

/-- The weights of the vertices at a point, as fractions of the area. -/
def Triangle.weights (t : Triangle) (px py : Int) : List Frac :=
  let sg : Int := if t.area < 0 then -1 else 1
  [edge t.b t.c px py, edge t.c t.a px py, edge t.a t.b px py].map fun w => ⟨sg * w, t.area.natAbs⟩

/-- The screen-linear z at a point, rounded once (R368). -/
def Triangle.depth (t : Triangle) (px py : Int) : Word :=
  let ws := t.weights px py
  let term := fun (k : Nat) (z : Word) => fMulVal (ws.getD k ⟨0, 1⟩).toVal (fp z)
  rn (fAddVal (fAddVal (term 0 t.a.z) (term 1 t.b.z)) (term 2 t.c.z))

/-- The value of q as a fraction. -/
def fracOf (w : Word) : Frac := match fp w with | .fin x => x | _ => ⟨0, 1⟩

/-- The perspective-correct barycentrics λ1 and λ2 at a point, each rounded once (R369); where they have no value, free
values (log 33). -/
def Triangle.bary (t : Triangle) (px py : Int) (f : Nat) : List Word :=
  let ws := t.weights px py
  let g := fun (k : Nat) (v : Vertex) => (ws.getD k ⟨0, 1⟩).times (fracOf v.q)
  let sum := ((g 0 t.a).plus (g 1 t.b)).plus (g 2 t.c)
  if sum.num = 0 then [BitVec.ofNat 32 f, BitVec.ofNat 32 (f / 2 ^ 32)]
  else [rn ((g 1 t.b).times sum.recip).toVal, rn ((g 2 t.c).times sum.recip).toVal]

/-- The pixels [x0, x1) × [y0, y1) that a triangle's box touches, clipped to a width and to lines [lo, hi). -/
def Triangle.box (t : Triangle) (width lo hi : Nat) : Nat × Nat × Nat × Nat :=
  let mn := fun (a b c : Int) => (min a (min b c)).fdiv 256
  let mx := fun (a b c : Int) => -((-(max a (max b c))).fdiv 256)
  ((mn t.a.x t.b.x t.c.x).toNat, min width (mx t.a.x t.b.x t.c.x).toNat,
   max lo (mn t.a.y t.b.y t.c.y).toNat, min hi (mx t.a.y t.b.y t.c.y).toNat)

/-! ### Depth tests (R354, R368) -/

/-- Depth function zf on a value and the stored one. -/
def depthPass (zf : Nat) (z old : Word) : Bool :=
  if zf = 0 then true
  else fLtVal (fp z) (fp old) || (zf == 2 && fEqVal (fp z) (fp old))

/-! ### Blocks and quads (R367, R369) -/

/-- Block extents of a rung (R346, R367). -/
def rungBlock (r : Nat) : Nat × Nat :=
  if r = 0 then (1, 1) else if r = 1 then (2, 1) else if r = 2 then (2, 2) else if r = 3 then (4, 2) else (4, 4)

/-- What a kernel of kind 1 or 2 shades: the triangle, none for kind 2; the pixels of each line, its lines; its depth
test before shading; and the pixels that are formed already. -/
structure Shading where
  tri : Option Triangle
  width : Nat
  lo : Nat
  hi : Nat
  test : Option Nat
  done : List (Nat × Nat × Nat)
  deriving DecidableEq, Repr

/-- Whether a pixel belongs to a part that is formed already. -/
def formedAt (done : List (Nat × Nat × Nat)) (px py : Nat) : Bool :=
  done.any fun d => decide (py < d.1) || (decide (py < d.2.1) && decide (px < d.2.2))

/-- Whether a pixel is covered, its early test passed (R367, R368). -/
def pixelCovered (s : State) (x : Stream) (n k : Nat) (g : Shading) (px py : Nat) : Bool :=
  decide (px < g.width) && decide (g.lo ≤ py) && decide (py < g.hi) && !formedAt g.done px py &&
    match g.tri with
    | none => true
    | some t =>
      t.covers px py &&
        match g.test with
        | none => true
        | some zf => depthPass zf (t.depth (256 * px + 128) (256 * py + 128)) (ringWord s x (depOff s x n k py px))

/-- The pixels of a block in row-major order. -/
def blockPixels (bx by_ w h : Nat) : List (Nat × Nat) :=
  (List.range (w * h)).map fun i => (bx + i % w, by_ + i / w)

/-- The covered pixels of a block as a mask (R369). -/
def blockCover (s : State) (x : Stream) (n k : Nat) (g : Shading) (bx by_ w h : Nat) : Nat :=
  (List.zip (List.range (w * h)) (blockPixels bx by_ w h)).foldl (fun m e =>
    if pixelCovered s x n k g e.2.1 e.2.2 then m + 2 ^ e.1 else m) 0

/-- The fragment of a block. -/
def blockFrag (s : State) (x : Stream) (n k : Nat) (g : Shading) (bx by_ w h order : Nat) : FragBead :=
  let c := blockCover s x n k g bx by_ w h
  { x := bx, y := by_, w := w, h := h, cover := c, helper := c == 0, order := order
    zs := match g.tri with
      | none => []
      | some t => (blockPixels bx by_ w h).map fun e => t.depth (256 * e.1 + 128) (256 * e.2 + 128) }

/-- The preloads b0 to b4 of a bead (R369). -/
def fragRegs (g : Shading) (f : FragBead) : List Word :=
  let cx : Int := 256 * f.x + 128 * f.w
  let cy : Int := 256 * f.y + 128 * f.h
  let (p, attr, z) := match g.tri with
    | none => ((0 : Word), (0 : Word), (0 : Word))
    | some t => (t.p, t.attr, t.depth cx cy)
  [word (f.x + f.y * 2 ^ 16), p, attr, z, word (f.cover + if f.helper then 2 ^ 31 else 0)]

/-- The hidden barycentrics of a bead: at the block centre, and at the lowest covered pixel, which a helper lacks, so that
its second pair is free (R369; log 33). -/
def fragBary (g : Shading) (f : FragBead) (free : Nat) : List Word :=
  match g.tri with
  | none => [0, 0, 0, 0]
  | some t =>
    let sample := t.bary (256 * f.x + 128 * f.w) (256 * f.y + 128 * f.h) free
    let at_ := (List.range (f.w * f.h)).find? fun i => bit f.cover i
    sample ++ match at_ with
      | some i => t.bary (256 * (f.x + i % f.w) + 128) (256 * (f.y + i / f.w) + 128) (free / 2 ^ 64)
      | none => [BitVec.ofNat 32 (free / 2 ^ 64), BitVec.ofNat 32 (free / 2 ^ 96)]

/-- The four blocks of a quad, in order (R369). -/
def quadFrags (s : State) (x : Stream) (n k : Nat) (g : Shading) (rung qx qy order : Nat) : List FragBead :=
  let (w, h) := rungBlock rung
  (List.range 4).map fun i => blockFrag s x n k g (qx + i % 2 * w) (qy + i / 2 * h) w h order

/-! ### Colours (R378) -/

/-- Enc of a value (R378). -/
def encVal (v : FVal) : Nat :=
  match v with
  | .fin x => (satU (roundInt (x.times ⟨1023, 1⟩) .rne none 0) 10).toNat
  | .inf neg => if neg then 0 else 1023
  | .zero _ | .nan => 0

/-- A value clamped to [0, 1], NaN giving 0. -/
def clampUnit (v : FVal) : Frac :=
  match v with
  | .fin x => if x.num < 0 then ⟨0, 1⟩ else if Frac.less ⟨1, 1⟩ x then ⟨1, 1⟩ else x
  | .inf neg => if neg then ⟨0, 1⟩ else ⟨1, 1⟩
  | .zero _ | .nan => ⟨0, 1⟩

/-- One channel blended over a stored code (R378). -/
def overCode (a : Frac) (src : Word) (dst : Nat) : Nat :=
  let rest : Frac := (Frac.mk 1 1).plus ⟨-a.num, a.den⟩
  encVal (fAddVal (fMulVal a.toVal (fp src)) ((rest.times ⟨dst, 1023⟩).toVal))

/-- The pixel word of three codes (R358). -/
def pixelWord (r g b : Nat) : Word := word (r * 2 ^ 20 + g * 2 ^ 10 + b)

/-- A pixel after a fragment of colour RGBA: replaced, or blended over (R378). -/
def blendPixel (mix : Bool) (c : List Word) (old : Word) : Word :=
  let o := old.toNat
  if mix then
    let a := clampUnit (fp (nth c 3))
    pixelWord (overCode a (nth c 0) (bits o 29 20)) (overCode a (nth c 1) (bits o 19 10)) (overCode a (nth c 2) (bits o 9 0))
  else pixelWord (encVal (fp (nth c 0))) (encVal (fp (nth c 1))) (encVal (fp (nth c 2)))

end Sys2Proof.Machine
end

