-- ==== Sys2Proof/Machine/Binner.lean ====
section
/-!
DEFINITION. The binner: culling, records and strip lists (R362, R363), what a replay keeps (R366), and the triangles that
a list names (R364).
-/

namespace Sys2Proof.Machine
open Sys2Proof

/-- The state of strips changed. -/
def setStrips (s : State) (f : Strips → Strips) : State := { s with strips := f s.strips }

/-- A chain changed. -/
def setChain (s : State) (c : Nat) (f : Chain → Chain) : State :=
  setStrips s fun t => { t with chains := upd t.chains c f }

/-- The number of the half of a stream's bin pool that a frame uses (R363). -/
def halfKey (stream n : Nat) : Nat := stream * 2 + n % 2

/-- The key of a strip list. -/
def listKey (stream n k : Nat) : Nat := halfKey stream n * 65536 + k

/-- The state of a strip list (R363). -/
def binList (s : State) (stream n k : Nat) : BinList := lookD s.strips.bins (listKey stream n k) {}

/-! ### Culling (R362) -/

/-- The exact coordinates of the vertices: x0, y0, x1, y1, x2, y2. -/
def rawCoords (v : List Word) : List Frac := [0, 1, 4, 5, 8, 9].map fun k => fracOf (nth v k)

/-- The exact area's numerator is 0. -/
def flat (c : List Frac) : Bool :=
  let at_ := fun k => c.getD k ⟨0, 1⟩
  let sub := fun (a b : Frac) => a.plus ⟨-b.num, b.den⟩
  let l := (sub (at_ 2) (at_ 0)).times (sub (at_ 5) (at_ 1))
  let r := (sub (at_ 3) (at_ 1)).times (sub (at_ 4) (at_ 0))
  (sub l r).num == 0

/-- The least and the greatest of three. -/
def span3 (a b c : Frac) : Frac × Frac :=
  let lo := fun (x y : Frac) => if Frac.less y x then y else x
  let hi := fun (x y : Frac) => if Frac.less x y then y else x
  (lo a (lo b c), hi a (hi b c))

/-- A closed range meets [lo, hi). -/
def meets (r : Frac × Frac) (lo hi : Nat) : Bool :=
  decide (lo < hi) && Frac.less r.1 ⟨hi, 1⟩ && !Frac.less r.2 ⟨lo, 1⟩

/-- The extents of a triangle's bounding box in x and y, exactly. -/
def rawBox (v : List Word) : (Frac × Frac) × (Frac × Frac) :=
  let at_ := fun k => (rawCoords v).getD k ⟨0, 1⟩
  (span3 (at_ 0) (at_ 2) (at_ 4), span3 (at_ 1) (at_ 3) (at_ 5))

/-- A value that is infinite. -/
def wordInf (w : Word) : Bool := match fp w with | .inf _ => true | _ => false

/-- A value that is not above 0. -/
def notPositive (w : Word) : Bool := !fLtVal (.zero false) (fp w)

/-- Whether a triangle is culled: a NaN, an infinite x, y or q, a q not above 0, no area, or a box outside the render
area (R362). The area and the box are those of the values as they are given (log 35). -/
def culled (x : Stream) (v : List Word) : Bool :=
  ((List.range 12).any fun k => fp (nth v k) == .nan) ||
  ([0, 1, 3, 4, 5, 7, 8, 9, 11].any fun k => wordInf (nth v k)) ||
  ([3, 7, 11].any fun k => notPositive (nth v k)) ||
  flat (rawCoords v) || !meets (rawBox v).1 0 x.rendW || !meets (rawBox v).2 0 x.rendH

/-- The strips whose bands a triangle's box meets (R362). -/
def stripsMet (x : Stream) (v : List Word) : List Nat :=
  (List.range x.strips).filter fun k => meets (rawBox v).2 (x.band k).1 (x.band k).2

/-! ### Records and lists (R363) -/

/-- The 64 bytes of a record. -/
def recordBytes (v : List Word) : List Byte := (v.take 14).flatMap (fun w => toLE 4 w.toNat) ++ List.replicate 8 0

/-- A record index appended to a list, or the list closed with a replay marker; whether the list was full or closed, and the
writes made. -/
def appendEntry (s : State) (stream : Nat) (x : Stream) (n k : Nat) (idx : Option Nat) (pubs : List Pub) :
    Bool × List Nat × State :=
  let l := binList s stream n k
  let set := fun (s : State) (l : BinList) => setStrips s fun t => { t with bins := put t.bins (listKey stream n k) l }
  if l.closed then (true, [], s)
  else match idx with
    | some r =>
      if l.count ≥ lcap s x then (true, [], set s { l with closed := true })
      else
        let (id, s) := ringBytes s x (listOff s x n k + 4 * l.count) (toLE 4 r) pubs
        (false, [id], set s { l with count := l.count + 1 })
    | none => (true, [], set s { l with closed := true })

/-- A triangle stored and appended to the lists of its strips; its status, and the writes made (R362, R363). -/
def binTriangle (s : State) (stream n : Nat) (v : List Word) (pubs : List Pub) : Word × List Nat × State :=
  let x := streamOf s stream
  let r := lookD s.strips.recCount (halfKey stream n) 0
  let room : Bool := decide (r < recRoom s x)
  let (ids, s) := if room then
      let (id, s) := ringBytes s x (recOff s x n r) (recordBytes v) pubs
      ([id], setStrips s fun t => { t with recCount := put t.recCount (halfKey stream n) (r + 1) })
    else ([], s)
  let (full, ids, s) := (stripsMet x v).foldl (fun (acc : Bool × List Nat × State) k =>
    let (f, w, s) := appendEntry acc.2.2 stream x n k (if room then some r else none) pubs
    (acc.1 || f, acc.2.1 ++ w, s)) (!room, ids, s)
  (if full then 2 else 0, ids, s)

/-- The binner clears its state for the half of a frame (R363). -/
def clearBins (s : State) (stream n : Nat) : State :=
  setStrips s fun t => { t with
    bins := t.bins.filter fun e => e.1 / 65536 != halfKey stream n, recCount := del t.recCount (halfKey stream n) }

/-! ### Replay (R366) -/

/-- p of a triangle. -/
def Tri.p (t : Tri) : Nat := (nth t 12).toNat

/-- A triangle put into its place by p, after those of equal p. -/
def insertTri (t : Tri) : List Tri → List Tri
  | [] => [t]
  | y :: l => if t.p < y.p then t :: y :: l else y :: insertTri t l

/-- Triangles in ascending p, those of equal p in their order in the list (R364, R377). -/
def sortTris (l : List Tri) : List Tri := l.foldl (fun acc t => insertTri t acc) []

/-- C of R366. -/
def replayRoom (s : State) (x : Stream) : Nat := max 1 (lcap s x / 16)

/-- A triangle offered to a replay list, which keeps the least p; whether one was refused or displaced (R366). -/
def offerTri (room : Nat) (r : Replay) (t : Tri) : Replay :=
  let all := insertTri t r.kept
  { r with kept := all.take room, refused := r.refused || decide (all.length > room) }

/-- A triangle that the binner meets during a replay of a chain; its status (R366). -/
def replayTriangle (s : State) (c : Nat) (v : List Word) : Word × State :=
  match look s.strips.chains c with
  | none => (1, s)
  | some ch =>
    let x := chainStream s ch
    match ch.front.replay with
    | none => (1, s)
    | some r =>
      if !(stripsMet x v).contains ch.strip || decide ((nth v 12).toNat < r.pLo) then (1, s)
      else (0, setChain s c fun ch => { ch with
        front := { ch.front with replay := some (offerTri (replayRoom s x) r (v.take 14)) } })

/-- An EMITV answered: culled, replayed, or binned. -/
def answerBin (s : State) (op : BinOp) : Word × State :=
  match (lookD s.cmd.kernels op.kernel {}).origin with
  | .geometry stream n =>
    if culled (streamOf s stream) op.vals then (1, s)
    else
      let (v, ids, s) := binTriangle s stream n op.vals op.pubs
      (v, wroteFor s op.sid op.kernel ids)
  | .replay c =>
    match look s.strips.chains c with
    | none => (1, s)
    | some ch => if culled (chainStream s ch) op.vals then (1, s) else replayTriangle s c op.vals
  | _ => (1, s)

/-- Whether an EMITV is the first of its strand that the binner has not answered (R362), and no writes of a save come first
(R344). -/
def binFirst (s : State) (op : BinOp) : Bool :=
  (!s.flight.bins.any fun y => y.sid == op.sid && decide (y.id < op.id)) &&
    match (lookD s.cmd.kernels op.kernel {}).origin with
    | .geometry stream _ => ringOpen s (streamOf s stream)
    | _ => true

/-- BINNER_ANSWER: the binner answers an EMITV bead and fills its status destination (R362). Its operand is the EMITV. -/
def execBinnerAnswer (s : State) : Out :=
  match s.arg with
  | .one id =>
    match s.flight.bins.find? fun x => x.id == id && binFirst s x with
    | some op =>
      let (v, s) := answerBin (setFlight s fun f => { f with bins := f.bins.filter fun x => x.id != id }) op
      .next (match op.dst with
        | some k => { s with strands := upd s.strands op.sid fun st => fillKeys st [k] [v] }
        | none => s)
    | none => .next s
  | _ => .next s

/-- The answers that may come. -/
def dueBins (s : State) : List Happening := (s.flight.bins.filter (binFirst s)).map fun x => ⟨.binnerAnswer, .one x.id⟩

/-! ### The triangles of a list -/

/-- A record read back. -/
def readTri (s : State) (x : Stream) (n r : Nat) : Tri :=
  let bs := s.mem.read (ringPa s x.ring (recOff s x n r)) 56
  (List.range 14).map fun i => word (ofLE ((bs.drop (4 * i)).take 4))

/-- The front end has read strip k's list and its records (R193, R364). -/
def listSeen (s : State) (stream n k : Nat) : State :=
  let x := streamOf s stream
  (List.range (binList s stream n k).count).foldl (fun s i =>
    ringSeen (ringSeen s x (listOff s x n k + 4 * i) 4) x
      (recOff s x n (ringWord s x (listOff s x n k + 4 * i)).toNat) 56) s

/-- The triangles of strip k's list, in the order of rasterisation (R364). -/
def listTris (s : State) (stream n k : Nat) : List Tri :=
  let x := streamOf s stream
  sortTris ((List.range (binList s stream n k).count).map fun i =>
    readTri s x n (ringWord s x (listOff s x n k + 4 * i)).toNat)

end Sys2Proof.Machine
end

