-- ==== Sys2Proof/Machine/Slots.lean ====
section
/-!
DEFINITION. The maintenance calendar (R382 to R387), clock steps (R389 to R391, R433), and SLOTQ (R392, R393).
-/

namespace Sys2Proof.Machine
open Sys2Proof

/-! ### The published calendar -/

/-- The code of a class (R382). -/
def SlotClass.code : SlotClass → Nat
  | .refresh => 0 | .calibration => 1 | .retrain => 2 | .sweep => 3

/-- The number of the first slot of a class that ends later than t. -/
def SlotClass.endsAfter (c : SlotClass) (t : Nat) : Nat :=
  let (off, p, d) := c.times
  if t < off + d then 0 else (t - (off + d)) / p + 1

/-- The number of the first slot of a class that starts later than t. -/
def SlotClass.startsAfter (c : SlotClass) (t : Nat) : Nat :=
  let (off, p, _) := c.times
  if t < off then 0 else (t - off) / p + 1

/-- The first published slot of a class that ends later than t: start and duration (R393). -/
def publishedAfter (s : State) (c : SlotClass) (t : Nat) : Option (Nat × Nat) :=
  match c with
  | .retrain => (s.clk.retrains.find? fun r => decide (t < r.start + 30000)).map fun r => (r.start, 30000)
  | _ => some (c.startOf (c.endsAfter t), c.times.2.2)

/-- The first refresh or calibration slot that ends later than t, merged with one that contains it (R384, R393). -/
def lpddrAfter (t : Nat) : Nat × Nat :=
  let r := SlotClass.refresh.startOf (SlotClass.refresh.endsAfter t)
  let c := SlotClass.calibration.startOf (SlotClass.calibration.endsAfter t)
  if c ≤ r then (c, 8000) else (r, 1250)

/-- The steps of one-eighth by which a quad's clock is slowed (R391). -/
def clockSteps (s : State) (quad : Nat) : Nat := min 4 (lookD s.clk.droop quad 0 + s.clk.thermal)

/-- The mask of the ports that a published retrain slot names (R393). -/
def retrainMask (s : State) : Nat := (s.clk.retrains.flatMap (·.ports)).foldl (fun m p => m ||| 2 ^ (p % 8)) 0

/-- What SLOTQ writes for a selector and a time (R393). -/
def slotWords (s : State) (quad : Nat) (sel : SlotSel) (t : Nat) : List Word :=
  let four := fun (x : Option (Nat × Nat)) (period : Nat) =>
    match x with
    | some (a, d) => words64 (BitVec.ofNat 64 a) ++ [BitVec.ofNat 32 d, BitVec.ofNat 32 period]
    | none => [0xFFFFFFFF, 0xFFFFFFFF, 0, BitVec.ofNat 32 period]
  match sel with
  | .refresh => four (publishedAfter s .refresh t) 15625
  | .calib => four (publishedAfter s .calibration t) 1000000
  | .retrain => four (publishedAfter s .retrain t) 64000000
  | .sweep => four (publishedAfter s .sweep t) 125000
  | .lpddr => four (some (lpddrAfter t)) 15625
  | .info => [s.clk.calVersion, BitVec.ofNat 32 (retrainMask s), BitVec.ofNat 32 (clockSteps s quad), 0]

/-- SLOTQ (R392, R393). -/
def execSlotq (d a : Reg) (sel : SlotSel) (s : State) : Out :=
  onStrand s fun i =>
    let srcs := srcsW (pairOf a)
    runForm (isPort d) (uniQuadOk i.st d && uniPairOk i.st a) true
      (fun j i => readyOr i j srcs (quadOf d) (readAll j srcs 0 i fun vs i =>
        let t := if a = .zr then nowNs i.s else (pairAt vs 0).toNat
        writeAll j (quadOf d) (slotWords i.s (quadOfCore i.st.core) sel t) i)) i

/-! ### The slots as they pass -/

/-- The clock changed. -/
def setClk (s : State) (f : Clock → Clock) : State := { s with clk := f s.clk }

/-- Whether the keeper has released the command processor, with which the timebase starts (R326, R426). -/
def clockRuns (s : State) : Bool := decide (s.keep.released ≥ 2)

/-- A slot begins. -/
def beginSlot (c : Clock) (cls : SlotClass) (start : Nat) : Clock :=
  { c with slots := c.slots ++ [{ cls := cls, start := start, stop := start + cls.times.2.2 }] }

/-- SLOT_DRAIN_WINDOW: 150 ns before a refresh or calibration slot, requests to LPDDR6 are held (R385). -/
def execSlotDrainWindow (s : State) : Out :=
  .next (if clockRuns s && !s.clk.drain && decide (nowNs s + 150 ≥ nextHold s) then setClk s fun c => { c with drain := true }
    else s)

/-- Whether a refresh slot is performed inside a calibration slot (R384). -/
def insideCal (n : Nat) : Bool := n % 64 == 16

/-- REFRESH_SLOT_START (R382, R384, R385). -/
def execRefreshSlotStart (s : State) : Out :=
  let n := s.clk.refreshNext
  let at_ := SlotClass.refresh.startOf n
  .next (if clockRuns s && !insideCal n && decide (nowNs s ≥ at_) then
      setClk s fun c => { beginSlot c .refresh at_ with refreshNext := n + 1, drain := false }
    else s)

/-- CALIBRATION_SLOT_START; the refresh slot that starts with it is performed inside it (R382, R384). -/
def execCalibrationSlotStart (s : State) : Out :=
  let n := s.clk.calNext
  let at_ := SlotClass.calibration.startOf n
  .next (if clockRuns s && decide (nowNs s ≥ at_) then
      setClk s fun c => { beginSlot c .calibration at_ with
        calNext := n + 1, drain := false
        refreshNext := if insideCal c.refreshNext then c.refreshNext + 1 else c.refreshNext }
    else s)

/-- A slot of the calendar whose published end has come and that does not stretch. -/
def slotOver (s : State) (x : Slot) : Bool := x.stretched.isNone && decide (nowNs s ≥ x.stop)

/-- Whether a retrain slot's housekeeping is still to finish: a link that it names trains (R387, R415). -/
def stillTrains (s : State) (x : Slot) : Bool :=
  s.clk.retrains.any fun r => r.start == x.start && r.ports.any fun p => linkSt s p == .training

/-- Whether a slot stretches at its published end: a retrain slot while its links train, a refresh slot while refresh that a
step skipped is to be made up, and otherwise where a controller overran (R384, R387). -/
def overruns (s : State) (x : Slot) (overran : Nat) : Bool :=
  if x.cls = .retrain then stillTrains s x
  else (x.cls == .refresh && decide (s.clk.skipped > 0)) || overran != 0

/-- A slot ends: a retrain slot is published no longer. What a slot before it of its class had abandoned is complete, unless its
own is abandoned (R387, R393). -/
def endSlot (c : Clock) (x : Slot) (rest : List Slot) (left : Bool) : Clock :=
  let owed := c.owed.filter fun y => y != x.cls
  { c with
    slots := rest
    owed := if left then x.cls :: owed else owed
    retrains := if x.cls = .retrain then c.retrains.filter fun r => r.start != x.start else c.retrains }

/-- SLOT_END: at a slot's published end it ends, or stretches because housekeeping overran (R387). Its operand is 1 where a
controller overran, and the controller. -/
def execSlotEnd (s : State) : Out :=
  match s.arg with
  | .two overran ctrl =>
    match takeFirst (slotOver s) s.clk.slots with
    | some (x, rest) =>
      .next (afterHold (setClk s fun c =>
        if overruns s x overran then
          { c with slots := { x with stretched := some (if x.cls = .retrain then 255 else ctrl % 32) } :: rest }
        else endSlot c x rest false))
    | none => .next s
  | _ => .next s

/-- A keeper counter incremented, saturating (R431). -/
def countUp (s : State) (idx : Nat) : State :=
  { s with keep := { s.keep with counters := put s.keep.counters idx (min (2 ^ 64 - 1) (lookD s.keep.counters idx 0 + 1)) } }

/-- Refresh slots that a step skipped and a stretched refresh slot has made up: a free number, one at least where its
housekeeping is done (R384; log 1). -/
def makeUp (s : State) (left : Bool) : State :=
  if s.clk.skipped = 0 then s
  else
    let (f, s) := drawFree s
    setClk s fun c => { c with skipped := c.skipped - (f % (c.skipped + 1) + if left then 0 else 1) }

/-- A stretched slot ends, its housekeeping done or, `left`, abandoned: it is reported and counted (R387, R431). -/
def endStretched (s : State) (x : Slot) (rest : List Slot) (left : Bool) : State :=
  let by_ := min (nowNs s - x.stop) 2000
  let s := setClk s fun c => endSlot c x rest left
  let s := if x.cls = .refresh then makeUp s left else s
  let data := x.cls.code + (x.stretched.getD 0) * 2 ^ 8 + by_ * 2 ^ 16 + (if left then 2 ^ 32 else 0)
  afterHold (countUp (postEvent s 0xFFFF 0xFF 0x0008 data) (0x1850 + x.cls.code))

/-- Whether the housekeeping of a stretched slot is still to finish. -/
def unfinished (s : State) (x : Slot) (done : Nat) : Bool := if x.cls = .retrain then stillTrains s x else done == 0

/-- SLOT_STRETCH_END: a stretched slot ends, its housekeeping done or, after 2,000 ns, abandoned; it is reported and
counted (R387, R431). Its operand is 1 where a controller's housekeeping is done. -/
def execSlotStretchEnd (s : State) : Out :=
  match s.arg with
  | .one done =>
    match takeFirst (fun x => x.stretched.isSome && decide (nowNs s > x.stop)) s.clk.slots with
    | some (x, rest) =>
      let left := unfinished s x done
      .next (if left ∧ nowNs s - x.stop < 2000 then s else endStretched s x rest left)
    | none => .next s
  | _ => .next s

/-! ### Clock steps -/

/-- A thermal step applied while droop steps are in force reduces them by the excess over four (R391). -/
def capDroop (c : Clock) : Clock :=
  { c with droop := c.droop.map fun e => (e.1, min e.2 (4 - c.thermal)) }

/-- SWEEP_SLOT: the power controller adds a thermal step above 105 °C and removes one below 100 °C; the temperature is a
free value (R389, R433; log 21). -/
def execSweepSlot (s : State) : Out :=
  let at_ := SlotClass.sweep.startOf s.clk.sweepNext
  if clockRuns s && decide (nowNs s ≥ at_) then
    let (f, s) := drawFree s
    let temp := f % (16 * 120)
    let s := setClk s fun c => capDroop { c with
      sweepNext := c.sweepNext + 1, temp := temp
      thermal := if temp > 105 * 16 then min 4 (c.thermal + 1) else if temp < 100 * 16 then c.thermal - 1 else c.thermal }
    let counts := put (put s.keep.counters 0x1840 temp) 0x1841 (max temp (lookD s.keep.counters 0x1841 0))
    .next { s with keep := { s.keep with counters := counts } }
  else .next s

/-- The time between two steps of a sag, and between two removals after it, in units of 2^-16 ns (R390). -/
def sagStep : Nat := 2 * 2 ^ 16
/-- The time between two removals. -/
def removeStep : Nat := 1000 * 2 ^ 16

/-- A droop step where the quad's clock has fewer than four, counted; where the thermal steps are four the sag itself is
counted (R390, R391, R431). -/
def addDroop (s : State) (q : Nat) (sag : Bool) : State :=
  if clockSteps s q < 4 then
    setClk (countUp s (0x1800 + q)) fun c => { c with droop := put c.droop q (lookD c.droop q 0 + 1) }
  else if sag && decide (s.clk.thermal ≥ 4) then countUp s (0x1800 + q)
  else s

/-- DROOP_DETECT: a quad's detector sees a sag, and its clock stretches by one step (R390). Its operand is the quad. -/
def execDroopDetect (s : State) : Out :=
  match s.arg with
  | .one q =>
    .next (if q < 48 ∧ look s.clk.sagging q = none then
        setClk (addDroop s q true) fun c => { c with
          sagging := put c.sagging q (c.tb + sagStep), recovering := del c.recovering q }
      else s)
  | _ => .next s

/-- DROOP_STEP: 2 ns later, while the sag persists, the quad's clock stretches by a further step, at four none (R390, R391). Its
operand is the quad. -/
def execDroopStep (s : State) : Out :=
  match s.arg with
  | .one q =>
    match look s.clk.sagging q with
    | some t =>
      .next (if t ≤ s.clk.tb then setClk (addDroop s q false) fun c => { c with sagging := put c.sagging q (t + sagStep) } else s)
    | none => .next s
  | _ => .next s

/-- DROOP_STEP_REMOVE: the supply of a quad that sags recovers; then one step is removed every 1 µs (R390). Its operand is the
quad. -/
def execDroopStepRemove (s : State) : Out :=
  match s.arg with
  | .one q =>
    match look s.clk.sagging q, look s.clk.recovering q with
    | some _, _ =>
      .next (setClk s fun c => { c with sagging := del c.sagging q, recovering := put c.recovering q (c.tb + removeStep) })
    | none, some t =>
      .next (if t ≤ s.clk.tb then
          let n := lookD s.clk.droop q 0 - 1
          setClk s fun c => { c with
            droop := putD 0 c.droop q n
            recovering := if n = 0 then del c.recovering q else put c.recovering q (t + removeStep) }
        else s)
    | none, none => .next s
  | _ => .next s

/-! ### When they take place -/

/-- An alarm: a time in units of 2^-16 ns at which a happening takes place, and the happening. -/
structure Alarm where
  at_ : Int
  what : Happening
  deriving DecidableEq, Repr

/-- An alarm at a time in ns. -/
def alarmNs (ns : Nat) (row : Instr) (arg : Arg := .none) : Alarm := ⟨(ns : Int) * 2 ^ 16, ⟨row, arg⟩⟩

/-- The alarms of the calendar. Whether and where housekeeping overruns is a free value (log 1). -/
def alarmSlots (s : State) : List Alarm :=
  if clockRuns s then
    let f := Config.free s.choice
    let hold := nextHold s
    (if s.clk.drain || decide (hold < 150) then [] else [alarmNs (hold - 150) .slotDrainWindow]) ++
    (if insideCal s.clk.refreshNext then [] else [alarmNs (SlotClass.refresh.startOf s.clk.refreshNext) .refreshSlotStart]) ++
    [alarmNs (SlotClass.calibration.startOf s.clk.calNext) .calibrationSlotStart,
     alarmNs (SlotClass.sweep.startOf s.clk.sweepNext) .sweepSlot] ++
    ((s.clk.retrains.filter fun r => !s.clk.slots.any fun x => x.cls == .retrain && x.start == r.start).map fun r =>
      alarmNs r.start .retrainSlotStart) ++
    (s.clk.sagging.map fun e =>
      ⟨e.2, ⟨if Config.free (s.choice + 1 + e.1) % 2 = 0 then .droopStep else .droopStepRemove, .one e.1⟩⟩) ++
    (s.clk.recovering.map fun e => ⟨e.2, ⟨.droopStepRemove, .one e.1⟩⟩) ++
    (s.clk.slots.map fun x =>
      if x.stretched.isSome then alarmNs (x.stop + 2000) .slotStretchEnd (.one (f % 2))
      else alarmNs x.stop .slotEnd (.two (f % 2) (f / 2)))
  else []

/-- The happenings of slots and clocks that may take place at a time of their own: a stretched slot's end, and the recovery of
a supply that sags. -/
def dueSlots (s : State) : List Happening :=
  (s.clk.slots.filterMap fun x =>
    if x.stretched.isSome && decide (nowNs s > x.stop) && (x.cls != .retrain || !stillTrains s x) then
      some ⟨.slotStretchEnd, .one 1⟩ else none) ++
  (s.clk.sagging.map fun e => ⟨.droopStepRemove, .one e.1⟩)

end Sys2Proof.Machine
end

