-- ==== Sys2Proof/Machine/Front.lean ====
section
/-!
DEFINITION. The raster front end of a chain (R364 to R369), its checkpoints and the predictor (R348 to R350), and blend
(R377, R378) with the ready marks (R360).
-/

namespace Sys2Proof.Machine
open Sys2Proof

/-! ### A chain's kernel -/

/-- The frame of a chain. -/
def frameOf (s : State) (ch : Chain) : Option Frame :=
  if ch.oldStream.isSome then ch.oldFrame
  else s.strips.frames.find? fun f => f.stream == ch.stream && f.frame == ch.frame

/-- The entry of the chain table at which a chain stands (R354). -/
def stageOf (s : State) (ch : Chain) : Option ChainKernel := (frameOf s ch).bind fun f => f.kernels[ch.stage]?

/-- What a chain's kernel of kind 1 or 2 shades next (R367, R369). -/
def shadingOf (s : State) (ch : Chain) (ck : ChainKernel) : Shading :=
  let x := chainStream s ch
  if ck.kind = 2 then
    { tri := none, width := x.outW, lo := (x.outLines ch.strip).1, hi := (x.outLines ch.strip).2, test := none, done := [] }
  else
    { tri := some (triangleOf (ch.front.todo.headD [])), width := x.rendW
      lo := (x.band ch.strip).1, hi := (x.band ch.strip).2
      test := if ck.zearly then some ck.zf else none, done := ch.front.done }

/-- The front end at a kernel's acceptance: the triangles of the strip's list, or a replay where it is closed (R364,
R366); one full cover for kind 2 (R369). -/
def frontFor (s : State) (ch : Chain) (fr : Frame) (ck : ChainKernel) : Front :=
  if ck.kind = 2 then { todo := [[]] }
  else if ck.kind = 0 then {}
  else if (binList s ch.stream ch.frame ch.strip).closed && fr.geom.isSome then
    { rung := ch.rung, replay := some { refused := true } }
  else { rung := ch.rung, todo := listTris s ch.stream ch.frame ch.strip }

/-- A replay is to be launched: none runs, and a triangle has been left out so far (R366). -/
def replayDue (f : Front) : Bool :=
  f.todo.isEmpty && match f.replay with
    | some r => r.refused && r.kernel.isNone
    | none => false

/-- A replay runs. -/
def replaying (f : Front) : Bool :=
  match f.replay with
  | some r => r.kernel.isSome
  | none => false

/-! ### Forming quads (R367, R369) -/

/-- The pixels in which quads are formed: a triangle's box clipped to the band, or the whole strip. -/
def Shading.area (g : Shading) : Nat × Nat × Nat × Nat :=
  match g.tri with
  | some t => t.box g.width g.lo g.hi
  | none => (0, g.width, g.lo, g.hi)

/-- The origins of quads over an area at a rung, in the order of formation (R367). -/
def quadOrigins (a : Nat × Nat × Nat × Nat) (rung : Nat) : List (Nat × Nat) :=
  let (x0, x1, y0, y1) := a
  let (w, h) := rungBlock rung
  if x1 ≤ x0 ∨ y1 ≤ y0 then []
  else
    (List.range (ceilDiv y1 (2 * h) - y0 / (2 * h))).flatMap fun j =>
      (List.range (ceilDiv x1 (2 * w) - x0 / (2 * w))).map fun i =>
        ((x0 / (2 * w) + i) * (2 * w), (y0 / (2 * h) + j) * (2 * h))

/-- An origin that the front end has not come to. -/
def aheadOf (f : Front) (o : Nat × Nat) : Bool :=
  !f.begun || decide (o.2 > f.y) || (decide (o.2 = f.y) && decide (o.1 ≥ f.x))

/-- The front end after a change of rung: what it has formed of its triangle is set apart, and its box is gone over again
on the new grid (R350, R367, R376). -/
def reRung (f : Front) (rung : Nat) : Front :=
  if f.rung = rung then f
  else { f with
    rung := rung, begun := false, x := 0, y := 0
    done := if f.begun then f.done ++ [(f.y, f.y + 2 * (rungBlock f.rung).2, f.x)] else f.done }

/-- The next quad with a shaded block: its origin. -/
def nextQuad (s : State) (x : Stream) (ch : Chain) (g : Shading) : Option (Nat × Nat) :=
  ((quadOrigins g.area ch.front.rung).filter (aheadOf ch.front)).find? fun o =>
    (quadFrags s x ch.frame ch.strip g ch.front.rung o.1 o.2 ch.order).any fun f => !f.helper

/-- The depth words that the front end reads to come to a quad, or past a triangle's last, with their single-bit errors
corrected (R193, R368). -/
def depthSeen (s : State) (x : Stream) (ch : Chain) (g : Shading) (next : Option (Nat × Nat)) : State :=
  if s.mem.flips.isEmpty || g.test == none || g.test == some 0 then s
  else
    let (w, h) := rungBlock ch.front.rung
    let all := (quadOrigins g.area ch.front.rung).filter (aheadOf ch.front)
    let come := (all.takeWhile fun o => some o != next) ++ next.toList
    let pixels := come.flatMap fun o => blockPixels o.1 o.2 (2 * w) (2 * h)
    (pixels.filter fun p => pixelCovered s x ch.frame ch.strip { g with test := none } p.1 p.2).foldl (fun s p =>
      ringSeen s x (depOff s x ch.frame ch.strip p.2 p.1) 4) s

/-- A quad laid into the strand under formation (R369). -/
def fillQuad (g : Shading) (frags : List FragBead) (rung free : Nat) (t : FormedStrand) : FormedStrand :=
  let (w, h) := rungBlock rung
  let lay := fun (t : FormedStrand) (e : Nat × FragBead) =>
    let j := 4 * t.quads + e.1
    let regs := (List.zip (List.range 5) (fragRegs g e.2)).foldl (fun m r => put m (r.1 * 64 + j) r.2) t.regs
    let bary := (List.zip (List.range 4) (fragBary g e.2 free)).foldl (fun m r => putD 0 m (4 * j + r.1) r.2) t.bary
    { t with frags := put t.frags j e.2, regs := regs, bary := bary }
  let u := (List.zip (List.range 4) frags).foldl lay t
  { u with quads := t.quads + 1, s6 := if t.quads = 0 then word (w + h * 2 ^ 8) else t.s6 }

/-- The strand under formation joins its braid. -/
def closeStrand (f : Front) : Front :=
  if f.filling.quads = 0 then f else { f with strands := f.strands ++ [f.filling], filling := {} }

/-- The braid under formation, with the strands that hold quads, waits for placement (R369). -/
def closeBraid (s : State) (c : Nat) (kid : Nat) : State :=
  match look s.strips.chains c with
  | none => s
  | some ch =>
    let f := closeStrand ch.front
    if f.strands.isEmpty then s
    else
      let s := setChain s c fun ch => { ch with front := { f with strands := [], nextBraid := f.nextBraid + 1 } }
      setKernel s kid fun k => { k with
        formed := k.formed ++ [{ index := f.nextBraid, strands := f.strands }], total := k.total + 1 }

/-- Full-rate quads of a shaded quad, w_r (R346). -/
def rungQuads (r : Nat) : Nat := 2 ^ r

/-- A quad formed: its strand, and its braid when full or when a checkpoint is due (R348, R369). -/
def formQuad (s : State) (c kid : Nat) (k : Kernel) (ch : Chain) (g : Shading) (o : Nat × Nat) : State :=
  let x := chainStream s ch
  let r := ch.front.rung
  let frags := quadFrags s x ch.frame ch.strip g r o.1 o.2 ch.order
  let (free, s) := drawFree s
  let t := fillQuad g frags r free ch.front.filling
  let f := { ch.front with begun := true, y := o.2, x := o.1 + 2 * (rungBlock r).1, filling := t }
  let f := if t.quads * 4 ≥ k.lrec.width then closeStrand f else f
  let one := if k.kind = 1 then 1 else 0
  let ch := { ch with front := f, order := ch.order + 1, formed := ch.formed + one, fullQuads := ch.fullQuads + one * rungQuads r }
  let s := setChain s c fun _ => ch
  if f.strands.length ≥ k.lrec.strands ∨ (k.kind = 1 ∧ ch.formed = 256 * (ch.checkpoints + 1)) then closeBraid s c kid else s

/-- The front end's work on a kernel is over: no more quads will come (R369). -/
def closeFront (s : State) (c kid : Nat) : State :=
  setKernel (closeBraid s c kid) kid fun k => { k with open_ := false }

/-- Fragments that the blend unit of a vault holds (R377). -/
def blendLoad (s : State) (vault : Nat) : Nat :=
  s.strips.frags.countP fun f =>
    match look s.strips.chains f.2.chain with
    | some ch => bits (ringDesc s (chainStream s ch).ring) 5 0 == vault
    | none => false

/-- A chain's kernel whose front end may go on: it runs, forms quads, waits for no replay, checkpoint or blend (R348,
R366, R377). -/
def frontReady (s : State) (ch : Chain) : Option (Nat × Kernel × ChainKernel) :=
  match ch.st, ch.kernel, stageOf s ch with
  | .running, some kid, some ck =>
    match look s.cmd.kernels kid with
    | some k =>
      if k.open_ && !replaying ch.front && !replayDue ch.front &&
          !(k.kind == 1 && ch.formed == 256 * (ch.checkpoints + 1)) &&
          decide (blendLoad s (bits (ringDesc s (chainStream s ch).ring) 5 0) < 8192) then some (kid, k, ck)
      else none
    | none => none
  | _, _, _ => none

/-- QUAD_FORM: the front end forms the next quad, or leaves a triangle that has none, or finds that no more will come
(R367 to R369). Its operand is the chain. -/
def execQuadForm (s : State) : Out :=
  match s.arg with
  | .one c =>
    match look s.strips.chains c with
    | none => .next s
    | some ch =>
      match frontReady s ch with
      | none => .next s
      | some (kid, k, ck) =>
        if ch.front.todo.isEmpty then .next (closeFront s c kid)
        else
          let ch := { ch with front := if ck.kind = 1 then reRung ch.front ch.rung else ch.front }
          let g := shadingOf s ch ck
          let next := nextQuad s (chainStream s ch) ch g
          let s := depthSeen s (chainStream s ch) ch g next
          match next with
          | some o => .next (formQuad s c kid k ch g o)
          | none => .next (setChain s c fun _ => { ch with front := { ch.front with
              todo := ch.front.todo.tail, begun := false, x := 0, y := 0, done := [] } })
  | _ => .next s

/-! ### Checkpoints (R348 to R350) -/

/-- The cost per full-rate quad at a rung, c[r] (R348). -/
def Stream.costAt (x : Stream) (r : Nat) : Nat := x.cost.getD r 0

/-- The 2 × 2 full-rate quads of an area that are not formed already. -/
def quadsLeft (a : Nat × Nat × Nat × Nat) (done : List (Nat × Nat × Nat)) : Nat :=
  (quadOrigins a 0).countP fun o => !formedAt done o.1 o.2

/-- The triangle that is being rasterised has had all of its quads formed (R365). -/
def headFormed (s : State) (ch : Chain) (ck : ChainKernel) : Bool :=
  ch.front.begun && (nextQuad s (chainStream s ch) ch (shadingOf s ch ck)).isNone

/-- U_rem of a chain: the whole band while a replay runs or is to come, and else what is left of its triangles (R365). -/
def uRem (s : State) (ch : Chain) (ck : ChainKernel) : Nat :=
  let x := chainStream s ch
  let b := x.band ch.strip
  if ch.front.replay.any fun r => r.refused || r.kernel.isSome then ceilDiv x.rendW 2 * ceilDiv (b.2 - b.1) 2
  else
    let now := reRung ch.front (ch.front.rung + 1)
    ((List.zip (List.range ch.front.todo.length) ch.front.todo).map fun e =>
      let a := (shadingOf s { ch with front := { ch.front with todo := [e.2] } } ck).area
      if e.1 ≠ 0 then quadsLeft a [] else if headFormed s ch ck then 0 else quadsLeft a now.done).foldl (· + ·) 0

/-- Time of a periodic class of slots before t, in units of 2^-16 ns. -/
def slotTimeBefore (off period dur t : Nat) : Nat :=
  let u := 2 ^ 16
  if t < off * u then 0
  else (t - off * u) / (period * u) * (dur * u) + min ((t - off * u) % (period * u)) (dur * u)

/-- O: the time of the calendar's refresh and calibration slots in [a, b); a refresh slot inside a calibration slot counts
once (R349, R384). -/
def slotTime (a b : Nat) : Nat :=
  let f := fun t =>
    slotTimeBefore 0 15625 1250 t + slotTimeBefore 250000 1000000 8000 t - slotTimeBefore 250000 1000000 1250 t
  f b - f a

/-- T_pred of a chain at a time: a late start enters through the time that has elapsed (R345, R349). -/
def predict (s : State) (ch : Chain) (ck : ChainKernel) (x : Stream) : Nat :=
  let now := s.clk.tb
  let t0 := now + uRem s ch ck * x.costAt ch.rung + x.eUp
  let m := min (2 ^ 16) (ch.stalled * 2 ^ 16 / (now - ch.admitted))
  t0 + m * slotTime now t0 / 2 ^ 16

/-- A value moved a quarter of the way to another, the difference truncated toward zero (R348, R350). -/
def quarter (old new : Nat) : Nat := ((old : Int) + ((new : Int) - old).tdiv 4).toNat

/-- Whether every quad formed so far has been shaded: no braid waits, and each bead has emitted or retired (R348). -/
def allShaded (s : State) (kid : Nat) (k : Kernel) : Bool :=
  k.formed.isEmpty && s.strands.all fun e => e.2.kernel != kid || e.2.frags.all fun f => f.2.emitted

/-- A chain whose checkpoint is to be made (R348). -/
def checkpointDue (s : State) (ch : Chain) : Option ChainKernel :=
  match ch.st, ch.kernel, stageOf s ch with
  | .running, some kid, some ck =>
    let k := lookD s.cmd.kernels kid {}
    if k.kind == 1 && ch.formed == 256 * (ch.checkpoints + 1) && allShaded s kid k then some ck else none
  | _, _, _ => none

/-- RATE_CHECKPOINT: sample, update, predict and decide (R348 to R350). Its operand is the chain. -/
def execRateCheckpoint (s : State) : Out :=
  match s.arg with
  | .one c =>
    match look s.strips.chains c with
    | none => .next s
    | some ch =>
      match checkpointDue s ch with
      | none => .next s
      | some ck =>
        let x := chainStream s ch
        let sample := (s.clk.tb - ch.tPrev) / ch.fullQuads
        let cost := (List.range 5).map fun r => if r = ch.rung then quarter (x.costAt r) sample else x.costAt r
        let x := { x with cost := cost }
        let late : Bool := decide ((predict s ch ck x : Int) > x.deadline ch.frame ch.strip - 4000 * 2 ^ 16)
        let rung := if late ∧ ch.rung < x.floor then ch.rung + 1 else ch.rung
        let s := if ch.isOf ch.stream then setStrips s fun t => { t with streams := put t.streams ch.stream x } else s
        .next (setChain s c fun ch => { ch with
          rung := rung, checkpoints := ch.checkpoints + 1, tPrev := s.clk.tb, fullQuads := 0 })
  | _ => .next s

/-! ### Blend (R377, R378) -/

/-- The pixels that a fragment covers, with their places in the block. -/
def FragBead.pixels (f : FragBead) : List (Nat × Nat × Nat) :=
  ((List.range (f.w * f.h)).filter fun i => bit f.cover i).map fun i => (i, f.x + i % f.w, f.y + i / f.w)

/-- Whether two fragments cover a pixel in common. -/
def FragBead.overlaps (f g : FragBead) : Bool :=
  f.pixels.any fun p => g.pixels.any fun q => p.2 == q.2

/-- The fragments of a kernel that have not retired from blend: those in blend, those of strands and of braids that wait,
and those under formation. -/
def unretired (s : State) (kid : Nat) (ch : Chain) : List FragBead :=
  let k := lookD s.cmd.kernels kid {}
  let own := fun (m : SMap FragBead) => (m.filter fun e => !e.2.emitted && !e.2.helper).map (·.2)
  ((s.strips.frags.filter fun f => f.2.kernel == kid).map (·.2.bead)) ++
  ((s.strands.filter fun e => e.2.kernel == kid).flatMap fun e => own e.2.frags) ++
  (k.formed.flatMap fun b => b.strands.flatMap fun t => own t.frags) ++
  (if ch.kernel = some kid then (ch.front.strands ++ [ch.front.filling]).flatMap fun t => own t.frags else [])

/-- Whether a fragment waits for no earlier one that covers a pixel of it (R377), nor for the writes of a save (R344). -/
def blendReady (s : State) (f : Fragment) : Bool :=
  match look s.strips.chains f.chain with
  | none => false
  | some ch =>
    ringOpen s (chainStream s ch) && !(unretired s f.kernel ch).any fun g => decide (g.order < f.bead.order) && g.overlaps f.bead

/-- Where a fragment's pixel is stored, and the slice's depth for a kernel of kind 1 (R358). -/
def pixelPlace (s : State) (x : Stream) (ch : Chain) (ck : ChainKernel) (px py : Nat) : Nat :=
  if ck.kind = 2 then outOff s x ch.frame py px else rendOff s x ch.frame py px

/-- One covered pixel of a fragment: EMITCZ's test, colour, and depth (R368, R375, R377, R378). -/
def blendOne (s : State) (x : Stream) (ch : Chain) (ck : ChainKernel) (f : Fragment) (c : List Word) (i px py : Nat) : State :=
  let dep := depOff s x ch.frame ch.strip py px
  let z := f.zOver.getD (nth f.bead.zs i)
  let pass : Bool := match f.zOver with
    | some z => depthPass ck.zf z (ringWord s x dep)
    | none => true
  let s := if f.zOver.isSome ∧ ck.zf ≠ 0 then ringSeen s x dep 4 else s
  if !pass then s
  else
    let o := pixelPlace s x ch ck px py
    let mix := ck.blend && ck.kind != 2
    let s := if mix then ringSeen s x o 4 else s
    let (id, s) := putRingWord s x o (blendPixel mix c (ringWord s x o)) f.pubs
    let (ids, s) := if ck.kind = 1 ∧ ck.zw then
        let (d, s) := putRingWord s x dep z f.pubs
        ([id, d], s)
      else ([id], s)
    wroteFor s f.sid f.kernel ids

/-- The index of output line y of frame n in its stream's ready marks (R360). -/
def markOf (x : Stream) (n y : Nat) : Nat := x.slotOf n (y / x.stripH) * x.stripH + y % x.stripH

/-- Whether the front end of an upscale stage has formed every quad of an output line. -/
def frontPast (x : Stream) (k : Kernel) (ch : Chain) (y : Nat) : Bool :=
  !k.open_ || ch.front.todo.isEmpty ||
    (ch.front.begun && (decide (ch.front.y > y / 2 * 2) || (decide (ch.front.y = y / 2 * 2) && decide (ch.front.x ≥ x.outW))))

/-- The ready marks set for the lines of a fragment that an upscale stage has retired: those of which it has retired every
fragment, unless the chain has missed or its stream has been set anew (R353, R360). -/
def setMarks (s : State) (c : Nat) (f : Fragment) : State :=
  match look s.strips.chains c with
  | none => s
  | some ch =>
    if ch.st = .missed ∨ ch.oldStream.isSome then s
    else
      let x := chainStream s ch
      let k := lookD s.cmd.kernels f.kernel {}
      let left := unretired s f.kernel ch
      let lines := (f.bead.pixels.map fun p => p.2.2).eraseDups.filter fun y =>
        frontPast x k ch y && !left.any fun g => g.pixels.any fun p => p.2.2 == y
      setStrips s fun t => { t with
        marks := t.marks ++ (lines.map fun y => (ch.stream, markOf x ch.frame y)).filter fun m => !t.marks.contains m }

/-- A fragment retired by write or by discard (R377). -/
def retireFragment (s : State) (id : Nat) (f : Fragment) : State :=
  match look s.strips.chains f.chain with
  | none => s
  | some ch =>
    match stageOf s ch with
    | none => s
    | some ck =>
      let x := chainStream s ch
      let s := match f.color with
        | some c => f.bead.pixels.foldl (fun s p => blendOne s x ch ck f c p.1 p.2.1 p.2.2) s
        | none => s
      let s := setStrips s fun t => { t with frags := del t.frags id }
      if ck.kind = 2 then setMarks s f.chain f else s

/-- BLEND_RETIRE: blend retires a fragment in order (R377). Its operand is the fragment. -/
def execBlendRetire (s : State) : Out :=
  match s.arg with
  | .one id =>
    match look s.strips.frags id with
    | some f => .next (if blendReady s f then retireFragment s id f else s)
    | none => .next s
  | _ => .next s

/-- The happenings of front ends and blend that may take place. -/
def dueFronts (s : State) : List Happening :=
  (s.strips.chains.flatMap fun e =>
    (if (frontReady s e.2).isSome then [⟨.quadForm, .one e.1⟩] else []) ++
    (if (checkpointDue s e.2).isSome then [⟨.rateCheckpoint, .one e.1⟩] else [])) ++
  ((s.strips.frags.filter fun f => blendReady s f.2).map fun f => ⟨.blendRetire, .one f.1⟩)

end Sys2Proof.Machine
end

