-- ==== Sys2Proof/Machine/Engine.lean ====
section
/-!
DEFINITION. The accesses of the engines: translated runs of bytes, stalls and failures (R174, R229), reads under what
the issuer knew (R212), and writes performed whole (R238).
-/

namespace Sys2Proof.Machine
open Sys2Proof

/-- Why an engine operation cannot go on: it waits on a miss record, it waits for something else, or its access failed
with a code (R174, R238). -/
inductive EngineStop where
  | miss (quad idx : Nat)
  | wait
  | fail (code : Nat)
  deriving DecidableEq, Repr

/-- A part of an engine operation: a result, or what stops it, with the state reached. -/
abbrev Engine (α : Type) := Except EngineStop α × State

/-- What follows a part that is done. -/
def Engine.andThen {α β : Type} (x : Engine α) (f : α → State → Engine β) : Engine β :=
  match x with
  | (.ok a, s) => f a s
  | (.error e, s) => (.error e, s)

/-- A run of n bytes cut at page boundaries; addresses wrap at 2^64 (R236). -/
def pageRuns : Nat → Nat → Nat → List (Nat × Nat)
  | 0, _, _ => []
  | fuel + 1, va, n =>
    if n = 0 then []
    else
      let va := va % 2 ^ 64
      let first := min n (8192 - va % 8192)
      (va, first) :: pageRuns fuel (va + first) (n - first)

/-- The runs of a range. -/
def runs (va n : Nat) : List (Nat × Nat) := pageRuns (n / 8192 + 2) va n

/-- An access translated (R170, R174). -/
def engineTranslate (s : State) (a : Accessor) (va n : Nat) : Engine (Nat × Nat × Bool) :=
  match translation s a va n with
  | (.ok pa key pin, s) => (.ok (pa, key, pin), s)
  | (.fault cause _, s) => (.error (.fail cause), s)
  | (.miss, s) =>
    match joinMiss s a va with
    | (some idx, s) => (.error (.miss a.quad idx), s)
    | (none, s) => (.error .wait, s)

/-- A run translated for a read, its place opened under its key once nothing holds the read (R179, R193, R385). -/
def engineOpen (s : State) (a : Accessor) (know : List Known) (path : Path) (alloc : Bool) (va n : Nat) : Engine Nat :=
  (engineTranslate s { a with need := .read } va n).andThen fun x s =>
    let (pa, key, _) := x
    if heldBySlot s pa n || awaitsWrite s none know path pa n then (.error .wait, s)
    else
      let s := settleZero s pa n
      if eccHit s pa n then (.error (.fail 0x13), s) else (.ok pa, openRead s pa n key alloc)

/-- Bytes read for an engine: those that R209 allows for what the issuer knew on the path. -/
def engineRead (s : State) (a : Accessor) (know : List Known) (path : Path) (alloc : Bool) :
    List (Nat × Nat) → Engine (List Byte)
  | [] => (.ok [], s)
  | (va, n) :: t =>
    (engineOpen s a know path alloc va n).andThen fun pa s =>
      let (r, s) := readKnown s know path pa n
      (engineRead s a know path alloc t).andThen fun bs s => (.ok (r.bytes ++ bs), s)

/-- The destinations of a unit translated, before any write (R238). -/
def engineTargets (s : State) (a : Accessor) : List (Nat × Nat) → Engine (List (Nat × Nat × Nat))
  | [] => (.ok [], s)
  | (va, n) :: t =>
    (engineTranslate s { a with need := .write } va n).andThen fun x s =>
      if heldBySlot s x.1 n || poolFirst s a.sid x.1 then (.error .wait, s)
      else (engineTargets s a t).andThen fun rest s => (.ok ((x.1, x.2.1, n) :: rest), s)

/-- Bytes written to translated targets; the numbers of the writes. -/
def engineWrite (s : State) (path : Path) (pubs : List Pub) :
    List (Nat × Nat × Nat) → List Byte → List Known → List Known × State
  | [], _, acc => (acc, s)
  | (pa, key, n) :: t, bs, acc =>
    let (id, s) := writeOwn (settleZero s pa n) pa key (bs.take n) (some path) pubs
    engineWrite s path pubs t (bs.drop n) ((id, path) :: acc)

end Sys2Proof.Machine
end

