-- ==== Sys2Proof/Machine/CopyOps.lean ====
section
/-!
DEFINITION. The copy engine (R233 to R240) and the future instructions (R241 to R245).
-/

namespace Sys2Proof.Machine
open Sys2Proof

/-! ### Issue -/

/-- The forms of opcode 0x68 by selector (R234). -/
def copyCpy1 : Nat := 0
/-- CPY2. -/
def copyCpy2 : Nat := 1
/-- FILL. -/
def copyFill : Nat := 2
/-- GATH. -/
def copyGath : Nat := 3
/-- SCAT. -/
def copyScat : Nat := 4

/-- The copy commands that a quad's engine holds (R233). -/
def copiesOf (s : State) (quad : Nat) : List CopyCmd := s.eng.copies.filter fun x => quadOfCore x.core == quad

/-- A copy command of operand words, before it has a record: `vs` are the words of a and then of b (R234). -/
def copyOf (i : Issue) (form : Nat) (vs : List Word) : CopyCmd :=
  let p := fun k => (pairAt vs k).toNat
  let w := fun k => (nth vs k).toNat
  let base : CopyCmd :=
    { id := 0, sid := i.sid, ctx := i.st.ctx, core := i.st.core, handle := 0, form := form, dst := p 0, src := p 2,
      rowBytes := w 4, rows := 1, spitch := 0, layout := 0, list := 0, know := onPath i.st.know .c,
      pubs := carriedPubs i.st .c, waiting := [] }
  if form = copyCpy2 then { base with rows := w 5, spitch := w 6, layout := w 7 }
  else if form = copyFill then { base with src := w 3, rowBytes := w 2 }
  else if form = copyGath ∨ form = copyScat then { base with rowBytes := w 4, rows := w 5, list := p 6 }
  else base

/-- The span of a swizzled destination (R236). -/
def CopyCmd.span (c : CopyCmd) : Nat := 16 * 2 ^ bits c.layout 2 0
/-- Whether the destination is swizzled (R236). -/
def CopyCmd.swizzled (c : CopyCmd) : Bool := bit c.layout 3
/-- The destination pitch in bytes (R236). -/
def CopyCmd.dpitch (c : CopyCmd) : Nat := 16 * bits c.layout 31 16

/-- The reason of R235 for which operand values fail; where several hold at once, the lowest (log 125). -/
def CopyCmd.reason (c : CopyCmd) : Option Nat :=
  let e := c.rowBytes
  if c.form = copyCpy2 then
    if c.rowBytes ≥ 2 ^ 24 ∨ c.rows ≥ 2 ^ 16 ∨ bits c.layout 15 4 ≠ 0 then some 0x21
    else if c.rows > 1 ∧ c.dpitch < c.rowBytes then some 0x22
    else if c.swizzled ∧ (c.dst % c.span ≠ 0 ∨ c.rowBytes % c.span ≠ 0) then some 0x23
    else none
  else if c.form = copyGath ∨ c.form = copyScat then
    if ¬ [1, 2, 4, 8, 16, 32, 64, 128, 256, 512, 1024, 2048, 4096].contains e ∨ c.rows ≥ 2 ^ 24 then some 0x24
    else if c.list % 4 ≠ 0 ∨ c.dst % e ≠ 0 ∨ c.src % e ≠ 0 then some 0x25
    else none
  else none

/-- The number of units of a command (R238). -/
def CopyCmd.units (c : CopyCmd) : Nat :=
  if c.form = copyCpy1 ∨ c.form = copyFill then ceilDiv c.rowBytes 4096
  else if c.form = copyCpy2 then
    if c.rowBytes = 0 then 0
    else if c.rowBytes ≤ 4096 then ceilDiv c.rows (4096 / c.rowBytes)
    else c.rows * ceilDiv c.rowBytes 4096
  else ceilDiv c.rows (4096 / max 1 c.rowBytes)

/-- A copy form (R233, R234, R235): its record is taken and the command accepted, or ends at once where it moves
nothing (R236). -/
def formCopy (form : Nat) (d a b : Reg) (i : Issue) : BeadOut :=
  let quadB := form == copyCpy2 || form == copyGath || form == copyScat
  let okA := if form = copyFill then uniPairOk i.st a else uniQuadOk i.st a
  let okB := if quadB then uniQuadOk i.st b else if form = copyFill then uniPairOk i.st b else uniSrcOk i.st b
  let srcs := srcsW ((if form = copyFill then pairOf a else quadOf a) ++
    (if quadB then quadOf b else if form = copyFill then pairOf b else [b]))
  runForm true (uniDstOk i.st d && okA && okB) true
    (fun j i => readyOr i j srcs [d] (readAll j srcs 0 i fun vs i =>
      let c := copyOf i form vs
      match c.reason with
      | some r => .trap (illegalOperand r) i
      | none =>
        if (copiesOf i.s (quadOfCore i.st.core)).length ≥ 64 then .block .copyFull i
        else match allocFuture i.s i.st.ctx i.st.kernel c.know with
          | none => .block .table i
          | some (h, s) =>
            if c.units = 0 then .ok (writeHandle { i with s := endHandle s h .done 0 [] } j d h false)
            else
              let (id, s) := newFlight s
              let cmd := { c with id := id, handle := h, waiting := [(0, c.units)], after := readsBefore s i.sid .c }
              .ok (writeHandle { i with s := { s with eng := { s.eng with copies := s.eng.copies ++ [cmd] } } } j d h true))) i

/-- CPY1 (R236). -/
def execCpy1 (d a b : Reg) (s : State) : Out := onStrand s (formCopy copyCpy1 d a b)
/-- CPY2 (R236). -/
def execCpy2 (d a b : Reg) (s : State) : Out := onStrand s (formCopy copyCpy2 d a b)
/-- FILL (R237). -/
def execFill (d a b : Reg) (s : State) : Out := onStrand s (formCopy copyFill d a b)
/-- GATH (R237). -/
def execGath (d a b : Reg) (s : State) : Out := onStrand s (formCopy copyGath d a b)
/-- SCAT (R237). -/
def execScat (d a b : Reg) (s : State) : Out := onStrand s (formCopy copyScat d a b)

/-! ### Units -/

/-- The pieces of bytes [c, c + n) of row r of a copy: source and destination ranges (R236). -/
def CopyCmd.rowRuns (x : CopyCmd) (r c n : Nat) : List (Nat × Nat × Nat) :=
  let src := x.src + r * x.spitch
  let dst := x.dst + x.dpitch * r
  if x.swizzled then
    (List.range (ceilDiv n 16)).map fun k =>
      let o := c + 16 * k
      (src + o, dst + o / x.span * x.span + 16 * (o % x.span / 16 ^^^ r % (x.span / 16)), min 16 (n - 16 * k))
  else [(src + c, dst + c, n)]

/-- The rows and byte ranges of a unit of CPY1, CPY2 or FILL: row, first byte, length (R238). -/
def CopyCmd.unitRows (x : CopyCmd) (u : Nat) : List (Nat × Nat × Nat) :=
  if x.form = copyCpy2 ∧ x.rowBytes ≤ 4096 then
    let per := 4096 / max 1 x.rowBytes
    (List.range (min per (x.rows - u * per))).map fun k => (u * per + k, 0, x.rowBytes)
  else
    let per := ceilDiv x.rowBytes 4096
    [(u / max 1 per, u % max 1 per * 4096, min 4096 (x.rowBytes - u % max 1 per * 4096))]

/-- The elements of a unit of GATH or SCAT: the first, and how many (R238). -/
def CopyCmd.unitElems (x : CopyCmd) (u : Nat) : Nat × Nat :=
  let per := 4096 / max 1 x.rowBytes
  (u * per, min per (x.rows - u * per))

/-- How a copy engine makes its accesses (R176, R233). -/
def copyAccess (x : CopyCmd) : Accessor :=
  { ctx := x.ctx, quad := quadOfCore x.core, path := some .c, given := x.given, who := engineWho x.handle, sid := some x.sid }

/-! ### Where source and destination overlap -/

/-- How far address a stands behind address b; addresses wrap (R236). -/
def ahead (a b : Nat) : Nat := (a + (2 ^ 64 - b % 2 ^ 64)) % 2 ^ 64

/-- The addresses among which all that a command writes lies: the first, and how many (R236, R237). -/
def CopyCmd.target (x : CopyCmd) : Nat × Nat :=
  (x.dst, if x.form = copyGath then x.rows * x.rowBytes else if x.form = copyScat then 2 ^ 32 * x.rowBytes
    else (x.rows - 1) * x.dpitch + x.rowBytes)

/-- The source address of the byte that a command writes at an address, if it writes one there: of SCAT, that of its highest
element (R236, R237). -/
def CopyCmd.srcAt (x : CopyCmd) (s : State) (b : Nat) : Engine (Option Nat) :=
  let a := copyAccess x
  let d := ahead b x.dst
  let e := x.rowBytes
  if d ≥ x.target.2 then (.ok none, s)
  else if x.form = copyGath then
    (engineRead s a x.know .c true (runs (x.list + 4 * (d / e)) 4)).andThen fun k s =>
      (.ok (some (x.src + ofLE k * e + d % e)), s)
  else if x.form = copyScat then
    (engineRead s a x.know .c true (runs x.list (4 * x.rows))).andThen fun l s =>
      (.ok (((List.range x.rows).reverse.find? fun k => ofLE ((l.drop (4 * k)).take 4) == d / e).map fun k =>
        x.src + k * e + d % e), s)
  else
    let r := if x.rows = 1 then 0 else d / x.dpitch
    let o := d - r * x.dpitch
    if o ≥ e then (.ok none, s)
    else
      let c := if x.swizzled then o / x.span * x.span + 16 * (o % x.span / 16 ^^^ r % (x.span / 16)) + o % 16 else o
      (.ok (some (x.src + r * x.spitch + c)), s)

/-- The address whose byte, as it stood before the command, the byte at `b` takes, where its source is `src`: a free value says
of each byte whether it takes the source byte as it stood or what the command itself writes there (R238; log 127). A chain of
such bytes that comes round to itself has no such address. -/
def CopyCmd.origin (x : CopyCmd) : Nat → State → Nat → Nat → Engine (Option Nat)
  | 0, s, _, _ => (.ok none, s)
  | n + 1, s, b, src =>
    if !Config.copyOwn x.id (b % 2 ^ 64) then (.ok (some src), s)
    else (x.srcAt s src).andThen fun q s =>
      match q with
      | none => (.ok (some src), s)
      | some q => x.origin n s src q

/-- One byte read for a command as it stood before the command's own writes (R238). -/
def CopyCmd.readBefore (x : CopyCmd) (s : State) (va : Nat) : Engine Byte :=
  (engineOpen s (copyAccess x) x.know .c true (va % 2 ^ 64) 1).andThen fun pa s =>
    let known := fun id => x.know.any fun k => k.1 == id && k.2 == .c
    let own := fun id => x.writes.any fun k => k.1 == id
    let vs := (versions known pa (s.mem.floorAt pa) s.mem.log (s.mem.byteAt pa)).filter fun v => !v.2.any own
    let (f, s) := drawFree s
    (.ok (vs.getD (f % max 1 vs.length) (s.mem.byteAt pa, none)).1, s)

/-- The bytes of a unit's destinations, each from its source, where the source overlaps what the command writes (R238). -/
def CopyCmd.ownBytes (x : CopyCmd) : State → List (Nat × Nat) → Engine (List Byte)
  | s, [] => (.ok [], s)
  | s, (src, b) :: t =>
    (x.origin (x.rows * x.rowBytes + 1) s b src).andThen fun o s =>
      (x.readBefore s (o.getD src)).andThen fun v s =>
        (x.ownBytes s t).andThen fun vs s => (.ok (v :: vs), s)

/-- The addresses of ranges laid one after another. -/
def flatAddrs (rs : List (Nat × Nat)) : List Nat := rs.flatMap fun r => (List.range r.2).map (r.1 + ·)

/-- The bytes that a unit moves between ranges laid one after another (R236 to R238). -/
def CopyCmd.sourceBytes (x : CopyCmd) (s : State) (src dst : List (Nat × Nat)) : Engine (List Byte) :=
  if src.any fun r => decide (ahead r.1 x.target.1 < x.target.2) || decide (ahead x.target.1 r.1 < r.2) then
    x.ownBytes s ((flatAddrs src).zip (flatAddrs dst))
  else engineRead s (copyAccess x) x.know .c true (src.flatMap fun r => runs r.1 r.2)

/-- A unit performed whole: its bytes read, and written to targets that translate (R236 to R239). -/
def CopyCmd.perform (x : CopyCmd) (s : State) (u : Nat) : Engine (List Known) :=
  let a := copyAccess x
  let move := fun (s : State) (src dst : List (Nat × Nat)) =>
    (x.sourceBytes s src dst).andThen fun bs s =>
      (engineTargets s a (dst.flatMap fun r => runs r.1 r.2)).andThen fun ts s =>
        let (ks, s) := engineWrite s .c x.pubs ts bs []
        (.ok ks, s)
  if x.form = copyFill then
    let rows := x.unitRows u
    let n := rows.foldl (fun n r => n + r.2.2) 0
    let first := (rows.headD (0, 0, 0)).2.1
    let bs := (List.range n).map fun k => BitVec.ofNat 8 (x.src / 256 ^ ((x.dst + first + k) % 4))
    (engineTargets s a (runs (x.dst + first) n)).andThen fun ts s =>
      let (ks, s) := engineWrite s .c x.pubs ts bs []
      (.ok ks, s)
  else if x.form = copyGath ∨ x.form = copyScat then
    let (first, n) := x.unitElems u
    (engineRead s a x.know .c true (runs (x.list + 4 * first) (4 * n))).andThen fun bs s =>
      let idx := (List.range n).map fun k => ofLE ((bs.drop (4 * k)).take 4)
      let far := idx.map fun k => ((if x.form = copyGath then x.src else x.dst) + k * x.rowBytes, x.rowBytes)
      let near := [((if x.form = copyGath then x.dst else x.src) + first * x.rowBytes, n * x.rowBytes)]
      if x.form = copyGath then move s far near else move s near far
  else
    let ps := (x.unitRows u).flatMap fun r => x.rowRuns r.1 r.2.1 r.2.2
    move s (ps.map fun p => (p.1, p.2.2)) (ps.map fun p => (p.2.1, p.2.2))

/-! ### What a unit counts as -/

/-- The LPDDR6 lines of one run, by its translation or, where that misses, as the tables give it; none where a slot holds the
walk. A run that faults counts none. -/
def runLines (s : State) (a : Accessor) (va n : Nat) : Option (List Nat) :=
  let lines := fun t : Translated => match t with
    | .ok pa _ _ => if isLpddr pa then linesOf pa n else []
    | _ => []
  match (translation s a va n).1 with
  | .miss =>
    match (walkTables s a.quad a.ctx va).1 with
    | .leaf level e _ => some (lines (useLeaf s a va level e))
    | .held => none
    | _ => some []
  | t => some (lines t)

/-- The LPDDR6 lines of runs. -/
def lpddrLines (s : State) (a : Accessor) : List (Nat × Nat) → Option (List Nat)
  | [] => some []
  | (va, n) :: t => (runLines s a va n).bind fun l => (lpddrLines s a t).map (l ++ ·)

/-- The elements that the index list of a unit of GATH or SCAT names, as far as it can be read now. -/
def CopyCmd.indexed (x : CopyCmd) (s : State) (u : Nat) : List (Nat × Nat) :=
  let (first, n) := x.unitElems u
  match (engineRead s (copyAccess x) x.know .c true (runs (x.list + 4 * first) (4 * n))).1 with
  | .ok bs => (List.range n).map fun k =>
      ((if x.form = copyGath then x.src else x.dst) + ofLE ((bs.drop (4 * k)).take 4) * x.rowBytes, x.rowBytes)
  | .error _ => []

/-- n of R240: the LPDDR6 lines that a unit reads or writes; none while a slot holds the walk that would tell. -/
def CopyCmd.unitLines (x : CopyCmd) (s : State) (u : Nat) : Option Nat :=
  let a := copyAccess x
  let reads : List (Nat × Nat) :=
    if x.form = copyFill then [] else if x.form = copyGath ∨ x.form = copyScat then
      [(x.list + 4 * (x.unitElems u).1, 4 * (x.unitElems u).2)] ++
        (if x.form = copyScat then [(x.src + (x.unitElems u).1 * x.rowBytes, (x.unitElems u).2 * x.rowBytes)]
         else x.indexed s u)
    else ((x.unitRows u).flatMap fun r => x.rowRuns r.1 r.2.1 r.2.2).map fun p => (p.1, p.2.2)
  let writes : List (Nat × Nat) :=
    if x.form = copyFill then (x.unitRows u).map fun r => (x.dst + r.2.1, r.2.2)
    else if x.form = copyGath then [(x.dst + (x.unitElems u).1 * x.rowBytes, (x.unitElems u).2 * x.rowBytes)]
    else if x.form = copyScat then x.indexed s u
    else ((x.unitRows u).flatMap fun r => x.rowRuns r.1 r.2.1 r.2.2).map fun p => (p.2.1, p.2.2)
  let cut := fun rs : List (Nat × Nat) => rs.flatMap fun r => runs r.1 r.2
  (lpddrLines s { a with need := .read } (cut reads)).bind fun l =>
    (lpddrLines s { a with need := .write } (cut writes)).map fun k => (l ++ k).eraseDups.length

/-- Whether an engine works on a command: it starts commands in the order in which it accepted them, and works on at most
four at once, of which a slot may hold every unit (R233, R240). -/
def copyMayWork (s : State) (x : CopyCmd) : Bool :=
  decide (((copiesOf s (quadOfCore x.core)).filter fun y => decide (y.id < x.id)).length < 4)

/-- The number of units that have not started. -/
def unitsLeft (l : List (Nat × Nat)) : Nat := l.foldl (fun n r => n + (r.2 - r.1)) 0

/-- The k-th unit that has not started. -/
def unitAt : List (Nat × Nat) → Nat → Option Nat
  | [], _ => none
  | (lo, hi) :: t, k => if k < hi - lo then some (lo + k) else unitAt t (k - (hi - lo))

/-- A unit taken from the ranges. -/
def dropUnit (u : Nat) (l : List (Nat × Nat)) : List (Nat × Nat) :=
  l.flatMap fun r =>
    if r.1 ≤ u ∧ u < r.2 then [(r.1, u), (u + 1, r.2)].filter fun x => decide (x.1 < x.2) else [r]

/-- Whether a unit of a command may start (R233, R240). SCAT's units start in order, which keeps the element of higher i
(R237; log 22). -/
def unitMayStart (s : State) (x : CopyCmd) (u : Nat) : Bool :=
  x.err.isNone && copyMayWork s x && x.waiting.any (fun r => decide (r.1 ≤ u) && decide (u < r.2)) &&
    (x.form != copyScat || (x.started.isEmpty && x.waiting.all fun r => decide (u ≤ r.1))) && (x.unitLines s u).any (unitFits s)

/-- A copy command changed. -/
def setCopy (s : State) (id : Nat) (f : CopyCmd → CopyCmd) : State :=
  { s with eng := { s.eng with copies := mapWhere (fun x => x.id == id) f s.eng.copies } }

/-- COPY_UNIT_START: the engine starts a unit (R233, R240). Its operand is the command and the unit. -/
def execCopyUnitStart (s : State) : Out :=
  match s.arg with
  | .two id u =>
    match s.eng.copies.find? fun x => x.id == id with
    | some x =>
      .next (if unitMayStart s x u then
          setCopy s id fun x => { x with waiting := dropUnit u x.waiting, started := x.started ++ [u] }
        else s)
    | none => .next s
  | _ => .next s

/-- COPY_UNIT_DONE: a started unit is performed whole, stalls on a miss, or fails its command (R174, R229, R238). Its
operand is the command and the unit. -/
def execCopyUnitDone (s : State) : Out :=
  match s.arg with
  | .two id u =>
    match s.eng.copies.find? fun x => x.id == id with
    | some x =>
      if x.started.contains u && x.stall.isNone && x.err.isNone && afterReads s x.after then
        match x.perform s u with
        | (.ok ks, s) =>
          .next (setCopy s id fun x => { x with started := x.started.filter fun y => y != u, writes := joinKnown x.writes ks, given := [] })
        | (.error (.miss q r), s) => .next (setCopy s id fun x => { x with stall := some (q, r) })
        | (.error .wait, s) => .next s
        | (.error (.fail code), s) => .next (setCopy s id fun x => { x with err := some code })
      else .next s
    | none => .next s
  | _ => .next s

/-! ### The future instructions -/

/-- A handle register that is not ready: empty for another reason than a future (R231). -/
def handleWait (st : Strand) (j : Nat) (r : Reg) : Bool := fillOf st j r == .due

/-- The handles of bead j, tested under R231: a wait, a handle of another context, or their values. -/
def readHandles (i : Issue) (j : Nat) (rs dsts : List Reg) (k : List Word → BeadOut) : BeadOut :=
  match rs.find? (handleWait i.st j) with
  | some r => .block (waitReg i.st j r) i
  | none =>
    match dsts.find? fun r => !(fillOf i.st j r).isFull with
    | some r => .block (waitReg i.st j r) i
    | none =>
      let hs := rs.map (readReg i.st j)
      if hs.any fun h => !handleNull h && handleCtx h != i.st.ctx then .trap { illegalOperand with bead := none } i
      else k hs

/-- The state word of FTEST (R242). -/
def futureWord (s : State) (h : Word) : Word :=
  if handleNull h then 5
  else if !handleCurrent s h then 4
  else
    let f := futureOf s h
    match f.st with
    | .pending | .free => 0
    | .done => 1
    | .failed => BitVec.ofNat 32 (2 + f.err % 256 * 2 ^ 8)
    | .cancelled => 3

/-- FTEST (R242). -/
def execFtest (d a : Reg) (s : State) : Out :=
  onStrand s fun i =>
    runForm (isPort d) (pairOk i.st d && srcOk i.st a && !isPort a && classOk d [a]) (allUniform [d, a])
      (fun j i => readHandles i j [a] (pairOf d) fun hs => writeAll j (pairOf d) [futureWord i.s (nth hs 0), nth hs 0] i) i

/-- FCANCEL (R243). -/
def execFcancel (a : Reg) (s : State) : Out :=
  onStrand s fun i =>
    runForm false (srcOk i.st a && !isPort a) (!isBead a)
      (fun j i => readHandles i j [a] [] fun hs => .ok { i with s := sendCancel 1024 i.s (nth hs 0) }) i

/-- FWAITH (R244). -/
def execFwaith (a : Reg) (s : State) : Out :=
  onStrand s fun i =>
    runForm false (srcOk i.st a && !isPort a) (!isBead a)
      (fun j i => readHandles i j [a] [] fun hs =>
        let h := nth hs 0
        if handlePending i.s h then .block (.future h) i
        else .ok { i with st := acquire i.st (handlePub i.s h) }) i

/-- FJOIN of one bead's handles; where it completes on a final future it acquires (R211, R245). -/
def joinBead (d : Reg) (j : Nat) (a b : Word) (i : Issue) : BeadOut :=
  if a = b ∨ handleNull a ∨ handleNull b then
    let h := if handleNull a then b else a
    let pending := handlePending i.s h
    let i := if pending then i else { i with st := acquire i.st (handlePub i.s h) }
    .ok (writeHandle i j d h pending)
  else
    match allocFuture i.s i.st.ctx 0 [] with
    | none => .block .table i
    | some (h, s) =>
      .ok (writeHandle { i with s := setFuture s (handleCtx h) (handleRec h) fun f => { f with join := some (a, b) } } j d h true)

/-- FJOIN (R245). -/
def execFjoin (d a b : Reg) (s : State) : Out :=
  onStrand s fun i =>
    runForm (isPort d) (dstOk i.st d && srcOk i.st a && srcOk i.st b && !isPort d && !isPort a && !isPort b && classOk d [a, b])
      (allUniform [d, a, b])
      (fun j i => readHandles i j [a, b] [d] fun hs => joinBead d j (nth hs 0) (nth hs 1) i) i

/-! ### What may take place -/

/-- The happenings of the copy engines that may take place; which unit starts is a free value (log 1). -/
def dueCopies (s : State) : List Happening :=
  (s.eng.copies.filterMap fun x =>
    let n := unitsLeft x.waiting
    let k := if x.form = copyScat then 0 else Config.free s.choice % max 1 n
    match unitAt x.waiting k with
    | some u => if unitMayStart s x u then some ⟨.copyUnitStart, .two x.id u⟩ else none
    | none => none) ++
  (s.eng.copies.flatMap fun x =>
    if x.stall.isNone && x.err.isNone && afterReads s x.after then x.started.map fun u => ⟨.copyUnitDone, .two x.id u⟩ else [])

end Sys2Proof.Machine
end

