-- ==== Sys2Proof/Machine/Tile.lean ====
section
/-!
DEFINITION. The arithmetic of the matrix array (R29 to R32), the accumulator tiles (R252), and what a matrix form reads and
writes in memory (R248, R250, R257, R265 to R269).
-/

namespace Sys2Proof.Machine
open Sys2Proof

/-! ### Block accumulation -/

/-- An element of an operand: its value and its exponent ε (R30). -/
structure TileElem where
  val : FVal
  eps : Int := 0
  deriving DecidableEq, Repr

/-- The element of a code (R30). -/
def tileElem (f : Fmt) (code : Nat) : TileElem :=
  match elemVal f code with
  | .fin x => { val := .fin x, eps := if f = .ds8 then 4 else max x.log f.emin }
  | v => { val := v }

/-- A product that is +∞ or −∞, as `neg` says. -/
def isInf (neg : Bool) (v : FVal) : Bool := match v with | .inf n => n == neg | _ => false

/-- TruncZ(p × 2^−E, 18) of R31, in units of 2^−18. -/
def truncTerm (e : Int) (x : Frac) : Int :=
  let q : Int := (x.divPow (e - 18)).1
  if x.num < 0 then -q else q

/-- BlockSum of R31 over the paired elements of a block. -/
def blockSum (ab : List (TileElem × TileElem)) (xa xb : Nat) : Word :=
  let p := ab.map fun e => (fMulVal e.1.val e.2.val, e.1.eps + e.2.eps)
  if xa = 255 ∨ xb = 255 ∨ p.any (fun e => e.1 matches .nan) then 0x7FC00000
  else
    let pos := p.any fun e => isInf false e.1
    let neg := p.any fun e => isInf true e.1
    if pos && neg then 0x7FC00000
    else if pos then 0x7F800000
    else if neg then 0xFF800000
    else
      let z := p.filterMap fun e => match e.1 with | .fin x => some (x, e.2) | _ => none
      match z with
      | [] => 0
      | h :: t =>
        let top := t.foldl (fun m e => max m e.2) h.2
        let sum := z.foldl (fun (n : Int) e => n + truncTerm top e.1) 0
        if sum = 0 then 0 else rn (.fin (dyadic sum (top - 18 + xa + xb - 254)))

/-- A chain after a block's sum is added or subtracted (R32). -/
def addChain (chain sum : Word) (sub : Bool) : Word :=
  rn (fAddVal (fp chain) (if sub then fNegVal (fp sum) else fp sum))

/-- The two chains of an accumulator element (R252). -/
abbrev Chains := Word × Word

/-- The blocks of R32 from block n on, as element pairs with their scale bytes. -/
def runBlocks (sub : Bool) : Nat → List (List (TileElem × TileElem) × Nat × Nat) → Chains → Chains
  | _, [], c => c
  | n, (ab, xa, xb) :: t, c =>
    let v := blockSum ab xa xb
    runBlocks sub (n + 1) t (if n % 2 = 0 then (addChain c.1 v sub, c.2) else (c.1, addChain c.2 v sub))

/-- The fold of R32. -/
def foldChains (c : Chains) : Chains := (rn (fAddVal (fp c.1) (fp c.2)), 0)

/-! ### Tiles -/

/-- The words of a tile in order of element and chain, changed element by element; `el` is the next element and `m` the
words listed from it on (R252). An unlisted word is +0. -/
def walkTile (base : Nat) (f : Nat → Chains → Chains) : Nat → Nat → SMap Word → SMap Word
  | 0, _, _ => []
  | n + 1, el, m =>
    let k := base + 2 * el
    let (c0, m) := match m with | (k', v) :: t => if k' = k then (v, t) else (0, m) | [] => (0, [])
    let (c1, m) := match m with | (k', v) :: t => if k' = k + 1 then (v, t) else (0, m) | [] => (0, [])
    let (d0, d1) := f el (c0, c1)
    let rest := walkTile base f n (el + 1) m
    let rest := if d1 = 0 then rest else (k + 1, d1) :: rest
    if d0 = 0 then rest else (k, d0) :: rest

/-- The elements of a tile (R252). -/
def tileElems : Nat := 65536

/-- Every element of tile t, numbered core × 3 + tile, changed by f. -/
def mapTile (s : State) (t : Nat) (f : Nat → Chains → Chains) : State :=
  let base := t * tileElems * 2
  let below := s.eng.tiles.filter fun e => decide (e.1 < base)
  let mine := s.eng.tiles.filter fun e => decide (base ≤ e.1) && decide (e.1 < base + tileElems * 2)
  let above := s.eng.tiles.filter fun e => decide (base + tileElems * 2 ≤ e.1)
  { s with eng := { s.eng with tiles := below ++ walkTile base f tileElems 0 mine ++ above } }

/-- A tile set to +0 in both chains. -/
def zeroTile (s : State) (t : Nat) : State :=
  let base := t * tileElems * 2
  let kept := s.eng.tiles.filter fun e => decide (e.1 < base) || decide (base + tileElems * 2 ≤ e.1)
  { s with eng := { s.eng with tiles := kept } }

/-- A chain of an element of a tile. -/
def tileWord (s : State) (t el c : Nat) : Word := lookD s.eng.tiles ((t * tileElems + el) * 2 + c) 0

/-! ### Bytes of a descriptor's operand -/

/-- The runs of bytes [c, c + n) of a stored row (R250). -/
def rowBytes (d : TileDesc) (row c n : Nat) : List (Nat × Nat) :=
  let base := d.addr + 16 * d.pitch * row
  if d.swz then
    (List.range (ceilDiv n 16)).map fun i =>
      let o := c + 16 * i
      (base + o / d.span * d.span + 16 * (o % d.span / 16 ^^^ row % (d.span / 16)), min 16 (n - 16 * i))
  else [(base + c, n)]

/-- Element codes of a stored row's bytes, n of them (R15, R250). -/
def codesOf (eb : Nat) : Nat → List Byte → List Nat
  | 0, _ => []
  | 1, bs => [ofLE (bs.take (ceilDiv eb 8)) % 2 ^ eb]
  | n + 2, bs =>
    let x := ofLE (bs.take (ceilDiv (2 * eb) 8))
    x % 2 ^ eb :: x / 2 ^ eb :: codesOf eb n (bs.drop (eb / 4))

/-- The bytes of a row of element codes; an odd nibble at the end leaves 0 above it (R266). -/
def packCodes (eb : Nat) : List Nat → List Byte
  | [] => []
  | [x] => toLE (ceilDiv eb 8) x
  | x :: y :: t => if eb = 4 then BitVec.ofNat 8 (x + 16 * y) :: packCodes eb t
                   else toLE (eb / 8) x ++ packCodes eb (y :: t)

/-- Rows and columns exchanged: element j of each of the lists, for j below n. -/
def transpose (n : Nat) (l : List (List Nat)) : List (List Nat) :=
  (List.range n).map fun j => l.map fun r => r.getD j 0

/-- The stored rows that hold the elements with k in [k0, k0 + n): each as its runs of bytes (R250). -/
def descRows (d : TileDesc) (eb k0 n : Nat) : List (List (Nat × Nat)) :=
  if d.cm then (List.range n).map fun i => rowBytes d (k0 + i) 0 (ceilDiv (d.rows * eb) 8)
  else (List.range d.rows).map fun l => rowBytes d l (k0 * eb / 8) (n * eb / 8)

/-- The E8M0 bytes of the same elements, line by line (R248). -/
def scaleRows (d : TileDesc) (sbase k0 n : Nat) : List (List (Nat × Nat)) :=
  (List.range d.rows).map fun l => [(sbase + l * (d.k / 32) + k0 / 32, n / 32)]

/-- Bytes cut into pieces as long as the groups of runs that they were read by. -/
def cutBytes : List (List (Nat × Nat)) → List Byte → List (List Byte)
  | [], _ => []
  | g :: t, bs =>
    let n := g.foldl (fun n r => n + r.2) 0
    bs.take n :: cutBytes t (bs.drop n)

/-- How a matrix form makes its accesses (R176, R260). -/
def tileAccess (core : Nat) (e : MEntry) : Accessor :=
  { ctx := e.ctx, core := some core, quad := quadOfCore core, bid := some e.bid, path := some .m,
    given := e.given.toList, who := engineWho e.handle, sid := some e.sid }

/-- Groups of runs read on path M by what the issuer knew (R260). -/
def readGroups (s : State) (core : Nat) (e : MEntry) (alloc : Bool) (gs : List (List (Nat × Nat))) :
    Engine (List (List Byte)) :=
  let rs := gs.flatten.flatMap fun r => runs r.1 r.2
  (engineRead s (tileAccess core e) e.know .m alloc rs).andThen fun bs s => (.ok (cutBytes gs bs), s)

/-- Which parts of its work a form performs: all of it, or those that a cancel leaves done (R229, R243; log 69). -/
abbrev Part := Option (Nat → Bool)

/-- The bytes of translated targets that a part of the work writes. -/
def keepBytes (part : Part) (ts : List (Nat × Nat × Nat)) (bs : List Byte) : List (Nat × Nat × Nat) × List Byte :=
  match part with
  | none => (ts, bs)
  | some keep =>
    let all := (ts.flatMap fun t => (List.range t.2.2).map fun k => (t.1 + k, t.2.1, 1)).zip bs
    let kept := (all.zip (List.range all.length)).filterMap fun x => if keep x.2 then some x.1 else none
    (kept.map (·.1), kept.map (·.2))

/-- Bytes written on path M to groups of runs, all of which translate first (R229). -/
def writeGroups (s : State) (core : Nat) (e : MEntry) (part : Part) (gs : List (Nat × Nat)) (bs : List Byte) :
    Engine (List Known) :=
  (engineTargets s (tileAccess core e) (gs.flatMap fun r => runs r.1 r.2)).andThen fun ts s =>
    let (ts, bs) := keepBytes part ts bs
    let (ks, s) := engineWrite s .m e.pubs ts bs []
    (.ok ks, s)

/-- Every element of a tile that the part of the work reaches, changed by f. -/
def partTile (s : State) (t : Nat) (part : Part) (f : Nat → Chains → Chains) : State :=
  mapTile s t fun el c => match part with
    | none => f el c
    | some keep => if keep el then f el c else c

/-- The format of a slot. -/
def FormatSlot.elem (f : FormatSlot) : Fmt := (Fmt.ofCode f.fmt).getD .fp32

/-- The element codes of the operand's lines with k in [k0, k0 + n), and the E8M0 bytes of each line (R23, R250). -/
def readOperand (s : State) (core : Nat) (e : MEntry) (alloc : Bool) (d : TileDesc) (f : FormatSlot) (sbase k0 n : Nat) :
    Engine (List (List Nat) × List (List Nat)) :=
  let eb := f.width
  (readGroups s core e alloc (descRows d eb k0 n)).andThen fun rows s =>
    let lines := if d.cm then transpose d.rows (rows.map fun r => codesOf eb d.rows r) else rows.map fun r => codesOf eb n r
    if f.scale = 1 then
      (readGroups s core e alloc (scaleRows d sbase k0 n)).andThen fun sc s =>
        (.ok (lines, sc.map fun r => r.map (·.toNat)), s)
    else (.ok (lines, lines.map fun _ => []), s)

/-- T of an FP32 scale (R248); 1 where the slot has none. -/
def readTensorScale (s : State) (core : Nat) (e : MEntry) (f : FormatSlot) (sbase : Nat) : Engine FVal :=
  if f.scale = 2 then
    (readGroups s core e true [[(sbase, 4)]]).andThen fun bs s => (.ok (fp (BitVec.ofNat 32 (ofLE bs.flatten))), s)
  else (.ok (.fin ⟨1, 1⟩), s)

/-! ### MMA -/

/-- The number of k in the span at kdone (R259). -/
def spanLen (k kdone : Nat) : Nat := min 64 (k - kdone)

/-- The 16-element blocks of a line of a span, with their scale bytes (R31). -/
def lineBlocks (f : Fmt) (codes scales : List Nat) (n : Nat) : List (List TileElem × Nat) :=
  (List.range (n / 16)).map fun b =>
    (((codes.drop (16 * b)).take 16).map (tileElem f), scales.getD (b / 2) 127)

/-- The blocks of a line beyond its descriptor's extent (R257). -/
def zeroBlocks (n : Nat) : List (List TileElem × Nat) :=
  List.replicate (n / 16) (List.replicate 16 { val := .zero false }, 127)

/-- The blocks of two lines paired. -/
def pairBlocks (a b : List (List TileElem × Nat)) : List (List (TileElem × TileElem) × Nat × Nat) :=
  (a.zip b).map fun p => (p.1.1.zip p.2.1, p.1.2, p.2.2)

/-- One span of an MMA: its operands read, then every block of it summed into the tile, and the follower's with s = 1
(R257, R258, R259). -/
def runSpan (s : State) (core : Nat) (e : MEntry) (span2 : Bool) : Engine Unit :=
  let a := descOf e.opA
  let b := descOf e.opB
  let fa := slotOf e.slotA
  let fb := slotOf e.slotB
  let n := spanLen a.k e.kdone
  (readOperand s core e false a fa e.sbaseA.toNat e.kdone n).andThen fun la s =>
    (readOperand s core e false b fb e.sbaseB.toNat e.kdone n).andThen fun lb s =>
      let rowsA := (la.1.zip la.2).map fun l => lineBlocks fa.elem l.1 l.2 n
      let rowsB := (lb.1.zip lb.2).map fun l => lineBlocks fb.elem l.1 l.2 n
      let sum := fun (col : Nat) (el : Nat) (c : Chains) =>
        runBlocks e.neg 0 (pairBlocks (rowsA.getD (el / 256) (zeroBlocks n)) (rowsB.getD (col + el % 256) (zeroBlocks n))) c
      let s := mapTile s (core * 3 + e.tile) (sum 0)
      (.ok (), if span2 then mapTile s ((core + 1) * 3 + e.tile2) (sum 256) else s)

/-! ### Widen and Out (R265) -/

/-- A value × 2^e. -/
def scaleVal (v : FVal) (e : Int) : FVal := match v with | .fin x => .fin (x.scale e) | v => v

/-- Widen(x) of a code with its E8M0 byte, or the tensor scale (R265). -/
def widenElem (f : FormatSlot) (t : FVal) (x : Nat) (code : Nat) : Word :=
  let v := elemVal f.elem code
  if f.scale = 1 then (if x = 255 then 0x7FC00000 else rn (scaleVal v ((x : Int) - 127)))
  else if f.scale = 2 then rn (fMulVal v t)
  else rn v

/-- A line of codes widened. -/
def widenLine (f : FormatSlot) (t : FVal) (codes scales : List Nat) : List Word :=
  (codes.zip (List.range codes.length)).map fun (c, k) => widenElem f t (scales.getD (k / 32) 127) c

/-- EpiR(e) of R267, of the kernel, braid and seed that the entry was issued for. -/
def epiR (e : MEntry) (el : Nat) : Nat :=
  drawLo e.drawHi ((0x80000000 + el) * 2 ^ 32 + e.epi.toNat) e.drawSeed % 2 ^ 16

/-- The rounding mode of a slot. -/
def FormatSlot.mode (f : FormatSlot) : Rnd := (Rnd.ofCode f.rnd).getD .rne

/-- emax of R24. -/
def blockEmax (f : Fmt) : Int :=
  match f with | .e4m3 => 8 | .e5m2 => 15 | .e2m1 => 2 | _ => 4

/-- The scale byte and element codes of a block of 32 values with their random words (R24). -/
def quantBlock (f : FormatSlot) (vs : List (FVal × Nat)) : Nat × List Nat :=
  if vs.any fun v => v.1 matches .nan || v.1 matches .inf _ then (255, vs.map fun _ => 0)
  else
    let mags := vs.filterMap fun v => match v.1 with | .fin x => some x.log | _ => none
    match mags with
    | [] => (127, vs.map fun _ => 0)
    | h :: t =>
      let x := (min (max (t.foldl max h - blockEmax f.elem + 127) 0) 254).toNat
      (x, vs.map fun v => convElem (scaleVal v.1 (127 - x)) f.elem f.mode true v.2)

/-- Blocks of 32. -/
def blocks32 {α : Type} : Nat → List α → List (List α)
  | 0, _ => []
  | n + 1, l => l.take 32 :: blocks32 n (l.drop 32)

/-- Out of a line of FP32 values with their random words: element codes and E8M0 bytes (R265). -/
def outLine (f : FormatSlot) (t : FVal) (vs : List (Word × Nat)) : List Nat × List Nat :=
  if f.scale = 1 then
    let q := (blocks32 (vs.length / 32) (vs.map fun v => (fp v.1, v.2))).map (quantBlock f)
    (q.flatMap (·.2), q.map (·.1))
  else if f.scale = 2 then
    (vs.map fun v =>
      let x := fMulVal (fp v.1) t
      match f.elem with
      | .ds8 => convDs8 x
      | .e2m1 => round x .e2m1 f.mode true v.2
      | g => round x g f.mode f.sat v.2, [])
  else (vs.map fun v => convElem (fp v.1) f.elem f.mode f.sat v.2, [])

/-- Lines of values laid down as a descriptor's elements, with their scale bytes: runs and bytes in order (R250,
R265). -/
def outGroups (d : TileDesc) (f : FormatSlot) (sbase : Nat) (lines : List (List Nat × List Nat)) :
    List (Nat × Nat) × List Byte :=
  let codes := lines.map (·.1)
  let rows := if d.cm then transpose d.k codes else codes
  let scales := if f.scale = 1 then (scaleRows d sbase 0 d.k).flatten else []
  ((descRows d f.width 0 d.k).flatten ++ scales,
    (rows.flatMap (packCodes f.width)) ++ lines.flatMap fun l => l.2.map (BitVec.ofNat 8 ·))

/-- The lines of FP32 values written out under a slot (R265 to R269). -/
def writeOut (s : State) (core : Nat) (e : MEntry) (part : Part) (lines : List (List Word)) : Engine (List Known) :=
  let d := descOf e.opA
  let f := slotOf e.slotA
  (readTensorScale s core e f e.sbaseA.toNat).andThen fun t s =>
    let out := (lines.zip (List.range lines.length)).map fun (vs, l) =>
      outLine f t ((vs.zip (List.range vs.length)).map fun (v, k) => (v, if f.mode = .sr then epiR e (l * d.k + k) else 0))
    let (gs, bs) := outGroups d f e.sbaseA.toNat out
    writeGroups s core e part gs bs

/-- The lines of FP32 values that the narrow side holds (R265). -/
def readWide (s : State) (core : Nat) (e : MEntry) : Engine (List (List Word)) :=
  let d := descOf e.opA
  let f := slotOf e.slotA
  (readTensorScale s core e f e.sbaseA.toNat).andThen fun t s =>
    (readOperand s core e true d f e.sbaseA.toNat 0 d.k).andThen fun l s =>
      (.ok ((l.1.zip l.2).map fun x => widenLine f t x.1 x.2), s)

/-! ### The forms of 0x71 and 0x72 -/

/-- The address that a pair operand holds. -/
def pairAddr (l : List Word) : Nat := (nth l 0).toNat + (nth l 1).toNat * 2 ^ 32

/-- The runs of the FP32 side (R268). -/
def wideRuns (e : MEntry) : List (Nat × Nat) :=
  let d := descOf e.opA
  (List.range d.rows).map fun l => (pairAddr e.opB + l * (nth e.opB 2).toNat, 4 * d.k)

/-- ACST's lines (R266). -/
def tileLines (s : State) (t : Nat) (d : TileDesc) : List (List Word) :=
  (List.range d.rows).map fun i => (List.range d.k).map fun j =>
    (foldChains (tileWord s t (256 * i + j) 0, tileWord s t (256 * i + j) 1)).1

/-- A form other than MMA performed, whole or in part: the writes it made (R266, R269). -/
def runOther (s : State) (core : Nat) (e : MEntry) (part : Part) : Engine (List Known) :=
  let t := core * 3 + e.tile
  let d := descOf e.opA
  if e.form = formAcz then (.ok [], if part.isNone then zeroTile s t else partTile s t part fun _ _ => (0, 0))
  else if e.form = formAcfold then (.ok [], partTile s t part fun _ c => foldChains c)
  else if e.form = formAcld then
    (readWide s core e).andThen fun l s =>
      (.ok [], partTile s t part fun el _ => (((l.getD (el / 256) []).getD (el % 256) 0), 0))
  else if e.form = formAcst then writeOut s core e part (tileLines s t d)
  else if e.form = formAcstr then
    let bs := (List.range (2 * tileElems)).flatMap fun w => toLE 4 (tileWord s t (w / 2) (w % 2)).toNat
    writeGroups s core e part [(pairAddr e.opA, 524288)] bs
  else if e.form = formAcldr then
    (readGroups s core e true [[(pairAddr e.opA, 524288)]]).andThen fun bs s =>
      let ws := (codesOf 32 (2 * tileElems) bs.flatten).toArray
      (.ok [], partTile s t part fun el _ => (BitVec.ofNat 32 (ws.getD (2 * el) 0), BitVec.ofNat 32 (ws.getD (2 * el + 1) 0)))
  else if e.form = formMquant then
    (readGroups s core e true ((wideRuns e).map fun r => [r])).andThen fun rows s =>
      writeOut s core e part (rows.map fun r => (codesOf 32 d.k r).map (BitVec.ofNat 32 ·))
  else
    (readWide s core e).andThen fun l s =>
      writeGroups s core e part (wideRuns e) (l.flatMap fun r => r.flatMap fun w => toLE 4 w.toNat)

end Sys2Proof.Machine
end

