-- ==== Sys2Proof/Machine/Matrix.lean ====
section
/-!
DEFINITION. The matrix forms at issue (R251 to R268), the matrix queue (R253, R258, R259), pins (R261 to R263, R270) and
capture (R271).
-/

namespace Sys2Proof.Machine
open Sys2Proof

/-! ### Issue -/

/-- MATRIX_DESC (R251). -/
def matrixDesc (reason : Nat) : TrapInfo := { cause := 0x0C, info := reason, bead := some 255 }

/-- The tile count of a strand's braid (R252). -/
def tileCount (i : Issue) : Nat := (braidOf i.s i.st).tiles.length

/-- An entry of the strand that issues, with the words of its two operands and the slots it names (R257, R272); the follower's
tile, once that braid has retired, log 126. -/
def newEntry (i : Issue) (ins : Instr) (form tile na nb : Nat) (opA opB : List Word) : MEntry :=
  let fa := slotOf (slotWord i.s i.st na)
  let fb := slotOf (slotWord i.s i.st nb)
  let b := braidOf i.s i.st
  let mate := match b.mate with | some m => (lookD i.s.braids m {}).tiles | none => []
  let slotted := form == formMma || form == formAcld || form == formAcst || !formTiled form
  { insn := (encode ins).getD 0, form := form, sid := i.sid, bid := i.st.braid, ctx := i.st.ctx
    tile := b.tiles.getD tile 0, tile2 := if form = formMma then mate.getD tile 0 else 0
    opA := opA, opB := opB
    sbaseA := if slotted then BitVec.ofNat 64 (scaleBase i.st fa (pairAddr opA)) else 0
    sbaseB := if form = formMma then BitVec.ofNat 64 (scaleBase i.st fb (pairAddr opB)) else 0
    slotA := if slotted then slotWord i.s i.st na else 0
    slotB := if form = formMma then slotWord i.s i.st nb else 0
    neg := fa.neg != fb.neg
    epi := if (form = formAcst ∨ form = formMquant) ∧ fa.rnd = 4 then b.mcEpi else 0
    drawHi := i.st.kernel * 2 ^ 32 + b.index, drawSeed := (kernelOf i.s i.st).seed.toNat
    handle := 0, know := onPath i.st.know .m, pubs := carriedPubs i.st .m, after := readsBefore i.s i.sid .m }

/-- A form of the matrix queue (R253, R255): its sources wait, its captured values are checked, it takes a record, and it
enters the queue. -/
def formMatrix (forbid ok : Bool) (srcs : List Reg) (d : Reg) (pairsOk span2 : Bool) (mk : Issue → MEntry) (i : Issue) :
    BeadOut :=
  runForm forbid ok true
    (fun j i => readyOr i j (srcsW srcs) [d] (
      let e := mk i
      let b := braidOf i.s i.st
      if i.st.inTrap && b.capture then .block .capture i
      else match entryReason e pairsOk span2 with
        | some r => .trap (matrixDesc r) i
        | none =>
          if (queueOfCore i.s i.st.core).length ≥ 8 ∨ ¬ (waitingAt i.s i.st.core).isEmpty then .block .matrixFull i
          else match allocFuture i.s i.st.ctx i.st.kernel e.know with
            | none => .block .table i
            | some (h, s) =>
              let s := setFuture s i.st.ctx (handleRec h) fun f => { f with pubs := e.pubs }
              let s := enqueueEntries s i.st.core [{ e with handle := h }]
              let s := if (e.form = formAcst ∨ e.form = formMquant) ∧ (slotOf e.slotA).rnd = 4 then
                  setBraid s i.st.braid fun b => { b with mcEpi := b.mcEpi + 1 } else s
              .ok (writeHandle { i with s := s } j d h true))) i

/-- The words of registers for the strand. -/
def regWords (st : Strand) (rs : List Reg) : List Word := rs.map (readReg st 0)

/-- The quad that a 3-bit operand names (R255). -/
def quadReg (q : BitVec 3) : Reg := .uni ⟨4 * q.toNat, by have := q.isLt; omega⟩

/-- MMA (R255 to R258). It waits for the pair that a slot with `lk` names, also where the slot's scale is none (log 67). -/
def execMma (d : Reg) (acc qa qb sa sb : BitVec 3) (z sp f : Bool) (s : State) : Out :=
  onStrand s fun i =>
    let fa := slotOf (slotWord i.s i.st sa.toNat)
    let fb := slotOf (slotWord i.s i.st sb.toNat)
    let b := braidOf i.s i.st
    let a := quadReg qa
    let c := quadReg qb
    formMatrix true
      (uniDstOk i.st d && uniQuadOk i.st a && uniQuadOk i.st c && decide (acc.toNat < tileCount i) &&
        (!sp || (b.mate.isSome && b.leader)))
      (quadOf a ++ quadOf c ++ (if slotPairOk i.st fa then slotRegs fa else []) ++ (if slotPairOk i.st fb then slotRegs fb else []))
      d (slotPairOk i.st fa && slotPairOk i.st fb) sp
      (fun i => newEntry i (.mma d acc qa qb sa sb z sp f) formMma acc.toNat sa.toNat sb.toNat
        (regWords i.st (quadOf a)) (regWords i.st (quadOf c))) i

/-- ACZ and ACFOLD: forms without a memory operand (R264). -/
def formTile (ins : Instr) (form : Nat) (d : Reg) (t : BitVec 2) (i : Issue) : BeadOut :=
  formMatrix true (uniDstOk i.st d && decide (t.toNat < tileCount i)) [] d true false
    (fun i => newEntry i ins form t.toNat 0 0 [] []) i

/-- ACZ (R266). -/
def execAcz (d : Reg) (tile : BitVec 2) (s : State) : Out := onStrand s (formTile (.acz d tile) formAcz d tile)

/-- ACFOLD (R266). -/
def execAcfold (d : Reg) (tile : BitVec 2) (s : State) : Out := onStrand s (formTile (.acfold d tile) formAcfold d tile)

/-- ACLD and ACST: forms with a descriptor and a slot (R264). -/
def formDescribed (ins : Instr) (form : Nat) (d a : Reg) (slot : BitVec 3) (t : BitVec 2) (i : Issue) : BeadOut :=
  let f := slotOf (slotWord i.s i.st slot.toNat)
  formMatrix true (uniDstOk i.st d && uniQuadOk i.st a && decide (t.toNat < tileCount i))
    (quadOf a ++ (if slotPairOk i.st f then slotRegs f else [])) d (slotPairOk i.st f) false
    (fun i => newEntry i ins form t.toNat slot.toNat 0 (regWords i.st (quadOf a)) []) i

/-- ACLD (R266). -/
def execAcld (d a : Reg) (slot : BitVec 3) (tile : BitVec 2) (s : State) : Out :=
  onStrand s (formDescribed (.acld d a slot tile) formAcld d a slot tile)

/-- ACST (R266). -/
def execAcst (d a : Reg) (slot : BitVec 3) (tile : BitVec 2) (s : State) : Out :=
  onStrand s (formDescribed (.acst d a slot tile) formAcst d a slot tile)

/-- ACSTR and ACLDR: forms with an address pair, which a handler may use (R254, R264). -/
def formRaw (ins : Instr) (form : Nat) (d a : Reg) (t : BitVec 2) (i : Issue) : BeadOut :=
  formMatrix (isPort d) (uniDstOk i.st d && uniPairOk i.st a && decide (t.toNat < tileCount i)) (pairOf a) d true false
    (fun i => newEntry i ins form t.toNat 0 0 (regWords i.st (pairOf a)) []) i

/-- ACSTR (R266). -/
def execAcstr (d a : Reg) (tile : BitVec 2) (s : State) : Out := onStrand s (formRaw (.acstr d a tile) formAcstr d a tile)

/-- ACLDR (R266). -/
def execAcldr (d a : Reg) (tile : BitVec 2) (s : State) : Out := onStrand s (formRaw (.acldr d a tile) formAcldr d a tile)

/-- The slot that a control word names (R268). -/
def controlSlot (st : Strand) (b : Reg) : Nat := (nth (regWords st (quadOf b)) 3).toNat % 8

/-- MQUANT and MDEQ (R268). The pair of the slot is read once the control word is full. -/
def formNarrow (ins : Instr) (form : Nat) (d a b : Reg) (i : Issue) : BeadOut :=
  let f := slotOf (slotWord i.s i.st (controlSlot i.st b))
  formMatrix true (uniDstOk i.st d && uniQuadOk i.st a && uniQuadOk i.st b)
    (quadOf a ++ quadOf b ++ (if slotPairOk i.st f then slotRegs f else [])) d (slotPairOk i.st f) false
    (fun i => newEntry i ins form 0 (controlSlot i.st b) 0 (regWords i.st (quadOf a)) (regWords i.st (quadOf b))) i

/-- MQUANT (R269). -/
def execMquant (d a b : Reg) (s : State) : Out := onStrand s (formNarrow (.mquant d a b) formMquant d a b)

/-- MDEQ (R269). -/
def execMdeq (d a b : Reg) (s : State) : Out := onStrand s (formNarrow (.mdeq d a b) formMdeq d a b)

/-! ### MPIN and MUNPIN (R270) -/

/-- The starts of the 128-byte lines that overlap a range. -/
def lineStarts (va n : Nat) : List Nat :=
  if n = 0 then [] else (List.range ((va + n - 1) / 128 + 1 - va / 128)).map fun k => (va / 128 + k) * 128 % 2 ^ 64

/-- MPIN (R270). -/
def execMpin (d a b : Reg) (s : State) : Out :=
  onStrand s fun i =>
    runForm true (uniDstOk i.st d && uniPairOk i.st a && uniSrcOk i.st b) true
      (fun j i => readyOr i j (srcsW (pairOf a ++ [b])) [d] (
        let va := (readPair i.st 0 a).toNat
        let n := (readReg i.st 0 b).toNat
        if n > 2 ^ 24 then .trap (matrixDesc 0x38) i
        else match allocFuture i.s i.st.ctx i.st.kernel (onPath i.st.know .m) with
          | none => .block .table i
          | some (h, s) =>
            if n = 0 then .ok (writeHandle { i with s := endHandle s h .done 0 [] } j d h false)
            else
              let c : PinCmd := { bid := i.st.braid, ctx := i.st.ctx, core := i.st.core, handle := h, vas := lineStarts va n }
              .ok (writeHandle { i with s := { s with eng := { s.eng with pins := s.eng.pins ++ [c] } } } j d h true))) i

/-- MUNPIN (R270). -/
def execMunpin (a b : Reg) (s : State) : Out :=
  onStrand s fun i =>
    runForm true (uniPairOk i.st a && uniSrcOk i.st b) true
      (fun j i => readyOr i j (srcsW (pairOf a ++ [b])) [] (
        let va := (readPair i.st 0 a).toNat
        let n := (readReg i.st 0 b).toNat
        if n > 2 ^ 24 then .trap (matrixDesc 0x38) i
        else
          let out := fun (p : Nat × Nat) => p.1 == i.st.braid && decide (p.2 < va + n) && decide (va < p.2 + 128) && n != 0
          .ok { i with s := setLines i.s (i.s.vaults.lines.map fun l => { l with pinBraid := l.pinBraid.filter fun p => !out p }) })) i

/-! ### Pins -/

/-- The context of a pin: that of the braid, or of the handle. -/
def pinnedFor (s : State) (l : CacheLine) (ctx : Nat) : Bool :=
  l.pinBraid.any (fun p => (lookD s.braids p.1 {}).ctx == ctx) || l.pinMma.any fun p => handleCtx p.2 == ctx

/-- G of R263: the lines that a context holds by MPIN. -/
def heldByMpin (s : State) (ctx : Nat) : Nat :=
  (s.vaults.lines.filter fun l => l.pinBraid.any fun p => (lookD s.braids p.1 {}).ctx == ctx).length

/-- H of R263: the lines that a context holds pinned. -/
def heldPins (s : State) (ctx : Nat) : Nat := (s.vaults.lines.filter fun l => pinnedFor s l ctx).length

/-- Whether a context holds a line for an MMA that has started (R263). -/
def startedPins (s : State) (ctx : Nat) : Bool :=
  s.vaults.lines.any fun l =>
    l.pinMma.any fun p => handleCtx p.2 == ctx && (queueOfCore s p.1).any fun e => e.handle == p.2 && e.started

/-- A set that holds fewer than 14 pinned ways (R262). -/
def waysFree (s : State) (line : Nat) : Bool :=
  decide ((s.vaults.lines.filter fun l => l.pinned && sameSet s l.line line).length < 14)

/-- Where a run of an operand lies: as the translation caches give it, or as the tables stand (log 23). -/
def operandPage (s : State) (a : Accessor) (va n : Nat) : Translated :=
  match (translation s a va n).1 with
  | .miss =>
    match (walkTables s a.quad a.ctx va).1 with
    | .leaf level pte _ => useLeaf s a va level pte
    | _ => .miss
  | x => x

/-- Whether a slot holds the walk of a page that an operand run lies in (R385). -/
def operandHeld (s : State) (a : Accessor) (va n : Nat) : Bool :=
  (translation s a va n).1 == .miss && (walkTables s a.quad a.ctx va).1 == .held

/-- The operand bytes of a span at k0, A before B (R259; log 23). -/
def spanRuns (e : MEntry) (k0 : Nat) : List (Nat × Nat) :=
  let rowsOf := fun (d : TileDesc) (f : FormatSlot) => (descRows d f.width k0 (spanLen d.k k0)).flatten
  (rowsOf (descOf e.opA) (slotOf e.slotA) ++ rowsOf (descOf e.opB) (slotOf e.slotB)).flatMap fun r => runs r.1 r.2

/-- The operand runs of an MMA, in fetch order. -/
def operandRuns (e : MEntry) : List (Nat × Nat) := (List.range (ceilDiv (descOf e.opA).k 64)).flatMap fun m => spanRuns e (64 * m)

/-- The lines of runs that R261 may pin, in order, with their keys. -/
def pinnableIn (s : State) (core : Nat) (e : MEntry) (rs : List (Nat × Nat)) : List (Nat × Nat) :=
  (rs.flatMap fun r =>
    match operandPage s (tileAccess core e) r.1 r.2 with
    | .ok pa key true => if isLpddr pa then (linesOf pa r.2).map fun l => (l, key) else []
    | _ => []).eraseDups

/-- The operand lines of an MMA that R261 may pin, in fetch order, with their keys. -/
def pinnable (s : State) (core : Nat) (e : MEntry) : List (Nat × Nat) := pinnableIn s core e (operandRuns e)

/-- Lines pinned for an MMA: each enters the cache region and stays, unless its set is full (R261, R262). -/
def pinFor (s : State) (tag : Nat × Word) (ls : List (Nat × Nat)) : State :=
  ls.foldl (fun s l =>
    let isPinned := match heldLine s l.1 with | some x => x.pinned | none => false
    if !isPinned && !waysFree s l.1 then s
    else
      let s := openLine s l.1 l.2 true
      setLines s (mapWhere (fun x => x.line == l.1 && !x.pinMma.contains tag) (fun x => { x with pinMma := x.pinMma ++ [tag] })
        s.vaults.lines)) s

/-- The pins of an MMA that leaves: a line that another MMA of the core's queue names stays pinned for it (R261). -/
def unpinFor (s : State) (core : Nat) (e : MEntry) : State :=
  let others := (queueOfCore s core).filter fun x => x.form == formMma && x.handle != e.handle
  let named := others.map fun x => (x.handle, (pinnable s core x).map (·.1))
  setLines s (s.vaults.lines.map fun l =>
    if l.pinMma.contains (core, e.handle) then
      let rest := l.pinMma.filter fun p => p != (core, e.handle)
      match named.find? fun n => n.2.contains l.line && !rest.contains (core, n.1) with
      | some n => { l with pinMma := rest ++ [(core, n.1)] }
      | none => { l with pinMma := rest }
    else l)

/-- What R263 says of an MMA that could otherwise start: it pins these lines, and all that it meets later or these alone. -/
inductive PinRule where
  | pin (all : Bool) (lines : List (Nat × Nat))
  | wait
  deriving DecidableEq, Repr

/-- R263. An MMA whose pins would fit the quota waits while its context holds pins for MMAs that have started; once none are
held that will be released, it streams what does not fit (log 24). While a slot holds a walk that its count needs, it waits
(R385). -/
def pinRule (s : State) (core : Nat) (e : MEntry) : PinRule :=
  if (operandRuns e).any fun r => operandHeld s (tileAccess core e) r.1 r.2 then .wait
  else
  let all := pinnable s core e
  let new := all.filter fun l => match heldLine s l.1 with | some x => !x.pinned | none => true
  let old := all.filter fun l => !new.contains l
  let n := new.length
  let q := (lookD s.ctxs e.ctx {}).pinQuota
  if n + heldPins s e.ctx ≤ q then .pin true (new ++ old)
  else if n + heldByMpin s e.ctx ≤ q ∧ startedPins s e.ctx then .wait
  else .pin false (new.take (q - heldPins s e.ctx) ++ old)

/-- The lines of a span that has been fetched, pinned as far as the quota goes, for an MMA that pins all of its lines: those
of pages that were mapped only after it started (R261; log 23). -/
def pinSpan (s : State) (core : Nat) (e : MEntry) : State :=
  if e.pinAll then
    (pinnableIn s core e (spanRuns e e.kdone)).foldl (fun s l =>
      if (lookD s.ctxs e.ctx {}).pinQuota ≤ heldPins s e.ctx then s else pinFor s (core, e.handle) [l]) s
  else s

/-! ### Starting -/

/-- z, s and f of an MMA's word (R255). -/
def mmaFlags (e : MEntry) : Bool × Bool × Bool :=
  match decode e.insn with
  | .ok (.mma _ _ _ _ _ _ z sp f) => (z, sp, f)
  | _ => (false, false, false)

/-- Whether an entry is an MMA with s = 1 (R258). -/
def spansPair (e : MEntry) : Bool := e.form == formMma && (mmaFlags e).2.1

/-- The physical tiles that an entry names (R252, R258). -/
def tilesNamed (core : Nat) (e : MEntry) : List Nat :=
  (if formTiled e.form then [core * 3 + e.tile] else []) ++ (if spansPair e then [(core + 1) * 3 + e.tile2] else [])

/-- Whether a core's array is at work: for its own queue, or slaved by the leader's (R253, R258). -/
def arrayBusy (s : State) (core : Nat) : Bool :=
  (queueOfCore s core).any (fun e => e.started && e.form == formMma) ||
    (decide (0 < core) && (queueOfCore s (core - 1)).any fun e => e.started && spansPair e)

/-- Whether an earlier entry that names one of the tiles has not ended (R253). -/
def tileTaken (s : State) (e : MEntry) (ts : List Nat) : Bool :=
  s.eng.mq.any fun q => q.2.any fun x => decide (x.seq < e.seq) && (tilesNamed q.1 x).any ts.contains

/-- The entry of a core's queue at an index. -/
def mqEntry (s : State) (core idx : Nat) : Option MEntry := (queueOfCore s core)[idx]?

/-- Whether an entry writes memory (R266, R269). -/
def writesMemory (e : MEntry) : Bool := e.form == formAcst || e.form == formAcstr || e.form == formMquant || e.form == formMdeq

/-- Whether R253 and R258 let an entry start, and R212 lets its writes come. -/
def mayStart (s : State) (core : Nat) (e : MEntry) : Bool :=
  let before := (queueOfCore s core).filter fun x => decide (x.seq < e.seq)
  !e.started && !(lookD s.braids e.bid {}).capture && !tileTaken s e (tilesNamed core e) &&
    (!writesMemory e || afterReads s e.after) &&
    if e.form = formMma then
      !before.any (fun x => x.form == formMma) && !arrayBusy s core && (!spansPair e || !arrayBusy s (core + 1))
    else !before.any fun x => x.form != formMma

/-- An entry changed. -/
def setEntry (s : State) (core seq : Nat) (f : MEntry → MEntry) : State :=
  setMq s core (mapWhere (fun x => x.seq == seq) f (queueOfCore s core))

/-- The MMAs of a context that have reached R263 and wait. -/
def pinWaiters (s : State) (ctx : Nat) : List MEntry :=
  (s.eng.mq.flatMap (·.2)).filter fun x => x.ctx == ctx && decide (x.atPins > 0) && !x.started

/-- Whether the pins an MMA needs may be taken now: no MMA of its context reached the rule before it (R263). -/
def firstAtPins (s : State) (e : MEntry) : Bool :=
  (pinWaiters s e.ctx).all fun x => x.seq == e.seq || (decide (e.atPins > 0) && decide (e.atPins < x.atPins))

/-- Whether a slot holds a line that an MMA would pin (R385). -/
def pinsHeld (s : State) (ls : List (Nat × Nat)) : Bool := lpddrHeld s && ls.any fun l => (heldLine s l.1).isNone

/-- An entry starts; z = 1 zeroes the tiles of an MMA that does not resume (R257, R273). -/
def beginEntry (s : State) (core : Nat) (e : MEntry) : State :=
  let s := setEntry s core e.seq fun x => { x with started := true }
  if e.form = formMma ∧ (mmaFlags e).1 ∧ ¬ e.resumed then (tilesNamed core e).foldl zeroTile s else s

/-- What an MMA that could start does: it starts with its pins, or it takes its place among those that wait (R263). -/
def startMma (s : State) (core : Nat) (e : MEntry) : State :=
  match pinRule s core e with
  | .pin all ls =>
    if firstAtPins s e && !pinsHeld s ls then
      pinFor (setEntry (beginEntry s core e) core e.seq fun x => { x with pinAll := all }) (core, e.handle) ls
    else if e.atPins = 0 then let (n, s) := newFlight s; setEntry s core e.seq fun x => { x with atPins := n + 1 }
    else s
  | .wait =>
    if e.atPins = 0 then let (n, s) := newFlight s; setEntry s core e.seq fun x => { x with atPins := n + 1 } else s

/-- Whether MATRIX_ENTRY_START would change anything for an entry that may start. -/
def startMatters (s : State) (core : Nat) (e : MEntry) : Bool :=
  e.form != formMma || e.atPins == 0 ||
    match pinRule s core e with
    | .pin _ ls => firstAtPins s e && !pinsHeld s ls
    | .wait => false

/-- MATRIX_ENTRY_START (R253, R263). Its operand is the core and the index in its queue. -/
def execMatrixEntryStart (s : State) : Out :=
  match s.arg with
  | .two core idx =>
    match mqEntry s core idx with
    | some e =>
      if mayStart s core e then .next (if e.form = formMma then startMma s core e else beginEntry s core e) else .next s
    | none => .next s
  | _ => .next s

/-! ### Ending -/

/-- An entry leaves its queue and its record ends (R229, R253). -/
def endEntry (s : State) (core : Nat) (e : MEntry) (st : FutSt) (err : Nat) (ws : List Known) : State :=
  let s := match e.stall with | some r => leaveMiss s r.1 r.2 (engineWho e.handle) | none => s
  let s := endHandle s e.handle st err ws
  let s := if e.form = formMma then unpinFor s core e else s
  reenterRecords (setMq s core ((queueOfCore s core).filter fun x => x.seq != e.seq)) core

/-- Spans of an MMA run in order, n at most, until one stops (R259). -/
def runSpans (core : Nat) : Nat → MEntry → State → MEntry × Option EngineStop × State
  | 0, e, s => (e, none, s)
  | n + 1, e, s =>
    if e.kdone ≥ (descOf e.opA).k then (e, none, s)
    else match runSpan s core e (spansPair e) with
      | (.ok _, s) =>
        let s := pinSpan s core e
        runSpans core n { e with kdone := e.kdone + spanLen (descOf e.opA).k e.kdone } s
      | (.error x, s) => (e, some x, s)

/-- An MMA that has summed every block: its fold, and its record done (R32, R257). -/
def finishMma (s : State) (core : Nat) (e : MEntry) : State :=
  let s := if (mmaFlags e).2.2 then (tilesNamed core e).foldl (fun s t => mapTile s t fun _ c => foldChains c) s else s
  endEntry s core e .done 0 []

/-- What an entry comes to when its run stops before its end (R174, R238, R259). -/
def noteStop (s : State) (core : Nat) (e : MEntry) (x : EngineStop) : State :=
  setEntry s core e.seq fun y => match x with
    | .miss q r => { y with kdone := e.kdone, stall := some (q, r) }
    | .wait => { y with kdone := e.kdone }
    | .fail c => { y with kdone := e.kdone, err := some c }

/-- The spans that an MMA has. -/
def spanCount (e : MEntry) : Nat := ceilDiv (descOf e.opA).k 64

/-- A started entry runs to its end, stalls on a miss, or meets a fault (R229, R256, R266, R269). -/
def progressEntry (s : State) (core : Nat) (e : MEntry) : State :=
  if e.form = formMma then
    match runSpans core (spanCount e) e s with
    | (e, none, s) => finishMma s core e
    | (e, some x, s) => noteStop s core e x
  else
    match e.err with
    | some c => endEntry s core e .failed c []
    | none =>
      match runOther s core e none with
      | (.ok ws, s) => endEntry s core e .done 0 ws
      | (.error x, s) => noteStop s core e x

/-- A cancel reaches an entry: one that has not started leaves its queue, an MMA that has started stops at a boundary, and
another form ends with what it has done, which free bits pick (R229, R243, R259; log 69). -/
def cancelEntry (s : State) (core : Nat) (e : MEntry) : State :=
  if !e.started then endEntry s core e .cancelled 0 []
  else if e.form = formMma then setEntry s core e.seq fun x => { x with cancel := true }
  else
    let (keep, s) := drawBits s 524288
    match runOther s core e (some keep) with
    | (.ok ws, t) => endEntry t core e .cancelled 0 ws
    | (.error _, _) => endEntry s core e .cancelled 0 []

/-- MATRIX_ENTRY_END (R229, R256). Its operand is the core and the index in its queue. -/
def execMatrixEntryEnd (s : State) : Out :=
  match s.arg with
  | .two core idx =>
    match mqEntry s core idx with
    | some e =>
      .next (if e.started && e.stall.isNone && (e.err.isNone || e.form != formMma) then progressEntry s core e else s)
    | none => .next s
  | _ => .next s

/-- Whether a started MMA is to stop at a 64-k boundary: for a fault, a cancel, or a capture (R259, R271). -/
def mustStop (s : State) (e : MEntry) : Bool :=
  e.form == formMma && e.started && (e.err.isSome || e.cancel || (lookD s.braids e.bid {}).capture)

/-- An MMA stops at the boundary it has reached (R259, R271). -/
def stopMma (s : State) (core : Nat) (e : MEntry) : State :=
  match e.err with
  | some c => endEntry s core e .failed c []
  | none =>
    if e.cancel then endEntry s core e .cancelled 0 []
    else
      let s := match e.stall with | some r => leaveMiss s r.1 r.2 (engineWho e.handle) | none => s
      let s := unpinFor s core e
      setEntry s core e.seq fun x => { x with kdone := e.kdone, started := false, stall := none, resumed := true }

/-- MMA_SPAN_STOP: a fault, a cancel or a capture stops an MMA at a 64-k boundary, a free number of spans on (R259, R271).
Its operand is the core and the index in its queue. -/
def execMmaSpanStop (s : State) : Out :=
  match s.arg with
  | .two core idx =>
    match mqEntry s core idx with
    | some e =>
      if !mustStop s e then .next s
      else if e.err.isSome || e.stall.isSome then .next (stopMma s core e)
      else
        let (f, s) := drawFree s
        match runSpans core (f % (spanCount e + 1)) e s with
        | (e, some (.fail c), s) => .next (stopMma s core { e with err := some c })
        | (e, some (.miss q r), s) => .next (stopMma s core { e with stall := some (q, r) })
        | (e, _, s) => .next (if e.kdone ≥ (descOf e.opA).k then finishMma s core e else stopMma s core e)
    | none => .next s
  | _ => .next s

/-! ### Capture -/

/-- The entries of a braid in its core's queue. -/
def entriesOf (s : State) (bid : Nat) : List MEntry :=
  (queueOfCore s (lookD s.braids bid {}).core).filter fun e => e.bid == bid

/-- Whether a braid's capture can end: none of its entries runs (R271). -/
def captureReady (s : State) (bid : Nat) : Bool :=
  (lookD s.braids bid {}).capture && (entriesOf s bid).all fun e => !e.started

/-- The words of records in the store, from record r on. -/
def storeRecords (m : SMap Word) : Nat → List MEntry → SMap Word
  | _, [] => m
  | r, e :: t =>
    let ws := recordWords e
    storeRecords ((List.range 16).foldl (fun m w => putD 0 m (16 * r + w) (nth ws w)) m) (r + 1) t

/-- CAPTURE_END: the entries that have not ended become checkpoint records, and their pins are released (R271, R272; more than
eight, log 128). Its operand is the braid. -/
def execCaptureEnd (s : State) : Out :=
  match s.arg with
  | .one bid =>
    if captureReady s bid then
      let b := lookD s.braids bid {}
      let es := entriesOf s bid ++ (waitingAt s b.core).filter fun e => e.bid == bid
      let s := setMq s b.core ((queueOfCore s b.core).filter fun e => e.bid != bid)
      let s := setWaiting s b.core ((waitingAt s b.core).filter fun e => e.bid != bid)
      let s := es.foldl (fun s e => unpinFor s b.core e) s
      let s := setBraid s bid fun b => { b with
        capture := false, mcCount := es.length, mcStore := storeRecords b.mcStore 0 es }
      .next (reenterRecords s b.core)
    else .next s
  | _ => .next s

/-- The happenings of the matrix queues that may take place. -/
def dueMatrix (s : State) : List Happening :=
  (s.eng.mq.flatMap fun q =>
    (List.range q.2.length).flatMap fun idx =>
      match q.2[idx]? with
      | none => []
      | some e =>
        let at_ := Arg.two q.1 idx
        if mustStop s e then [⟨.mmaSpanStop, at_⟩]
        else if e.started then
          (if e.stall.isNone then [⟨.matrixEntryEnd, at_⟩] else [])
        else if mayStart s q.1 e && startMatters s q.1 e then [⟨.matrixEntryStart, at_⟩] else []) ++
  ((s.braids.filter fun e => captureReady s e.1).map fun e => ⟨.captureEnd, .one e.1⟩)

end Sys2Proof.Machine
end

