-- ==== Sys2Proof/Machine/Page.lean ====
section
/-!
DEFINITION. Walks and the answers to misses (R172 to R175), invalidation (R177, R178), and the zero engine (R163, R180).
-/

namespace Sys2Proof.Machine
open Sys2Proof

/-- Translation state changed. -/
def setTrans (s : State) (f : Trans → Trans) : State := { s with trans := f s.trans }

/-- A miss record of a quad. -/
def missRec (s : State) (quad idx : Nat) : Option MissRec := look s.trans.miss (quad * 64 + idx)

/-! ### What waits on a record (R174, R446) -/

/-- A fault that waiting accesses take: cause and trap_info (R170, R173). -/
structure MissFault where
  cause : Nat
  info : Nat
  deriving DecidableEq, Repr

/-- What a record that is freed leaves for what waits on it: the fault, or the translation (R173). -/
abbrev MissAnswer := Except MissFault TlbEntry

/-- The fault of an answer, as the access at an address takes it. -/
def accFaultOf (f : MissAnswer) (fetch : Bool) (va : Nat) : Option AccFault :=
  match f with
  | .error x => some { fetch := fetch, cause := x.cause, info := x.info, addr := va }
  | .ok _ => none

/-- The translation of an answer, or what was given before. -/
def givenOf (f : MissAnswer) (old : Option TlbEntry) : Option TlbEntry :=
  match f with
  | .ok e => some e
  | .error _ => old

/-- The code of an answer's fault, with which an engine operation fails that has not failed before (R174). -/
def errOf (f : MissAnswer) (old : Option Nat) : Option Nat :=
  old.orElse fun _ => match f with
    | .error x => some x.cause
    | .ok _ => none

/-- A strand that waits on a record goes on, with the translation or the fault of its access (R173, R174). One whose braid was
saved while it waited takes the fault at its first instruction after RTT (R322). -/
def wakeStrand (quad idx : Nat) (f : MissAnswer) (st : Strand) : Strand :=
  let st := match st.waits with
    | some (q, r, fetch, va) =>
      if q = quad ∧ r = idx then { st with waits := none, afterTrap := accFaultOf f fetch va } else st
    | none => st
  match st.run with
  | .blocked (.miss q r need va) =>
    if q = quad ∧ r = idx then
      { st with run := .ready, accFault := accFaultOf f (need == .fetch) va, given := givenOf f st.given }
    else st
  | _ => st

/-- Whether a stall names a record. -/
def stalledOn (quad idx : Nat) (stall : Option (Nat × Nat)) : Bool := stall == some (quad, idx)

/-- Engine operations that stall on a record go on, or fail with the cause as their code (R174). -/
def wakeEngines (e : Engines) (quad idx : Nat) (f : MissAnswer) : Engines :=
  { e with
    copies := mapWhere (fun x => stalledOn quad idx x.stall)
      (fun x => { x with stall := none, err := errOf f x.err, given := (givenOf f none).toList ++ x.given }) e.copies
    links := mapWhere (fun x => stalledOn quad idx x.stall)
      (fun x => { x with stall := none, err := errOf f x.err, given := givenOf f x.given }) e.links
    pins := mapWhere (fun x => stalledOn quad idx x.stall)
      (fun x => { x with stall := none, err := errOf f x.err, given := givenOf f x.given }) e.pins
    mq := e.mq.map fun q =>
      (q.1, mapWhere (fun x => stalledOn quad idx x.stall)
        (fun x => { x with stall := none, err := errOf f x.err, given := givenOf f x.given }) q.2) }

/-- The flits that arrived and wait on a record go on, or fail (R419). -/
def wakeFlits (s : State) (quad idx : Nat) (f : MissAnswer) : State :=
  { s with fab := { s.fab with
    arrived := mapWhere (fun x => stalledOn quad idx x.stall)
      (fun x => { x with stall := none, err := errOf f x.err, given := givenOf f x.given }) s.fab.arrived } }

/-- Whether an answer is a fault. -/
def MissAnswer.isFault : MissAnswer → Bool
  | .error _ => true
  | .ok _ => false

/-- The command processor's own accesses that wait on a record of quad 0 go on, or end with a fault (R446). -/
def wakeCommands (s : State) (quad idx : Nat) (f : MissAnswer) : State :=
  { s with cmd := { s.cmd with
    cqs := s.cmd.cqs.map fun e =>
      if e.2.held = .miss quad idx then
        (e.1, { e.2 with held := .none, faulted := MissAnswer.isFault f, given := givenOf f e.2.given })
      else e
    kernels := s.cmd.kernels.map fun e =>
      if quad = 0 ∧ e.2.stall = some idx then
        (e.1, { e.2 with stall := none, lost := MissAnswer.isFault f, given := givenOf f e.2.given })
      else e } }

/-- A braid that was swapped out for a record becomes saved when the record leaves the pending state (R321). -/
def unswap (s : State) (quad idx : Nat) : State :=
  { s with braids := s.braids.map fun e =>
      if e.2.swapRec = some (quad, idx) ∧ e.2.st = .swapped then (e.1, { e.2 with st := .saved }) else e }

/-- A record is freed, and what waits on it proceeds or takes the fault (R173). -/
def freeMiss (s : State) (quad idx : Nat) (f : MissAnswer) : State :=
  let s := unswap s quad idx
  let s := { s with
    braids := s.braids.map fun e =>
      if e.2.swapRec = some (quad, idx) then (e.1, { e.2 with swapRec := none }) else e
    strands := s.strands.map fun e => (e.1, wakeStrand quad idx f e.2)
    eng := wakeEngines s.eng quad idx f }
  let s := wakeCommands (wakeFlits s quad idx f) quad idx f
  setTrans s fun t => { t with miss := del t.miss (quad * 64 + idx) }

/-! ### Walks -/

/-- The walks that a quad's walker runs (R172). -/
def walksRunning (s : State) (quad : Nat) : Nat :=
  s.trans.miss.countP fun e => e.1 / 64 == quad && e.2.walker

/-- Whether a record may get a walker. -/
def mayWalk (s : State) (e : Nat × MissRec) : Bool :=
  !e.2.pending && !e.2.walker && decide (walksRunning s (e.1 / 64) < 16)

/-- WALK_START: a record gets one of the quad's 16 walks (R172). Its operand is the quad and the record. -/
def execWalkStart (s : State) : Out :=
  match s.arg with
  | .two quad idx =>
    match missRec s quad idx with
    | some r =>
      .next (if mayWalk s (quad * 64 + idx, r) then
          setTrans s fun t => { t with miss := put t.miss (quad * 64 + idx) { r with walker := true } }
        else s)
    | none => .next s
  | _ => .next s

/-- WALK_DONE: a walk ends with a translation, which enters the quad's cache and with which the waiting accesses proceed, with
a fault, or at an entry that is not valid, when the record becomes pending and PAGE_MISS is posted (R170, R173). A walk whose
reads a slot holds goes on (R385). Its operand is the quad and the record. -/
def execWalkDone (s : State) : Out :=
  match s.arg with
  | .two quad idx =>
    match missRec s quad idx with
    | none => .next s
    | some r =>
      if !r.walker then .next s
      else
        let va := r.vpn * 2 ^ 13
        match walkTables s quad r.ctx va with
        | (.held, _) => .next s
        | (.leaf level pte group, s) =>
          let e : TlbEntry := { cache := .second quad, ctx := r.ctx, va := va / pageBytes level * pageBytes level,
                                level := level, pte := pte, group := group }
          .next (freeMiss (tlbInsert s e) quad idx (.ok e))
        | (.bad cause info, s) => .next (freeMiss s quad idx (.error ⟨cause, info⟩))
        | (.invalid level, s) =>
          let s := setTrans s fun t => { t with
            miss := put t.miss (quad * 64 + idx) { r with walker := false, pending := true, level := level } }
          .next (postEvent s 0xFFFF r.ctx 0x0001 (idx + quad * 2 ^ 8 + va * 2 ^ 64))
  | _ => .next s

/-- MISS_RESP_RETRY: a pending record walks again (R173, R175). Its operand is the quad and the record. -/
def execMissRespRetry (s : State) : Out :=
  match s.arg with
  | .two quad idx =>
    match missRec s quad idx with
    | some r =>
      .next (if r.pending then
          unswap (setTrans s fun t => { t with miss := put t.miss (quad * 64 + idx) { r with pending := false } }) quad idx
        else s)
    | none => .next s
  | _ => .next s

/-- MISS_RESP_FAULT: each access that waits on a pending record takes PAGE_FAULT, reason 0x00 (R173, R322). Its operand
is the quad and the record. -/
def execMissRespFault (s : State) : Out :=
  match s.arg with
  | .two quad idx =>
    match missRec s quad idx with
    | some r => .next (if r.pending then freeMiss s quad idx (.error ⟨causePage, accInfo 0 r.level⟩) else s)
    | none => .next s
  | _ => .next s

/-! ### Invalidation -/

/-- What an invalidation covers: the context, if one, and the pages as bytes [lo, hi), if a range (R177). -/
structure InvScope where
  ctx : Option Nat
  range : Option (Nat × Nat)
  deriving DecidableEq, Repr

/-- The scope that a request named (R177). -/
def invScope (r : InvRegs) : InvScope :=
  { ctx := if r.scope = 2 then none else some r.ctx
    range := if r.scope = 0 then some (r.atVa / 2 ^ 13 * 2 ^ 13, r.atVa / 2 ^ 13 * 2 ^ 13 + max 1 r.atCnt * 2 ^ 13) else none }

/-- Whether an invalidation covers bytes [a, a + n) of a context. -/
def InvScope.covers (x : InvScope) (ctx a n : Nat) : Bool :=
  (match x.ctx with | some c => c == ctx | none => true) &&
    match x.range with | some (lo, hi) => decide (a < hi) && decide (lo < a + n) | none => true

/-- Whether a cached entry derives from a table entry in the scope (R178). -/
def InvScope.hits (x : InvScope) (e : TlbEntry) : Bool :=
  x.covers e.ctx e.va (pageBytes e.level) ||
    match e.group with | some g => x.covers e.ctx g (pageBytes e.level) | none => false

/-- The translations that accesses were given, without those in the scope (R178). -/
def clearGiven (s : State) (x : InvScope) : State :=
  let keep := fun (g : Option TlbEntry) => g.filter fun e => !x.hits e
  { s with
    strands := s.strands.map fun e => (e.1, { e.2 with given := keep e.2.given })
    eng := { s.eng with
      copies := s.eng.copies.map fun c => { c with given := c.given.filter fun e => !x.hits e }
      links := s.eng.links.map fun c => { c with given := keep c.given }
      pins := s.eng.pins.map fun c => { c with given := keep c.given }
      mq := s.eng.mq.map fun q => (q.1, q.2.map fun c => { c with given := keep c.given }) }
    fab := { s.fab with arrived := s.fab.arrived.map fun c => { c with given := keep c.given } }
    cmd := { s.cmd with
      cqs := s.cmd.cqs.map fun e => (e.1, { e.2 with given := keep e.2.given })
      kernels := s.cmd.kernels.map fun e => (e.1, { e.2 with given := keep e.2.given }) } }

/-- A record of a context leaves with it; a packet that waits on it takes the fault that its entry has (R155; log 109). -/
def dropMisses (s : State) (c : Nat) : State :=
  (s.trans.miss.filter fun e => e.2.ctx == c).foldl (fun s e =>
    freeMiss s (e.1 / 64) (e.1 % 64) (.error ⟨causePage, accInfo 0 e.2.level⟩)) s

/-- Nothing that was translated for a context is left: miss records, cached entries, and translations given to accesses (R155,
R163). -/
def forgetCtx (s : State) (c : Nat) : State :=
  clearGiven (setTrans (dropMisses s c) fun t => { t with tlb := t.tlb.filter fun e => e.ctx != c })
    { ctx := some c, range := none }

/-- The entries kept when an invalidation begins: those outside its scope, and those within it that a free value leaves
until it ends (R178; log 29). -/
def keepSome (x : InvScope) : Nat → List TlbEntry → List TlbEntry
  | _, [] => []
  | n, e :: t => if x.hits e && Config.free n % 2 == 0 then keepSome x (n + 1) t else e :: keepSome x (n + 1) t

/-- Records in the scope walk anew (R173). -/
def restartWalks (s : State) (x : InvScope) : State :=
  let hit := s.trans.miss.filter fun e => x.covers e.2.ctx (e.2.vpn * 2 ^ 13) (2 ^ 13)
  let s := hit.foldl (fun s e => unswap s (e.1 / 64) (e.1 % 64)) s
  let anew := fun (e : Nat × MissRec) =>
    if x.covers e.2.ctx (e.2.vpn * 2 ^ 13) (2 ^ 13) then (e.1, { e.2 with pending := false, walker := false }) else e
  setTrans s fun t => { t with miss := t.miss.map anew }

/-- An invalidation is requested; while one runs the request is ignored and `lost` is set (R177). -/
def startInv (s : State) (scope ctx : Nat) : State :=
  if s.trans.inv.busy then setTrans s fun t => { t with inv := { t.inv with lost := true } }
  else
    let r := { s.trans.inv with busy := true, scope := scope, ctx := ctx, atVa := s.trans.inv.va, atCnt := s.trans.inv.cnt }
    let x := invScope r
    let s := restartWalks (setTrans s fun t => { t with inv := r, tlb := keepSome x s.choice t.tlb }) x
    { s with choice := s.choice + s.trans.tlb.length + 1 }

/-- INV_RANGE (R177). Its operand is the context. -/
def execInvRange (s : State) : Out :=
  match s.arg with | .one c => .next (startInv s 0 (c % 64)) | _ => .next s
/-- INV_CONTEXT (R177). Its operand is the context. -/
def execInvContext (s : State) : Out :=
  match s.arg with | .one c => .next (startInv s 1 (c % 64)) | _ => .next s
/-- INV_ALL (R177). -/
def execInvAll (s : State) : Out := .next (startInv s 2 s.trans.inv.ctx)

/-- Whether a strand's context is in the scope; a strand that is gone counts. -/
def InvScope.names (x : InvScope) (s : State) (sid : Nat) : Bool :=
  match look s.strands sid, x.ctx with
  | some st, some c => st.ctx == c
  | _, _ => true

/-- Whether no access of the scope is still to perform, staged writes among them (R178). -/
def invClear (s : State) : Bool :=
  let x := invScope s.trans.inv
  !(s.flight.loads.any fun o => x.names s o.sid) && !(s.flight.stores.any fun o => x.names s o.sid) &&
    !(s.flight.atoms.any fun o => o.old.isNone && x.names s o.sid) && !(s.flight.texels.any fun o => x.names s o.sid) &&
    !s.braids.any fun b => b.2.staged.any fun e => x.covers b.2.ctx e.va e.bytes.length

/-- A sleeper in the scope runs its instruction again, whose access is translated anew (R93, R178, R285; log 104). -/
def InvScope.rouse (x : InvScope) (st : Strand) : Strand :=
  match st.run with
  | .blocked (.word va _ _ _ _) => if x.covers st.ctx va 4 then { st with run := .ready } else st
  | .blocked (.signal va _ _ _ _ _) => if x.covers st.ctx va 32 then { st with run := .ready } else st
  | _ => st

/-- INV_DONE: no cache holds an entry of the scope, and `busy` returns to 0 (R178). -/
def execInvDone (s : State) : Out :=
  .next (if s.trans.inv.busy && invClear s then
      let x := invScope s.trans.inv
      let s := setTrans (clearGiven s x) fun t => { t with
        tlb := t.tlb.filter fun e => !x.hits e, inv := { t.inv with busy := false } }
      { s with strands := s.strands.map fun e => (e.1, x.rouse e.2) }
    else s)

/-! ### The zero engine -/

/-- The bytes that the size field of zero_ctl names (R421); 3 names none. -/
def zeroSize (code : Nat) : Option Nat :=
  if code = 0 then some (2 ^ 13) else if code = 1 then some (2 ^ 23) else if code = 2 then some (2 ^ 33) else none

/-- ZERO_START: a write of zero_ctl starts the zeroing of the frame in zero_pa for its new owner (R180, R421). Its
operand is the value. -/
def execZeroStart (s : State) : Out :=
  match s.arg with
  | .val _ v =>
    let x := v.toNat
    let s := setTrans s fun t => { t with zeroKey := bits x 25 17, zeroOwner := bits x 13 8, zeroSize := bits x 1 0 }
    .next (match zeroSize (bits x 1 0) with
      | some n => startZero s { pa := s.trans.zeroPa.toNat, len := n, key := bits x 25 17, shown := true }
      | none => s)
  | _ => .next s

/-- A tile cleared to +0 in both chains (R252). -/
def clearTile (s : State) (t : Nat) : State :=
  { s with eng := { s.eng with tiles := s.eng.tiles.filter fun e => e.1 / 2 / 65536 != t } }

/-- A matrix entry that names a tile still stands in a queue, or waits to enter it. -/
def tileInUse (s : State) (t : Nat) : Bool :=
  (s.eng.mq.any fun q => q.2.any fun e => (tilesNamed q.1 e).contains t) ||
    s.eng.waiting.any fun q => (tilesNamed q.1 q.2).contains t

/-- Whether a job of the zero engine may end: no command still uses its tile, and no slot holds its writes (R180). -/
def mayZero (s : State) (z : ZeroJob) : Bool :=
  match z.tile with
  | some t => !tileInUse s t
  | none => !(lpddrHeld s && isLpddr z.pa && decide (z.len > 0))

/-- ZERO_DONE: a resource is zeroed (R163, R180). Its operand is its place in the engine's list. -/
def execZeroDone (s : State) : Out :=
  match s.arg with
  | .one idx =>
    match s.trans.zeroing[idx]? with
    | some z =>
      if !mayZero s z then .next s
      else
        let s := setTrans s fun t => { t with zeroing := t.zeroing.eraseIdx idx }
        let s := match z.tile with | some t => clearTile s t | none => s
        .next (if z.len > 0 then zeroRange s z else s)
    | none => .next s
  | _ => .next s

/-- The happenings of translation that may take place. -/
def duePages (s : State) : List Happening :=
  (s.trans.miss.filterMap fun e =>
    if mayWalk s e then some ⟨.walkStart, .two (e.1 / 64) (e.1 % 64)⟩
    else if e.2.walker && (walkTables s (e.1 / 64) e.2.ctx (e.2.vpn * 2 ^ 13)).1 != .held then
      some ⟨.walkDone, .two (e.1 / 64) (e.1 % 64)⟩
    else none) ++
  (if s.trans.inv.busy && invClear s then [⟨.invDone, .none⟩] else []) ++
  ((List.zip (List.range s.trans.zeroing.length) s.trans.zeroing).filterMap fun e =>
    if mayZero s e.2 then some ⟨.zeroDone, .one e.1⟩ else none)

end Sys2Proof.Machine
end

