-- ==== Sys2Proof/Machine/Chain.lean ====
section
/-!
DEFINITION. Strip chains: clearing cores (R343), admission (R340, R347), the kernels of a chain in order (R338, R356), replay
launches (R366), the end of a kernel (R323), and cutoff (R351, R413).
-/

namespace Sys2Proof.Machine
open Sys2Proof

/-- The number of a chain of a stream as it is set now. -/
def chainId (stream frame strip : Nat) : Nat := 2 * ((frame * 65536 + strip) * 64 + stream)

/-- A stream changed. -/
def setStream (s : State) (n : Nat) (f : Stream → Stream) : State :=
  setStrips s fun t => { t with streams := upd t.streams n f }

/-- The frame and the strip of a stream's strip by number. -/
def Stream.strip (x : Stream) (i : Nat) : Nat × Nat := (i / max 1 x.strips, i % max 1 x.strips)

/-- The frame submitted under a number. -/
def findFrame (s : State) (stream n : Nat) : Option Frame :=
  s.strips.frames.find? fun f => f.stream == stream && f.frame == n

/-! ### Misses (R353) -/

/-- Whether an output line is ready. -/
def lineReady (s : State) (stream n y : Nat) : Bool := s.strips.marks.contains (stream, markOf (streamOf s stream) n y)

/-- The lines of a strip that are ready. -/
def readyLines (s : State) (stream n k : Nat) : List Nat :=
  let (a, b) := (streamOf s stream).outLines k
  ((List.range (b - a)).map (· + a)).filter (lineReady s stream n)

/-- The lines that an output sends in fill or codes as skip, where it takes some of a strip's lines for ready: an encoder
codes the whole strip as skip if one is not (R352). -/
def linesLeft (x : Stream) (k ready : Nat) : Nat :=
  let n := (x.outLines k).2 - (x.outLines k).1
  if x.outKind = 1 ∧ ready < n then n else n - ready

/-- The MISS event of a chain, counted by the keeper (R353, R431). -/
def postMiss (s : State) (ch : Chain) (reason : Nat) : State :=
  let x := chainStream s ch
  let left := ch.unready.getD (linesLeft x ch.strip (readyLines s ch.stream ch.frame ch.strip).length)
  let data := ch.frame % 2 ^ 32 + ch.strip * 2 ^ 32 + ch.stream * 2 ^ 48 + reason * 2 ^ 56 + left * 2 ^ 64 + ch.rung * 2 ^ 80
  countUp (postEvent s 0xFFFF x.ctx 0x0007 data) (0x1860 + ch.stream)

/-- A chain that has missed: no further kernel, its cores no longer kept clear, and MISS (R340, R343, R353). -/
def missChain (s : State) (c reason : Nat) : State :=
  match look s.strips.chains c with
  | some ch => postMiss (setChain s c fun ch => { ch with st := .missed, cores := [] }) ch reason
  | none => s

/-! ### The next kernel of a chain (R338, R356) -/

/-- The chain of the strip above. -/
def chainAbove (s : State) (ch : Chain) : Option Chain :=
  if ch.strip = 0 ∨ ch.oldStream.isSome then none else look s.strips.chains (chainId ch.stream ch.frame (ch.strip - 1))

/-- The last kernel before the upscale stage of the strip above has ended (R338). -/
def aboveDone (s : State) (ch : Chain) : Bool :=
  match chainAbove s ch with
  | none => true
  | some p => p.preDone || p.st == .done || (p.st == .missed && p.kernel.isNone)

/-- What the last kernel before the upscale stage of the strip above published. -/
def aboveKnow (s : State) (ch : Chain) : List Known := ((chainAbove s ch).map (·.preKnow)).getD []

/-- Whether the kernel at which a chain stands may be accepted now (R338, R356). -/
def stageReady (s : State) (ch : Chain) (fr : Frame) (ck : ChainKernel) : Bool :=
  (ck.kind == 0 || fr.geom.isNone || fr.geomDone) && (ck.kind != 2 || aboveDone s ch)

/-- A running chain with no kernel accepts its next one, if that may be accepted (R338). -/
def advanceChain (s : State) (c : Nat) : State :=
  match look s.strips.chains c with
  | none => s
  | some ch =>
    match frameOf s ch with
    | none => s
    | some fr =>
      match fr.kernels[ch.stage]? with
      | none => s
      | some ck =>
        if ch.st ≠ .running ∨ ch.kernel.isSome ∨ ¬ stageReady s ch fr ck then s
        else
          let know := joinKnown ch.know
            (joinKnown (if ck.kind = 0 then [] else fr.geomKnow) (if ck.kind = 2 then aboveKnow s ch else []))
          let (kid, code, s) := acceptKernel s (chainStream s ch).ctx ck.lrec (.chain c) know ck.kind (some c) true
          if code.isSome then missChain s c 3
          else
            let front := frontFor s ch fr ck
            let s := if front.todo.isEmpty || ck.kind != 1 then s else listSeen s ch.stream ch.frame ch.strip
            setChain s c fun ch => { ch with kernel := some kid, know := know, started := s.clk.tb, front := front }

/-- The chain of the strip below goes on, where it waited for this one. -/
def advanceBelow (s : State) (ch : Chain) : State :=
  if ch.oldStream.isSome then s else advanceChain s (chainId ch.stream ch.frame (ch.strip + 1))

/-! ### Clearing cores (R343) -/

/-- The machine as it would be if no background braid were on a pool core. -/
def withoutBackground (s : State) : State :=
  { s with braids := s.braids.map fun e =>
      if e.2.st == .placed && inPool s e.2.core && !(kernelOfBraid s e.2).strip then (e.1, { e.2 with st := .saved }) else e }

/-- The pool's cores, those that hold no braid first, each part in rising order (R343). -/
def poolCores (s : State) : List Nat :=
  let pool := (List.range 192).filter (inPool s)
  let busy := fun (c : Nat) => !(placedWhere s (· == c)).isEmpty
  (pool.filter fun c => !busy c) ++ pool.filter busy

/-- The cores on which up to `count` braids of a kernel are placed, one braid or locket after another; none where they
find no place. -/
def placeCores (kid step : Nat) (cores : List Nat) : Nat → Nat → State → Option (List Nat)
  | 0, _, _ => some []
  | n + 1, index, s =>
    match cores.findSome? fun c => (placeOn s kid index c).map fun s => (c, s) with
    | none => none
    | some (c, s) => (placeCores kid step cores n (index + step) s).map fun l => (if step = 2 then [c, c + 1] else [c]) ++ l

/-- Q_b of R343: full-rate quads of the chain's whole area. -/
def wholeQuads (x : Stream) (k kind : Nat) : Nat :=
  if kind = 2 then ceilDiv x.outW 2 * ceilDiv ((x.outLines k).2 - (x.outLines k).1) 2
  else ceilDiv x.rendW 2 * ceilDiv ((x.band k).2 - (x.band k).1) 2

/-- The pool cores chosen for a chain's first kernel (R343). -/
def chosenCores (s : State) (x : Stream) (k : Nat) (ck : ChainKernel) : List Nat :=
  let r := ck.lrec
  let count := if ck.kind = 0 then r.braids else ceilDiv (wholeQuads x k ck.kind) (r.width / 4 * r.strands)
  let step := if r.lk then 2 else 1
  let t := withoutBackground s
  let (kid, _, t) := acceptKernel t x.ctx r (.packet 0) [] 0 none true
  let t := setKernel t kid fun q => { q with total := count }
  let pool := poolCores s
  match placeCores kid step pool (min (ceilDiv count step) (192 * 512)) 0 t with
  | some l => l.eraseDups
  | none => pool

/-- Pre-emption requested of the background braids on cores (R343, R401, R408). -/
def clearCores (s : State) (cores : List Nat) : State :=
  (placedWhere s cores.contains).foldl (fun s e =>
    let k := kernelOfBraid s e.2
    if !k.strip && savable k then requestSave s e.1 0x11 0 else s) s

/-- A chain enters clearing (R340, R343). -/
def clearFor (s : State) (stream n k : Nat) : State :=
  let x := streamOf s stream
  match findFrame s stream n with
  | none => s
  | some fr =>
    match fr.kernels.head? with
    | none => s
    | some ck =>
      let cores := chosenCores s x k ck
      let ch : Chain := { stream := stream, frame := n, strip := k, st := .clearing, cores := cores }
      clearCores (setStrips s fun t => { t with chains := put t.chains (chainId stream n k) ch }) cores

/-- CHAIN_CLEAR: at A_k − 10 µs, or at a later submission, cores are chosen and pre-emption is requested (R340, R343). Its
operand is the stream, the frame and the strip. -/
def execChainClear (s : State) : Out :=
  match s.arg with
  | .three stream n k =>
    let x := streamOf s stream
    if cmdUp s && x.active && !x.stopping && x.strip x.nextClear == (n, k) &&
        decide (nowTb s ≥ x.start n k - 10000 * 2 ^ 16) then
      .next (clearFor (setStream s stream fun x => { x with nextClear := x.nextClear + 1 }) stream n k)
    else .next s
  | _ => .next s

/-- The strips of a frame that have passed A_k − 10 µs and not A_k are cleared for when the frame is submitted late
(R340). -/
def clearLate (s : State) (stream n : Nat) : State :=
  let x := streamOf s stream
  if x.stopping then s
  else
    (List.range x.strips).foldl (fun s k =>
      let i := n * x.strips + k
      if x.nextStart ≤ i ∧ i < x.nextClear then clearFor s stream n k else s) s

/-! ### Admission (R340, R347, R360, R368) -/

/-- The rung that the strip before holds (R347). -/
def priorRung (s : State) (stream : Nat) (x : Stream) : Nat :=
  if x.nextStart = x.firstFrame * x.strips then 0
  else
    let (n, k) := x.strip (x.nextStart - 1)
    ((look s.strips.chains (chainId stream n k)).map (·.rung)).getD 0

/-- The ready marks of a strip's slot cleared (R360; log 36). -/
def clearMarks (s : State) (stream n k : Nat) : State :=
  let x := streamOf s stream
  setStrips s fun t => { t with marks := t.marks.filter fun m => m.1 != stream || m.2 / x.stripH != x.slotOf n k }

/-- The depth slice of a chain filled with 1.0 (R368). -/
def fillDepth (s : State) (x : Stream) (n k : Nat) : State :=
  let (a, b) := x.band k
  ((List.range (b - a)).map (· + a)).foldl (fun s y =>
    (List.range x.rendW).foldl (fun s px => (putRingWord s x (depOff s x n k y px) 0x3F800000).2) s) s

/-- A chain is admitted, whatever its cores still hold, or missed because its frame has not been submitted (R340); its braids are
placed as they can be (R345). -/
def startChain (s : State) (stream n k : Nat) : State :=
  let x := streamOf s stream
  let c := chainId stream n k
  let rung := min x.floor (priorRung s stream x - 1)
  let s := clearMarks (setStream s stream fun x => { x with nextStart := x.nextStart + 1 }) stream n k
  match findFrame s stream n with
  | none =>
    let ch : Chain := { stream := stream, frame := n, strip := k, rung := rung }
    missChain (setStrips s fun t => { t with chains := put t.chains c ch }) c 2
  | some fr =>
    let cores := ((look s.strips.chains c).map (·.cores)).getD []
    let ch : Chain :=
      { stream := stream, frame := n, strip := k, st := .running, rung := rung, admitted := s.clk.tb, tPrev := s.clk.tb
        cores := cores, know := fr.know, preDone := decide (fr.kernels.length ≤ 1) }
    advanceChain (fillDepth (setStrips s fun t => { t with chains := put t.chains c ch }) x n k) c

/-- CHAIN_START: at A_k a chain is admitted, or missed (R340). Its operand is the stream, the frame and the strip. -/
def execChainStart (s : State) : Out :=
  match s.arg with
  | .three stream n k =>
    let x := streamOf s stream
    if cmdUp s && x.active && !x.stopping && x.strip x.nextStart == (n, k) && decide (x.nextClear > x.nextStart) &&
        decide (nowTb s ≥ x.start n k) then .next (startChain s stream n k)
    else .next s
  | _ => .next s

/-! ### Replay (R366) -/

/-- A replay that fails ends the work of the chain's kernel, whose error it becomes (log 37). -/
def failReplay (s : State) (c : Nat) (err : Word) : State :=
  match (look s.strips.chains c).bind (·.kernel) with
  | none => s
  | some kid =>
    let s := setChain s c fun ch => { ch with front := { ch.front with todo := [], replay := none } }
    setKernel (closeFront s c kid) kid fun k => { k with err := if k.err = 0 then err else k.err }

/-- A chain whose front end is to launch a replay. -/
def replayReady (s : State) (ch : Chain) : Bool :=
  cmdUp s && ch.st == .running && ch.kernel.isSome && replayDue ch.front

/-- REPLAY_LAUNCH: the geometry record is launched again for a strip (R366). Its operand is the chain. -/
def execReplayLaunch (s : State) : Out :=
  match s.arg with
  | .one c =>
    match look s.strips.chains c with
    | none => .next s
    | some ch =>
      match (frameOf s ch).bind fun fr => fr.geom.map fun g => (fr, g) with
      | none => .next s
      | some (fr, g) =>
        if !replayReady s ch then .next s
        else
          let (kid, code, s) := acceptKernel s (chainStream s ch).ctx { g with signal := 0 } (.replay c) fr.know 0 (some c) true
          let s := setKernel s kid fun k => { k with stripNo := word ch.strip }
          match code with
          | some e => .next (failReplay s c (word (0x100 + e)))
          | none => .next (setChain s c fun ch => { ch with front := { ch.front with
              replay := ch.front.replay.map fun r => { r with kept := [], refused := false, kernel := some kid } } })
  | _ => .next s

/-- The end of a replay's kernel: what it kept is rasterised in ascending p (R366). -/
def endReplay (s : State) (c : Nat) (k : Kernel) : State :=
  if k.err ≠ 0 then failReplay s c k.err
  else setChain s c fun ch => { ch with front := { ch.front with
    todo := ((ch.front.replay.map (·.kept)).getD [])
    begun := false, x := 0, y := 0, done := []
    replay := ch.front.replay.map fun r =>
      { r with kernel := none, kept := [], pLo := match r.kept.getLast? with | some t => t.p + 1 | none => r.pLo } } }

/-! ### Kernel end (R323, R338, R340) -/

/-- The end of a kernel of a chain: the next one is accepted, the chain is done, or it has missed (R338, R340, R350). -/
def endStage (s : State) (c kid : Nat) (k : Kernel) : State :=
  match look s.strips.chains c with
  | none => s
  | some ch =>
    if ch.kernel ≠ some kid then s
    else
      let stages := ((frameOf s ch).map (·.kernels.length)).getD 0
      let pre := ch.preDone || decide (ch.stage + 2 = stages)
      let s := setChain s c fun ch => { ch with
        kernel := none, preDone := pre, preKnow := if ch.stage + 2 = stages then k.ends else ch.preKnow
        know := joinKnown ch.know k.ends, front := {} }
      let s :=
        if ch.st ≠ .running then s
        else if k.err ≠ 0 then missChain s c (if k.err.toNat / 256 = 1 then 3 else 4)
        else
          let s := if k.kind = 2 ∧ ch.oldStream.isNone then
              setStream s ch.stream fun x => { x with eUp := quarter x.eUp (s.clk.tb - ch.started) }
            else s
          if ch.stage + 1 < stages then advanceChain (setChain s c fun ch => { ch with stage := ch.stage + 1 }) c
          else setChain s c fun ch => { ch with st := .done, cores := [] }
      advanceBelow s ch

/-- The end of a frame's geometry kernel: its chains may go on (R356). -/
def endGeometry (s : State) (stream n : Nat) (k : Kernel) : State :=
  let s := setStrips s fun t => { t with
    frames := mapWhere (fun f => f.stream == stream && f.frame == n) (fun f => { f with geomDone := true, geomKnow := k.ends }) t.frames }
  (s.strips.chains.filter fun e => e.2.isOf stream && e.2.frame == n).foldl (fun s e => advanceChain s e.1) s

/-- What follows the end of a kernel, by its origin. -/
def afterKernel (s : State) (kid : Nat) (k : Kernel) : State :=
  match k.origin with
  | .chain c => endStage s c kid k
  | .geometry stream n => endGeometry s stream n k
  | .replay c => endReplay s c k
  | .packet q => { s with cmd := { s.cmd with
      cqs := upd s.cmd.cqs q fun x => { x with
        kernels := x.kernels.filter (fun y => y != kid), ended := joinKnown x.ended k.ends } } }
  | .insn _ => s

/-- KERNEL_END: the completion signal is written, or waits on a miss record; then what waited for the kernel goes on (R323,
R283, R338). Its operand is the kernel. -/
def execKernelEnd (s : State) : Out :=
  match s.arg with
  | .one kid =>
    match (endsReady s).find? fun e => e.1 == kid with
    | none => .next s
    | some (_, k) =>
      match endSignal s kid k with
      | (none, s) => .next s
      | (some s, _) =>
        let s := { s with
          keep := { s.keep with due := s.keep.due.filter fun x => x != kid }
          cmd := { s.cmd with kernels := del s.cmd.kernels kid } }
        .next (afterKernel s kid k)
  | _ => .next s

/-! ### Cutoff (R351, R413) -/

/-- The kernels of a chain, a replay's among them. -/
def chainKernels (s : State) (c : Nat) : List Nat := (s.cmd.kernels.filter fun e => e.2.chain == some c).map (·.1)

/-- Commands of kernels that have not ended are cancelled (R243, R351). -/
def cancelKernels (s : State) (ks : List Nat) : State :=
  let stop := fun (f : Nat × Future) =>
    if ks.contains f.2.kernel && f.2.st == .pending then (f.1, { f.2 with cancel := true }) else f
  { s with ctxs := s.ctxs.map fun e => (e.1, { e.2 with futures := e.2.futures.map stop }) }

/-- A kernel that was refused carries the error of its refusal (R162, R283). -/
def Kernel.refused (k : Kernel) : Bool := k.err.toNat / 256 == 1

/-- Kernels whose braids that have not been placed are discarded, with the error that their signals carry, those among them that
wait on a miss (R161, R283, R351); one that was refused keeps its own (R162). -/
def discardKernels (s : State) (ks : List Nat) (err : Word) : State :=
  (ks.filter fun kid => match look s.cmd.kernels kid with | some k => !k.refused | none => false).foldl (fun s kid =>
    setKernel s kid fun k => { k with discarded := true, open_ := false, formed := [], err := err }) s

/-- The halted strands of kernels are retired as KILL would retire them (R413). -/
def killHalted (s : State) (ks : List Nat) : State :=
  (s.strands.filter fun e => ks.contains e.2.kernel).foldl (fun s e =>
    match e.2.run with
    | .halted c => killStrand s e.1 e.2.kernel c
    | _ => s) s

/-- CHAIN_CUTOFF: at D_k a running chain is cut off (R351, R413). Its operand is the chain. -/
def execChainCutoff (s : State) : Out :=
  match s.arg with
  | .one c =>
    match look s.strips.chains c with
    | none => .next s
    | some ch =>
      let d := (chainStream s ch).deadline ch.frame ch.strip
      if (!cmdUp s || ch.st != .running || decide (nowTb s < d)) then .next s
      else
        let ks := chainKernels s c
        let s := discardKernels (killHalted s ks) ks 0x312
        let s := cancelKernels s ks
        let hold := fun (e : Nat × Strand) =>
          if ks.contains e.2.kernel then (e.1, holdCause e.2 { cause := 0x12 }) else e
        let s := { s with strands := s.strands.map hold }
        let s := setChain s c fun ch => { ch with front := {}, cutAt := some (d.toNat + 10000 * 2 ^ 16) }
        .next (advanceBelow (missChain s c 1) ch)
  | _ => .next s

/-- CUTOFF_RETIRE: 10 µs after D_k every strand of a cut-off chain that is left is retired (R413). Its operand is the
chain. -/
def execCutoffRetire (s : State) : Out :=
  match s.arg with
  | .one c =>
    match (look s.strips.chains c).bind (·.cutAt) with
    | none => .next s
    | some t =>
      if decide (s.clk.tb < t) then .next s
      else
        let ks := chainKernels s c
        let s := (s.strands.filter fun e => ks.contains e.2.kernel).foldl (fun s e => retireStrand s e.1) s
        .next (setChain s c fun ch => { ch with cutAt := none })
  | _ => .next s

/-! ### When they take place -/

/-- The alarms of a stream's strips: clearing, start, and the cutoff of its running chains. -/
def alarmStream (s : State) (stream : Nat) (x : Stream) : List Alarm :=
  if !cmdUp s then []
  else
    let (n, k) := x.strip x.nextClear
    let (m, j) := x.strip x.nextStart
    if !x.active || x.stopping then []
    else
      [⟨x.start n k - 10000 * 2 ^ 16, ⟨.chainClear, .three stream n k⟩⟩] ++
        (if x.nextClear > x.nextStart then [⟨x.start m j, ⟨.chainStart, .three stream m j⟩⟩] else [])

/-- The alarms of streams and chains. -/
def alarmChains (s : State) : List Alarm :=
  (s.strips.streams.flatMap fun e => alarmStream s e.1 e.2) ++
  (s.strips.chains.flatMap fun e =>
    (if cmdUp s && e.2.st == .running then
      [⟨(chainStream s e.2).deadline e.2.frame e.2.strip, ⟨.chainCutoff, .one e.1⟩⟩] else []) ++
    (match e.2.cutAt with | some t => [⟨t, ⟨.cutoffRetire, .one e.1⟩⟩] | none => []))

/-- The happenings of chains that may take place. -/
def dueChains (s : State) : List Happening :=
  dueBins s ++ dueFronts s ++
  ((s.strips.chains.filter fun e => replayReady s e.2).map fun e => ⟨.replayLaunch, .one e.1⟩)

/-- An address whose access misses in the cache region: in LPDDR6, with no line held (R191). -/
def missesRegion (s : State) (pa : Nat) : Bool := isLpddr pa && (heldLine s (pa / 128)).isNone

/-- A strand has an access on its way that delivers to a register of a kind and misses in the cache region. -/
def fetchesFar (s : State) (sid : Nat) (kind : List RKey → Bool) : Bool :=
  (s.flight.loads.any fun x => x.sid == sid && kind x.dst && missesRegion s x.pa) ||
    (s.flight.atoms.any fun x => x.sid == sid && kind x.dst && x.old.isNone && missesRegion s x.pa) ||
    s.flight.texels.any fun x => x.sid == sid && kind x.dst && x.texels.any fun y => missesRegion s y.1

/-- A strand has an access on its way that misses in the cache region. -/
def accessesFar (s : State) (sid : Nat) : Bool :=
  fetchesFar s sid (fun _ => true) || s.flight.stores.any fun x => x.sid == sid && missesRegion s x.pa

/-- Whether what a blocked strand waits for waits on a miss of the cache region (R349). -/
def waitsFar (s : State) (sid : Nat) : Wait → Bool
  | .reg k => fetchesFar s sid (·.contains k)
  | .regs ks => fetchesFar s sid fun d => d.any ks.contains
  | .loads | .all => fetchesFar s sid fun _ => true
  | .fence _ _ | .perform => accessesFar s sid
  | .stores pa _ | .order pa _ | .lines pa _ => missesRegion s pa
  | .word _ _ _ _ _ | .signal _ _ _ _ _ _ | .miss _ _ _ _ | .missFull _ | .pop | .ports _ _ | .sfuFull | .sfus | .hinge _
  | .time _ | .queue _ | .future _ | .table | .copyFull | .matrixFull | .launchFull | .spawns _ | .shadow | .capture
  | .staging => false

/-- A strand waits on a miss of the cache region: blocked, or for what is delivered before its handler's first instruction
(R349, R396). -/
def regionWait (s : State) (e : Nat × Strand) : Bool :=
  match e.2.run with
  | .blocked w => waitsFar s e.1 w
  | .ready => e.2.entering && fetchesFar s e.1 fun _ => true
  | .parked | .halted _ => false

/-- Time counted as stalled for the running chains of which a strand waits (R349). -/
def countStalls (dt : Nat) (s : State) : State :=
  let waits := fun (c : Nat) => s.strands.any fun e => (kernelOf s e.2).chain == some c && regionWait s e
  setStrips s fun t => { t with chains := t.chains.map fun e =>
    if e.2.st == .running && waits e.1 then (e.1, { e.2 with stalled := e.2.stalled + dt }) else e }

end Sys2Proof.Machine
end

