-- ==== Sys2Proof/Machine/Link.lean ====
section
/-!
DEFINITION. The links (R414 to R416, R382), the link commands (R417 to R420), and the receiving endpoint (R222, R419).
-/

namespace Sys2Proof.Machine
open Sys2Proof

/-! ### Link states -/

/-- A port changed. -/
def setLink (s : State) (p : Nat) (f : Link → Link) : State :=
  { s with fab := { s.fab with ports := put s.fab.ports p (f (lookD s.fab.ports p {})) } }

/-- A link's new state, with its event (R415). -/
def moveLink (s : State) (p : Nat) (st : LinkSt) : State :=
  let old := linkSt s p
  postEvent (setLink s p fun l => { l with st := st }) 0xFFFF 0xFF 0x000A (p % 8 + st.code * 2 ^ 3 + old.code * 2 ^ 6)

/-- Whether a device is reached by a port. -/
def reachedBy (s : State) (dev p : Nat) : Bool := routeOf s dev == some p

/-- What the failure of a port does: its commands with an unacknowledged flit fail, and what it holds is discarded (R416,
R222). -/
def failPort (s : State) (p : Nat) : State :=
  let lost := fun (x : LinkCmd) => x.port == p && decide (x.acked + x.data.length < x.flits) && x.err.isNone
  { s with
    eng := { s.eng with links := mapWhere lost (fun x => { x with err := some 0x14 }) s.eng.links }
    fab := { s.fab with held := s.fab.held.filter fun e => !reachedBy s e.dest p } }

/-- Whether a published retrain slot is under way. -/
def retrainRuns (s : State) (r : Retrain) : Bool := s.clk.slots.any fun x => x.cls == .retrain && x.start == r.start

/-- A port leaves the retrain slots that have not begun; a slot that then names none is withdrawn (R382, R383). -/
def withdrawRetrain (s : State) (p : Nat) : State :=
  let left := (s.clk.retrains.map fun r => if retrainRuns s r then r else { r with ports := r.ports.filter fun x => x != p }).filter
    fun r => !r.ports.isEmpty
  setClk s fun c => { c with
    retrains := left, calVersion := c.calVersion + BitVec.ofNat 32 (c.retrains.length - left.length) }

/-- LINK_EN_SET: lnk_ctl written with `en` = 1 (R415, R421). Its operand is the port and the value. -/
def execLinkEnSet (s : State) : Out :=
  match s.arg with
  | .val p v =>
    if p < 8 then
      let s := setLink s p fun l => { l with en := true, thr := bits v.toNat 15 0 }
      .next (if linkSt s p = .down then moveLink (setLink s p fun l => { l with fails := 0 }) p .training else s)
    else .next s
  | _ => .next s

/-- LINK_EN_CLEAR: lnk_ctl written with `en` = 0: as failed, then down (R415, R416). Its operand is the port and the
value. -/
def execLinkEnClear (s : State) : Out :=
  match s.arg with
  | .val p v =>
    if p < 8 then
      let s := setLink s p fun l => { l with en := false, thr := bits v.toNat 15 0 }
      .next (if linkSt s p = .down then s else moveLink (withdrawRetrain (failPort s p) p) p .down)
    else .next s
  | _ => .next s

/-- LINK_TRAINED: training succeeds, and held traffic flows (R415). Its operand is the port. -/
def execLinkTrained (s : State) : Out :=
  match s.arg with
  | .one p =>
    .next (if linkSt s p = .training then flowOut (moveLink (setLink s p fun l => { l with fails := 0 }) p .up) else s)
  | _ => .next s

/-- LINK_TRAIN_FAIL: a training attempt fails; the third in a row fails the link (R415, R416). Its operand is the port. -/
def execLinkTrainFail (s : State) : Out :=
  match s.arg with
  | .one p =>
    if linkSt s p = .training then
      let s := setLink s p fun l => { l with fails := l.fails + 1 }
      .next (if (lookD s.fab.ports p {}).fails ≥ 3 then moveLink (failPort s p) p .failed else s)
    else .next s
  | _ => .next s

/-- The start of the retrain slot in the next millisecond that is a multiple of 64 (R382). -/
def nextRetrain (s : State) : Nat := SlotClass.retrain.startOf (nowNs s / 64000000 + 1)

/-- A retrain slot published for a port, or the port named by the one that is published for that time (R382, R383). -/
def publishRetrain (s : State) (p : Nat) : State :=
  let t := nextRetrain s
  setClk s fun c =>
    if c.retrains.any fun r => r.start == t then
      { c with retrains := mapWhere (fun r => r.start == t) (fun r => { r with ports := r.ports ++ [p] }) c.retrains }
    else { c with retrains := c.retrains ++ [⟨t, [p]⟩], calVersion := c.calVersion + 1 }

/-- LINK_RETRAIN_PENDING: where the corrected flits of one millisecond, a free value, exceed `thr`, the link is
retrain-pending (R415; log 108). Its operand is the port. -/
def execLinkRetrainPending (s : State) : Out :=
  match s.arg with
  | .one p =>
    let (n, s) := drawFree s
    .next (if linkSt s p = .up ∧ n > (lookD s.fab.ports p {}).thr then publishRetrain (moveLink s p .retrainPending) p else s)
  | _ => .next s

/-- The published retrain slot that begins now. -/
def retrainDue (s : State) : Option Retrain :=
  if clockRuns s then s.clk.retrains.find? fun r => decide (nowNs s ≥ r.start) && !retrainRuns s r else none

/-- RETRAIN_SLOT_START: the named links train, and their traffic is held; each is counted (R382, R386, R415, R431). -/
def execRetrainSlotStart (s : State) : Out :=
  .next (match retrainDue s with
    | some r =>
      r.ports.foldl (fun s p =>
        if linkSt s p = .retrainPending then countUp (moveLink (setLink s p fun l => { l with fails := 0 }) p .training) (0x1848 + p)
        else s) (setClk s fun c => beginSlot c .retrain r.start)
    | none => s)

/-! ### Link commands at issue -/

/-- The forms of opcode 0x6A by selector (R417). -/
def linkPut : Nat := 0
/-- LGET. -/
def linkGet : Nat := 1
/-- LRADD. -/
def linkAdd : Nat := 2
/-- LSIG. -/
def linkSig : Nat := 3

/-- The element size of LRADD (R417). -/
def addSize (ty : Nat) : Nat := if ty = 2 then 8 else 4

/-- The flits of a command (R414, R420): 64 bytes each, one element each, or the one signal write. -/
def linkFlits (form ty len : Nat) : Nat :=
  if form = linkSig then 1 else if form = linkAdd then len / addSize ty else ceilDiv len 64

/-- A reason of R418. -/
def linkReason (s : State) (form route ra la len : Nat) : Option Nat :=
  let ty := bits route 13 12
  let mbz := bits route 31 14 != 0 || bits route 11 10 != 0 || ((form == linkPut || form == linkGet) && ty != 0) || ty == 3
  let n := addSize ty
  firstReason [(mbz, 0x51), (bits route 9 0 == (sregOf s 8).toNat % 1024, 0x52),
    ((form == linkAdd && (len % n != 0 || ra % n != 0 || la % n != 0)) || (form == linkSig && ra % 32 != 0), 0x53)]

/-- LINK, where the destination has no route or its port is down or failed (R416). -/
def linkTrap (s : State) (dest : Nat) : Option TrapInfo :=
  let bad := fun (x : Nat) => some { cause := 0x14, info := dest + x * 2 ^ 10, bead := some 255 }
  match routeOf s dest with
  | none => bad 7
  | some p => if linkSt s p = .down ∨ linkSt s p = .failed then bad (linkSt s p).code else none

/-- A command that its endpoint accepts: the signal write of an LSIG leaves after the tokens, and its writes, one for a flit, are
known to its issuer (R208, R420). -/
def acceptLink (i : Issue) (c : LinkCmd) : Issue :=
  let s := if c.form = linkSig then sendTokens i.s i.st.know else i.s
  let (seq, s) := newFlight s
  let first := s.mem.nextWrite
  let n := c.flits
  let c := { c with seq := seq, firstId := first, after := readsBefore s i.sid .l }
  { i with
    s := { s with mem := { s.mem with nextWrite := first + n }, eng := { s.eng with links := s.eng.links ++ [c] } }
    st := { i.st with know := joinKnown i.st.know ((List.range n).map fun k => (first + k, Path.l)) } }

/-- A link form (R417 to R420): values checked, a record taken, and the command accepted, or ended at once for a length of
0. -/
def formLink (form : Nat) (d a b : Reg) (i : Issue) : BeadOut :=
  let sig := form == linkSig
  let srcs := quadOf a ++ (if sig then [b] else pairOf b)
  runForm true (uniDstOk i.st d && uniQuadOk i.st a && (if sig then uniSrcOk i.st b else uniPairOk i.st b)) true
    (fun j i => readyOr i j (srcsW srcs) [d] (readAll j (srcsW srcs) 0 i fun vs i =>
      let ra := (pairAt vs 0).toNat
      let second := pairAt vs 2
      let len := if sig then 0 else (nth vs 4).toNat
      let route := (if sig then nth vs 4 else nth vs 5).toNat
      let dest := bits route 9 0
      match linkReason i.s form route ra second.toNat len with
      | some r => .trap (illegalOperand r) i
      | none =>
        match linkTrap i.s dest with
        | some t => .trap t i
        | none =>
          if sig && !fenceClear i.s i.sid 31 true then .block (.fence 31 true) i
          else match allocFuture i.s i.st.ctx i.st.kernel (onPath i.st.know .l) with
            | none => .block .table i
            | some (h, s) =>
              if !sig && len == 0 then
                .ok (writeHandle { i with s := sendTokens (endHandle s h .done 0 []) (onPath i.st.know .l) } j d h false)
              else
                let c : LinkCmd :=
                  { ctx := i.st.ctx, sid := i.sid, core := i.st.core, handle := h, form := form, dest := dest
                    port := (routeOf s dest).getD 0, raddr := ra, laddr := second.toNat, len := len
                    ty := bits route 13 12, val := second, know := if sig then i.st.know else onPath i.st.know .l, pubs := carriedPubs i.st .l
                    flits := linkFlits form (bits route 13 12) len }
                .ok (writeHandle (acceptLink { i with s := s } c) j d h true))) i

/-- LPUT (R419). -/
def execLput (d a b : Reg) (s : State) : Out := onStrand s (formLink linkPut d a b)
/-- LGET (R419). -/
def execLget (d a b : Reg) (s : State) : Out := onStrand s (formLink linkGet d a b)
/-- LRADD (R419). -/
def execLradd (d a b : Reg) (s : State) : Out := onStrand s (formLink linkAdd d a b)
/-- LSIG (R419, R420). -/
def execLsig (d a b : Reg) (s : State) : Out := onStrand s (formLink linkSig d a b)

/-! ### Sending and acknowledgement -/

/-- How a link command makes its local accesses (R176, R419). -/
def linkAccess (x : LinkCmd) : Accessor :=
  { ctx := x.ctx, quad := quadOfCore x.core, path := some .l, given := x.given.toList, who := engineWho x.handle, sid := some x.sid }

/-- The op of an LSIG (R417). -/
def sigOpOf (ty : Nat) : SigOp := if ty = 0 then .set else if ty = 1 then .add else .maxu

/-- Flit k of a command made up: its local bytes read on path L by what the issuer knew (R419), with the number of its write and
the publications that the write carries; an LSIG's releases what its issuer knows (R211, R215, R420). -/
def makeFlit (s : State) (x : LinkCmd) (k : Nat) : Engine Flit :=
  let me := (sregOf s 8).toNat % 1024
  let pubs := x.pubs.map fun p => (p.scope, p.pairs)
  let read := fun (va n : Nat) (f : List Byte → FlitKind) =>
    (engineRead s (linkAccess x) x.know .l true (runs va n)).andThen fun bs s =>
      (.ok ({ src := me, ctx := x.ctx, kind := f bs, tag := x.firstId + k, pubs := pubs } : Flit), s)
  if x.form = linkPut then
    read (x.laddr + 64 * k) (min 64 (x.len - 64 * k)) fun bs => .store ((x.raddr + 64 * k) % 2 ^ 64) bs
  else if x.form = linkAdd then
    let n := addSize x.ty
    read (x.laddr + n * k) n fun bs => .add ((x.raddr + n * k) % 2 ^ 64) x.ty (BitVec.ofNat 64 (ofLE bs))
  else if x.form = linkGet then
    (.ok { src := me, ctx := x.ctx, kind := .read ((x.raddr + 64 * k) % 2 ^ 64) (min 64 (x.len - 64 * k)) }, s)
  else
    (.ok { src := me, ctx := x.ctx, kind := .signal x.raddr (sigOpOf x.ty) x.val, tag := x.firstId, know := x.know, pubs := pubs }, s)

/-- A link command changed. -/
def setLinkCmd (s : State) (h : Word) (f : LinkCmd → LinkCmd) : State :=
  { s with eng := { s.eng with links := mapWhere (fun x => x.handle == h) f s.eng.links } }

/-- Whether a command may send: its port is up, no miss holds it, and every earlier command and token for its destination has
been sent (R221, R415, R420). -/
def maySend (s : State) (x : LinkCmd) : Bool :=
  linkSt s x.port == .up && x.stall.isNone && x.err.isNone && decide (x.sent < x.flits) &&
    (s.fab.held.all fun h => h.dest != x.dest || decide (h.seq > x.seq) || (h.msg matches .reply _)) &&
    (s.eng.links.takeWhile fun y => y.handle != x.handle).all fun y =>
      y.dest != x.dest || y.err.isSome || decide (y.sent ≥ y.flits)

/-- A flit that leaves; stores and LRADD operations are counted as they are sent (R221). -/
def sendFlit (s : State) (x : LinkCmd) (f : Flit) : State :=
  let n := (lookD s.fab.sent x.dest 0 + 1) % 2 ^ 32
  let s := { s with fab := { s.fab with
    out := s.fab.out ++ [(x.dest, .flit f)]
    sent := if x.form = linkPut ∨ x.form = linkAdd then put s.fab.sent x.dest n else s.fab.sent } }
  setLinkCmd s x.handle fun x => { x with sent := x.sent + 1 }

/-- What stops a link command (R174, R419). -/
def stopLink (s : State) (h : Word) (e : EngineStop) : State :=
  match e with
  | .miss q r => setLinkCmd s h fun x => { x with stall := some (q, r) }
  | .wait => s
  | .fail c => flowOut (setLinkCmd s h fun x => { x with err := some c })

/-- A command sends n flits at most, until one stops; the tokens behind its last store follow. -/
def sendFlits (h : Word) : Nat → State → State
  | 0, s => flowOut s
  | n + 1, s =>
    match s.eng.links.find? fun x => x.handle == h with
    | none => s
    | some x =>
      if !maySend s x then flowOut s
      else match makeFlit s x x.sent with
        | (.ok f, s) => sendFlits h n (sendFlit s x f)
        | (.error e, s) => stopLink s h e

/-- Whether an LGET has data to write, which no miss and no read before it holds (R212, R419). -/
def mayWriteData (s : State) (x : LinkCmd) : Bool :=
  !x.data.isEmpty && x.stall.isNone && x.err.isNone && afterReads s x.after

/-- The data that have come for an LGET written in order, until one write stops (R419). -/
def writeData (h : Word) : Nat → State → State
  | 0, s => s
  | n + 1, s =>
    match s.eng.links.find? fun x => x.handle == h with
    | none => s
    | some x =>
      match x.data with
      | [] => s
      | bs :: rest =>
        if !mayWriteData s x then s
        else match engineTargets s { linkAccess x with need := .write } (runs (x.laddr + 64 * x.acked) bs.length) with
          | (.ok ts, s) =>
            let id := x.firstId + x.acked
            let s := (ts.foldl (fun (acc : State × List Byte) t =>
              (writeNow (settleZero acc.1 t.1 t.2.2) id t.1 t.2.1 (acc.2.take t.2.2) (some .l) x.pubs, acc.2.drop t.2.2)) (s, bs)).1
            writeData h n (setLinkCmd s h fun x =>
              { x with acked := x.acked + 1, data := rest, writes := addKnown x.writes (id, .l) })
          | (.error e, s) => stopLink s h e

/-- FLIT_ACK: the destination answers the next flit of a command: performed, with data for an LGET, which are then written,
or failed (R419). A port that is retrain-pending holds only what is outgoing (R415, R416). Its operand is the context, the
record and the answer. -/
def execFlitAck (s : State) : Out :=
  match s.arg with
  | .ack c r k =>
    let h := handleOf c r (lookD (lookD s.ctxs c {}).futures r {}).gen
    match s.eng.links.find? fun x => x.handle == h with
    | none => .next s
    | some x =>
      if (linkSt s x.port ≠ .up ∧ linkSt s x.port ≠ .retrainPending) ∨ x.acked + x.data.length ≥ x.sent ∨ x.err.isSome then .next s
      else match k with
        | .failed e => .next (stopLink s h (.fail e))
        | .performed =>
          .next (if x.form = linkGet then s
            else setLinkCmd s h fun x => { x with acked := x.acked + 1, writes := addKnown x.writes (x.firstId + x.acked, .l) })
        | .data bs =>
          if x.form ≠ linkGet ∨ bs.length ≠ min 64 (x.len - 64 * (x.acked + x.data.length)) then .next s
          else
            let s := setLinkCmd s h fun x => { x with data := x.data ++ [bs] }
            .next (writeData h (x.data.length + 1) s)
  | _ => .next s

/-! ### The receiving endpoint -/

/-- A count reached, modulo 2^32 (R222). -/
def countReached (performed count : Nat) : Bool := decide ((performed + 2 ^ 32 - count) % 2 ^ 32 < 2 ^ 31)

/-- Whether a flit writes, and whether it counts (R221, R222). -/
def flitWrites (f : Flit) : Bool := match f.kind with | .read _ _ => false | _ => true
/-- Whether a flit is a store or an LRADD operation. -/
def flitCounts (f : Flit) : Bool := match f.kind with | .store _ _ | .add _ _ _ => true | _ => false

/-- The tokens of a source whose count has been reached complete their releases: the source's writes performed so far are
released at system scope (R222, R225, R420). -/
def completeTokens (s : State) (src : Nat) : State :=
  let reached := fun (e : Nat × Nat) => e.1 == src && countReached (lookD s.fab.performed src 0) e.2
  if s.fab.open_.any reached then
    releaseSystem { s with fab := { s.fab with open_ := s.fab.open_.filter fun e => !reached e } } (lookD s.fab.wrote src [])
  else s

/-- FENCE_TOKEN_ARRIVE (R222). Its operand is the source and the count. -/
def execFenceTokenArrive (s : State) : Out :=
  match s.arg with
  | .two src count =>
    let c := count % 2 ^ 32
    .next (completeTokens { s with fab := { s.fab with tokens := put s.fab.tokens src c, open_ := s.fab.open_ ++ [(src, c)] } } src)
  | _ => .next s

/-- The quad through which a remote access translates: the home, by R190, of the line number of its address (R419; log
25). -/
def remoteQuad (va : Nat) : Nat := homeOfLine (va / 128 % 2 ^ 37)

/-- What an endpoint knows on path L for a source: the writes it performed for it, and every write that a system-scope
release has published (R420). -/
def remoteKnow (s : State) (src : Nat) : List Known :=
  knownOn .l (lookD s.fab.wrote src [] ++ s.host.seen)

/-- What a source knows, in this device's numbers: those of its writes that were performed here (R211, R420; log 121). -/
def localPairs (s : State) (src : Nat) (ks : List (Nat × Path)) : List Known :=
  ks.flatMap fun k => (s.fab.tags.filter fun t => t.1 == src && t.2.1 == k.1).map fun t => (t.2.2, k.2)

/-- The publications that a flit's write carries (R215; log 121). -/
def flitPubs (s : State) (f : Flit) : List Pub :=
  f.pubs.map fun p => { scope := p.1, by_ := .device f.src, pairs := localPairs s f.src p.2 }

/-- The writes of a flit are noted: by source, and under the number that the source gave them (R211, R222). -/
def noteWrites (s : State) (f : Flit) (ids : List Nat) : State :=
  { s with fab := { s.fab with
    wrote := put s.fab.wrote f.src (ids ++ lookD s.fab.wrote f.src [])
    tags := ids.map (fun id => (f.src, f.tag, id)) ++ s.fab.tags } }

/-- What LRADD makes of an element (R419). -/
def remoteSum (ty m v : Nat) : Nat :=
  if ty = 1 then atomNew 0x57 32 m (v % 2 ^ 32) 0 else atomNew 0x56 (8 * addSize ty) m (v % 2 ^ (8 * addSize ty)) 0

/-- The access of a flit: its answer (R419). A misaligned element or signal is not sent (R418). -/
def flitAccess (s : State) (f : Flit) (given : Option TlbEntry) : Engine Ack :=
  let acc := fun (va : Nat) (n : Need) =>
    ({ ctx := f.ctx, quad := remoteQuad va, path := some .l, need := n, given := given.toList } : Accessor)
  let one := fun (va n : Nat) (k : Nat → Nat → State → Ack × State) =>
    (engineTranslate s (acc va .both) va n).andThen fun x s =>
      if heldBySlot s x.1 n || poolFirst s none x.1 then ((.error .wait, s) : Engine Ack)
      else
        let s := settleZero s x.1 n
        if eccHit s x.1 n then (.error (.fail 0x13), s)
        else let (r, s) := k x.1 x.2.1 s; (.ok r, s)
  if !((lookD s.ctxs f.ctx {}).st == .active) || !bit (sregOf s 0xA0).toNat f.ctx then (.error (.fail 0x05), s)
  else match f.kind with
    | .store va bs =>
      (engineTargets s (acc va .write) (runs va bs.length)).andThen fun ts s =>
        let (ks, s) := engineWrite s .l (flitPubs s f) ts bs []
        (.ok .performed, noteWrites s f (ks.map (·.1)))
    | .read va n =>
      (engineRead s (acc va .read) (remoteKnow s f.src) .l true (runs va n)).andThen fun bs s => (.ok (.data bs), s)
    | .add va ty v =>
      one va (addSize ty) fun pa key s =>
        let (bs, s) := readNow s pa key (addSize ty)
        let (id, s) := writeOwn s pa key (toLE (addSize ty) (remoteSum ty (ofLE bs) v.toNat)) (some .l) (flitPubs s f)
        (.performed, noteWrites s f [id])
    | .signal va op v =>
      one va 32 fun pa key s =>
        let (id, _, s) := signalWrite s pa key op v (some .l) (flitPubs s f) .system (.device f.src) (localPairs s f.src f.know)
        (.performed, noteWrites s f [id])

/-- Whether an arrived flit may be performed: the tokens before it are complete, and a read follows the earlier stores of
its source (R222, R420). -/
def mayPerform (s : State) (k : Nat) (w : FlitWait) : Bool :=
  w.stall.isNone &&
    (match w.after with
     | some c => countReached (lookD s.fab.performed w.flit.src 0) c
     | none => true) &&
    (flitWrites w.flit || (s.fab.arrived.take k).all fun x => x.flit.src != w.flit.src || !flitWrites x.flit)

/-- An arrived flit is done: it is counted, the tokens that waited for it are complete, and its source is answered over the
link, which may hold the answer (R222, R386, R419). -/
def answerFlit (s : State) (k : Nat) (f : Flit) (a : Ack) : State :=
  let n := lookD s.fab.performed f.src 0
  let s := { s with fab := { s.fab with
      arrived := s.fab.arrived.eraseIdx k
      performed := if flitCounts f then put s.fab.performed f.src ((n + 1) % 2 ^ 32) else s.fab.performed } }
  flowOut (holdMsg (completeTokens s f.src) f.src (.reply a))

/-- An arrived flit performed, where it may be. -/
def performFlit (s : State) (k : Nat) : State :=
  match s.fab.arrived[k]? with
  | none => s
  | some w =>
    match w.err with
    | some e => answerFlit s k w.flit (.failed e)
    | none =>
      if !mayPerform s k w then s
      else match flitAccess s w.flit w.given with
        | (.ok a, s) => answerFlit s k w.flit a
        | (.error (.miss q r), s) =>
          { s with fab := { s.fab with arrived := s.fab.arrived.set k { w with stall := some (q, r) } } }
        | (.error .wait, s) => s
        | (.error (.fail e), s) => answerFlit s k w.flit (.failed e)

/-- FLIT_RECEIVE: a flit arrives over a link that is up and its access performs, or waits for its source's fence tokens or
for translation (R222, R419). Its operand is the flit, or the place of one that waits. -/
def execFlitReceive (s : State) : Out :=
  match s.arg with
  | .flit f =>
    let up := match routeOf s f.src with | some p => linkSt s p == LinkSt.up || linkSt s p == LinkSt.retrainPending | none => false
    if up then
      let after := if flitWrites f then look s.fab.tokens f.src else none
      let n := s.fab.arrived.length
      .next (performFlit { s with fab := { s.fab with arrived := s.fab.arrived ++ [{ flit := f, after := after }] } } n)
    else .next s
  | .one k => .next (performFlit s k)
  | _ => .next s

/-! ### What may take place -/

/-- The arrived flits that may be performed. -/
def dueLinks (s : State) : List Happening :=
  (List.range s.fab.arrived.length).filterMap fun k =>
    match s.fab.arrived[k]? with
    | some w => if w.err.isSome || mayPerform s k w then some ⟨.flitReceive, .one k⟩ else none
    | none => none

end Sys2Proof.Machine
end

