-- ==== Sys2Proof/Machine/Clock.lean ====
section
/-!
DEFINITION. The timebase under PTP: the states of R328, its steps (R329), and tb_ctl and tb_set (R330).
-/

namespace Sys2Proof.Machine
open Sys2Proof

/-- Whether a stream is active. -/
def anyStream (s : State) : Bool := s.strips.streams.any fun e => e.2.active

/-- The refresh slots that a step to a time skips: those it passes over, and one that it cuts off, alone or inside a calibration
slot (R384). -/
def skippedBy (s : State) (now : Nat) : Nat :=
  (SlotClass.refresh.endsAfter now - s.clk.refreshNext) +
    s.clk.slots.countP fun x => (x.cls == .refresh || x.cls == .calibration) && decide (x.stop ≤ now)

/-- The slots that stretch as the count steps end with it; what they had still to do is abandoned (R387). -/
def endStretches : Nat → State → State
  | 0, s => s
  | n + 1, s =>
    match takeFirst (fun (x : Slot) => x.stretched.isSome) s.clk.slots with
    | some (x, rest) => endStretches n (endStretched s x rest (unfinished s x 0))
    | none => s

/-- A step of the count: the calendar moves with it, and refresh that it skips is to be made up (R384, R387); what is measured from
a moment keeps its distance from it, and reads may decrease across it (R326, R329). -/
def stepTo (s : State) (tb : Nat) : State :=
  let s := endStretches s.clk.slots.length s
  let old := s.clk.tb
  let move := fun (t : Nat) => t + tb - old
  let now := tb / 2 ^ 16
  let s := setClk s fun c => { c with
    tb := tb, lastSync := move c.lastSync, slots := [], drain := false
    skipped := c.skipped + skippedBy s now
    masters := c.masters.map fun e => (e.1, move e.2)
    sagging := c.sagging.map fun e => (e.1, move e.2), recovering := c.recovering.map fun e => (e.1, move e.2)
    retrains := c.retrains.filter fun r => !retrainRuns s r
    refreshNext := SlotClass.refresh.endsAfter now, calNext := SlotClass.calibration.endsAfter now
    sweepNext := SlotClass.sweep.endsAfter now }
  let t := nextRetrain s
  let s := setClk s fun c => { c with
    retrains := if c.retrains.isEmpty then [] else [⟨t, c.retrains.flatMap (·.ports)⟩] }
  afterHold { s with
    keep := { s.keep with lastBeat := move s.keep.lastBeat, recoverAt := move s.keep.recoverAt }
    strands := s.strands.map fun e => (e.1, { e.2 with lastTb := 0, blockedAt := move e.2.blockedAt }) }

/-- Whether the servo may step (R329). -/
def mayStep (s : State) (offset : Int) : Bool :=
  s.clk.st == .locking && decide (offset.natAbs > 1000000) && s.clk.stepOk && !anyStream s

/-- The next state of the timebase at a Sync message, and how many have been good in a row (R328). -/
def syncState (c : Clock) (offset : Int) : TbSt × Nat :=
  match c.st with
  | .free => (.free, c.good)
  | .locking =>
    if offset.natAbs ≤ 100 then (if c.good + 1 ≥ 16 then (.locked, 0) else (.locking, c.good + 1)) else (.locking, 0)
  | .locked => if offset.natAbs > 1000 then (.locking, 0) else (.locked, c.good)
  | .holdover => (.locking, 0)

/-- Whether the port that tb_ctl names hears the masters: the management port, or a port whose link carries traffic (R327, R425;
log 44). -/
def ptpHears (s : State) : Bool :=
  s.clk.port == 8 || linkSt s s.clk.port == .up || linkSt s s.clk.port == .retrainPending

/-- PTP_SYNC: a Sync message is received; the count steps where R329 allows it (R328). Its operand is the offset from the
master in ns. -/
def execPtpSync (s : State) : Out :=
  match s.arg with
  | .int offset =>
    if s.clk.st = .free ∨ ¬ ptpHears s then .next s
    else
      let step := mayStep s offset
      let (st, good) := syncState s.clk offset
      let t := setClk s fun c => { c with st := st, good := if step then 0 else good, offset := offset, lastSync := c.tb }
      .next (if step then stepTo t ((t.clk.tb : Int) - offset * 2 ^ 16).toNat else t)
  | _ => .next s

/-- Whether a list of numbers goes before another or equals it. -/
def lexLe : List Nat → List Nat → Bool
  | x :: a, y :: b => decide (x < y) || (x == y && lexLe a b)
  | [], _ => true
  | _ :: _, [] => false

/-- Whether an announced data set goes before another in the default best master clock algorithm: that of the better
grandmaster, or of one grandmaster the nearer (R327; log 44). -/
def betterMaster (a b : Announce) : Bool :=
  if a.grandmaster = b.grandmaster then lexLe [a.steps, a.master, a.port] [b.steps, b.master, b.port]
  else lexLe [a.priority, a.clockClass, a.accuracy, a.variance, a.priority2, a.grandmaster]
    [b.priority, b.clockClass, b.accuracy, b.variance, b.priority2, b.grandmaster]

/-- The masters heard within their last three announce intervals (R327; log 44). -/
def liveMasters (c : Clock) : List (Announce × Nat) :=
  c.masters.filter fun e => decide (c.tb < e.2 + 3 * e.1.interval * 2 ^ 16)

/-- The best of the masters that are heard, or the one last heard (R327, R328). -/
def bestMaster (c : Clock) : Option Announce :=
  (liveMasters c).foldl (fun best e =>
    match best with
    | some m => if betterMaster m e.1 then some m else some e.1
    | none => some e.1) none

/-- The announce interval that counts: that of the master last heard, or 2 s of the default profile (R328). -/
def announceInterval (c : Clock) : Nat := match (bestMaster c).orElse fun _ => c.master with | some m => m.interval | none => 2000000000

/-- The time at which three announce intervals have passed without a Sync message (R328). -/
def syncDeadline (c : Clock) : Nat := c.lastSync + 3 * announceInterval c * 2 ^ 16

/-- Whether the servo waits for Sync messages. -/
def awaitsSync (c : Clock) : Bool := c.st == .locking || c.st == .locked

/-- PTP_SYNC_TIMEOUT: the timebase goes on in holdover (R328). -/
def execPtpSyncTimeout (s : State) : Out :=
  .next (if awaitsSync s.clk && decide (s.clk.tb ≥ syncDeadline s.clk) then setClk s fun c => { c with st := .holdover } else s)

/-- PTP_ANNOUNCE: a master is heard, and the best of those heard is chosen, with its interval (R327, R328). Its operand is the
announcement. -/
def execPtpAnnounce (s : State) : Out :=
  match s.arg with
  | .announce a =>
    .next (if s.clk.en ∧ ptpHears s then
        setClk s fun c =>
          let c := { c with masters := (a, c.tb) :: (liveMasters c).filter fun e => e.1.master != a.master || e.1.port != a.port }
          { c with master := bestMaster c }
      else s)
  | _ => .next s

/-- A write of tb_ctl (R328, R330): a port of 9 or above has it ignored; `en` starts the servo or returns to free. -/
def writeTbCtl (s : State) (v : DWord) : State :=
  let x := v.toNat
  let en := bit x 31
  if bits x 11 8 > 8 then s
  else
    let started := en && !s.clk.en
    setClk s fun c => { c with
      en := en, stepOk := bit x 30, port := bits x 11 8, domain := bits x 6 0
      st := if !en then .free else if started then .locking else c.st
      good := if started then 0 else c.good
      master := if started then none else c.master
      masters := if started then [] else c.masters
      lastSync := if started then c.tb else c.lastSync }

/-- TB_EN_SET (R328). Its operand is the value of tb_ctl. -/
def execTbEnSet (s : State) : Out :=
  match s.arg with
  | .val _ v => .next (if v.getLsbD 31 then writeTbCtl s v else s)
  | _ => .next s

/-- TB_EN_CLEAR (R328). Its operand is the value of tb_ctl. -/
def execTbEnClear (s : State) : Out :=
  match s.arg with
  | .val _ v => .next (if v.getLsbD 31 then s else writeTbCtl s v)
  | _ => .next s

/-- A write of tb_set: in state free with no stream active, the count steps (R329, R330). -/
def writeTbSet (s : State) (v : DWord) : State :=
  if s.clk.st = .free ∧ ¬ anyStream s then stepTo s (v.toNat * 2 ^ 16) else s

/-- TB_SET (R329). Its operand is the value. -/
def execTbSet (s : State) : Out :=
  match s.arg with
  | .val _ v => .next (writeTbSet s v)
  | _ => .next s

/-- tb_stat (R330). -/
def tbStat (c : Clock) : DWord :=
  let st := match c.st with | .free => 0 | .locking => 1 | .locked => 2 | .holdover => 3
  let lim : Int := 2 ^ 23 - 1
  BitVec.ofNat 64 (st * 2 ^ 30 + (max (-lim) (min lim c.offset) % 2 ^ 24).toNat)

/-- The alarm of a missing Sync message. -/
def alarmClock (s : State) : List Alarm :=
  if clockRuns s && awaitsSync s.clk then [⟨syncDeadline s.clk, ⟨.ptpSyncTimeout, .none⟩⟩] else []

end Sys2Proof.Machine
end

