-- ==== Sys2Proof/Machine/Packets.lean ====
section
/-!
DEFINITION. Command queues and their packets: the header (R306, R307), rejection (R161, R308), doorbells (R422), and the
command processor's own accesses (R446).
-/

namespace Sys2Proof.Machine
open Sys2Proof

/-- A command queue by number. -/
def cqOf (s : State) (cq : Nat) : CmdQueue := lookD s.cmd.cqs cq {}

/-- A command queue changed. -/
def setCq (s : State) (cq : Nat) (f : CmdQueue → CmdQueue) : State :=
  { s with cmd := { s.cmd with cqs := put s.cmd.cqs cq (f (cqOf s cq)) } }

/-- Whether a command queue belongs to the supervisor (R422). -/
def supervisor (s : State) (cq : Nat) : Bool := cq == 0 || (cqOf s cq).sup

/-- Bytes that a queue holds between head and tail. -/
def CmdQueue.waiting (q : CmdQueue) : Nat := (q.tail + 2 ^ 64 - q.head) % 2 ^ 64

/-- n bytes of a queue's ring from an offset after its head; they wrap at the ring's end (R422). -/
def ringRead (s : State) (q : CmdQueue) (o n : Nat) : List Byte × State :=
  let size := 2 ^ q.lsize
  let at_ := (q.head + o) % size
  let first := min n (size - at_)
  let (l, s) := if first = 0 then ([], s) else readNow s (q.base + at_) 0 first
  let (r, s) := if n - first = 0 then ([], s) else readNow s q.base 0 (n - first)
  (l ++ r, s)

/-- The packet that a queue has in process, or the one at its head, once it stands there whole; a slot may hold the reads of
the ring (R385, R422). -/
def packetAt (s : State) (cq : Nat) : Option Packet :=
  let q := cqOf s cq
  match q.packet with
  | some p => some p
  | none =>
    if q.waiting < 16 ∨ (lpddrHeld s ∧ isLpddr q.base) then none
    else
      let h := ofLE (ringRead s q 0 16).1
      let len := bits h 31 16
      if q.waiting < 16 + len then none
      else some { type := bits h 7 0, len := len, user := bits h 127 64, clean := bits h 15 8 == 0 && bits h 63 32 == 0
                  body := ofLE (ringRead s q 16 len).1, ctx := q.ctx, sup := supervisor s cq }

/-- The packet at a queue's head has been read, if it was not in process already: its lines are in the cache region and their
single-bit errors corrected (R191, R193, R422). -/
def packetSeen (s : State) (cq : Nat) (p : Packet) : State :=
  let q := cqOf s cq
  if q.packet.isSome then s else (ringRead s q 0 (16 + p.len)).2

/-- Whether a queue takes its next packet, or goes on with one that has begun (R309, R422, R430). -/
def cqTakes (s : State) (cq : Nat) : Bool :=
  let q := cqOf s cq
  cmdUp s && q.held == .none && (q.packet.isSome || (q.en && !q.stopped))

/-- A packet that has begun waits for something; what its queue's registers become does not change it (R422). -/
def holdPacket (s : State) (cq : Nat) (p : Packet) (h : HeldPacket) : State :=
  setCq s cq fun q => { q with held := h, packet := some p }

/-- A queue moves on behind its packet. -/
def takePacket (s : State) (cq : Nat) (p : Packet) : State :=
  setCq s cq fun q => { q with
    head := (q.head + 16 + p.len) % 2 ^ 64, held := .none, faulted := false, given := none, packet := none, got := [] }

/-- A packet rejected: no state changes but for PACKET_REJECTED, which names a context (R161, R306). -/
def rejectFor (s : State) (cq : Nat) (p : Packet) (ctx : Nat) : State :=
  postEvent (takePacket s cq p) (2 ^ 15 + cq) ctx 0x0003 (p.type + p.user * 2 ^ 64)

/-- A packet rejected in its queue's context. -/
def reject (s : State) (cq : Nat) (p : Packet) : State := rejectFor s cq p p.ctx

/-- The packet processed by a row of one type: it is next, or already held, and its header is right (R306). -/
def onPacket (s : State) (type len : Nat) (held : CmdQueue → Bool) (f : Nat → Packet → State → State) : Out :=
  match s.arg with
  | .one cq =>
    match packetAt s cq with
    | none => .next s
    | some p =>
      if p.type ≠ type ∨ ¬ (cqTakes s cq || (cmdUp s && held (cqOf s cq))) then .next s
      else if p.len ≠ len ∨ ¬ p.clean then .next (reject (packetSeen s cq p) cq p)
      else .next (f cq p (packetSeen s cq p))
  | _ => .next s

/-- The packet processed by a row whose packet waits for nothing. -/
def onFresh (s : State) (type len : Nat) (f : Nat → Packet → State → State) : Out := onPacket s type len (fun _ => false) f

/-! ### The command processor's own accesses (R446) -/

/-- How an access of the command processor ends: a physical address with its key, a wait, or a rejection. -/
inductive CpAccess where
  | ok (pa key : Nat)
  | wait
  | fault
  deriving DecidableEq, Repr

/-- An access on no path, in a context, through the caches and records of quad 0; on a miss the queue's packet waits (R446),
and a slot holds one to LPDDR6 (R385). -/
def cpTranslate (s : State) (cq : Nat) (p : Packet) (ctx : Nat) (need : Need) (va n : Nat) : CpAccess × State :=
  let a : Accessor := { ctx := ctx, quad := 0, need := need, given := (cqOf s cq).given.toList }
  if (cqOf s cq).faulted then (.fault, s)
  else match translation s a va n with
    | (.ok pa key _, s) => if heldBySlot s pa n then (.wait, holdPacket s cq p .none) else (.ok pa key, s)
    | (.fault _ _, s) => (.fault, s)
    | (.miss, s) =>
      match joinMiss s a va with
      | (some idx, s) => (.wait, holdPacket s cq p (.miss 0 idx))
      | (none, s) => (.wait, holdPacket s cq p .none)

/-- Bytes read by the command processor in pieces that do not cross a page. -/
def cpRead (s : State) (cq : Nat) (p : Packet) (ctx : Nat) : List (Nat × Nat) → Option (List Byte) × CpAccess × State
  | [] => (some [], .ok 0 0, s)
  | (va, n) :: t =>
    match cpTranslate s cq p ctx .read va n with
    | (.ok pa key, s) =>
      let (bs, s) := readNow (settleZero s pa n) pa key n
      match cpRead s cq p ctx t with
      | (some rest, r, s) => (some (bs ++ rest), r, s)
      | x => x
    | (r, s) => (none, r, s)

/-- What a queue's know gains from a read that returned the writes in a range (R208). -/
def queueKnows (s : State) (cq : Nat) (ks : List Known) : State :=
  setCq s cq fun q => { q with know := joinKnown q.know ks }

/-- Writes known on every path. -/
def onAllPaths (ws : List Nat) : List Known :=
  [Path.b, .c, .m, .x, .l].flatMap fun q => knownOn q ws

/-! ### Doorbells and cq_ctl (R422) -/

/-- Whether a type names a packet (R307). -/
def packetType (t : Nat) : Bool := decide (1 ≤ t) && decide (t ≤ 12)

/-- Packets of no type at a queue's head are rejected (R306). -/
def rejectUnknown : Nat → State → Nat → State
  | 0, s, _ => s
  | n + 1, s, cq =>
    match packetAt s cq with
    | some p => if cqTakes s cq && !packetType p.type then rejectUnknown n (reject (packetSeen s cq p) cq p) cq else s
    | none => s

/-- DOORBELL: cq_tail is written; the front end acquires what the application cores wrote before, and looks at the queue's
head (R306, R422). Its operand is the queue and the tail. -/
def execDoorbell (s : State) : Out :=
  match s.arg with
  | .two cq tail =>
    if cq < 256 then
      let s := setCq s cq fun q => { q with tail := tail % 2 ^ 64, know := joinKnown q.know (onAllPaths s.host.wrote) }
      .next (rejectUnknown ((cqOf s cq).waiting / 16) s cq)
    else .next s
  | _ => .next s

/-- A write of cq_ctl (R422). Writing `en` ← 1 restarts a stopped queue; a bad `lsize` then has the write ignored. -/
def writeCqCtl (s : State) (cq : Nat) (v : DWord) : State :=
  let x := v.toNat
  let en := bit x 31
  let lsize := bits x 4 0
  if en ∧ (lsize < 12 ∨ lsize > 24) then s
  else setCq s cq fun q => { q with
    en := en, sup := bit x 30, ctx := bits x 21 16, lsize := lsize
    stopped := q.stopped && !en, lost := q.lost && !en }

/-- CQ_EN_SET (R422). Its operand is the queue and the value. -/
def execCqEnSet (s : State) : Out :=
  match s.arg with
  | .val cq v => .next (if cq < 256 ∧ v.getLsbD 31 then writeCqCtl s cq v else s)
  | _ => .next s

/-- CQ_EN_CLEAR (R422). Its operand is the queue and the value. -/
def execCqEnClear (s : State) : Out :=
  match s.arg with
  | .val cq v => .next (if cq < 256 ∧ ¬ v.getLsbD 31 then writeCqCtl s cq v else s)
  | _ => .next s

/-- EVR_HEAD_WRITE: entries of the event ring are consumed, and RING_OVERFLOW follows where events were lost (R308, R309).
Its operand is the value. -/
def execEvrHeadWrite (s : State) : Out :=
  match s.arg with
  | .val _ v =>
    .next (evrOverflow { s with cmd := { s.cmd with evr := { s.cmd.evr with head := v.toNat % 2 ^ 32 } } })
  | _ => .next s

end Sys2Proof.Machine
end

