-- ==== Sys2Proof/Machine/Command.lean ====
section
/-!
DEFINITION. The packets of kernels, signals, seeds, work queues and order: LAUNCH (R312 to R316), FEED (R304, R305),
SIGNAL_WRITE and SIGNAL_WAIT (R286), the seed packets (R164), QUEUE_SET (R287 to R290) and FENCE_SYS (R224).
-/

namespace Sys2Proof.Machine
open Sys2Proof

/-- LAUNCH_PACKET: the record is accepted, or refused with its code in the completion signal (R165, R211, R315, R316). Its
operand is the queue. -/
def execLaunchPacket (s : State) : Out :=
  onFresh s 1 192 fun cq p s =>
    let q := cqOf s cq
    let r := parseRecord (toLE 192 p.body)
    let (kid, _, s) := acceptKernel (takePacket s cq p) p.ctx r (.packet cq) q.know 0 none r.prio
    setCq s cq fun q => { q with kernels := q.kernels ++ [kid] }

/-! ### FEED (R304, R305) -/

/-- The payload of FEED for a queue's elements (R306). -/
def feedLen (q : HwQueue) : Nat := 8 + 8 * ceilDiv q.esize 8

/-- A FEED is rejected: the queue's state, or its owner. Nothing else is checked, the control word's upper bits among it
(R304). -/
def feedBad (s : State) (p : Packet) : Bool :=
  let q := queueOf s (bits p.body 11 0)
  q.st != .open_ || q.stopped || !q.work || (q.ctx != p.ctx && !p.sup)

/-- A FEED appends its element, is rejected, or waits for room (R304). -/
def feedPacket (cq : Nat) (p : Packet) (s : State) : State :=
  let qid := bits p.body 11 0
  let q := queueOf s qid
  if p.len ≠ feedLen q ∨ feedBad s p then reject s cq p
  else
    if poolFirst s none q.ringPa then holdPacket s cq p .feed
    else
    let s := settleZero s q.ringPa (2 ^ q.lslots * q.esize)
    let (id, s) := newWrite s
    match pushElement s qid id (toLE q.esize (p.body / 2 ^ 64)) .b [] with
    | some s => takePacket (queueKnows s cq [(id, .b)]) cq p
    | none => holdPacket s cq p .feed

/-- A row of FEED: the length of its payload depends on the queue it names. -/
def onFeed (s : State) (held : CmdQueue → Bool) : Out :=
  match s.arg with
  | .one cq =>
    match packetAt s cq with
    | some p => onPacket s 2 p.len held feedPacket
    | none => .next s
  | _ => .next s

/-- FEED: an element is appended to a work queue, or the packet waits for room (R304). Its operand is the queue. -/
def execFeed (s : State) : Out := onFeed s fun _ => false

/-- FEED_APPEND: a FEED that waits finds room (R304, R305). Its operand is the queue. -/
def execFeedAppend (s : State) : Out := onFeed s fun q => q.held == .feed

/-! ### Signals (R286) -/

/-- The fields of a signal packet: scope, op, operand and address. -/
structure SignalFields where
  scope : Scope
  op : Nat
  operand : DWord
  addr : Nat
  deriving DecidableEq, Repr

/-- The fields of a signal packet, unless one is out of its map (R286). -/
def signalFields (p : Packet) (ops : Nat) : Option SignalFields :=
  let x := p.body
  let sc := bits x 2 0
  let addr := bits x 191 128
  if bits x 63 5 ≠ 0 ∨ (sc ≠ 3 ∧ sc ≠ 4) ∨ bits x 4 3 ≥ ops ∨ addr % 32 ≠ 0 then none
  else some { scope := if sc = 3 then .device else .system, op := bits x 4 3, operand := BitVec.ofNat 64 (bits x 127 64)
              addr := addr }

/-- The operation of a code (R284). -/
def sigOpCode (n : Nat) : SigOp := if n = 0 then .set else if n = 1 then .add else .maxu

/-- SIGNAL_WRITE: a signal is written as SIGWR would, with V(queue) (R286). Its operand is the queue. -/
def execSignalWrite (s : State) : Out :=
  onFresh s 3 24 fun cq p s =>
    match signalFields p 3 with
    | none => reject s cq p
    | some f =>
      let q := cqOf s cq
      match cpTranslate s cq p p.ctx .both f.addr 32 with
      | (.wait, s) => s
      | (.fault, s) => reject s cq p
      | (.ok pa key, s) =>
        if poolFirst s none pa then holdPacket s cq p .none
        else
        let (id, seen, s) := signalWrite s pa key (sigOpCode f.op) f.operand none [] f.scope (.queue cq) q.know
        takePacket (queueKnows s cq (onAllPaths (id :: seen))) cq p

/-- SIGNAL_WAIT: the queue goes on when the condition holds, and acquires what the write it read published; otherwise its
packet is held (R211, R286). -/
def signalWaitPacket (cq : Nat) (p : Packet) (s : State) : State :=
  match signalFields p 4 with
  | none => reject s cq p
  | some f =>
    match cpTranslate s cq p p.ctx .read f.addr 32 with
    | (.wait, s) => s
    | (.fault, s) => reject s cq p
    | (.ok pa key, s) =>
      let (bs, s) := readNow (settleZero s pa 32) pa key 8
      if condHolds f.op (ofLE bs) f.operand.toNat then
        let seen := newestWrites s pa 8
        let pub := pubsOf s (.queue cq) f.scope seen
        takePacket (queueKnows (queueKnows s cq pub) cq (onAllPaths seen)) cq p
      else holdPacket s cq p .signalWait

/-- SIGNAL_WAIT (R286). Its operand is the queue. -/
def execSignalWait (s : State) : Out := onFresh s 4 24 signalWaitPacket

/-- SIGNAL_WAIT_SATISFIED: a held SIGNAL_WAIT looks again (R286). Its operand is the queue. -/
def execSignalWaitSatisfied (s : State) : Out := onPacket s 4 24 (fun q => q.held == .signalWait) signalWaitPacket

/-- Whether a held SIGNAL_WAIT would go on, or meet a miss or a fault. -/
def signalMet (s : State) (cq : Nat) : Bool :=
  match (packetAt s cq).bind fun p => (signalFields p 4).map fun f => (p, f) with
  | none => true
  | some (p, f) =>
    match (cpTranslate s cq p p.ctx .read f.addr 32).1 with
    | .ok pa key => condHolds f.op (ofLE (readNow s pa key 8).1) f.operand.toNat
    | .wait => (cqOf s cq).given.isSome || !lpddrHeld s
    | .fault => true

/-! ### Seeds (R164) -/

/-- A seed packet acts on its queue's context, which must be active and pass a test of the stack's depth. -/
def seedPacket (ok : Nat → Bool) (f : Packet → Context → Context) (cq : Nat) (p : Packet) (s : State) : State :=
  let ctx := p.ctx
  let c := lookD s.ctxs ctx {}
  if c.st ≠ .active ∨ ¬ ok c.seeds.length then reject s cq p
  else takePacket (setCtx s ctx (f p)) cq p

/-- ForkSeed (R164). -/
def forkSeed (seed : DWord) (n : Word) : DWord := BitVec.ofNat 64 (drawLo (2 ^ 64 - 1) n.toNat seed.toNat)

/-- SEED_PUSH (R164). Its operand is the queue. -/
def execSeedPush (s : State) : Out :=
  onFresh s 5 8 (seedPacket (fun n => decide (n < 16)) fun p c => { c with seeds := BitVec.ofNat 64 p.body :: c.seeds })

/-- SEED_POP (R164). Its operand is the queue. -/
def execSeedPop (s : State) : Out :=
  onFresh s 6 0 (seedPacket (fun n => decide (n > 1)) fun _ c => { c with seeds := c.seeds.tail })

/-- SEED_FORK (R164). Its operand is the queue. -/
def execSeedFork (s : State) : Out :=
  onFresh s 7 0 (seedPacket (fun n => decide (n < 16)) fun _ c =>
    { c with seeds := forkSeed (c.seeds.headD 0) c.fork :: c.seeds, fork := c.fork + 1 })

/-! ### QUEUE_SET (R287 to R290) -/

/-- The op of a QUEUE_SET, and whether its control word is well formed (R287). -/
def queueOp (p : Packet) : Nat := bits p.body 63 56

/-- A row of QUEUE_SET: the packet must come from the supervisor's queue and have a control word in its map; rows are told
apart by op, a code that names none going to OPEN's. -/
def queueSet (s : State) (mine : Nat → Bool) (f : Nat → Nat → Packet → State → State) : Out :=
  match s.arg with
  | .one cq =>
    match packetAt s cq with
    | some p =>
      if mine (queueOp p) then
        onFresh s 10 32 fun cq p s =>
          if !p.sup || bits p.body 55 12 != 0 || decide (queueOp p > 3) then reject s cq p
          else f (bits p.body 11 0) cq p s
      else .next s
    | none => .next s
  | _ => .next s

/-- A descriptor (R288). -/
structure QueueDesc where
  spillBase : Nat
  ringBase : Nat
  spillMax : Nat
  ctx : Nat
  esize : Nat
  lslots : Nat
  work : Bool
  ok : Bool
  deriving DecidableEq, Repr

/-- The descriptor of a packet, with whether each field is in its range (R288). -/
def queueDesc (p : Packet) : QueueDesc :=
  let x := p.body / 2 ^ 64
  let sm := bits x 63 40
  let ls := bits x 11 7
  { spillBase := bits x 191 128, ringBase := bits x 127 64, spillMax := sm, ctx := bits x 21 16
    esize := 4 * (bits x 15 12 + 1), lslots := ls, work := bit x 6
    ok := bits x 39 22 == 0 && bits x 5 0 == 0 && decide (1 ≤ ls) && decide (ls ≤ 16) &&
      (sm == 0 || sm == 2 ^ Nat.log2 sm) }

/-- The leaf that maps an address for a packet in process. -/
def leafFor (s : State) (cq ctx va : Nat) : Option TlbEntry :=
  ((cqOf s cq).given.filter fun e => e.maps ctx va).orElse fun _ => tlbFind s (.second 0) ctx va

/-- The ring's physical address, if its bytes lie in one vault page of the context with `r` and `w` (R289). -/
def ringAddress (s : State) (cq : Nat) (p : Packet) (d : QueueDesc) : CpAccess × State :=
  let n := 2 ^ d.lslots * d.esize
  match cpTranslate s cq p d.ctx .both d.ringBase n with
  | (.ok pa key, s) =>
    match leafFor s cq d.ctx d.ringBase with
    | some e => if isVault pa ∧ d.ringBase + n ≤ e.va + pageBytes e.level then (.ok pa key, s) else (.fault, s)
    | none => (.fault, s)
  | x => x

/-- The physical address of a page of the spill ring, if it lies in an LPDDR6 page of the context with `r` and `w`; no byte of
it is read or written (R289). -/
def spillAddress (s : State) (cq : Nat) (p : Packet) (d : QueueDesc) (va : Nat) : CpAccess × State :=
  match cpTranslate s cq p d.ctx .both va 1 with
  | (.ok pa key, s) => if isLpddr pa then (.ok pa key, s) else (.fault, s)
  | x => x

/-- The rings of a descriptor translated, each page once, from the pages on that the packet has not had: none for the ring,
and a page's address for the spill ring (R289). -/
def openPages (cq : Nat) (p : Packet) (d : QueueDesc) : List (Option Nat) → State → CpAccess × State
  | [], s => (.ok 0 0, s)
  | x :: t, s =>
    match (match x with | none => ringAddress s cq p d | some va => spillAddress s cq p d va) with
    | (.ok pa key, s) => openPages cq p d t (setCq s cq fun q => { q with got := q.got ++ [(pa, key)] })
    | r => r

/-- The first address of each page of a spill ring. -/
def spillStarts (d : QueueDesc) : List Nat :=
  if d.spillMax = 0 then []
  else (List.range (ceilDiv (d.spillBase % 8192 + d.spillMax * d.esize) 8192)).map fun i => d.spillBase / 8192 * 8192 + 8192 * i

/-- QUEUE_SET OPEN: the rings are translated and the queue opens (R289, R290). -/
def openQueue (qid cq : Nat) (p : Packet) (s : State) : State :=
  let d := queueDesc p
  if (queueOf s qid).st ≠ .free ∨ (lookD s.ctxs d.ctx {}).st ≠ .active ∨ ¬ d.ok ∨ d.ringBase % 128 ≠ 0 ∨
      (d.spillMax > 0 ∧ d.spillBase % 128 ≠ 0) then reject s cq p
  else match openPages cq p d ((none :: (spillStarts d).map some).drop (cqOf s cq).got.length) s with
    | (.wait, s) => s
    | (.fault, s) => reject s cq p
    | (.ok _ _, s) =>
      let got := (cqOf s cq).got
      let q : HwQueue :=
        { st := .open_, ctx := d.ctx, esize := d.esize, lslots := d.lslots, work := d.work, ringPa := (got.headD (0, 0)).1
          spillOff := d.spillBase % 8192, spillPages := got.tail, spillMax := d.spillMax }
      takePacket { s with queues := put s.queues qid q } cq p

/-- QUEUE_OPEN (R289). Its operand is the command queue. -/
def execQueueOpen (s : State) : Out := queueSet s (fun op => op == 0 || decide (op > 3)) openQueue

/-- An operation on a queue that is not free; on a free one the packet is rejected (R290). -/
def onOpenQueue (f : Nat → State → Option State) (qid cq : Nat) (p : Packet) (s : State) : State :=
  if (queueOf s qid).st = .free then reject s cq p
  else match f qid s with
    | some s => takePacket s cq p
    | none => reject s cq p

/-- A queue's contents and token discarded, and its status cleared (R290). -/
def resetQueue (qid : Nat) (s : State) : Option State :=
  some (setQueue s qid fun q => { q with
    st := .open_, stopped := false, lost := false, quota := false, err := false, ecode := 0, head := 0, tail := 0
    token := none, spilled := 0, spillHead := 0 })

/-- QUEUE_RESET (R290). Its operand is the command queue. -/
def execQueueReset (s : State) : Out := queueSet s (· == 1) (onOpenQueue resetQueue)

/-- Whether a strand's port is bound to a queue (R292). -/
def portBoundTo (s : State) (qid : Nat) : Bool := s.strands.any fun e => e.2.ports.any fun p => p.2 == qid

/-- The parts of a spill ring by address, key and length. -/
def spillRanges (q : HwQueue) : List (Nat × Nat × Nat) :=
  let n := q.spillOff + q.spillMax * q.esize
  (List.zip (List.range q.spillPages.length) q.spillPages).map fun e =>
    let lo := if e.1 = 0 then q.spillOff else 0
    (e.2.1 + lo, e.2.2, min 8192 (n - 8192 * e.1) - lo)

/-- A queue is freed: its rings pass through the zero engine (R163, R290). -/
def freeQueue (s : State) (qid : Nat) : State :=
  let q := queueOf s qid
  let s := startZero s { pa := q.ringPa, len := 2 ^ q.lslots * q.esize, ctx := some q.ctx }
  let s := (spillRanges q).foldl (fun s x => startZero s { pa := x.1, key := x.2.1, len := x.2.2, ctx := some q.ctx }) s
  { s with queues := del s.queues qid }

/-- QUEUE_FREE (R290). Its operand is the command queue. -/
def execQueueFree (s : State) : Out :=
  queueSet s (· == 2) (onOpenQueue fun qid s => if portBoundTo s qid then none else some (freeQueue s qid))

/-- QUEUE_RESUME (R290). Its operand is the command queue. -/
def execQueueResume (s : State) : Out :=
  queueSet s (· == 3) (onOpenQueue fun qid s => some (setQueue s qid fun q => { q with stopped := false, lost := false }))

/-! ### FENCE_SYS (R224) -/

/-- FENCE_SYS: what the application cores released before the doorbell that announced it is in V(queue) since that doorbell
(R422); with `drain` the packet waits for the queue's kernels and
acquires what their signals published; then V(queue) is released at system scope. The lines of `wb` are written back with
no change to what any access reads (log 40). -/
def fencePacket (cq : Nat) (p : Packet) (s : State) : State :=
  let q := cqOf s cq
  if bits p.body 63 2 ≠ 0 then reject s cq p
  else if bit p.body 0 ∧ ¬ q.kernels.isEmpty then holdPacket s cq p .drain
  else
    let know := joinKnown q.know (if bit p.body 0 then q.ended else [])
    takePacket (sendTokens (setCq s cq fun q => { q with know := know }) know) cq p

/-- FENCE_SYS (R224). Its operand is the queue. -/
def execFenceSys (s : State) : Out := onPacket s 11 8 (fun q => q.held == .drain && q.kernels.isEmpty) fencePacket

end Sys2Proof.Machine
end

