-- ==== Sys2Proof/Machine/Ends.lean ====
section
/-!
DEFINITION. The ends of future records (R229, R238, R245): done, failed, cancelled; and the visits of MPIN (R270).
-/

namespace Sys2Proof.Machine
open Sys2Proof

/-! ### MPIN's visits (R270) -/

/-- An MPIN changed. -/
def setPin (s : State) (h : Word) (f : PinCmd → PinCmd) : State :=
  { s with eng := { s.eng with pins := mapWhere (fun x => x.handle == h) f s.eng.pins } }

/-- A line visited: fetched when it is absent, and pinned where R270 allows. -/
def visitLine (s : State) (c : PinCmd) (va : Nat) : Engine Unit :=
  let a : Accessor := { ctx := c.ctx, core := some c.core, quad := quadOfCore c.core, bid := some c.bid, path := some .m,
                        given := c.given.toList, who := engineWho c.handle }
  (engineTranslate s a va 128).andThen fun x s =>
    let (pa, key, pin) := x
    if heldBySlot s pa 128 then (.error .wait, s)
    else
      let s := settleZero s pa 128
      if eccHit s pa 128 then (.error (.fail 0x13), s)
      else
      let s := openRead s pa 128 key true
      let line := pa / 128
      let placed := match look s.braids c.bid with | some b => b.st == .placed && !b.saving | none => false
      let ok := placed && pin && isLpddr pa && waysFree s line && decide (heldPins s c.ctx < (lookD s.ctxs c.ctx {}).pinQuota)
      let own := fun (l : CacheLine) => l.pinBraid.any fun p => p.1 == c.bid
      let s := if ok then
          setLines s (mapWhere (fun l => l.line == line && !own l) (fun l => { l with pinBraid := l.pinBraid ++ [(c.bid, va)] })
            s.vaults.lines)
        else s
      (.ok (), s)

/-- Lines visited in order until one stops. -/
def visitLines (c : PinCmd) : List Nat → State → State
  | [], s => setPin s c.handle fun x => { x with vas := [] }
  | va :: t, s =>
    match visitLine s c va with
    | (.ok _, s) => visitLines c t s
    | (.error x, s) =>
      setPin s c.handle fun y => match x with
        | .miss q r => { y with vas := va :: t, stall := some (q, r) }
        | .wait => { y with vas := va :: t }
        | .fail e => { y with vas := va :: t, err := some e }

/-- The MPIN of a handle goes on with its visits, where no miss holds it. -/
def advancePin (s : State) (h : Word) : State :=
  match s.eng.pins.find? fun x => x.handle == h with
  | some c => if c.stall.isNone && c.err.isNone then visitLines c c.vas s else s
  | none => s

/-- A command that goes on by itself: an MPIN's visits, or a link command's data and flits. -/
def advanceCommand (s : State) (h : Word) : State :=
  match s.eng.links.find? fun x => x.handle == h with
  | some x => sendFlits h (x.flits - x.sent) (writeData h x.data.length s)
  | none => advancePin s h

/-! ### The ends of records (R229) -/

/-- A command leaves its engine; a miss record it stalled on loses a waiter. Matrix entries end by themselves (R259). -/
def dropCommand (s : State) (h : Word) : State :=
  let stalls := (s.eng.copies.filter fun x => x.handle == h).filterMap (·.stall) ++
    (s.eng.links.filter fun x => x.handle == h).filterMap (·.stall) ++
    (s.eng.pins.filter fun x => x.handle == h).filterMap (·.stall)
  let s := stalls.foldl (fun s r => leaveMiss s r.1 r.2 (engineWho h)) s
  { s with eng := { s.eng with
      copies := s.eng.copies.filter fun x => x.handle != h
      links := s.eng.links.filter fun x => x.handle != h
      pins := s.eng.pins.filter fun x => x.handle != h } }

/-- How a pending record's command stands: done, or failed with a code, and the writes it performed. Matrix entries end
their records themselves (R256). -/
inductive CommandSt where
  | running
  | done (writes : List Known)
  | failed (code : Nat) (writes : List Known)
  | cancelled (writes : List Known)
  deriving DecidableEq, Repr

/-- The state of a join (R245). -/
def joinState (s : State) (a b : Word) : CommandSt :=
  if handlePending s a || handlePending s b then .running
  else
    let of := fun (h : Word) => if handleNull h || !handleCurrent s h then FutSt.done else (futureOf s h).st
    let pub := joinKnown (handlePub s a) (handlePub s b)
    if of a = .failed then .failed (futureOf s a).err pub
    else if of b = .failed then .failed (futureOf s b).err pub
    else if of a = .cancelled ∨ of b = .cancelled then .cancelled pub
    else .done pub

/-- The state of the command behind a record. -/
def commandState (s : State) (c r : Nat) : CommandSt :=
  let f := lookD (lookD s.ctxs c {}).futures r {}
  let h := handleOf c r f.gen
  match f.join with
  | some (a, b) => joinState s a b
  | none =>
    match s.eng.copies.find? fun x => x.handle == h with
    | some x =>
      match x.err with
      | some e => .failed e x.writes
      | none => if x.waiting.isEmpty && x.started.isEmpty then .done x.writes else .running
    | none =>
      match s.eng.links.find? fun x => x.handle == h with
      | some x =>
        match x.err with
        | some e => .failed e x.writes
        | none => if x.acked ≥ x.flits then .done x.writes else .running
      | none =>
        match s.eng.pins.find? fun x => x.handle == h with
        | some x =>
          match x.err with
          | some e => .failed e []
          | none => if x.vas.isEmpty then .done [] else .running
        | none => .running

/-- The record and the command behind it end; the end of a link command is a release at system scope (R211, R221, R419). -/
def endCommand (s : State) (c r : Nat) (st : FutSt) (err : Nat) (writes : List Known) : State :=
  let f := lookD (lookD s.ctxs c {}).futures r {}
  let h := handleOf c r f.gen
  let link := s.eng.links.any fun x => x.handle == h
  let s := dropCommand (endFuture s c r st err writes) h
  if link then sendTokens s (joinKnown writes f.know) else s

/-- A record that is pending. -/
def isPending (s : State) (c r : Nat) : Bool := (lookD (lookD s.ctxs c {}).futures r {}).st == .pending

/-- FUTURE_DONE: a command that goes on by itself has performed its last access; a join whose constituents are final takes
its state (R229, R245). Its operand is the context and the record. -/
def execFutureDone (s : State) : Out :=
  match s.arg with
  | .two c r =>
    if isPending s c r then
      let s := advanceCommand s (handleOf c r (lookD (lookD s.ctxs c {}).futures r {}).gen)
      match commandState s c r with
      | .done ws => .next (endCommand s c r .done 0 ws)
      | .cancelled ws => .next (endCommand s c r .cancelled 0 ws)
      | _ => .next s
    else .next s
  | _ => .next s

/-- FUTURE_FAIL: a command failed; its record takes the error code (R229, R238, R245). Its operand is the context and the
record. -/
def execFutureFail (s : State) : Out :=
  match s.arg with
  | .two c r =>
    if isPending s c r then
      match commandState s c r with
      | .failed e ws => .next (endCommand s c r .failed e ws)
      | _ => .next s
    else .next s
  | _ => .next s

/-- The writes that a command has performed. -/
def writesOf (s : State) (h : Word) : List Known :=
  ((s.eng.copies.filter fun x => x.handle == h).flatMap (·.writes)) ++
    ((s.eng.links.filter fun x => x.handle == h).flatMap (·.writes))

/-- The matrix entry of a handle, with its core. -/
def entryOf (s : State) (h : Word) : Option (Nat × MEntry) :=
  s.eng.mq.findSome? fun e => (e.2.find? fun x => x.handle == h).map fun x => (e.1, x)

/-- CANCEL_REACH: a cancel reaches a pending record. A command that has performed its last access is done instead (R229,
R243). Its operand is the context and the record. -/
def execCancelReach (s : State) : Out :=
  match s.arg with
  | .two c r =>
    let f := lookD (lookD s.ctxs c {}).futures r {}
    let h := handleOf c r f.gen
    if f.st = .pending ∧ f.cancel then
      match entryOf s h with
      | some (core, e) =>
        .next (cancelEntry (setFuture s c r fun f => { f with cancel := false }) core e)
      | none =>
        match commandState s c r with
        | .done ws => .next (endCommand s c r .done 0 ws)
        | .failed e ws => .next (endCommand s c r .failed e ws)
        | _ =>
          let s := endCommand s c r .cancelled 0 (writesOf s h)
          .next { s with eng := { s.eng with waiting := s.eng.waiting.filter fun e => e.2.handle != h } }
    else .next s
  | _ => .next s

/-- The pending records of every context. -/
def pendingRecords (s : State) : List (Nat × Nat × Future) :=
  s.ctxs.flatMap fun c => (c.2.futures.filter fun r => r.2.st == .pending).map fun r => (c.1, r.1, r.2)

/-- Whether a command can go on by itself. -/
def canAdvance (s : State) (h : Word) : Bool :=
  (s.eng.pins.any fun x => x.handle == h && x.stall.isNone && x.err.isNone) ||
    s.eng.links.any fun x => x.handle == h && (maySend s x || mayWriteData s x)

/-- The ends of records that may take place. -/
def dueEnds (s : State) : List Happening :=
  (pendingRecords s).flatMap fun (c, r, f) =>
    (if f.cancel then [⟨.cancelReach, .two c r⟩] else []) ++
    match commandState s c r with
    | .running => if canAdvance s (handleOf c r f.gen) then [⟨.futureDone, .two c r⟩] else []
    | .failed _ _ => [⟨.futureFail, .two c r⟩]
    | _ => [⟨.futureDone, .two c r⟩]

end Sys2Proof.Machine
end

