-- ==== Sys2Proof/Machine/Contexts.lean ====
section
/-!
DEFINITION. CONTEXT_SET and the life of a context (R156 to R166).
-/

namespace Sys2Proof.Machine
open Sys2Proof

/-- The op, the context and the record of a CONTEXT_SET (R166). -/
structure ContextSet where
  op : Nat
  ctx : Nat
  mbz : Bool
  record : Nat
  deriving DecidableEq, Repr

/-- The fields of the packet. -/
def contextSet (p : Packet) : ContextSet :=
  { op := bits p.body 63 56, ctx := bits p.body 5 0, mbz := bits p.body 55 6 == 0, record := p.body / 2 ^ 64 }

/-- The context that a record describes at its creation (R156, R161). -/
def contextOf (x : Nat) : Context :=
  let seed := BitVec.ofNat 64 (bits x 63 0)
  { st := .active, pinQuota := bits x 255 232, spillQuota := bits x 231 208, saveQuota := bits x 207 192
    bankKey := bits x 191 176, keyBase := bits x 175 167, keyCount := bits x 166 157, prio := bit x 156
    ptBase := bits x 127 64, seedInit := seed, seeds := [seed] }

/-- Whether a record keeps R156 and R157. -/
def recordOk (x : Nat) : Bool :=
  bits x 155 128 == 0 && bits x 76 64 == 0 && decide (bits x 175 167 + bits x 166 157 ≤ 512)

/-- A row of CONTEXT_SET: the packet must come from the supervisor's queue with a control word in its map; a code that
names no op goes to CREATE's row. A rejection names the packet's context (R161, R166). -/
def onContextSet (s : State) (mine : Nat → Bool) (f : Nat → ContextSet → State → Option State) : Out :=
  match s.arg with
  | .one cq =>
    match packetAt s cq with
    | some p =>
      if mine (contextSet p).op then
        onFresh s 12 40 fun cq p s =>
          let x := contextSet p
          if !p.sup || !x.mbz || decide (x.op > 2) then rejectFor s cq p x.ctx
          else match f x.ctx x s with
            | some s => takePacket s cq p
            | none => rejectFor s cq p x.ctx
      else .next s
    | none => .next s
  | _ => .next s

/-- CONTEXT_CREATE: a free context becomes active, with nothing left of what its number was before (R155, R161). Its operand is the queue. -/
def execContextCreate (s : State) : Out :=
  onContextSet s (fun op => op == 0 || decide (op > 2)) fun c x s =>
    if (lookD s.ctxs c {}).st ≠ .free ∨ ¬ recordOk x.record then none
    else
      let s := forgetCtx s c
      some { s with ctxs := put s.ctxs c (contextOf x.record) }

/-- CONTEXT_MODIFY: quotas and class of an active context change, and nothing else may (R160). Its operand is the queue. -/
def execContextModify (s : State) : Out :=
  onContextSet s (· == 1) fun c x s =>
    let old := lookD s.ctxs c {}
    let new := contextOf x.record
    if old.st ≠ .active ∨ ¬ recordOk x.record ∨ new.bankKey ≠ old.bankKey ∨ new.keyBase ≠ old.keyBase ∨
        new.keyCount ≠ old.keyCount ∨ new.ptBase ≠ old.ptBase ∨ new.seedInit ≠ old.seedInit then none
    else some (setCtx s c fun o => { o with
      pinQuota := new.pinQuota, spillQuota := new.spillQuota, saveQuota := new.saveQuota, prio := new.prio })

/-! ### Teardown (R161) -/

/-- The strands of a context removed as by EXITS (R161). -/
def removeStrands (s : State) (c : Nat) : State :=
  (s.strands.filter fun e => e.2.ctx == c).foldl (fun s e => retireStrand s e.1) s

/-- The braids of a context that are left, whose staged writes are discarded, are released (R161; log 41). -/
def removeBraids (s : State) (c : Nat) : State :=
  (s.braids.filter fun e => e.2.ctx == c).foldl (fun s e => releaseBraid s e.1) s

/-- The engine operations of a context cancelled: their futures end failed with code 0x80 (R161, R229). -/
def cancelEngines (s : State) (c : Nat) : State :=
  let s := (lookD s.ctxs c {}).futures.foldl (fun s e =>
    if e.2.st = .pending then endCommand s c e.1 .failed 0x80 (writesOf s (handleOf c e.1 e.2.gen)) else s) s
  let mine := fun (h : Word) => handleCtx h == c
  let s := ((s.eng.mq.flatMap (·.2)).filter fun e => e.ctx == c).foldl (fun s e =>
    match e.stall with | some r => leaveMiss s r.1 r.2 (engineWho e.handle) | none => s) s
  let s := setLines s (s.vaults.lines.map fun l => { l with pinMma := l.pinMma.filter fun p => !mine p.2 })
  { s with eng := { s.eng with
      mq := s.eng.mq.map fun q => (q.1, q.2.filter fun e => e.ctx != c)
      waiting := s.eng.waiting.filter fun e => e.2.ctx != c } }

/-- The kernels of a context that have not ended end with error 0x480 (R161, R283). -/
def endKernels (s : State) (c : Nat) : State :=
  discardKernels s ((s.cmd.kernels.filter fun e => e.2.ctx == c).map (·.1)) 0x480

/-- CONTEXT_DESTROY: the context drains (R161). Its operand is the queue. -/
def execContextDestroy (s : State) : Out :=
  onContextSet s (· == 2) fun c _ s =>
    if (lookD s.ctxs c {}).st ≠ .active then none
    else
      let s := setCtx s c fun o => { o with st := .draining }
      some (cancelEngines (removeBraids (removeStrands (endKernels s c) c) c) c)

/-- Whether something of a context is still to end: a braid, an engine operation, an access of a strand that was removed, a
launch that was handed over, or a kernel whose completion signal is to be written (R161 to R163, R283). -/
def ctxBusy (s : State) (c : Nat) : Bool :=
  (s.flight.stores.any fun x => x.ctx == c) || (s.flight.atoms.any fun x => x.ctx == c) ||
    (s.flight.launches.any fun x => x.ctx == c) || (s.cmd.kernels.any fun k => k.2.ctx == c) ||
    (s.braids.any fun e => e.2.ctx == c) || ((lookD s.ctxs c {}).futures.any fun f => f.2.st == .pending) ||
    (s.eng.copies.any fun x => x.ctx == c) || (s.eng.links.any fun x => x.ctx == c) || (s.eng.pins.any fun x => x.ctx == c) ||
    (s.eng.mq.any fun q => q.2.any fun e => e.ctx == c)

/-- CONTEXT_DRAINED: the context enters zeroing; its queues are freed, and its translations leave the caches, its misses their
records (R155, R161, R163, R290). Its operand is the context. -/
def execContextDrained (s : State) : Out :=
  match s.arg with
  | .one c =>
    if (lookD s.ctxs c {}).st ≠ .draining ∨ ctxBusy s c then .next s
    else
      let s := (s.queues.filter fun e => e.2.ctx == c && e.2.st != .free).foldl (fun s e => freeQueue s e.1) s
      .next (setCtx (forgetCtx s c) c fun o => { o with st := .zeroing })
  | _ => .next s

/-- Whether every resource of a context is zeroed. -/
def ctxClean (s : State) (c : Nat) : Bool := !s.trans.zeroing.any fun z => z.ctx == some c

/-- CONTEXT_ZEROED: the context is free, nothing translated for it is left, and CONTEXT_FREE is posted (R161). Its operand is the context. -/
def execContextZeroed (s : State) : Out :=
  match s.arg with
  | .one c =>
    if (lookD s.ctxs c {}).st ≠ .zeroing ∨ ¬ ctxClean s c then .next s
    else
      let s := forgetCtx s c
      .next (postEvent { s with ctxs := del s.ctxs c } 0xFFFF c 0x0002 0)
  | _ => .next s

/-- The steps of a teardown that may take place. -/
def dueContexts (s : State) : List Happening :=
  s.ctxs.flatMap fun e =>
    (if e.2.st = .draining ∧ ¬ ctxBusy s e.1 then [⟨.contextDrained, .one e.1⟩] else []) ++
    (if e.2.st = .zeroing ∧ ctxClean s e.1 then [⟨.contextZeroed, .one e.1⟩] else [])

end Sys2Proof.Machine
end

