-- ==== Sys2Proof/Machine/FloatOps.lean ====
section
/-!
DEFINITION. The floating-point and conversion instructions (R118 to R132).
-/

namespace Sys2Proof.Machine
open Sys2Proof

/-- Draw(j) of R153. -/
def drawWord (s : State) (st : Strand) (j : Nat) : Word :=
  let lo := drawLo (st.kernel * 2 ^ 32 + (braidOf s st).index) ((st.sx * st.width + j) * 2 ^ 32 + st.draw.toNat)
    (kernelOf s st).seed.toNat
  BitVec.ofNat 32 (lo / 2 ^ 32)

/-- The draw index moves on (R152). -/
def advanceDraw (i : Issue) : Issue := { i with st := { i.st with draw := i.st.draw + 1 } }

/-- FADD (R120). -/
def execFadd (d a b : Reg) (ea eb : Bool) (s : State) : Out :=
  onStrand s (form2 d a b ea eb fun x y => rn (fAddVal (fp x) (fp y)))

/-- FSUB (R120). -/
def execFsub (d a b : Reg) (ea eb : Bool) (s : State) : Out :=
  onStrand s (form2 d a b ea eb fun x y => rn (fAddVal (fp x) (fNegVal (fp y))))

/-- FMUL (R120). -/
def execFmul (d a b : Reg) (ea eb : Bool) (s : State) : Out :=
  onStrand s (form2 d a b ea eb fun x y => rn (fMulVal (fp x) (fp y)))

/-- FFMA (R120). -/
def execFfma (d a b : Reg) (ea eb : Bool) (s : State) : Out :=
  onStrand s (form3 d a b ea eb (fusedOf false false))

/-- FFMS (R120). -/
def execFfms (d a b : Reg) (ea eb : Bool) (s : State) : Out :=
  onStrand s (form3 d a b ea eb (fusedOf false true))

/-- FNMA (R120). -/
def execFnma (d a b : Reg) (ea eb : Bool) (s : State) : Out :=
  onStrand s (form3 d a b ea eb (fusedOf true false))

/-- FNMS (R120). -/
def execFnms (d a b : Reg) (ea eb : Bool) (s : State) : Out :=
  onStrand s (form3 d a b ea eb (fusedOf true true))

/-- FMIN (R121). -/
def execFmin (d a b : Reg) (ea eb : Bool) (s : State) : Out :=
  onStrand s (form2 d a b ea eb (fPick false false))

/-- FMAX (R121). -/
def execFmax (d a b : Reg) (ea eb : Bool) (s : State) : Out :=
  onStrand s (form2 d a b ea eb (fPick true false))

/-- FMINN (R121). -/
def execFminn (d a b : Reg) (ea eb : Bool) (s : State) : Out :=
  onStrand s (form2 d a b ea eb (fPick false true))

/-- FMAXN (R121). -/
def execFmaxn (d a b : Reg) (ea eb : Bool) (s : State) : Out :=
  onStrand s (form2 d a b ea eb (fPick true true))

/-- FCEQ (R122). -/
def execFceq (d a b : Reg) (ea eb : Bool) (s : State) : Out :=
  onStrand s (form2 d a b ea eb condFeq)

/-- FCLT (R122). -/
def execFclt (d a b : Reg) (ea eb : Bool) (s : State) : Out :=
  onStrand s (form2 d a b ea eb condFlt)

/-- FCLE (R122). -/
def execFcle (d a b : Reg) (ea eb : Bool) (s : State) : Out :=
  onStrand s (form2 d a b ea eb condFle)

/-- FCUN (R122). -/
def execFcun (d a b : Reg) (ea eb : Bool) (s : State) : Out :=
  onStrand s (form2 d a b ea eb condFun)

/-- FABS (R123). -/
def execFabs (d a : Reg) (ea : Bool) (s : State) : Out := onStrand s (form1 d a ea fAbsOf)

/-- FNEG (R123). -/
def execFneg (d a : Reg) (ea : Bool) (s : State) : Out := onStrand s (form1 d a ea fNegOf)

/-- FCLASS (R123). -/
def execFclass (d a : Reg) (ea : Bool) (s : State) : Out := onStrand s (form1 d a ea classMask)

/-- FRNE (R124). -/
def execFrne (d a : Reg) (ea : Bool) (s : State) : Out := onStrand s (form1 d a ea (fRoundOf .rne))

/-- FRTZ (R124). -/
def execFrtz (d a : Reg) (ea : Bool) (s : State) : Out := onStrand s (form1 d a ea (fRoundOf .rtz))

/-- FRDN (R124). -/
def execFrdn (d a : Reg) (ea : Bool) (s : State) : Out := onStrand s (form1 d a ea (fRoundOf .rdn))

/-- FRUP (R124). -/
def execFrup (d a : Reg) (ea : Bool) (s : State) : Out := onStrand s (form1 d a ea (fRoundOf .rup))

/-- CVTUF (R125). -/
def execCvtuf (d a : Reg) (ea : Bool) (s : State) : Out := onStrand s (form1 d a ea cvtUf)

/-- CVTSF (R125). -/
def execCvtsf (d a : Reg) (ea : Bool) (s : State) : Out := onStrand s (form1 d a ea cvtSf)

/-- CVTFU (R125). -/
def execCvtfu (d a : Reg) (ea : Bool) (s : State) : Out := onStrand s (form1 d a ea cvtFu)

/-- CVTFS (R125). -/
def execCvtfs (d a : Reg) (ea : Bool) (s : State) : Out := onStrand s (form1 d a ea cvtFs)

/-- One bead's part of CVTN: the draw of a uniform form is that of bead 0 (R131). -/
def cvtnBead (d a : Reg) (fmt : Fmt) (rnd : Rnd) (sat : Bool) (pos : BitVec 2) (ea : Bool) (j : Nat) (i : Issue) : BeadOut :=
  let r := (drawWord i.s i.st (if j = 255 then 0 else j)).toNat % 2 ^ 16
  beadOp [src a ea, srcW d] [d] (fun vs => [cvtNarrow fmt rnd sat pos.toNat r (nth vs 0) (nth vs 1)]) j i

/-- CVTN (R129 to R131). -/
def execCvtn (d a : Reg) (fmt : Fmt) (rnd : Rnd) (sat : Bool) (pos : BitVec 2) (ea : Bool) (s : State) : Out :=
  onStrand s fun i =>
    guarded i (isPort d) (dstOk i.st d && !isPort d && srcOk i.st a && classOk d [a])
      (((if allUniform [d, a] then runUniform (cvtnBead d a fmt rnd sat pos ea 255) i
         else runBeads (cvtnBead d a fmt rnd sat pos ea) i).andThen fun i =>
        .ok (if rnd = .sr then advanceDraw i else i)).andThen advance)

/-- CVTW (R132). -/
def execCvtw (d a : Reg) (fmt : Fmt) (pos : BitVec 3) (ea : Bool) (s : State) : Out :=
  onStrand s (form1 d a ea fun x => cvtWiden fmt pos.toNat x)

/-- BADD2 (R127). -/
def execBadd2 (d a b : Reg) (ea eb : Bool) (s : State) : Out :=
  onStrand s (form2 d a b ea eb fun x y => packed2 .bf16 (fun x y _ => fAddVal x y) x y 0)

/-- BMUL2 (R127). -/
def execBmul2 (d a b : Reg) (ea eb : Bool) (s : State) : Out :=
  onStrand s (form2 d a b ea eb fun x y => packed2 .bf16 (fun x y _ => fMulVal x y) x y 0)

/-- HADD2 (R127). -/
def execHadd2 (d a b : Reg) (ea eb : Bool) (s : State) : Out :=
  onStrand s (form2 d a b ea eb fun x y => packed2 .fp16 (fun x y _ => fAddVal x y) x y 0)

/-- HMUL2 (R127). -/
def execHmul2 (d a b : Reg) (ea eb : Bool) (s : State) : Out :=
  onStrand s (form2 d a b ea eb fun x y => packed2 .fp16 (fun x y _ => fMulVal x y) x y 0)

/-- BFMA2 (R127). -/
def execBfma2 (d a b : Reg) (ea eb : Bool) (s : State) : Out :=
  onStrand s (form3 d a b ea eb (packed2 .bf16 fun x y z => fAddVal (fMulVal x y) z))

/-- HFMA2 (R127). -/
def execHfma2 (d a b : Reg) (ea eb : Bool) (s : State) : Out :=
  onStrand s (form3 d a b ea eb (packed2 .fp16 fun x y z => fAddVal (fMulVal x y) z))

/-- IDOT4SS (R128). -/
def execIdot4ss (d a b : Reg) (ea eb : Bool) (s : State) : Out :=
  onStrand s (form3 d a b ea eb (idot4 true true))

/-- IDOT4UU (R128). -/
def execIdot4uu (d a b : Reg) (ea eb : Bool) (s : State) : Out :=
  onStrand s (form3 d a b ea eb (idot4 false false))

/-- IDOT4SU (R128). -/
def execIdot4su (d a b : Reg) (ea eb : Bool) (s : State) : Out :=
  onStrand s (form3 d a b ea eb (idot4 true false))

/-- IDOT4US (R128). -/
def execIdot4us (d a b : Reg) (ea eb : Bool) (s : State) : Out :=
  onStrand s (form3 d a b ea eb (idot4 false true))

/-- FSCL (R126). -/
def execFscl (d a b : Reg) (ea eb : Bool) (s : State) : Out :=
  onStrand s (form2 d a b ea eb fScale)

/-- FEXP (R126). -/
def execFexp (d a : Reg) (ea : Bool) (s : State) : Out := onStrand s (form1 d a ea fExpOf)

/-- FMNT (R126). -/
def execFmnt (d a : Reg) (ea : Bool) (s : State) : Out := onStrand s (form1 d a ea fMntOf)

end Sys2Proof.Machine
end

