-- ==== Sys2Proof/Machine/Exchange.lean ====
section
/-!
DEFINITION. The exchange instructions (R137 to R154).
-/

namespace Sys2Proof.Machine
open Sys2Proof

/-! ### The shape of an exchange form (R138 to R140) -/

/-- The values of one active bead's sources. -/
structure Lane where
  bead : Nat
  vals : List Word
  deriving DecidableEq, Repr

/-- Value n of a bead's sources. -/
def Lane.at (l : Lane) (n : Nat) : Word := nth l.vals n

/-- The empty registers among a list, over a list of beads. -/
def emptyOver (st : Strand) (act : List Nat) (rs : List Reg) : List RKey :=
  act.flatMap fun j => (rs.filter fun r => !(fillOf st j r).isFull).flatMap fun r => regKeys st j [r]

/-- The test of every source before the first bead (R139): the EMPTY_READ, or the registers waited for, among them an empty d that
the form only writes (R43; log 118). -/
def exchangeTest (st : Strand) (act : List Nat) (srcs : List Src) (dsts : List Reg) : Option (TrapInfo ⊕ Wait) :=
  match srcs.find? fun x => x.e && act.any fun j => !(fillOf st j x.reg).isFull with
  | some x => some (.inl { emptyRead x with bead := some 255 })
  | none =>
    match emptyOver st act (srcs.map (·.reg) ++ dsts) with
    | [] => none
    | ks => some (.inr (.regs ks))

/-- The values of the sources for every bead, read before any is written (R138); registers that a future filled are
acquired (R211). -/
def readLanes (i : Issue) (act : List Nat) (rs : List Reg) : List Lane × Issue :=
  (act.map fun j => { bead := j, vals := rs.map (readReg i.st j) },
   act.foldl (fun i j => acquireRegs i j rs) i)

/-- Results written, in order. -/
def writeLanes (st : Strand) (dsts : List Reg) (rs : List Lane) : Strand :=
  rs.foldl (fun st l => (List.zip dsts l.vals).foldl (fun st e => writeReg st l.bead e.1 e.2) st) st

/-- An exchange form: no q-port, the class rules in `ok`; a uniform form runs as for bead 0 (R137, R139, R140). A q-port
as destination is a register write to a port, which a handler may not make (R398; log 99). `post` is what follows the last bead.
Resumed by RTT with no active bead left it has no effect (R410). -/
def exchangeThen (post : Issue → Issue) (ok : Bool) (d : Reg) (dsts : List Reg) (srcs : List Src)
    (f : Nat → List Lane → List Lane) (i : Issue) : BeadOut :=
  let rs := srcs.map (·.reg)
  let uniform := allUniform (d :: rs)
  guarded i (isPort d) (ok && !isPort d && rs.all fun r => !isPort r)
    (let act := if uniform then [0] else beadsLeft i.st
     let i := { i with st := { i.st with pos := if uniform then 255 else act.headD 0 } }
     if act.isEmpty then advance i
     else match exchangeTest i.st act srcs dsts with
     | some (.inl t) => .trap t i
     | some (.inr w) => .block w i
     | none =>
      let (ls, i) := readLanes i act rs
      advance (post { i with st := writeLanes i.st dsts (f i.st.width ls) }))

/-- An exchange form after whose last bead nothing follows. -/
def exchange (ok : Bool) (d : Reg) (dsts : List Reg) (srcs : List Src) (f : Nat → List Lane → List Lane)
    (i : Issue) : BeadOut := exchangeThen id ok d dsts srcs f i

/-- d of the bead class, or uniform when every source is (R142). -/
def beadDstOk (st : Strand) (d : Reg) (rs : List Reg) : Bool := dstOk st d && rs.all (srcOk st) && classOk d rs

/-- d uniform. -/
def uniResultOk (st : Strand) (d : Reg) (rs : List Reg) : Bool := !isBead d && dstOk st d && rs.all (srcOk st)

/-! ### What the forms compute -/

/-- A running value c through the beads: its value before (exclusive) or after (inclusive) each bead (R143). -/
def scanLanes {α : Type} (exclusive : Bool) (out : α → Word) (step : α → Lane → α) : α → List Lane → List Lane
  | _, [] => []
  | c, l :: t =>
    let c' := step c l
    { l with vals := [out (if exclusive then c else c')] } :: scanLanes exclusive out step c' t

/-- SCANI, SCANX, SCANF, SCANFX: the carry-in is b, as `out` writes it (R143). -/
def scanFrom (exclusive : Bool) (out : Word → Word) (add : Word → Word → Word) (ls : List Lane) : List Lane :=
  scanLanes exclusive out (fun c l => add c (l.at 0)) (match ls with | l :: _ => l.at 1 | [] => 0) ls

/-- An FP32 result: a NaN is the canonical one (R18, R118). -/
def canonNan (x : Word) : Word := match fp x with | .nan => nan32 | _ => x

/-- The inclusive scans of an operation without a carry-in (R143). -/
def scanOp (op : Word → Word → Word) (ls : List Lane) : List Lane :=
  scanLanes false (fun c => c.getD 0) (fun c l => match c with
    | none => some (l.at 0)
    | some x => some (op x (l.at 0))) none ls

/-- The segmented scans: the first active bead and every set flag opens a segment (R144). -/
def segScan (exclusive : Bool) (add : Word → Word → Word) : Bool → Word → List Lane → List Lane
  | _, _, [] => []
  | first, c, l :: t =>
    let c := if first || l.at 1 != 0 then 0 else c
    let c' := add c (l.at 0)
    { l with vals := [if exclusive then c else c'] } :: segScan exclusive add false c' t

/-- FP32 addition (R143). -/
def fAddWord (x y : Word) : Word := rn (fAddVal (fp x) (fp y))

/-- The values of a as a fold from the first active bead (R145). -/
def foldLanes (op : Word → Word → Word) (ls : List Lane) : Word :=
  match ls with
  | [] => 0
  | l :: t => t.foldl (fun c x => op c (x.at 0)) (l.at 0)

/-- A uniform result. -/
def oneResult (v : Word) : List Lane := [{ bead := 0, vals := [v] }]

/-- The mask of the beads that meet a test, with bit j for bead j (R145). -/
def maskOf (ls : List Lane) (p : Lane → Bool) : DWord :=
  ls.foldl (fun m l => if p l then m ||| (1 <<< l.bead) else m) 0

/-- a of bead k, where it is active; 0 otherwise (R146, R148). -/
def laneAt (ls : List Lane) (k : Nat) : Word :=
  match ls.find? fun l => l.bead == k with
  | some l => l.at 0
  | none => 0

/-- The lane of position m among n, positions taken modulo n. -/
def laneNo (ls : List Lane) (m : Nat) : Lane := ls.getD (m % max 1 ls.length) ⟨0, []⟩

/-- Each bead's result from its position (R147). -/
def byRank (ls : List Lane) (f : Nat → Lane → Word) : List Lane :=
  (List.zip (List.range ls.length) ls).map fun e => { e.2 with vals := [f e.1 e.2] }

/-- PERMS: the active beads' old d, then the scattered values in issue order (R148). -/
def permScatter (ls : List Lane) : List Lane :=
  let start := ls.map fun l => (l.bead, l.at 2)
  let moved := ls.foldl (fun acc l =>
    acc.map fun e => if e.1 = (l.at 1).toNat then (e.1, l.at 0) else e) start
  moved.map fun e => { bead := e.1, vals := [e.2] }

/-- Whether key x stands before key y (R149); equal keys keep their source order. -/
def sortsBefore (ascending : Bool) (x y : Word) : Bool :=
  match fp x, fp y with
  | .nan, _ => false
  | _, .nan => true
  | u, v => if ascending then fBelow u v else fBelow v u

/-- An entry inserted after all that it does not stand before. -/
def insertKey (ascending : Bool) (e : Word × Word) : List (Word × Word) → List (Word × Word)
  | [] => [e]
  | x :: t => if sortsBefore ascending e.1 x.1 then e :: x :: t else x :: insertKey ascending e t

/-- Keys with payloads in order (R149). -/
def sortKeys (ascending : Bool) (l : List (Word × Word)) : List (Word × Word) :=
  l.foldl (fun acc e => insertKey ascending e acc) []

/-- The top-k forms: entries of d first when they are merged (R150). -/
def topK (ascending merge : Bool) (ls : List Lane) : List Lane :=
  let old := if merge then ls.map fun l => (l.at 2, l.at 3) else []
  let new := ls.map fun l => (l.at 0, l.at 1)
  let sorted := sortKeys ascending (old ++ new)
  (List.zip ls sorted).map fun e => { bead := e.1.bead, vals := [e.2.1, e.2.2] }

/-! ### Instructions -/

/-- SCANI (R143). -/
def execScani (d a b : Reg) (ea eb : Bool) (s : State) : Out :=
  onStrand s fun i => exchange (beadDstOk i.st d [a, b] && !isBead b) d [d] [src a ea, src b eb]
    (fun _ => scanFrom false id (fun x y => x + y)) i

/-- SCANX (R143). -/
def execScanx (d a b : Reg) (ea eb : Bool) (s : State) : Out :=
  onStrand s fun i => exchange (beadDstOk i.st d [a, b] && !isBead b) d [d] [src a ea, src b eb]
    (fun _ => scanFrom true id (fun x y => x + y)) i

/-- SCANF (R143). -/
def execScanf (d a b : Reg) (ea eb : Bool) (s : State) : Out :=
  onStrand s fun i => exchange (beadDstOk i.st d [a, b] && !isBead b) d [d] [src a ea, src b eb]
    (fun _ => scanFrom false canonNan fAddWord) i

/-- SCANFX (R143). -/
def execScanfx (d a b : Reg) (ea eb : Bool) (s : State) : Out :=
  onStrand s fun i => exchange (beadDstOk i.st d [a, b] && !isBead b) d [d] [src a ea, src b eb]
    (fun _ => scanFrom true canonNan fAddWord) i

/-- SCANMAXS (R143). -/
def execScanmaxs (d a : Reg) (ea : Bool) (s : State) : Out :=
  onStrand s fun i => exchange (beadDstOk i.st d [a]) d [d] [src a ea]
    (fun _ => scanOp (maxS)) i

/-- SCANMINS (R143). -/
def execScanmins (d a : Reg) (ea : Bool) (s : State) : Out :=
  onStrand s fun i => exchange (beadDstOk i.st d [a]) d [d] [src a ea]
    (fun _ => scanOp (minS)) i

/-- SCANMAXU (R143). -/
def execScanmaxu (d a : Reg) (ea : Bool) (s : State) : Out :=
  onStrand s fun i => exchange (beadDstOk i.st d [a]) d [d] [src a ea]
    (fun _ => scanOp (maxU)) i

/-- SCANMINU (R143). -/
def execScanminu (d a : Reg) (ea : Bool) (s : State) : Out :=
  onStrand s fun i => exchange (beadDstOk i.st d [a]) d [d] [src a ea]
    (fun _ => scanOp (minU)) i

/-- SCANAND (R143). -/
def execScanand (d a : Reg) (ea : Bool) (s : State) : Out :=
  onStrand s fun i => exchange (beadDstOk i.st d [a]) d [d] [src a ea]
    (fun _ => scanOp (fun x y => x &&& y)) i

/-- SCANOR (R143). -/
def execScanor (d a : Reg) (ea : Bool) (s : State) : Out :=
  onStrand s fun i => exchange (beadDstOk i.st d [a]) d [d] [src a ea]
    (fun _ => scanOp (fun x y => x ||| y)) i

/-- SCANXOR (R143). -/
def execScanxor (d a : Reg) (ea : Bool) (s : State) : Out :=
  onStrand s fun i => exchange (beadDstOk i.st d [a]) d [d] [src a ea]
    (fun _ => scanOp (fun x y => x ^^^ y)) i

/-- SSCANI (R144). -/
def execSscani (d a b : Reg) (ea eb : Bool) (s : State) : Out :=
  onStrand s fun i => exchange (beadDstOk i.st d [a, b]) d [d] [src a ea, src b eb]
    (fun _ => segScan false (fun x y => x + y) true 0) i

/-- SSCANX (R144). -/
def execSscanx (d a b : Reg) (ea eb : Bool) (s : State) : Out :=
  onStrand s fun i => exchange (beadDstOk i.st d [a, b]) d [d] [src a ea, src b eb]
    (fun _ => segScan true (fun x y => x + y) true 0) i

/-- SSCANF (R144). -/
def execSscanf (d a b : Reg) (ea eb : Bool) (s : State) : Out :=
  onStrand s fun i => exchange (beadDstOk i.st d [a, b]) d [d] [src a ea, src b eb]
    (fun _ => segScan false fAddWord true 0) i

/-- SSCANFX (R144). -/
def execSscanfx (d a b : Reg) (ea eb : Bool) (s : State) : Out :=
  onStrand s fun i => exchange (beadDstOk i.st d [a, b]) d [d] [src a ea, src b eb]
    (fun _ => segScan true fAddWord true 0) i

/-- REDI (R145). -/
def execRedi (d a : Reg) (ea : Bool) (s : State) : Out :=
  onStrand s fun i => exchange (uniResultOk i.st d [a]) d [d] [src a ea]
    (fun _ ls => oneResult (foldLanes (fun x y => x + y) ls)) i

/-- REDF (R145); a result that is NaN is the canonical one, over one bead too (R18; log 98). -/
def execRedf (d a : Reg) (ea : Bool) (s : State) : Out :=
  onStrand s fun i => exchange (uniResultOk i.st d [a]) d [d] [src a ea]
    (fun _ ls => oneResult (canonNan (foldLanes fAddWord ls))) i

/-- REDMAX (R145). -/
def execRedmax (d a : Reg) (ea : Bool) (s : State) : Out :=
  onStrand s fun i => exchange (uniResultOk i.st d [a]) d [d] [src a ea]
    (fun _ ls => oneResult (foldLanes maxS ls)) i

/-- REDMIN (R145). -/
def execRedmin (d a : Reg) (ea : Bool) (s : State) : Out :=
  onStrand s fun i => exchange (uniResultOk i.st d [a]) d [d] [src a ea]
    (fun _ ls => oneResult (foldLanes minS ls)) i

/-- VANY (R145). -/
def execVany (d a : Reg) (ea : Bool) (s : State) : Out :=
  onStrand s fun i => exchange (uniResultOk i.st d [a]) d [d] [src a ea]
    (fun _ ls => oneResult (ofBool (ls.any fun l => l.at 0 != 0))) i

/-- VALL (R145). -/
def execVall (d a : Reg) (ea : Bool) (s : State) : Out :=
  onStrand s fun i => exchange (uniResultOk i.st d [a]) d [d] [src a ea]
    (fun _ ls => oneResult (ofBool (ls.all fun l => l.at 0 != 0))) i

/-- VBAL (R145). -/
def execVbal (d a : Reg) (ea : Bool) (s : State) : Out :=
  onStrand s fun i => exchange (uniPairOk i.st d && srcOk i.st a) d (pairOf d) [src a ea]
    (fun _ ls => [{ bead := 0, vals := words64 (maskOf ls fun l => l.at 0 != 0) }]) i

/-- VCNT (R145). -/
def execVcnt (d a : Reg) (ea : Bool) (s : State) : Out :=
  onStrand s fun i => exchange (uniResultOk i.st d [a]) d [d] [src a ea]
    (fun _ ls => oneResult (BitVec.ofNat 32 (ls.countP fun l => l.at 0 != 0))) i

/-- BCAST (R146). -/
def execBcast (d a b : Reg) (ea eb : Bool) (s : State) : Out :=
  onStrand s fun i => exchange (beadDstOk i.st d [a, b] && !isBead b) d [d] [src a ea, src b eb]
    (fun _ ls => ls.map fun l => { l with vals := [laneAt ls (l.at 1).toNat] }) i

/-- BFIRST (R146). -/
def execBfirst (d a : Reg) (ea : Bool) (s : State) : Out :=
  onStrand s fun i => exchange (uniResultOk i.st d [a]) d [d] [src a ea]
    (fun _ ls => oneResult ((laneNo ls 0).at 0)) i

/-- BLAST (R146). -/
def execBlast (d a : Reg) (ea : Bool) (s : State) : Out :=
  onStrand s fun i => exchange (uniResultOk i.st d [a]) d [d] [src a ea]
    (fun _ ls => oneResult ((laneNo ls (ls.length - 1)).at 0)) i

/-- PREV (R147). -/
def execPrev (d a b : Reg) (ea eb : Bool) (s : State) : Out :=
  onStrand s fun i => exchange (beadDstOk i.st d [a, b]) d [d] [src a ea, src b eb]
    (fun _ ls => byRank ls fun m l => if m = 0 then l.at 1 else (laneNo ls (m - 1)).at 0) i

/-- NEXT (R147). -/
def execNext (d a b : Reg) (ea eb : Bool) (s : State) : Out :=
  onStrand s fun i => exchange (beadDstOk i.st d [a, b]) d [d] [src a ea, src b eb]
    (fun _ ls => byRank ls fun m l => if m + 1 = ls.length then l.at 1 else (laneNo ls (m + 1)).at 0) i

/-- ROTP (R147). -/
def execRotp (d a : Reg) (ea : Bool) (s : State) : Out :=
  onStrand s fun i => exchange (beadDstOk i.st d [a]) d [d] [src a ea]
    (fun _ ls => byRank ls fun m _ => (laneNo ls (m + ls.length - 1)).at 0) i

/-- ROTN (R147). -/
def execRotn (d a : Reg) (ea : Bool) (s : State) : Out :=
  onStrand s fun i => exchange (beadDstOk i.st d [a]) d [d] [src a ea]
    (fun _ ls => byRank ls fun m _ => (laneNo ls (m + 1)).at 0) i

/-- PERMG (R148). -/
def execPermg (d a b : Reg) (ea eb : Bool) (s : State) : Out :=
  onStrand s fun i => exchange (beadDstOk i.st d [a, b]) d [d] [src a ea, src b eb]
    (fun _ ls => ls.map fun l => { l with vals := [laneAt ls (l.at 1).toNat] }) i

/-- PERMS (R148). -/
def execPerms (d a b : Reg) (ea eb : Bool) (s : State) : Out :=
  onStrand s fun i => exchange (beadDstOk i.st d [a, b]) d [d] [src a ea, src b eb, srcW d]
    (fun _ ls => permScatter ls) i

/-- TOPKD (R150). -/
def execTopkd (d a b : Reg) (ea eb : Bool) (s : State) : Out :=
  onStrand s fun i => exchange (pairOk i.st d && srcOk i.st a && srcOk i.st b && classOk d [a, b]) d (pairOf d) [src a ea, src b eb]
    (fun _ ls => topK false false ls) i

/-- TOPKA (R150). -/
def execTopka (d a b : Reg) (ea eb : Bool) (s : State) : Out :=
  onStrand s fun i => exchange (pairOk i.st d && srcOk i.st a && srcOk i.st b && classOk d [a, b]) d (pairOf d) [src a ea, src b eb]
    (fun _ ls => topK true false ls) i

/-- TOPKM (R150). -/
def execTopkm (d a b : Reg) (ea eb : Bool) (s : State) : Out :=
  onStrand s fun i => exchange (pairOk i.st d && srcOk i.st a && srcOk i.st b && classOk d [a, b]) d (pairOf d) ([src a ea, src b eb] ++ srcsW (pairOf d))
    (fun _ ls => topK false true ls) i

/-- MATCH (R151). -/
def execMatchB (d a : Reg) (ea : Bool) (s : State) : Out :=
  onStrand s fun i => exchange (pairOk i.st d && srcOk i.st a && classOk d [a]) d (pairOf d) [src a ea]
    (fun _ ls => ls.map fun l => { l with vals := words64 (maskOf ls fun x => x.at 0 == l.at 0) }) i

/-- MATCH64 (R151). -/
def execMatch64 (d a : Reg) (ea : Bool) (s : State) : Out :=
  onStrand s fun i => exchange (pairOk i.st d && pairOk i.st a && classOk d [a]) d (pairOf d) (srcPair a ea)
    (fun _ ls => ls.map fun l => { l with vals := words64 (maskOf ls fun x => x.at 0 == l.at 0 && x.at 1 == l.at 1) }) i

/-- RAND and RANDF: a draw for each active bead, or that of bead 0 (R140, R152, R154). -/
def randForm (d : Reg) (f : Word → Word) (i : Issue) : BeadOut :=
  let s := i.s
  let st := i.st
  exchangeThen advanceDraw (dstOk st d) d [d] []
    (fun _ ls => ls.map fun l => { l with vals := [f (drawWord s st l.bead)] }) i

/-- RAND (R154). -/
def execRand (d : Reg) (s : State) : Out := onStrand s (randForm d id)

/-- RANDF (R154). -/
def execRandf (d : Reg) (s : State) : Out :=
  onStrand s (randForm d fun w => rn (Frac.toVal ⟨(bits w.toNat 31 8 : Nat), 2 ^ 24⟩))

/-- ELECTL: the first active bead of the real mask (R140, R146). -/
def execElectl (d : Reg) (s : State) : Out :=
  onStrand s fun i => exchange (uniResultOk i.st d []) d [d] []
    (fun _ _ => oneResult (BitVec.ofNat 32 ((activeBeads i.st).headD 0))) i

/-- ELECTH: the last active bead of the real mask (R140, R146). -/
def execElecth (d : Reg) (s : State) : Out :=
  onStrand s fun i => exchange (uniResultOk i.st d []) d [d] []
    (fun _ _ => oneResult (BitVec.ofNat 32 ((activeBeads i.st).getLastD 0))) i

end Sys2Proof.Machine
end

