-- ==== Sys2Proof/Machine/Keeper.lean ====
section
/-!
DEFINITION. The keeper: boot and the measurement log (R426 to R428), the watchdog and recovery (R429, R430), the keeper
window (R431, R432), and thermal shutdown (R433).
-/

namespace Sys2Proof.Machine
open Sys2Proof

/-- The keeper changed. -/
def setKeeper (s : State) (f : Keeper → Keeper) : State := { s with keep := f s.keep }

/-! ### Boot (R426, R427) -/

/-- The measurement of an image (R426, R428). -/
def measure (step : Nat) (f : Firmware) : Measure := { step := step, digest := sha256 f.code, version := f.version }

/-- The parts of R426 released one after another, from a step on; the first image that fails stops the boot and is
reported. -/
def bootFrom : Nat → Nat → Keeper → Keeper
  | 0, _, k => k
  | n + 1, step, k =>
    let bad : Keeper := { k with failed := some step, mgmt := k.mgmt ++ [.bootFailed step] }
    match look k.images step with
    | none => bad
    | some f =>
      if Config.verify f.code f.signature then
        bootFrom n (step + 1) { k with released := step, log := k.log ++ [measure step f] }
      else bad

/-- What the keeper holds across a power-on or a new boot: its flash, its counters, and what it has reported (R427,
R431). -/
def Keeper.lasting (k : Keeper) : Keeper := { images := k.images, counters := k.counters, mgmt := k.mgmt }

/-- The machine with every part in reset but the keeper; the lifetime counters (R431), the model's own fields, and what left the
device, stay. -/
def allReset (s : State) : State :=
  { State.reset with
    mem := { State.reset.mem with corrected := s.mem.corrected }
    keep := s.keep.lasting, inputs := s.inputs, arg := s.arg, choice := s.choice
    host := { irqs := s.host.irqs, lastRead := s.host.lastRead } }

/-- Boot from step 1: the parts are released in their order, the command processor with the timebase at 0 (R326, R426). -/
def bootAll (s : State) : State :=
  let s := allReset s
  { s with keep := bootFrom 5 1 s.keep }

/-- BOOT: power-on (R426). -/
def execBoot (s : State) : Out := .next (bootAll s)

/-- FIRMWARE_REPLACEMENT: after a failed verification, a replacement that verifies is stored and boot starts again from
step 1, unless a thermal shutdown holds the parts (R427, R433). Its operand is the step and the image. -/
def execFirmwareReplacement (s : State) : Out :=
  match s.arg with
  | .image step f =>
    if s.keep.failed.isSome && !s.keep.held && decide (1 ≤ step) && decide (step ≤ 5) && Config.verify f.code f.signature then
      .next (bootAll (setKeeper s fun k => { k with images := put k.images step f }))
    else .next s
  | _ => .next s

/-- THERMAL_SHUTDOWN: at 120 °C every part but the keeper, which goes on as it is, is held in reset, and the keeper reports (R433). Its operand is
the temperature in 1/16 °C. -/
def execThermalShutdown (s : State) : Out :=
  match s.arg with
  | .one t =>
    if t < 16 * 120 then .next s
    else .next (setKeeper { allReset s with keep := s.keep } fun k => { k with
      held := true, released := 0, recovering := none, due := [], lastBeat := 0
      mgmt := k.mgmt ++ [.overTemperature]
      counters := put (put k.counters 0x1840 t) 0x1841 (max t (lookD k.counters 0x1841 0)) })
  | _ => .next s

/-! ### The watchdog (R429, R430) -/

/-- The period of the heartbeat, and the silence that starts recovery, in units of 2^-16 ns. -/
def beatPeriod : Nat := 10000 * 2 ^ 16
/-- The silence that starts recovery. -/
def beatLimit : Nat := 100000 * 2 ^ 16

/-- The longest recovery, from detection on. -/
def recoveryLimit : Nat := 400000 * 2 ^ 16

/-- HEARTBEAT: the command processor writes a heartbeat (R429). -/
def execHeartbeat (s : State) : Out :=
  .next (if cmdUp s then setKeeper s fun k => { k with lastBeat := s.clk.tb } else s)

/-- WATCHDOG_TIMEOUT: recovery begins, and WATCHDOG goes to every braid on a core that has both entries (R408, R429,
R430). -/
def execWatchdogTimeout (s : State) : Out :=
  if !cmdUp s || decide (s.clk.tb < s.keep.lastBeat + beatLimit) then .next s
  else
    let s := setKeeper s fun k => { k with recovering := some (nowNs s), recoverAt := s.clk.tb }
    .next ((placedWhere s fun _ => true).foldl (fun s e =>
      if savable (kernelOfBraid s e.2) then requestSave s e.1 0x15 0 else s) s)

/-- The image of the command processor verifies (R426, R429). -/
def commandVerified (k : Keeper) : Bool :=
  match look k.images 2 with
  | some f => Config.verify f.code f.signature
  | none => false

/-- RECOVERY_END: the command processor is measured again, verified and released, and RECOVERED is posted; due signals and late
cutoffs follow (R429, R430). An image that does not verify leaves it and every later part in reset, and is reported (R427;
log 116). -/
def execRecoveryEnd (s : State) : Out :=
  match s.keep.recovering with
  | none => .next s
  | some t =>
    if !commandVerified s.keep then
      .next (setKeeper s fun k => { k with
        recovering := none, released := 1, failed := some 2, mgmt := k.mgmt ++ [.bootFailed 2] })
    else
      let s := setKeeper s fun k => { k with
        recovering := none, lastBeat := s.clk.tb
        log := match look k.images 2 with | some f => k.log ++ [measure 2 f] | none => k.log }
      .next (postEvent s 0xFFFF 0xFF 0x000B (t + nowNs s % 2 ^ 64 * 2 ^ 64))

/-! ### Attestation (R428) -/

/-- The parts of a report that are signed. -/
def reportParts (log : List Measure) (nonce : List Byte) (time : Nat) : List (List Byte) :=
  (log.map fun m => toLE 4 m.step ++ m.digest ++ toLE 4 m.version.toNat) ++ [Config.romDigest, nonce, toLE 8 time]

/-- A report signed for a nonce (R428). -/
def attest (s : State) (nonce : List Byte) : Report :=
  let parts := reportParts s.keep.log nonce (nowNs s)
  { log := s.keep.log, rom := Config.romDigest, nonce := nonce, time := nowNs s, sig := Config.sign parts.flatten }

/-- MGMT_ATTEST_REQUEST: a report is requested over the management port (R428). Its operand is the nonce of 32 bytes. -/
def execMgmtAttestRequest (s : State) : Out :=
  match s.arg with
  | .bytes nonce =>
    .next (if nonce.length = 32 then setKeeper s fun k => { k with mgmt := k.mgmt ++ [.report (attest s nonce)] } else s)
  | _ => .next s

/-! ### The keeper window (R431, R432) -/

/-- The indexes of the table of counters (R431). -/
def counterListed (i : Nat) : Bool :=
  decide (i ≤ 0x182F) || i == 0x1840 || i == 0x1841 || (decide (0x1848 ≤ i) && decide (i ≤ 0x184F)) ||
    (decide (0x1850 ≤ i) && decide (i ≤ 0x1853)) || (decide (0x1860 ≤ i) && decide (i ≤ 0x189F))

/-- A lifetime counter: those of corrected errors stand with memory (R193, R431). -/
def counterOf (s : State) (i : Nat) : Nat := if i < 0x1800 then lookD s.mem.corrected i 0 else lookD s.keep.counters i 0

/-- A range of bytes that lies in memory (R167). -/
def inMemory (pa n : Nat) : Bool := decide (n > 0) && ((isLpddr pa && isLpddr (pa + n - 1)) || (isVault pa && isVault (pa + n - 1)))

/-- A write of kp_cmd; one that comes while a command runs, or names no op, is ignored (R432). -/
def writeKpCmd (s : State) (v : DWord) : State :=
  let x := v.toNat
  if s.keep.busy.isSome then s
  else if bits x 31 28 = 1 then setKeeper s fun k => { k with busy := some (.read (bits x 15 0)) }
  else if bits x 31 28 = 2 then setKeeper s fun k => { k with busy := some (.attest k.data.toNat) }
  else s

/-- KP_READ: a counter is asked for (R432). Its operand is the value of kp_cmd. -/
def execKpRead (s : State) : Out :=
  match s.arg with
  | .val _ v => .next (if bits v.toNat 31 28 = 1 then writeKpCmd s v else s)
  | _ => .next s

/-- KP_ATTEST: a report is asked for (R432). Its operand is the value of kp_cmd. -/
def execKpAttest (s : State) : Out :=
  match s.arg with
  | .val _ v => .next (if bits v.toNat 31 28 = 2 then writeKpCmd s v else s)
  | _ => .next s

/-- A command of the window finished: kp_data takes a value, or keeps what stands there; on an error it reads 0 (R432). -/
def endKeeperCmd (s : State) (err : Bool) (data : Option DWord) : State :=
  setKeeper s fun k => { k with busy := none, err := err, data := if err then 0 else data.getD k.data }

/-- A report written where its nonce stood: the address is physical (R432; log 45). -/
def writeReport (s : State) (addr : Nat) : State :=
  if !inMemory addr 32 then endKeeperCmd s true none
  else
    let (nonce, s) := readNow (settleZero s addr 32) addr 0 32
    let r := attest s nonce
    let bs := Config.reportBytes (reportParts r.log nonce r.time ++ [r.sig])
    if inMemory addr bs.length then
      endKeeperCmd (writeOwn (settleZero s addr bs.length) addr 0 bs none []).2 false none
    else endKeeperCmd s true none

/-- KEEPER_CMD_DONE: the command of the keeper window finishes (R432). -/
def execKeeperCmdDone (s : State) : Out :=
  .next (match s.keep.busy with
    | some (.read i) => endKeeperCmd s (!counterListed i) (some (BitVec.ofNat 64 (counterOf s i)))
    | some (.attest addr) => writeReport s addr
    | none => s)

/-! ### When they take place -/

/-- The alarms of the watchdog: a heartbeat that does not come, and the latest end of a recovery (R429). -/
def alarmKeeper (s : State) : List Alarm :=
  (if cmdUp s then [⟨s.keep.lastBeat + beatLimit, ⟨.watchdogTimeout, .none⟩⟩] else []) ++
    if s.keep.recovering.isSome then [⟨s.keep.recoverAt + recoveryLimit, ⟨.recoveryEnd, .none⟩⟩] else []

/-- The happenings of the keeper that may take place. A heartbeat that is due may stay away (log 46). -/
def dueKeeper (s : State) : List Happening :=
  (if cmdUp s && decide (s.clk.tb ≥ s.keep.lastBeat + beatPeriod) then [⟨.heartbeat, .none⟩] else []) ++
  (if s.keep.recovering.isSome then [⟨.recoveryEnd, .none⟩] else []) ++
  (if s.keep.busy.isSome then [⟨.keeperCmdDone, .none⟩] else [])

end Sys2Proof.Machine
end

