-- ==== Sys2Proof/Machine/Vault.lean ====
section
/-!
DEFINITION. The supervisor's writes to the region registers and the cache region's size (R183, R184), and to the keyring
(R179, R421).
-/

namespace Sys2Proof.Machine
open Sys2Proof

/-- The vaults' state changed. -/
def setVaults (s : State) (f : Vaults → Vaults) : State := { s with vaults := f s.vaults }

/-- The 8 MiB units that a map's regions take: direct, save, ring and reference. -/
def VaultMap.units (m : VaultMap) : Nat := m.direct + m.save + m.ring + m.ref

/-- The first limit of R184, with a cache region of a size. -/
def VaultMap.fits (m : VaultMap) (units : Nat) : Bool := decide (m.units + units ≤ 8)

/-- A write to a vault's region register (R183, R184). While the cache region changes size, both sizes count. -/
def writeVaultMap (s : State) (v : Nat) (val : DWord) : State :=
  let old := vaultMap s v
  let x := val.toNat
  let err := old.err && !bit x 30
  let new : VaultMap :=
    { direct := bits x 3 0, window := bits x 7 4, save := bits x 11 8, ring := bits x 15 12, ref := bits x 19 16, err := err }
  let ok : Bool := new.fits s.vaults.units && (!s.vaults.cuBusy || new.fits s.vaults.newUnits) &&
    decide (new.window ≤ new.direct)
  setVaults s fun t => { t with maps := putD {} t.maps v (if ok then new else { old with err := true }) }

/-- VAULT_MAP_WRITE (R184). Its operand is the vault and the value. -/
def execVaultMapWrite (s : State) : Out :=
  match s.arg with
  | .val v x => .next (if v < 48 then writeVaultMap s v x else s)
  | _ => .next s

/-- A write to cache_units: the lines of every cache region are written back, unpinned and dropped, and accesses to LPDDR6
are held until the new size applies (R184). -/
def writeCacheUnits (s : State) (val : DWord) : State :=
  let x := val.toNat
  let units := bits x 2 0
  let err := s.vaults.cuErr && !bit x 30
  let ok : Bool := !s.vaults.cuBusy && decide (units ≤ 6) && (List.range 48).all fun v => (vaultMap s v).fits units
  setVaults s fun t =>
    if ok then { t with cuBusy := true, newUnits := units, cuErr := err, lines := [] } else { t with cuErr := true }

/-- CACHE_UNITS_WRITE (R184). Its operand is the value. -/
def execCacheUnitsWrite (s : State) : Out :=
  match s.arg with
  | .val _ x => .next (writeCacheUnits s x)
  | _ => .next s

/-- CACHE_RESIZE_DONE: the new size applies, and no region holds a line (R184). -/
def execCacheResizeDone (s : State) : Out :=
  .next (if s.vaults.cuBusy then
      afterHold (setVaults s fun t => { t with units := t.newUnits, cuBusy := false, lines := [] })
    else s)

/-- A word of the key data written; word 7 loads the keyring entry named (R179, R421). -/
def writeKeyData (s : State) (k : Nat) (x : DWord) : State :=
  let s := setTrans s fun t => { t with krData := put t.krData k x }
  if k = 7 then
    let pair := (List.range 8).foldl (fun n i => n + (lookD s.trans.krData i 0).toNat * 2 ^ (64 * i)) 0
    setTrans s fun t => { t with keyring := put t.keyring t.krIdx pair }
  else s

/-- KEYRING_LOAD: word 7 of the key data is written, which loads the entry (R179). Its operand is the value. -/
def execKeyringLoad (s : State) : Out :=
  match s.arg with
  | .val _ x => .next (writeKeyData s 7 x)
  | _ => .next s

/-- The end of a change of size may come. -/
def dueVaults (s : State) : List Happening := if s.vaults.cuBusy then [⟨.cacheResizeDone, .none⟩] else []

end Sys2Proof.Machine
end

