-- ==== Sys2Proof/Machine/Registers.lean ====
section
/-!
DEFINITION. The supervisor register block (R421): what a write of each register does, and what a read returns.
-/

namespace Sys2Proof.Machine
open Sys2Proof

/-- What a row does to the machine for an operand; the operand of the row at work stays. -/
def viaRow (s : State) (a : Arg) (row : State → Out) : State :=
  match row { s with arg := a } with
  | .next t => { t with arg := s.arg }
  | _ => s

/-- Whether an offset is that of an element of an array of registers: base, stride and number. -/
def inArray (off base stride n : Nat) : Bool := decide (base ≤ off) && decide (off < base + stride * n) && (off - base) % stride == 0

/-! ### Registers without behaviour of their own -/

/-- The bits that a register without behaviour of its own holds, by offset; the others are MBZ or reserved (R5, R421). -/
def heldBits (off : Nat) : Nat :=
  let all := 2 ^ 64 - 1
  if off = 0x08 then 0x3FF
  else if off = 0x10 then 0xFFFF
  else if off = 0x18 then 2 ^ 48 - 1
  else if off = 0xA0 then all
  else if inArray off 0x400 16 64 then all - 0xFFC0
  else if inArray off 0x408 16 64 then all
  else if inArray off 0x800 8 16 || inArray off 0x880 8 16 then all
  else if inArray off 0x980 8 4 then all - 0xFFFFFFE0
  else if inArray off 0xA00 16 64 then 2 ^ 63 + 2 ^ 50 * 15 + 2 ^ 49 - 1
  else if inArray off 0xA08 16 64 then all
  else if inArray off 0xE00 8 64 then all - 0x1E
  else if inArray off 0x1000 8 64 then 0x1FFF
  else if inArray off 0x1200 8 64 || inArray off 0x1400 8 64 then all
  else if inArray off 0x1E000 8 1024 then 15
  else 0

/-- The slot of R424 that a register belongs to, but for its destination. -/
def watchSlotOf (off : Nat) : Option Nat :=
  if inArray off 0xE00 8 64 then some ((off - 0xE00) / 8)
  else if inArray off 0x1000 8 64 then some ((off - 0x1000) / 8)
  else if inArray off 0x1200 8 64 then some ((off - 0x1200) / 8)
  else none

/-- A slot that a write has changed acts at once where its condition holds (R424). -/
def watchAgain (s : State) (off : Nat) : State :=
  match watchSlotOf off with
  | some k =>
    let w := (sregOf s (0xE00 + 8 * k)).toNat
    if bit w 0 then fireSlot (fireWatches 64) s k (w / 32 * 32) else s
  | none => s

/-- A register without behaviour of its own written: it stores the bits it has (R5, R421). -/
def writePlain (s : State) (off : Nat) (v : DWord) : State :=
  if heldBits off = 0 then s else watchAgain (setSreg s off (v &&& BitVec.ofNat 64 (heldBits off))) off

/-! ### Registers with behaviour -/

/-- A write of inv_ctl: `lost` is cleared by 1, and a scope but 3 asks for an invalidation (R177). -/
def writeInvCtl (s : State) (v : DWord) : State :=
  let x := v.toNat
  let s := setTrans s fun t => { t with inv := { t.inv with lost := t.inv.lost && !bit x 30 } }
  if bits x 9 8 = 3 then s else startInv s (bits x 9 8) (bits x 5 0)

/-- The event ring's registers changed. -/
def setEvr (s : State) (f : EvRing → EvRing) : State := { s with cmd := { s.cmd with evr := f s.cmd.evr } }

/-- A write of evr_ctl; an `lsize` outside 6 to 16 has it ignored (R308). Events that were lost are reported once there is
room (R309). -/
def writeEvrCtl (s : State) (v : DWord) : State :=
  let x := v.toNat
  let l := bits x 4 0
  if l < 6 ∨ l > 16 then s else evrOverflow (setEvr s fun r => { r with en := bit x 31, lsize := l })

/-- A write of lnk_ctl (R415). -/
def writeLnkCtl (s : State) (p : Nat) (v : DWord) : State :=
  viaRow s (.val p v) (if v.getLsbD 31 then execLinkEnSet else execLinkEnClear)

/-- A write of miss_resp (R175). -/
def writeMissResp (s : State) (q : Nat) (v : DWord) : State :=
  let x := v.toNat
  if bits x 9 8 = 1 then viaRow s (.two q (bits x 5 0)) execMissRespRetry
  else if bits x 9 8 = 2 then viaRow s (.two q (bits x 5 0)) execMissRespFault
  else s

/-- A write of dbg_ctl: it names a halted strand, and may kill or resume it (R400; log 47). -/
def writeDbgCtl (s : State) (core : Nat) (v : DWord) : State :=
  let x := v.toNat
  let a := Arg.three core (bits x 5 0) (bits x 10 8)
  if bits x 31 30 = 1 then viaRow s a execDbgKill
  else if bits x 31 30 = 2 then viaRow s a execDbgResume
  else if (haltedAt s core (bits x 5 0) (bits x 10 8)).isSome then nameStrand s core (bits x 5 0) (bits x 10 8)
  else s

/-- A write of a word of a doorbell page (R422). -/
def writeDoorbell (s : State) (cq word : Nat) (v : DWord) : State :=
  if word = 0 then writeCqCtl s cq v
  else if word = 1 then setCq s cq fun q => { q with base := v.toNat / 2 ^ 12 * 2 ^ 12 }
  else if word = 3 then viaRow s (.two cq v.toNat) execDoorbell
  else s

/-- A write of a register below offset 0x100 that has behaviour of its own. -/
def writeLow (s : State) (off : Nat) (v : DWord) : State :=
  let x := v.toNat
  if off = 0x20 then writeCacheUnits s v
  else if off = 0x28 then writeInvCtl s v
  else if off = 0x30 then setTrans s fun t => { t with inv := { t.inv with va := bits x 52 13 * 2 ^ 13 } }
  else if off = 0x38 then setTrans s fun t => { t with inv := { t.inv with cnt := bits x 31 0 } }
  else if off = 0x40 then setTrans s fun t => { t with zeroPa := BitVec.ofNat 64 (bits x 43 13 * 2 ^ 13) }
  else if off = 0x48 then viaRow s (.val 0 v) execZeroStart
  else if off = 0x50 then setEvr s fun r => { r with base := x / 2 ^ 12 * 2 ^ 12 }
  else if off = 0x58 then writeEvrCtl s v
  else if off = 0x68 then viaRow s (.val 0 v) execEvrHeadWrite
  else if off = 0x80 then writeTbCtl s v
  else if off = 0x90 then writeTbSet s v
  else if off = 0xA8 then setTrans s fun t => { t with krIdx := bits x 8 0 }
  else if inArray off 0xB0 8 8 then writeKeyData s ((off - 0xB0) / 8) v
  else writePlain s off v

/-- A write of a supervisor register, by offset (R421). -/
def writeRegister (s : State) (off : Nat) (v : DWord) : State :=
  if off < 0x100 then writeLow s off v
  else if inArray off 0x100 8 48 then writeVaultMap s ((off - 0x100) / 8) v
  else if inArray off 0x900 8 8 then writeLnkCtl s ((off - 0x900) / 8) v
  else if inArray off 0x2400 0x800 48 then writeMissResp s ((off - 0x2400) / 0x800) v
  else if off = 0x1C000 then writeKpCmd s v
  else if off = 0x1C010 then setKeeper s fun k => { k with data := v }
  else if inArray off 0x20000 0x1000 192 then writeDbgCtl s ((off - 0x20000) / 0x1000) v
  else if off ≥ 0x100000 ∧ off < 0x200000 ∧ off % 0x1000 < 32 ∧ off % 8 = 0 then
    writeDoorbell s ((off - 0x100000) / 0x1000) (off % 0x1000 / 8) v
  else writePlain s off v

/-- REGISTER_WRITE (R421). Its operand is the offset and the value. -/
def execRegisterWrite (s : State) : Out :=
  match s.arg with
  | .val off v => .next (writeRegister s off v)
  | _ => .next s

/-! ### Reads -/

/-- A flag as a number. -/
def flag (b : Bool) (i : Nat) : Nat := if b then 2 ^ i else 0

/-- The two words of a miss record; a free one reads 0 in every field, which R175 says of reset alone (log 113). -/
def missWord (s : State) (q idx w : Nat) : Nat :=
  match missRec s q idx with
  | none => 0
  | some r =>
    if w = 0 then r.vpn % 2 ^ 40 * 2 ^ 13 + (if r.pending then 2 else 1)
    else r.waiters % 2 ^ 32 + r.level % 4 * 2 ^ 32 + flag r.write 40 + flag r.fetch 41 + r.paths % 16 * 2 ^ 42 + r.ctx % 64 * 2 ^ 47

/-- zero_ctl, whose `busy` shows the frames it was given and every LPDDR6 resource that is being zeroed (R180, R421). -/
def zeroCtl (s : State) : Nat :=
  let t := s.trans
  flag (t.zeroing.any fun z => z.shown || (z.tile.isNone && isLpddr z.pa)) 31 + t.zeroKey * 2 ^ 17 + t.zeroOwner * 2 ^ 8 +
    t.zeroSize

/-- A region register (R183). -/
def vaultMapWord (m : VaultMap) : Nat :=
  flag m.err 30 + m.ref * 2 ^ 16 + m.ring * 2 ^ 12 + m.save * 2 ^ 8 + m.window * 2 ^ 4 + m.direct

/-- A word of a doorbell page (R422). -/
def doorbellWord (q : CmdQueue) (word : Nat) : Nat :=
  if word = 0 then flag q.en 31 + flag q.sup 30 + q.ctx % 64 * 2 ^ 16 + q.lsize % 32
  else if word = 1 then q.base
  else if word = 2 then q.head
  else q.tail

/-- Special register n of the halted strand last named in a core's debug window (R400, R421). What a register that varies
by bead shows there is left open: a free value stands for it (log 47). -/
def debugWord (s : State) (core n : Nat) : Nat :=
  let x := (sregOf s (0x20000 + 0x1000 * core)).toNat
  match haltedAt s core (bits x 5 0) (bits x 10 8) with
  | some (_, st, _) =>
    if !srExists n then 0
    else if srVarying n then Config.free s.choice % 2 ^ 32
    else (specialReg s st (nowNs s) n 0).toNat
  | none => 0

/-- A read of a register below offset 0x100; those that are write-only return 0 (R5, R421). -/
def readLow (s : State) (off : Nat) : Nat :=
  let r := s.cmd.evr
  if off = 0x00 then 1
  else if off = 0x20 then flag s.vaults.cuBusy 31 + flag s.vaults.cuErr 30 + s.vaults.newUnits
  else if off = 0x28 then flag s.trans.inv.busy 31 + flag s.trans.inv.lost 30
  else if off = 0x30 then s.trans.inv.va
  else if off = 0x38 then s.trans.inv.cnt
  else if off = 0x48 then zeroCtl s
  else if off = 0x50 then r.base
  else if off = 0x58 then flag r.en 31 + r.lsize
  else if off = 0x60 then r.tail
  else if off = 0x68 then r.head
  else if off = 0x70 then r.lost
  else if off = 0x80 then flag s.clk.en 31 + flag s.clk.stepOk 30 + s.clk.port % 16 * 2 ^ 8 + s.clk.domain % 128
  else if off = 0x88 then (tbStat s.clk).toNat
  else (sregOf s off).toNat

/-- A read of a supervisor register, by offset; a reserved one reads 0 (R421). -/
def readRegister (s : State) (off : Nat) : DWord :=
  BitVec.ofNat 64 <|
    if off < 0x100 then readLow s off
    else if inArray off 0x100 8 48 then vaultMapWord (vaultMap s ((off - 0x100) / 8))
    else if inArray off 0x900 8 8 then
      let l := lookD s.fab.ports ((off - 0x900) / 8) {}
      flag l.en 31 + l.thr % 2 ^ 16
    else if inArray off 0x940 8 8 then (linkSt s ((off - 0x940) / 8)).code
    else if off ≥ 0x2000 ∧ off < 0x1A000 ∧ off % 8 = 0 then
      let o := (off - 0x2000) % 0x800
      if o < 0x400 then missWord s ((off - 0x2000) / 0x800) (o / 16) (o / 8 % 2) else 0
    else if off = 0x1C008 then flag s.keep.busy.isSome 31 + flag s.keep.err 30
    else if off = 0x1C010 then s.keep.data.toNat
    else if off ≥ 0x20000 ∧ off < 0xE0000 ∧ off % 8 = 0 then
      let o := off % 0x1000
      if 0x100 ≤ o ∧ o < 0x500 then debugWord s ((off - 0x20000) / 0x1000) ((o - 0x100) / 8) else 0
    else if off ≥ 0x100000 ∧ off < 0x200000 ∧ off % 0x1000 < 32 ∧ off % 8 = 0 then
      doorbellWord (cqOf s ((off - 0x100000) / 0x1000)) (off % 0x1000 / 8)
    else (sregOf s off).toNat

end Sys2Proof.Machine
end

