-- ==== Sys2Proof/Machine/HostAccess.lean ====
section
/-!
DEFINITION. The accesses of the application cores to device memory and to the supervisor registers (R167, R225, R421).
-/

namespace Sys2Proof.Machine
open Sys2Proof

/-- The physical address of the supervisor register block (R421). -/
def blockBase : Nat := 0xC0000000000

/-- A register access: the 8-byte registers that a range touches, each with what it holds before the range, in it and
after it: (offset, first byte, number of bytes). -/
def pieceOf (off n : Nat) : Nat × Nat × Nat := (off / 8 * 8, off % 8, min n (8 - off % 8))

/-- Registers read byte by byte. -/
def readBlock (s : State) (off n : Nat) : List Byte :=
  (List.range n).map fun i =>
    BitVec.ofNat 8 ((readRegister s ((off + i) / 8 * 8)).toNat / 2 ^ (8 * ((off + i) % 8)))

/-- The bits of a register that a write of 1 clears (R5, R177, R183). -/
def clearBits (off : Nat) : Nat := if off = 0x20 ∨ off = 0x28 ∨ inArray off 0x100 8 48 then 2 ^ 30 else 0

/-- Registers written in order; a register written in part takes what it reads in its other bytes, but no 1 for a bit that a 1
clears (log 48). -/
def writeBlock : Nat → State → Nat → List Byte → State
  | 0, s, _, _ => s
  | n + 1, s, off, bs =>
    if bs.isEmpty then s
    else
      let (r, b, k) := pieceOf off bs.length
      let old := toLE 8 (readRegister s r &&& ~~~ BitVec.ofNat 64 (clearBits r)).toNat
      let new := old.take b ++ bs.take k ++ old.drop (b + k)
      writeBlock n (writeRegister s r (BitVec.ofNat 64 (ofLE new))) (off + k) (bs.drop k)

/-- The application cores' side changed. -/
def setHost (s : State) (f : HostSide → HostSide) : State := { s with host := f s.host }

/-- A read of memory by an application core (R225). -/
def hostRead (s : State) (pa n : Nat) : State :=
  let (bs, s) := readSystem (settleZero s pa n) pa 0 n
  setHost s fun h => { h with lastRead := bs }

/-- A write of memory by an application core: it replaces an error (R193), and counts as released (R225, R422; log
49). -/
def hostWrite (s : State) (pa : Nat) (bs : List Byte) : State :=
  let (id, s) := writeOwn (settleZero s pa bs.length) pa 0 bs none []
  releaseSystem (setHost s fun h => { h with wrote := id :: h.wrote }) [id]

/-- HOST_MEMORY_ACCESS: an application core reads or writes device memory or the register block (R421). An access to
LPDDR6 that a slot or a change of cache_units holds is made later (R184, R385), and so is a write behind those of a save
(R344). Its operand is the physical address, the
length, and the bytes written, if it writes. -/
def execHostMemoryAccess (s : State) : Out :=
  match s.arg with
  | .host pa len write =>
    let n := match write with | some bs => bs.length | none => len
    if n = 0 then .next s
    else if inMemory pa n then
      if heldBySlot s pa n || (write.isSome && poolFirst s none pa) then .next { s with inputs := ⟨.hostMemoryAccess, s.arg⟩ :: s.inputs }
      else .next (match write with | some bs => hostWrite s pa bs | none => hostRead s pa n)
    else if blockBase ≤ pa ∧ pa + n ≤ 2 ^ 44 then
      .next (match write with
        | some bs => writeBlock n s (pa - blockBase) bs
        | none => setHost s fun h => { h with lastRead := readBlock s (pa - blockBase) n })
    else .fault (.noSuchAddress pa)
  | _ => .next s

end Sys2Proof.Machine
end

