-- ==== Sys2Proof/Machine/Output.lean ====
section
/-!
DEFINITION. The outputs: what they read of a strip at D_k (R352), the serialiser (R379), the encoder (R380), and the loopback
capture (R381).
-/

namespace Sys2Proof.Machine
open Sys2Proof

/-! ### Reading a strip (R340, R352) -/

/-- The line of a stream by number: its frame and its line. -/
def Stream.line (x : Stream) (i : Nat) : Nat × Nat := (i / max 1 x.outH, i % max 1 x.outH)

/-- Whether a stream still has strips to read: it is active, and not stopped with every admitted one read (R333). -/
def moreStrips (x : Stream) : Bool := x.active && (!x.stopping || decide (x.nextRead < x.nextStart))

/-- Chains that have ended: of a stream, the last two strips read apart, and those left from an earlier use of its number. -/
def chainEnded (s : State) (stream : Nat) (x : Stream) (e : Nat × Chain) : Bool :=
  let i := e.2.frame * x.strips + e.2.strip
  !chainLives s e.1 e.2 && (e.2.oldStream.isSome ||
    (e.2.isOf stream && decide (i + 1 < min x.nextRead x.nextStart) && (e.2.st == .done || e.2.st == .missed) && e.2.kernel.isNone))

/-- Chains that have ended leave the state, and frames all of whose strips have been read and whose chains have left. -/
def pruneChains (s : State) (stream : Nat) : State :=
  let x := streamOf s stream
  setStrips s fun t =>
    let chains := t.chains.filter fun e => !chainEnded s stream x e
    { t with
      chains := chains
      frames := t.frames.filter fun f => f.stream != stream || decide (x.nextRead < (f.frame + 1) * x.strips) ||
        chains.any fun e => e.2.isOf stream && e.2.frame == f.frame }

/-- The lines of a strip that are ready as its output reads it; a strip that was not admitted has none. -/
def marksTaken (s : State) (stream n k : Nat) : List Nat :=
  match look s.strips.chains (chainId stream n k) with
  | some ch => if ch.st = .waiting ∨ ch.st = .clearing then [] else readyLines s stream n k
  | none => []

/-- STRIP_READ: at D_k the output takes the ready marks of a strip (R352). Its operand is the stream, the frame and the
strip. -/
def execStripRead (s : State) : Out :=
  match s.arg with
  | .three stream n k =>
    let x := streamOf s stream
    if moreStrips x && x.strip x.nextRead == (n, k) && decide (nowTb s ≥ x.deadline n k) then
      let taken := marksTaken s stream n k
      let s := setStrips s fun t => { t with
        readMarks := put t.readMarks (chainId stream n k) taken
        chains := upd t.chains (chainId stream n k) fun ch => { ch with unready := some (linesLeft x k taken.length) } }
      .next (pruneChains (setStream s stream fun x => { x with nextRead := x.nextRead + 1 }) stream)
    else .next s
  | _ => .next s

/-! ### Lines -/

/-- Whether an output line is sent as it stands in the ring: it was ready when its strip was read (R352). -/
def lineTaken (s : State) (stream n y : Nat) : Bool :=
  ((look s.strips.readMarks (chainId stream n (y / (streamOf s stream).stripH))).getD []).contains y

/-- The codes of an output line: the ring's, or the fill colour (R352). -/
def lineCodes (s : State) (stream n y : Nat) : List Word :=
  let x := streamOf s stream
  (List.range x.outW).map fun px => if lineTaken s stream n y then ringWord s x (outOff s x n y px) else word x.fill

/-- The output has read a line of the ring, if it takes it from there (R193, R352). -/
def lineSeen (s : State) (stream n y : Nat) : State :=
  let x := streamOf s stream
  if lineTaken s stream n y then ringSeen s x (outOff s x n y 0) (4 * x.outW) else s

/-- A stream after an output has taken lines: what was read of a strip is dropped with its last line, and a stream that
is stopping becomes inactive with the last line of its last strip (R333, R334; log 39). -/
def lineDone (s : State) (stream n y : Nat) (lines : Nat) : State :=
  let x := streamOf s stream
  let next := x.nextLine + lines
  let k := y / x.stripH
  let last := n * x.outH + (x.outLines k).2
  let s := if next = last then
      setStrips s fun t => { t with readMarks := del t.readMarks (chainId stream n k) }
    else s
  let ended : Bool := x.stopping && decide (x.nextRead ≥ x.nextStart) && decide (next = last) &&
    decide (x.nextStart = n * x.strips + k + 1)
  setStream s stream fun x => { x with nextLine := next, active := x.active && !ended, stopping := x.stopping && !ended }

/-- Whether an output's next line may be taken at a frame and a line: its strip has been read, and L_n(y) has come
(R334). -/
def lineDue (s : State) (stream kind n y : Nat) : Bool :=
  let x := streamOf s stream
  x.active && x.outKind == kind && x.line x.nextLine == (n, y) && decide (n * x.strips + y / x.stripH < x.nextRead) &&
    decide (s.clk.tb ≥ x.lineTime n y)

/-! ### The serialiser (R379) -/

/-- A code as it is sent at 8 bits per component (R379). -/
def code8 (w : Word) : Word :=
  word (bits w.toNat 29 22 * 2 ^ 20 + bits w.toNat 19 12 * 2 ^ 10 + bits w.toNat 9 2)

/-- DP_LINE_SEND: the serialiser sends an output line at its read time (R352, R379). Its operand is the stream, the frame and
the line. -/
def execDpLineSend (s : State) : Out :=
  match s.arg with
  | .three stream n y =>
    if lineDue s stream 0 n y then
      let x := streamOf s stream
      let codes := lineCodes s stream n y
      let codes := if (sregOf s (0x980 + 8 * x.outIdx)).getLsbD 4 then codes.map code8 else codes
      let sent : SentLine := { port := x.outIdx, frame := n, line := y, filled := !lineTaken s stream n y, pixels := codes }
      .next (lineDone (setStrips (lineSeen s stream n y) fun t => { t with sent := t.sent ++ [sent] }) stream n y 1)
    else .next s
  | _ => .next s

/-! ### The encoder (R380) -/

/-- A coefficient of the conversion to YCbCr at a depth, in 4,096ths: num / den times the range of the component over that of
an RGB code, rounded to the nearest, halves upward (R380; log 13). -/
def bt709 (depth range : Nat) (num den : Int) : Int :=
  let d := den * (2 ^ depth - 1)
  (2 * num * (range * 2 ^ (depth - 8)) * 4096 + d).fdiv (2 * d)

/-- A component of an RGB triple: the offset of limited range, and the three terms, rounded half up (R380; log 13). -/
def component (depth offset : Nat) (cs : Int × Int × Int) (p : Int × Int × Int) : Int :=
  offset * 2 ^ (depth - 8) + (cs.1 * p.1 + cs.2.1 * p.2.1 + cs.2.2 * p.2.2 + 2048).fdiv 4096

/-- Y, Cb and Cr of a pixel by ITU-R BT.709 in limited range, at 8 or 10 bits (R380). -/
def toYCbCr (depth : Nat) (w : Word) : Int × Int × Int :=
  let c := fun (hi lo : Nat) => ((bits w.toNat hi lo / 2 ^ (10 - depth) : Nat) : Int)
  let p := (c 29 20, c 19 10, c 9 0)
  let k := bt709 depth
  (component depth 16 (k 219 2126 10000, k 219 7152 10000, k 219 722 10000) p,
   component depth 128 (k 224 (-2126) 18556, k 224 (-7152) 18556, k 224 1 2) p,
   component depth 128 (k 224 1 2, k 224 (-7152) 15748, k 224 (-722) 15748) p)

/-- The mean of a 2 × 2 block of a plane of some width, rounded half up (R380). -/
def blockMean (plane : List Int) (width x y : Nat) : Int :=
  let at_ := fun (dx dy : Nat) => plane.getD ((2 * y + dy) * width + 2 * x + dx) 0
  (at_ 0 0 + at_ 1 0 + at_ 0 1 + at_ 1 1 + 2).fdiv 4

/-- The planes of a strip in 4:2:0, one after another: Y whole, Cb and Cr of one sample for each 2 × 2 block (R380). -/
def planes (depth width lines : Nat) (codes : List Word) : List Word :=
  let ycc := codes.map (toYCbCr depth)
  let half := fun (p : List Int) =>
    (List.range (lines / 2)).flatMap fun y => (List.range (width / 2)).map fun x => blockMean p width x y
  (ycc.map (·.1) ++ half (ycc.map (·.2.1)) ++ half (ycc.map (·.2.2))).map fun v => word v.toNat

/-- Bytes put into the bitstream ring of a session on path X, each at its place (R205, R380; log 111). -/
def putBitstream (ring : Nat) (at_ : Nat) (bs : List Byte) (s : State) : State :=
  match bs with
  | [] => s
  | b :: rest =>
    let (id, s) := newWrite s
    putBitstream ring (at_ + 1) rest { s with mem := s.mem.perform id (Config.ringPlace ring at_) [b] (some .x) [] }

/-- The vaults' reference stores, each by its first address and its length, without the empty ones (R182). -/
def refStores (s : State) : List (Nat × Nat) :=
  ((List.range 48).map fun v => let a := refArea (vaultMap s v); (vaultPa v a.1, a.2)).filter fun r => r.2 != 0

/-- The address at an offset into ranges laid one after another. -/
def rangeAt : List (Nat × Nat) → Nat → Option Nat
  | [], _ => none
  | r :: t, o => if o < r.2 then some (r.1 + o) else rangeAt t (o - r.2)

/-- Where word n of strip k of a coded frame stands in the reference stores; nowhere, where the vault maps keep none (R182,
R380; log 110). -/
def refAddr (s : State) (session frame k n : Nat) : Option Nat :=
  let stores := refStores s
  let words := stores.foldl (fun n r => n + r.2 / 4) 0
  rangeAt stores (4 * (Config.refPlace session frame k n % max 1 words))

/-- Words of a strip's reconstruction written to the reference store on path X, from word n on (R205, R380). -/
def putRef (session frame k : Nat) : Nat → List Word → State → State
  | _, [], s => s
  | n, w :: t, s =>
    putRef session frame k (n + 1) t (match refAddr s session frame k n with
      | some pa => (writeOwn s pa 0 (toLE 4 w.toNat) (some .x) []).2
      | none => s)

/-- Words of a strip's reconstruction read back from the reference store (R193, R380). -/
def getRef (s : State) (session frame k : Nat) : Nat → List Word × State
  | 0 => ([], s)
  | n + 1 =>
    let (ws, s) := getRef s session frame k n
    match refAddr s session frame k n with
    | some pa =>
      let (bs, s) := readNow s pa 0 4
      (ws ++ [word (ofLE bs)], s)
    | none => (ws ++ [0], s)

/-- The reconstruction of a frame that the reference store holds, strip after strip, from the lengths of its strips. -/
def getFrame (session frame : Nat) : List (Nat × Nat) → State → List Word × State
  | [], s => ([], s)
  | e :: t, s =>
    let (ws, s) := getRef s session frame e.1 e.2
    let (rest, s) := getFrame session frame t s
    (ws ++ rest, s)

/-- The parameters of a coded strip: the session's settings, the frame's place in the sequence, the strip, and the frame's
extents. -/
def encodeParams (s : State) (x : Stream) (e : Encoder) (k : Nat) : List Nat :=
  [(sregOf s (0xA00 + 16 * x.outIdx)).toNat, e.frames, k, x.outW, x.outH]

/-- The references of a session: LAST and GOLDEN, read from the reference store (R380). -/
def encodeRefs (s : State) (session : Nat) (e : Encoder) : List Word × State :=
  let (l, s) := getFrame session e.lastAt e.last s
  let (g, s) := getFrame session e.goldenAt e.golden s
  (l ++ g, s)

/-- The session after the last strip of a frame: the reconstruction becomes LAST, and at the session's interval GOLDEN
(R380). -/
def frameCoded (s : State) (x : Stream) (e : Encoder) : Encoder :=
  let interval := bits (sregOf s (0xA00 + 16 * x.outIdx)).toNat 47 32
  let refresh : Bool := e.frames % max 1 interval == 0
  { e with
    last := e.next, lastAt := e.frames, next := [], frames := e.frames + 1
    golden := if refresh then e.next else e.golden
    goldenAt := if refresh then e.frames else e.goldenAt }

/-- A strip whose lines the encoder has all taken is coded, or coded as skip where a line was not ready (R352, R380; log 13). -/
def codeStrip (s : State) (x : Stream) (n k lines : Nat) (e : Encoder) : State :=
  let skip : Bool := e.rowReady != lines
  let params := encodeParams s x e k
  let depth := if (sregOf s (0xA00 + 16 * x.outIdx)).getLsbD 48 then 10 else 8
  let pixels := if skip then [] else planes depth x.outW lines e.row
  let (refs, s) := encodeRefs s x.outIdx e
  let (recon, s) := if skip then getRef s x.outIdx e.lastAt k (lookD e.last k 0)
    else (Config.av1Recon params refs pixels, s)
  let data := Config.av1 params refs pixels
  let s := putRef x.outIdx e.frames k 0 recon s
  let e1 := { e with next := put e.next k recon.length, written := e.written + data.length, row := [], rowReady := 0 }
  let e2 := if k + 1 = x.strips then frameCoded s x e1 else e1
  let coded : CodedStrip := { session := x.outIdx, frame := n, strip := k, skip := skip, data := data }
  let s := putBitstream (sregOf s (0xA08 + 16 * x.outIdx)).toNat e.written data s
  setStrips s fun t => { t with coded := t.coded ++ [coded], encoders := put t.encoders x.outIdx e2 }

/-- ENCODE_STRIP: at L_n(y) the encoder takes a line of the ring, and with a strip's last line the strip is coded (R334, R352,
R380). Its operand is the stream, the frame and the line. -/
def execEncodeStrip (s : State) : Out :=
  match s.arg with
  | .three stream n y =>
    let x := streamOf s stream
    if lineDue s stream 1 n y then
      let k := y / x.stripH
      let (a, b) := x.outLines k
      let e := (look s.strips.encoders x.outIdx).getD {}
      let taken := lineTaken s stream n y
      let e := { e with row := e.row ++ lineCodes s stream n y, rowReady := e.rowReady + if taken then 1 else 0 }
      let s := lineSeen s stream n y
      let s := if y + 1 = b then codeStrip s x n k (b - a) e
        else setStrips s fun t => { t with encoders := put t.encoders x.outIdx e }
      .next (lineDone s stream n y 1)
    else .next s
  | _ => .next s

/-! ### The loopback capture (R381) -/

/-- A capture's translation: through the caches and quad 0's walker, with no miss record; none where it misses or fails a
check (R381; log 38), or where a slot holds the walk (log 117). -/
def captureAddress (s : State) (ctx : Nat) (need : Need) (va n : Nat) : Option (Nat × Nat) × State :=
  let a : Accessor := { ctx := ctx, quad := 0, path := some .x, need := need }
  match translation s a va n with
  | (.ok pa key _, s) => (some (pa, key), s)
  | (.fault _ _, s) => (none, s)
  | (.miss, s) =>
    match walkTables s 0 ctx va with
    | (.leaf level pte _, s) =>
      match useLeaf s a va level pte with
      | .ok pa key _ => (some (pa, key), s)
      | _ => (none, s)
    | (_, s) => (none, s)

/-- A word of a line captured; the writes so far, and whether a word was lost. A write that a slot holds is made after it, behind
the stream's capture, which goes on (R381, R385; log 117). -/
def captureWord (ctx va : Nat) (w : Word) (acc : List Nat × Bool × State) : List Nat × Bool × State :=
  let (ids, lost, s) := acc
  match captureAddress s ctx .write (va % 2 ^ 64) 4 with
  | (some (pa, key), s) =>
    if heldBySlot s pa 4 then
      let (id, s) := newWrite s
      let late : LateWrite := { id := id, pa := pa, key := key, bytes := toLE 4 w.toNat }
      (id :: ids, lost, setStrips s fun t => { t with late := t.late ++ [late] })
    else
      let (id, s) := writeOwn (settleZero s pa 4) pa key (toLE 4 w.toNat) (some .x) []
      (id :: ids, lost, s)
  | (none, s) => (ids, true, s)

/-- The capture of a stream's frame. -/
def captureOf (s : State) (stream n : Nat) : Capture :=
  (s.strips.captures.find? fun c => c.stream == stream && c.frame == n).getD { stream := stream, frame := n }

/-- The signal of a captured frame raised as a release of its writes, behind those that a slot holds; whether that write was lost
(R381; log 117). -/
def captureSignal (s : State) (x : Stream) (c : Capture) : Bool × State :=
  let va := (sregOf s (0x880 + 8 * x.outIdx)).toNat
  if va % 32 ≠ 0 then (true, s)
  else match captureAddress s x.ctx .both va 32 with
    | (none, s) => (true, s)
    | (some (pa, key), s) =>
      let w : LateWrite := { pa := pa, key := key, signal := some (knownOn .x c.writes) }
      (false, if s.strips.late.isEmpty && !heldBySlot s pa 32 then latePut s w
        else setStrips s fun t => { t with late := t.late ++ [w] })

/-- The end of a frame's capture: the signal, and CAPTURE_LOST where a write was lost (R381). -/
def captureEnd (s : State) (stream n : Nat) (c : Capture) : State :=
  let x := streamOf s stream
  let (lost, s) := captureSignal s x c
  let s := setStrips s fun t => { t with captures := t.captures.filter fun y => y.stream != stream || y.frame != n }
  if c.lost.isEmpty && !lost then s
  else postEvent s 0xFFFF x.ctx 0x000C (n % 2 ^ 32 + x.outIdx % 16 * 2 ^ 32 + c.lost.length * 2 ^ 40 +
    if lost then 2 ^ 56 else 0)

/-- LOOPBACK_CAPTURE: at L_n(y) an output line is captured into the loopback buffer, and after the frame's last line the signal
is raised (R352, R381). Its operand is the stream, the frame and the line. -/
def execLoopbackCapture (s : State) : Out :=
  match s.arg with
  | .three stream n y =>
    let x := streamOf s stream
    if lineDue s stream 2 n y then
      let base := (sregOf s (0x800 + 8 * x.outIdx)).toNat
      let codes := lineCodes s stream n y
      let (ids, lost, s) := (List.zip (List.range codes.length) codes).foldl (fun acc e =>
        captureWord x.ctx (base + 4 * (y * x.outW + e.1)) e.2 acc) ([], false, lineSeen s stream n y)
      let c := captureOf s stream n
      let c := { c with writes := ids ++ c.writes, lost := if lost then c.lost ++ [y] else c.lost }
      let s := if y + 1 = x.outH then captureEnd s stream n c
        else setStrips s fun t => { t with
          captures := (t.captures.filter fun z => z.stream != stream || z.frame != n) ++ [c] }
      .next (lineDone s stream n y 1)
    else .next s
  | _ => .next s

/-! ### When they take place -/

/-- The alarms of a stream's output (R334, R336). -/
def alarmOutput (s : State) (stream : Nat) (x : Stream) : List Alarm :=
  let (n, k) := x.strip x.nextRead
  let (m, y) := x.line x.nextLine
  let j := y / x.stripH
  (if moreStrips x then [⟨x.deadline n k, ⟨.stripRead, .three stream n k⟩⟩] else []) ++
  (if x.active && decide (m * x.strips + j < x.nextRead) then
    if x.outKind = 0 then [⟨x.lineTime m y, ⟨.dpLineSend, .three stream m y⟩⟩]
    else if x.outKind = 1 then [⟨x.lineTime m y, ⟨.encodeStrip, .three stream m y⟩⟩]
    else [⟨x.lineTime m y, ⟨.loopbackCapture, .three stream m y⟩⟩]
  else [])

/-- The alarms of the outputs, once the keeper has released them (R426). -/
def alarmOutputs (s : State) : List Alarm :=
  if s.keep.released ≥ 3 then s.strips.streams.flatMap fun e => alarmOutput s e.1 e.2 else []

end Sys2Proof.Machine
end

