-- ==== Sys2Proof/Machine/QueueOps.lean ====
section
/-!
DEFINITION. The queue instructions (R296 to R302), the answer to a pop (R293, R294) and the overflow engine (R295).
-/

namespace Sys2Proof.Machine
open Sys2Proof

/-- A port that has a queue bound. -/
def portBound (st : Strand) (p : Fin 4) : Bool := (look st.ports p.val).isSome

/-- QBIND (R297). -/
def execQbind (p : Fin 4) (a : Reg) (s : State) : Out :=
  onStrand s fun i =>
    runForm false (uniSrcOk i.st a) true
      (fun j i => readyOr i j [srcW a] [] (readAll j [srcW a] 0 i fun vs i =>
        let n := (nth vs 0).toNat
        if n ≥ 4096 then .trap (illegalOperand 0x41) i
        else
          let q := queueOf i.s n
          if q.st = .free ∨ q.ctx ≠ i.st.ctx then .trap (illegalOperand 0x42) i
          else .ok { i with st := { i.st with ports := put i.st.ports p.val n } })) i

/-- QUNBIND (R297). -/
def execQunbind (p : Fin 4) (s : State) : Out :=
  onStrand s (runForm false true true fun _ i => .ok { i with st := { i.st with ports := del i.st.ports p.val } })

/-- QSTAT (R298). -/
def execQstat (d : Reg) (p : Fin 4) (s : State) : Out :=
  onStrand s fun i =>
    runForm (isPort d) (uniPairOk i.st d && portBound i.st p) true
      (fun j i => readyOr i j [] (pairOf d)
        (afterSpawns i (portQueue i.st p)
          (let q := queueOf i.s (portQueue i.st p)
           writeAll j (pairOf d) [q.status, BitVec.ofNat 32 q.count] i))) i

/-- The token that closes a queue at its tail (R300); sleepers on it wake (R93). -/
def closeQueue (s : State) (qid : Nat) (code : Option Nat) : State :=
  wakeSleepers (setQueue s qid fun q =>
    let q := if code.isSome then { q with err := true } else q
    match q.st with
    | .open_ => { q with st := .closed, token := some (q.tail, code), ecode := code.getD q.ecode }
    | .closed | .drained | .free => q) qid

/-- QCLOSE (R300). -/
def execQclose (p : Fin 4) (s : State) : Out :=
  onStrand s fun i =>
    runForm false (portBound i.st p) true
      (fun _ i =>
        afterSpawns i (portQueue i.st p) (.ok { i with s := closeQueue i.s (portQueue i.st p) none })) i

/-- QCLOSEE (R300). -/
def execQclosee (p : Fin 4) (a : Reg) (s : State) : Out :=
  onStrand s fun i =>
    runForm false (portBound i.st p && uniSrcOk i.st a) true
      (fun j i => readyOr i j [srcW a] [] (readAll j [srcW a] 0 i fun vs i =>
        afterSpawns i (portQueue i.st p)
          (.ok { i with s := closeQueue i.s (portQueue i.st p) (some ((nth vs 0).toNat % 2 ^ 24)) }))) i

/-- The words of an element of the queue bound to a port. -/
def portWords (i : Issue) (p : Fin 4) : Nat := (queueOf i.s (portQueue i.st p)).esize / 4

/-- QPOPS (R299). -/
def execQpops (d : Reg) (p : Fin 4) (b : Reg) (s : State) : Out :=
  onStrand s fun i =>
    let n := portWords i p
    let ds := (runOf d n).getD []
    runForm (isPort d || isPort b) (portBound i.st p && beadRunOk i.st d n && beadRunOk i.st b 1 && !ds.contains b) false
      (fun j i => readyOr i j [] (ds ++ [b]) (popAt i j 0 p fun r i =>
        match r with
        | (some bs, _) => writeAll j (ds ++ [b]) ((List.range n).map (wordOfElement bs) ++ [0]) i
        | (none, code) => writeAll j (ds ++ [b]) (List.replicate n 0 ++ [code]) i)) i

/-- A run of n uniform registers that exist. -/
def uniRunOk (st : Strand) (r : Reg) (n : Nat) : Bool :=
  match r with
  | .uni _ => (runOf r n).elim false fun l => l.all (regExists st)
  | _ => false

/-- QPUSHU (R301). -/
def execQpushu (p : Fin 4) (a : Reg) (s : State) : Out :=
  onStrand s fun i =>
    let n := portWords i p
    let srcs := srcsW ((runOf a n).getD [])
    runForm true (portBound i.st p && uniRunOk i.st a n) true
      (fun j i => readyOr i j srcs [] (readAll j srcs 0 i fun vs i =>
        pushBead i (portQueue i.st p) (elementOfWords vs))) i

/-- The first of a list of beads that has an empty source or destination, as the wait at it. -/
def firstWait (st : Strand) (srcs : List Reg) (dsts : List Reg) : List Nat → Option Wait
  | [] => none
  | j :: t =>
    match (srcs ++ dsts).find? fun r => !(fillOf st j r).isFull with
    | some r => some (waitReg st j r)
    | none => firstWait st srcs dsts t

/-- SPAWN (R302). Its beads make one reservation: until all their registers are full it stands at the first of them (log 119).
Resumed by RTT with no active bead left it has no effect (R410). -/
def execSpawn (d a : Reg) (p : Fin 4) (s : State) : Out :=
  onStrand s fun i =>
    let n := portWords i p
    let srcs := (runOf a n).getD []
    guarded i true (portBound i.st p && beadRunOk i.st d 1 && beadRunOk i.st a n)
      (let act := beadsLeft i.st
       if act.isEmpty then advance i
       else match firstWait i.st srcs [d] act with
       | some w => .block w { i with st := { i.st with pos := act.headD 0 } }
       | none =>
        let i := act.foldl (fun i j => acquireRegs i j srcs) i
        let (id, s) := newFlight i.s
        let (ids, s) := newWrites act.length s
        let ks := act.filterMap fun j => regKey i.st j d
        let op : SpawnOp :=
          { id := id, sid := i.sid, qid := portQueue i.st p, dst := ks, ids := ids
            elems := act.map fun j => elementOfWords (srcs.map (readReg i.st j)), pubs := carriedPubs i.st .b }
        advance { i with
          s := setFlight s fun f => { f with spawns := f.spawns ++ [op] }
          st := acquire (emptyKeys i.st ks) (knownOn .b ids) })

/-- SPAWN_RESERVATION: a SPAWN reserves and writes at its queue's home (R302). Its operand is the request. A strand that
has retired sees nothing of it (R86). -/
def execSpawnReservation (s : State) : Out :=
  match s.arg with
  | .one id =>
    match s.flight.spawns.find? fun x => x.id == id && !spawnHeld s x with
    | some op =>
      match look s.strands op.sid with
      | some st => .next (commit (reserveSpawn { s := s, sid := op.sid, st := st } op))
      | none => .next (reserveSpawn { s := s, sid := op.sid, st := {} } op).s
    | none => .next s
  | _ => .next s

/-- A pop request takes its element or meets the token, and the bead has its answer (R293, R294). -/
def answerPop (i : Issue) (op : PopOp) : Issue :=
  let q := queueOf i.s op.qid
  let i := { i with s := setFlight i.s fun f => { f with pops := f.pops.filter fun x => x.id != op.id } }
  if q.count > q.spilled then takeElement i op.qid
  else
    { i with
      s := setQueue i.s op.qid fun q => { q with st := .drained }
      st := { i.st with popped := i.st.popped ++ [(none, tokenWord q)] } }

/-- A pop may be answered: it returns something, and the strand's earlier accesses to the ring have performed (R199,
R293). -/
def popDue (s : State) (op : PopOp) : Bool :=
  let q := queueOf s op.qid
  popReady q && firstInOrder s op.sid op.id q.ringPa (2 ^ q.lslots * q.esize)

/-- POP_ARRIVAL: the home vault answers a pop request (R293, R294). Its operand is the request. -/
def execPopArrival (s : State) : Out :=
  match s.arg with
  | .one id =>
    match s.flight.pops.find? fun x => x.id == id with
    | some op =>
      match look s.strands op.sid with
      | some st => .next (if popDue s op then commit (answerPop { s := s, sid := op.sid, st := st } op) else s)
      | none => .next s
    | none => .next s
  | _ => .next s

/-! ### The overflow engine (R295) -/

/-- The publications that a set of writes carries. -/
def pubsOnWrites (s : State) (ws : List Nat) : List Pub :=
  (s.mem.log.filter fun w => ws.contains w.id).flatMap (·.pubs)

/-- The LPDDR6 lines that the spill head of a queue lies in. -/
def spillLines (q : HwQueue) : Nat :=
  ((spillPieces q q.spillHead).flatMap fun p => if isLpddr p.1 then linesOf p.1 p.2.2 else []).eraseDups.length

/-- Whether a spilled element can move into the ring, around the slots, and behind the writes of a save (R240, R295, R344). -/
def spillReady (s : State) (q : HwQueue) : Bool :=
  decide (q.spilled > 0) && decide (q.count - q.spilled < 2 ^ q.lslots) && unitFits s (spillLines q) &&
    !poolFirst s none q.ringPa

/-- The spill head moves into the ring on path C; one that cannot be read closes the queue with an error token, and what
stands behind it is lost (R295; log 19). -/
def moveSpill (s : State) (qid : Nat) : State :=
  let q := queueOf s qid
  let seq := (q.tail + 2 ^ 32 - q.spilled) % 2 ^ 32
  let ps := spillPieces q q.spillHead
  if ps.any fun x => eccHit s x.1 x.2.2 then
    let s := setQueue s qid fun q => { q with
      tail := seq, spilled := 0, err := true, ecode := 0x13, token := some (seq, some 0x13)
      st := if q.st = .drained then .drained else .closed }
    postEvent s qid q.ctx 0x0005 (0x13 + seq * 2 ^ 32)
  else
    let pubs := pubsOnWrites s (ps.flatMap fun x => newestWrites s x.1 x.2.2)
    let (bs, s) := readPieces s ps
    let pa := ringSlot q seq
    let s := settleZero s pa q.esize
    let (_, s) := writeOwn s pa 0 bs (some .c) pubs
    setQueue s qid fun q => { q with spilled := q.spilled - 1, spillHead := (q.spillHead + 1) % max 1 q.spillMax }

/-- SPILL_MOVE: the overflow engine moves the spill head of a queue into its ring (R295). Its operand is the queue. -/
def execSpillMove (s : State) : Out :=
  match s.arg with
  | .one qid => .next (if spillReady s (queueOf s qid) then moveSpill s qid else s)
  | _ => .next s

/-- The happenings of queues that may take place. -/
def dueQueues (s : State) : List Happening :=
  ((s.flight.spawns.filter fun x => !spawnHeld s x).map fun x => ⟨.spawnReservation, .one x.id⟩) ++
    ((s.flight.pops.filter (popDue s)).map fun x => ⟨.popArrival, .one x.id⟩) ++
    ((s.queues.filter fun e => spillReady s e.2).map fun e => ⟨.spillMove, .one e.1⟩)

end Sys2Proof.Machine
end

