-- ==== Sys2Proof/Machine/RasterOps.lean ====
section
/-!
DEFINITION. The raster forms of a strand: interpolation (R370), emitting fragments (R374, R375), EMITV (R361, R362), and
SRATE (R376).
-/

namespace Sys2Proof.Machine
open Sys2Proof

/-- A fault of a form in a kernel of the wrong kind (R361, R370, R375, R376). -/
def wrongKind : TrapInfo := illegalOperand 0x62

/-- Whether a strand shades fragments: its kernel is of kind 1 or 2 (R354). -/
def shades (i : Issue) : Bool := let k := (kernelOf i.s i.st).kind; k == 1 || k == 2

/-- Operand checks, then the kind of the kernel, then the beads. -/
def rasterForm (forbid ok kind : Bool) (f : Nat → Issue → BeadOut) (i : Issue) : BeadOut :=
  guarded i forbid ok (if !kind then .trap wrongKind i else (runBeads f i).andThen advance)

/-! ### Interpolation (R370) -/

/-- A bead register as the destination of an interpolation. -/
def interpDstOk (st : Strand) : Reg → Bool
  | .bead n => regExists st (.bead n)
  | _ => false

/-- λ2 × u + RN(λ1 × t + v0), each step rounded once (R370). -/
def interpolate (l1 l2 v0 v1 v2 : Word) : Word :=
  let t := rn (fAddVal (fp v1) (fNegVal (fp v0)))
  let u := rn (fAddVal (fp v2) (fNegVal (fp v0)))
  let m := rn (fAddVal (fMulVal (fp l1) (fp t)) (fp v0))
  rn (fAddVal (fMulVal (fp l2) (fp u)) (fp m))

/-- Hidden barycentric k of bead j: 0 and 1 the sample pair, 2 and 3 the centroid pair (R369). -/
def baryOf (st : Strand) (j k : Nat) : Word := lookD st.bary (4 * j + k) 0

/-- An interpolation form: `pair` is the first of its barycentrics, or none for IFLAT. -/
def formInterp (pair : Option Nat) (d a : Reg) (i : Issue) : BeadOut :=
  rasterForm (isPort d) (interpDstOk i.st d && beadRunOk i.st a 3) (shades i)
    (fun j i => beadOp (srcsW ((runOf a 3).getD [])) [d] (fun vs =>
      match pair with
      | none => [nth vs 0]
      | some k => [interpolate (baryOf i.st j k) (baryOf i.st j (k + 1)) (nth vs 0) (nth vs 1) (nth vs 2)]) j i) i

/-- IPERS (R370). -/
def execIpers (d a : Reg) (s : State) : Out := onStrand s (formInterp (some 0) d a)
/-- IFLAT (R370). -/
def execIflat (d a : Reg) (s : State) : Out := onStrand s (formInterp none d a)
/-- ICENT (R370). -/
def execIcent (d a : Reg) (s : State) : Out := onStrand s (formInterp (some 2) d a)

/-! ### Emitting (R374, R375) -/

/-- A bead's fragment goes to blend; a second emit faults with reason 0x63, and a helper's writes nothing (R375). -/
def emitBead (color : Option (List Word)) (z : Option Word) (j : Nat) (i : Issue) : BeadOut :=
  match look i.st.frags j with
  | none => .ok i
  | some f =>
    if f.helper then .ok { i with st := { i.st with frags := put i.st.frags j { f with emitted := true } } }
    else if f.emitted then .trap { illegalOperand 0x63 with bead := some j } i
    else
      let frags := put i.st.frags j { f with emitted := true }
      .ok { i with s := handFragment i.s i.st f color z i.sid, st := { i.st with frags := frags } }

/-- EMITC (R375). -/
def execEmitc (a : Reg) (s : State) : Out :=
  onStrand s fun i =>
    let srcs := srcsW ((runOf a 4).getD [])
    rasterForm true (beadRunOk i.st a 4) (shades i)
      (fun j i => readyOr i j srcs [] (readAll j srcs 0 i fun vs i => emitBead (some vs) none j i)) i

/-- EMITCZ (R375). -/
def execEmitcz (a b : Reg) (s : State) : Out :=
  onStrand s fun i =>
    let srcs := srcsW ((runOf a 4).getD [] ++ [b])
    rasterForm true (beadRunOk i.st a 4 && interpDstOk i.st b) ((kernelOf i.s i.st).kind == 1)
      (fun j i => readyOr i j srcs [] (readAll j srcs 0 i fun vs i =>
        emitBead (some (vs.take 4)) (some (nth vs 4)) j i)) i

/-- DISCARD (R375). -/
def execDiscard (s : State) : Out :=
  onStrand s fun i => rasterForm true true (shades i) (fun j i => emitBead none none j i) i

/-! ### EMITV (R361, R362) -/

/-- Whether a strand runs in a geometry pass, or in its replay (R361, R366). -/
def inGeometry (i : Issue) : Bool :=
  match (kernelOf i.s i.st).origin with
  | .geometry _ _ | .replay _ => true
  | _ => false

/-- A bead register outside the run of 12 that starts at a. -/
def statusOk (st : Strand) (d a : Reg) : Bool :=
  interpDstOk st d &&
    match d, a with
    | .bead x, .bead y => decide (x.val < y.val) || decide (y.val + 12 ≤ x.val)
    | _, _ => false

/-- EMITV: the triangle goes to the binner, and d is empty until it answers (R361, R362). -/
def execEmitv (d a b : Reg) (s : State) : Out :=
  onStrand s fun i =>
    let srcs := srcsW ((runOf a 12).getD [] ++ pairOf b)
    rasterForm true (beadRunOk i.st a 12 && beadRunOk i.st b 2 && pairOk i.st b && statusOk i.st d a) (inGeometry i)
      (fun j i => readyOr i j srcs [d] (readAll j srcs 0 i fun vs i =>
        match regKey i.st j d with
        | none => .ok i
        | some k =>
          let (id, s) := newFlight i.s
          let op : BinOp := { id := id, sid := i.sid, bead := j, kernel := i.st.kernel, dst := some k, vals := vs
                              pubs := carriedPubs i.st .x }
          .ok { i with s := setFlight s fun f => { f with bins := f.bins ++ [op] }, st := emptyKeys i.st [k] })) i

/-! ### SRATE (R376) -/

/-- The chain of a strand's kernel. -/
def chainOf (i : Issue) : Option (Nat × Chain) :=
  (kernelOf i.s i.st).chain.bind fun c => (look i.s.strips.chains c).map fun x => (c, x)

/-- SRATE (R376). -/
def execSrate (d a : Reg) (s : State) : Out :=
  onStrand s fun i =>
    guarded i true ((uniDstOk i.st d || d == .lc && dstOk i.st d) && uniSrcOk i.st a)
      (match chainOf i with
        | none => .trap wrongKind i
        | some (c, ch) =>
          if (kernelOf i.s i.st).kind ≠ 1 then .trap wrongKind i
          else
            (runUniform (fun i => readyOr i 255 (srcsW [a]) [d] (readAll 255 (srcsW [a]) 0 i fun vs i =>
              let v := (nth vs 0).toNat
              if v > 4 then .trap (illegalOperand 0x64) i
              else
                let floor := (chainStream i.s ch).floor
                let rung := if a = .zr then ch.rung else min floor (max ch.rung v)
                let s := { i.s with strips := { i.s.strips with chains := put i.s.strips.chains c { ch with rung := rung } } }
                writeDst 255 d (word rung) { i with s := s })) i).andThen advance)

end Sys2Proof.Machine
end

