-- ==== Sys2Proof/Machine/SfuFun.lean ====
section
/-!
DEFINITION. The functions of opcode 0x3B (R133 to R135): the fixed cases, the bounds of R134, and the device's own
result where it lies within them (log 10).
-/

namespace Sys2Proof.Machine
open Sys2Proof

/-! ### Fixed-point approximations, in units of 2^-640 -/

/-- One. -/
def fxOne : Int := (2 ^ 640 : Nat)
/-- The product of two fixed-point numbers. -/
def fxMul (a b : Int) : Int := a * b / fxOne
/-- A real as a fixed-point number. -/
def fxOf (x : Frac) : Int := x.num * fxOne / x.den
/-- A fixed-point number as a real. -/
def fxFrac (a : Int) : Frac := ⟨a, 2 ^ 640⟩

/-- Terms k of a power series with step t: Σ term, where each term is the last times x2 over the next divisor. -/
def fxSeries (x2 : Int) (div : Nat → Nat) : Nat → Nat → Int → Int
  | 0, _, _ => 0
  | n + 1, k, term => term + fxSeries x2 div n (k + 1) (fxMul term x2 / div k)

/-- e^x for |x| below about 1. -/
def fxExp (x : Int) : Int := fxSeries x (fun k => k + 1) 150 0 fxOne

/-- Σ z^(2k+1) / (2k+1): the inverse hyperbolic tangent of |z| ≤ 1/3. -/
def fxAtanhSum (z2 : Int) : Nat → Nat → Int → Int
  | 0, _, _ => 0
  | n + 1, k, p => p / (2 * k + 1 : Nat) + fxAtanhSum z2 n (k + 1) (fxMul p z2)

/-- ln of a number from 1 to 2. -/
def fxLn (m : Int) : Int :=
  let z := (m - fxOne) * fxOne / (m + fxOne)
  2 * fxAtanhSum (fxMul z z) 210 0 z

/-- ln 2. -/
def fxLn2 : Int := fxLn (2 * fxOne)

/-- Σ (−1)^k y^(2k+1) / (2k+1): the arctangent of 1/n. -/
def fxAtanSum (n2 : Int) : Nat → Nat → Int → Int
  | 0, _, _ => 0
  | m + 1, k, p => (if k % 2 = 0 then 1 else -1) * (p / (2 * k + 1 : Nat)) + fxAtanSum n2 m (k + 1) (p / n2)

/-- π, by Machin's formula. -/
def fxPi : Int := 16 * fxAtanSum 25 144 0 (fxOne / 5) - 4 * fxAtanSum 57121 44 0 (fxOne / 239)

/-- x reduced to about [−π, π]. -/
def fxReduce (x : Int) : Int := x - (x + fxPi) / (2 * fxPi) * (2 * fxPi)

/-- sin of a reduced argument. -/
def fxSin (r : Int) : Int := fxSeries (-(fxMul r r)) (fun k => (2 * k + 2) * (2 * k + 3)) 100 0 r
/-- cos of a reduced argument. -/
def fxCos (r : Int) : Int := fxSeries (-(fxMul r r)) (fun k => (2 * k + 1) * (2 * k + 2)) 100 0 fxOne

/-- 2^x, as a fixed-point number from 1 to 2 and the power of two that scales it. -/
def exp2Of (x : Frac) : Frac :=
  let n := x.num / x.den
  let f := fxOf (x.plus ⟨-n, 1⟩)
  (fxFrac (fxExp (fxMul f fxLn2))).scale n

/-- log2 x of a positive real. -/
def log2Of (x : Frac) : Frac :=
  let e := x.log
  let m := fxOf (x.scale (-e))
  (fxFrac (fxLn m * fxOne / fxLn2)).plus ⟨e, 1⟩

/-- tanh x of a real below 40 in size. Beyond, a real nearer to ±1 than any result can tell apart, and on the side of 0, as tanh x
is (log 10). -/
def tanhOf (x : Frac) : Frac :=
  if (Frac.mk 40 1).less x.mag then ⟨if x.num < 0 then 1 - 2 ^ 300 else 2 ^ 300 - 1, 2 ^ 300⟩
  else
    let e := exp2Of (Frac.times ⟨2 * x.num, x.den⟩ (fxFrac (fxOne * fxOne / fxLn2)))
    (e.plus ⟨-1, 1⟩).times (e.plus ⟨1, 1⟩).recip

/-! ### Bounds (R134) -/

/-- An ulp at a real y (R134). -/
def ulpOf (y : Frac) : Frac := dyadic 1 (max y.log (-126) - 23)

/-- The distance of two reals. -/
def gap (a b : Frac) : Frac := (a.plus ⟨-b.num, b.den⟩).mag

/-- The slack that covers the approximation, which is within 2^-600: no bound of the manual is made tighter by it, and it is
far below the distance of a 32-bit result from the edge of a bound (log 10). -/
def fxSlack : Frac := ⟨1, 2 ^ 400⟩

/-- The value of a result that is a number. -/
def finiteVal (c : Word) : Option Frac :=
  match fp c with
  | .zero _ => some ⟨0, 1⟩
  | .fin x => some x
  | _ => none

/-- A result within a distance of y. -/
def within (c : Word) (y bound : Frac) : Bool :=
  match finiteVal c with
  | some v => !((bound.plus fxSlack).less (gap v y))
  | none => false

/-- A result within k ulp of y, with the slack scaled to y. -/
def withinUlp (c : Word) (y : Frac) (k : Nat) : Bool :=
  match finiteVal c with
  | some v =>
    let u := ulpOf y
    !(((u.times ⟨k, 1⟩).plus (u.times fxSlack)).less (gap v y))
  | none => false

/-- A result within 1 ulp of 1/√x, tested on squares. -/
def withinRsq (c : Word) (x : Frac) : Bool :=
  match finiteVal c with
  | some v =>
    let y := (rootSticky x).recip
    let u := ulpOf y
    let sq := fun (z : Frac) => (z.times z).times x
    let lo := v.plus ⟨-u.num, u.den⟩
    let hi := v.plus u
    (decide (lo.num ≤ 0) || !((Frac.mk 1 1).less (sq lo))) && !((sq hi).less ⟨1, 1⟩)
  | none => false

/-- A power of two. -/
def isPow2 (x : Frac) : Bool :=
  let m := x.mag.times (dyadic 1 (-x.log))
  m.num == m.den

/-- The device's own result where it is allowed, else the nearest (log 10). -/
def choose (op : Nat) (x : Word) (ok : Word → Bool) (near : Frac) : Word :=
  let c := Config.sfu op x
  if ok c then c else rn near.toVal

/-- The sign bit of a word. -/
def signBit (c : Word) : Bool := bit c.toNat 31

/-- A subnormal or a signed zero. -/
def isTiny (c : Word) : Bool := bits c.toNat 30 23 == 0

/-- RCP: within 1 ulp, and beyond 2^126 a subnormal or a zero (R134, R135). -/
def rcpOf (x : Word) : Word :=
  match fp x with
  | .nan => nan32
  | .inf neg => if neg then 0x80000000 else 0
  | .zero neg => if neg then 0xFF800000 else 0x7F800000
  | .fin v =>
    let y := v.recip
    let near := rn (.fin y)
    if isPow2 v ∧ v.log ≥ -127 then near
    else
      let c := Config.sfu 0 x
      if withinUlp c y 1 && signBit c == decide (v.num < 0) && (isTiny c || !((Frac.mk (2 ^ 126) 1).less v.mag)) then c else near

/-- RSQ. -/
def rsqOf (x : Word) : Word :=
  match fp x with
  | .nan => nan32
  | .inf neg => if neg then nan32 else 0
  | .zero neg => if neg then 0xFF800000 else 0x7F800000
  | .fin v => if v.num < 0 then nan32 else choose 1 x (fun c => !signBit c && withinRsq c v) (rootSticky v).recip

/-- SQRT, correctly rounded. -/
def sqrtOf (x : Word) : Word :=
  match fp x with
  | .nan => nan32
  | .inf neg => if neg then nan32 else x
  | .zero _ => x
  | .fin v => if v.num < 0 then nan32 else rn (.fin (rootSticky v))

/-- EX2. Near the least subnormal the bound admits −0 and −2^-149 too (log 10). -/
def ex2Of (x : Word) : Word :=
  match fp x with
  | .nan => nan32
  | .inf neg => if neg then 0 else 0x7F800000
  | .zero _ => 0x3F800000
  | .fin v =>
    if !(v.less ⟨128, 1⟩) then 0x7F800000
    else if v.less ⟨-150, 1⟩ then 0
    else if v.num % v.den = 0 ∧ v.num / v.den ≥ -149 then rn (.fin (dyadic 1 (v.num / v.den)))
    else let y := exp2Of v; choose 3 x (fun c => withinUlp c y 2) y

/-- LG2. -/
def lg2Of (x : Word) : Word :=
  match fp x with
  | .nan => nan32
  | .inf neg => if neg then nan32 else x
  | .zero _ => 0xFF800000
  | .fin v =>
    if v.num < 0 then nan32
    else if isPow2 v then rn (Frac.toVal ⟨v.log, 1⟩)
    else
      let y := log2Of v
      choose 4 x (fun c => withinUlp c y 2 || within c y (dyadic 1 (-22))) y

/-- SIN or COS. -/
def trigOf (op : Nat) (f : Int → Int) (x : Word) (v : Frac) : Word :=
  if v.mag.less ⟨2 ^ 17 + 1, 1⟩ && !((Frac.mk (2 ^ 17) 1).less v.mag) then
    let y := fxFrac (f (fxReduce (fxOf v)))
    choose op x (fun c => within c y (dyadic 1 (-21))) y
  else
    choose op x (fun c => match finiteVal c with | some z => !((Frac.mk 1 1).less z.mag) | none => false) ⟨0, 1⟩

/-- SIN. -/
def sinOf (x : Word) : Word :=
  match fp x with
  | .nan | .inf _ => nan32
  | .zero _ => x
  | .fin v => trigOf 5 fxSin x v

/-- COS. -/
def cosOf (x : Word) : Word :=
  match fp x with
  | .nan | .inf _ => nan32
  | .zero _ => 0x3F800000
  | .fin v => trigOf 6 fxCos x v

/-- TANH. -/
def tanhFun (x : Word) : Word :=
  match fp x with
  | .nan => nan32
  | .inf neg => if neg then 0xBF800000 else 0x3F800000
  | .zero _ => x
  | .fin v =>
    let y := tanhOf v
    choose 7 x (fun c => withinUlp c y 2 || within c y (dyadic 1 (-22))) y

end Sys2Proof.Machine
end

