-- ==== Sys2Proof/Machine/Sfu.lean ====
section
/-!
DEFINITION. The instructions of the special-function queue: division (R105) and opcode 0x3B (R133 to R136).
-/

namespace Sys2Proof.Machine
open Sys2Proof

/-- A lane of the device by number. -/
def laneOf (st : Strand) : Nat := st.core * 64 + st.lane

/-- The entries taken in a lane's special-function queue (R136). -/
def sfuTaken (s : State) (lane : Nat) : Nat := s.flight.sfu.countP fun x => x.lane == lane

/-- One bead's part of a form of class V: it takes an entry, and its destination is empty until the result arrives
(R41, R136). lc is always full (R41): as a destination it takes the result as the bead issues, so that what follows in
program order meets it (R43; log 62). -/
def sfuBead (srcs : List Src) (d : Reg) (f : List Word → Word) (j : Nat) (i : Issue) : BeadOut :=
  readyOr i j srcs [d]
    (if sfuTaken i.s (laneOf i.st) ≥ 32 then .block .sfuFull i
     else withPorts i srcs [] fun i => readAll j srcs 0 i fun vs i =>
      let ks := if d = .lc then [] else regKeys i.st j [d]
      let op : SfuOp := { lane := laneOf i.st, sid := i.sid, bead := j, dst := ks, val := f vs }
      let st := if d = .lc then writeReg i.st j d (f vs) else emptyKeys i.st ks
      .ok { i with s := setFlight i.s fun fl => { fl with sfu := fl.sfu ++ [op] }, st := st })

/-- A form of class V; a q-port destination is refused by check 4 (R96). -/
def formSfu (d : Reg) (srcs : List Src) (f : List Word → Word) (i : Issue) : BeadOut :=
  let rs := srcs.map (·.reg)
  runForm (isPort d) (dstOk i.st d && !isPort d && rs.all (srcOk i.st) && classOk d rs) (allUniform (d :: rs))
    (sfuBead srcs d f) i

/-- DIVU (R105). -/
def execDivu (d a b : Reg) (ea eb : Bool) (s : State) : Out :=
  onStrand s (formSfu d [src a ea, src b eb] fun vs => divU (nth vs 0) (nth vs 1))

/-- DIVS (R105). -/
def execDivs (d a b : Reg) (ea eb : Bool) (s : State) : Out :=
  onStrand s (formSfu d [src a ea, src b eb] fun vs => divS (nth vs 0) (nth vs 1))

/-- REMU (R105). -/
def execRemu (d a b : Reg) (ea eb : Bool) (s : State) : Out :=
  onStrand s (formSfu d [src a ea, src b eb] fun vs => remU (nth vs 0) (nth vs 1))

/-- REMS (R105). -/
def execRems (d a b : Reg) (ea eb : Bool) (s : State) : Out :=
  onStrand s (formSfu d [src a ea, src b eb] fun vs => remS (nth vs 0) (nth vs 1))

/-- RCP (R134, R135). -/
def execRcp (d a : Reg) (ea : Bool) (s : State) : Out :=
  onStrand s (formSfu d [src a ea] fun vs => rcpOf (nth vs 0))

/-- RSQ (R134, R135). -/
def execRsq (d a : Reg) (ea : Bool) (s : State) : Out :=
  onStrand s (formSfu d [src a ea] fun vs => rsqOf (nth vs 0))

/-- SQRT (R134, R135). -/
def execSqrt (d a : Reg) (ea : Bool) (s : State) : Out :=
  onStrand s (formSfu d [src a ea] fun vs => sqrtOf (nth vs 0))

/-- EX2 (R134, R135). -/
def execEx2 (d a : Reg) (ea : Bool) (s : State) : Out :=
  onStrand s (formSfu d [src a ea] fun vs => ex2Of (nth vs 0))

/-- LG2 (R134, R135). -/
def execLg2 (d a : Reg) (ea : Bool) (s : State) : Out :=
  onStrand s (formSfu d [src a ea] fun vs => lg2Of (nth vs 0))

/-- SIN (R134, R135). -/
def execSin (d a : Reg) (ea : Bool) (s : State) : Out :=
  onStrand s (formSfu d [src a ea] fun vs => sinOf (nth vs 0))

/-- COS (R134, R135). -/
def execCos (d a : Reg) (ea : Bool) (s : State) : Out :=
  onStrand s (formSfu d [src a ea] fun vs => cosOf (nth vs 0))

/-- TANH (R134, R135). -/
def execTanh (d a : Reg) (ea : Bool) (s : State) : Out :=
  onStrand s (formSfu d [src a ea] fun vs => tanhFun (nth vs 0))

/-- SFU_RESULT_ARRIVAL: the oldest entry of a lane delivers (R136). Its operand is the lane's number. -/
def execSfuResultArrival (s : State) : Out :=
  match s.arg with
  | .one lane =>
    match takeFirst (fun x => x.lane == lane) s.flight.sfu with
    | none => .next s
    | some (op, rest) =>
      let s := setFlight s fun f => { f with sfu := rest }
      .next { s with strands := upd s.strands op.sid fun st => fillKeys st op.dst [op.val] }
  | _ => .next s

/-- The oldest entry of each lane's queue may deliver (R136). -/
def dueSfu (s : State) : List Happening :=
  ((s.flight.sfu.map (·.lane)).eraseDups).map fun l => ⟨.sfuResultArrival, .one l⟩

end Sys2Proof.Machine
end

