-- ==== Sys2Proof/Machine/Streams.lean ====
section
/-!
DEFINITION. STREAM_SET (R331 to R333, R358, R379, R380) and FRAME_SUBMIT (R354, R355).
-/

namespace Sys2Proof.Machine
open Sys2Proof

/-! ### The record of a stream (R332) -/

/-- The stream that a record describes. -/
def parseStream (r : Nat) : Stream :=
  { tOrigin := bits r 383 320, lineP := bits r 319 288, vTotal := bits r 287 272, vStart := bits r 271 256
    outW := bits r 255 240, outH := bits r 239 224, rendW := bits r 223 208, rendH := bits r 207 192
    cInit := bits r 191 160, eInit := bits r 159 128, fill := bits r 125 96, ring := bits r 95 80
    outIdx := bits r 63 56, outKind := bits r 55 54, up := bits r 53 52, sh := bits r 51 50, lead := bits r 49 46
    halo := bits r 45 42, floor := bits r 41 39, ctx := bits r 37 32 }

/-- The bits of a record that must be zero are. -/
def streamMbz (r : Nat) : Bool := bits r 127 126 == 0 && bits r 79 64 == 0 && !bit r 38 && bits r 31 0 == 0

/-- The fields of a record are in their ranges (R332, R333). -/
def Stream.inRange (x : Stream) : Bool :=
  x.lineP != 0 && x.outKind != 3 && decide (1 ≤ x.lead) && decide (x.lead ≤ 8) && decide (x.halo ≤ 8) &&
    decide (x.floor ≤ 4) && decide (x.ring < 64) &&
    decide (x.outIdx < if x.outKind = 0 then 4 else if x.outKind = 1 then 64 else 16)

/-- The limits of R333 between fields. -/
def Stream.consistent (x : Stream) : Bool :=
  (x.outKind != 1 || x.sh == 3) && x.outW * x.den == x.rendW * x.num && x.outH * x.den == x.rendH * x.num &&
    x.outW != 0 && x.outH != 0 && x.rendW != 0 && x.rendH != 0 && decide (x.vStart + x.outH ≤ x.vTotal) &&
    decide (x.lead * x.stripH * x.lineP ≤ x.vTotal * x.lineP)

/-- The areas of a stream's ring lie in the ring store and are large enough (R358). -/
def ringFits (s : State) (x : Stream) : Bool :=
  let v := bits (ringDesc s x.ring) 5 0
  let store := (ringArea (vaultMap s v)).2
  let ends := fun (lo n : Nat) => decide (areaOff s x lo + n ≤ store)
  decide (v < 48) && decide (nlines s x ≥ x.slotsM * x.bandB + 2 * x.halo) &&
    ends 48 (nlines s x * x.pitchR) && ends 64 (x.slotsM * x.stripH * x.pitchO) &&
    ends 80 (x.slotsM * x.bandB * x.pitchR) && ends 96 (2 * binHalf s x) &&
    decide (binHalf s x ≥ x.strips * lcap s x * 4 + 64)

/-- Active streams of a kind of output. -/
def activeOf (s : State) (kind : Nat) : List Stream :=
  (s.strips.streams.filter fun e => e.2.active && e.2.outKind == kind).map (·.2)

/-- The DisplayPort limits: a port feeds one stream, and its lanes carry the pixels (R379). Codes of rate and lanes that
name none carry nothing (log 42). -/
def portFits (s : State) (x : Stream) : Bool :=
  let cfg := (sregOf s (0x980 + 8 * x.outIdx)).toNat
  let rate := if bits cfg 1 0 = 0 then 20 else if bits cfg 1 0 = 1 then 27 else if bits cfg 1 0 = 2 then 40 else 0
  let lanes := if bits cfg 3 2 = 0 then 1 else if bits cfg 3 2 = 1 then 2 else if bits cfg 3 2 = 2 then 4 else 0
  let depth := if bit cfg 4 then 8 else 10
  !((activeOf s 0).any fun y => y.outIdx == x.outIdx) &&
    decide (3 * depth * x.outW * 2 ^ 16 * 2 * 132 ≤ lanes * rate * 128 * x.lineP)

/-- Pixels per second of a stream. -/
def Stream.pixelRate (x : Stream) : Frac := ⟨x.outW * x.outH * 2 ^ 16 * 10 ^ 9, max 1 (x.vTotal * x.lineP)⟩

/-- The encode pipeline of a session (R421). -/
def pipelineOf (s : State) (x : Stream) : Nat := bits (sregOf s (0xA00 + 16 * x.outIdx)).toNat 53 50

/-- The encoder's limits (R380). -/
def sessionFits (s : State) (x : Stream) : Bool :=
  let same := (activeOf s 1).filter fun y => pipelineOf s y == pipelineOf s x
  x.outW % 2 == 0 && x.outH % 2 == 0 && decide (x.outW ≤ 3840) && decide (x.outH ≤ 2160) &&
    (sregOf s (0xA00 + 16 * x.outIdx)).getLsbD 63 &&
    !Frac.less ⟨497664000, 1⟩ (same.foldl (fun n y => n.plus y.pixelRate) x.pixelRate)

/-- Whether SET accepts a record for a stream (R333, R358, R379, R380). -/
def streamAccepted (s : State) (n r : Nat) : Bool :=
  let x := parseStream r
  let c := lookD s.ctxs x.ctx {}
  !(streamOf s n).active && c.st == .active && c.prio && streamMbz r && x.inRange && x.consistent && ringFits s x &&
    (x.outKind != 0 || portFits s x) && (x.outKind != 1 || sessionFits s x)

/-- The least frame whose A_0 lies after a time (R333). -/
def Stream.frameAfter (x : Stream) (now : Int) : Nat :=
  if x.start 0 0 > now then 0 else ((now - x.start 0 0) / (x.vTotal * x.lineP)).toNat + 1

/-- A chain that keeps its stream and its frame as they are, under a number of its own: what is left of it goes on beside the
stream's next use (R337, R351, R413; log 130). -/
def detachChain (s : State) (c : Nat) (ch : Chain) : State :=
  let (id, s) := newFlight s
  let d := 2 * id + 1
  let move := fun (k : Kernel) =>
    if k.chain = some c then
      { k with
        chain := some d
        origin := match k.origin with | .chain _ => .chain d | .replay _ => .replay d | o => o }
    else k
  { s with
    cmd := { s.cmd with kernels := s.cmd.kernels.map fun e => (e.1, move e.2) }
    strips := { s.strips with
      chains := put (del s.strips.chains c) d { ch with oldStream := some (chainStream s ch), oldFrame := frameOf s ch }
      frags := s.strips.frags.map fun e => if e.2.chain = c then (e.1, { e.2 with chain := d }) else e } }

/-- What is left of a stream's use as its number is set anew: the chains of which something lives, and geometry kernels, which
bin nothing more (log 130). -/
def detachChains (s : State) (n : Nat) : State :=
  let old := s.strips.chains.filter fun e => e.2.isOf n && chainLives s e.1 e.2
  let s := old.foldl (fun s e => detachChain s e.1 e.2) s
  let move := fun (k : Kernel) => match k.origin with
    | .geometry stream f => if stream = n then { k with origin := .geometry 64 f } else k
    | _ => k
  { s with cmd := { s.cmd with kernels := s.cmd.kernels.map fun e => (e.1, move e.2) } }

/-- A stream made active: the predictor begins anew, and of an earlier use of its number only what still runs is left (R333,
R348). -/
def activate (s : State) (n : Nat) (x : Stream) : State :=
  let s := detachChains s n
  let f := x.frameAfter s.clk.tb
  let x := { x with
    active := true, firstFrame := f, cost := (List.range 5).map fun r => x.cInit / rungQuads r, eUp := x.eInit * 2 ^ 16
    nextClear := f * x.strips, nextStart := f * x.strips, nextRead := f * x.strips, nextLine := f * x.outH }
  setStrips s fun t => { t with
    streams := put t.streams n x
    frames := t.frames.filter fun e => e.stream != n
    chains := t.chains.filter fun e => !e.2.isOf n
    marks := t.marks.filter fun m => m.1 != n
    readMarks := t.readMarks.filter fun e => e.1 / 2 % 64 != n
    captures := t.captures.filter fun c => c.stream != n
    encoders := if x.outKind = 1 then del t.encoders x.outIdx else t.encoders }

/-- A row of STREAM_SET: the packet must come from the supervisor's queue with a control word in its map; a code that names
no op goes to SET's row (R331). -/
def onStreamSet (s : State) (stop : Bool) (f : Nat → Nat → State → Option State) : Out :=
  match s.arg with
  | .one cq =>
    match packetAt s cq with
    | some p =>
      if (bits p.body 63 56 == 1) == stop then
        onFresh s 8 56 fun cq p s =>
          if !p.sup || bits p.body 55 6 != 0 || decide (bits p.body 63 56 > 1) then reject s cq p
          else match f (bits p.body 5 0) (p.body / 2 ^ 64) s with
            | some s => takePacket s cq p
            | none => reject s cq p
      else .next s
    | none => .next s
  | _ => .next s

/-- STREAM_SET: a stream becomes active (R333). Its operand is the queue. -/
def execStreamSet (s : State) : Out :=
  onStreamSet s false fun n r s => if streamAccepted s n r then some (activate s n (parseStream r)) else none

/-- A stream stopped: no further chain is admitted, and one that has nothing left to read or send becomes inactive at once
(R333). -/
def stopStream (n : Nat) (s : State) : Option State :=
  let x := streamOf s n
  if !x.active || x.stopping then none
  else
    let (f, k) := x.strip x.nextRead
    let sent : Bool := decide (x.nextRead ≥ x.nextStart) && decide (x.nextLine ≥ f * x.outH + (x.outLines k).1)
    let s := setStrips s fun t => { t with chains := t.chains.filter fun e => !e.2.isOf n || e.2.st != .clearing }
    some (setStream s n fun x => { x with stopping := !sent, active := !sent })

/-- STREAM_STOP (R333). Its operand is the queue. -/
def execStreamStop (s : State) : Out := onStreamSet s true fun n _ s => stopStream n s

/-! ### FRAME_SUBMIT (R354, R355) -/

/-- The fields of a FRAME_SUBMIT. -/
structure FrameSubmit where
  ctab : Nat
  geom : Nat
  frame : Nat
  nk : Nat
  stream : Nat
  mbz : Bool
  deriving DecidableEq, Repr

/-- The fields of the packet (R354). -/
def frameSubmit (p : Packet) : FrameSubmit :=
  let x := p.body
  { ctab := bits x 191 128, geom := bits x 127 64, frame := bits x 63 32, nk := bits x 10 8 + 1, stream := bits x 5 0
    mbz := bits x 31 11 == 0 && bits x 7 6 == 0 }

/-- A FRAME_SUBMIT that its own fields, or the stream's state, reject (R355). -/
def frameBad (s : State) (p : Packet) (f : FrameSubmit) : Bool :=
  let x := streamOf s f.stream
  !f.mbz || f.ctab % 16 != 0 || f.geom % 64 != 0 || !x.active || x.stopping || x.ctx != p.ctx ||
    x.submitted.contains f.frame

/-- Whether every chain of frame n − 2 has ended (R340, R355). -/
def framePast (s : State) (f : FrameSubmit) : Bool :=
  let x := streamOf s f.stream
  decide (f.frame < x.firstFrame + 2) ||
    (decide (x.nextRead ≥ (f.frame - 1) * x.strips) &&
      s.strips.chains.all fun e => !e.2.isOf f.stream || e.2.frame + 2 != f.frame || e.2.st == .done || e.2.st == .missed)

/-- An entry of a chain table: the record's address and the entry word, unless a field breaks R354. -/
def chainEntry (bs : List Byte) : Option (Nat × ChainKernel) :=
  let w := field bs 8 8
  let a := field bs 0 8
  if bits w 63 9 ≠ 0 ∨ bits w 3 2 ≠ 0 ∨ bits w 5 4 = 3 ∨ bits w 1 0 = 3 ∨ a % 64 ≠ 0 then none
  else some (a, { lrec := {}, kind := bits w 1 0, blend := bit w 8, zearly := bit w 7, zw := bit w 6, zf := bits w 5 4 })

/-- The last entry is the upscale stage, and no other is (R355). -/
def kindsOk (l : List (Nat × ChainKernel)) : Bool :=
  match l.reverse with
  | last :: rest => last.2.kind == 2 && rest.all fun e => e.2.kind != 2
  | [] => false

/-- A record of 192 bytes read in pieces of 64. -/
def recordPieces (a : Nat) : List (Nat × Nat) := [(a, 64), (a + 64, 64), (a + 128, 64)]

/-- The records that entries name, read in order. -/
def readRecords (s : State) (cq : Nat) (p : Packet) (ctx : Nat) : List (Nat × ChainKernel) → Option (List ChainKernel) × CpAccess × State
  | [] => (some [], .ok 0 0, s)
  | (a, ck) :: t =>
    match cpRead s cq p ctx (recordPieces a) with
    | (some bs, _, s) =>
      match readRecords s cq p ctx t with
      | (some rest, r, s) => (some ({ ck with lrec := parseRecord bs } :: rest), r, s)
      | x => x
    | (none, r, s) => (none, r, s)

/-- The chain table and the records that it and `geom` name, read as the packet is accepted (R355). -/
def readFrame (s : State) (cq : Nat) (p : Packet) (ctx : Nat) (f : FrameSubmit) :
    Option (List ChainKernel × Option LaunchRec) × CpAccess × State :=
  match cpRead s cq p ctx ((List.range f.nk).map fun i => (f.ctab + 16 * i, 16)) with
  | (none, r, s) => (none, r, s)
  | (some bs, _, s) =>
    let es := (List.range f.nk).map fun i => chainEntry ((bs.drop (16 * i)).take 16)
    if es.any (·.isNone) || !kindsOk (es.filterMap id) then (none, .fault, s)
    else match readRecords s cq p ctx (es.filterMap id) with
      | (none, r, s) => (none, r, s)
      | (some ks, _, s) =>
        if f.geom = 0 then (some (ks, none), .ok 0 0, s)
        else match cpRead s cq p ctx (recordPieces f.geom) with
          | (some g, _, s) => (some (ks, some (parseRecord g)), .ok 0 0, s)
          | (none, r, s) => (none, r, s)

/-- A frame accepted: the geometry kernel is launched, and the strips whose time has come are cleared for (R340, R355,
R363). -/
def acceptFrame (s : State) (cq : Nat) (f : FrameSubmit) (ks : List ChainKernel) (g : Option LaunchRec) : State :=
  let q := cqOf s cq
  let fr : Frame := { stream := f.stream, frame := f.frame, kernels := ks, geom := g, know := q.know }
  let s := setStrips s fun t => { t with frames := t.frames ++ [fr] }
  let s := setStream s f.stream fun x => { x with submitted := f.frame :: x.submitted }
  let s := match g with
    | some r => (acceptKernel (clearBins s f.stream f.frame) (streamOf s f.stream).ctx r (.geometry f.stream f.frame) q.know 0 none true).2.2
    | none => s
  clearLate s f.stream f.frame

/-- A FRAME_SUBMIT is rejected, waits, or is accepted (R355). -/
def framePacket (cq : Nat) (p : Packet) (s : State) : State :=
  let f := frameSubmit p
  if frameBad s p f then reject s cq p
  else if !framePast s f then holdPacket s cq p .frameSubmit
  else match readFrame s cq p (streamOf s f.stream).ctx f with
    | (some (ks, g), _, s) => takePacket (acceptFrame s cq f ks g) cq p
    | (none, .wait, s) => s
    | (none, _, s) => reject s cq p

/-- FRAME_SUBMIT (R355). Its operand is the queue. -/
def execFrameSubmit (s : State) : Out := onFresh s 9 24 framePacket

/-- FRAME_SUBMIT_ACCEPT: a held FRAME_SUBMIT goes on once every chain of frame n − 2 has ended (R355). Its operand is the
queue. -/
def execFrameSubmitAccept (s : State) : Out := onPacket s 9 24 (fun q => q.held == .frameSubmit) framePacket

/-- Whether a held FRAME_SUBMIT may go on: its frame's turn has come, or it is rejected. -/
def frameReady (s : State) (cq : Nat) : Bool :=
  match packetAt s cq with
  | some p => let f := frameSubmit p; frameBad s p f || framePast s f
  | none => false

/-! ### When packets are taken -/

/-- The row that a packet at the head of its queue goes to, by type and op (R307). -/
def packetRow (p : Packet) : Option Instr :=
  let op := bits p.body 63 56
  match p.type with
  | 1 => some .launchPacket
  | 2 => some .feed
  | 3 => some .signalWrite
  | 4 => some .signalWait
  | 5 => some .seedPush
  | 6 => some .seedPop
  | 7 => some .seedFork
  | 8 => some (if op = 1 then .streamStop else .streamSet)
  | 9 => some .frameSubmit
  | 10 => some (if op = 1 then .queueReset else if op = 2 then .queueFree else if op = 3 then .queueResume else .queueOpen)
  | 11 => some .fenceSys
  | 12 => some (if op = 1 then .contextModify else if op = 2 then .contextDestroy else .contextCreate)
  | _ => none

/-- What may take place at a command queue: its next packet, or what a held packet waits for. -/
def dueQueue (s : State) (cq : Nat) (q : CmdQueue) : List Happening :=
  if !cmdUp s then []
  else match q.held with
    | .none =>
      if cqTakes s cq && !(q.packet.isSome && lpddrHeld s) then
        match packetAt s cq with
        | some p =>
          match packetRow p with
          | some r => [⟨r, .one cq⟩]
          | none => [⟨.doorbell, .two cq q.tail⟩]
        | none => []
      else []
    | .feed =>
      match packetAt s cq with
      | some p =>
        let qid := bits p.body 11 0
        let full : Bool := match roomOf s qid (queueOf s qid) with
          | .full _ => true
          | _ => false
        if feedBad s p || !full then [⟨.feedAppend, .one cq⟩] else []
      | none => []
    | .signalWait => if signalMet s cq then [⟨.signalWaitSatisfied, .one cq⟩] else []
    | .frameSubmit => if frameReady s cq then [⟨.frameSubmitAccept, .one cq⟩] else []
    | .drain => if q.kernels.isEmpty then [⟨.fenceSys, .one cq⟩] else []
    | .miss _ _ => []

/-- The happenings of command queues that may take place. -/
def dueCommands (s : State) : List Happening := s.cmd.cqs.flatMap fun e => dueQueue s e.1 e.2

end Sys2Proof.Machine
end

