-- ==== Sys2Proof/Machine/Texture.lean ====
section
/-!
DEFINITION. Texture reads: TEX, TEXL, TEXF and TEXG (R371 to R373).
-/

namespace Sys2Proof.Machine
open Sys2Proof

/-! ### Descriptors (R371) -/

/-- A texture descriptor (R371). -/
structure TexDesc where
  addr : Nat
  fmt : Nat
  lv : Nat
  wu : Nat
  wv : Nat
  lin : Bool
  mbz : Nat
  w : Nat
  h : Nat
  deriving DecidableEq, Repr

/-- The descriptor of four words. -/
def texDesc (vs : List Word) : TexDesc :=
  let l := (nth vs 2).toNat
  let e := (nth vs 3).toNat
  { addr := (pairAt vs 0).toNat, fmt := bits l 31 28, lv := bits l 27 24, wu := bits l 23 22, wv := bits l 21 20,
    lin := bit l 19, mbz := bits l 18 0, w := e % 2 ^ 16, h := e / 2 ^ 16 }

/-- A value outside the map of R371. -/
def TexDesc.bad (t : TexDesc) : Bool :=
  t.addr % 16 != 0 || decide (t.fmt > 3) || decide (t.wu > 1) || decide (t.wv > 1) || t.mbz != 0 ||
    decide (t.w = 0) || decide (t.w > 16384) || decide (t.h = 0) || decide (t.h > 16384) ||
    decide ((t.lv : Int) > floorLog2 (max t.w t.h) 1)

/-- Bytes of a texel (R371). -/
def TexDesc.texel (t : TexDesc) : Nat := if t.fmt = 2 then 8 else 4
/-- W_l. -/
def TexDesc.wAt (t : TexDesc) (l : Nat) : Nat := max 1 (t.w / 2 ^ l)
/-- H_l. -/
def TexDesc.hAt (t : TexDesc) (l : Nat) : Nat := max 1 (t.h / 2 ^ l)
/-- The row pitch of level l. -/
def TexDesc.pitch (t : TexDesc) (l : Nat) : Nat := 16 * ceilDiv (t.wAt l * t.texel) 16
/-- The address of level l, which follows level l − 1. -/
def TexDesc.base (t : TexDesc) (l : Nat) : Nat := (List.range l).foldl (fun a k => a + t.pitch k * t.hAt k) t.addr
/-- The address of texel (x, y) of level l. -/
def TexDesc.at_ (t : TexDesc) (l x y : Nat) : Nat := (t.base l + y * t.pitch l + x * t.texel) % 2 ^ 64

/-! ### Levels and coordinates (R372) -/

/-- min(max(n, 0), lv). -/
def clampLevel (lv : Nat) (n : Int) : Nat := min n.toNat lv

/-- The magnitude of a difference times a ratio of extents; a bead that is inactive makes it 0. -/
def stepOf (active : Bool) (x y : Word) (num den : Nat) : FVal :=
  if !active then .zero false
  else match fAddVal (fp x) (fNegVal (fp y)) with
    | .fin d => (Frac.times d.mag ⟨num, den⟩).toVal
    | .inf _ => .inf false
    | v => v

/-- The level of the largest of the steps (R372): 0 where one is NaN or all are 0, and ⌊log2 ρ + 1/2⌋ otherwise. -/
def levelOf (lv : Nat) (steps : List FVal) : Nat :=
  if steps.any (fun v => v matches .nan) then 0
  else if steps.any (fun v => v matches .inf _) then lv
  else
    let big := steps.foldl (fun (m : Frac) v => match v with | .fin x => if m.less x then x else m | _ => m) ⟨0, 1⟩
    if big.num = 0 then 0 else clampLevel lv ((Frac.times ⟨2, 1⟩ (big.times big)).log.fdiv 2)

/-- The level of a lod value, taken in place of log2 ρ (R372). -/
def levelOfLod (lv : Nat) (lod : Word) : Nat :=
  match fp lod with
  | .fin x => clampLevel lv ((2 * x.num + x.den).fdiv (2 * x.den))
  | .inf neg => if neg then 0 else lv
  | .zero _ => 0
  | .nan => 0

/-- An index wrapped: modulo the extent, or into it (R372). -/
def wrapIndex (mode extent : Nat) (i : Int) : Nat :=
  if mode = 0 then (i % (extent : Int)).toNat else (min (max i 0) (extent - 1)).toNat

/-- A coordinate on one axis: the two texel indices and the weight in 256ths. -/
structure Axis where
  i0 : Nat
  i1 : Nat
  weight : Nat
  deriving DecidableEq, Repr

/-- The index that an infinite coordinate is wrapped to: clamp takes it to an end of the level (R372), and where repeat
takes it is a free value (log 30). -/
def wrapInf (mode extent : Nat) (neg : Bool) (free : Nat) : Nat :=
  if mode = 0 then wrapIndex mode extent free else if neg then 0 else extent - 1

/-- The texel a coordinate names (R372). A NaN counts as 0. -/
def nearest (mode extent : Nat) (u : Word) (free : Nat) : Axis :=
  let one := fun (i : Int) => (⟨wrapIndex mode extent i, wrapIndex mode extent i, 0⟩ : Axis)
  match fp u with
  | .fin x => one ((x.num * extent).fdiv x.den)
  | .zero _ | .nan => one 0
  | .inf neg => one (wrapInf mode extent neg free)

/-- The two texels that a coordinate lies between, with its weight (R372). The weight at an infinite coordinate is a free
value (log 30). -/
def between (mode extent : Nat) (u : Word) (free : Nat) : Axis :=
  let two := fun (num : Int) (den : Nat) =>
    let i := num.fdiv den
    (⟨wrapIndex mode extent i, wrapIndex mode extent (i + 1), ((num - i * den) * 256 / den).toNat⟩ : Axis)
  match fp u with
  | .fin x => two (2 * x.num * extent - x.den) (2 * x.den)
  | .zero _ | .nan => two (-1) 2
  | .inf neg => ⟨wrapInf mode extent neg free, wrapInf mode extent neg (free + 1), free % 256⟩

/-! ### Texels (R371, R372) -/

/-- A unorm code of a width as FP32. -/
def unormWord (code top : Nat) : Word := rn (Frac.toVal ⟨code, top⟩)

/-- The channels of a texel (R371). RGB10A2 has the layout of a pixel (R358), and RGBA8 and RGBA16F hold R in the lowest
bits (log 31). -/
def texelChannels (fmt : Nat) (bs : List Byte) : List Word :=
  let x := ofLE bs
  if fmt = 0 then (List.range 4).map fun k => unormWord (bits x (8 * k + 7) (8 * k)) 255
  else if fmt = 1 then
    [unormWord (bits x 29 20) 1023, unormWord (bits x 19 10) 1023, unormWord (bits x 9 0) 1023, unormWord (bits x 31 30) 3]
  else if fmt = 2 then (List.range 4).map fun k => rn (floatVal .fp16 (bits x (16 * k + 15) (16 * k)))
  else [BitVec.ofNat 32 x, 0, 0, 0x3F800000]

/-- Lerp(x, y, t) of R372, with t in 256ths. -/
def lerp (x y : Word) (t : Nat) : Word :=
  rn (fAddVal (fp x) (fMulVal (Frac.toVal ⟨t, 256⟩) (fAddVal (fp y) (fNegVal (fp x)))))

/-- What a texture read delivers: one texel, the red channel of four, or four filtered. -/
def texResult (op : TexOp) (raw : List (List Byte)) : List Word :=
  let c := raw.map (texelChannels op.fmt)
  let at_ := fun (t k : Nat) => nth (c.getD t []) k
  if op.mode = 0 then c.getD 0 []
  else if op.mode = 2 then [at_ 0 0, at_ 1 0, at_ 2 0, at_ 3 0]
  else (List.range 4).map fun k => lerp (lerp (at_ 0 k) (at_ 1 k) op.alpha) (lerp (at_ 2 k) (at_ 3 k) op.alpha) op.beta

/-! ### The forms -/

/-- Extents of the fragments that a bead's quad holds (R372): 1 outside kind 1. -/
def quadExtents (i : Issue) (j : Nat) : Nat × Nat :=
  match look i.st.frags j with
  | some f => if (kernelOf i.s i.st).kind = 1 then (f.w, f.h) else (1, 1)
  | none => (1, 1)

/-- The steps of ρ over a bead's quad (R372). -/
def quadSteps (i : Issue) (j : Nat) (u v : Reg) (t : TexDesc) : List FVal :=
  let q := j / 4 * 4
  let (w, h) := quadExtents i j
  let on := fun k => i.st.flow.mask.getLsbD k
  let pair := fun (a b den : Nat) =>
    [stepOf (on a && on b) (readReg i.st a u) (readReg i.st b u) t.w den,
     stepOf (on a && on b) (readReg i.st a v) (readReg i.st b v) t.h den]
  pair q (q + 1) w ++ pair (q + 2) (q + 3) w ++ pair q (q + 2) h ++ pair (q + 1) (q + 3) h

/-- Texel addresses translated on path X (R373). -/
def texelAccess : List Nat → Nat → Issue → List (Nat × Nat) → (List (Nat × Nat) → Issue → BeadOut) → BeadOut
  | [], _, i, acc, k => k acc i
  | va :: t, n, i, acc, k =>
    beadAccess i va n .x .read fun pa key i => texelAccess t n i (acc ++ [(pa, key)]) k

/-- A texture read handed on; d to d + 3 are empty until its texels arrive (R373). -/
def startTexels (i : Issue) (j : Nat) (ds : List Reg) (t : TexDesc) (mode alpha beta : Nat) (vas : List Nat) : BeadOut :=
  texelAccess vas t.texel i [] fun texels i =>
    let ks := regKeys i.st j ds
    let (id, s) := newFlight i.s
    let op : TexOp :=
      { id := id, sid := i.sid, bead := j, dst := ks, fmt := t.fmt, mode := mode, alpha := alpha, beta := beta
        texels := texels, know := i.st.know, va := vas.headD 0, pc := i.st.pc }
    let s := setFlight s fun f => { f with texels := f.texels ++ [op] }
    .ok { i with s := texels.foldl (fun s x => needLines s x.1 t.texel x.2 true) s, st := emptyKeys i.st ks }

/-- The level of a read with coordinates (R372). -/
def texLevel (i : Issue) (form j : Nat) (a : Reg) (t : TexDesc) (lod : Word) : Nat :=
  if form = 0 then
    match runOf a 2 with
    | some [u, v] => levelOf t.lv (quadSteps i j u v t)
    | _ => 0
  else levelOfLod t.lv lod

/-- One bead's texture read: forms 0 TEX, 1 TEXL, 2 TEXF, 3 TEXG. -/
def texBead (form : Nat) (ds : List Reg) (a : Reg) (t : TexDesc) (j : Nat) (i : Issue) : BeadOut :=
  let srcs := srcsW ((runOf a 3).getD [])
  let quad := if form = 0 then (List.range 4).map (· + j / 4 * 4) else [j]
  match quad.findSome? fun k =>
      if k > j ∧ i.st.flow.mask.getLsbD k then (firstEmpty i.st k (srcs.take 2)).map fun x => waitReg i.st k x.reg else none with
  | some w => .block w i
  | none =>
    readyOr i j srcs ds (readAll j srcs 0 i fun vs i =>
      if form = 2 then
        let l := (nth vs 2).toNat
        if l > t.lv then writeAll j ds [0, 0, 0, 0] i
        else
          let x := wrapIndex t.wu (t.wAt l) (nth vs 0).toInt
          let y := wrapIndex t.wv (t.hAt l) (nth vs 1).toInt
          startTexels i j ds t 0 0 0 [t.at_ l x y]
      else
        let l := texLevel i form j a t (nth vs 2)
        let (f, s) := drawFree i.s
        let (g, s) := drawFree s
        let i := { i with s := s }
        if form ≠ 3 ∧ ¬ t.lin then
          let x := nearest t.wu (t.wAt l) (nth vs 0) f
          let y := nearest t.wv (t.hAt l) (nth vs 1) g
          startTexels i j ds t 0 0 0 [t.at_ l x.i0 y.i0]
        else
          let x := between t.wu (t.wAt l) (nth vs 0) f
          let y := between t.wv (t.hAt l) (nth vs 1) g
          startTexels i j ds t (if form = 3 then 2 else 1) x.weight y.weight
            [t.at_ l x.i0 y.i0, t.at_ l x.i1 y.i0, t.at_ l x.i0 y.i1, t.at_ l x.i1 y.i1])

/-- A register that starts a run of four bead registers at a multiple of 4 (R371). -/
def texDstOk (st : Strand) : Reg → Bool
  | .bead n => n.val % 4 == 0 && beadRunOk st (.bead n) 4
  | _ => false

/-- The strand held at the bead from which its instruction goes on. -/
def atFirst (i : Issue) : Issue :=
  { i with st := { i.st with pos := (beadsLeft i.st).headD 0 } }

/-- A texture form (R371, R373): its descriptor is checked before any bead executes. -/
def formTex (form : Nat) (d a b : Reg) (i : Issue) : BeadOut :=
  guarded i true (texDstOk i.st d && beadRunOk i.st a 3 && uniQuadOk i.st b)
    (match firstEmpty i.st 0 (srcsW (quadOf b)) with
      | some x => .block (waitReg i.st 0 x.reg) (atFirst i)
      | none =>
        let t := texDesc ((quadOf b).map (readReg i.st 0))
        if t.bad then .trap (illegalOperand 0x61) i
        else (runBeads (fun j i => texBead form (quadOf d) a t j (acquireRegs i 0 (quadOf b))) i).andThen advance)

/-- TEX (R372). -/
def execTex (d a b : Reg) (s : State) : Out := onStrand s (formTex 0 d a b)
/-- TEXL (R372). -/
def execTexl (d a b : Reg) (s : State) : Out := onStrand s (formTex 1 d a b)
/-- TEXF (R372). -/
def execTexf (d a b : Reg) (s : State) : Out := onStrand s (formTex 2 d a b)
/-- TEXG (R372). -/
def execTexg (d a b : Reg) (s : State) : Out := onStrand s (formTex 3 d a b)

/-! ### Arrival (R373) -/

/-- The texels of a read may return (R209, R373, R385). Of one that an uncorrectable error has stopped, the strand may be told
(R193, R412). -/
def texReady (s : State) (op : TexOp) : Bool :=
  if op.failed then !op.told && mayTell s op.sid op.pc
  else op.texels.all fun x => reachable s ((linesOf x.1 op.size).all op.served.contains) x.1 op.size &&
    !awaitsWrite s none op.know .x x.1 op.size

/-- The bytes of texels, and the writes they returned. -/
def readTexels (op : TexOp) (know : List Known) : List (Nat × Nat) → State → List (List Byte) × List Nat × State
  | [], s => ([], [], s)
  | (pa, key) :: t, s =>
    let s := openRead s pa op.size key true
    let (r, s) := readKnown s know .x pa op.size
    let (bs, ws, s) := readTexels op know t s
    (r.bytes :: bs, r.writes ++ ws, s)

/-- A texture read that an uncorrectable error has stopped, as a load is (R193, R412; log 32). -/
def failTexels (i : Issue) (op : TexOp) : Issue :=
  let told := mayFail i.st op.pc
  { i with
    s := setFlight i.s fun f => { f with
      texels := mapWhere (fun x => x.id == op.id) (fun x => { x with failed := true, told := told }) f.texels }
    st := if told then holdCause i.st { cause := 0x13, bead := op.bead, pc := op.pc, addr := BitVec.ofNat 64 op.va } else i.st }

/-- A texture read returns under what its strand knew at its issue (R209), or meets an uncorrectable error (R193; log 32). -/
def performTexels (i : Issue) (op : TexOp) : Issue :=
  let i := { i with s := op.texels.foldl (fun s x => settleZero s x.1 op.size) i.s }
  if op.failed || op.texels.any fun x => eccHit i.s x.1 op.size then failTexels i op
  else
    let s := setFlight i.s fun f => { f with texels := f.texels.filter fun x => x.id != op.id }
    let (raw, ws, s) := readTexels op op.know op.texels s
    let st := fillKeys i.st op.dst (texResult op raw)
    let ks := knownOn .x ws
    { i with s := s, st := { st with know := joinKnown st.know ks, reads := joinKnown st.reads ks } }

/-- TEXEL_ARRIVAL: the texels of a read arrive, and fill its destinations (R373). Its operand is the read. -/
def execTexelArrival (s : State) : Out :=
  match s.arg with
  | .one id =>
    match s.flight.texels.find? fun x => x.id == id with
    | some op => .next (if texReady s op then onOwner s op.sid fun i => performTexels i op else s)
    | none => .next s
  | _ => .next s

/-- The texture reads that may arrive. -/
def dueTexels (s : State) : List Happening := (s.flight.texels.filter (texReady s)).map fun x => ⟨.texelArrival, .one x.id⟩

end Sys2Proof.Machine
end

