-- ==== Sys2Proof/Machine/Dispatch.lean ====
section
/-!
DEFINITION. One arm for each instruction and happening: a direct call of its meaning.
-/

namespace Sys2Proof.Machine
open Sys2Proof

/-- The meaning of an instruction word of the strand that issues, or of a happening whose operand is `s.arg`. -/
def exec (i : Instr) (s : State) : Host.Outcome State Fault Refusal :=
  match i with
  | .ill tag => Sys2Proof.Machine.execIll tag s
  | .illErased tag => Sys2Proof.Machine.execIllErased tag s
  | .bra off => Sys2Proof.Machine.execBra off s
  | .call off => Sys2Proof.Machine.execCall off s
  | .bnz c off => Sys2Proof.Machine.execBnz c off s
  | .bz c off => Sys2Proof.Machine.execBz c off s
  | .brx a ea => Sys2Proof.Machine.execBrx a ea s
  | .callx a ea => Sys2Proof.Machine.execCallx a ea s
  | .jpt off => Sys2Proof.Machine.execJpt off s
  | .loop c off => Sys2Proof.Machine.execLoop c off s
  | .wait a => Sys2Proof.Machine.execWait a s
  | .sleept a ea => Sys2Proof.Machine.execSleept a ea s
  | .sleepq p => Sys2Proof.Machine.execSleepq p s
  | .sleepw a b ea eb => Sys2Proof.Machine.execSleepw a b ea eb s
  | .brkpt imm => Sys2Proof.Machine.execBrkpt imm s
  | .trap imm => Sys2Proof.Machine.execTrap imm s
  | .add d a b ea eb => Sys2Proof.Machine.execAdd d a b ea eb s
  | .addc d a b ea eb => Sys2Proof.Machine.execAddc d a b ea eb s
  | .sub d a b ea eb => Sys2Proof.Machine.execSub d a b ea eb s
  | .subb d a b ea eb => Sys2Proof.Machine.execSubb d a b ea eb s
  | .addi d a imm ea => Sys2Proof.Machine.execAddi d a imm ea s
  | .mul d a b ea eb => Sys2Proof.Machine.execMul d a b ea eb s
  | .mulhu d a b ea eb => Sys2Proof.Machine.execMulhu d a b ea eb s
  | .mulhs d a b ea eb => Sys2Proof.Machine.execMulhs d a b ea eb s
  | .mulhsu d a b ea eb => Sys2Proof.Machine.execMulhsu d a b ea eb s
  | .mad d a b ea eb => Sys2Proof.Machine.execMad d a b ea eb s
  | .divu d a b ea eb => Sys2Proof.Machine.execDivu d a b ea eb s
  | .divs d a b ea eb => Sys2Proof.Machine.execDivs d a b ea eb s
  | .remu d a b ea eb => Sys2Proof.Machine.execRemu d a b ea eb s
  | .rems d a b ea eb => Sys2Proof.Machine.execRems d a b ea eb s
  | .minu d a b ea eb => Sys2Proof.Machine.execMinu d a b ea eb s
  | .mins d a b ea eb => Sys2Proof.Machine.execMins d a b ea eb s
  | .maxu d a b ea eb => Sys2Proof.Machine.execMaxu d a b ea eb s
  | .maxs d a b ea eb => Sys2Proof.Machine.execMaxs d a b ea eb s
  | .and d a b ea eb => Sys2Proof.Machine.execAnd d a b ea eb s
  | .or d a b ea eb => Sys2Proof.Machine.execOr d a b ea eb s
  | .xor d a b ea eb => Sys2Proof.Machine.execXor d a b ea eb s
  | .andn d a b ea eb => Sys2Proof.Machine.execAndn d a b ea eb s
  | .andi d a imm ea => Sys2Proof.Machine.execAndi d a imm ea s
  | .ori d a imm ea => Sys2Proof.Machine.execOri d a imm ea s
  | .xori d a imm ea => Sys2Proof.Machine.execXori d a imm ea s
  | .shl d a b ea eb => Sys2Proof.Machine.execShl d a b ea eb s
  | .shr d a b ea eb => Sys2Proof.Machine.execShr d a b ea eb s
  | .sar d a b ea eb => Sys2Proof.Machine.execSar d a b ea eb s
  | .rol d a b ea eb => Sys2Proof.Machine.execRol d a b ea eb s
  | .shli d a n ea => Sys2Proof.Machine.execShli d a n ea s
  | .shri d a n ea => Sys2Proof.Machine.execShri d a n ea s
  | .sari d a n ea => Sys2Proof.Machine.execSari d a n ea s
  | .roli d a n ea => Sys2Proof.Machine.execRoli d a n ea s
  | .clz d a ea => Sys2Proof.Machine.execClz d a ea s
  | .ctz d a ea => Sys2Proof.Machine.execCtz d a ea s
  | .popc d a ea => Sys2Proof.Machine.execPopc d a ea s
  | .brev d a ea => Sys2Proof.Machine.execBrev d a ea s
  | .bfxu d a b ea eb => Sys2Proof.Machine.execBfxu d a b ea eb s
  | .bfxs d a b ea eb => Sys2Proof.Machine.execBfxs d a b ea eb s
  | .bfi d a b ea eb => Sys2Proof.Machine.execBfi d a b ea eb s
  | .ilv2 d a b ea eb => Sys2Proof.Machine.execIlv2 d a b ea eb s
  | .ilv3 d a b ea eb => Sys2Proof.Machine.execIlv3 d a b ea eb s
  | .dlv2 d a ea => Sys2Proof.Machine.execDlv2 d a ea s
  | .dlv3 d a b ea eb => Sys2Proof.Machine.execDlv3 d a b ea eb s
  | .ceq d a b ea eb => Sys2Proof.Machine.execCeq d a b ea eb s
  | .cne d a b ea eb => Sys2Proof.Machine.execCne d a b ea eb s
  | .cltu d a b ea eb => Sys2Proof.Machine.execCltu d a b ea eb s
  | .clts d a b ea eb => Sys2Proof.Machine.execClts d a b ea eb s
  | .cleu d a b ea eb => Sys2Proof.Machine.execCleu d a b ea eb s
  | .cles d a b ea eb => Sys2Proof.Machine.execCles d a b ea eb s
  | .cbit d a b ea eb => Sys2Proof.Machine.execCbit d a b ea eb s
  | .sel d a b ea eb => Sys2Proof.Machine.execSel d a b ea eb s
  | .abs d a ea => Sys2Proof.Machine.execAbs d a ea s
  | .neg d a ea => Sys2Proof.Machine.execNeg d a ea s
  | .sext8 d a ea => Sys2Proof.Machine.execSext8 d a ea s
  | .sext16 d a ea => Sys2Proof.Machine.execSext16 d a ea s
  | .movh d imm => Sys2Proof.Machine.execMovh d imm s
  | .orl d imm => Sys2Proof.Machine.execOrl d imm s
  | .mov d a ea => Sys2Proof.Machine.execMov d a ea s
  | .movp d a ea => Sys2Proof.Machine.execMovp d a ea s
  | .movf d a ea => Sys2Proof.Machine.execMovf d a ea s
  | .add64 d a b ea eb => Sys2Proof.Machine.execAdd64 d a b ea eb s
  | .sub64 d a b ea eb => Sys2Proof.Machine.execSub64 d a b ea eb s
  | .shl64 d a b ea eb => Sys2Proof.Machine.execShl64 d a b ea eb s
  | .shru64 d a b ea eb => Sys2Proof.Machine.execShru64 d a b ea eb s
  | .fadd d a b ea eb => Sys2Proof.Machine.execFadd d a b ea eb s
  | .fsub d a b ea eb => Sys2Proof.Machine.execFsub d a b ea eb s
  | .fmul d a b ea eb => Sys2Proof.Machine.execFmul d a b ea eb s
  | .ffma d a b ea eb => Sys2Proof.Machine.execFfma d a b ea eb s
  | .ffms d a b ea eb => Sys2Proof.Machine.execFfms d a b ea eb s
  | .fnma d a b ea eb => Sys2Proof.Machine.execFnma d a b ea eb s
  | .fnms d a b ea eb => Sys2Proof.Machine.execFnms d a b ea eb s
  | .fmin d a b ea eb => Sys2Proof.Machine.execFmin d a b ea eb s
  | .fmax d a b ea eb => Sys2Proof.Machine.execFmax d a b ea eb s
  | .fminn d a b ea eb => Sys2Proof.Machine.execFminn d a b ea eb s
  | .fmaxn d a b ea eb => Sys2Proof.Machine.execFmaxn d a b ea eb s
  | .fceq d a b ea eb => Sys2Proof.Machine.execFceq d a b ea eb s
  | .fclt d a b ea eb => Sys2Proof.Machine.execFclt d a b ea eb s
  | .fcle d a b ea eb => Sys2Proof.Machine.execFcle d a b ea eb s
  | .fcun d a b ea eb => Sys2Proof.Machine.execFcun d a b ea eb s
  | .fabs d a ea => Sys2Proof.Machine.execFabs d a ea s
  | .fneg d a ea => Sys2Proof.Machine.execFneg d a ea s
  | .fclass d a ea => Sys2Proof.Machine.execFclass d a ea s
  | .frne d a ea => Sys2Proof.Machine.execFrne d a ea s
  | .frtz d a ea => Sys2Proof.Machine.execFrtz d a ea s
  | .frdn d a ea => Sys2Proof.Machine.execFrdn d a ea s
  | .frup d a ea => Sys2Proof.Machine.execFrup d a ea s
  | .cvtuf d a ea => Sys2Proof.Machine.execCvtuf d a ea s
  | .cvtsf d a ea => Sys2Proof.Machine.execCvtsf d a ea s
  | .cvtfu d a ea => Sys2Proof.Machine.execCvtfu d a ea s
  | .cvtfs d a ea => Sys2Proof.Machine.execCvtfs d a ea s
  | .cvtn d a fmt rnd sat pos ea => Sys2Proof.Machine.execCvtn d a fmt rnd sat pos ea s
  | .cvtw d a fmt pos ea => Sys2Proof.Machine.execCvtw d a fmt pos ea s
  | .badd2 d a b ea eb => Sys2Proof.Machine.execBadd2 d a b ea eb s
  | .bmul2 d a b ea eb => Sys2Proof.Machine.execBmul2 d a b ea eb s
  | .hadd2 d a b ea eb => Sys2Proof.Machine.execHadd2 d a b ea eb s
  | .hmul2 d a b ea eb => Sys2Proof.Machine.execHmul2 d a b ea eb s
  | .bfma2 d a b ea eb => Sys2Proof.Machine.execBfma2 d a b ea eb s
  | .hfma2 d a b ea eb => Sys2Proof.Machine.execHfma2 d a b ea eb s
  | .rcp d a ea => Sys2Proof.Machine.execRcp d a ea s
  | .rsq d a ea => Sys2Proof.Machine.execRsq d a ea s
  | .sqrt d a ea => Sys2Proof.Machine.execSqrt d a ea s
  | .ex2 d a ea => Sys2Proof.Machine.execEx2 d a ea s
  | .lg2 d a ea => Sys2Proof.Machine.execLg2 d a ea s
  | .sin d a ea => Sys2Proof.Machine.execSin d a ea s
  | .cos d a ea => Sys2Proof.Machine.execCos d a ea s
  | .tanh d a ea => Sys2Proof.Machine.execTanh d a ea s
  | .idot4ss d a b ea eb => Sys2Proof.Machine.execIdot4ss d a b ea eb s
  | .idot4uu d a b ea eb => Sys2Proof.Machine.execIdot4uu d a b ea eb s
  | .idot4su d a b ea eb => Sys2Proof.Machine.execIdot4su d a b ea eb s
  | .idot4us d a b ea eb => Sys2Proof.Machine.execIdot4us d a b ea eb s
  | .fscl d a b ea eb => Sys2Proof.Machine.execFscl d a b ea eb s
  | .fexp d a ea => Sys2Proof.Machine.execFexp d a ea s
  | .fmnt d a ea => Sys2Proof.Machine.execFmnt d a ea s
  | .scani d a b ea eb => Sys2Proof.Machine.execScani d a b ea eb s
  | .scanx d a b ea eb => Sys2Proof.Machine.execScanx d a b ea eb s
  | .scanf d a b ea eb => Sys2Proof.Machine.execScanf d a b ea eb s
  | .scanfx d a b ea eb => Sys2Proof.Machine.execScanfx d a b ea eb s
  | .scanmaxs d a ea => Sys2Proof.Machine.execScanmaxs d a ea s
  | .scanmins d a ea => Sys2Proof.Machine.execScanmins d a ea s
  | .scanmaxu d a ea => Sys2Proof.Machine.execScanmaxu d a ea s
  | .scanminu d a ea => Sys2Proof.Machine.execScanminu d a ea s
  | .scanand d a ea => Sys2Proof.Machine.execScanand d a ea s
  | .scanor d a ea => Sys2Proof.Machine.execScanor d a ea s
  | .scanxor d a ea => Sys2Proof.Machine.execScanxor d a ea s
  | .sscani d a b ea eb => Sys2Proof.Machine.execSscani d a b ea eb s
  | .sscanx d a b ea eb => Sys2Proof.Machine.execSscanx d a b ea eb s
  | .sscanf d a b ea eb => Sys2Proof.Machine.execSscanf d a b ea eb s
  | .sscanfx d a b ea eb => Sys2Proof.Machine.execSscanfx d a b ea eb s
  | .redi d a ea => Sys2Proof.Machine.execRedi d a ea s
  | .redf d a ea => Sys2Proof.Machine.execRedf d a ea s
  | .redmax d a ea => Sys2Proof.Machine.execRedmax d a ea s
  | .redmin d a ea => Sys2Proof.Machine.execRedmin d a ea s
  | .vany d a ea => Sys2Proof.Machine.execVany d a ea s
  | .vall d a ea => Sys2Proof.Machine.execVall d a ea s
  | .vbal d a ea => Sys2Proof.Machine.execVbal d a ea s
  | .vcnt d a ea => Sys2Proof.Machine.execVcnt d a ea s
  | .bcast d a b ea eb => Sys2Proof.Machine.execBcast d a b ea eb s
  | .bfirst d a ea => Sys2Proof.Machine.execBfirst d a ea s
  | .blast d a ea => Sys2Proof.Machine.execBlast d a ea s
  | .prev d a b ea eb => Sys2Proof.Machine.execPrev d a b ea eb s
  | .next d a b ea eb => Sys2Proof.Machine.execNext d a b ea eb s
  | .rotp d a ea => Sys2Proof.Machine.execRotp d a ea s
  | .rotn d a ea => Sys2Proof.Machine.execRotn d a ea s
  | .permg d a b ea eb => Sys2Proof.Machine.execPermg d a b ea eb s
  | .perms d a b ea eb => Sys2Proof.Machine.execPerms d a b ea eb s
  | .topkd d a b ea eb => Sys2Proof.Machine.execTopkd d a b ea eb s
  | .topka d a b ea eb => Sys2Proof.Machine.execTopka d a b ea eb s
  | .topkm d a b ea eb => Sys2Proof.Machine.execTopkm d a b ea eb s
  | .matchB d a ea => Sys2Proof.Machine.execMatchB d a ea s
  | .match64 d a ea => Sys2Proof.Machine.execMatch64 d a ea s
  | .rand d => Sys2Proof.Machine.execRand d s
  | .randf d => Sys2Proof.Machine.execRandf d s
  | .electl d => Sys2Proof.Machine.execElectl d s
  | .electh d => Sys2Proof.Machine.execElecth d s
  | .ld d a p imm w => Sys2Proof.Machine.execLd d a p imm w s
  | .st d a p imm w => Sys2Proof.Machine.execSt d a p imm w s
  | .ldu d a p imm w => Sys2Proof.Machine.execLdu d a p imm w s
  | .lds d a imm w => Sys2Proof.Machine.execLds d a imm w s
  | .sts d a imm w => Sys2Proof.Machine.execSts d a imm w s
  | .atadd d a b p w => Sys2Proof.Machine.execAtadd d a b p w s
  | .atfadd d a b p => Sys2Proof.Machine.execAtfadd d a b p s
  | .atmins d a b p w => Sys2Proof.Machine.execAtmins d a b p w s
  | .atmaxs d a b p w => Sys2Proof.Machine.execAtmaxs d a b p w s
  | .atminu d a b p w => Sys2Proof.Machine.execAtminu d a b p w s
  | .atmaxu d a b p w => Sys2Proof.Machine.execAtmaxu d a b p w s
  | .atand d a b p w => Sys2Proof.Machine.execAtand d a b p w s
  | .ator d a b p w => Sys2Proof.Machine.execAtor d a b p w s
  | .atxor d a b p w => Sys2Proof.Machine.execAtxor d a b p w s
  | .atxch d a b p w => Sys2Proof.Machine.execAtxch d a b p w s
  | .atcas d a b p w => Sys2Proof.Machine.execAtcas d a b p w s
  | .fence paths kind scope => Sys2Proof.Machine.execFence paths kind scope s
  | .harr h => Sys2Proof.Machine.execHarr h s
  | .hwait h => Sys2Proof.Machine.execHwait h s
  | .hsync h => Sys2Proof.Machine.execHsync h s
  | .htest d h => Sys2Proof.Machine.execHtest d h s
  | .qbind p a => Sys2Proof.Machine.execQbind p a s
  | .qunbind p => Sys2Proof.Machine.execQunbind p s
  | .qstat d p => Sys2Proof.Machine.execQstat d p s
  | .qclose p => Sys2Proof.Machine.execQclose p s
  | .qclosee p a => Sys2Proof.Machine.execQclosee p a s
  | .qpops d p b => Sys2Proof.Machine.execQpops d p b s
  | .qpushu p a => Sys2Proof.Machine.execQpushu p a s
  | .spawn d a p => Sys2Proof.Machine.execSpawn d a p s
  | .launch d a => Sys2Proof.Machine.execLaunch d a s
  | .sigwr op scope a b => Sys2Proof.Machine.execSigwr op scope a b s
  | .sigwt cond scope a b => Sys2Proof.Machine.execSigwt cond scope a b s
  | .sigrd d a scope => Sys2Proof.Machine.execSigrd d a scope s
  | .cpy1 d a b => Sys2Proof.Machine.execCpy1 d a b s
  | .cpy2 d a b => Sys2Proof.Machine.execCpy2 d a b s
  | .fill d a b => Sys2Proof.Machine.execFill d a b s
  | .gath d a b => Sys2Proof.Machine.execGath d a b s
  | .scat d a b => Sys2Proof.Machine.execScat d a b s
  | .ftest d a => Sys2Proof.Machine.execFtest d a s
  | .fcancel a => Sys2Proof.Machine.execFcancel a s
  | .fwaith a => Sys2Proof.Machine.execFwaith a s
  | .fjoin d a b => Sys2Proof.Machine.execFjoin d a b s
  | .lput d a b => Sys2Proof.Machine.execLput d a b s
  | .lget d a b => Sys2Proof.Machine.execLget d a b s
  | .lradd d a b => Sys2Proof.Machine.execLradd d a b s
  | .lsig d a b => Sys2Proof.Machine.execLsig d a b s
  | .tex d a b => Sys2Proof.Machine.execTex d a b s
  | .texl d a b => Sys2Proof.Machine.execTexl d a b s
  | .texf d a b => Sys2Proof.Machine.execTexf d a b s
  | .texg d a b => Sys2Proof.Machine.execTexg d a b s
  | .ipers d a => Sys2Proof.Machine.execIpers d a s
  | .iflat d a => Sys2Proof.Machine.execIflat d a s
  | .icent d a => Sys2Proof.Machine.execIcent d a s
  | .emitc a => Sys2Proof.Machine.execEmitc a s
  | .emitcz a b => Sys2Proof.Machine.execEmitcz a b s
  | .emitv d a b => Sys2Proof.Machine.execEmitv d a b s
  | .srate d a => Sys2Proof.Machine.execSrate d a s
  | .mma d acc qa qb sa sb z sp f => Sys2Proof.Machine.execMma d acc qa qb sa sb z sp f s
  | .acz d tile => Sys2Proof.Machine.execAcz d tile s
  | .acld d a slot tile => Sys2Proof.Machine.execAcld d a slot tile s
  | .acst d a slot tile => Sys2Proof.Machine.execAcst d a slot tile s
  | .acstr d a tile => Sys2Proof.Machine.execAcstr d a tile s
  | .acldr d a tile => Sys2Proof.Machine.execAcldr d a tile s
  | .acfold d tile => Sys2Proof.Machine.execAcfold d tile s
  | .mquant d a b => Sys2Proof.Machine.execMquant d a b s
  | .mdeq d a b => Sys2Proof.Machine.execMdeq d a b s
  | .mpin d a b => Sys2Proof.Machine.execMpin d a b s
  | .munpin a b => Sys2Proof.Machine.execMunpin a b s
  | .sread d sr pr => Sys2Proof.Machine.execSread d sr pr s
  | .swrite sr b => Sys2Proof.Machine.execSwrite sr b s
  | .win a n ea => Sys2Proof.Machine.execWin a n ea s
  | .slotq d a sel => Sys2Proof.Machine.execSlotq d a sel s
  | .nop => Sys2Proof.Machine.execNop s
  | .ret => Sys2Proof.Machine.execRet s
  | .join => Sys2Proof.Machine.execJoin s
  | .exit => Sys2Proof.Machine.execExit s
  | .exits => Sys2Proof.Machine.execExits s
  | .waitld => Sys2Proof.Machine.execWaitld s
  | .waitsfu => Sys2Proof.Machine.execWaitsfu s
  | .waitall => Sys2Proof.Machine.execWaitall s
  | .yield => Sys2Proof.Machine.execYield s
  | .sleeptWake => Sys2Proof.Machine.execSleeptWake s
  | .sleepwRecheck => Sys2Proof.Machine.execSleepwRecheck s
  | .sfuResultArrival => Sys2Proof.Machine.execSfuResultArrival s
  | .loadArrival => Sys2Proof.Machine.execLoadArrival s
  | .storePerform => Sys2Proof.Machine.execStorePerform s
  | .cacheLineFill => Sys2Proof.Machine.execCacheLineFill s
  | .atomicPerform => Sys2Proof.Machine.execAtomicPerform s
  | .atomicReturn => Sys2Proof.Machine.execAtomicReturn s
  | .hingeDeadlock => Sys2Proof.Machine.execHingeDeadlock s
  | .spawnReservation => Sys2Proof.Machine.execSpawnReservation s
  | .popArrival => Sys2Proof.Machine.execPopArrival s
  | .spillMove => Sys2Proof.Machine.execSpillMove s
  | .sigwtRecheck => Sys2Proof.Machine.execSigwtRecheck s
  | .copyUnitStart => Sys2Proof.Machine.execCopyUnitStart s
  | .copyUnitDone => Sys2Proof.Machine.execCopyUnitDone s
  | .cancelReach => Sys2Proof.Machine.execCancelReach s
  | .futureDone => Sys2Proof.Machine.execFutureDone s
  | .futureFail => Sys2Proof.Machine.execFutureFail s
  | .flitReceive => Sys2Proof.Machine.execFlitReceive s
  | .flitAck => Sys2Proof.Machine.execFlitAck s
  | .fenceTokenArrive => Sys2Proof.Machine.execFenceTokenArrive s
  | .texelArrival => Sys2Proof.Machine.execTexelArrival s
  | .discard => Sys2Proof.Machine.execDiscard s
  | .binnerAnswer => Sys2Proof.Machine.execBinnerAnswer s
  | .matrixEntryStart => Sys2Proof.Machine.execMatrixEntryStart s
  | .matrixEntryEnd => Sys2Proof.Machine.execMatrixEntryEnd s
  | .mmaSpanStop => Sys2Proof.Machine.execMmaSpanStop s
  | .captureEnd => Sys2Proof.Machine.execCaptureEnd s
  | .shSave => Sys2Proof.Machine.execShSave s
  | .shLoad => Sys2Proof.Machine.execShLoad s
  | .shPark => Sys2Proof.Machine.execShPark s
  | .braidSaved => Sys2Proof.Machine.execBraidSaved s
  | .rtt => Sys2Proof.Machine.execRtt s
  | .trapEntry => Sys2Proof.Machine.execTrapEntry s
  | .dbgKill => Sys2Proof.Machine.execDbgKill s
  | .dbgResume => Sys2Proof.Machine.execDbgResume s
  | .walkStart => Sys2Proof.Machine.execWalkStart s
  | .walkDone => Sys2Proof.Machine.execWalkDone s
  | .missRespRetry => Sys2Proof.Machine.execMissRespRetry s
  | .missRespFault => Sys2Proof.Machine.execMissRespFault s
  | .invRange => Sys2Proof.Machine.execInvRange s
  | .invContext => Sys2Proof.Machine.execInvContext s
  | .invAll => Sys2Proof.Machine.execInvAll s
  | .invDone => Sys2Proof.Machine.execInvDone s
  | .zeroStart => Sys2Proof.Machine.execZeroStart s
  | .zeroDone => Sys2Proof.Machine.execZeroDone s
  | .vaultMapWrite => Sys2Proof.Machine.execVaultMapWrite s
  | .cacheUnitsWrite => Sys2Proof.Machine.execCacheUnitsWrite s
  | .cacheResizeDone => Sys2Proof.Machine.execCacheResizeDone s
  | .keyringLoad => Sys2Proof.Machine.execKeyringLoad s
  | .evrHeadWrite => Sys2Proof.Machine.execEvrHeadWrite s
  | .registerWrite => Sys2Proof.Machine.execRegisterWrite s
  | .doorbell => Sys2Proof.Machine.execDoorbell s
  | .cqEnSet => Sys2Proof.Machine.execCqEnSet s
  | .cqEnClear => Sys2Proof.Machine.execCqEnClear s
  | .launchPacket => Sys2Proof.Machine.execLaunchPacket s
  | .feed => Sys2Proof.Machine.execFeed s
  | .feedAppend => Sys2Proof.Machine.execFeedAppend s
  | .signalWrite => Sys2Proof.Machine.execSignalWrite s
  | .signalWait => Sys2Proof.Machine.execSignalWait s
  | .signalWaitSatisfied => Sys2Proof.Machine.execSignalWaitSatisfied s
  | .seedPush => Sys2Proof.Machine.execSeedPush s
  | .seedPop => Sys2Proof.Machine.execSeedPop s
  | .seedFork => Sys2Proof.Machine.execSeedFork s
  | .streamSet => Sys2Proof.Machine.execStreamSet s
  | .streamStop => Sys2Proof.Machine.execStreamStop s
  | .frameSubmit => Sys2Proof.Machine.execFrameSubmit s
  | .frameSubmitAccept => Sys2Proof.Machine.execFrameSubmitAccept s
  | .queueOpen => Sys2Proof.Machine.execQueueOpen s
  | .queueReset => Sys2Proof.Machine.execQueueReset s
  | .queueFree => Sys2Proof.Machine.execQueueFree s
  | .queueResume => Sys2Proof.Machine.execQueueResume s
  | .fenceSys => Sys2Proof.Machine.execFenceSys s
  | .contextCreate => Sys2Proof.Machine.execContextCreate s
  | .contextModify => Sys2Proof.Machine.execContextModify s
  | .contextDestroy => Sys2Proof.Machine.execContextDestroy s
  | .contextDrained => Sys2Proof.Machine.execContextDrained s
  | .contextZeroed => Sys2Proof.Machine.execContextZeroed s
  | .braidPlace => Sys2Proof.Machine.execBraidPlace s
  | .braidRestore => Sys2Proof.Machine.execBraidRestore s
  | .swapOut => Sys2Proof.Machine.execSwapOut s
  | .deterministicRelease => Sys2Proof.Machine.execDeterministicRelease s
  | .kernelEnd => Sys2Proof.Machine.execKernelEnd s
  | .chainClear => Sys2Proof.Machine.execChainClear s
  | .chainStart => Sys2Proof.Machine.execChainStart s
  | .replayLaunch => Sys2Proof.Machine.execReplayLaunch s
  | .quadForm => Sys2Proof.Machine.execQuadForm s
  | .rateCheckpoint => Sys2Proof.Machine.execRateCheckpoint s
  | .blendRetire => Sys2Proof.Machine.execBlendRetire s
  | .chainCutoff => Sys2Proof.Machine.execChainCutoff s
  | .cutoffRetire => Sys2Proof.Machine.execCutoffRetire s
  | .stripRead => Sys2Proof.Machine.execStripRead s
  | .dpLineSend => Sys2Proof.Machine.execDpLineSend s
  | .encodeStrip => Sys2Proof.Machine.execEncodeStrip s
  | .loopbackCapture => Sys2Proof.Machine.execLoopbackCapture s
  | .ptpSync => Sys2Proof.Machine.execPtpSync s
  | .ptpSyncTimeout => Sys2Proof.Machine.execPtpSyncTimeout s
  | .tbEnSet => Sys2Proof.Machine.execTbEnSet s
  | .tbEnClear => Sys2Proof.Machine.execTbEnClear s
  | .tbSet => Sys2Proof.Machine.execTbSet s
  | .slotDrainWindow => Sys2Proof.Machine.execSlotDrainWindow s
  | .refreshSlotStart => Sys2Proof.Machine.execRefreshSlotStart s
  | .calibrationSlotStart => Sys2Proof.Machine.execCalibrationSlotStart s
  | .retrainSlotStart => Sys2Proof.Machine.execRetrainSlotStart s
  | .sweepSlot => Sys2Proof.Machine.execSweepSlot s
  | .slotEnd => Sys2Proof.Machine.execSlotEnd s
  | .slotStretchEnd => Sys2Proof.Machine.execSlotStretchEnd s
  | .droopDetect => Sys2Proof.Machine.execDroopDetect s
  | .droopStep => Sys2Proof.Machine.execDroopStep s
  | .droopStepRemove => Sys2Proof.Machine.execDroopStepRemove s
  | .thermalShutdown => Sys2Proof.Machine.execThermalShutdown s
  | .boot => Sys2Proof.Machine.execBoot s
  | .heartbeat => Sys2Proof.Machine.execHeartbeat s
  | .watchdogTimeout => Sys2Proof.Machine.execWatchdogTimeout s
  | .recoveryEnd => Sys2Proof.Machine.execRecoveryEnd s
  | .kpRead => Sys2Proof.Machine.execKpRead s
  | .kpAttest => Sys2Proof.Machine.execKpAttest s
  | .keeperCmdDone => Sys2Proof.Machine.execKeeperCmdDone s
  | .linkEnSet => Sys2Proof.Machine.execLinkEnSet s
  | .linkEnClear => Sys2Proof.Machine.execLinkEnClear s
  | .linkTrained => Sys2Proof.Machine.execLinkTrained s
  | .linkTrainFail => Sys2Proof.Machine.execLinkTrainFail s
  | .linkRetrainPending => Sys2Proof.Machine.execLinkRetrainPending s
  | .launchAcceptance => Sys2Proof.Machine.execLaunchAcceptance s
  | .hostMemoryAccess => Sys2Proof.Machine.execHostMemoryAccess s
  | .ptpAnnounce => Sys2Proof.Machine.execPtpAnnounce s
  | .firmwareReplacement => Sys2Proof.Machine.execFirmwareReplacement s
  | .mgmtAttestRequest => Sys2Proof.Machine.execMgmtAttestRequest s

end Sys2Proof.Machine
end

