-- ==== Sys2Proof/Machine/Fetch.lean ====
section
/-!
DEFINITION. How a strand comes to issue: when a wait is over (R69), the lane's choice (R63, R64, R66), and the fetch of
the word (R36, R70).
-/

namespace Sys2Proof.Machine
open Sys2Proof

/-! ### Waits (R69) -/

/-- Whether what a blocked strand waits for has come. Waits on a miss, a time, a word and a signal end by happenings of
their own, which make the strand ready. -/
def waitOver (s : State) (sid : Nat) (st : Strand) : Wait → Bool
  | .reg k => (getKey st k).fill.isFull
  | .regs ks => ks.all fun k => (getKey st k).fill.isFull
  | .miss _ _ _ _ | .time _ | .word _ _ _ _ _ | .signal _ _ _ _ _ _ => false
  | .missFull q => (List.range 64).any fun r => (missRec s q r).isNone
  | .pop => !s.flight.pops.any fun x => x.sid == sid
  | .ports pops push => planPorts s push [] pops != .wait
  | .sfuFull => decide (sfuTaken s (laneOf st) < 32)
  | .hinge h => !(arrivalOf { s := s, sid := sid, st := st } h).isPending
  | .queue q => queueHolds (queueOf s q)
  | .future h => !handlePending s h
  | .table => (pickRecord (lookD s.ctxs st.ctx {})).isSome
  | .copyFull => decide ((copiesOf s (quadOfCore st.core)).length < 64)
  | .matrixFull => decide ((queueOfCore s st.core).length < 8) && s.eng.waiting.all fun e => e.1 != st.core
  | .launchFull => decide (s.flight.launches.length < 256)
  | .loads => !loadsDue s sid
  | .sfus => !sfusDue s sid
  | .all => (emptyRegs st).isEmpty
  | .fence p sys => fenceClear s sid p sys
  | .stores pa n => !awaitsWrite s (some sid) st.know .b pa n
  | .order pa n => firstInOrder s sid s.flight.nextId pa n
  | .lines pa n => !heldBySlot s pa n && !poolFirst s (some sid) pa
  | .spawns qid => !spawnsDue s sid qid
  | .perform => performedAll s sid
  | .shadow => st.shCmd == 4
  | .capture => !(braidOf s st).capture
  | .staging => stagingRoom s st.braid

/-- Whether everything is delivered that trap entry owes a strand before its handler's first instruction: loads, atomics and
special-function results (R136, R199, R396). An access that an uncorrectable error stopped delivers nothing (R193). -/
def delivered (s : State) (sid : Nat) : Bool :=
  loadsDone s sid &&
    (s.flight.atoms.all fun x => x.sid != sid || x.dst.isEmpty || (x.old.isNone && x.failed)) &&
    s.flight.sfu.all fun x => x.sid != sid || x.dst.isEmpty

/-- A strand that may issue: placed, ready or blocked no longer, with no asynchronous cause that it takes first, and no
delivery still owed to its handler (R69, R395, R396). -/
def strandReady (s : State) (sid : Nat) (st : Strand) : Bool :=
  (braidOf s st).st == .placed && !asyncReady s st && (!st.entering || delivered s sid) &&
    match st.run with
    | .ready => true
    | .blocked w => waitOver s sid st w
    | .parked | .halted _ => false

/-! ### The lane's choice (R64) -/

/-- Whether the lane takes the first strand before the second (R64): one that has not yielded (R92), the strip class, the
strand that issued least recently, the strand placed earlier. -/
def takenBefore (a b : Nat × Strand) : Bool :=
  if a.2.yielded != b.2.yielded then !a.2.yielded
  else if a.2.strip != b.2.strip then a.2.strip
  else if a.2.issued ≠ b.2.issued then decide (a.2.issued < b.2.issued)
  else if a.2.placed ≠ b.2.placed then decide (a.2.placed < b.2.placed)
  else decide (a.1 < b.1)

/-- A strand waits in the issuing state for the special-function queue, and its lane idles (R136). -/
def holdsLane (s : State) (e : Nat × Strand) : Bool :=
  e.2.run == .blocked .sfuFull && !strandReady s e.1 e.2 && (braidOf s e.2).st == .placed

/-- The strand that a lane takes next, if any (R64, R136). -/
def laneChoice (s : State) (core lane : Nat) : Option Nat :=
  let here := s.strands.filter fun e => e.2.core == core && e.2.lane == lane
  if here.any (holdsLane s) then none
  else
    let held := here.filter fun e => e.2.run == .blocked .sfuFull && strandReady s e.1 e.2
    let ready := if held.isEmpty then here.filter fun e => strandReady s e.1 e.2 else held
    match ready with
    | [] => none
    | x :: t => some (t.foldl (fun best e => if takenBefore e best then e else best) x).1

/-- The lanes that hold a strand. -/
def lanesInUse (s : State) : List (Nat × Nat) := (s.strands.map fun e => (e.2.core, e.2.lane)).eraseDups

/-- The strands that may issue next, one for a lane. -/
def issuers (s : State) : List Nat := (lanesInUse s).filterMap fun l => laneChoice s l.1 l.2

/-! ### Fetch (R36, R70) -/

/-- The values that a word has had since a kernel was launched, newest first (R36). -/
def wordVersions (s : State) (start pa : Nat) : List Word :=
  let lens := (List.range (s.mem.log.length - start)).filterMap fun k =>
    match s.mem.log[k]? with
    | some w => if overlaps w.pa w.new.length pa 4 then some (s.mem.log.length - k) else none
    | none => none
  (lens ++ [start]).map fun n => wordOfBytes (s.mem.readAsOf n pa 4)

/-- What a fetch comes to: a word, or a state in which the strand does not issue it. -/
inductive Fetched where
  | word (w : Word) (s : State)
  | stop (s : State)
  deriving DecidableEq, Repr

/-- The word at a physical address: as it was at the launch, or as a later write left it (R36; log 7). A word with an
uncorrectable error reads as it stands (log 103). -/
def fetchAt (i : Issue) (pa key : Nat) : Word × Issue :=
  let s := openRead (settleZero i.s pa 4) pa 4 key true
  let vs := (wordVersions s (kernelOf s i.st).startLog pa).eraseDups
  let (k, s) := if vs.length ≤ 1 then (0, s) else drawFree s
  (vs.getD (k % vs.length) 0, { i with s := s })

/-- The fault that a miss record left is taken at the bead that waits (R174, R322); in SAVE or LOAD it is a double fault with
the trap addresses set (R405). -/
def takeAccFault (i : Issue) (f : AccFault) : State :=
  let t : TrapInfo := { cause := f.cause, info := f.info, addr := f.addr }
  let i := { i with st := { i.st with accFault := none } }
  takeTrapAt (if i.st.shCmd = 0 then i else shadowFault i t) t i.st.pc (if f.fetch then 255 else i.st.pos)

/-- A strand's fetch: the word it is held at, or the one at its pc; a fault records the pc as trap_pc and bead 0xFF (R69,
R70, R174). A strand that blocks at a fetch has begun no bead: its place is 0xFF, or the bead at which RTT resumed it (log 100). -/
def fetchWord (i : Issue) : Fetched :=
  match i.st.accFault, i.st.insn with
  | some f, _ => .stop (takeAccFault i f)
  | none, some w => .word w (commit i)
  | none, none => go i (programAddr i.s i.st i.st.pc)
where
  /-- The translation, and the word. -/
  go (i : Issue) (va : Nat) : Fetched :=
    match translation i.s (fetchAccess i.st) va 4 with
    | (.fault cause info, s) =>
      .stop (takeTrapAt { i with s := s } { cause := cause, info := info, addr := va } i.st.pc 255)
    | (.miss, s) =>
      let a := fetchAccess i.st
      let (idx, s) := joinMiss s a va
      let w := match idx with | some idx => Wait.miss a.quad idx .fetch va | none => Wait.missFull a.quad
      .stop (commit { i with s := s, st := { i.st with
        run := .blocked w, blockedAt := s.clk.tb, pos := if i.st.pos = 0 then 255 else i.st.pos } })
    | (.ok pa key _, s) =>
      if heldBySlot s pa 4 then
        .stop (commit { i with s := s, st := { i.st with
          run := .blocked (.lines pa 4), blockedAt := s.clk.tb, pos := if i.st.pos = 0 then 255 else i.st.pos } })
      else
        let (w, i) := fetchAt { i with s := s } pa key
        .word w (commit { i with st := { i.st with insn := some w } })

/-- A lane's boundary has passed: what its strands yielded at is over (R92). -/
def pastBoundary (s : State) (core lane : Nat) : State :=
  { s with strands := s.strands.map fun e =>
      if e.2.core = core ∧ e.2.lane = lane then (e.1, { e.2 with yielded := false }) else e }

/-- The number of the instruction that a strand begins: a new one, or that of the instruction which RTT resumes at a bead (R203). -/
def stampOf (s : State) (st : Strand) : Nat :=
  match st.savedStamp with
  | some (pc, n) => if !st.inTrap && st.resuming && pc == st.pc && decide (0 < st.pos) && decide (st.pos < 255) then n else s.choice
  | none => s.choice

/-- A strand chosen by its lane: it issues (R64), and its word is fetched. -/
def beginIssue (s : State) (sid : Nat) : Fetched :=
  match look s.strands sid with
  | none => .stop s
  | some st =>
    let s := pastBoundary s st.core st.lane
    let st := { st with
      issued := s.choice, yielded := false, run := .ready, entering := false
      stamp := if st.insn.isNone then stampOf s st else st.stamp
      savedStamp := if st.inTrap then st.savedStamp else none }
    fetchWord { s := { s with cur := sid }, sid := sid, st := st }

end Sys2Proof.Machine
end

