-- ==== Sys2Proof/Machine/Passing.lean ====
section
/-!
DEFINITION. What may take place at a moment, which of it does, and how time passes (R61, R64, R66, R326).
-/

namespace Sys2Proof.Machine
open Sys2Proof

/-- One thing that may take place: a happening of the outside, a happening of the machine, or an issue by a strand. -/
inductive Chosen where
  | input (h : Happening)
  | happening (h : Happening)
  | strand (sid : Nat)
  deriving DecidableEq, Repr

/-- The happenings that have a time: of the keeper, and of the parts that are out of reset (R426, R427). -/
def alarms (s : State) : List Alarm :=
  (if clockRuns s then alarmSlots s ++ alarmChains s ++ alarmOutputs s ++ alarmClock s else []) ++ alarmKeeper s

/-- The alarms whose time has come. -/
def urgent (s : State) : List Alarm := (alarms s).filter fun a => decide (a.at_ ≤ s.clk.tb)

/-- What may take place in the lanes, the vaults, the engines and the parts that are released with the command processor or after
it. -/
def dueParts (s : State) : List Happening :=
  dueMemory s ++ dueSfu s ++ dueSync s ++ dueQueues s ++ dueTraps s ++ dueSlots s ++ dueCopies s ++ dueMatrix s ++ dueLinks s ++
    dueEnds s ++ dueKernels s ++ duePages s ++ dueTexels s ++ dueChains s ++ dueVaults s ++ dueCommands s ++
    dueContexts s

/-- The happenings of the machine that may take place: of the keeper, and of the parts that are out of reset (R426, R427). -/
def dueAll (s : State) : List Happening := (if clockRuns s then dueParts s else []) ++ dueKeeper s

/-- The part that a happening of the outside needs released, by its step of R426: 0 the keeper itself, with the management
port; 1 the power controller, which hears the quads' supplies; 4 the link controllers; 5 the application cores, which make every
access of the supervisor (R421); 2 the command processor, with the lanes, the vaults, the LPDDR6 controllers and the engines. -/
def partOf : Instr → Nat
  | .boot | .firmwareReplacement | .mgmtAttestRequest | .thermalShutdown => 0
  | .droopDetect | .droopStep | .droopStepRemove => 1
  | .linkTrained | .linkTrainFail | .linkRetrainPending | .flitReceive | .flitAck | .fenceTokenArrive => 4
  | .hostMemoryAccess | .registerWrite | .vaultMapWrite | .cacheUnitsWrite | .keyringLoad | .evrHeadWrite | .doorbell |
    .cqEnSet | .cqEnClear | .tbEnSet | .tbEnClear | .tbSet | .kpRead | .kpAttest | .linkEnSet | .linkEnClear |
    .missRespRetry | .missRespFault | .invRange | .invContext | .invAll | .zeroStart | .dbgKill | .dbgResume => 5
  | _ => 2

/-- Whether a happening of the outside finds its part released; on a part in reset it has no effect (R426, R427, R433). -/
def heard (s : State) (r : Instr) : Bool := decide (partOf r ≤ s.keep.released)

/-- All that may take place: what its time calls for comes before anything else; otherwise the next happening of the
outside, those of the machine, and one strand of each lane (log 1, 3). -/
def candidates (s : State) : List Chosen :=
  match urgent s with
  | [] => (s.inputs.take 1).map .input ++ (dueAll s).map .happening ++
    (if clockRuns s then issuers s else []).map .strand
  | l => l.map fun a => .happening a.what

/-- What takes place: the one candidate, or one that a free value picks (log 1). -/
def chosen (s : State) : Option Chosen :=
  match candidates { s with choice := s.choice + 1 } with
  | [] => none
  | [x] => some x
  | l => l[Config.free s.choice % l.length]?

/-- The core of the strand that issues, if one does. -/
def issuingCore (s : State) : Option Nat :=
  match chosen s with
  | some (.strand sid) => (look s.strands sid).map (·.core)
  | _ => none

/-- The word that a strand fetched names no instruction (R47). -/
def illegalWord (s : State) : Out := onStrand s fun i => .trap illegal i

/-- The time of the next alarm. -/
def nextAlarm (s : State) : Option Int :=
  (alarms s).foldl (fun acc a => match acc with | none => some a.at_ | some t => some (min t a.at_)) none

/-- The timebase after a free amount of time, which ends at the next alarm (log 2). It runs once the keeper has released
the command processor (R326, R426). The count goes on past 2^64 − 1, of which registers show the low 64 bits (log 123). -/
def laterTb (s : State) (dt : Nat) : Nat :=
  if clockRuns s then
    match nextAlarm s with
    | some t => max s.clk.tb (min (s.clk.tb + dt) t.toNat)
    | none => s.clk.tb + dt
  else s.clk.tb

/-- The cycle counters after a free number of cycles each, one at least on the core that issued (R326; log 2). -/
def laterCycles (core : Option Nat) (free : Nat) (cyc : SMap Nat) : SMap Nat :=
  let cyc := match core with | some c => put cyc c (lookD cyc c 0 + 1) | none => cyc
  cyc.map fun e => (e.1, e.2 + Config.free (free + e.1))

/-- A word of a vault that an error may meet: one of its address range, or of a line that a cache region holds (R193; log 43). -/
def struckWord (s : State) (n : Nat) : Nat :=
  match s.vaults.lines[Config.free n % (2 * s.vaults.lines.length + 1)]? with
  | some l => 16 * l.line + Config.free (n + 1) % 16
  | none => (vaultBase + Config.free (n + 1) % (48 * 2 ^ 26)) / 8

/-- An error may arise in a word of a vault while time passes: one that a read corrects, or one that cannot be corrected (R193;
log 43). -/
def strike (s : State) (n : Nat) : Memory :=
  let w := struckWord s (n + 1)
  if Config.free n % 3 = 1 then { s.mem with flips := if s.mem.flips.contains w then s.mem.flips else w :: s.mem.flips }
  else if Config.free n % 3 = 2 then { s.mem with ecc := if s.mem.ecc.contains w then s.mem.ecc else w :: s.mem.ecc }
  else s.mem

/-- Time passes after what took place (log 2): waits of chains are counted (R349), kernels that end during a recovery are noted
(R430), and an error may arise (R193). -/
def passTime (core : Option Nat) (s : State) : State :=
  let tb := laterTb s (Config.free s.choice)
  let s := countStalls (tb - s.clk.tb) (noteEnded s)
  { s with
    choice := s.choice + 196
    mem := strike s (s.choice + 193)
    clk := { s.clk with tb := tb, cyc := laterCycles core (s.choice + 1) s.clk.cyc } }

/-! ### A program in place (log 5) -/

/-- The launch record of the kernel that `placeProgram` lays down: one braid of one strand of 16 beads, 96 bead registers
and 32 uniform ones, no trap entry. -/
def probeRecord : LaunchRec :=
  { nstr := 0, wc := 0, rc := 5, uc := 3, save := 2, entry := 0, trap := noEntry, resume := noEntry }

/-- A machine as a launch leaves it (R320), whose one strand is about to fetch the word given: the parts are released, a
context is active, the program's page is in the fetch cache and its line in the cache region, and the first refresh slot is under way (log 5). -/
def placeProgram (s : State) (w : Word) : State :=
  let c : Context := { st := .active, saveQuota := 2, seeds := [0], pinQuota := 16, spillQuota := 16, keyCount := 1 }
  let k : Kernel := { ctx := 1, lrec := probeRecord, seed := 0, total := 1, placed := [0], t0 := some 0 }
  let t : Site := { core := 0, lanes := [0], slot := 0, winOff := 0, saveVault := 0, saveOff := 0, tiles := [] }
  let b : Braid := { kernel := 1, index := 0, ctx := 1, core := 0, lanes := [0] }
  let leaf := 2 ^ 63 + 2 ^ 62 + 1 * 2 ^ 44 + 2 ^ 3
  let vaults := { s.vaults with lines := { line := 0, key := 0 } :: s.vaults.lines.filter fun l => l.line != 0 }
  { s with
    mem := { s.mem with bytes := poke s.mem.bytes 0 (bytesOfWord w), lineKey := put s.mem.lineKey 0 0 }
    vaults := vaults
    strands := [(0, newStrand s 1 k 0 0 0 t none)], nextSid := 1
    braids := [(0, b)], nextBid := 1
    ctxs := put s.ctxs 1 c
    trans := { s.trans with tlb := [{ cache := .fetch 0, ctx := 1, va := 0, level := 3, pte := leaf }] }
    cmd := { s.cmd with kernels := [(1, k)], nextKernel := 2 }
    clk := { s.clk with refreshNext := 1, slots := [{ cls := .refresh, start := 0, stop := 1250 }] }
    keep := { s.keep with released := 5 }
    inputs := [] }

end Sys2Proof.Machine
end

