-- ==== Sys2Proof/Machine/Step.lean ====
section
/-!
DEFINITION. One step of the machine: a happening, or an instruction of the strand that a lane chose, then time.
-/

namespace Sys2Proof.Machine
open Sys2Proof

/-- A happening takes place: its operand is laid in `arg`, and its row is run. -/
def happen (s : State) (h : Happening) : Host.Outcome State Fault Refusal := exec h.row { s with arg := h.arg }

/-- A strand issues: its word is fetched (R36, R70) and run; a word that names no instruction traps (R47). -/
def issue (s : State) (sid : Nat) : Host.Outcome State Fault Refusal :=
  match beginIssue s sid with
  | .stop s => .next s
  | .word w s =>
    match decode w with
    | .ok i => exec i s
    | .error _ => illegalWord s

/-- What takes place in a step; the free values before its own are those of the choice (log 1). -/
def act (s : State) : Host.Outcome State Fault Refusal :=
  let t := { s with choice := s.choice + 2 }
  match chosen s with
  | none => .next t
  | some (.input h) =>
    let t := { t with inputs := s.inputs.tail }
    if heard s h.row then happen t h else .next t
  | some (.happening h) => happen t h
  | some (.strand sid) => issue t sid

/-- One step: what takes place, and then time passes (log 1, 2). -/
def step (s : State) : Host.Outcome State Fault Refusal :=
  match act s with
  | .next t => .next (passTime (issuingCore s) t)
  | .fault f => .fault f
  | .refused r => .refused r

/-- A state in which the next step fetches and runs exactly the word given (log 5). -/
def State.withFetchWord (s : State) (nbits w : Nat) : State :=
  placeProgram s (BitVec.ofNat 32 (w % 2 ^ nbits))

end Sys2Proof.Machine
end

