-- ==== Sys2Proof/Safety.lean ====
section
/-!
DEFINITION. What a safe run is, and the words in which the claims are stated: the strand that issues, the beads on which an
instruction acts, what it reads, what it may change.
-/

namespace Sys2Proof.Machine
open Sys2Proof

/-- Memory's bytes are in canonical form. -/
def State.Sound (s : State) : Prop := s.mem.wf = true

/-- A run of n steps ends in a next state. -/
def runsTo (n : Nat) (s t : State) : Prop := Sys2Proof.core.run n s = .next t

/-- Every state that a run from s reaches is sound. -/
def SafeFrom (s : State) : Prop := ∀ n t, runsTo n s t → t.Sound

/-! ### The strand that issues -/

/-- The strand that issues in s is st. -/
def Issues (s : State) (st : Strand) : Prop := look s.strands s.cur = some st

/-- The state with the strand that issues replaced, and nothing else changed. -/
def State.withStrand (s : State) (st : Strand) : State := { s with strands := put s.strands s.cur st }

/-- A strand that has beads to run: it does not retire when its instruction completes (R86). -/
def Alive (st : Strand) : Prop := st.flow.mask ≠ 0 ∧ liveMask st ≠ 0

/-- No loop level ends at the next instruction, so that sequential flow only advances the pc (R87). -/
def PlainNext (st : Strand) : Prop := ∀ l ∈ st.flow.loops, l.stop ≠ st.pc + 4

/-- The beads on which an instruction acts: the active ones from the one at which the strand stands, in order, or the
strand as a whole, written 255, for a uniform form (R44, R59, R69). -/
def actsOn (st : Strand) (uniform : Bool) : List Nat :=
  if uniform then [255] else (activeBeads st).filter fun j => decide (startBead st ≤ j)

/-- What an instruction that only works on registers leaves as it is: all of a strand but its pc, what it is doing in the
middle of an instruction, its registers (lc with them) and its knowledge. -/
def Strand.rest (st : Strand) : Strand :=
  { st with
    pc := 0, pos := 0, run := .ready, popped := [], accFault := none, insn := none, srHeld := [], woken := false
    resuming := false, sync := none
    know := [], breg := [], ureg := []
    flow := { st.flow with loops := match st.flow.loops with | l :: t => { l with lc := 0 } :: t | [] => [] } }

/-! ### Forms -/

/-- What a form reads and writes, whether it is uniform, and its results as a function of what it reads. -/
structure Form where
  srcs : List Reg
  dsts : List Reg
  uniform : Bool
  val : List Word → List Word

/-- What bead j reads from sources in order; the n-th q-port gives the first word of the n-th element popped (R94, R292). -/
def valsOf (st : Strand) (j : Nat) : Nat → List Reg → List Word
  | _, [] => []
  | n, .q _ :: t => (match st.popped[n]? with | some (some bs, _) => wordOfElement bs 0 | _ => 0) :: valsOf st j (n + 1) t
  | n, r :: t => readReg st j r :: valsOf st j n t

/-- Every source and destination of the beads on which a form acts is full (R42, R43). -/
def Form.Full (fm : Form) (st : Strand) : Prop :=
  ∀ j ∈ actsOn st fm.uniform, ∀ r ∈ fm.srcs ++ fm.dsts, (fillOf st j r).isFull = true

/-- The number of q-ports among a form's sources. -/
def Form.pops (fm : Form) : Nat := (fm.srcs.filter isPort).length

/-- A form whose sources name a q-port has its pops answered by elements; with more than one bead to go, the next bead's pops are
requested in its turn (R293). -/
def Form.Answered (fm : Form) (st : Strand) : Prop :=
  fm.pops = 0 ∨ ((actsOn st fm.uniform).length = 1 ∧
    ∀ n < fm.pops, ∃ bs c, st.popped[n]? = some (some bs, c))

/-- The results stand in the destinations of every bead on which the form acts, which are full; zr takes none (R37, R41). -/
def Form.Wrote (fm : Form) (st st' : Strand) : Prop :=
  ∀ j ∈ actsOn st fm.uniform, ∀ k d, fm.dsts[k]? = some d → d ≠ .zr →
    readReg st' j d = nth (fm.val (valsOf st j 0 fm.srcs)) k ∧ fillOf st' j d = .full

/-- Every register that is no destination of a bead on which the form acts is as before. -/
def Form.Others (fm : Form) (st st' : Strand) : Prop :=
  ∀ key, (∀ j ∈ actsOn st fm.uniform, ∀ d ∈ fm.dsts, regKey st j d ≠ some key) → getKey st' key = getKey st key

/-- An instruction completes as a form says: it writes the form's results, moves the pc on, and changes nothing else. -/
def Form.CompletesBy (fm : Form) (i : Instr) (s : State) (st : Strand) : Prop :=
  ∃ st', exec i s = .next (s.withStrand st') ∧ st'.pc = st.pc + 4 ∧ st'.run = .ready ∧
    fm.Wrote st st' ∧ fm.Others st st' ∧ st'.rest = st.rest

end Sys2Proof.Machine
end

