-- ==== Sys2Proof/Certificates/Slice0/Obligations.lean ====
section
/-!
DEFINITION. The statements for the provers. Each `Obligations.<Name>` says what its name says; the tables before it give the
manual's formula for each instruction it covers.
-/

namespace Sys2Proof.Claims
open Sys2Proof Sys2Proof.Machine

/-! ### Forms that work on registers -/

/-- An instruction's form, and which operands check 4 of R47 admits. -/
structure Row where
  form : Form
  legal : Strand → Bool

/-- `d`, from no register. -/
def zeroSrc (d : Reg) (v : Word) : Row :=
  ⟨⟨[], [d], allUniform [d], fun _ => [v]⟩, fun st => dstOk st d⟩

/-- `d, a` (R101). -/
def oneSrc (d a : Reg) (f : Word → Word) : Row :=
  ⟨⟨[a], [d], allUniform [d, a], fun v => [f (nth v 0)]⟩, fun st => dstOk st d && srcOk st a && classOk d [a]⟩

/-- `d, a, b` (R101). -/
def twoSrc (d a b : Reg) (f : Word → Word → Word) : Row :=
  ⟨⟨[a, b], [d], allUniform [d, a, b], fun v => [f (nth v 0) (nth v 1)]⟩,
   fun st => dstOk st d && srcOk st a && srcOk st b && classOk d [a, b]⟩

/-- `d, a, b` that also read d (R95). -/
def readD (d a b : Reg) (f : Word → Word → Word → Word) : Row :=
  ⟨⟨[a, b, d], [d], allUniform [d, a, b], fun v => [f (nth v 0) (nth v 1) (nth v 2)]⟩,
   fun st => dstOk st d && srcOk st a && srcOk st b && classOk d [a, b]⟩

/-- The 64-bit forms on two pairs (R114). -/
def twoPairs (d a b : Reg) (f : DWord → DWord → DWord) : Row :=
  ⟨⟨pairOf a ++ pairOf b, pairOf d, allUniform [d, a, b], fun v =>
      let r := f (nth v 1 ++ nth v 0) (nth v 3 ++ nth v 2)
      [r.setWidth 32, (r >>> 32).setWidth 32]⟩,
   fun st => pairOk st d && pairOk st a && pairOk st b && classOk d [a, b]⟩

/-- The 64-bit shifts, of a pair by a register (R114). -/
def pairShift (d a b : Reg) (f : DWord → Nat → DWord) : Row :=
  ⟨⟨pairOf a ++ [b], pairOf d, allUniform [d, a, b], fun v =>
      let r := f (nth v 1 ++ nth v 0) ((nth v 2).toNat % 64)
      [r.setWidth 32, (r >>> 32).setWidth 32]⟩,
   fun st => pairOk st d && pairOk st a && srcOk st b && classOk d [a, b]⟩

/-- 1 for a condition that holds, 0 for one that does not (R111). -/
def flag (b : Bool) : Word := if b then 1 else 0

/-- K of R115. -/
def kOf (imm : BitVec 10) : Word := imm.signExtend 32

/-- Bits put together: bit i is f i (R108, R110). -/
def ofBits (f : Nat → Bool) : Word := BitVec.ofNat 32 ((List.range 32).foldl (fun n i => n + if f i then 2 ^ i else 0) 0)

/-- pos, len and M of R109. -/
def fieldAt (b : Word) : Nat × Nat × Nat :=
  let pos := b.toNat % 32
  let len := min (b.toNat / 2 ^ 8 % 64) (32 - pos)
  (pos, len, (2 ^ len - 1) * 2 ^ pos)

/-- v of R109. -/
def fieldIn (a b : Word) : Nat := a.toNat / 2 ^ (fieldAt b).1 % 2 ^ (fieldAt b).2.1

/-- The integer forms and their results (R104, R106 to R117), but the divisions and MOVF. -/
def integerRow : Instr → Option Row
  | .add d a b _ _ => some (twoSrc d a b fun x y => x + y)
  | .addc d a b _ _ => some (twoSrc d a b fun x y => flag (decide (2 ^ 32 ≤ x.toNat + y.toNat)))
  | .sub d a b _ _ => some (twoSrc d a b fun x y => x - y)
  | .subb d a b _ _ => some (twoSrc d a b fun x y => flag (decide (x.toNat < y.toNat)))
  | .addi d a imm _ => some (oneSrc d a fun x => x + kOf imm)
  | .mul d a b _ _ => some (twoSrc d a b fun x y => x * y)
  | .mulhu d a b _ _ => some (twoSrc d a b fun x y => BitVec.ofNat 32 (x.toNat * y.toNat / 2 ^ 32))
  | .mulhs d a b _ _ => some (twoSrc d a b fun x y => BitVec.ofInt 32 (x.toInt * y.toInt / 2 ^ 32))
  | .mulhsu d a b _ _ => some (twoSrc d a b fun x y => BitVec.ofInt 32 (x.toInt * y.toNat / 2 ^ 32))
  | .mad d a b _ _ => some (readD d a b fun x y z => x * y + z)
  | .minu d a b _ _ => some (twoSrc d a b fun x y => BitVec.ofNat 32 (min x.toNat y.toNat))
  | .mins d a b _ _ => some (twoSrc d a b fun x y => BitVec.ofInt 32 (min x.toInt y.toInt))
  | .maxu d a b _ _ => some (twoSrc d a b fun x y => BitVec.ofNat 32 (max x.toNat y.toNat))
  | .maxs d a b _ _ => some (twoSrc d a b fun x y => BitVec.ofInt 32 (max x.toInt y.toInt))
  | .and d a b _ _ => some (twoSrc d a b fun x y => x &&& y)
  | .or d a b _ _ => some (twoSrc d a b fun x y => x ||| y)
  | .xor d a b _ _ => some (twoSrc d a b fun x y => x ^^^ y)
  | .andn d a b _ _ => some (twoSrc d a b fun x y => x &&& ~~~y)
  | .andi d a imm _ => some (oneSrc d a fun x => x &&& kOf imm)
  | .ori d a imm _ => some (oneSrc d a fun x => x ||| kOf imm)
  | .xori d a imm _ => some (oneSrc d a fun x => x ^^^ kOf imm)
  | .shl d a b _ _ => some (twoSrc d a b fun x y => x <<< (y.toNat % 32))
  | .shr d a b _ _ => some (twoSrc d a b fun x y => x >>> (y.toNat % 32))
  | .sar d a b _ _ => some (twoSrc d a b fun x y => x.sshiftRight (y.toNat % 32))
  | .rol d a b _ _ => some (twoSrc d a b fun x y => x.rotateLeft (y.toNat % 32))
  | .shli d a n _ => some (oneSrc d a fun x => x <<< n.toNat)
  | .shri d a n _ => some (oneSrc d a fun x => x >>> n.toNat)
  | .sari d a n _ => some (oneSrc d a fun x => x.sshiftRight n.toNat)
  | .roli d a n _ => some (oneSrc d a fun x => x.rotateLeft n.toNat)
  | .clz d a _ => some (oneSrc d a fun x => BitVec.ofNat 32 (((List.range 32).find? fun i => x.getLsbD (31 - i)).getD 32))
  | .ctz d a _ => some (oneSrc d a fun x => BitVec.ofNat 32 (((List.range 32).find? fun i => x.getLsbD i).getD 32))
  | .popc d a _ => some (oneSrc d a fun x => BitVec.ofNat 32 ((List.range 32).filter fun i => x.getLsbD i).length)
  | .brev d a _ => some (oneSrc d a fun x => ofBits fun i => x.getLsbD (31 - i))
  | .bfxu d a b _ _ => some (twoSrc d a b fun x y => BitVec.ofNat 32 (fieldIn x y))
  | .bfxs d a b _ _ => some (twoSrc d a b fun x y =>
      let len := (fieldAt y).2.1
      if 0 < len ∧ (fieldIn x y).testBit (len - 1) then BitVec.ofInt 32 (fieldIn x y - 2 ^ len) else BitVec.ofNat 32 (fieldIn x y))
  | .bfi d a b _ _ => some (readD d a b fun x y z =>
      let m := BitVec.ofNat 32 (fieldAt y).2.2
      (z &&& ~~~m) ||| (x <<< (fieldAt y).1 &&& m))
  | .ilv2 d a b _ _ => some (twoSrc d a b fun x y => ofBits fun i => if i % 2 = 0 then x.getLsbD (i / 2) else y.getLsbD (i / 2))
  | .ilv3 d a b _ _ => some (readD d a b fun x y z => ofBits fun i =>
      if i ≥ 30 then false else [x, y, z].getD (i % 3) 0 |>.getLsbD (i / 3))
  | .dlv2 d a _ => some (oneSrc d a fun x => ofBits fun i => if i < 16 then x.getLsbD (2 * i) else x.getLsbD (2 * (i - 16) + 1))
  | .dlv3 d a b _ _ => some (twoSrc d a b fun x y =>
      ofBits fun i => decide (y.toNat % 4 ≠ 3) && decide (i < 10) && x.getLsbD (3 * i + y.toNat % 4))
  | .ceq d a b _ _ => some (twoSrc d a b fun x y => flag (x == y))
  | .cne d a b _ _ => some (twoSrc d a b fun x y => flag (x != y))
  | .cltu d a b _ _ => some (twoSrc d a b fun x y => flag (x.ult y))
  | .clts d a b _ _ => some (twoSrc d a b fun x y => flag (x.slt y))
  | .cleu d a b _ _ => some (twoSrc d a b fun x y => flag (x.ule y))
  | .cles d a b _ _ => some (twoSrc d a b fun x y => flag (x.sle y))
  | .cbit d a b _ _ => some (twoSrc d a b fun x y => flag (x.getLsbD (y.toNat % 32)))
  | .sel d a b _ _ => some (readD d a b fun x y z => if z = 0 then y else x)
  | .abs d a _ => some (oneSrc d a fun x => if x.slt 0 then -x else x)
  | .neg d a _ => some (oneSrc d a fun x => 0 - x)
  | .sext8 d a _ => some (oneSrc d a fun x => (x.setWidth 8).signExtend 32)
  | .sext16 d a _ => some (oneSrc d a fun x => (x.setWidth 16).signExtend 32)
  | .movh d imm => some (zeroSrc d (imm.setWidth 32 <<< 14))
  | .orl d imm => some ⟨⟨[d], [d], allUniform [d], fun v => [nth v 0 ||| imm.setWidth 32]⟩, fun st => dstOk st d⟩
  | .mov d a _ => some (oneSrc d a id)
  | .movp d a _ => some ⟨⟨pairOf a, pairOf d, allUniform [d, a], fun v => [nth v 0, nth v 1]⟩,
      fun st => pairOk st d && pairOk st a && classOk d [a]⟩
  | .add64 d a b _ _ => some (twoPairs d a b fun x y => x + y)
  | .sub64 d a b _ _ => some (twoPairs d a b fun x y => x - y)
  | .shl64 d a b _ _ => some (pairShift d a b fun x n => x <<< n)
  | .shru64 d a b _ _ => some (pairShift d a b fun x n => x >>> n)
  | _ => none

/-- FP32 values and their rounding to a register (R118). -/
def fadd (x y : FVal) : Word := rn (fAddVal x y)

/-- The floating-point forms and their results (R119 to R130), but CVTN. -/
def floatRow : Instr → Option Row
  | .fadd d a b _ _ => some (twoSrc d a b fun x y => fadd (fp x) (fp y))
  | .fsub d a b _ _ => some (twoSrc d a b fun x y => fadd (fp x) (fNegVal (fp y)))
  | .fmul d a b _ _ => some (twoSrc d a b fun x y => rn (fMulVal (fp x) (fp y)))
  | .ffma d a b _ _ => some (readD d a b fun x y z => fadd (fMulVal (fp x) (fp y)) (fp z))
  | .ffms d a b _ _ => some (readD d a b fun x y z => fadd (fMulVal (fp x) (fp y)) (fNegVal (fp z)))
  | .fnma d a b _ _ => some (readD d a b fun x y z => fadd (fNegVal (fMulVal (fp x) (fp y))) (fp z))
  | .fnms d a b _ _ => some (readD d a b fun x y z => fadd (fNegVal (fMulVal (fp x) (fp y))) (fNegVal (fp z)))
  | .fmin d a b _ _ => some (twoSrc d a b (fPick false false))
  | .fmax d a b _ _ => some (twoSrc d a b (fPick true false))
  | .fminn d a b _ _ => some (twoSrc d a b (fPick false true))
  | .fmaxn d a b _ _ => some (twoSrc d a b (fPick true true))
  | .fceq d a b _ _ => some (twoSrc d a b fun x y => flag (fEqVal (fp x) (fp y)))
  | .fclt d a b _ _ => some (twoSrc d a b fun x y => flag (fLtVal (fp x) (fp y)))
  | .fcle d a b _ _ => some (twoSrc d a b fun x y => flag (fLtVal (fp x) (fp y) || fEqVal (fp x) (fp y)))
  | .fcun d a b _ _ => some (twoSrc d a b fun x y => flag (fp x == .nan || fp y == .nan))
  | .fabs d a _ => some (oneSrc d a fun x => if fp x = .nan then 0x7FC00000 else x &&& 0x7FFFFFFF)
  | .fneg d a _ => some (oneSrc d a fun x => if fp x = .nan then 0x7FC00000 else x ^^^ 0x80000000)
  | .fclass d a _ => some (oneSrc d a fun x => (1 : Word) <<< classBit x)
  | .frne d a _ => some (oneSrc d a (fRoundOf .rne))
  | .frtz d a _ => some (oneSrc d a (fRoundOf .rtz))
  | .frdn d a _ => some (oneSrc d a (fRoundOf .rdn))
  | .frup d a _ => some (oneSrc d a (fRoundOf .rup))
  | .cvtuf d a _ => some (oneSrc d a fun x => rn (Frac.toVal ⟨x.toNat, 1⟩))
  | .cvtsf d a _ => some (oneSrc d a fun x => rn (Frac.toVal ⟨x.toInt, 1⟩))
  | .cvtfu d a _ => some (oneSrc d a fun x => BitVec.ofInt 32 (min (max (truncOf (fp x)) 0) (2 ^ 32 - 1)))
  | .cvtfs d a _ => some (oneSrc d a fun x => BitVec.ofInt 32 (min (max (truncOf (fp x)) (-2 ^ 31)) (2 ^ 31 - 1)))
  | .cvtw d a fmt pos _ => some (oneSrc d a fun x => rn (elemVal fmt (elem x fmt.width pos.toNat)))
  | .badd2 d a b _ _ => some (twoSrc d a b fun x y => packed2 .bf16 (fun u v _ => fAddVal u v) x y 0)
  | .bmul2 d a b _ _ => some (twoSrc d a b fun x y => packed2 .bf16 (fun u v _ => fMulVal u v) x y 0)
  | .hadd2 d a b _ _ => some (twoSrc d a b fun x y => packed2 .fp16 (fun u v _ => fAddVal u v) x y 0)
  | .hmul2 d a b _ _ => some (twoSrc d a b fun x y => packed2 .fp16 (fun u v _ => fMulVal u v) x y 0)
  | .bfma2 d a b _ _ => some (readD d a b (packed2 .bf16 fun u v w => fAddVal (fMulVal u v) w))
  | .hfma2 d a b _ _ => some (readD d a b (packed2 .fp16 fun u v w => fAddVal (fMulVal u v) w))
  | .idot4ss d a b _ _ => some (readD d a b fun x y z => z + ofParts x y fun u v => u.toInt * v.toInt)
  | .idot4uu d a b _ _ => some (readD d a b fun x y z => z + ofParts x y fun u v => u.toNat * v.toNat)
  | .idot4su d a b _ _ => some (readD d a b fun x y z => z + ofParts x y fun u v => u.toInt * v.toNat)
  | .idot4us d a b _ _ => some (readD d a b fun x y z => z + ofParts x y fun u v => u.toNat * v.toInt)
  | .fscl d a b _ _ => some (twoSrc d a b fScale)
  | .fexp d a _ => some (oneSrc d a fExpOf)
  | .fmnt d a _ => some (oneSrc d a fMntOf)
  | _ => none
where
  /-- The sum of the products of the four bytes (R128). -/
  ofParts (x y : Word) (f : Byte → Byte → Int) : Word :=
    BitVec.ofInt 32 ((List.range 4).foldl (fun n i => n + f (x.extractLsb' (8 * i) 8) (y.extractLsb' (8 * i) 8)) 0)

/-- A row completes with its results wherever its operands exist, no destination is a q-port, every operand is full, its pops
are answered, the strand has beads to run, and no loop ends there. -/
def Row.Completes (r : Row) (i : Instr) : Prop :=
  ∀ (s : State) (st : Strand), Issues s st → Alive st → PlainNext st → r.legal st = true → (∀ d ∈ r.form.dsts, isPort d = false) →
    r.form.Full st → r.form.Answered st → r.form.CompletesBy i s st

end Sys2Proof.Claims

open Sys2Proof Sys2Proof.Machine Sys2Proof.Claims

/-- Every integer form (R104, R106 to R117) writes the manual's result to its destination on every bead on which it acts, moves
the pc on, and leaves every other register, the mask, the stacks, every special register, every queue and all of memory as
they were. -/
def Obligations.IntegerResults : Prop := ∀ i r, integerRow i = some r → r.Completes i

/-- Every floating-point and conversion form but CVTN (R119 to R132) writes the manual's result to its destination on every bead on
which it acts, moves the pc on, and changes nothing else. -/
def Obligations.FloatResults : Prop := ∀ i r, floatRow i = some r → r.Completes i

namespace Sys2Proof.Claims
open Sys2Proof Sys2Proof.Machine

/-! ### The special-function queue (R105, R133 to R136) -/

/-- The forms of class V and their results (R105, R133 to R135). -/
def queuedRow : Instr → Option Row
  | .divu d a b _ _ => some (twoSrc d a b fun x y => if y = 0 then 0xFFFFFFFF else x.udiv y)
  | .remu d a b _ _ => some (twoSrc d a b fun x y => if y = 0 then x else x.umod y)
  | .divs d a b _ _ => some (twoSrc d a b fun x y => if y = 0 then 0xFFFFFFFF else x.sdiv y)
  | .rems d a b _ _ => some (twoSrc d a b fun x y => if y = 0 then x else x.srem y)
  | .rcp d a _ => some (oneSrc d a rcpOf)
  | .rsq d a _ => some (oneSrc d a rsqOf)
  | .sqrt d a _ => some (oneSrc d a sqrtOf)
  | .ex2 d a _ => some (oneSrc d a ex2Of)
  | .lg2 d a _ => some (oneSrc d a lg2Of)
  | .sin d a _ => some (oneSrc d a sinOf)
  | .cos d a _ => some (oneSrc d a cosOf)
  | .tanh d a _ => some (oneSrc d a tanhFun)
  | _ => none

/-- The entry that bead j of a row takes: its lane, its destination and its result. lc, which is always full, takes the result
as the bead issues, the model's choice (log 62). -/
def entryOf (r : Row) (s : State) (st : Strand) (j : Nat) : SfuOp :=
  { lane := st.core * 64 + st.lane, sid := s.cur, bead := j, dst := (r.form.dsts.filter (· ≠ .lc)).filterMap (regKey st j)
    val := nth (r.form.val (valsOf st j 0 r.form.srcs)) 0 }

/-- A row of class V takes one entry for each bead, leaves each destination empty with its old value until the result arrives, and
moves the pc on. -/
def Row.Queues (r : Row) (i : Instr) : Prop :=
  ∀ (s : State) (st : Strand), Issues s st → Alive st → PlainNext st → r.legal st = true → (∀ d ∈ r.form.dsts, isPort d = false) →
    r.form.Full st → r.form.Answered st →
    (s.flight.sfu.countP fun x => x.lane == st.core * 64 + st.lane) + (actsOn st r.form.uniform).length ≤ 32 →
    ∃ st', exec i s = .next { s with
        flight := { s.flight with sfu := s.flight.sfu ++ (actsOn st r.form.uniform).map (entryOf r s st) }
        strands := put s.strands s.cur st' } ∧
      st'.pc = st.pc + 4 ∧ st'.run = .ready ∧ r.form.Others st st' ∧ st'.rest = st.rest ∧
      (∀ j ∈ actsOn st r.form.uniform, ∀ d ∈ r.form.dsts, (∃ n, d = .bead n) ∨ (∃ n, d = .uni n) →
        readReg st' j d = readReg st j d ∧ fillOf st' j d = .due) ∧
      ∀ j ∈ actsOn st r.form.uniform, Reg.lc ∈ r.form.dsts → readReg st' j .lc = nth (r.form.val (valsOf st j 0 r.form.srcs)) 0

/-! ### The exchange forms (R137 to R154) -/

/-- An exchange form: its sources, destinations, class, what check 4 admits, and the results of the active beads, each with what
it read, in issue order. -/
structure Exchange where
  srcs : List Reg
  dsts : List Reg
  uniform : Bool
  legal : Strand → Bool
  out : List (Nat × List Word) → List (Nat × List Word)

/-- The beads of an exchange form: the active ones from the one at which RTT resumed it, or bead 0 for a uniform form (R140,
R410). -/
def Exchange.beads (x : Exchange) (st : Strand) : List Nat := if x.uniform then [0] else actsOn st false

/-- What each bead reads before any writes (R138). -/
def Exchange.reads (x : Exchange) (st : Strand) : List (Nat × List Word) :=
  (x.beads st).map fun j => (j, x.srcs.map (readReg st j))

/-- a of the m-th active bead. -/
def aAt (l : List (Nat × List Word)) (m : Nat) : Word := nth (l.getD m (0, [])).2 0
/-- b of the m-th active bead. -/
def bAt (l : List (Nat × List Word)) (m : Nat) : Word := nth (l.getD m (0, [])).2 1
/-- a of bead k, 0 where it is not active. -/
def aOf (l : List (Nat × List Word)) (k : Nat) : Word := ((l.find? fun e => e.1 == k).map fun e => nth e.2 0).getD 0
/-- One result for each active bead, from its position. -/
def each (f : List (Nat × List Word) → Nat → Word) (l : List (Nat × List Word)) : List (Nat × List Word) :=
  (List.range l.length).map fun m => ((l.getD m (0, [])).1, [f l m])
/-- One result, for the strand. -/
def once (f : List (Nat × List Word) → List Word) (l : List (Nat × List Word)) : List (Nat × List Word) := [(0, f l)]
/-- A fold of op over a of the first n active beads, from c. -/
def foldOf (op : Word → Word → Word) (l : List (Nat × List Word)) (c : Word) (from_ n : Nat) : Word :=
  ((l.take n).drop from_).foldl (fun c e => op c (nth e.2 0)) c
/-- The position that opens the segment of position m (R144). -/
def opens (l : List (Nat × List Word)) : Nat → Nat
  | 0 => 0
  | m + 1 => if bAt l (m + 1) ≠ 0 then m + 1 else opens l m
/-- The mask of the active beads that meet a test (R145, R151). -/
def mask (l : List (Nat × List Word)) (p : List Word → Bool) : List Word :=
  let m : DWord := l.foldl (fun m e => if p e.2 then m ||| 1 <<< e.1 else m) 0
  [m.setWidth 32, (m >>> 32).setWidth 32]

/-- `d, a` with d of the bead class. -/
def xOne (d a : Reg) (f : List (Nat × List Word) → Nat → Word) : Exchange :=
  ⟨[a], [d], allUniform [d, a], fun st => dstOk st d && srcOk st a && classOk d [a], each f⟩
/-- `d, a, b` with d of the bead class; `ub`: b is uniform. -/
def xTwo (ub : Bool) (d a b : Reg) (f : List (Nat × List Word) → Nat → Word) : Exchange :=
  ⟨[a, b], [d], allUniform [d, a, b],
   fun st => dstOk st d && srcOk st a && srcOk st b && classOk d [a, b] && !(ub && isBead b), each f⟩
/-- `d, a` with d uniform. -/
def xUni (d a : Reg) (f : List (Nat × List Word) → Word) : Exchange :=
  ⟨[a], [d], allUniform [d, a], fun st => !isBead d && dstOk st d && srcOk st a, once fun l => [f l]⟩
/-- `d:d+1, a, b` with d a bead pair; `rd`: d is read. -/
def xTop (rd : Bool) (d a b : Reg) (f : List (Nat × List Word) → List (Nat × List Word)) : Exchange :=
  ⟨[a, b] ++ (if rd then pairOf d else []), pairOf d, allUniform [d, a, b],
   fun st => pairOk st d && srcOk st a && srcOk st b && classOk d [a, b], f⟩

/-- op of the scans without a carry-in: the first value starts the running value (R143). -/
def scanOf (op : Word → Word → Word) (l : List (Nat × List Word)) (m : Nat) : Word := foldOf op l (aAt l 0) 1 (m + 1)

/-- The greater of two signed words, and its three kin (R143). -/
def pickBy (p : Word → Word → Bool) (x y : Word) : Word := if p x y then y else x

/-- A word added in FP32. -/
def addF (x y : Word) : Word := fadd (fp x) (fp y)

/-- An FP32 result, whose NaN is the canonical one (R18, R118). -/
def canonF (x : Word) : Word := if fp x = .nan then 0x7FC00000 else x

/-- Whether entry e stands before entry x by SortOrder, with no regard to where they come from (R149). -/
def standsBefore (up : Bool) (e x : Word × Word) : Bool := sortsBefore up e.1 x.1

/-- An entry put after all that it does not stand before. -/
def putEntry (up : Bool) (e : Word × Word) (l : List (Word × Word)) : List (Word × Word) :=
  l.takeWhile (fun x => !standsBefore up e x) ++ e :: l.dropWhile fun x => !standsBefore up e x

/-- The entries in SortOrder, those listed first before their equals. -/
def inOrder (up : Bool) (l : List (Word × Word)) : List (Word × Word) := l.foldl (fun acc e => putEntry up e acc) []

/-- The active bead of rank m takes the m-th entry (R150). -/
def ranked (up merge : Bool) (l : List (Nat × List Word)) : List (Nat × List Word) :=
  let old := if merge then l.map fun e => (nth e.2 2, nth e.2 3) else []
  let all := inOrder up (old ++ l.map fun e => (nth e.2 0, nth e.2 1))
  (List.range l.length).map fun m => ((l.getD m (0, [])).1, [(all.getD m (0, 0)).1, (all.getD m (0, 0)).2])

/-- The exchange forms and their results, but the random draws and REDF (R143 to R151). -/
def exchangeRow : Instr → Option Exchange
  | .scani d a b _ _ => some (xTwo true d a b fun l m => foldOf (· + ·) l (bAt l 0) 0 (m + 1))
  | .scanx d a b _ _ => some (xTwo true d a b fun l m => foldOf (· + ·) l (bAt l 0) 0 m)
  | .scanf d a b _ _ => some (xTwo true d a b fun l m => foldOf addF l (bAt l 0) 0 (m + 1))
  | .scanfx d a b _ _ => some (xTwo true d a b fun l m => canonF (foldOf addF l (bAt l 0) 0 m))
  | .scanmaxs d a _ => some (xOne d a (scanOf (pickBy fun x y => x.sle y)))
  | .scanmins d a _ => some (xOne d a (scanOf (pickBy fun x y => y.slt x)))
  | .scanmaxu d a _ => some (xOne d a (scanOf (pickBy fun x y => x.ule y)))
  | .scanminu d a _ => some (xOne d a (scanOf (pickBy fun x y => y.ult x)))
  | .scanand d a _ => some (xOne d a (scanOf (· &&& ·)))
  | .scanor d a _ => some (xOne d a (scanOf (· ||| ·)))
  | .scanxor d a _ => some (xOne d a (scanOf (· ^^^ ·)))
  | .sscani d a b _ _ => some (xTwo false d a b fun l m => foldOf (· + ·) l 0 (opens l m) (m + 1))
  | .sscanx d a b _ _ => some (xTwo false d a b fun l m => foldOf (· + ·) l 0 (opens l m) m)
  | .sscanf d a b _ _ => some (xTwo false d a b fun l m => foldOf addF l 0 (opens l m) (m + 1))
  | .sscanfx d a b _ _ => some (xTwo false d a b fun l m => foldOf addF l 0 (opens l m) m)
  | .redi d a _ => some (xUni d a fun l => foldOf (· + ·) l 0 0 l.length)
  | .redmax d a _ => some (xUni d a fun l => scanOf (pickBy fun x y => x.sle y) l (l.length - 1))
  | .redmin d a _ => some (xUni d a fun l => scanOf (pickBy fun x y => y.slt x) l (l.length - 1))
  | .vany d a _ => some (xUni d a fun l => flag (l.any fun e => nth e.2 0 != 0))
  | .vall d a _ => some (xUni d a fun l => flag (l.all fun e => nth e.2 0 != 0))
  | .vcnt d a _ => some (xUni d a fun l => BitVec.ofNat 32 (l.filter fun e => nth e.2 0 != 0).length)
  | .vbal d a _ => some ⟨[a], pairOf d, allUniform [d, a], fun st => uniPairOk st d && srcOk st a,
      once fun l => mask l fun v => nth v 0 != 0⟩
  | .bcast d a b _ _ => some (xTwo true d a b fun l m => aOf l (bAt l m).toNat)
  | .bfirst d a _ => some (xUni d a fun l => aAt l 0)
  | .blast d a _ => some (xUni d a fun l => aAt l (l.length - 1))
  | .prev d a b _ _ => some (xTwo false d a b fun l m => if m = 0 then bAt l 0 else aAt l (m - 1))
  | .next d a b _ _ => some (xTwo false d a b fun l m => if m + 1 = l.length then bAt l m else aAt l (m + 1))
  | .rotp d a _ => some (xOne d a fun l m => aAt l ((m + l.length - 1) % l.length))
  | .rotn d a _ => some (xOne d a fun l m => aAt l ((m + 1) % l.length))
  | .permg d a b _ _ => some (xTwo false d a b fun l m => aOf l (bAt l m).toNat)
  | .perms d a b _ _ => some ⟨[a, b, d], [d], allUniform [d, a, b],
      fun st => dstOk st d && srcOk st a && srcOk st b && classOk d [a, b],
      fun l => l.map fun e => (e.1, [((l.reverse.find? fun x => (nth x.2 1).toNat == e.1).map fun x => nth x.2 0).getD (nth e.2 2)])⟩
  | .topkd d a b _ _ => some (xTop false d a b (ranked false false))
  | .topka d a b _ _ => some (xTop false d a b (ranked true false))
  | .topkm d a b _ _ => some (xTop true d a b (ranked false true))
  | .matchB d a _ => some ⟨[a], pairOf d, allUniform [d, a], fun st => pairOk st d && srcOk st a && classOk d [a],
      fun l => l.map fun e => (e.1, mask l fun v => nth v 0 == nth e.2 0)⟩
  | .match64 d a _ => some ⟨pairOf a, pairOf d, allUniform [d, a], fun st => pairOk st d && pairOk st a && classOk d [a],
      fun l => l.map fun e => (e.1, mask l fun v => nth v 0 == nth e.2 0 && nth v 1 == nth e.2 1)⟩
  | _ => none

/-- REDF and its result (R18, R145). -/
def redfRow : Instr → Option Exchange
  | .redf d a _ => some (xUni d a fun l => canonF (scanOf addF l (l.length - 1)))
  | _ => none

/-- What stands in the destinations after an exchange form: the results of the beads that have one, in registers other than zr; and
every other register is as before. -/
def Exchange.Wrote (x : Exchange) (st st' : Strand) (out : List (Nat × List Word)) : Prop :=
  (∀ e ∈ out, ∀ k d, x.dsts[k]? = some d → d ≠ .zr →
    readReg st' e.1 d = nth e.2 k ∧ fillOf st' e.1 d = .full) ∧
  ∀ key, (∀ e ∈ out, ∀ d ∈ x.dsts, regKey st e.1 d ≠ some key) → getKey st' key = getKey st key

/-- Every source and destination is full for every bead (R139). -/
def Exchange.Full (x : Exchange) (st : Strand) : Prop :=
  ∀ j ∈ x.beads st, ∀ r ∈ x.srcs ++ x.dsts, (fillOf st j r).isFull = true

/-- An exchange form completes with its results where it has operands, none of them a q-port, that are full, and a bead; that it
waits for a destination that it only writes is the model's choice (log 118). -/
def Exchange.Completes (x : Exchange) (i : Instr) : Prop :=
  ∀ (s : State) (st : Strand), Issues s st → Alive st → PlainNext st → x.legal st = true → (∀ r ∈ x.srcs ++ x.dsts, isPort r = false) →
    x.Full st → x.beads st ≠ [] →
    ∃ st', exec i s = .next (s.withStrand st') ∧ st'.pc = st.pc + 4 ∧ st'.run = .ready ∧
      x.Wrote st st' (x.out (x.reads st)) ∧ st'.rest = st.rest

/-- RAND and RANDF: their destination, and the value of a draw (R154). -/
def drawRow : Instr → Option (Reg × (Word → Word))
  | .rand d => some (d, id)
  | .randf d => some (d, fun w => rn (Frac.toVal ⟨((w >>> 8).toNat : Int), 2 ^ 24⟩))
  | _ => none

end Sys2Proof.Claims

/-- Every form of class V (R105, R133 to R136) takes an entry of its lane's queue for each bead, with the bead's result, leaves
each destination empty with its old value, and changes nothing else but the pc; lc takes the result at once, the model's choice
(log 62). Within the bounds of R134 a function's result is free (log 10). -/
def Sys2Proof.Claims.QueuedForms : Prop := ∀ i r, queuedRow i = some r → r.Queues i

/-- The result that arrives is that of the oldest entry of the lane: it fills the destination, and the entry is gone (R136). -/
def Sys2Proof.Claims.SfuArrivalFills : Prop :=
  ∀ (s : State) (lane : Nat) (pre : List SfuOp) (op : SfuOp) (post : List SfuOp) (st : Strand), s.arg = .one lane → s.flight.sfu = pre ++ op :: post → (∀ x ∈ pre, x.lane ≠ lane) →
    op.lane = lane → look s.strands op.sid = some st →
    ∃ t st', exec .sfuResultArrival s = .next t ∧ t.flight.sfu = pre ++ post ∧ look t.strands op.sid = some st' ∧
      (∀ k, op.dst = [k] → k ≠ .lc → getKey st' k = { val := op.val }) ∧
      (∀ k, k ∉ op.dst → getKey st' k = getKey st k) ∧ t.mem = s.mem ∧
      ∀ sid, sid ≠ op.sid → look t.strands sid = look s.strands sid

/-- Every exchange form but the draws and REDF reads every active bead before any writes, writes the manual's results, and changes
nothing else but the pc (R138, R142 to R151). -/
def Sys2Proof.Claims.ExchangeResults : Prop := ∀ i x, exchangeRow i = some x → x.Completes i

/-- REDF writes the sum of the active beads' values in bead order, rounded at each addition, and of one bead that bead's value; that
a NaN there gives the canonical NaN is the model's choice (R18, R145; log 98). -/
def Sys2Proof.Claims.FloatReductions : Prop := ∀ i x, redfRow i = some x → x.Completes i

/-- RAND and RANDF write one draw to each active bead, or the draw of bead 0, and advance the draw index once (R152, R154). -/
def Sys2Proof.Claims.DrawForms : Prop :=
  ∀ i d f s st, drawRow i = some (d, f) → Issues s st → Alive st → PlainNext st → dstOk st d = true → isPort d = false → (isBead d = true → actsOn st false ≠ []) →
    (∀ j ∈ (if isBead d then actsOn st false else [0]), (fillOf st j d).isFull = true) →
    ∃ st', exec i s = .next (s.withStrand st') ∧ st'.pc = st.pc + 4 ∧ st'.draw = st.draw + 1 ∧
      (∀ j ∈ (if isBead d then actsOn st false else [0]), d ≠ .zr → readReg st' j d = f (drawWord s st j)) ∧
      (∀ key, (∀ j ∈ (if isBead d then actsOn st false else [0]), regKey st j d ≠ some key) → getKey st' key = getKey st key) ∧
      { st' with draw := st.draw }.rest = st.rest

/-- ELECTL and ELECTH write the first and the last active bead of the mask (R146). -/
def Sys2Proof.Claims.ElectForms : Prop :=
  ∀ d s st, Issues s st → Alive st → PlainNext st → isBead d = false → dstOk st d = true → (fillOf st 0 d).isFull = true →
    ∀ i v, (i = .electl d ∧ v = (activeBeads st).headD 0) ∨ (i = .electh d ∧ v = (activeBeads st).getLastD 0) →
    ∃ st', exec i s = .next (s.withStrand st') ∧ st'.pc = st.pc + 4 ∧
      (d ≠ .zr → readReg st' 0 d = BitVec.ofNat 32 v) ∧
      (∀ key, regKey st 0 d ≠ some key → getKey st' key = getKey st key) ∧ st'.rest = st.rest

/-- CVTN writes its element into the old value of d on every bead, draws under mode SR, and then advances the draw index once
(R129 to R131, R152). -/
def Sys2Proof.Claims.NarrowResults : Prop :=
  ∀ d a fmt rnd sat pos ea s st, Issues s st → Alive st → PlainNext st →
    (twoSrc d a a fun x _ => x).legal st = true → isPort d = false →
    let fm : Form := ⟨[a, d], [d], allUniform [d, a], id⟩
    fm.Full st → fm.Answered st →
    ∃ st', exec (.cvtn d a fmt rnd sat pos ea) s = .next (s.withStrand st') ∧ st'.pc = st.pc + 4 ∧
      st'.draw = (if rnd = .sr then st.draw + 1 else st.draw) ∧
      (∀ j ∈ actsOn st fm.uniform, d ≠ .zr →
        let r := (drawWord s st (if j = 255 then 0 else j)).toNat % 2 ^ 16
        let place := if fmt = .e2m1 then sat.toNat * 4 + pos.toNat else pos.toNat
        let w := fmt.width
        readReg st' j d =
          withElem (readReg st j d) w place (convElem (fp (nth (valsOf st j 0 [a]) 0)) fmt rnd sat r)) ∧
      fm.Others st st' ∧ { st' with draw := st.draw }.rest = st.rest

/-- MOVF of a register that waits only on a future writes the handle and leaves d waiting on that future; of a full register it
acts as MOV (R113), also where it holds a handle of another context, the model's choice (log 65). -/
def Sys2Proof.Claims.MovfHandles : Prop :=
  ∀ d a ea s st, Issues s st → Alive st → PlainNext st → (oneSrc d a id).legal st = true → isPort d = false →
    isPort a = false → (∀ j ∈ actsOn st (allUniform [d, a]), (fillOf st j d).isFull = true ∧
      (fillOf st j a = .future ∨ (fillOf st j a).isFull = true)) →
    let fm : Form := ⟨[a], [d], allUniform [d, a], id⟩
    ∃ st', exec (.movf d a ea) s = .next (s.withStrand st') ∧ st'.pc = st.pc + 4 ∧
      (∀ j ∈ actsOn st fm.uniform, (∃ n, d = .bead n) ∨ (∃ n, d = .uni n) →
        readReg st' j d = readReg st j a ∧ fillOf st' j d = if fillOf st j a = .future then .future else .full) ∧
      fm.Others st st' ∧ st'.rest = st.rest

/-- QueuedForms and SfuArrivalFills together. -/
def Obligations.SfuFormsAnswer : Prop := Sys2Proof.Claims.QueuedForms ∧ Sys2Proof.Claims.SfuArrivalFills

/-- ExchangeResults and ElectForms together. -/
def Obligations.ExchangesWrite : Prop := Sys2Proof.Claims.ExchangeResults ∧ Sys2Proof.Claims.ElectForms

/-- FloatReductions, DrawForms and NarrowResults together. -/
def Obligations.DrawsConvert : Prop :=
  Sys2Proof.Claims.FloatReductions ∧ Sys2Proof.Claims.DrawForms ∧ Sys2Proof.Claims.NarrowResults

namespace Sys2Proof.Claims
open Sys2Proof Sys2Proof.Machine

/-! ### Control flow (R68 to R93) -/

/-- An instruction completes at pc + 4, changes no register, and leaves the strand as P says; nothing else changes. -/
def Moves (i : Instr) (s : State) (st : Strand) (P : Strand → Prop) : Prop :=
  ∃ st', exec i s = .next (s.withStrand st') ∧ st'.pc = st.pc + 4 ∧ st'.run = .ready ∧
    (∀ key, getKey st' key = getKey st key) ∧ P st'

/-- An instruction completes at t with the loop levels ls, changes no register but lc with its level, and leaves the strand
as P says; nothing else changes. -/
def Lands (i : Instr) (s : State) (st : Strand) (t : Word) (ls : List LoopLevel) (P : Strand → Prop) : Prop :=
  ∃ st', exec i s = .next (s.withStrand st') ∧ st'.pc = t ∧ st'.flow.loops = ls ∧ st'.run = .ready ∧
    st'.breg = st.breg ∧ st'.ureg = st.ureg ∧ P st'

/-- A Goto to t that faults with nothing leaves the levels ls (R85): sequential flow where no loop ends, or a transfer that
leaves the levels it may leave. -/
def Goes (st : Strand) (t : Word) (ls : List LoopLevel) : Prop :=
  (t = st.pc + 4 ∧ PlainNext st ∧ ls = st.flow.loops) ∨ (t ≠ st.pc + 4 ∧ leaveLevels st t st.flow.loops = some ls)

/-- Only the loop levels differ. -/
def OnlyLoops (st st' : Strand) : Prop := { st' with flow := { st'.flow with loops := st.flow.loops } }.rest = st.rest

/-- Only what control flow keeps differs: the mask, the divergence stack, the loop levels and the return stacks. -/
def OnlyFlow (st st' : Strand) : Prop :=
  { st' with flow := { st.flow with winBase := st'.flow.winBase } }.rest = st.rest ∧ st'.breg = st.breg ∧ st'.ureg = st.ureg

/-- The target of an offset in words (R70). -/
def at_ (st : Strand) {n : Nat} (off : BitVec n) : Word := st.pc + 4 * off.signExtend 32

/-- A register is full for every active bead, and is no q-port (R42, R78). -/
def FullOn (st : Strand) (r : Reg) : Prop :=
  srcOk st r = true ∧ isPort r = false ∧ ∀ j ∈ activeBeads st, (fillOf st j r).isFull = true

/-- A place for n more entries on chip (R76). -/
def RoomOnChip (st : Strand) (n : Nat) : Prop :=
  st.flow.divTop.length = st.flow.divDepth ∧ st.flow.divDepth + n ≤ 16

/-- The topmost divergence entry is a JOIN that a split may use: no loop is open, and the entry lies above the call (R77). -/
def SplitsUnder (st : Strand) : Prop :=
  (∃ e rest, st.flow.divTop = e :: rest ∧ e.kind = .join) ∧ st.flow.loops = [] ∧
    ∀ e, (callStack st ((activeBeads st).headD 0)).top.head? = some e → e.d0 < st.flow.divDepth

end Sys2Proof.Claims

/-- NOP, YIELD, WAIT, WAITLD, WAITSFU, WAITALL and WIN complete where the manual lets them: WAIT where its register is full, the
others where nothing they wait for is due, WIN where the base exists; WIN sets the window base to 8 × (A + n) and YIELD
gives up the lane (R68, R91, R92). -/
def Sys2Proof.Claims.WaitsComplete : Prop :=
  ∀ (s : State) (st : Strand), Issues s st → Alive st → PlainNext st →
    Moves .nop s st (fun st' => st'.rest = st.rest) ∧
    Moves .yield s st (fun st' => st'.yielded = true ∧ { st' with yielded := st.yielded }.rest = st.rest) ∧
    (loadsDue s s.cur = false → Moves .waitld s st fun st' => st'.rest = st.rest) ∧
    (sfusDue s s.cur = false → Moves .waitsfu s st fun st' => st'.rest = st.rest) ∧
    (emptyRegs st = [] → Moves .waitall s st fun st' => st'.rest = st.rest) ∧
    (∀ a, srcOk st a = true → isPort a = false →
      (∀ j ∈ actsOn st (!isBead a), (fillOf st j a).isFull = true) → Moves (.wait a) s st fun st' => st'.rest = st.rest) ∧
    ∀ a n ea, srcOk st a = true → isBead a = false → (fillOf st 255 a).isFull = true →
      8 * ((readReg st 255 a).toNat + n.toNat) < st.regs →
      Moves (.win a n ea) s st fun st' => st'.flow.winBase = 8 * ((readReg st 255 a).toNat + n.toNat) ∧
        { st' with flow := { st'.flow with winBase := st.flow.winBase } }.rest = st.rest

/-- BRA goes to its target. BNZ and BZ go to it where every active bead takes the branch, and on where none does; BRX goes to the
aligned target that every active bead names (R78, R85). -/
def Sys2Proof.Claims.BranchesGo : Prop :=
  ∀ (s : State) (st : Strand), Issues s st → Alive st → activeBeads st ≠ [] →
    (∀ off ls, Goes st (at_ st off) ls → Lands (.bra off) s st (at_ st off) ls (OnlyLoops st)) ∧
    (∀ c off ls, FullOn st c →
      ((∀ j ∈ activeBeads st, readReg st j c ≠ 0) → Goes st (at_ st off) ls →
        Lands (.bnz c off) s st (at_ st off) ls (OnlyLoops st)) ∧
      ((∀ j ∈ activeBeads st, readReg st j c = 0) → Goes st (st.pc + 4) ls →
        Lands (.bnz c off) s st (st.pc + 4) ls (OnlyLoops st)) ∧
      ((∀ j ∈ activeBeads st, readReg st j c = 0) → Goes st (at_ st off) ls →
        Lands (.bz c off) s st (at_ st off) ls (OnlyLoops st)) ∧
      ((∀ j ∈ activeBeads st, readReg st j c ≠ 0) → Goes st (st.pc + 4) ls →
        Lands (.bz c off) s st (st.pc + 4) ls (OnlyLoops st))) ∧
    ∀ a ea t ls, FullOn st a → (∀ j ∈ activeBeads st, readReg st j a = t) → t.toNat % 4 = 0 → Goes st t ls →
      Lands (.brx a ea) s st t ls (OnlyLoops st)

/-- A branch that some active beads take and others do not runs the set of the lowest active bead first, and pushes a PATH entry
for the other set, under the JOIN that the split needs (R77, R78). -/
def Sys2Proof.Claims.BranchesSplit : Prop :=
  ∀ (s : State) (st : Strand) c off nz, Issues s st → Alive st → FullOn st c → RoomOnChip st 1 → SplitsUnder st →
    let takes := fun j => (readReg st j c != 0) == nz
    let yes := (activeBeads st).filter takes
    let no := (activeBeads st).filter fun j => !takes j
    yes ≠ [] → no ≠ [] →
    let set := fun (l : List Nat) => l.foldl (fun (m : DWord) j => m ||| 1 <<< j) 0
    let here := if takes ((activeBeads st).headD 0) then (set yes, at_ st off) else (set no, st.pc + 4)
    let later := if takes ((activeBeads st).headD 0) then (set no, st.pc + 4) else (set yes, at_ st off)
    Lands (if nz then .bnz c off else .bz c off) s st here.2 st.flow.loops fun st' =>
      st'.flow.mask = here.1 ∧ st'.flow.divDepth = st.flow.divDepth + 1 ∧
      st'.flow.divTop = { kind := .path, mask := later.1, pc := later.2, loop := 0 } :: st.flow.divTop ∧
      st'.flow.calls = st.flow.calls ∧ OnlyFlow st st'

/-- JPT pushes a JOIN entry with the mask, its target and the loop depth; JOIN at a PATH entry takes up that path, and at its own
JOIN entry goes on with the entry's mask (R78, R79). -/
def Sys2Proof.Claims.JoinsMeet : Prop :=
  ∀ (s : State) (st : Strand), Issues s st → Alive st →
    (∀ off, PlainNext st → RoomOnChip st 1 →
      Lands (.jpt off) s st (st.pc + 4) st.flow.loops fun st' =>
        st'.flow.divDepth = st.flow.divDepth + 1 ∧ st'.flow.mask = st.flow.mask ∧ st'.flow.calls = st.flow.calls ∧
        st'.flow.divTop = { kind := .join, mask := st.flow.mask, pc := at_ st off, loop := st.flow.loops.length } :: st.flow.divTop ∧
        OnlyFlow st st') ∧
    ∀ e rest, st.flow.divTop = e :: rest → RoomOnChip st 0 → e.loop ≤ st.flow.loops.length → e.mask &&& liveMask st ≠ 0 →
      let ls := st.flow.loops.drop (st.flow.loops.length - e.loop)
      let after := fun (st' : Strand) => st'.flow.divDepth = st.flow.divDepth - 1 ∧ st'.flow.divTop = rest ∧
        st'.flow.mask = e.mask &&& liveMask st ∧ st'.flow.calls = st.flow.calls ∧ OnlyFlow st st'
      (e.kind = .path → Lands .join s st e.pc ls after) ∧
      (e.kind = .join → e.pc = st.pc → (∀ l ∈ ls, l.stop ≠ st.pc + 4) → Lands .join s st (st.pc + 4) ls after)

/-- LOOP of a count of 0 goes past the body; of another count it opens a level, whose count it is (R87). -/
def Sys2Proof.Claims.LoopsOpen : Prop :=
  ∀ (s : State) (st : Strand) c off, Issues s st → Alive st → srcOk st c = true → isBead c = false → (fillOf st 255 c).isFull = true →
    (∀ ls, readReg st 255 c = 0 → Goes st (at_ st off) ls → Lands (.loop c off) s st (at_ st off) ls (OnlyLoops st)) ∧
    (readReg st 255 c ≠ 0 → st.flow.loops.length < 4 →
      Lands (.loop c off) s st (st.pc + 4)
        ({ start := st.pc + 4, stop := at_ st off, lc := readReg st 255 c, d := st.flow.divDepth,
           frame := (callStack st ((activeBeads st).headD 0)).depth } :: st.flow.loops) (OnlyLoops st))

/-- At the end of the innermost loop, sequential flow takes it again while its count is above 1, which it decrements, and leaves
it otherwise (R87). NOP shows it. -/
def Sys2Proof.Claims.LoopsTurn : Prop :=
  ∀ (s : State) (st : Strand) l rest, Issues s st → Alive st → st.flow.loops = l :: rest → l.stop = st.pc + 4 → l.d = st.flow.divDepth →
    l.frame = (callStack st ((activeBeads st).headD 0)).depth → (∀ x ∈ rest, x.stop ≠ st.pc + 4) →
    (1 < l.lc.toNat → Lands .nop s st l.start ({ l with lc := l.lc - 1 } :: rest) (OnlyLoops st)) ∧
    (l.lc.toNat ≤ 1 → Lands .nop s st (st.pc + 4) rest (OnlyLoops st))

/-- CALL and CALLX with one target push the return address, the divergence depth and the loop depth for every active bead, and go
to the target; the other beads' return stacks are as before (R83). -/
def Sys2Proof.Claims.CallsPush : Prop :=
  ∀ (s : State) (st : Strand) i t, Issues s st → Alive st → activeBeads st ≠ [] →
    (∀ j ∈ activeBeads st, (callStack st j).depth = (callStack st j).top.length ∧ (callStack st j).depth < 4) →
    ((∃ off, i = .call off ∧ t = at_ st off) ∨
      (∃ a ea, i = .callx a ea ∧ FullOn st a ∧ ∀ j ∈ activeBeads st, readReg st j a = t)) → t.toNat % 4 = 0 →
    Lands i s st t st.flow.loops fun st' =>
      (∀ j ∈ activeBeads st, callStack st' j =
        { depth := (callStack st j).depth + 1
          top := { ret := st.pc + 4, d0 := st.flow.divDepth, l0 := st.flow.loops.length } :: (callStack st j).top }) ∧
      (∀ j, j ∉ activeBeads st → callStack st' j = callStack st j) ∧
      st'.flow.mask = st.flow.mask ∧ st'.flow.divDepth = st.flow.divDepth ∧ st'.flow.divTop = st.flow.divTop ∧ OnlyFlow st st'

/-- RET, where every active bead returns to one address at the divergence depth of its call, removes the entries and goes there
with the call's loop levels (R84). -/
def Sys2Proof.Claims.ReturnsPop : Prop :=
  ∀ (s : State) (st : Strand) e, Issues s st → Alive st → activeBeads st ≠ [] →
    (∀ j ∈ activeBeads st, ∃ rest, (callStack st j).top = e :: rest ∧ (callStack st j).depth = rest.length + 1 ∧ rest.length < 4) →
    e.ret.toNat % 4 = 0 → e.l0 ≤ st.flow.loops.length → e.d0 = st.flow.divDepth →
    Lands .ret s st e.ret (st.flow.loops.drop (st.flow.loops.length - e.l0)) fun st' =>
      (∀ j ∈ activeBeads st, (callStack st' j).top = (callStack st j).top.drop 1 ∧
        (callStack st' j).depth = (callStack st j).depth - 1) ∧
      (∀ j, j ∉ activeBeads st → callStack st' j = callStack st j) ∧
      st'.flow.mask = st.flow.mask ∧ st'.flow.divDepth = st.flow.divDepth ∧ st'.flow.divTop = st.flow.divTop ∧ OnlyFlow st st'

/-- EXITS ends the strand; so does EXIT in trap mode, and where no other bead is left. EXIT of some of the beads under a PATH
entry takes up that path with them retired (R86). -/
def Sys2Proof.Claims.ExitsEnd : Prop :=
  ∀ (s : State) (st : Strand), Issues s st →
    (∃ t, exec .exits s = .next t ∧ look t.strands s.cur = none) ∧
    (st.inTrap = true → ∃ t, exec .exit s = .next t ∧ look t.strands s.cur = none) ∧
    (st.inTrap = false → st.flow.divDepth = 0 → ∃ t, exec .exit s = .next t ∧ look t.strands s.cur = none) ∧
    ∀ e rest, st.inTrap = false → st.flow.divTop = e :: rest → RoomOnChip st 0 → e.kind = .path →
      let live := liveMask { st with retired := st.retired ||| st.flow.mask }
      e.loop ≤ st.flow.loops.length → e.mask &&& live ≠ 0 →
      ∃ t st', exec .exit s = .next t ∧ look t.strands s.cur = some st' ∧ st'.pc = e.pc ∧
        st'.retired = st.retired ||| st.flow.mask ∧ st'.flow.mask = e.mask &&& live ∧
        st'.flow.divTop = (rest.map fun e => { e with mask := e.mask &&& ~~~st.flow.mask }) ∧ st'.breg = st.breg ∧ st'.ureg = st.ureg ∧ t.mem = s.mem

/-- SLEEPT completes where its time has come, and otherwise blocks until then; SLEEPQ completes where the queue holds an element or a
token; SLEEPW completes where the word read differs. None is allowed to a handler (R93). -/
def Sys2Proof.Claims.SleepsEnd : Prop :=
  ∀ (s : State) (st : Strand), Issues s st → Alive st → PlainNext st → st.inTrap = false →
    (∀ a ea, uniPairOk st a = true → (∀ r ∈ pairOf a, (fillOf st 255 r).isFull = true) →
      ((readPair st 255 a).toNat ≤ nowNs s → Moves (.sleept a ea) s st fun st' => st'.rest = st.rest) ∧
      (nowNs s < (readPair st 255 a).toNat → ∃ t st', exec (.sleept a ea) s = .next t ∧ look t.strands s.cur = some st' ∧
        st'.run = .blocked (.time (readPair st 255 a).toNat) ∧ st'.pc = st.pc)) ∧
    (∀ p q, look st.ports p.val = some q → (queueOf s q).count > 0 ∨ (queueOf s q).st = .closed ∨ (queueOf s q).st = .drained →
      Moves (.sleepq p) s st fun st' => st'.rest = st.rest) ∧
    ∀ a b ea eb pa key g s1, uniPairOk st a = true → uniSrcOk st b = true → st.accFault = none →
      (∀ r ∈ pairOf a ++ [b], (fillOf st 255 r).isFull = true) → (readPair st 255 a).toNat % 4 = 0 →
      let va := (readPair st 255 a).toNat
      translation s (strandAccess st .b .read) va 4 = (.ok pa key g, s1) →
      (∀ kn, awaitsWrite s1 (some s.cur) kn .b pa 4 = false) →
      firstInOrder s1 s.cur s1.flight.nextId pa 4 = true → heldBySlot s1 pa 4 = false →
      let s2 := openRead (settleZero s1 pa 4) pa 4 key true
      (∀ kn, let r := if isStaged s2 st va 4 then readStaged s2 st s2.mem.nextWrite pa 4 else (readKnown s2 kn .b pa 4).1
        BitVec.ofNat 32 (ofLE r.bytes) ≠ readReg st 255 b) →
      ∃ t st', exec (.sleepw a b ea eb) s = .next t ∧ look t.strands s.cur = some st' ∧ st'.pc = st.pc + 4 ∧ st'.run = .ready

/-- BranchesGo and BranchesSplit together. -/
def Obligations.BranchesTake : Prop := Sys2Proof.Claims.BranchesGo ∧ Sys2Proof.Claims.BranchesSplit

/-- LoopsOpen and LoopsTurn together. -/
def Obligations.LoopsRepeat : Prop := Sys2Proof.Claims.LoopsOpen ∧ Sys2Proof.Claims.LoopsTurn

/-- WaitsComplete and SleepsEnd together. -/
def Obligations.WaitsEnd : Prop := Sys2Proof.Claims.WaitsComplete ∧ Sys2Proof.Claims.SleepsEnd

namespace Sys2Proof.Claims
open Sys2Proof Sys2Proof.Machine

/-! ### Traps and special registers (R394 to R412, R49 to R51, R402, R403) -/

/-- An instruction, or a happening, answers a next state of which P holds. -/
def Gives (i : Instr) (s : State) (P : State → Prop) : Prop := ∃ t, exec i s = .next t ∧ P t

/-- The same, where P also speaks of the strand sid as it then is. -/
def GivesSt (i : Instr) (s : State) (sid : Nat) (P : State → Strand → Prop) : Prop :=
  ∃ t st', exec i s = .next t ∧ look t.strands sid = some st' ∧ P t st'

/-- A strand has entered its kernel's handler: the trap registers hold what R396 records, the interrupted control flow is set
aside, the handler's starts with every bead that has not retired, its pop requests are withdrawn, and it issues nothing before
every load, atomic and special-function result that is due to it has come (R136, R396). Its registers, the rest of what is under
way and memory stay. -/
def Entered (s : State) (sid : Nat) (st : Strand) (tr : TrapRegs) (t : State) (st' : Strand) : Prop :=
  st'.trap = tr ∧ st'.inTrap = true ∧ st'.pc = (kernelOf s st).lrec.trap ∧ st'.run = .ready ∧ st'.pos = 0 ∧
    st'.flow = { mask := liveMask st, winBase := st.flow.winBase } ∧ st'.retired = st.retired ∧ st'.savedFlow = st.flow ∧
    st'.breg = st.breg ∧ st'.ureg = st.ureg ∧ t.mem = s.mem ∧
    t.flight = { s.flight with pops := s.flight.pops.filter fun x => x.sid != sid } ∧ t.strands = put s.strands sid st' ∧
    (strandReady t sid st' = true →
      (∀ x ∈ t.flight.sfu, x.sid = sid → x.dst = []) ∧ ∀ x ∈ t.flight.loads, x.sid = sid → x.failed = true)

/-- The event ring takes an entry at once: it has room, no event has been lost, no entry waits, and no slot holds its write (R308,
R309, R385). -/
def RingTakes (s : State) : Prop :=
  evrRoom s = true ∧ s.cmd.evr.lost = 0 ∧ s.cmd.evr.queued = [] ∧ heldBySlot s (evrSlot s) 32 = false

/-- An event has been posted, where the ring takes an entry at once. -/
def Posted (s t : State) : Prop := RingTakes s → t.cmd.evr.tail = (s.cmd.evr.tail + 1) % 2 ^ 32

/-- No write of a save waits to perform before others (R344). -/
def NoSaves (s : State) : Prop := ∀ x ∈ s.flight.stores, savesToPool s x.sid x.pa = false

/-- A strand has halted with a cause: its pc, its trap registers and its control flow stand (R399, R401), and a HALT event is
posted where the ring has room. -/
def Halted (s : State) (st : Strand) (cause : Nat) (t : State) (st' : Strand) : Prop :=
  st'.run = .halted cause ∧ st'.pc = st.pc ∧ st'.trap = st.trap ∧ st'.flow = st.flow ∧ st'.breg = st.breg ∧ st'.ureg = st.ureg ∧
    Posted s t

/-- The place of an asynchronous cause in the order of R412. -/
def turnOf (c : Nat) : Nat := [0x12, 0x15, 0x11, 0x13].idxOf c

/-- The special registers of R51 as bead j reads them, but for tb, the window's base and a strip chain's times. -/
def specialRow (s : State) (st : Strand) (j : Nat) : Nat → Option Word
  | 0x02 => some (BitVec.ofNat 32 (s.clk.tb % 2 ^ 16))
  | 0x04 => some (BitVec.ofNat 32 (lookD s.clk.cyc st.core 0))
  | 0x05 => some (BitVec.ofNat 32 (lookD s.clk.cyc st.core 0 / 2 ^ 32))
  | 0x08 => some (BitVec.ofNat 32 st.width)
  | 0x09 => some (BitVec.ofNat 32 st.sx)
  | 0x0A => some (BitVec.ofNat 32 (braidOf s st).index)
  | 0x0B => some (BitVec.ofNat 32 (gridPoint s (braidOf s st) % max 1 (kernelOf s st).lrec.gx))
  | 0x0C => some (BitVec.ofNat 32
      (gridPoint s (braidOf s st) / max 1 (kernelOf s st).lrec.gx % max 1 (kernelOf s st).lrec.gy))
  | 0x0D => some (BitVec.ofNat 32
      (gridPoint s (braidOf s st) / max 1 (kernelOf s st).lrec.gx / max 1 (kernelOf s st).lrec.gy))
  | 0x0E => some (match (braidOf s st).locket with | some n => BitVec.ofNat 32 n | none => 0xFFFFFFFF)
  | 0x0F => some (BitVec.ofNat 32 st.core)
  | 0x10 => some (BitVec.ofNat 32 st.lane)
  | 0x11 => some (BitVec.ofNat 32 st.kernel)
  | 0x12 => some (BitVec.ofNat 32 st.ctx)
  | 0x14 => some (st.flow.mask.setWidth 32)
  | 0x15 => some ((st.flow.mask >>> 32).setWidth 32)
  | 0x16 => some (BitVec.ofNat 32 st.flow.divDepth)
  | 0x17 => some (BitVec.ofNat 32 (callStack st j).depth)
  | 0x18 => some (BitVec.ofNat 32 st.flow.winBase)
  | 0x19 => some (BitVec.ofNat 32 st.regs)
  | 0x1A => some (st.stk.setWidth 32)
  | 0x1B => some ((st.stk >>> 32).setWidth 32)
  | 0x1C => some st.stkLimit
  | 0x20 => some st.trap.cause
  | 0x21 => some st.trap.bead
  | 0x22 => some st.trap.pc
  | 0x23 => some st.trap.info
  | 0x24 => some (st.trap.mask.setWidth 32)
  | 0x25 => some ((st.trap.mask >>> 32).setWidth 32)
  | 0x26 => some (st.trap.addr.setWidth 32)
  | 0x27 => some ((st.trap.addr >>> 32).setWidth 32)
  | 0x28 => some (st.save.setWidth 32)
  | 0x29 => some ((st.save >>> 32).setWidth 32)
  | 0x30 => noChain | 0x31 => noChain | 0x32 => noChain | 0x33 => noChain
  | 0x34 => noChain | 0x35 => noChain | 0x36 => noChain | 0x37 => noChain
  | 0x38 => some ((kernelOf s st).seed.setWidth 32)
  | 0x39 => some (((kernelOf s st).seed >>> 32).setWidth 32)
  | 0x3A => some st.draw
  | 0x42 => some (BitVec.ofNat 32 (bwSize s (braidOf s st)))
  | 0x48 => some 0
  | 0x49 => some (BitVec.ofNat 32 st.shIdx)
  | 0x4A => some (if st.inTrap then (getKey st (.b (64 * st.shIdx + j))).val else 0)
  | 0x4B => some (if st.inTrap then (getKey st (.u (st.shIdx % 4))).val else 0)
  | 0x4C => some (if st.inTrap ∧ (getKey st (.b (64 * st.shIdx + j))).fill = .future then 1 else 0)
  | 0x58 => some (BitVec.ofNat 32 (braidOf s st).mcCount)
  | 0x59 => some (BitVec.ofNat 32 (braidOf s st).mcPtr)
  | 0x5A => some (lookD (braidOf s st).mcStore (braidOf s st).mcPtr 0)
  | 0x5B => some (braidOf s st).mcEpi
  | 0x60 => some (portId 0) | 0x61 => some (portId 1) | 0x62 => some (portId 2) | 0x63 => some (portId 3)
  | 0x64 => some (portStatus 0) | 0x65 => some (portStatus 1) | 0x66 => some (portStatus 2) | 0x67 => some (portStatus 3)
  | _ => none
where
  /-- The strip registers outside a strip chain (R337). -/
  noChain : Option Word := if (kernelOf s st).chain = none then some 0 else none
  /-- q0_status to q3_status, 0 for a port that is not bound (R303). -/
  portStatus (p : Nat) : Word := match look st.ports p with | some q => (queueOf s q).status | none => 0
  /-- q0_id to q3_id: bit 31 and the queue, 0 for a port that is not bound (R303). -/
  portId (p : Nat) : Word := match look st.ports p with | some q => BitVec.ofNat 32 (2 ^ 31 + q) | none => 0

/-- What a handler's write leaves a register reading as (R51, R403, R404). -/
def specialKept (n : Nat) (v : Word) : Word :=
  if n = 0x22 then v &&& 0xFFFFFFFC else if n = 0x49 then v &&& 0xFF else if n = 0x59 then v &&& 0x7F else v

/-- The registers of one unit, which a write of one of them may change together: the shadow and the checkpoint registers. -/
def specialUnit (n : Nat) : Nat := if 0x48 ≤ n ∧ n ≤ 0x4C then 0x48 else if 0x58 ≤ n ∧ n ≤ 0x5B then 0x58 else n

end Sys2Proof.Claims

/-- An illegal word enters the handler with cause 0x01 where it stands, TRAP and BRKPT with 0x10 and 0x0F past themselves, and RTT
outside a handler with ILLEGAL_OPERAND; the immediate stands in trap_info. In a handler, each of the first four is a double
fault, which halts the strand; without a trap entry the strand halts with the cause recorded (R47, R48, R396, R399, R401, R410,
R411). -/
def Obligations.TrapsEnter : Prop :=
  ∀ (s : State) (st : Strand), Issues s st →
    (st.inTrap = false → (kernelOf s st).lrec.trap ≠ 0xFFFFFFFF →
      (∀ n, GivesSt (.ill n) s s.cur (Entered s s.cur st ⟨0x01, 0xFF, st.pc, 0, st.flow.mask, 0⟩) ∧
        GivesSt (.illErased n) s s.cur (Entered s s.cur st ⟨0x01, 0xFF, st.pc, 0, st.flow.mask, 0⟩)) ∧
      GivesSt .rtt s s.cur (Entered s s.cur st ⟨0x02, 0xFF, st.pc, 0, st.flow.mask, 0⟩) ∧
      (PlainNext st → ∀ imm,
        GivesSt (.trap imm) s s.cur (Entered s s.cur st ⟨0x10, 0xFF, st.pc + 4, imm.setWidth 32, st.flow.mask, 0⟩) ∧
        GivesSt (.brkpt imm) s s.cur (Entered s s.cur st ⟨0x0F, 0xFF, st.pc + 4, imm.setWidth 32, st.flow.mask, 0⟩))) ∧
    (st.inTrap = true → ∀ n imm,
      GivesSt (.ill n) s s.cur (Halted s st 0x01) ∧ GivesSt (.illErased n) s s.cur (Halted s st 0x01) ∧
      GivesSt (.trap imm) s s.cur (Halted s st 0x10) ∧ GivesSt (.brkpt imm) s s.cur (Halted s st 0x0F)) ∧
    (st.inTrap = false → (kernelOf s st).lrec.trap = 0xFFFFFFFF → ∀ n,
      GivesSt (.ill n) s s.cur fun _ st' => st'.run = .halted 0x01 ∧ st'.pc = st.pc ∧ st'.trap.cause = 0x01 ∧ st'.inTrap = false)

/-- RTT reinstates the interrupted control flow with the beads of trap_mask that have not retired, the pc and the bead, ends a save
under way, and leaves every register as it is; after a cutoff the strand retires (R410, R413). DBG_RESUME does the same for a
strand that halted for want of a trap entry (R400). -/
def Obligations.TrapsReturn : Prop :=
  let Back := fun (s : State) (st : Strand) (t : State) (st' : Strand) =>
    st'.pc = st.trap.pc ∧ st'.pos = st.trap.bead.toNat ∧ st'.inTrap = false ∧ st'.run = .ready ∧
      st'.flow = { st.savedFlow with mask := st.trap.mask &&& liveMask st } ∧ st'.breg = st.breg ∧ st'.ureg = st.ureg ∧
      (lookD t.braids st.braid {}).saving = false ∧ t.mem = s.mem ∧ t.flight = s.flight ∧ t.eng = s.eng ∧ t.queues = s.queues
  (∀ (s : State) (st : Strand), Issues s st → st.inTrap = true → (braidOf s st).capture = false →
    (st.trap.cause = 0x12 → ∃ t, exec .rtt s = .next t ∧ look t.strands s.cur = none) ∧
    (st.trap.cause ≠ 0x12 → st.trap.cause ≠ 0x13 → st.trap.mask &&& liveMask st ≠ 0 → (braidOf s st).mcCount = 0 →
      st.held = [] → GivesSt .rtt s s.cur (Back s st))) ∧
  ∀ (s : State) core lane slot sid st c, s.arg = .three core lane slot → haltedAt s core lane slot = some (sid, st, c) →
    (kernelOf s st).lrec.trap = 0xFFFFFFFF → c ≠ 0x11 → c ≠ 0x12 → c ≠ 0x15 → look s.strands sid = some st →
    (braidOf s st).capture = false → st.trap.cause ≠ 0x12 → st.trap.cause ≠ 0x13 → st.trap.mask &&& liveMask st ≠ 0 →
    (braidOf s st).mcCount = 0 → st.held = [] → GivesSt .dbgResume s sid (Back s st)

/-- TRAP_ENTRY: a strand that may takes the held cause that R412 places first, the oldest of its kind, and holds the others on;
ECC_UNCORRECTABLE records the failed access and keeps the pc in trap_info, the others the pc and the bead at which the strand
blocked (R395, R412). DBG_KILL retires a halted strand, and its kernel's signal carries 0x200 and the cause (R283, R400). -/
def Sys2Proof.Claims.HeldCausesEnter : Prop :=
  (∀ (s : State) (sid : Nat) (st : Strand) (p : List Async) (a : Async) (q : List Async), s.arg = .one sid → look s.strands sid = some st → asyncReady s st = true →
    (kernelOf s st).lrec.trap ≠ 0xFFFFFFFF → st.held = p ++ a :: q → (∀ x ∈ p, x.cause ≠ a.cause) →
    (∀ x ∈ st.held, turnOf a.cause ≤ turnOf x.cause) →
    (a.cause = 0x13 → GivesSt .trapEntry s sid fun t st' => st'.held = p ++ q ∧
      Entered s sid st ⟨0x13, BitVec.ofNat 32 a.bead, a.pc, st.pc, st.flow.mask, a.addr⟩ t st') ∧
    (a.cause ∈ [0x11, 0x12, 0x15] → GivesSt .trapEntry s sid fun t st' => st'.held = p ++ q ∧
      Entered s sid st ⟨BitVec.ofNat 32 a.cause, BitVec.ofNat 32 (asyncBead st), st.pc, a.info, st.flow.mask, 0⟩ t st')) ∧
  ∀ (s : State) core lane slot sid st c k, s.arg = .three core lane slot → haltedAt s core lane slot = some (sid, st, c) →
    look s.strands sid = some st → look s.cmd.kernels st.kernel = some k →
    Gives .dbgKill s fun t => look t.strands sid = none ∧
      (lookD t.cmd.kernels st.kernel {}).err = BitVec.ofNat 32 (0x200 + c)

/-- SREAD writes the register's value to its destination on every bead on which it acts, and changes nothing else; a read of
mc_data moves its pointer on, and a read of tb gives a time no earlier than the strand's last and, unless that is later, within
4 ns of the count, one for every bead (R51, R272, R326, R402, R403). -/
def Sys2Proof.Claims.SpecialsRead : Prop :=
  ∀ (s : State) (st : Strand) d sr, Issues s st → Alive st → PlainNext st → srOperandOk d = true → regExists st d = true →
    (isBead d = true ∨ srVarying sr.toNat = false) → shadowBad st sr.toNat = false → isPort d = false →
    (st.srHeld = [] ∨ srVarying sr.toNat = true) →
    (∀ j ∈ actsOn st (!isBead d), (fillOf st j d).isFull = true) →
    let f : Form := ⟨[], [d], !isBead d, fun _ => []⟩
    let Read := fun (t : State) (st' : Strand) (v : Nat → Word) => st'.pc = st.pc + 4 ∧ st'.run = .ready ∧ f.Others st st' ∧
      t.mem = s.mem ∧ ∀ j ∈ actsOn st (!isBead d), d ≠ .zr → readReg st' j d = v j ∧ fillOf st' j d = .full
    (∀ v : Nat → Word, (∀ j, specialRow s st j sr.toNat = some (v j)) →
      GivesSt (.sread d sr false) s s.cur fun t st' => Read t st' v ∧ st'.rest = st.rest ∧
        (sr.toNat ≠ 0x5A → t = s.withStrand st') ∧
        (sr.toNat = 0x5A → (look s.braids st.braid).isSome →
          (braidOf t st').mcPtr = ((braidOf s st).mcPtr + 1) % 128)) ∧
    (sr.toNat ≤ 1 → ∃ T : Nat, max st.lastTb (nowNs s - 4) ≤ T ∧ T ≤ max st.lastTb (nowNs s + 4) ∧
      GivesSt (.sread d sr false) s s.cur fun t st' => Read t st' fun _ => BitVec.ofNat 32 (T / 2 ^ (32 * sr.toNat)))

/-- SREAD of a pair writes both halves, the even register's first (R50, R402); of tb, those of one time. -/
def Sys2Proof.Claims.SpecialPairsRead : Prop :=
  ∀ (s : State) (st : Strand) d sr lo hi, Issues s st → Alive st → PlainNext st → pairOk st d = true → (isBead d = true ∨ srVarying sr.toNat = false) →
    srPair sr.toNat = true → srOperandOk d = true → (st.srHeld = [] ∨ srVarying sr.toNat = true) →
    (∀ j ∈ actsOn st (!isBead d), ∀ r ∈ pairOf d, (fillOf st j r).isFull = true) →
    ((∀ j, specialRow s st j sr.toNat = some lo) → (∀ j, specialRow s st j (sr.toNat + 1) = some hi) →
      (⟨[], pairOf d, !isBead d, fun _ => [lo, hi]⟩ : Form).CompletesBy (.sread d sr true) s st) ∧
    (sr.toNat = 0 → ∃ T : Nat, max st.lastTb (nowNs s - 4) ≤ T ∧ T ≤ max st.lastTb (nowNs s + 4) ∧
      GivesSt (.sread d sr true) s s.cur fun t st' => st'.pc = st.pc + 4 ∧ t.mem = s.mem ∧
        ∀ j ∈ actsOn st (!isBead d), d ≠ .zr → (pairOf d).map (readReg st' j) =
          [BitVec.ofNat 32 T, BitVec.ofNat 32 (T / 2 ^ 32)])

/-- SWRITE in a handler leaves the register reading as the value, but for the bits that R51 keeps; the registers of no other unit
change, and memory, the general registers and the handler's control flow stay (R402, R403). mc_data moves its pointer on (R272);
sh_b and sh_s write the interrupted strand's registers (R404). -/
def Sys2Proof.Claims.SpecialsWritten : Prop :=
  ∀ (s : State) (st : Strand) sr b, Issues s st → Alive st → PlainNext st → st.inTrap = true → srWritable sr.toNat = true → srOperandOk b = true →
    regExists st b = true → (isBead b = false ∨ srVarying sr.toNat = true) → shadowBad st sr.toNat = false →
    (∀ j ∈ actsOn st (!srVarying sr.toNat), (fillOf st j b).isFull = true) → (look s.braids st.braid).isSome →
    sr.toNat ∉ [0x48, 0x4C, 0x58, 0x5A] →
    GivesSt (.swrite sr b) s s.cur fun t st' => st'.pc = st.pc + 4 ∧ st'.run = .ready ∧ t.mem = s.mem ∧ t.flight = s.flight ∧
      st'.flow = st.flow ∧ st'.savedFlow = st.savedFlow ∧
      (∀ j ∈ actsOn st (!srVarying sr.toNat),
        specialRow t st' j sr.toNat = some (specialKept sr.toNat (readReg st j b))) ∧
      (sr.toNat ≠ 0x4A → sr.toNat ≠ 0x4B → st'.breg = st.breg ∧ st'.ureg = st.ureg) ∧
      ∀ n j, specialUnit n ≠ specialUnit sr.toNat → specialRow t st' j n = specialRow s st j n

/-- SWRITE of mc_count takes 0 to 8, of mc_data writes the word at the pointer, which it moves on, and of sh_e marks an interrupted
register as holding a pending future's handle; of sh_ctl it waits for the command, whose end completes it (R272, R404, R405). -/
def Sys2Proof.Claims.CheckpointsWritten : Prop :=
  ∀ (s : State) (st : Strand) b bd, Issues s st → Alive st → PlainNext st → st.inTrap = true → srOperandOk b = true → regExists st b = true →
    isBead b = false → (fillOf st 255 b).isFull = true → look s.braids st.braid = some bd →
    let v := readReg st 255 b
    (GivesSt (.swrite 0x58 b) s s.cur fun t st' => st'.pc = st.pc + 4 ∧ t.mem = s.mem ∧
      look t.braids st.braid = some { bd with mcCount := if v.toNat ≤ 8 then v.toNat else bd.mcCount }) ∧
    (GivesSt (.swrite 0x5A b) s s.cur fun t st' => st'.pc = st.pc + 4 ∧ t.mem = s.mem ∧
      ∃ b', look t.braids st.braid = some b' ∧ lookD b'.mcStore bd.mcPtr 0 = v ∧ b'.mcPtr = (bd.mcPtr + 1) % 128 ∧
        ∀ k, k ≠ bd.mcPtr → lookD b'.mcStore k 0 = lookD bd.mcStore k 0) ∧
    (v = 1 ∨ v = 2 ∨ (v = 3 ∧ (st.trap.cause = 0x11 ∨ st.trap.cause = 0x15)) →
      (st.shCmd ≠ 4 → GivesSt (.swrite 0x48 b) s s.cur fun t st' => st'.run = .blocked .shadow ∧ st'.shCmd = v.toNat ∧
        st'.pc = st.pc ∧ t.mem = s.mem) ∧
      (st.shCmd = 4 → GivesSt (.swrite 0x48 b) s s.cur fun t st' => st'.run = .ready ∧ st'.shCmd = 0 ∧ st'.pc = st.pc + 4 ∧
        t.mem = s.mem)) ∧
    ∀ k, st.shIdx < st.regs → st.shIdx < 256 → actsOn st false = [k] → v.getLsbD 0 = true →
      GivesSt (.swrite 0x4C b) s s.cur fun t st' => st'.pc = st.pc + 4 ∧ t.mem = s.mem ∧
        getKey st' (.b (64 * st.shIdx + k)) =
          { val := (getKey st (.b (64 * st.shIdx + k))).val
            fill := if handlePending s (getKey st (.b (64 * st.shIdx + k))).val then .future else .full }

/-- SpecialsRead and SpecialPairsRead together. -/
def Obligations.SpecialRegistersRead : Prop := Sys2Proof.Claims.SpecialsRead ∧ Sys2Proof.Claims.SpecialPairsRead

/-- SpecialsWritten and CheckpointsWritten together. -/
def Obligations.SpecialRegistersWritten : Prop := Sys2Proof.Claims.SpecialsWritten ∧ Sys2Proof.Claims.CheckpointsWritten

namespace Sys2Proof.Claims
open Sys2Proof Sys2Proof.Machine

/-! ### Memory (R194 to R217) -/

/-- An access of the strand translates to an address and a key without a walk, and changes no cache (R170, R176). -/
def Hits (s : State) (st : Strand) (path : Path) (need : Need) (va n pa key : Nat) : Prop :=
  st.accFault = none ∧ ∃ pin, translation s (strandAccess st path need) va n = (.ok pa key pin, s)

/-- The lines of a range read under a key without being decrypted again (R179). -/
def Legible (s : State) (pa n key : Nat) : Prop :=
  isLpddr pa = true → ∀ l ∈ linesOf pa n,
    (∀ h, heldLine s l = some h → h.key = key) ∧
      (s.mem.pairOf l = none ∨ s.mem.pairOf l = some (keyPair s key))

/-- A range at which an access meets only its bytes: legible, not being zeroed, without an error, and watched by no slot (R163,
R179, R193, R424). -/
def AtRest (s : State) (pa n key : Nat) : Prop :=
  Legible s pa n key ∧ zeroingAt s pa n = false ∧ eccHit s pa n = false ∧ watchedBy s pa n = []

/-- The newest write to each byte of a range is known on the bead path (R209). -/
def Fresh (s : State) (know : List Known) (pa n : Nat) : Prop :=
  ∀ x, pa ≤ x → x < pa + n → ∀ w, newestWrite s x = some w → (w, Path.b) ∈ know

/-- Memory holds bs from pa on, and is elsewhere as before. -/
def Stored (s t : State) (pa : Nat) (bs : List Byte) : Prop :=
  t.mem.read pa bs.length = bs ∧ ∀ a, a < pa ∨ pa + bs.length ≤ a → t.mem.byteAt a = s.mem.byteAt a

/-- Every byte of memory reads as before. -/
def SameBytes (s t : State) : Prop := ∀ a, t.mem.byteAt a = s.mem.byteAt a

/-- Base + A + an offset (R196). -/
def baseAddr (st : Strand) (p : Nat) (a : Reg) (off j : Nat) : Nat :=
  ((readPair st j (Reg.uni ⟨2 * p % 32, Nat.mod_lt _ (by decide)⟩)).toNat + (readReg st j a).toNat + off) % 2 ^ 64

/-- An address in the strand's stack space: the bead's slice, or in a uniform form the divergence slice (R198). -/
def sliceAddr (st : Strand) (uniform : Bool) (a : Reg) (off j : Nat) : Nat :=
  (st.stk.toNat + (if uniform then st.width else j) * (st.stkLimit.toNat / 16 * 16) + (readReg st j a).toNat + off) % 2 ^ 64

/-- The registers that each bead reads and leaves to a result are full. -/
def AllFull (st : Strand) (uniform : Bool) (rs : List Reg) : Prop :=
  ∀ j ∈ actsOn st uniform, ∀ r ∈ rs, (fillOf st j r).isFull = true

/-- The destinations of each bead are empty until their results come, with the values they had; no other register changes. -/
def LeftDue (st st' : Strand) (uniform : Bool) (ds : List Reg) : Prop :=
  (∀ key, (∀ j ∈ actsOn st uniform, ∀ d ∈ ds, regKey st j d ≠ some key) → getKey st' key = getKey st key) ∧
    ∀ j ∈ actsOn st uniform, ∀ d ∈ ds, (∃ n, d = .bead n) ∨ (∃ n, d = .uni n) →
      readReg st' j d = readReg st j d ∧ fillOf st' j d = .due

/-- A load instruction: its data operand and its address operand, the bytes it reads, whether it is 64 bits wide, whether its
lines are allocated, what else it reads, and each bead's address. -/
structure LoadRow where
  d : Reg
  a : Reg
  n : Nat
  wide : Bool
  alloc : Bool
  base : List Reg
  addr : Strand → Nat → Nat
  fits : Strand → Nat → Prop := fun _ _ => True

/-- The base registers of p. -/
def baseRegs (p : Nat) : List Reg := pairOf (Reg.uni ⟨2 * p % 32, Nat.mod_lt _ (by decide)⟩)

/-- An access to a slice lies within its limit (R198). -/
def inSlice (a : Reg) (off n : Nat) (st : Strand) (j : Nat) : Prop :=
  (readReg st j a).toNat + off + n ≤ st.stkLimit.toNat / 16 * 16

/-- LD, LDU and LDS (R196 to R198). -/
def loadRow : Instr → Option LoadRow
  | .ld d a p imm w => some ⟨d, a, w.bytes, w == .w64, true, baseRegs p.toNat,
      fun st => baseAddr st p.toNat a (imm.toNat * w.bytes), fun _ _ => True⟩
  | .ldu d a p imm w => some ⟨d, a, w.bytes, w == .w64, false, baseRegs p.toNat,
      fun st => baseAddr st p.toNat a (imm.toNat * w.bytes), fun _ _ => True⟩
  | .lds d a imm w => some ⟨d, a, w.bytes, w == .w64, true, [],
      fun st => sliceAddr st (allUniform [d, a]) a (imm.toNat * w.bytes), inSlice a (imm.toNat * w.bytes) w.bytes⟩
  | _ => none

/-- ST and STS (R196, R198). -/
def storeRow : Instr → Option LoadRow
  | .st d a p imm w => some ⟨d, a, w.bytes, w == .w64, true, baseRegs p.toNat,
      fun st => baseAddr st p.toNat a (imm.toNat * w.bytes), fun _ _ => True⟩
  | .sts d a imm w => some ⟨d, a, w.bytes, w == .w64, true, [],
      fun st => sliceAddr st (allUniform [d, a]) a (imm.toNat * w.bytes), inSlice a (imm.toNat * w.bytes) w.bytes⟩
  | _ => none

/-- The registers of the data operand. -/
def LoadRow.data (r : LoadRow) : List Reg := if r.wide then pairOf r.d else [r.d]

/-- The bytes that bead j stores: the low bytes of the register or the pair (R196). -/
def LoadRow.bytesOf (r : LoadRow) (st : Strand) (j : Nat) : List Byte :=
  toLE r.n (if r.wide then (readPair st j r.d).toNat else (readReg st j r.d).toNat)

/-- What check 4 asks of a load or store but its data operand's place (R195). -/
def LoadRow.legal (r : LoadRow) (st : Strand) : Prop :=
  srcOk st r.a = true ∧ isPort r.a = false ∧ (∀ x ∈ r.base, regExists st x = true) ∧ dataOk st r.d r.wide = true

/-- An atomic: its opcode, its operands and its base. -/
structure AtomRow where
  form : Nat
  d : Reg
  a : Reg
  b : Reg
  p : Nat
  wide : Bool

/-- The atomics (R201, R202). -/
def atomRow : Instr → Option AtomRow
  | .atadd d a b p w => some ⟨0x56, d, a, b, p.toNat, w⟩
  | .atfadd d a b p => some ⟨0x57, d, a, b, p.toNat, false⟩
  | .atmins d a b p w => some ⟨0x58, d, a, b, p.toNat, w⟩
  | .atmaxs d a b p w => some ⟨0x59, d, a, b, p.toNat, w⟩
  | .atminu d a b p w => some ⟨0x5A, d, a, b, p.toNat, w⟩
  | .atmaxu d a b p w => some ⟨0x5B, d, a, b, p.toNat, w⟩
  | .atand d a b p w => some ⟨0x5C, d, a, b, p.toNat, w⟩
  | .ator d a b p w => some ⟨0x5D, d, a, b, p.toNat, w⟩
  | .atxor d a b p w => some ⟨0x5E, d, a, b, p.toNat, w⟩
  | .atxch d a b p w => some ⟨0x5F, d, a, b, p.toNat, w⟩
  | .atcas d a b p w => some ⟨0x60, d, a, b, p.toNat, w⟩
  | _ => none

/-- The value of an operand at the atomic's width. -/
def AtomRow.value (r : AtomRow) (st : Strand) (j : Nat) (x : Reg) : DWord :=
  if r.wide then readPair st j x else (readReg st j x).setWidth 64

/-- The registers of an operand at the atomic's width. -/
def AtomRow.regs (r : AtomRow) (x : Reg) : List Reg := if r.wide then pairOf x else [x]

/-- New(M) of R202 for n bits. -/
def atomResult (form n : Nat) (m b cmp : BitVec n) : BitVec n :=
  if form = 0x56 then m + b
  else if form = 0x57 then (rn (fAddVal (fp (m.setWidth 32)) (fp (b.setWidth 32)))).setWidth n
  else if form = 0x58 then if m.sle b then m else b
  else if form = 0x59 then if m.sle b then b else m
  else if form = 0x5A then if m.ule b then m else b
  else if form = 0x5B then if m.ule b then b else m
  else if form = 0x5C then m &&& b
  else if form = 0x5D then m ||| b
  else if form = 0x5E then m ^^^ b
  else if form = 0x5F then b
  else if m = cmp then b else m

end Sys2Proof.Claims

namespace Sys2Proof.Claims
open Sys2Proof Sys2Proof.Machine

/-! ### Sets of beads, and the stacks in memory (R75 to R84) -/

/-- Bits [hi:lo] of a number. -/
def fieldOf (x hi lo : Nat) : Nat := x / 2 ^ lo % 2 ^ (hi + 1 - lo)

/-- The active beads as a mask. -/
def maskOf (l : List Nat) : DWord := l.foldl (fun (m : DWord) j => m ||| 1 <<< j) 0

/-- The active beads grouped by target, in the order of their lowest beads (R77, R83). -/
def targetSets (st : Strand) (t : Nat → Word) : List (DWord × Word) :=
  ((activeBeads st).filter fun j => (activeBeads st).all fun k => k ≥ j || t k != t j).map fun j =>
    (maskOf ((activeBeads st).filter fun k => t k == t j), t j)

/-- The code of a divergence entry's kind (R75). -/
def kindNo : DivKind → Nat
  | .join => 0 | .path => 1 | .xjoin => 2 | .xpath => 3 | .invalid c => c

/-- The 16 bytes of a divergence entry (R75). -/
def entryBytes (e : DivEntry) : List Byte := toLE 16 (e.mask.toNat + e.pc.toNat * 2 ^ 64 + kindNo e.kind * 2 ^ 96 + e.loop * 2 ^ 104)

/-- The 8 bytes of a return entry (R80). -/
def returnBytes (e : RetEntry) : List Byte := toLE 8 (e.ret.toNat + e.d0 * 2 ^ 32 + e.l0 * 2 ^ 40)

/-- A divergence entry read back from memory, without the beads that have retired (R75, R76). -/
def EntryBack (s : State) (st : Strand) (pa : Nat) (e : DivEntry) : Prop :=
  let x := ofLE (s.mem.read pa 16)
  e.mask = BitVec.ofNat 64 x &&& liveMask st ∧ e.pc = BitVec.ofNat 32 (fieldOf x 95 64) ∧ kindNo e.kind = fieldOf x 103 96 ∧
    e.loop = fieldOf x 106 104

/-- A return entry read back from memory (R80). -/
def returnBack (s : State) (pa : Nat) : RetEntry :=
  let x := ofLE (s.mem.read pa 8)
  { ret := BitVec.ofNat 32 x, d0 := fieldOf x 39 32, l0 := fieldOf x 42 40 }

/-- The address of slice j of the stack space, the divergence slice after those of the beads, plus an offset (R81). -/
def sliceAt (st : Strand) (j off : Nat) : Nat := (st.stk.toNat + j * (st.stkLimit.toNat / 16 * 16) + off) % 2 ^ 64

/-- The strand's own access to its stack space reaches pa under key and meets only bytes there, with no earlier access of the strand
to them under way (R82, R199). -/
def StackAt (s : State) (st : Strand) (need : Need) (va n pa key : Nat) : Prop :=
  (kernelOf s st).lrec.det = false ∧ Hits s st .b need va n pa key ∧ AtRest s pa n key ∧ heldBySlot s pa n = false ∧
    firstInOrder s s.cur s.flight.nextId pa n = true

/-- A bead's return stack keeps its newest 4 entries on chip (R80). -/
def KeptCalls (st : Strand) (j : Nat) : Prop := (callStack st j).top.length = min (callStack st j).depth 4

end Sys2Proof.Claims

/-- CALLX with several targets pushes an XJOIN with the mask, and an XPATH for each set of beads but the one of the lowest active bead,
which goes first; the return stacks are as for one target (R83). -/
def Sys2Proof.Claims.CallsSplit : Prop :=
  ∀ (s : State) (st : Strand) a ea (t : Nat → Word) m1 t1 rest, Issues s st → Alive st → FullOn st a →
    (∀ j ∈ activeBeads st, readReg st j a = t j ∧ (t j).toNat % 4 = 0 ∧
      (callStack st j).depth = (callStack st j).top.length ∧ (callStack st j).depth < 4) →
    targetSets st t = (m1, t1) :: rest → rest ≠ [] → RoomOnChip st (rest.length + 1) →
    Lands (.callx a ea) s st t1 st.flow.loops fun st' =>
      (∀ j ∈ activeBeads st, callStack st' j =
        { depth := (callStack st j).depth + 1
          top := { ret := st.pc + 4, d0 := st.flow.divDepth, l0 := st.flow.loops.length } :: (callStack st j).top }) ∧
      (∀ j, j ∉ activeBeads st → callStack st' j = callStack st j) ∧ st'.flow.mask = m1 ∧
      st'.flow.divDepth = st.flow.divDepth + rest.length + 1 ∧
      st'.flow.divTop = (rest.map fun e => { kind := .xpath, mask := e.1, pc := e.2, loop := st.flow.loops.length }) ++
        { kind := .xjoin, mask := st.flow.mask, pc := st.pc + 4, loop := st.flow.loops.length } :: st.flow.divTop ∧
      OnlyFlow st st'

/-- RET of a subset of CALLX starts the next pending subset at its callee, and after the last restores the mask of the XJOIN at the
instruction after CALLX (R84). -/
def Sys2Proof.Claims.ReturnsJoin : Prop :=
  ∀ (s : State) (st : Strand) e x tail above J below, Issues s st → Alive st → activeBeads st ≠ [] →
    (∀ j ∈ activeBeads st, ∃ rest, (callStack st j).top = e :: rest ∧ (callStack st j).depth = rest.length + 1 ∧ rest.length < 4) →
    e.ret.toNat % 4 = 0 → e.l0 ≤ st.flow.loops.length → RoomOnChip st 0 → st.flow.divTop = above ++ J :: below → below.length = e.d0 →
    J.kind = .xjoin → J.pc = e.ret → (∀ y ∈ above, y.kind = .xpath) → st.flow.divTop = x :: tail → x.loop ≤ e.l0 →
    x.mask &&& liveMask st ≠ 0 →
    Lands .ret s st (if above = [] then e.ret else x.pc) (st.flow.loops.drop (st.flow.loops.length - x.loop)) fun st' =>
      (∀ j ∈ activeBeads st, (callStack st' j).top = (callStack st j).top.drop 1 ∧
        (callStack st' j).depth = (callStack st j).depth - 1) ∧
      (∀ j, j ∉ activeBeads st → callStack st' j = callStack st j) ∧
      st'.flow.mask = x.mask &&& liveMask st ∧ st'.flow.divDepth = st.flow.divDepth - 1 ∧ st'.flow.divTop = tail ∧ OnlyFlow st st'

/-- CALL writes the oldest of 4 return entries of a bead to its slice of the stack space as the new one is pushed, and RET reads back
the entry that becomes one of the newest 4, as memory then holds it (R80 to R82). -/
def Sys2Proof.Claims.CallsSpill : Prop :=
  ∀ (s : State) (st : Strand) (pa : Nat → Nat) key, Issues s st → Alive st → NoSaves s → activeBeads st ≠ [] →
    (∀ j ∈ activeBeads st, KeptCalls st j) →
    (∀ off, (at_ st off).toNat % 4 = 0 → st.inTrap = false →
      (let spills := fun j => 4 ≤ (callStack st j).depth
       (∀ j ∈ activeBeads st, (callStack st j).depth < 4 + st.stkLimit.toNat / 16 * 16 / 8 ∧
         (spills j → StackAt s st .write (sliceAt st j (8 * ((callStack st j).depth - 4))) 8 (pa j) key)) →
       (∀ j ∈ activeBeads st, ∀ k ∈ activeBeads st, j ≠ k → spills j → spills k → pa j + 8 ≤ pa k ∨ pa k + 8 ≤ pa j) →
       GivesSt (.call off) s s.cur fun t st' => st'.pc = at_ st off ∧ st'.breg = st.breg ∧ st'.ureg = st.ureg ∧
         (∀ j ∈ activeBeads st, callStack st' j = { depth := (callStack st j).depth + 1, top :=
             ({ ret := st.pc + 4, d0 := st.flow.divDepth, l0 := st.flow.loops.length } :: (callStack st j).top).take 4 } ∧
           ∀ old, spills j → (callStack st j).top.getLast? = some old → t.mem.read (pa j) 8 = returnBytes old) ∧
         ∀ b, (∀ j ∈ activeBeads st, spills j → b < pa j ∨ pa j + 8 ≤ b) → t.mem.byteAt b = s.mem.byteAt b)) ∧
    ∀ e, (∀ j ∈ activeBeads st, (callStack st j).top.head? = some e) → e.ret.toNat % 4 = 0 → e.l0 ≤ st.flow.loops.length →
      e.d0 = st.flow.divDepth →
      (let back := fun j => 4 < (callStack st j).depth
       (∀ j ∈ activeBeads st, back j → StackAt s st .read (sliceAt st j (8 * ((callStack st j).depth - 5))) 8 (pa j) key ∧
         Fresh s st.know (pa j) 8) →
       GivesSt .ret s s.cur fun t st' => SameBytes s t ∧ st'.pc = e.ret ∧ st'.breg = st.breg ∧ st'.ureg = st.ureg ∧
         ∀ j ∈ activeBeads st, (callStack st' j).depth = (callStack st j).depth - 1 ∧
           (¬ back j → (callStack st' j).top = (callStack st j).top.tail) ∧
           (back j → (callStack st' j).top = (callStack st j).top.tail ++ [returnBack s (pa j)]))

/-- JPT writes the oldest of 16 divergence entries to the divergence slice as the new one is pushed, and a JOIN that takes up a path
reads back the entry that becomes one of the newest 16, as memory then holds it (R75, R76, R81, R82). -/
def Sys2Proof.Claims.EntriesSpill : Prop :=
  ∀ (s : State) (st : Strand) pa key, Issues s st → Alive st → NoSaves s → st.flow.divTop.length = 16 →
    (∀ off old, PlainNext st → st.inTrap = false → 16 ≤ st.flow.divDepth →
      st.flow.divDepth < min 255 (16 + st.stkLimit.toNat / 16 * 16 / 16) → st.flow.divTop.getLast? = some old →
      StackAt s st .write (sliceAt st st.width (16 * (st.flow.divDepth - 16))) 16 pa key →
      GivesSt (.jpt off) s s.cur fun t st' => Stored s t pa (entryBytes old) ∧ st'.pc = st.pc + 4 ∧
        st'.flow.divDepth = st.flow.divDepth + 1 ∧ st'.flow.mask = st.flow.mask ∧ st'.breg = st.breg ∧ st'.ureg = st.ureg ∧
        st'.flow.divTop =
          ({ kind := .join, mask := st.flow.mask, pc := at_ st off, loop := st.flow.loops.length } :: st.flow.divTop).take 16) ∧
    ∀ e rest, st.flow.divTop = e :: rest → 16 < st.flow.divDepth → e.kind = .path → e.loop ≤ st.flow.loops.length →
      e.mask &&& liveMask st ≠ 0 → StackAt s st .read (sliceAt st st.width (16 * (st.flow.divDepth - 17))) 16 pa key →
      Fresh s st.know pa 16 →
      GivesSt .join s s.cur fun t st' => SameBytes s t ∧ st'.pc = e.pc ∧ st'.flow.divDepth = st.flow.divDepth - 1 ∧
        st'.flow.mask = e.mask &&& liveMask st ∧ st'.breg = st.breg ∧ st'.ureg = st.ureg ∧
        ∃ old, st'.flow.divTop = rest ++ [old] ∧ EntryBack s st pa old

/-- CallsPush, CallsSplit, ReturnsPop, ReturnsJoin and CallsSpill together. -/
def Obligations.CallsReturn : Prop :=
  Sys2Proof.Claims.CallsPush ∧ Sys2Proof.Claims.CallsSplit ∧ Sys2Proof.Claims.ReturnsPop ∧ Sys2Proof.Claims.ReturnsJoin ∧
    Sys2Proof.Claims.CallsSpill

/-- JoinsMeet, ExitsEnd and EntriesSpill together. -/
def Obligations.PathsMeetAndEnd : Prop := Sys2Proof.Claims.JoinsMeet ∧ Sys2Proof.Claims.ExitsEnd ∧ Sys2Proof.Claims.EntriesSpill

/-- Every load whose addresses are aligned and translate hands one read for each bead to the memory, in issue order, leaves the
destinations empty until the data arrives, and changes no byte (R194 to R198, R208). -/
def Sys2Proof.Claims.LoadsIssue : Prop :=
  ∀ i r s st (pa key : Nat → Nat), loadRow i = some r → Issues s st → Alive st → PlainNext st → r.legal st →
    loadDstOk st r.d r.wide = true → classOk r.d [r.a] = true →
    (let acts := actsOn st (allUniform [r.d, r.a])
     AllFull st (allUniform [r.d, r.a]) (r.base ++ [r.a] ++ r.data) →
     (∀ j ∈ acts, r.fits st j ∧ r.addr st j % r.n = 0 ∧ Hits s st .b .read (r.addr st j) r.n (pa j) (key j)) →
     GivesSt i s s.cur fun t st' => st'.pc = st.pc + 4 ∧ st'.run = .ready ∧ st'.rest = st.rest ∧
       LeftDue st st' (allUniform [r.d, r.a]) r.data ∧ t.strands = put s.strands s.cur st' ∧ t.mem = s.mem ∧
       t.braids = s.braids ∧ t.queues = s.queues ∧ t.flight.stores = s.flight.stores ∧ t.flight.atoms = s.flight.atoms ∧
       ∃ ops, t.flight.loads = s.flight.loads ++ ops ∧ ops.length = acts.length ∧
         ∀ (m j : Nat), acts[m]? = some j → ∃ op, ops[m]? = some op ∧ op.id = s.flight.nextId + m ∧ op.sid = s.cur ∧ op.bead = j ∧
           op.dst = r.data.filterMap (regKey st j) ∧ op.len = r.n ∧ op.va = r.addr st j ∧ op.pa = pa j ∧ op.key = key j ∧
           op.alloc = r.alloc ∧ (∀ k ∈ st.know, k ∈ op.know) ∧ (isStaged s st op.va r.n = false → op.snap = none))

/-- Every store whose addresses are aligned and translate hands one write for each bead to its vault, in issue order, with the
bytes of its data operand, and the strand knows the write; no register changes, and no byte until a vault performs it. Of a
deterministic kernel outside its window, the write is staged with the braid instead (R194 to R200, R208, R218). -/
def Sys2Proof.Claims.StoresIssue : Prop :=
  ∀ i r s st (pa key : Nat → Nat), storeRow i = some r → Issues s st → Alive st → PlainNext st → r.legal st →
    (let uni := allUniform [r.d, r.a]
     let acts := actsOn st uni
     AllFull st uni (r.base ++ [r.a] ++ r.data) →
     (∀ j ∈ acts, r.fits st j ∧ r.addr st j % r.n = 0 ∧ Hits s st .b .write (r.addr st j) r.n (pa j) (key j)) →
     let Same := fun (t : State) (st' : Strand) => st'.pc = st.pc + 4 ∧ st'.run = .ready ∧ st'.rest = st.rest ∧
       (∀ k, getKey st' k = getKey st k) ∧ t.strands = put s.strands s.cur st' ∧ SameBytes s t ∧ t.mem.log = s.mem.log ∧
       t.queues = s.queues ∧ t.flight.loads = s.flight.loads ∧ t.flight.atoms = s.flight.atoms ∧
       ∀ m < acts.length, (s.mem.nextWrite + m, Path.b) ∈ st'.know
     ((∀ j ∈ acts, isStaged s st (r.addr st j) r.n = false) →
       GivesSt i s s.cur fun t st' => Same t st' ∧ t.braids = s.braids ∧
         ∃ ops, t.flight.stores = s.flight.stores ++ ops ∧ ops.length = acts.length ∧
           ∀ (m j : Nat), acts[m]? = some j → ∃ op, ops[m]? = some op ∧ op.id = s.flight.nextId + m ∧ op.sid = s.cur ∧
             op.pa = pa j ∧ op.key = key j ∧ op.bytes = r.bytesOf st j ∧ op.writeId = s.mem.nextWrite + m) ∧
     ((∀ j ∈ acts, isStaged s st (r.addr st j) r.n = true) → (look s.braids st.braid).isSome → isHead s (braidOf s st) = true →
       (braidOf s st).staged.length + acts.length ≤ 16384 →
       GivesSt i s s.cur fun t st' => Same t st' ∧ t.flight = s.flight ∧
         ∃ xs, (braidOf t st').staged = (braidOf s st).staged ++ xs ∧ xs.length = acts.length ∧
           ∀ (m j : Nat), acts[m]? = some j → ∃ x, xs[m]? = some x ∧ x.form = 0 ∧ x.pa = pa j ∧ x.key = key j ∧
             x.bytes = r.bytesOf st j ∧ x.writeId = s.mem.nextWrite + m))

/-- Every atomic whose addresses are aligned and translate sends one access for each bead to its home, with its operand and, for
ATCAS, its compare value, and leaves the destinations empty until the old values come (R195, R201 to R203). -/
def Sys2Proof.Claims.AtomicsSend : Prop :=
  ∀ i r s st (pa key : Nat → Nat), atomRow i = some r → Issues s st → Alive st → PlainNext st →
    loadDstOk st r.d r.wide = true → dataOk st r.b r.wide = true → srcOk st r.a = true → isPort r.a = false →
    (∀ x ∈ baseRegs r.p, regExists st x = true) → classOk r.d [r.a, r.b] = true →
    (let uni := allUniform [r.d, r.a, r.b]
     let acts := actsOn st uni
     let n := if r.wide then 8 else 4
     AllFull st uni (baseRegs r.p ++ [r.a] ++ r.regs r.b ++ r.regs r.d) →
     (∀ j ∈ acts, baseAddr st r.p r.a 0 j % n = 0 ∧ Hits s st .b .both (baseAddr st r.p r.a 0 j) n (pa j) (key j) ∧
       isStaged s st (baseAddr st r.p r.a 0 j) n = false) →
     GivesSt i s s.cur fun t st' => st'.pc = st.pc + 4 ∧ st'.run = .ready ∧ st'.rest = st.rest ∧
       LeftDue st st' uni (r.regs r.d) ∧ t.strands = put s.strands s.cur st' ∧ SameBytes s t ∧ t.mem.log = s.mem.log ∧
       t.braids = s.braids ∧ t.queues = s.queues ∧ t.flight.loads = s.flight.loads ∧ t.flight.stores = s.flight.stores ∧
       ∃ ops, t.flight.atoms = s.flight.atoms ++ ops ∧ ops.length = acts.length ∧
         ∀ (m j : Nat), acts[m]? = some j → ∃ op, ops[m]? = some op ∧ op.sid = s.cur ∧ op.bead = j ∧ op.form = r.form ∧
           op.wide = r.wide ∧ op.pa = pa j ∧ op.va = baseAddr st r.p r.a 0 j ∧ op.key = key j ∧ op.b = r.value st j r.b ∧
           (r.form = 0x60 → op.cmp = r.value st j r.d) ∧ op.dst = (r.regs r.d).filterMap (regKey st j) ∧ op.old = none ∧
           op.writeId = s.mem.nextWrite + m ∧ (op.writeId, Path.b) ∈ st'.know)

/-- Every atomic of a deterministic kernel outside its braid's window stages one write for each bead, with its operand, and leaves the
destinations empty: the value that its access will return is that of the view before this write. No byte changes (R200, R203). -/
def Sys2Proof.Claims.AtomicsStage : Prop :=
  ∀ i r s st (pa key : Nat → Nat), atomRow i = some r → Issues s st → Alive st → PlainNext st →
    loadDstOk st r.d r.wide = true → dataOk st r.b r.wide = true → srcOk st r.a = true → isPort r.a = false →
    (∀ x ∈ baseRegs r.p, regExists st x = true) → classOk r.d [r.a, r.b] = true → (look s.braids st.braid).isSome →
    (let uni := allUniform [r.d, r.a, r.b]
     let acts := actsOn st uni
     let n := if r.wide then 8 else 4
     AllFull st uni (baseRegs r.p ++ [r.a] ++ r.regs r.b ++ r.regs r.d) → isHead s (braidOf s st) = true →
     (braidOf s st).staged.length + acts.length ≤ 16384 →
     (∀ j ∈ acts, baseAddr st r.p r.a 0 j % n = 0 ∧ Hits s st .b .both (baseAddr st r.p r.a 0 j) n (pa j) (key j) ∧
       isStaged s st (baseAddr st r.p r.a 0 j) n = true) →
     GivesSt i s s.cur fun t st' => st'.pc = st.pc + 4 ∧ st'.run = .ready ∧ st'.rest = st.rest ∧
       LeftDue st st' uni (r.regs r.d) ∧ t.strands = put s.strands s.cur st' ∧ SameBytes s t ∧ t.mem.log = s.mem.log ∧
       t.queues = s.queues ∧ t.flight.loads = s.flight.loads ∧ t.flight.stores = s.flight.stores ∧
       ∃ ops xs, t.flight.atoms = s.flight.atoms ++ ops ∧ ops.length = acts.length ∧
         (braidOf t st').staged = (braidOf s st).staged ++ xs ∧ xs.length = acts.length ∧
         ∀ (m j : Nat), acts[m]? = some j → ∃ op x, ops[m]? = some op ∧ xs[m]? = some x ∧ op.sid = s.cur ∧ op.bead = j ∧
           op.snap = some (s.mem.nextWrite + m) ∧ op.pa = pa j ∧ op.dst = (r.regs r.d).filterMap (regKey st j) ∧ op.old = none ∧
           x.form = r.form ∧ x.pa = pa j ∧ x.key = key j ∧ x.bytes = toLE n (r.value st j r.b).toNat ∧
           (r.form = 0x60 → x.cmp = r.value st j r.d) ∧ x.writeId = s.mem.nextWrite + m ∧ (x.writeId, Path.b) ∈ st'.know)

/-- AtomicsSend and AtomicsStage together. -/
def Obligations.AtomicsIssue : Prop := Sys2Proof.Claims.AtomicsSend ∧ Sys2Proof.Claims.AtomicsStage

/-- FENCE, once the strand's accesses on the bead path have performed where the mask names it, makes known on every path of the
mask what is known on one of them; a release leaves the strand's later writes on those paths the publication of it, and an
acquire adds what the strand's reads on those paths met (R213 to R216); at system scope, once the stores that go out before its tokens have
gone. A pending texture read keeps the paths of a FENCE that names its own (R212). -/
def Obligations.FencesOrder : Prop :=
  ∀ (s : State) (st : Strand) paths kind scope, Issues s st → Alive st → PlainNext st → (paths.getLsbD 0 = true → beadDone s s.cur = true) →
    (scope = .system → ∀ c ∈ s.eng.links, c.unsent = true → deviceUp s c.dest = false) →
    GivesSt (.fence paths kind scope) s s.cur fun t st' => st'.pc = st.pc + 4 ∧ st'.run = .ready ∧ t.mem = s.mem ∧
      { t.flight with nextId := s.flight.nextId } = { s.flight with texels := s.flight.texels.map fun x =>
        (if x.sid == s.cur && paths.getLsbD Path.x.bit then { x with fenced := x.fenced ||| paths.toNat } else x) } ∧
      (scope ≠ .system → t.fab = s.fab) ∧ t.strands = put s.strands s.cur st' ∧ (∀ k, getKey st' k = getKey st k) ∧ st'.flow = st.flow ∧
      (∀ k ∈ st.know, k ∈ st'.know) ∧
      (∀ w p q, (w, p) ∈ st'.know → paths.getLsbD p.bit = true → paths.getLsbD q.bit = true → (w, q) ∈ st'.know) ∧
      (kind = .rel → ∀ w q, (w, q) ∈ st'.know → (w, q) ∈ st.know ∨ (paths.getLsbD q.bit = true ∧
        ∃ p, (w, p) ∈ st.know ∧ paths.getLsbD p.bit = true)) ∧
      (kind ≠ .rel → ∀ x ∈ s.mem.log, ∀ p ∈ x.pubs, (∃ q, (x.id, q) ∈ st.reads ∧ paths.getLsbD q.bit = true) →
        inScope s p.scope p.by_ (partyOf s s.cur st) = true → inScope s scope (partyOf s s.cur st) p.by_ = true →
        ∀ k ∈ p.pairs, k ∈ st'.know) ∧
      (kind = .acq → st'.fencePubs = st.fencePubs) ∧
      (kind ≠ .acq → ∃ x, st'.fencePubs = st.fencePubs ++ [x] ∧ x.paths = paths.toNat ∧ x.pub.scope = scope ∧
        x.pub.by_ = partyOf s s.cur st ∧ ∀ k, k ∈ x.pub.pairs ↔ k ∈ st'.know ∧ paths.getLsbD k.2.bit = true)

/-- LOAD_ARRIVAL fills the destination with the bytes at the address, where the strand knows the newest write to each, and adds those
writes to what it knows; STORE_PERFORM makes the store's bytes the newest; neither changes another byte (R196, R207 to R209).
CACHE_LINE_FILL ends the read of a line, which the cache region then holds where it is to be allocated (R191, R197). -/
def Sys2Proof.Claims.AccessesPerform : Prop :=
  (∀ (s : State) (op : LoadOp) st, s.arg = .one op.id → s.flight.loads.find? (fun x => x.id == op.id) = some op →
    look s.strands op.sid = some st → loadReady s op = true → op.failed = false → op.snap = none → AtRest s op.pa op.len op.key →
    Fresh s (op.know ++ st.reads) op.pa op.len → op.dst.Nodup → RKey.lc ∉ op.dst →
    GivesSt .loadArrival s op.sid fun t st' => SameBytes s t ∧ st'.pc = st.pc ∧ st'.run = st.run ∧ st'.flow = st.flow ∧
      (∀ k, k ∉ op.dst → getKey st' k = getKey st k) ∧
      (∀ (m : Nat) k w, op.dst[m]? = some k → (wordsOf (s.mem.read op.pa op.len))[m]? = some w → getKey st' k = { val := w }) ∧
      (∀ x, op.pa ≤ x → x < op.pa + op.len → ∀ w, newestWrite s x = some w → (w, Path.b) ∈ st'.know) ∧
      (∀ x ∈ t.flight.loads, x.id ≠ op.id) ∧ t.flight.stores = s.flight.stores ∧ t.flight.atoms = s.flight.atoms) ∧
  (∀ (s : State) (op : StoreOp), s.arg = .one op.id → s.flight.stores.find? (fun x => x.id == op.id) = some op →
    storeReady s op = true → op.bytes ≠ [] → AtRest s op.pa op.bytes.length op.key →
    Gives .storePerform s fun t => Stored s t op.pa op.bytes ∧ t.strands = s.strands ∧
      (∀ x ∈ t.flight.stores, x.id ≠ op.id) ∧ t.flight.loads = s.flight.loads ∧ t.flight.atoms = s.flight.atoms ∧
      ∃ w, t.mem.log = w :: s.mem.log ∧ w.id = op.writeId ∧ w.pa = op.pa ∧ w.new = op.bytes ∧ w.path = some .b ∧ w.pubs = op.pubs) ∧
  ∀ (s : State) (x : LineFill), s.arg = .one x.line → s.flight.fills.find? (fun y => y.line == x.line) = some x → lpddrHeld s = false →
    Legible s (128 * x.line) 128 x.key → isLpddr (128 * x.line) = true →
    Gives .cacheLineFill s fun t => SameBytes s t ∧ t.strands = s.strands ∧ (∀ y ∈ t.flight.fills, y.line ≠ x.line) ∧
      (x.alloc = true → s.vaults.units ≠ 0 → ∃ h, heldLine t x.line = some h ∧ h.key = x.key) ∧
      (x.alloc = false → t.vaults = s.vaults)

/-- ATOMIC_PERFORM replaces the value at its home by New(M), keeps the old one for its destination, and changes no other byte;
ATOMIC_RETURN fills the destination with it (R202 to R204). ATOMIC_PERFORM of a deterministic kernel keeps the value of the view of
R200, and no byte changes before its release. -/
def Sys2Proof.Claims.AtomicsPerform : Prop :=
  (∀ (s : State) (op : AtomOp), s.arg = .one op.id → s.flight.atoms.find? (fun x => x.id == op.id) = some op → atomReady s op = true → op.failed = false →
    (∀ x ∈ s.flight.atoms, x.id = op.id → x = op) → (look s.strands op.sid).isSome → op.bead ≠ 254 → 0x56 ≤ op.form → op.form ≤ 0x60 →
    AtRest s op.pa (if op.wide then 8 else 4) op.key →
    let n := if op.wide then 64 else 32
    (op.snap = none →
      let m := BitVec.ofNat n (ofLE (s.mem.read op.pa (n / 8)))
      Gives .atomicPerform s fun t => t.strands = s.strands ∧
        Stored s t op.pa (toLE (n / 8) (atomResult op.form n m (op.b.setWidth n) (op.cmp.setWidth n)).toNat) ∧
        ∃ x ∈ t.flight.atoms, x.id = op.id ∧ x.old = some (m.setWidth 64) ∧ x.dst = op.dst ∧ x.sid = op.sid) ∧
    ∀ k st, op.snap = some k → look s.strands op.sid = some st →
      Gives .atomicPerform s fun t => t.strands = s.strands ∧ SameBytes s t ∧ t.mem.log = s.mem.log ∧
        ∃ x ∈ t.flight.atoms, x.id = op.id ∧ x.dst = op.dst ∧ x.sid = op.sid ∧
          x.old = some (BitVec.ofNat 64 (ofLE (readStaged s st k op.pa (n / 8)).bytes))) ∧
  ∀ (s : State) (op : AtomOp) st m, s.arg = .one op.id → s.flight.atoms.find? (fun x => x.id == op.id) = some op → op.old = some m →
    look s.strands op.sid = some st → op.dst.Nodup → RKey.lc ∉ op.dst →
    GivesSt .atomicReturn s op.sid fun t st' => t.mem = s.mem ∧ st'.pc = st.pc ∧ st'.run = st.run ∧ st'.flow = st.flow ∧
      (∀ k, k ∉ op.dst → getKey st' k = getKey st k) ∧ (∀ x ∈ t.flight.atoms, x.id ≠ op.id) ∧
      (∀ k, op.dst[0]? = some k → getKey st' k = { val := m.setWidth 32 }) ∧
      (∀ k, op.dst[1]? = some k → getKey st' k = { val := (m >>> 32).setWidth 32 })

/-- AccessesPerform and AtomicsPerform together. -/
def Obligations.MemoryPerforms : Prop := Sys2Proof.Claims.AccessesPerform ∧ Sys2Proof.Claims.AtomicsPerform

/-- LoadsIssue and StoresIssue together. -/
def Obligations.MemoryIssues : Prop := Sys2Proof.Claims.LoadsIssue ∧ Sys2Proof.Claims.StoresIssue

namespace Sys2Proof.Claims
open Sys2Proof Sys2Proof.Machine

/-! ### Hinges and signals (R274 to R285) -/

/-- The strand may name hinge h: it is a member, and a pair hinge needs a locket (R278). hg is the hinge, bid the braid with
which it is held, m the strand's member number. -/
def Member (s : State) (st : Strand) (h : Fin 24) (bid m : Nat) (hg : Hinge) : Prop :=
  bid = hingeHome s st h ∧ m = hingeMember s st h ∧ hg = hingeOfBraid s bid h ∧ (look s.braids bid).isSome ∧
    (h.val < 16 ∨ (braidOf s st).locket.isSome) ∧ hg.members.testBit m = true

/-- The strand's arrival at a hinge is in a state (R275). -/
def At (hg : Hinge) (m : Nat) (a : Arrival) : Prop := lookD hg.st m .idle = a

/-- The members that lack once m has arrived: none, or some (R276). -/
def LastAt (hg : Hinge) (m : Nat) : Prop := (hg.arrived ||| 2 ^ m) &&& hg.members = hg.members

/-- Only the hinge differs in the braid, memory and everything under way are as before, and the strand goes on with its
registers. -/
def HingeOnly (s : State) (st : Strand) (t : State) (st' : Strand) : Prop :=
  st'.pc = st.pc + 4 ∧ st'.run = .ready ∧ (∀ k, getKey st' k = getKey st k) ∧ st'.flow = st.flow ∧
    t.strands = put s.strands s.cur st' ∧ t.mem = s.mem ∧ t.flight = s.flight ∧ t.queues = s.queues ∧
    ∀ k ∈ st.know, k ∈ st'.know

/-- What the hinge is after an arrival that completes no phase: the arrival is pending in this phase (R276, R279). -/
def ArrivedAt (hg hg' : Hinge) (m : Nat) (know : List Known) : Prop :=
  hg'.members = hg.members ∧ hg'.phase = hg.phase ∧ hg'.arrived = hg.arrived ||| 2 ^ m ∧ hg'.done = hg.done ∧
    At hg' m (.pending hg.phase) ∧ (∀ x, x ≠ m → lookD hg'.st x .idle = lookD hg.st x .idle) ∧ ∀ k ∈ know, k ∈ hg'.pubs

/-- What the hinge is after the arrival that completes its phase: the other phase begins, and who waited has passed (R276). -/
def CompletedAt (hg hg' : Hinge) (m : Nat) (know : List Known) : Prop :=
  hg'.members = hg.members ∧ hg'.phase = !hg.phase ∧ hg'.arrived = 0 ∧ At hg' m .passed ∧
    (∀ x ph, lookD hg.st x .idle = .pending ph → At hg' x .passed) ∧ (∀ k ∈ know, k ∈ hg'.done) ∧ ∀ k ∈ hg.pubs, k ∈ hg'.done

/-- The value of a signal after SIGWR (R285). -/
def signalNew (op : SigOp) (m b : DWord) : DWord :=
  match op with
  | .set => b
  | .add => m + b
  | .maxu => if m.ult b then b else m

/-- A condition of R284. -/
def signalMeets (c : Cond) (v b : DWord) : Bool :=
  match c with
  | .eq => v == b
  | .ne => v != b
  | .geu => b.ule v
  | .ltu => v.ult b

/-- The operands of a signal instruction are pairs of full registers, and the object is aligned, reached without a walk, at rest,
no slot holds it, the strand's accesses have performed, and no write that it knows is still to come (R199, R284, R385). -/
def SignalAt (s : State) (st : Strand) (a : Reg) (need : Need) (pa key : Nat) : Prop :=
  uniPairOk st a = true ∧ (∀ r ∈ pairOf a, (fillOf st 255 r).isFull = true) ∧ (readPair st 255 a).toNat % 32 = 0 ∧
    Hits s st .b need (readPair st 255 a).toNat 32 pa key ∧ AtRest s pa 32 key ∧
    beadDone s s.cur = true ∧ firstInOrder s s.cur s.flight.nextId pa 32 = true ∧ heldBySlot s pa 32 = false ∧
    ∀ kn, awaitsWrite s (some s.cur) kn .b pa 8 = false

/-- The value of a signal that a strand reads: the newest at its home, the model's choice (log 124), or in a deterministic kernel
that of the view of R200. -/
def signalSeen (s : State) (st : Strand) (va pa : Nat) : DWord :=
  BitVec.ofNat 64 (ofLE (if isStaged s st va 32 then (readStaged s st s.mem.nextWrite pa 8).bytes else s.mem.read pa 8))

/-- The publications that the newest write of a signal hands an observer of a scope (R210, R211). -/
def Handed (s : State) (me : Party) (scope : Scope) (pa : Nat) (know : List Known) : Prop :=
  ∀ x ∈ s.mem.log, (∃ b < 8, newestWrite s (pa + b) = some x.id) → ∀ p ∈ x.pubs, inScope s p.scope p.by_ me = true →
    inScope s scope me p.by_ = true → ∀ k ∈ p.pairs, k ∈ know

end Sys2Proof.Claims

/-- HARR arrives with what the strand knows: the last to arrive turns the phase, and everyone who waits has passed. HSYNC does
the same and goes on where the phase turned, or waits; where it already waits it goes on when its arrival has passed (R276,
R279, R280). -/
def Sys2Proof.Claims.HingesArrive : Prop :=
  ∀ (s : State) (st : Strand) h bid m hg, Issues s st → Alive st → PlainNext st → st.inTrap = false → Member s st h bid m hg →
    (performedAll s s.cur = true → (∀ ph, ¬ At hg m (.pending ph)) →
      (¬ LastAt hg m → GivesSt (.harr h) s s.cur fun t st' => HingeOnly s st t st' ∧
        ArrivedAt hg (hingeOfBraid t bid h) m st.know) ∧
      (LastAt hg m → GivesSt (.harr h) s s.cur fun t st' => HingeOnly s st t st' ∧
        CompletedAt hg (hingeOfBraid t bid h) m st.know) ∧
      ((st.sync = none ∨ st.resuming = true ∧ st.sync ≠ some h.val) →
        (¬ LastAt hg m → GivesSt (.hsync h) s s.cur fun t st' => st'.run = .blocked (.hinge h) ∧ st'.pc = st.pc ∧
          st'.sync = some h.val ∧ ArrivedAt hg (hingeOfBraid t bid h) m st.know) ∧
        (LastAt hg m → GivesSt (.hsync h) s s.cur fun t st' => HingeOnly s st t st' ∧ st'.sync = none ∧
          CompletedAt hg (hingeOfBraid t bid h) m st.know ∧ ∀ k ∈ hg.pubs, k ∈ st'.know))) ∧
    (At hg m .passed → st.sync = some h.val → GivesSt (.hsync h) s s.cur fun t st' => HingeOnly s st t st' ∧
      st'.sync = none ∧ t.braids = s.braids ∧ ∀ k ∈ hg.done, k ∈ st'.know)

/-- HWAIT goes on where the strand's arrival has passed, with the publications of that phase; it waits at a pending arrival and
faults with HINGE, reason 2, at none; that the low bits of trap_info are then 0 is the model's choice (log 73). HTEST shows whether
the arrival has passed, the phase and the number of members that lack (R211, R279). -/
def Sys2Proof.Claims.HingesWait : Prop :=
  ∀ (s : State) (st : Strand) h bid m hg, Issues s st → Alive st → PlainNext st → st.inTrap = false → Member s st h bid m hg →
    (At hg m .passed → GivesSt (.hwait h) s s.cur fun t st' => HingeOnly s st t st' ∧ t.braids = s.braids ∧
      ∀ k ∈ hg.done, k ∈ st'.know) ∧
    (∀ ph, At hg m (.pending ph) → GivesSt (.hwait h) s s.cur fun t st' => st'.run = .blocked (.hinge h) ∧ st'.pc = st.pc ∧
      t.braids = s.braids) ∧
    (At hg m .idle → (kernelOf s st).lrec.trap ≠ 0xFFFFFFFF →
      GivesSt (.hwait h) s s.cur (Entered s s.cur st ⟨0x0D, 0xFF, st.pc, 0x200, st.flow.mask, 0⟩)) ∧
    ∀ d, isBead d = false → isPort d = false → dstOk st d = true → (fillOf st 255 d).isFull = true →
      GivesSt (.htest d h) s s.cur fun t st' => st'.pc = st.pc + 4 ∧ t.mem = s.mem ∧ t.braids = s.braids ∧ t.flight = s.flight ∧
        st'.rest = st.rest ∧ (∀ k, regKey st 255 d ≠ some k → getKey st' k = getKey st k) ∧
        (d ≠ .zr → readReg st' 255 d = BitVec.ofNat 32
          ((((List.range 32).countP fun x => hg.members.testBit x && !hg.arrived.testBit x) * 2 ^ 16) +
            (if hg.phase then 2 else 0) + if lookD hg.st m .idle = .passed then 1 else 0))

/-- HINGE_DEADLOCK: wherever strands of a braid and its mate are blocked at hinges that lack no member but strands of that set,
each of them enters its handler with HINGE, reason 1, and its hinge (R281). -/
def Sys2Proof.Claims.DeadlocksTrap : Prop :=
  ∀ (s : State) bid d, s.arg = .one bid → risingFrom 0 s.strands = true →
    (∀ e ∈ d, e ∈ s.strands ∧ (e.2.braid = bid ∨ some e.2.braid = (lookD s.braids bid {}).mate) ∧
      ∃ h, hingeBlocked s e.2 = some h ∧ lacksOnly s d e.2 h = true) →
    ∀ e ∈ d, ∀ h, hingeBlocked s e.2 = some h → (kernelOf s e.2).lrec.trap ≠ 0xFFFFFFFF →
      GivesSt .hingeDeadlock s e.1 fun _ st' => st'.inTrap = true ∧ st'.pc = (kernelOf s e.2).lrec.trap ∧ st'.run = .ready ∧
        st'.trap = ⟨0x0D, 0xFF, e.2.pc, BitVec.ofNat 32 (0x100 + h), e.2.flow.mask, 0⟩

/-- SIGWR replaces a signal's value at its home, and the write publishes what the strand knows at the scope named; every other
byte stays. SIGRD reads the value and SIGWT goes on where its condition holds, and both acquire what the newest write
published; where the condition fails SIGWT waits (R211, R284, R285). That a signal read returns the newest write is the model's
choice (log 124); in a deterministic kernel it reads the view of R200. -/
def Sys2Proof.Claims.SignalsAct : Prop :=
  ∀ (s : State) (st : Strand) pa key, Issues s st → Alive st → PlainNext st →
    let v := BitVec.ofNat 64 (ofLE (s.mem.read pa 8))
    let Goes := fun (t : State) (st' : Strand) => st'.pc = st.pc + 4 ∧ st'.run = .ready ∧ st'.flow = st.flow ∧
      t.strands = put s.strands s.cur st' ∧ { t.flight with nextId := s.flight.nextId } = s.flight ∧ t.braids = s.braids ∧ t.queues = s.queues
    (∀ op scope a b, SignalAt s st a .both pa key → uniPairOk st b = true → (∀ r ∈ pairOf b, (fillOf st 255 r).isFull = true) →
      NoSaves s → (scope = .system → ∀ c ∈ s.eng.links, c.unsent = true → deviceUp s c.dest = false) →
      GivesSt (.sigwr op scope a b) s s.cur fun t st' => Goes t st' ∧ (∀ k, getKey st' k = getKey st k) ∧
        Stored s t pa (toLE 8 (signalNew op v (readPair st 255 b)).toNat) ∧
        ∃ w, t.mem.log = w :: s.mem.log ∧ w.pa = pa ∧ (w.id, Path.b) ∈ st'.know ∧
          ∃ p ∈ w.pubs, p.scope = scope ∧ p.by_ = partyOf s s.cur st ∧ ∀ k ∈ st.know, k ∈ p.pairs) ∧
    (∀ d scope a, SignalAt s st a .read pa key → uniPairOk st d = true → (∀ r ∈ pairOf d, (fillOf st 255 r).isFull = true) →
      GivesSt (.sigrd d a scope) s s.cur fun t st' => Goes t st' ∧ SameBytes s t ∧ t.mem.log = s.mem.log ∧
        (d ≠ .zr → readPair st' 255 d = signalSeen s st (readPair st 255 a).toNat pa) ∧
        (∀ k, (∀ r ∈ pairOf d, regKey st 255 r ≠ some k) → getKey st' k = getKey st k) ∧
        (isStaged s st (readPair st 255 a).toNat 32 = false → Handed s (partyOf s s.cur st) scope pa st'.know)) ∧
    ∀ cond scope a b, SignalAt s st a .read pa key → uniPairOk st b = true → (∀ r ∈ pairOf b, (fillOf st 255 r).isFull = true) →
      let seen := signalSeen s st (readPair st 255 a).toNat pa
      (signalMeets cond seen (readPair st 255 b) = true → GivesSt (.sigwt cond scope a b) s s.cur fun t st' => Goes t st' ∧
        SameBytes s t ∧ t.mem.log = s.mem.log ∧ (∀ k, getKey st' k = getKey st k) ∧
        (isStaged s st (readPair st 255 a).toNat 32 = false → Handed s (partyOf s s.cur st) scope pa st'.know)) ∧
      (signalMeets cond seen (readPair st 255 b) = false → GivesSt (.sigwt cond scope a b) s s.cur fun t st' =>
        st'.run = .blocked (.signal (readPair st 255 a).toNat pa key cond (readPair st 255 b) s.mem.log.length) ∧ st'.pc = st.pc ∧ SameBytes s t)

/-- SLEEPT_WAKE, SLEEPW_RECHECK and SIGWT_RECHECK make a waiter ready: when its time has come; when, after a write to its line, the
word differs; when, after a write to the object, its condition holds. Otherwise it goes on waiting; no byte and no other strand
changes (R93, R285). In a deterministic kernel the word, and the value, are those of the view of R200 (R220); else a signal's is the
newest, the model's choice (log 124). -/
def Sys2Proof.Claims.WaitersWake : Prop :=
  ∀ (s : State) sid (st : Strand), s.arg = .one sid → look s.strands sid = some st →
    let To := fun (ev : Instr) (r : Run) => Gives ev s fun t => t.strands = put s.strands sid { st with run := r } ∧
      SameBytes s t ∧ t.mem.log = s.mem.log ∧ t.flight = s.flight ∧ t.braids = s.braids ∧ t.queues = s.queues ∧ t.eng = s.eng
    (∀ t, st.run = .blocked (.time t) → t ≤ nowNs s → To .sleeptWake .ready) ∧
    (∀ va pa key b seen, st.run = .blocked (.word va pa key b seen) → heldBySlot s pa 4 = false →
      (isStaged s st va 4 = false → AtRest s pa 4 key → seen ≤ s.mem.log.length →
        (∃ w ∈ s.mem.log.take (s.mem.log.length - seen), w.pa / 128 ≤ pa / 128 ∧ pa / 128 ≤ (w.pa + w.new.length - 1) / 128 ∧
          w.new ≠ []) →
        (BitVec.ofNat 32 (ofLE (s.mem.read pa 4)) ≠ b → To .sleepwRecheck .ready) ∧
        (BitVec.ofNat 32 (ofLE (s.mem.read pa 4)) = b → To .sleepwRecheck (.blocked (.word va pa key b s.mem.log.length)))) ∧
      (isStaged s st va 4 = true →
        BitVec.ofNat 32 (ofLE (readStaged s st s.mem.nextWrite pa 4).bytes) ≠ b → To .sleepwRecheck .ready)) ∧
    ∀ va pa key c b seen, st.run = .blocked (.signal va pa key c b seen) → heldBySlot s pa 32 = false → AtRest s pa 32 key →
      seen ≤ s.mem.log.length →
      (∃ w ∈ s.mem.log.take (s.mem.log.length - seen), w.pa < pa + 32 ∧ pa < w.pa + w.new.length) →
      (signalMeets c (signalSeen s st va pa) b = true → To .sigwtRecheck .ready) ∧
      (signalMeets c (signalSeen s st va pa) b = false →
        To .sigwtRecheck (.blocked (.signal va pa key c b s.mem.log.length)))

/-- HeldCausesEnter and DeadlocksTrap together. -/
def Obligations.CausesEnter : Prop := Sys2Proof.Claims.HeldCausesEnter ∧ Sys2Proof.Claims.DeadlocksTrap

/-- HingesArrive and HingesWait together. -/
def Obligations.HingesTurn : Prop := Sys2Proof.Claims.HingesArrive ∧ Sys2Proof.Claims.HingesWait

/-- SignalsAct and WaitersWake together. -/
def Obligations.SignalsReach : Prop := Sys2Proof.Claims.SignalsAct ∧ Sys2Proof.Claims.WaitersWake

namespace Sys2Proof.Claims
open Sys2Proof Sys2Proof.Machine

/-! ### Queues (R287 to R303) -/

/-- A register-only completion: the strand changes as P says, and nothing else does. -/
def Only (i : Instr) (s : State) (st : Strand) (P : Strand → Prop) : Prop :=
  ∃ st', exec i s = .next (s.withStrand st') ∧ st'.pc = st.pc + 4 ∧ st'.run = .ready ∧ (∀ k, getKey st' k = getKey st k) ∧
    st'.flow = st.flow ∧ P st'

/-- A uniform register that exists and is full. -/
def UniFull (st : Strand) (r : Reg) : Prop := uniSrcOk st r = true ∧ (fillOf st 255 r).isFull = true

/-- The queue of a port; the strand has no reservation under way there and no access that overlaps another's (R199, R300). -/
def PortAt (s : State) (st : Strand) (p : Fin 4) (n : Nat) (q : HwQueue) : Prop :=
  look st.ports p.val = some n ∧ look s.queues n = some q ∧ (∀ x ∈ s.flight.spawns, x.sid = s.cur → x.qid ≠ n) ∧
    ownOps s s.cur = []

/-- A queue of legal size whose ring is at rest, held by no slot and no save, and has room for k more elements beside what it holds, none of them spilled
(R287, R290). -/
def RingRoom (s : State) (q : HwQueue) (k : Nat) : Prop :=
  q.st = .open_ ∧ q.stopped = false ∧ q.spilled = 0 ∧ q.lslots ≤ 16 ∧ q.head < 2 ^ 32 ∧ q.tail < 2 ^ 32 ∧ 0 < q.esize ∧
    q.esize % 4 = 0 ∧ q.count + k ≤ 2 ^ q.lslots ∧ AtRest s q.ringPa (2 ^ q.lslots * q.esize) 0 ∧ NoSaves s ∧
    ∀ m < 2 ^ q.lslots, heldBySlot s (q.ringPa + m * q.esize) q.esize = false

/-- The strands once an append to queue n has woken those that sleep on it (R93, R305). -/
def Woken (n : Nat) (m : SMap Strand) : SMap Strand :=
  m.map fun e => if e.2.run = .blocked (.queue n) then (e.1, { e.2 with run := .ready, woken := true }) else e

/-- The address of the slot of the m-th element after the tail. -/
def slotAfter (q : HwQueue) (m : Nat) : Nat := q.ringPa + (q.tail + m) % 2 ^ q.lslots * q.esize

/-- The elements stand in the slots from the tail on, and the tail has moved past them; all other bytes are as before. -/
def Pushed (s t : State) (n : Nat) (q : HwQueue) (elems : List (List Byte)) : Prop :=
  look t.queues n = some { q with tail := (q.tail + elems.length) % 2 ^ 32 } ∧ (∀ k, k ≠ n → look t.queues k = look s.queues k) ∧
    (∀ (m : Nat) e, elems[m]? = some e → t.mem.read (slotAfter q m) q.esize = e) ∧
    ∀ a, (∀ m < elems.length, a < slotAfter q m ∨ slotAfter q m + q.esize ≤ a) → t.mem.byteAt a = s.mem.byteAt a

/-- An element of a register's value: its bytes, then zeros (R292). -/
def elemOf (q : HwQueue) (v : Word) : List Byte := toLE q.esize v.toNat

/-- The element of registers in order (R292). -/
def elemOfRegs (st : Strand) (j : Nat) (rs : List Reg) : List Byte := rs.flatMap fun r => toLE 4 (readReg st j r).toNat

end Sys2Proof.Claims

/-- An integer or floating-point form whose destination is a q-port pushes one element for each bead, in issue order, which wakes the strands that sleep on
the queue, and changes no register (R37, R93, R96, R292, R293, R305). -/
def Sys2Proof.Claims.PortsPush : Prop :=
  ∀ i r s st p n q, (integerRow i = some r ∨ floatRow i = some r) → r.form.dsts = [.q p] → Issues s st → st.inTrap = false → Alive st →
    PlainNext st → r.legal st = true → r.form.Full st → r.form.Answered st → PortAt s st p n q →
    RingRoom s q (actsOn st r.form.uniform).length →
    GivesSt i s s.cur fun t st' => st'.pc = st.pc + 4 ∧ st'.run = .ready ∧ st'.rest = st.rest ∧
      (∀ k, getKey st' k = getKey st k) ∧ t.flight = s.flight ∧
      t.strands = put (if actsOn st r.form.uniform = [] then s.strands else Woken n s.strands) s.cur st' ∧
      Pushed s t n q ((actsOn st r.form.uniform).map fun j =>
        elemOf q (nth (r.form.val (valsOf st j 0 r.form.srcs)) 0))

/-- An integer or floating-point form with one q-port among its sources and none as destination sends, without an answer, a pop
request for its first bead, and waits (R293). One that also makes a further request waits until each pop of the bead has its
element, and one whose request faults has taken no element (R98, R294; that the requests of a bead are made together is the
model's choice, log 64). An answer takes the element at the head, or meets the closing token, whose code is 1 or, for an error
token, its code × 256 + 2, and drains the queue; the bead then has it (R293, R294). -/
def Sys2Proof.Claims.PortsPop : Prop :=
  (∀ i r s st p j rest n, (integerRow i = some r ∨ floatRow i = some r) → r.form.srcs.find? isPort = some (.q p) →
    (r.form.srcs ++ r.form.dsts).countP isPort = 1 →
    Issues s st → r.legal st = true → actsOn st false = j :: rest → st.popped = [] →
    (∀ x ∈ r.form.srcs ++ r.form.dsts, (fillOf st j x).isFull = true) → look st.ports p.val = some n →
    (∀ x ∈ s.flight.spawns, x.sid = s.cur → x.qid ≠ n) →
    GivesSt i s s.cur fun t st' => st'.run = .blocked .pop ∧ st'.pc = st.pc ∧
      (∀ k, getKey st' k = getKey st k) ∧ t.mem = s.mem ∧ t.queues = s.queues ∧
      ∃ x, t.flight.pops = s.flight.pops ++ [x] ∧ x.id = s.flight.nextId ∧ x.sid = s.cur ∧ x.qid = n ∧ x.bead = j) ∧
  (∀ i r s st j rest, (integerRow i = some r ∨ floatRow i = some r) → r.form.pops ≠ 0 →
    1 < (r.form.srcs ++ r.form.dsts).countP isPort →
    Issues s st → st.inTrap = false → r.legal st = true → actsOn st false = j :: rest → st.popped = [] →
    (∀ x ∈ r.form.srcs ++ r.form.dsts, (fillOf st j x).isFull = true) → (∀ x ∈ s.flight.spawns, x.sid ≠ s.cur) →
    let queueAt := fun (x : Reg) => match x with | .q p => some (portQueue st p) | _ => none
    let pops := r.form.srcs.filterMap queueAt
    let push := r.form.dsts.findSome? queueAt
    (planPorts s push [] pops = .wait → GivesSt i s s.cur fun t st' => st'.run = .blocked (.ports pops push) ∧ st'.pc = st.pc ∧
      (∀ k, getKey st' k = getKey st k) ∧ t.mem = s.mem ∧ t.queues = s.queues ∧ t.flight = s.flight) ∧
    ∀ f q, planPorts s push [] pops = .fault f q → Gives i s fun t => ∀ n, (queueOf t n).head = (queueOf s n).head) ∧
  ∀ (s : State) (op : PopOp) st q, s.arg = .one op.id → s.flight.pops.find? (fun x => x.id == op.id) = some op →
    look s.strands op.sid = some st → look s.queues op.qid = some q →
    firstInOrder s op.sid op.id q.ringPa (2 ^ q.lslots * q.esize) = true →
    (q.spilled < q.count → AtRest s (ringSlot q q.head) q.esize 0 →
      GivesSt .popArrival s op.sid fun t st' => SameBytes s t ∧ st'.pc = st.pc ∧ st'.run = st.run ∧
        st'.popped = st.popped ++ [(some (s.mem.read (ringSlot q q.head) q.esize), 0)] ∧ (∀ x ∈ t.flight.pops, x.id ≠ op.id) ∧
        look t.queues op.qid = some { q with head := (q.head + 1) % 2 ^ 32 } ∧ (∀ k, getKey st' k = getKey st k)) ∧
    (q.count = 0 → q.spilled = 0 → (q.st = .closed ∨ q.st = .drained) →
      GivesSt .popArrival s op.sid fun t st' => t.mem = s.mem ∧ st'.pc = st.pc ∧
        look t.queues op.qid = some { q with st := .drained } ∧
        (∀ k, q.token = some (k, none) → st'.popped = st.popped ++ [(none, 1)]) ∧
        ∀ k c, q.token = some (k, some c) → st'.popped = st.popped ++ [(none, BitVec.ofNat 32 (c * 256 + 2))])

/-- QBIND binds a port to a queue of the context, QUNBIND frees it, and QSTAT reads the status word and the count of the queue
(R291, R297, R298). -/
def Sys2Proof.Claims.QueuesBind : Prop :=
  ∀ (s : State) (st : Strand) p, Issues s st → Alive st → PlainNext st →
    (∀ a q, UniFull st a → isPort a = false → look s.queues (readReg st 255 a).toNat = some q →
      (readReg st 255 a).toNat < 4096 → q.st ≠ .free → q.ctx = st.ctx → Only (.qbind p a) s st fun st' =>
        look st'.ports p.val = some (readReg st 255 a).toNat ∧ (∀ x, x ≠ p.val → look st'.ports x = look st.ports x)) ∧
    (Only (.qunbind p) s st fun st' => look st'.ports p.val = none ∧ ∀ x, x ≠ p.val → look st'.ports x = look st.ports x) ∧
    ∀ d n q, PortAt s st p n q → uniPairOk st d = true → (∀ r ∈ pairOf d, (fillOf st 255 r).isFull = true) →
      let code : Nat := match q.st with | .free => 0 | .open_ => 1 | .closed => 2 | .drained => 3
      let flags := [(29, q.stopped), (28, q.lost), (27, q.quota), (26, q.err), (25, decide (0 < q.spilled))]
      let status := code * 2 ^ 30 + (flags.foldl (fun x f => x + if f.2 then 2 ^ f.1 else 0) 0) + q.ecode % 2 ^ 24
      (⟨[], pairOf d, true, fun _ => [BitVec.ofNat 32 status, BitVec.ofNat 32 ((q.tail + 2 ^ 32 - q.head) % 2 ^ 32)]⟩ : Form).CompletesBy
        (.qstat d p) s st

/-- QCLOSE and QCLOSEE close an open queue with a token at its tail, an error token with its code for QCLOSEE, which also sets the
error bit of a queue that is closed already; the strands that sleep on the queue wake (R93, R290, R300). -/
def Sys2Proof.Claims.QueuesClose : Prop :=
  ∀ (s : State) (st : Strand) p n q, Issues s st → Alive st → PlainNext st → PortAt s st p n q →
    let To := fun (i : Instr) (q' : HwQueue) => ∃ st',
      exec i s = .next { s with strands := put (Woken n s.strands) s.cur st', queues := put s.queues n q' } ∧
      st'.pc = st.pc + 4 ∧ st'.run = .ready ∧ (∀ k, getKey st' k = getKey st k) ∧ st'.rest = st.rest
    (q.st = .open_ → To (.qclose p) { q with st := .closed, token := some (q.tail, none) }) ∧
    (q.st ≠ .open_ → To (.qclose p) q) ∧
    ∀ a, UniFull st a → isPort a = false →
      (q.st = .open_ → To (.qclosee p a) { q with st := .closed, err := true, ecode := (readReg st 255 a).toNat % 2 ^ 24
                                                  token := some (q.tail, some ((readReg st 255 a).toNat % 2 ^ 24)) }) ∧
      (q.st ≠ .open_ → To (.qclosee p a) { q with err := true })

/-- QPOPS writes an answered element to its run of registers, word by word, and 0 to b, or at a token zeros and the token's code;
QPUSHU pushes the words of a run of uniform registers as one element (R299, R301). -/
def Sys2Proof.Claims.QueueWords : Prop :=
  ∀ (s : State) (st : Strand) p n q, Issues s st → Alive st → PlainNext st → PortAt s st p n q →
    (∀ d b j bs code ds, st.popped = [(bs, code)] → actsOn st false = [j] → runOf d (q.esize / 4) = some ds →
      beadRunOk st d (q.esize / 4) = true → beadRunOk st b 1 = true → b ∉ ds →
      (∀ r ∈ ds ++ [b], (fillOf st j r).isFull = true) →
      let vals := match bs with
        | some bs => (List.range (q.esize / 4)).map (fun k => BitVec.ofNat 32 (ofLE ((bs.drop (4 * k)).take 4))) ++ [0]
        | none => List.replicate (q.esize / 4) 0 ++ [code]
      (⟨[], ds ++ [b], false, fun _ => vals⟩ : Form).CompletesBy (.qpops d p b) s st) ∧
    ∀ a rs, runOf a (q.esize / 4) = some rs → uniRunOk st a (q.esize / 4) = true →
      (∀ r ∈ rs, (fillOf st 255 r).isFull = true) → st.inTrap = false → RingRoom s q 1 →
      GivesSt (.qpushu p a) s s.cur fun t st' => st'.pc = st.pc + 4 ∧ st'.run = .ready ∧ st'.rest = st.rest ∧
        (∀ k, getKey st' k = getKey st k) ∧ t.strands = put (Woken n s.strands) s.cur st' ∧ t.flight = s.flight ∧
        Pushed s t n q [elemOfRegs st 255 rs]

/-- SPAWN sends one element of each bead on which it acts, in order, to its queue's home, and leaves the destinations empty; its
strand knows the writes from then on (R208). That it is one request, made once all its registers are full, is the model's choice
(log 119). The reservation
there pushes as many as have room, answers those with the numbers they took and the others with 0xFFFFFFFF. At a queue that is
not open none is pushed (R302). -/
def Obligations.SpawnsReserve : Prop :=
  (∀ (s : State) (st : Strand) d a p n q rs, Issues s st → Alive st → PlainNext st → st.inTrap = false → look st.ports p.val = some n →
    look s.queues n = some q →
    beadRunOk st d 1 = true → beadRunOk st a (q.esize / 4) = true → runOf a (q.esize / 4) = some rs →
    (let acts := actsOn st false
     acts ≠ [] → (∀ j ∈ acts, ∀ r ∈ rs ++ [d], (fillOf st j r).isFull = true) →
     GivesSt (.spawn d a p) s s.cur fun t st' => st'.pc = st.pc + 4 ∧ st'.run = .ready ∧ st'.rest = st.rest ∧ SameBytes s t ∧
       t.mem.log = s.mem.log ∧ t.queues = s.queues ∧ t.strands = put s.strands s.cur st' ∧
       (∀ key, (∀ j ∈ acts, regKey st j d ≠ some key) → getKey st' key = getKey st key) ∧
       (∀ j ∈ acts, readReg st' j d = readReg st j d ∧ fillOf st' j d = .due) ∧
       ∃ x, t.flight.spawns = s.flight.spawns ++ [x] ∧ x.sid = s.cur ∧ x.qid = n ∧
         x.elems = acts.map (fun j => elemOfRegs st j rs) ∧ x.dst = acts.filterMap (regKey st · d) ∧
         x.ids.length = acts.length ∧ ∀ w ∈ x.ids, (w, Path.b) ∈ st'.know)) ∧
  ∀ (s : State) (op : SpawnOp) st q, s.arg = .one op.id → s.flight.spawns.find? (fun x => x.id == op.id) = some op →
    look s.strands op.sid = some st → look s.queues op.qid = some q → op.dst.Nodup → RKey.lc ∉ op.dst →
    op.dst.length = op.elems.length → op.ids.length = op.elems.length → (∀ e ∈ op.elems, e.length = q.esize) → spawnHeld s op = false →
    st.run ≠ .blocked (.queue op.qid) →
    (RingRoom s q op.elems.length → GivesSt .spawnReservation s op.sid fun t st' => Pushed s t op.qid q op.elems ∧
      (∀ x ∈ t.flight.spawns, x.id ≠ op.id) ∧ st'.pc = st.pc ∧ st'.run = st.run ∧
      (∀ k, k ∉ op.dst → getKey st' k = getKey st k) ∧
      ∀ (m : Nat) k, op.dst[m]? = some k → getKey st' k = { val := BitVec.ofNat 32 (q.tail + m) }) ∧
    (q.st ≠ .open_ ∨ q.stopped = true → GivesSt .spawnReservation s op.sid fun t st' => t.mem = s.mem ∧
      t.queues = s.queues ∧ (∀ x ∈ t.flight.spawns, x.id ≠ op.id) ∧ st'.pc = st.pc ∧
      (∀ k, k ∉ op.dst → getKey st' k = getKey st k) ∧ ∀ k ∈ op.dst, getKey st' k = { val := 0xFFFFFFFF })

/-- SPILL_MOVE copies the element at the spill head to its ring slot, whose number is the first of the spilled ones, and makes
the next one the head; no other byte changes. One that cannot be read closes the queue with an error token of code 0x13 in its
place (R295); that the elements behind it are lost is the model's choice (log 19). -/
def Sys2Proof.Claims.SpillsMove : Prop :=
  ∀ (s : State) n q, s.arg = .one n → look s.queues n = some q → 0 < q.spilled → q.count - q.spilled < 2 ^ q.lslots →
    unitFits s (spillLines q) = true → poolFirst s none q.ringPa = false → q.tail < 2 ^ 32 → q.spilled ≤ q.count →
    let seq := (q.tail + 2 ^ 32 - q.spilled) % 2 ^ 32
    let src := spillPieces q q.spillHead
    ((∀ x ∈ src, AtRest s x.1 x.2.2 x.2.1 ∧
        (isLpddr x.1 = true → ∀ l ∈ linesOf x.1 x.2.2, look s.mem.lineKey l = some (keyPair s x.2.1))) →
      isLpddr (ringSlot q seq) = false → (src.map (·.2.2)).sum = q.esize → 0 < q.esize → AtRest s (ringSlot q seq) q.esize 0 →
      Gives .spillMove s fun t => Stored s t (ringSlot q seq) (src.flatMap fun x => s.mem.read x.1 x.2.2) ∧
        t.strands = s.strands ∧ t.flight = s.flight ∧
        look t.queues n = some { q with spilled := q.spilled - 1, spillHead := (q.spillHead + 1) % max 1 q.spillMax }) ∧
    ((∃ x ∈ src, eccHit s x.1 x.2.2 = true) → q.st ≠ .drained → RingTakes s → Gives .spillMove s fun t => t.strands = s.strands ∧
      look t.queues n = some { q with
        tail := seq, spilled := 0, err := true, ecode := 0x13, token := some (seq, some 0x13), st := .closed } ∧
      t.cmd.evr.tail = (s.cmd.evr.tail + 1) % 2 ^ 32)

/-- PortsPush and PortsPop together. -/
def Obligations.PortsMove : Prop := Sys2Proof.Claims.PortsPush ∧ Sys2Proof.Claims.PortsPop

/-- QueuesBind and QueuesClose together. -/
def Obligations.QueuesOpenAndClose : Prop := Sys2Proof.Claims.QueuesBind ∧ Sys2Proof.Claims.QueuesClose

/-- QueueWords and SpillsMove together. -/
def Obligations.ElementsMove : Prop := Sys2Proof.Claims.QueueWords ∧ Sys2Proof.Claims.SpillsMove

namespace Sys2Proof.Claims
open Sys2Proof Sys2Proof.Machine

/-! ### Futures and copies (R227 to R245) -/

/-- A future record. -/
def recordOf (s : State) (c r : Nat) : Future := lookD (lookD s.ctxs c {}).futures r {}

/-- The record that the next allocation of a context takes: the free one of lowest index, else the one that ended first (R228). -/
def NextRecord (s : State) (c r : Nat) : Prop :=
  c < 64 ∧ r < 1024 ∧ (look s.ctxs c).isSome ∧ (recordOf s c r).gen < 2 ^ 16 ∧
    (((recordOf s c r).st = .free ∧ ∀ x < r, (recordOf s c x).st ≠ .free) ∨
      ((∀ x < 1024, (recordOf s c x).st ≠ .free) ∧ (recordOf s c r).st.final = true ∧
        ∀ x < 1024, (recordOf s c x).st.final = true →
          (recordOf s c r).order < (recordOf s c x).order ∨ ((recordOf s c r).order = (recordOf s c x).order ∧ r ≤ x)))

/-- The generation after an allocation (R228). -/
def nextGen (f : Future) : Nat := if f.gen = 65535 then 1 else f.gen + 1

/-- The handle of the next allocation (R227, R228). -/
def nextHandle (s : State) (c r : Nat) : Word :=
  BitVec.ofNat 32 (c * 2 ^ 26 + r * 2 ^ 16 + nextGen (recordOf s c r))

/-- The record is taken by a command of a kernel: it is pending with its next generation, no other record changes, and what an
earlier generation published stays to be found (R228, R244). -/
def Taken (s t : State) (c r kernel : Nat) : Prop :=
  (recordOf t c r).st = .pending ∧ (recordOf t c r).gen = nextGen (recordOf s c r) ∧ (recordOf t c r).kernel = kernel ∧
    (recordOf t c r).err = 0 ∧ (recordOf t c r).cancel = false ∧
    ((recordOf s c r).gen ≠ 0 → ((recordOf s c r).gen, (recordOf s c r).pub) ∈ (recordOf t c r).past) ∧
    ∀ c' r', (c', r') ≠ (c, r) → recordOf t c' r' = recordOf s c' r'

/-- The destination of an engine form holds a handle, empty while its future is pending; no other register changes (R230). -/
def Holds (st st' : Strand) (j : Nat) (d : Reg) (h : Word) (f : Fill) : Prop :=
  (∀ k, regKey st j d = some k → k ≠ .lc → getKey st' k = { val := h, fill := f }) ∧
    ∀ k, regKey st j d ≠ some k → getKey st' k = getKey st k

/-- A copy form: its selector, what it reads, what check 4 and R235 ask, and the command it makes of the words read (R234). -/
structure CopyRow where
  form : Nat
  d : Reg
  srcs : List Reg
  legal : Strand → Bool
  dst : List Word → Nat
  src : List Word → Nat
  bytes : List Word → Nat
  rows : List Word → Nat := fun _ => 1
  pitch : List Word → Nat := fun _ => 0
  layout : List Word → Nat := fun _ => 0
  list : List Word → Nat := fun _ => 0

/-- A 64-bit operand of two words. -/
def pair64 (v : List Word) (k : Nat) : Nat := (nth v k).toNat + 2 ^ 32 * (nth v (k + 1)).toNat

/-- The copy forms (R234). -/
def copyRow : Instr → Option CopyRow
  | .cpy1 d a b => some ⟨0, d, quadOf a ++ [b], fun st => uniQuadOk st a && uniSrcOk st b,
      fun v => pair64 v 0, fun v => pair64 v 2, fun v => (nth v 4).toNat, fun _ => 1, fun _ => 0, fun _ => 0, fun _ => 0⟩
  | .cpy2 d a b => some ⟨1, d, quadOf a ++ quadOf b, fun st => uniQuadOk st a && uniQuadOk st b,
      fun v => pair64 v 0, fun v => pair64 v 2, fun v => (nth v 4).toNat, fun v => (nth v 5).toNat,
      fun v => (nth v 6).toNat, fun v => (nth v 7).toNat, fun _ => 0⟩
  | .fill d a b => some ⟨2, d, pairOf a ++ pairOf b, fun st => uniPairOk st a && uniPairOk st b,
      fun v => pair64 v 0, fun v => (nth v 3).toNat, fun v => (nth v 2).toNat, fun _ => 1, fun _ => 0, fun _ => 0, fun _ => 0⟩
  | .gath d a b => some ⟨3, d, quadOf a ++ quadOf b, fun st => uniQuadOk st a && uniQuadOk st b,
      fun v => pair64 v 0, fun v => pair64 v 2, fun v => (nth v 4).toNat, fun v => (nth v 5).toNat, fun _ => 0, fun _ => 0,
      fun v => pair64 v 6⟩
  | .scat d a b => some ⟨4, d, quadOf a ++ quadOf b, fun st => uniQuadOk st a && uniQuadOk st b,
      fun v => pair64 v 0, fun v => pair64 v 2, fun v => (nth v 4).toNat, fun v => (nth v 5).toNat, fun _ => 0, fun _ => 0,
      fun v => pair64 v 6⟩
  | _ => none

/-- The operand values that R235 admits. -/
def CopyRow.Admits (r : CopyRow) (v : List Word) : Prop :=
  (r.form = 1 → r.bytes v < 2 ^ 24 ∧ r.rows v < 2 ^ 16 ∧ r.layout v / 16 % 4096 = 0 ∧
    (1 < r.rows v → r.bytes v ≤ 16 * (r.layout v / 65536)) ∧
    ((r.layout v).testBit 3 = true → r.dst v % (16 * 2 ^ (r.layout v % 8)) = 0 ∧
      r.bytes v % (16 * 2 ^ (r.layout v % 8)) = 0)) ∧
  (r.form = 3 ∨ r.form = 4 → (∃ k ≤ 12, r.bytes v = 2 ^ k) ∧ r.rows v < 2 ^ 24 ∧ r.list v % 4 = 0 ∧
    r.dst v % r.bytes v = 0 ∧ r.src v % r.bytes v = 0)

/-- a divided by b, rounded up. -/
def divUp (a b : Nat) : Nat := (a + b - 1) / b

/-- The number of units of a command (R238). -/
def CopyRow.units (r : CopyRow) (v : List Word) : Nat :=
  if r.form = 0 ∨ r.form = 2 then divUp (r.bytes v) 4096
  else if r.form = 1 then
    if r.bytes v = 0 then 0
    else if r.bytes v ≤ 4096 then divUp (r.rows v) (4096 / r.bytes v) else r.rows v * divUp (r.bytes v) 4096
  else divUp (r.rows v) (4096 / r.bytes v)

/-- The bytes at several ranges, one after the other. -/
def bytesAt (s : State) (rs : List (Nat × Nat)) : List Byte := rs.flatMap fun r => s.mem.read r.1 r.2

/-- The accesses of an engine to the pages of a range translate to the ranges listed, at rest, under one key. -/
def Reaches (s : State) (a : Accessor) (va n key : Nat) (parts : List (Nat × Nat)) : Prop :=
  parts.length = (runs va n).length ∧ ∀ (k : Nat) r p, (runs va n)[k]? = some r → parts[k]? = some p → p.2 = r.2 ∧
    (∃ pin, translation s a r.1 r.2 = (.ok p.1 key pin, s)) ∧
    AtRest s p.1 p.2 key

/-- How a copy engine makes its accesses (R176, R233). -/
def byCopy (x : CopyCmd) (need : Need) : Accessor :=
  { ctx := x.ctx, quad := x.core / 4, path := some .c, need := need, given := x.given, who := engineWho x.handle, sid := some x.sid }

/-- Ranges that do not overlap. -/
def Apart (l : List (Nat × Nat)) : Prop := l.Pairwise fun p q => p.1 + p.2 ≤ q.1 ∨ q.1 + q.2 ≤ p.1

/-- The newest bytes of a range are known on a path, and no write that is known there is still to perform (R209). -/
def Settled (s : State) (know : List Known) (q : Path) (pa n : Nat) : Prop :=
  (∀ b, pa ≤ b → b < pa + n → ∀ w, newestWrite s b = some w → (w, q) ∈ know) ∧ awaitsWrite s none know q pa n = false

/-- The command behind a record: a copy command that has its handle, with no link command or MPIN of that handle. -/
def CommandOf (s : State) (c r : Nat) (x : CopyCmd) : Prop :=
  (recordOf s c r).st = .pending ∧ (recordOf s c r).join = none ∧ (look s.ctxs c).isSome ∧ c < 64 ∧ r < 1024 ∧
    (recordOf s c r).gen < 2 ^ 16 ∧
    x.handle = BitVec.ofNat 32 (c * 2 ^ 26 + r * 2 ^ 16 + (recordOf s c r).gen) ∧
    s.eng.copies.find? (fun y => y.handle == x.handle) = some x ∧ (∀ y ∈ s.eng.links, y.handle ≠ x.handle) ∧
    (∀ y ∈ s.eng.pins, y.handle ≠ x.handle) ∧ ∀ e ∈ s.eng.mq, ∀ y ∈ e.2, y.handle ≠ x.handle

/-- A record has ended: its state, its error code and its publication; the registers of the context that waited for the handle
are full with their values, and all others are as before (R211, R229, R230). -/
def RecordEnds (s t : State) (c r : Nat) (h : Word) (st : FutSt) (err : Nat) (writes : List Known) : Prop :=
  (recordOf t c r).st = st ∧ (recordOf t c r).err = err ∧ (recordOf t c r).gen = (recordOf s c r).gen ∧
    (∀ k ∈ writes ++ (recordOf s c r).know, k ∈ (recordOf t c r).pub) ∧
    (∀ c' r', (c', r') ≠ (c, r) → recordOf t c' r' = recordOf s c' r') ∧
    ∀ sid x, look s.strands sid = some x → ∃ x', look t.strands sid = some x' ∧ x'.pc = x.pc ∧ x'.run = x.run ∧
      ∀ k, k ≠ .lc → (getKey x' k).val = (getKey x k).val ∧
        (getKey x' k).fill = (if (getKey x k).val = h ∧ (getKey x k).fill = .future ∧ x.ctx = c then .futured
          else (getKey x k).fill)

/-- A record has ended, and its command is gone; no byte changes. -/
def Ended (s t : State) (c r : Nat) (h : Word) (st : FutSt) (err : Nat) (writes : List Known) : Prop :=
  RecordEnds s t c r h st err writes ∧ (∀ y ∈ t.eng.copies, y.handle ≠ h) ∧ t.mem = s.mem

/-- The word that FTEST gives for a handle (R242). -/
def futureShows (s : State) (h : Word) : Word :=
  let f := recordOf s (h.toNat / 2 ^ 26) (h.toNat / 2 ^ 16 % 1024)
  if h.toNat % 2 ^ 16 = 0 then 5
  else if f.gen ≠ h.toNat % 2 ^ 16 then 4
  else match f.st with
    | .free => 0 | .pending => 0 | .done => 1
    | .failed => BitVec.ofNat 32 (2 + 256 * (f.err % 256)) | .cancelled => 3

/-- A handle whose command is under way. -/
def UnderWay (s : State) (h : Word) : Prop :=
  h.toNat % 2 ^ 16 ≠ 0 ∧ (recordOf s (h.toNat / 2 ^ 26) (h.toNat / 2 ^ 16 % 1024)).gen = h.toNat % 2 ^ 16 ∧
    (recordOf s (h.toNat / 2 ^ 26) (h.toNat / 2 ^ 16 % 1024)).st = .pending

/-- A handle register may be read: it awaits nothing but a future, and its handle is null or of the context (R231). -/
def HandleIn (st : Strand) (j : Nat) (r : Reg) : Prop :=
  fillOf st j r ≠ .due ∧ ((readReg st j r).toNat % 2 ^ 16 = 0 ∨ (readReg st j r).toNat / 2 ^ 26 = st.ctx)

end Sys2Proof.Claims

/-- CPY1, CPY2, FILL, GATH and SCAT take a record and hand the quad's engine their command, whole as R234 reads it, with every unit
still to do; the destination holds the handle and waits for the future. A command that moves nothing ends at once (R228, R230,
R233 to R238). -/
def Sys2Proof.Claims.CopiesIssue : Prop :=
  ∀ (i : Instr) (r : CopyRow) (s : State) (st : Strand) (n : Nat), copyRow i = some r → Issues s st → Alive st → PlainNext st → st.inTrap = false → r.legal st = true →
    uniDstOk st r.d = true → (∀ x ∈ r.srcs ++ [r.d], (fillOf st 255 x).isFull = true) → (∀ x ∈ r.srcs, isPort x = false) →
    (let v := r.srcs.map (readReg st 255)
     r.Admits v → (s.eng.copies.countP fun x => x.core / 4 == st.core / 4) < 64 → NextRecord s st.ctx n →
     let h := nextHandle s st.ctx n
     let Goes := fun (t : State) (st' : Strand) => st'.pc = st.pc + 4 ∧ st'.run = .ready ∧ st'.rest = st.rest ∧ t.mem = s.mem ∧
       t.queues = s.queues ∧ t.flight.loads = s.flight.loads ∧ t.flight.stores = s.flight.stores
     (r.units v ≠ 0 → GivesSt i s s.cur fun t st' => Goes t st' ∧ Taken s t st.ctx n st.kernel ∧ Holds st st' 255 r.d h .future ∧
       ∃ x : CopyCmd, t.eng.copies = s.eng.copies ++ [x] ∧ x.form = r.form ∧ x.handle = h ∧ x.ctx = st.ctx ∧ x.core = st.core ∧
         x.dst = r.dst v ∧ x.src = r.src v ∧ x.rowBytes = r.bytes v ∧ x.rows = r.rows v ∧ x.spitch = r.pitch v ∧
         x.layout = r.layout v ∧ x.list = r.list v ∧ x.waiting = [(0, r.units v)] ∧ x.started = [] ∧ x.err = none ∧
         ∀ k ∈ st.know, k.2 = .c → k ∈ x.know) ∧
     (r.units v = 0 → GivesSt i s s.cur fun t st' => Goes t st' ∧ Holds st st' 255 r.d h .full ∧ t.eng.copies = s.eng.copies ∧
       (recordOf t st.ctx n).st = .done ∧ (recordOf t st.ctx n).gen = nextGen (recordOf s st.ctx n)))

/-- COPY_UNIT_START takes a unit that may start from those to do. COPY_UNIT_DONE performs a started unit whole: of CPY1, where the unit's
source is nothing that the command writes, it moves the bytes of its 4,096, of FILL it writes the pattern's byte (address mod 4) to each; no other byte changes, and the command
keeps the writes (R233, R236 to R238). -/
def Sys2Proof.Claims.CopyUnitsRun : Prop :=
  ∀ (s : State) (x : CopyCmd) u, s.arg = .two x.id u → s.eng.copies.find? (fun y => y.id == x.id) = some x →
    (unitMayStart s x u = true → Gives .copyUnitStart s fun t => t.mem = s.mem ∧ t.strands = s.strands ∧
      ∃ y, t.eng.copies.find? (fun y => y.id == x.id) = some y ∧ y.started = x.started ++ [u] ∧
        (∀ k, (∃ r ∈ y.waiting, r.1 ≤ k ∧ k < r.2) ↔ k ≠ u ∧ ∃ r ∈ x.waiting, r.1 ≤ k ∧ k < r.2)) ∧
    (u ∈ x.started → x.stall = none → x.err = none → afterReads s x.after = true → lpddrHeld s = false → NoSaves s → 4096 * u < x.rowBytes → x.rows = 1 → x.spitch = 0 →
      x.layout = 0 →
      let n := min 4096 (x.rowBytes - 4096 * u)
      ∀ key parts, Reaches s (byCopy x .write) (x.dst + 4096 * u) n key parts → Apart parts →
      let Done := fun (t : State) (bs : List Byte) => bytesAt t parts = bs ∧ t.strands = s.strands ∧
        (∀ a, (∀ p ∈ parts, a < p.1 ∨ p.1 + p.2 ≤ a) → t.mem.byteAt a = s.mem.byteAt a) ∧
        ∃ y, t.eng.copies.find? (fun y => y.id == x.id) = some y ∧ u ∉ y.started ∧ y.waiting = x.waiting ∧
          ∀ k ∈ x.writes, k ∈ y.writes
      (x.form = 0 → ∀ src, Reaches s (byCopy x .read) (x.src + 4096 * u) n key src →
        (∀ p ∈ src, Settled s x.know .c p.1 p.2) →
        (∀ k < n, ∀ m < x.rowBytes, (x.src + 4096 * u + k) % 2 ^ 64 ≠ (x.dst + m) % 2 ^ 64) →
        Gives .copyUnitDone s fun t => Done t (bytesAt s src)) ∧
      (x.form = 2 → Gives .copyUnitDone s fun t => Done t
        ((List.range n).map fun k => BitVec.ofNat 8 (x.src / 256 ^ ((x.dst + 4096 * u + k) % 4)))))

/-- FTEST gives the state of a handle's future, FCANCEL sends a cancel to a future under way, and FWAITH goes on once the future is
final, with what its end published, and waits while it is under way (R242 to R244). -/
def Sys2Proof.Claims.FuturesTest : Prop :=
  ∀ (s : State) (st : Strand) a, Issues s st → Alive st → PlainNext st → srcOk st a = true → isPort a = false →
    (∀ d, pairOk st d = true → classOk d [a] = true → (∀ j ∈ actsOn st (allUniform [d, a]), HandleIn st j a ∧
        ∀ r ∈ pairOf d, (fillOf st j r).isFull = true) →
      let f : Form := ⟨[a], pairOf d, allUniform [d, a], fun v => [futureShows s (nth v 0), nth v 0]⟩
      ∃ st', exec (.ftest d a) s = .next (s.withStrand st') ∧ st'.pc = st.pc + 4 ∧ st'.run = .ready ∧ f.Wrote st st' ∧
        f.Others st st' ∧ st'.rest = st.rest) ∧
    ((∀ j ∈ actsOn st (!isBead a), HandleIn st j a) →
      ((∀ j ∈ actsOn st (!isBead a), ∀ c r, c = (readReg st j a).toNat / 2 ^ 26 → r = (readReg st j a).toNat / 2 ^ 16 % 1024 →
          (recordOf s c r).join = none ∧ (look s.ctxs c).isSome) →
        GivesSt (.fcancel a) s s.cur fun t st' => st'.pc = st.pc + 4 ∧ st'.run = .ready ∧ (∀ k, getKey st' k = getKey st k) ∧
          t.mem = s.mem ∧ t.eng = s.eng ∧
          ∀ c r, recordOf t c r = recordOf s c r ∨ recordOf t c r = { recordOf s c r with cancel := true } ∧
            (∃ j ∈ actsOn st (!isBead a), UnderWay s (readReg st j a) ∧ c = (readReg st j a).toNat / 2 ^ 26 ∧
              r = (readReg st j a).toNat / 2 ^ 16 % 1024)) ∧
      ((∀ j ∈ actsOn st (!isBead a), ∀ c r, c = (readReg st j a).toNat / 2 ^ 26 → r = (readReg st j a).toNat / 2 ^ 16 % 1024 →
          (recordOf s c r).join = none ∧ (look s.ctxs c).isSome) → ∀ j ∈ actsOn st (!isBead a), UnderWay s (readReg st j a) →
        Gives (.fcancel a) s fun t =>
          (recordOf t ((readReg st j a).toNat / 2 ^ 26) ((readReg st j a).toNat / 2 ^ 16 % 1024)).cancel = true) ∧
      ((∀ j ∈ actsOn st (!isBead a), ¬ UnderWay s (readReg st j a)) → Only (.fwaith a) s st fun st' =>
        ∀ j ∈ actsOn st (!isBead a), (readReg st j a).toNat % 2 ^ 16 ≠ 0 →
          (recordOf s ((readReg st j a).toNat / 2 ^ 26) ((readReg st j a).toNat / 2 ^ 16 % 1024)).gen =
            (readReg st j a).toNat % 2 ^ 16 →
          ∀ k ∈ (recordOf s ((readReg st j a).toNat / 2 ^ 26) ((readReg st j a).toNat / 2 ^ 16 % 1024)).pub, k ∈ st'.know) ∧
      ∀ j rest, actsOn st (!isBead a) = j :: rest → UnderWay s (readReg st j a) →
        GivesSt (.fwaith a) s s.cur fun t st' => st'.run = .blocked (.future (readReg st j a)) ∧ st'.pc = st.pc ∧ t.mem = s.mem)

/-- FJOIN of one bead, or of the strand, with two handles takes a record that waits for both; with one handle, or two that are the
same, it leaves that handle (R245). -/
def Sys2Proof.Claims.FuturesJoin : Prop :=
  ∀ (s : State) (st : Strand) d a b j n, Issues s st → Alive st → PlainNext st → dstOk st d = true → srcOk st a = true → srcOk st b = true →
    isPort d = false → isPort a = false → isPort b = false → classOk d [a, b] = true → actsOn st (allUniform [d, a, b]) = [j] →
    HandleIn st j a → HandleIn st j b → (fillOf st j d).isFull = true →
    let x := readReg st j a
    let y := readReg st j b
    let Goes := fun (t : State) (st' : Strand) => st'.pc = st.pc + 4 ∧ st'.run = .ready ∧ t.mem = s.mem ∧ t.eng = s.eng
    (x ≠ y → x.toNat % 2 ^ 16 ≠ 0 → y.toNat % 2 ^ 16 ≠ 0 → NextRecord s st.ctx n →
      GivesSt (.fjoin d a b) s s.cur fun t st' => Goes t st' ∧ Taken s t st.ctx n 0 ∧ (recordOf t st.ctx n).join = some (x, y) ∧
        Holds st st' j d (nextHandle s st.ctx n) .future) ∧
    (x = y ∨ x.toNat % 2 ^ 16 = 0 ∨ y.toNat % 2 ^ 16 = 0 →
      let h := if x.toNat % 2 ^ 16 = 0 then y else x
      (UnderWay s h → GivesSt (.fjoin d a b) s s.cur fun t st' => Goes t st' ∧ t.ctxs = s.ctxs ∧ Holds st st' j d h .future) ∧
      (¬ UnderWay s h → GivesSt (.fjoin d a b) s s.cur fun t st' => Goes t st' ∧ t.ctxs = s.ctxs ∧ Holds st st' j d h .full))

/-- FUTURE_DONE ends the record of a command that has performed its last access, FUTURE_FAIL that of one that failed, with its
code, and CANCEL_REACH that of one that a cancel reaches before it is done; a join ends when both its futures have, with the
failure of either first (R229, R238, R243, R245). -/
def Sys2Proof.Claims.FuturesEnd : Prop :=
  (∀ (s : State) c r x, s.arg = .two c r → CommandOf s c r x →
    (x.err = none → x.waiting = [] → x.started = [] → Gives .futureDone s fun t => Ended s t c r x.handle .done 0 x.writes) ∧
    (∀ e, x.err = some e → Gives .futureFail s fun t => Ended s t c r x.handle .failed e x.writes) ∧
    (x.err = none → (x.waiting ≠ [] ∨ x.started ≠ []) → (recordOf s c r).cancel = true →
      Gives .cancelReach s fun t => Ended s t c r x.handle .cancelled 0 x.writes)) ∧
  ∀ (s : State) c r a b, s.arg = .two c r → (recordOf s c r).st = .pending → (recordOf s c r).join = some (a, b) →
    (look s.ctxs c).isSome → c < 64 → r < 1024 → (recordOf s c r).gen < 2 ^ 16 → a.toNat % 2 ^ 16 ≠ 0 → b.toNat % 2 ^ 16 ≠ 0 →
    let h := BitVec.ofNat 32 (c * 2 ^ 26 + r * 2 ^ 16 + (recordOf s c r).gen)
    (∀ y ∈ s.eng.links, y.handle ≠ h) → (∀ y ∈ s.eng.pins, y.handle ≠ h) →
    let fa := recordOf s (a.toNat / 2 ^ 26) (a.toNat / 2 ^ 16 % 1024)
    let fb := recordOf s (b.toNat / 2 ^ 26) (b.toNat / 2 ^ 16 % 1024)
    fa.gen = a.toNat % 2 ^ 16 → fb.gen = b.toNat % 2 ^ 16 →
    (fa.st = .done → fb.st = .done → Gives .futureDone s fun t => Ended s t c r h .done 0 (fa.pub ++ fb.pub)) ∧
    (fa.st = .failed → fb.st.final = true → Gives .futureFail s fun t => Ended s t c r h .failed fa.err (fa.pub ++ fb.pub)) ∧
    (fa.st = .cancelled → fb.st = .done → Gives .futureDone s fun t => Ended s t c r h .cancelled 0 (fa.pub ++ fb.pub))

/-- MovfHandles and FuturesTest together. -/
def Obligations.HandlesAnswer : Prop := Sys2Proof.Claims.MovfHandles ∧ Sys2Proof.Claims.FuturesTest

/-- FuturesJoin and FuturesEnd together. -/
def Obligations.FuturesFinish : Prop := Sys2Proof.Claims.FuturesJoin ∧ Sys2Proof.Claims.FuturesEnd

/-- CopiesIssue and CopyUnitsRun together. -/
def Obligations.CopiesRun : Prop := Sys2Proof.Claims.CopiesIssue ∧ Sys2Proof.Claims.CopyUnitsRun

namespace Sys2Proof.Claims
open Sys2Proof Sys2Proof.Machine

/-! ### Links (R414 to R420) -/

/-- A port (R415). -/
def portOf (s : State) (p : Nat) : Link := lookD s.fab.ports p {}

/-- Only one port differs, and the event of its move is posted where the ring has room (R415). -/
def OnePort (s t : State) (p : Nat) : Prop :=
  (∀ q, q ≠ p → portOf t q = portOf s q) ∧ t.strands = s.strands ∧ t.queues = s.queues ∧
    Posted s t

/-- A link form: its selector, its registers, what check 4 asks, and its values: remote address, local address or operand, length,
destination and the rest of its route word (R417). -/
structure LinkRow where
  form : Nat
  d : Reg
  srcs : List Reg
  legal : Strand → Bool
  len : List Word → Nat
  route : List Word → Nat

/-- The link forms (R417). -/
def linkRow : Instr → Option LinkRow
  | .lput d a b => some ⟨0, d, quadOf a ++ pairOf b, fun st => uniQuadOk st a && uniPairOk st b,
      fun v => (nth v 4).toNat, fun v => (nth v 5).toNat⟩
  | .lget d a b => some ⟨1, d, quadOf a ++ pairOf b, fun st => uniQuadOk st a && uniPairOk st b,
      fun v => (nth v 4).toNat, fun v => (nth v 5).toNat⟩
  | .lradd d a b => some ⟨2, d, quadOf a ++ pairOf b, fun st => uniQuadOk st a && uniPairOk st b,
      fun v => (nth v 4).toNat, fun v => (nth v 5).toNat⟩
  | .lsig d a b => some ⟨3, d, quadOf a ++ [b], fun st => uniQuadOk st a && uniSrcOk st b, fun _ => 0, fun v => (nth v 4).toNat⟩
  | _ => none

/-- The type field of a route word. -/
def LinkRow.ty (r : LinkRow) (v : List Word) : Nat := r.route v / 4096 % 4
/-- The destination of a route word. -/
def LinkRow.dest (r : LinkRow) (v : List Word) : Nat := r.route v % 1024
/-- The element size of LRADD. -/
def LinkRow.size (r : LinkRow) (v : List Word) : Nat := if r.ty v = 2 then 8 else 4
/-- The number of flits (R420). -/
def LinkRow.flits (r : LinkRow) (v : List Word) : Nat :=
  if r.form = 3 then 1 else if r.form = 2 then r.len v / r.size v else (r.len v + 63) / 64

/-- The operand values that R418 admits. -/
def LinkRow.Admits (r : LinkRow) (s : State) (v : List Word) : Prop :=
  r.route v / 1024 % 4 = 0 ∧ r.route v / 2 ^ 14 = 0 ∧ r.ty v ≠ 3 ∧ (r.form ≤ 1 → r.ty v = 0) ∧
    r.dest v ≠ (sregOf s 8).toNat % 1024 ∧
    (r.form = 2 → r.len v % r.size v = 0 ∧ pair64 v 0 % r.size v = 0 ∧ pair64 v 2 % r.size v = 0) ∧
    (r.form = 3 → pair64 v 0 % 32 = 0)

/-- How a receiving endpoint makes an access of a flit (R419). -/
def byEndpoint (f : Flit) (va : Nat) (need : Need) : Accessor :=
  { ctx := f.ctx, quad := remoteQuad va, path := some .l, need := need }

/-- How a link command makes its local accesses (R176, R419). -/
def byLink (x : LinkCmd) (need : Need) : Accessor :=
  { ctx := x.ctx, quad := x.core / 4, path := some .l, need := need, given := x.given.toList, who := engineWho x.handle, sid := some x.sid }

/-- A flit arrives over a link that is up, for a context that is active and open to the links, and waits for no token (R222,
R415, R419). -/
def Arrives (s : State) (f : Flit) : Prop :=
  (∃ p, routeOf s f.src = some p ∧ (linkSt s p = .up ∨ linkSt s p = .retrainPending)) ∧
    (lookD s.ctxs f.ctx {}).st = .active ∧ (sregOf s 0xA0).toNat.testBit f.ctx = true ∧ lpddrHeld s = false ∧ NoSaves s ∧
    ∀ c, look s.fab.tokens f.src = some c → (lookD s.fab.performed f.src 0 + 2 ^ 32 - c) % 2 ^ 32 < 2 ^ 31

/-- A flit is answered, over its link or, where that is to be trained, held for it; it is counted where it is a store or an
addition (R222, R386, R419). -/
def Answered (s t : State) (f : Flit) (a : Ack) (counts : Bool) : Prop :=
  (stateTo s f.src = .up → (f.src, LinkMsg.reply a) ∈ t.fab.out) ∧
    (stateTo s f.src = .retrainPending → ∃ h ∈ t.fab.held, h.dest = f.src ∧ h.msg = .reply a) ∧
    t.fab.arrived = s.fab.arrived ∧ t.strands = s.strands ∧
    lookD t.fab.performed f.src 0 = (if counts then (lookD s.fab.performed f.src 0 + 1) % 2 ^ 32 else lookD s.fab.performed f.src 0)

end Sys2Proof.Claims

/-- LPUT, LGET, LRADD and LSIG take a record and hand the endpoint their command toward a destination with a route whose port is
neither down nor failed; the destination register holds the handle. The local writes of an LGET are known at once, and an LSIG
waits for the strand's accesses. A length of 0 ends at once (R228, R416 to R420). -/
def Sys2Proof.Claims.LinksIssue : Prop :=
  ∀ (i : Instr) (r : LinkRow) (s : State) (st : Strand) (n port : Nat), linkRow i = some r → Issues s st → Alive st → PlainNext st → st.inTrap = false → r.legal st = true →
    uniDstOk st r.d = true → (∀ x ∈ r.srcs ++ [r.d], (fillOf st 255 x).isFull = true) → (∀ x ∈ r.srcs, isPort x = false) →
    (let v := r.srcs.map (readReg st 255)
     r.Admits s v → routeOf s (r.dest v) = some port → linkSt s port ≠ .down → linkSt s port ≠ .failed →
     NextRecord s st.ctx n →
     (r.form = 3 → beadDone s s.cur = true ∧ ∀ c ∈ s.eng.links, c.unsent = true → deviceUp s c.dest = false) →
     let h := nextHandle s st.ctx n
     let Goes := fun (t : State) (st' : Strand) => st'.pc = st.pc + 4 ∧ st'.run = .ready ∧ st'.rest = st.rest ∧ SameBytes s t ∧
       t.queues = s.queues ∧ { t.flight with nextId := s.flight.nextId } = s.flight ∧ t.fab.sent = s.fab.sent
     (r.form = 3 ∨ r.len v ≠ 0 → GivesSt i s s.cur fun t st' => Goes t st' ∧ Taken s t st.ctx n st.kernel ∧
       Holds st st' 255 r.d h .future ∧
       (r.form = 1 → t.mem.nextWrite = s.mem.nextWrite + r.flits v ∧
         ∀ k < r.flits v, (s.mem.nextWrite + k, Path.l) ∈ st'.know) ∧
       ∃ x : LinkCmd, t.eng.links = s.eng.links ++ [x] ∧ x.form = r.form ∧ x.handle = h ∧ x.ctx = st.ctx ∧ x.core = st.core ∧
         x.dest = r.dest v ∧ x.port = port ∧ x.raddr = pair64 v 0 ∧ x.val.toNat = pair64 v 2 ∧ x.laddr = pair64 v 2 ∧
         x.len = r.len v ∧ x.ty = r.ty v ∧ x.flits = r.flits v ∧ x.sent = 0 ∧ x.acked = 0 ∧ x.err = none) ∧
     (r.form ≠ 3 → r.len v = 0 → GivesSt i s s.cur fun t st' => Goes t st' ∧ Holds st st' 255 r.d h .full ∧
       t.eng.links = s.eng.links ∧ (recordOf t st.ctx n).st = .done))

/-- A port that is enabled leaves down for training; training ends up, when what the link held leaves, or after a third failure in a
row failed; a link that is up, whose corrected flits, a free value (log 108), exceed its threshold, awaits its retrain slot, which
begins by training it; a port that is disabled is down, what it held is discarded and its commands fail. Each move posts its event
(R222, R382, R386, R415, R416). That a disabled port posts one event, and which slot a pending link takes, is the model's choice
(log 77). -/
def Sys2Proof.Claims.LinksMove : Prop :=
  ∀ (s : State) p,
    (∀ v, s.arg = .val p v → p < 8 →
      (Gives .linkEnSet s fun t => (portOf t p).en = true ∧ (portOf t p).thr = v.toNat % 2 ^ 16 ∧
        ((portOf s p).st = .down → OnePort s t p ∧ (portOf t p).st = .training ∧ (portOf t p).fails = 0) ∧
        ((portOf s p).st ≠ .down → (portOf t p).st = (portOf s p).st ∧ t.mem = s.mem)) ∧
      (Gives .linkEnClear s fun t => (portOf t p).en = false ∧ (portOf t p).st = .down ∧
        ((portOf s p).st ≠ .down → OnePort s t p ∧ (∀ e ∈ t.fab.held, routeOf s e.dest ≠ some p) ∧
          ∀ (k : Nat) x, s.eng.links[k]? = some x → x.port = p → x.acked + x.data.length < x.flits → x.err = none →
            t.eng.links[k]? = some { x with err := some 0x14 }))) ∧
    (s.arg = .one p →
      ((portOf s p).st = .training → Gives .linkTrained s fun t => OnePort s t p ∧ (portOf t p).st = .up ∧
        (portOf t p).fails = 0 ∧ ∀ e ∈ s.fab.held, routeOf s e.dest = some p →
          (∀ c ∈ s.eng.links, c.dest = e.dest → c.unsent = false) →
          ∃ m, (e.dest, m) ∈ t.fab.out ∧ ∀ a, e.msg = .reply a → m = .reply a) ∧
      ((portOf s p).st = .training → (portOf s p).fails < 2 → Gives .linkTrainFail s fun t =>
        (portOf t p).st = .training ∧ (portOf t p).fails = (portOf s p).fails + 1 ∧ t.mem = s.mem ∧ t.eng = s.eng) ∧
      ((portOf s p).st = .training → (portOf s p).fails = 2 → Gives .linkTrainFail s fun t => OnePort s t p ∧
        (portOf t p).st = .failed) ∧
      ((portOf s p).st = .up → Gives .linkRetrainPending s fun t =>
        if Config.free s.choice > (portOf s p).thr then OnePort s t p ∧ (portOf t p).st = .retrainPending ∧
          ∃ r ∈ t.clk.retrains, p ∈ r.ports ∧ r.start = 750000 + (nowNs s / 64000000 + 1) * 64000000
        else t.fab = s.fab ∧ t.clk = s.clk ∧ t.mem = s.mem) ∧
      ((portOf s p).st ≠ .up → Gives .linkRetrainPending s fun t => t.fab = s.fab ∧ t.clk = s.clk ∧ t.mem = s.mem)) ∧
    ∀ r, retrainDue s = some r → p ∈ r.ports → (portOf s p).st = .retrainPending → Gives .retrainSlotStart s fun t =>
      (portOf t p).st = .training ∧ (portOf t p).fails = 0 ∧ t.strands = s.strands ∧
      ∃ x ∈ t.clk.slots, x.cls = .retrain ∧ x.start = r.start

/-- FLIT_RECEIVE performs a store, a read or an addition of another device at the addresses it reaches, and answers it; FLIT_ACK
counts the answer to the next flit of a command, and for an LGET writes the data, or keeps them while a read before them is still
to perform (R212); FENCE_TOKEN_ARRIVE keeps the newest token of its
source (R222, R419, R420). -/
def Obligations.FlitsPerform : Prop :=
  (∀ (s : State) (f : Flit) key, s.arg = .flit f → Arrives s f →
    (∀ va bs parts, f.kind = .store va bs → bs ≠ [] → Reaches s (byEndpoint f va .write) va bs.length key parts → Apart parts →
      Gives .flitReceive s fun t => Answered s t f .performed true ∧ bytesAt t parts = bs ∧
        ∀ a, (∀ p ∈ parts, a < p.1 ∨ p.1 + p.2 ≤ a) → t.mem.byteAt a = s.mem.byteAt a) ∧
    (∀ va n parts, f.kind = .read va n → Reaches s (byEndpoint f va .read) va n key parts → s.fab.arrived = [] →
      (∀ p ∈ parts, Settled s (remoteKnow s f.src) .l p.1 p.2) →
      Gives .flitReceive s fun t => Answered s t f (.data (bytesAt s parts)) false ∧ SameBytes s t) ∧
    (∀ va ty v pa, f.kind = .add va ty v →
      (let n := if ty = 2 then 8 else 4
       (∃ pin, translation s (byEndpoint f va .both) va n = (.ok pa key pin, s)) → AtRest s pa n key →
       let m := ofLE (s.mem.read pa n)
       let sum := if ty = 1 then (rn (fAddVal (fp (BitVec.ofNat 32 m)) (fp (v.setWidth 32)))).toNat else (m + v.toNat) % 2 ^ (8 * n)
       Gives .flitReceive s fun t => Answered s t f .performed true ∧ Stored s t pa (toLE n sum)))) ∧
  (∀ (s : State) c r x, (recordOf s c r).gen < 2 ^ 16 → c < 64 → r < 1024 →
    x.handle = BitVec.ofNat 32 (c * 2 ^ 26 + r * 2 ^ 16 + (recordOf s c r).gen) →
    s.eng.links.find? (fun y => y.handle == x.handle) = some x →
    (linkSt s x.port = .up ∨ linkSt s x.port = .retrainPending) → x.acked + x.data.length < x.sent → x.err = none →
    x.stall = none →
    (s.arg = .ack c r .performed → x.form ≠ 1 → Gives .flitAck s fun t => t.mem = s.mem ∧ t.strands = s.strands ∧
      ∃ y, t.eng.links.find? (fun y => y.handle == x.handle) = some y ∧ y = { x with acked := x.acked + 1, writes := y.writes } ∧
        ∀ k, k ∈ y.writes ↔ k ∈ x.writes ∨ k = (x.firstId + x.acked, Path.l)) ∧
    (∀ e, s.arg = .ack c r (.failed e) → Gives .flitAck s fun t => t.mem = s.mem ∧ t.strands = s.strands ∧
      t.eng.links.find? (fun y => y.handle == x.handle) = some { x with err := some e }) ∧
    (∀ bs, s.arg = .ack c r (.data bs) → x.form = 1 → bs.length = min 64 (x.len - 64 * (x.acked + x.data.length)) →
      afterReads s x.after = false → Gives .flitAck s fun t => t.mem = s.mem ∧ t.strands = s.strands ∧
        t.eng.links.find? (fun y => y.handle == x.handle) = some { x with data := x.data ++ [bs] }) ∧
    ∀ bs key parts, s.arg = .ack c r (.data bs) → x.form = 1 → x.data = [] → bs.length = min 64 (x.len - 64 * x.acked) → bs ≠ [] →
      afterReads s x.after = true → lpddrHeld s = false →
      NoSaves s → Reaches s (byLink x .write) (x.laddr + 64 * x.acked) bs.length key parts →
      Apart parts → Gives .flitAck s fun t => t.strands = s.strands ∧ bytesAt t parts = bs ∧
        (∀ a, (∀ p ∈ parts, a < p.1 ∨ p.1 + p.2 ≤ a) → t.mem.byteAt a = s.mem.byteAt a) ∧
        ∃ y, t.eng.links.find? (fun y => y.handle == x.handle) = some y ∧ y.acked = x.acked + 1 ∧ y.data = [] ∧
          (x.firstId + x.acked, Path.l) ∈ y.writes) ∧
  ∀ (s : State) src count, s.arg = .two src count → Gives .fenceTokenArrive s fun t => t.mem = s.mem ∧ t.strands = s.strands ∧
    look t.fab.tokens src = some (count % 2 ^ 32) ∧ ∀ x, x ≠ src → look t.fab.tokens x = look s.fab.tokens x

/-- LinksIssue and LinksMove together. -/
def Obligations.LinksRun : Prop := Sys2Proof.Claims.LinksIssue ∧ Sys2Proof.Claims.LinksMove

namespace Sys2Proof.Claims
open Sys2Proof Sys2Proof.Machine

/-! ### Textures and fragments (R361 to R376) -/

/-- A coordinate that names a place: finite or NaN, which counts as 0 (R372). -/
def Named (w : Word) : Prop := ∀ n, fp w ≠ .inf n

/-- A texture form: its selector and its operands. -/
structure TexRow where
  form : Nat
  d : Reg
  a : Reg
  b : Reg

/-- The texture forms (R371). -/
def texRow : Instr → Option TexRow
  | .tex d a b => some ⟨0, d, a, b⟩
  | .texl d a b => some ⟨1, d, a, b⟩
  | .texf d a b => some ⟨2, d, a, b⟩
  | .texg d a b => some ⟨3, d, a, b⟩
  | _ => none

/-- The descriptor that a form reads (R371). -/
def TexRow.desc (r : TexRow) (st : Strand) : TexDesc := texDesc ((quadOf r.b).map (readReg st 0))

/-- The words that bead j reads: u, v and the level, or i, j and the level. -/
def TexRow.words (r : TexRow) (st : Strand) (j : Nat) : List Word := ((runOf r.a 3).getD []).map (readReg st j)

/-- The texels that bead j reads, in the order c00, c10, c01, c11, with the mode and the weights of its result (R372). -/
def TexRow.texels (r : TexRow) (s : State) (st : Strand) (j : Nat) : List Nat × Nat × Nat × Nat :=
  let t := r.desc st
  let v := r.words st j
  if r.form = 2 then
    let l := (nth v 2).toNat
    ([t.at_ l (wrapIndex t.wu (t.wAt l) (nth v 0).toInt) (wrapIndex t.wv (t.hAt l) (nth v 1).toInt)], 0, 0, 0)
  else
    let l := texLevel { s := s, sid := s.cur, st := st } r.form j r.a t (nth v 2)
    if r.form ≠ 3 ∧ t.lin = false then
      ([t.at_ l (nearest t.wu (t.wAt l) (nth v 0) 0).i0 (nearest t.wv (t.hAt l) (nth v 1) 0).i0], 0, 0, 0)
    else
      let x := between t.wu (t.wAt l) (nth v 0) 0
      let y := between t.wv (t.hAt l) (nth v 1) 0
      ([t.at_ l x.i0 y.i0, t.at_ l x.i1 y.i0, t.at_ l x.i0 y.i1, t.at_ l x.i1 y.i1], if r.form = 3 then 2 else 1, x.weight, y.weight)

/-- λ2 × u + RN(λ1 × t + v0) of R370, each step rounded once. -/
def interp (l1 l2 v0 v1 v2 : Word) : Word :=
  let t := fadd (fp v1) (fNegVal (fp v0))
  let u := fadd (fp v2) (fNegVal (fp v0))
  fadd (fMulVal (fp l2) (fp u)) (fp (fadd (fMulVal (fp l1) (fp t)) (fp v0)))

/-- The interpolations: destination, first source, and the value for bead j (R370). -/
def interpRow : Instr → Option (Reg × Reg × (Strand → Nat → List Word → Word))
  | .ipers d a => some (d, a, fun st j v => interp (lookD st.bary (4 * j) 0) (lookD st.bary (4 * j + 1) 0) (nth v 0) (nth v 1) (nth v 2))
  | .icent d a => some (d, a, fun st j v =>
      interp (lookD st.bary (4 * j + 2) 0) (lookD st.bary (4 * j + 3) 0) (nth v 0) (nth v 1) (nth v 2))
  | .iflat d a => some (d, a, fun _ _ v => nth v 0)
  | _ => none

/-- The emitting forms: what they read, and the colour and the depth they hand over (R375). -/
def emitRow : Instr → Option (List Reg × (List Word → Option (List Word) × Option Word))
  | .emitc a => some ((runOf a 4).getD [], fun v => (some v, none))
  | .emitcz a b => some ((runOf a 4).getD [] ++ [b], fun v => (some (v.take 4), some (nth v 4)))
  | .discard => some ([], fun _ => (none, none))
  | _ => none

/-- What check 4 asks of an emitting form. -/
def emitLegal (st : Strand) : Instr → Prop
  | .emitc a => beadRunOk st a 4 = true
  | .emitcz a b => beadRunOk st a 4 = true ∧ ∃ n, b = .bead n ∧ regExists st b = true
  | _ => True

end Sys2Proof.Claims

/-- TEX, TEXL, TEXF and TEXG with a legal descriptor hand the memory one read for each bead, of the texels that their coordinates
and level name, and leave d to d + 3 empty until the texels arrive; TEXF beyond the last level writes zeros instead (R371 to
R373). That TEXF reads i and j as signed and the level as unsigned, and that TEX takes one level for a quad, is the model's choice
(log 84). -/
def Sys2Proof.Claims.TexturesIssue : Prop :=
  ∀ i r s st (pa key : Nat → Nat), texRow i = some r → Issues s st → Alive st → PlainNext st → st.inTrap = false →
    texDstOk st r.d = true → beadRunOk st r.a 3 = true → uniQuadOk st r.b = true → (r.desc st).bad = false →
    (∀ x ∈ quadOf r.b, (fillOf st 0 x).isFull = true) →
    (∀ j ∈ activeBeads st, ∀ x ∈ (runOf r.a 3).getD [] ++ quadOf r.d, (fillOf st j x).isFull = true) →
    (let acts := actsOn st false
     let Goes := fun (t : State) (st' : Strand) => st'.pc = st.pc + 4 ∧ st'.run = .ready ∧ st'.rest = st.rest ∧ t.mem = s.mem ∧
       t.queues = s.queues ∧ t.flight.loads = s.flight.loads ∧ t.flight.stores = s.flight.stores ∧
       t.strands = put s.strands s.cur st'
     ((∀ j ∈ acts, (r.form = 2 → (nth (r.words st j) 2).toNat ≤ (r.desc st).lv) ∧
         (r.form ≠ 2 → Named (nth (r.words st j) 0) ∧ Named (nth (r.words st j) 1)) ∧
         ∀ va ∈ (r.texels s st j).1, Hits s st .x .read va (r.desc st).texel (pa va) (key va)) →
       GivesSt i s s.cur fun t st' => Goes t st' ∧ LeftDue st st' false (quadOf r.d) ∧
         ∃ ops, t.flight.texels = s.flight.texels ++ ops ∧ ops.length = acts.length ∧
           ∀ (m j : Nat), acts[m]? = some j → ∃ op, ops[m]? = some op ∧ op.sid = s.cur ∧ op.bead = j ∧ op.fmt = (r.desc st).fmt ∧
             (op.mode, op.alpha, op.beta) = (r.texels s st j).2 ∧ op.dst = (quadOf r.d).filterMap (regKey st j) ∧
             op.texels = (r.texels s st j).1.map fun va => (pa va, key va)) ∧
     (r.form = 2 → (∀ j ∈ acts, (r.desc st).lv < (nth (r.words st j) 2).toNat) →
       GivesSt i s s.cur fun t st' => Goes t st' ∧ t.flight = s.flight ∧
         (∀ k, (∀ j ∈ acts, ∀ x ∈ quadOf r.d, regKey st j x ≠ some k) → getKey st' k = getKey st k) ∧
         ∀ j ∈ acts, ∀ x ∈ quadOf r.d, readReg st' j x = 0 ∧ fillOf st' j x = .full))

/-- TEXEL_ARRIVAL fills the destinations of a read with its result on the bytes at its texels (R371 to R373). -/
def Sys2Proof.Claims.TexelsArrive : Prop :=
  ∀ (s : State) (op : TexOp) st key, s.arg = .one op.id → s.flight.texels.find? (fun x => x.id == op.id) = some op →
    look s.strands op.sid = some st → texReady s op = true → op.failed = false → op.dst.Nodup → RKey.lc ∉ op.dst →
    let n := if op.fmt = 2 then 8 else 4
    (∀ x ∈ op.texels, x.2 = key ∧ AtRest s x.1 n key ∧ Settled s op.know .x x.1 n) →
    GivesSt .texelArrival s op.sid fun t st' => SameBytes s t ∧ st'.pc = st.pc ∧ st'.run = st.run ∧ st'.flow = st.flow ∧
      (∀ x ∈ t.flight.texels, x.id ≠ op.id) ∧ (∀ k, k ∉ op.dst → getKey st' k = getKey st k) ∧
      ∀ (m : Nat) k w, op.dst[m]? = some k → (texResult op (op.texels.map fun x => s.mem.read x.1 n))[m]? = some w →
        getKey st' k = { val := w }

/-- IPERS, ICENT and IFLAT in a kernel that shades fragments write the interpolated value on each bead, and change nothing else
(R370). -/
def Sys2Proof.Claims.AttributesInterpolate : Prop :=
  ∀ i d a f s st, interpRow i = some (d, a, f) → Issues s st → Alive st → PlainNext st →
    ((kernelOf s st).kind = 1 ∨ (kernelOf s st).kind = 2) → (∃ n, d = .bead n) → regExists st d = true →
    beadRunOk st a 3 = true → AllFull st false ((runOf a 3).getD [] ++ [d]) →
    ∃ st', exec i s = .next (s.withStrand st') ∧ st'.pc = st.pc + 4 ∧ st'.run = .ready ∧ st'.rest = st.rest ∧
      (∀ k, (∀ j ∈ actsOn st false, regKey st j d ≠ some k) → getKey st' k = getKey st k) ∧
      ∀ j ∈ actsOn st false, fillOf st' j d = .full ∧
        readReg st' j d = f st j (((runOf a 3).getD []).map (readReg st j))

/-- EMITC, EMITCZ and DISCARD hand each bead's fragment to blend, in issue order, with its colour and depth or as discarded; a helper
hands nothing. EMITV sends a triangle of each bead to the binner and leaves d empty until the binner answers (R361, R362, R374,
R375). -/
def Sys2Proof.Claims.FragmentsGo : Prop :=
  (∀ i srcs out s st c (fb : Nat → FragBead), emitRow i = some (srcs, out) → emitLegal st i → Issues s st → Alive st →
    PlainNext st → st.inTrap = false → ((kernelOf s st).kind = 1 ∨ ((kernelOf s st).kind = 2 ∧ ∀ a b, i ≠ .emitcz a b)) →
    (kernelOf s st).chain = some c → AllFull st false srcs →
    (let acts := actsOn st false
     (∀ j ∈ acts, look st.frags j = some (fb j) ∧ ((fb j).helper = true ∨ (fb j).emitted = false)) →
     GivesSt i s s.cur fun t st' => st'.pc = st.pc + 4 ∧ st'.run = .ready ∧ (∀ k, getKey st' k = getKey st k) ∧ t.mem = s.mem ∧
       t.flight = s.flight ∧ t.strands = put s.strands s.cur st' ∧
       (∀ j ∈ acts, look st'.frags j = some { fb j with emitted := true }) ∧
       (∀ j, j ∉ acts → look st'.frags j = look st.frags j) ∧
       (let gone := acts.filter fun j => !(fb j).helper
        t.strips.nextFrag = s.strips.nextFrag + gone.length ∧
        ∀ (m j : Nat), gone[m]? = some j → look t.strips.frags (s.strips.nextFrag + m) =
          some { chain := c, kernel := st.kernel, bead := { fb j with emitted := true }
                 color := (out (srcs.map (readReg st j))).1, zOver := (out (srcs.map (readReg st j))).2
                 sid := s.cur, pubs := carriedPubs st .x }))) ∧
  ∀ (s : State) (st : Strand) d a b, Issues s st → Alive st → PlainNext st → st.inTrap = false →
    ((∃ x y, (kernelOf s st).origin = .geometry x y) ∨ ∃ x, (kernelOf s st).origin = .replay x) → beadRunOk st a 12 = true →
    beadRunOk st b 2 = true → pairOk st b = true → statusOk st d a = true → AllFull st false ((runOf a 12).getD [] ++ pairOf b ++ [d]) →
    GivesSt (.emitv d a b) s s.cur fun t st' => st'.pc = st.pc + 4 ∧ st'.run = .ready ∧ st'.rest = st.rest ∧ t.mem = s.mem ∧
      LeftDue st st' false [d] ∧ t.strips = s.strips ∧
      ∃ ops, t.flight.bins = s.flight.bins ++ ops ∧ ops.length = (actsOn st false).length ∧
        ∀ (m j : Nat), (actsOn st false)[m]? = some j → ∃ op, ops[m]? = some op ∧ op.sid = s.cur ∧ op.bead = j ∧
          op.kernel = st.kernel ∧ op.dst = regKey st j d ∧
          op.vals = ((runOf a 12).getD [] ++ pairOf b).map (readReg st j)

/-- BINNER_ANSWER gives a culled triangle status 1; one that meets one list status 0 where its record and its list have room, and
the list gains an entry with the record's number; and 2 where the list is full, which closes it (R362, R363). SRATE sets the
chain's rung to min(floor, max(rung, A)), or with zr leaves it, and writes it to d (R376); the floor is that of the stream for which
the chain was started (log 130). -/
def Obligations.TrianglesBin : Prop :=
  (∀ (s : State) (op : BinOp) k st stream n, s.arg = .one op.id → s.flight.bins.find? (fun x => x.id == op.id && binFirst s x) = some op →
    op.dst = some k → k ≠ .lc → look s.strands op.sid = some st →
    (lookD s.cmd.kernels op.kernel {}).origin = .geometry stream n →
    let x := streamOf s stream
    let Fills := fun (t : State) (v : Word) => (∀ y ∈ t.flight.bins, y.id ≠ op.id) ∧
      ∃ st', look t.strands op.sid = some st' ∧ getKey st' k = { val := v } ∧ st'.pc = st.pc ∧
        ∀ k', k' ≠ k → getKey st' k' = getKey st k'
    (culled x op.vals = true → Gives .binnerAnswer s fun t => Fills t 1 ∧ t.mem = s.mem ∧ t.strips = s.strips) ∧
    ∀ y, culled x op.vals = false → stripsMet x op.vals = [y] → lookD s.strips.recCount (halfKey stream n) 0 < recRoom s x →
      (binList s stream n y).closed = false →
      ((binList s stream n y).count < lcap s x →
        AtRest s (ringPa s x.ring (listOff s x n y + 4 * (binList s stream n y).count)) 4 0 →
        AtRest s (ringPa s x.ring (recOff s x n (lookD s.strips.recCount (halfKey stream n) 0))) 64 0 →
        Gives .binnerAnswer s fun t => Fills t 0 ∧
          (binList t stream n y).count = (binList s stream n y).count + 1 ∧ (binList t stream n y).closed = false ∧
          t.mem.read (ringPa s x.ring (listOff s x n y + 4 * (binList s stream n y).count)) 4 =
            toLE 4 (lookD s.strips.recCount (halfKey stream n) 0)) ∧
      (lcap s x ≤ (binList s stream n y).count → Gives .binnerAnswer s fun t => Fills t 2 ∧
        (binList t stream n y).count = (binList s stream n y).count ∧ (binList t stream n y).closed = true)) ∧
  ∀ (s : State) (st : Strand) d a c ch, Issues s st → Alive st → PlainNext st → st.inTrap = false → (uniDstOk st d = true ∨ (d = .lc ∧ dstOk st d = true)) → uniSrcOk st a = true →
    (kernelOf s st).kind = 1 → (kernelOf s st).chain = some c → look s.strips.chains c = some ch →
    (fillOf st 255 a).isFull = true → (fillOf st 255 d).isFull = true → (readReg st 255 a).toNat ≤ 4 →
    let rung := if a = .zr then ch.rung else min (chainStream s ch).floor (max ch.rung (readReg st 255 a).toNat)
    GivesSt (.srate d a) s s.cur fun t st' => st'.pc = st.pc + 4 ∧ st'.run = .ready ∧ st'.rest = st.rest ∧ t.mem = s.mem ∧
      t.flight = s.flight ∧ look t.strips.chains c = some { ch with rung := rung } ∧
      (d ≠ .zr → readReg st' 255 d = BitVec.ofNat 32 rung) ∧
      ∀ k, regKey st 255 d ≠ some k → getKey st' k = getKey st k

/-- TexturesIssue and TexelsArrive together. -/
def Obligations.TexturesRead : Prop := Sys2Proof.Claims.TexturesIssue ∧ Sys2Proof.Claims.TexelsArrive

/-- AttributesInterpolate and FragmentsGo together. -/
def Obligations.FragmentsShade : Prop := Sys2Proof.Claims.AttributesInterpolate ∧ Sys2Proof.Claims.FragmentsGo

namespace Sys2Proof.Claims
open Sys2Proof Sys2Proof.Machine

/-! ### The matrix queue (R246 to R273) -/

/-- A form of the matrix queue: its number, its destination, the quads or the pair it captures, what it reads beside them, what
check 4 asks, its tile, its slots, whether it spans a pair of braids, and whether a handler may not use it. -/
structure MatrixRow where
  form : Nat
  d : Reg
  opA : List Reg
  opB : List Reg
  legal : State → Strand → Bool
  tile : Option Nat
  slots : Strand → List Nat
  spans : Bool := false
  forbid : Bool := true

/-- The slots' control word of MQUANT and MDEQ. -/
def namedSlot (b : Reg) (st : Strand) : Nat := (nth ((quadOf b).map (readReg st 0)) 3).toNat % 8

/-- The forms of the matrix queue (R255, R264, R268). -/
def matrixRow : Instr → Option MatrixRow
  | .mma d acc qa qb sa sb _ sp _ => some ⟨0, d, quadOf (quadReg qa), quadOf (quadReg qb),
      fun s st => uniQuadOk st (quadReg qa) && uniQuadOk st (quadReg qb) &&
        (!sp || ((braidOf s st).mate.isSome && (braidOf s st).leader)),
      some acc.toNat, fun _ => [sa.toNat, sb.toNat], sp, true⟩
  | .acz d t => some ⟨1, d, [], [], fun _ _ => true, some t.toNat, fun _ => [], false, true⟩
  | .acld d a sl t => some ⟨2, d, quadOf a, [], fun _ st => uniQuadOk st a, some t.toNat, fun _ => [sl.toNat], false, true⟩
  | .acst d a sl t => some ⟨3, d, quadOf a, [], fun _ st => uniQuadOk st a, some t.toNat, fun _ => [sl.toNat], false, true⟩
  | .acstr d a t => some ⟨4, d, pairOf a, [], fun _ st => uniPairOk st a, some t.toNat, fun _ => [], false, false⟩
  | .acldr d a t => some ⟨5, d, pairOf a, [], fun _ st => uniPairOk st a, some t.toNat, fun _ => [], false, false⟩
  | .acfold d t => some ⟨6, d, [], [], fun _ _ => true, some t.toNat, fun _ => [], false, true⟩
  | .mquant d a b => some ⟨7, d, quadOf a, quadOf b, fun _ st => uniQuadOk st a && uniQuadOk st b, none,
      fun st => [namedSlot b st], false, true⟩
  | .mdeq d a b => some ⟨8, d, quadOf a, quadOf b, fun _ st => uniQuadOk st a && uniQuadOk st b, none,
      fun st => [namedSlot b st], false, true⟩
  | _ => none

/-- The words of registers of the strand. -/
def wordsIn (st : Strand) (rs : List Reg) : List Word := rs.map (readReg st 0)

/-- The k-th slot that a form names, 0 where it has none. -/
def MatrixRow.slot (r : MatrixRow) (s : State) (st : Strand) (k : Nat) : DWord :=
  match (r.slots st)[k]? with | some n => slotWord s st n | none => 0

/-- The scale base of the k-th operand at its address (R248). -/
def MatrixRow.base (r : MatrixRow) (s : State) (st : Strand) (k : Nat) (op : List Reg) : DWord :=
  match (r.slots st)[k]? with
  | some n => BitVec.ofNat 64 (scaleBase st (slotOf (slotWord s st n)) (pair64 (wordsIn st op) 0))
  | none => 0

/-- An entry captures what a form reads. -/
def MatrixRow.Captures (r : MatrixRow) (s : State) (st : Strand) (e : MEntry) : Prop :=
  e.form = r.form ∧ e.opA = wordsIn st r.opA ∧ e.opB = wordsIn st r.opB ∧ e.slotA = r.slot s st 0 ∧ e.slotB = r.slot s st 1 ∧
    e.sbaseA = r.base s st 0 r.opA ∧ e.sbaseB = r.base s st 1 r.opB ∧
    (r.form = 0 → e.neg = ((slotOf (r.slot s st 0)).neg != (slotOf (r.slot s st 1)).neg)) ∧
    e.drawHi = st.kernel * 2 ^ 32 + (braidOf s st).index ∧ e.drawSeed = (kernelOf s st).seed.toNat

/-- The record of a matrix entry. -/
def EntryHas (s : State) (e : MEntry) (c r : Nat) : Prop :=
  c < 64 ∧ r < 1024 ∧ (look s.ctxs c).isSome ∧ (recordOf s c r).gen < 2 ^ 16 ∧ (recordOf s c r).st = .pending ∧
    e.handle = BitVec.ofNat 32 (c * 2 ^ 26 + r * 2 ^ 16 + (recordOf s c r).gen)

/-- The two chains of element el of a physical tile (R252). -/
def chainsOf (s : State) (tile el : Nat) : Word × Word := (tileWord s tile el 0, tileWord s tile el 1)

/-- A core's entry, with its own place in the order of issue. -/
def EntryAt (s : State) (core idx : Nat) (e : MEntry) : Prop :=
  s.arg = .two core idx ∧ (queueOfCore s core)[idx]? = some e ∧ ∀ x ∈ queueOfCore s core, x.seq = e.seq → x = e

/-- The accesses of an engine to ranges translate by f, under one key, to places at rest. -/
def Mapped (s : State) (a : Accessor) (key : Nat) (f : Nat → Nat) (rs : List (Nat × Nat)) : Prop :=
  ∀ r ∈ rs, ∀ p ∈ runs r.1 r.2, (∃ pin, translation s a p.1 p.2 = (.ok (f p.1) key pin, s)) ∧ AtRest s (f p.1) p.2 key ∧
    ∀ x < p.2, f (p.1 + x) = f p.1 + x

/-- A matrix entry's reads of ranges translate by f and find their newest bytes. -/
def MapsRead (s : State) (core : Nat) (e : MEntry) (key : Nat) (f : Nat → Nat) (rs : List (Nat × Nat)) : Prop :=
  Mapped s { tileAccess core e with need := .read } key f rs ∧
    ∀ r ∈ rs, ∀ p ∈ runs r.1 r.2, Settled s e.know .m (f p.1) p.2

/-- A matrix entry's writes to ranges translate by f to places apart. -/
def MapsWrite (s : State) (core : Nat) (e : MEntry) (key : Nat) (f : Nat → Nat) (rs : List (Nat × Nat)) : Prop :=
  Mapped s { tileAccess core e with need := .write } key f rs ∧
    Apart (rs.flatMap fun r => (runs r.1 r.2).map fun p => (f p.1, p.2))

/-- The number that n bytes at a virtual address hold. -/
def numAt (s : State) (f : Nat → Nat) (va n : Nat) : Nat := ofLE (s.mem.read (f (va % 2 ^ 64)) n)

/-- No byte outside the ranges changes. -/
def OnlyWithin (s t : State) (f : Nat → Nat) (rs : List (Nat × Nat)) : Prop :=
  ∀ a, (∀ r ∈ rs, ∀ p ∈ runs r.1 r.2, a < f p.1 ∨ f p.1 + p.2 ≤ a) → t.mem.byteAt a = s.mem.byteAt a

/-- Addr(l, k) of a descriptor with elements of eb bits (R250). -/
def elemAddr (d : TileDesc) (eb l k : Nat) : Nat :=
  let row := if d.cm then k else l
  let c := (if d.cm then l else k) * eb / 8
  d.addr + 16 * d.pitch * row +
    if d.swz then c / d.span * d.span + 16 * ((c % d.span / 16) ^^^ (row % (d.span / 16))) + c % 16 else c

/-- The code of element (l, k): its bytes, or for E2M1 the nibble of R15. -/
def codeAt (s : State) (f : Nat → Nat) (d : TileDesc) (eb l k : Nat) : Nat :=
  if eb = 4 then numAt s f (elemAddr d eb l k) 1 / 16 ^ ((if d.cm then l else k) % 2) % 16
  else numAt s f (elemAddr d eb l k) (eb / 8)

/-- The ranges of the elements with k from k0 on, n of them, and of their E8M0 bytes. -/
def operandRanges (d : TileDesc) (fs : FormatSlot) (sbase k0 n : Nat) : List (Nat × Nat) :=
  (descRows d fs.width k0 n).flatten ++ if fs.scale = 1 then (scaleRows d sbase k0 n).flatten else []

/-- The value of element k of line l, 0 beyond the extent (R257). -/
def lineVal (s : State) (f : Nat → Nat) (d : TileDesc) (fs : FormatSlot) (l k : Nat) : FVal :=
  if l < d.rows then elemVal fs.elem (codeAt s f d fs.width l k) else .zero false

/-- The E8M0 byte of scale block n of line l (R248). -/
def scaleAt (s : State) (f : Nat → Nat) (d : TileDesc) (sbase l n : Nat) : Nat := numAt s f (sbase + l * (d.k / 32) + n) 1

/-- The scale byte that a block sum takes: 127 without E8M0 scales or beyond the extent (R31, R257). -/
def lineScale (s : State) (f : Nat → Nat) (d : TileDesc) (fs : FormatSlot) (sbase l n : Nat) : Nat :=
  if fs.scale = 1 ∧ l < d.rows then scaleAt s f d sbase l n else 127

/-- ε of a nonzero element (R30). -/
def epsOf (f : Fmt) (x : Frac) : Int := if f = .ds8 then 4 else max x.log f.emin

/-- BlockSum of R31. -/
def sumOfBlock (f g : Fmt) (a b : Nat → FVal) (xa xb : Nat) : Word :=
  let ps := (List.range 16).map fun k => fMulVal (a k) (b k)
  if xa = 255 ∨ xb = 255 ∨ FVal.nan ∈ ps ∨ (FVal.inf false ∈ ps ∧ FVal.inf true ∈ ps) then 0x7FC00000
  else if FVal.inf false ∈ ps then 0x7F800000
  else if FVal.inf true ∈ ps then 0xFF800000
  else
    let z := (List.range 16).filterMap fun k => match a k, b k with
      | .fin x, .fin y => some (x.times y, epsOf f x + epsOf g y)
      | _, _ => none
    match z.map (·.2) with
    | [] => 0
    | e :: es =>
      let top := es.foldl max e
      let sum := (z.map fun p => let q := p.1.scale (18 - top); Int.tdiv q.num q.den).sum
      if sum = 0 then 0 else rn (.fin (dyadic sum (top - 18 + ((xa : Int) - 127) + ((xb : Int) - 127))))

/-- The chains after block n's sum is added, or subtracted (R32). -/
def addBlock (sub : Bool) (c : Word × Word) (n : Nat) (v : Word) : Word × Word :=
  let x := if sub then fNegVal (fp v) else fp v
  if n % 2 = 0 then (fadd (fp c.1) x, c.2) else (c.1, fadd (fp c.2) x)

/-- What an MMA leaves in element (i, j) from its chains c: the blocks from kdone on, and the fold (R32, R257). -/
def mmaElem (s : State) (f : Nat → Nat) (e : MEntry) (fold : Bool) (i j : Nat) (c : Word × Word) : Word × Word :=
  let a := descOf e.opA
  let b := descOf e.opB
  let fa := slotOf e.slotA
  let fb := slotOf e.slotB
  let c := ((List.range (a.k / 16)).filter fun n => decide (e.kdone ≤ 16 * n)).foldl (fun c n => addBlock e.neg c n
    (sumOfBlock fa.elem fb.elem (fun k => lineVal s f a fa i (16 * n + k)) (fun k => lineVal s f b fb j (16 * n + k))
      (lineScale s f a fa e.sbaseA.toNat i (n / 2)) (lineScale s f b fb e.sbaseB.toNat j (n / 2)))) c
  if fold then (fadd (fp c.1) (fp c.2), 0) else c

/-- T of R248, 1 where the slot has no FP32 scale. -/
def tensorScale (s : State) (f : Nat → Nat) (fs : FormatSlot) (sbase : Nat) : FVal :=
  if fs.scale = 2 then fp (BitVec.ofNat 32 (numAt s f sbase 4)) else .fin ⟨1, 1⟩

/-- Widen of the code of element (l, k) (R265). -/
def widened (s : State) (f : Nat → Nat) (d : TileDesc) (fs : FormatSlot) (sbase l k : Nat) : Word :=
  let v := elemVal fs.elem (codeAt s f d fs.width l k)
  let x := scaleAt s f d sbase l (k / 32)
  if fs.scale = 1 then (if x = 255 then 0x7FC00000 else rn (fMulVal v (.fin (dyadic 1 ((x : Int) - 127)))))
  else rn (if fs.scale = 2 then fMulVal v (tensorScale s f fs sbase) else v)

/-- The scale byte of a block of values (R24). -/
def blockScale (f : Fmt) (vs : List FVal) : Nat :=
  if vs.any fun v => v matches .nan || v matches .inf _ then 255
  else
    match vs.filterMap fun v => match v with | .fin x => some x.log | _ => none with
    | [] => 127
    | m :: ms =>
      let emax : Int := match f with | .e4m3 => 8 | .e5m2 => 15 | .e2m1 => 2 | _ => 4
      (min (max (ms.foldl max m - emax + 127) 0) 254).toNat

/-- The code that Out gives a value of a block (R24, R265). -/
def outCode (fs : FormatSlot) (t : FVal) (block : List FVal) (v : FVal) (r : Nat) : Nat :=
  if fs.scale = 1 then
    if blockScale fs.elem block = 255 ∨ (block.all fun v => v matches .zero _) = true then 0
    else convElem (fMulVal v (.fin (dyadic 1 (127 - blockScale fs.elem block)))) fs.elem fs.mode true r
  else if fs.scale = 2 then
    match fs.elem with
    | .ds8 => convDs8 (fMulVal v t)
    | .e2m1 => round (fMulVal v t) .e2m1 fs.mode true r
    | g => round (fMulVal v t) g fs.mode fs.sat r
  else convElem v fs.elem fs.mode fs.sat r

/-- Memory holds the values v(l, k) written out under an entry's slot: the code of each element at its place, 0 in a nibble that
no element takes, and the E8M0 bytes; no other byte changes (R265 to R269). -/
def WrittenOut (s t : State) (f : Nat → Nat) (e : MEntry) (v : Nat → Nat → Word) : Prop :=
  let d := descOf e.opA
  let fs := slotOf e.slotA
  let block := fun l n => (List.range 32).map fun x => fp (v l (32 * n + x))
  let draw := fun el => if fs.rnd = 4 then drawLo e.drawHi ((2 ^ 31 + el) * 2 ^ 32 + e.epi.toNat) e.drawSeed % 2 ^ 16 else 0
  (∀ l < d.rows, ∀ k < d.k, codeAt t f d fs.width l k =
    outCode fs (tensorScale s f fs e.sbaseA.toNat) (block l (k / 32)) (fp (v l k)) (draw (l * d.k + k))) ∧
    (fs.width = 4 → d.cm = true → d.rows % 2 = 1 → ∀ k < d.k, numAt t f (elemAddr d 4 (d.rows - 1) k) 1 < 16) ∧
    (fs.scale = 1 → ∀ l < d.rows, ∀ n < d.k / 32, scaleAt t f d e.sbaseA.toNat l n = blockScale fs.elem (block l n)) ∧
    OnlyWithin s t f (operandRanges d fs e.sbaseA.toNat 0 d.k)

end Sys2Proof.Claims

/-- Every form of the matrix queue with legal captured values enters its core's queue with the words, slots, tile and scale bases
it names, takes a record, and leaves the handle in its destination; a stochastic ACST or MQUANT counts the braid's random words
on (R228, R246 to R257, R264 to R268, R272). -/
def Sys2Proof.Claims.MatricesIssue : Prop :=
  ∀ i r s st n b, matrixRow i = some r → Issues s st → Alive st → PlainNext st → (r.forbid = true → st.inTrap = false) →
    r.legal s st = true → uniDstOk st r.d = true → look s.braids st.braid = some b → b.capture = false → waitingAt s st.core = [] →
    (∀ x, r.tile = some x → x < b.tiles.length) →
    (∀ k ∈ r.slots st, slotPairOk st (slotOf (slotWord s st k)) = true) →
    (∀ x ∈ r.opA ++ r.opB ++ (r.slots st).flatMap (fun k => slotRegs (slotOf (slotWord s st k))) ++ [r.d],
      (fillOf st 255 x).isFull = true) →
    (∀ e, r.Captures s st e → entryReason e true r.spans = none) → (queueOfCore s st.core).length < 8 → NextRecord s st.ctx n →
    GivesSt i s s.cur fun t st' => st'.pc = st.pc + 4 ∧ st'.run = .ready ∧ st'.rest = st.rest ∧ t.mem = s.mem ∧
      t.queues = s.queues ∧ t.eng.tiles = s.eng.tiles ∧ Taken s t st.ctx n st.kernel ∧
      Holds st st' 255 r.d (nextHandle s st.ctx n) .future ∧
      (let sr := (r.form = 3 ∨ r.form = 7) ∧ (r.slot s st 0).toNat / 2 ^ 9 % 8 = 4
       (sr → (lookD t.braids st.braid {}).mcEpi = b.mcEpi + 1) ∧ (¬ sr → t.braids = s.braids) ∧
       ∃ e, queueOfCore t st.core = queueOfCore s st.core ++ [e] ∧ r.Captures s st e ∧ e.handle = nextHandle s st.ctx n ∧
         e.insn = (encode i).getD 0 ∧ e.bid = st.braid ∧ e.ctx = st.ctx ∧ e.kdone = 0 ∧ e.started = false ∧
         (∀ x, r.tile = some x → b.tiles[x]? = some e.tile) ∧ (sr → e.epi = b.mcEpi) ∧
         ∀ k ∈ st.know, k.2 = .m → k ∈ e.know)

/-- MPIN hands the core the lines of a range to pin, and ends at once for none; MUNPIN takes the braid's pins off the lines that the
range touches, and off no other (R270). -/
def Sys2Proof.Claims.PinsIssue : Prop :=
  ∀ (s : State) (st : Strand) (a b : Reg), Issues s st → Alive st → PlainNext st → st.inTrap = false → uniPairOk st a = true →
    uniSrcOk st b = true →
    (∀ x ∈ pairOf a ++ [b], (fillOf st 255 x).isFull = true) → (readReg st 255 b).toNat ≤ 2 ^ 24 →
    let va := (readPair st 255 a).toNat
    let n := (readReg st 255 b).toNat
    let Goes := fun (t : State) (st' : Strand) => st'.pc = st.pc + 4 ∧ st'.run = .ready ∧ st'.rest = st.rest ∧ t.mem = s.mem ∧
      t.flight = s.flight
    (∀ (d : Reg) (x : Nat), uniDstOk st d = true → (fillOf st 255 d).isFull = true → NextRecord s st.ctx x →
      (n ≠ 0 → va + n ≤ 2 ^ 64 → GivesSt (.mpin d a b) s s.cur fun t st' => Goes t st' ∧ Taken s t st.ctx x st.kernel ∧
        Holds st st' 255 d (nextHandle s st.ctx x) .future ∧
        ∃ p : PinCmd, t.eng.pins = s.eng.pins ++ [p] ∧ p.bid = st.braid ∧ p.ctx = st.ctx ∧ p.core = st.core ∧
          p.handle = nextHandle s st.ctx x ∧ p.vas.Pairwise (· < ·) ∧
          ∀ l, l ∈ p.vas ↔ l % 128 = 0 ∧ l < va + n ∧ va < l + 128) ∧
      (n = 0 → GivesSt (.mpin d a b) s s.cur fun t st' => Goes t st' ∧ Holds st st' 255 d (nextHandle s st.ctx x) .full ∧
        t.eng.pins = s.eng.pins ∧ (recordOf t st.ctx x).st = .done)) ∧
    GivesSt (.munpin a b) s s.cur fun t st' => Goes t st' ∧ (∀ k, getKey st' k = getKey st k) ∧ t.eng = s.eng ∧
      t.vaults.lines.length = s.vaults.lines.length ∧
      ∀ (m : Nat) (l : CacheLine), s.vaults.lines[m]? = some l → ∃ l' : CacheLine, t.vaults.lines[m]? = some l' ∧ l'.line = l.line ∧ l'.key = l.key ∧
        l'.pinMma = l.pinMma ∧
        ∀ p, p ∈ l'.pinBraid ↔ p ∈ l.pinBraid ∧ ¬ (p.1 = st.braid ∧ n ≠ 0 ∧ p.2 < va + n ∧ va < p.2 + 128)

/-- MATRIX_ENTRY_START starts an entry that may: an MMA with its pins where R263 gives them, and with its tile at +0 where z asks for it;
MATRIX_ENTRY_END runs ACZ, which zeroes its tile, and ACFOLD, which adds each element's chains in FP32, and ends their records;
no other tile changes (R32, R253, R257, R263, R266). -/
def Sys2Proof.Claims.EntriesRun : Prop :=
  ∀ (s : State) core idx e, EntryAt s core idx e →
    (mayStart s core e = true →
      (e.form ≠ 0 → Gives .matrixEntryStart s fun t => queueOfCore t core =
          (queueOfCore s core).map (fun x => if x.seq = e.seq then { x with started := true } else x) ∧
        t.eng.tiles = s.eng.tiles ∧ t.mem = s.mem ∧ t.strands = s.strands) ∧
      (∀ all ls, e.form = 0 → pinRule s core e = .pin all ls → firstAtPins s e = true → pinsHeld s ls = false →
        Gives .matrixEntryStart s fun t => queueOfCore t core =
            (queueOfCore s core).map (fun x => if x.seq = e.seq then { x with started := true, pinAll := all } else x) ∧
          t.strands = s.strands ∧
          ((mmaFlags e).1 = true → e.resumed = false → ∀ el < 65536, chainsOf t (core * 3 + e.tile) el = (0, 0)) ∧
          ((mmaFlags e).1 = false → t.eng.tiles = s.eng.tiles))) ∧
    (∀ c r, e.started = true → e.stall = none → e.err = none → EntryHas s e c r → risingFrom 0 s.eng.tiles = true →
      waitingAt s core = [] →
      let t0 := core * 3 + e.tile
      let Runs := fun (t : State) => RecordEnds s t c r e.handle .done 0 [] ∧ t.mem = s.mem ∧
        (∀ x ∈ queueOfCore t core, x.seq ≠ e.seq) ∧ ∀ t', t' ≠ t0 → ∀ el < 65536, chainsOf t t' el = chainsOf s t' el
      (e.form = 1 → Gives .matrixEntryEnd s fun t => Runs t ∧ ∀ el < 65536, chainsOf t t0 el = (0, 0)) ∧
      (e.form = 6 → Gives .matrixEntryEnd s fun t => Runs t ∧ ∀ el < 65536,
        chainsOf t t0 el = (fadd (fp (chainsOf s t0 el).1) (fp (chainsOf s t0 el).2), 0)))

/-- MATRIX_ENTRY_END performs a started entry whose accesses translate and find their newest bytes, and ends its record. MMA adds the
block sums of every span still to do to its tile, and with s = 1 to the follower's, and folds with f (R31, R32, R257, R258). ACLD
widens its elements into the tile and zeroes the rest; ACST writes its tile out; ACSTR and ACLDR move both chains bit for bit
(R265, R266). MQUANT writes FP32 values out, and MDEQ widens elements to FP32 (R269). No other tile and no other byte changes. -/
def Sys2Proof.Claims.EntriesCompute : Prop :=
  ∀ (s : State) core idx e c r key f, EntryAt s core idx e → e.started = true → e.stall = none → e.err = none → EntryHas s e c r →
    risingFrom 0 s.eng.tiles = true → waitingAt s core = [] → lpddrHeld s = false → NoSaves s →
    let d := descOf e.opA
    let fs := slotOf e.slotA
    let base := e.sbaseA.toNat
    let t0 := core * 3 + e.tile
    let Runs := fun (t : State) (tiles : List Nat) => RecordEnds s t c r e.handle .done 0 [] ∧
      (∀ x ∈ queueOfCore t core, x.seq ≠ e.seq) ∧ ∀ t', t' ∉ tiles → ∀ el < 65536, chainsOf t t' el = chainsOf s t' el
    let Factor := if fs.scale = 2 then [(base, 4)] else []
    (∀ fd acc qa qb sa sb z sp fold, e.form = 0 → decode e.insn = .ok (.mma fd acc qa qb sa sb z sp fold) →
      entryReason e true sp = none → e.kdone % 64 = 0 → e.kdone < d.k → (sp = true → e.tile < 3 ∧ e.tile2 < 3) →
      (∀ m, e.kdone ≤ 64 * m → 64 * m < d.k → MapsRead s core e key f
        (operandRanges d fs base (64 * m) (min 64 (d.k - 64 * m)) ++
          operandRanges (descOf e.opB) (slotOf e.slotB) e.sbaseB.toNat (64 * m) (min 64 (d.k - 64 * m)))) →
      let t1 := (core + 1) * 3 + e.tile2
      Gives .matrixEntryEnd s fun t => Runs t (t0 :: if sp then [t1] else []) ∧ SameBytes s t ∧
        (∀ i < 256, ∀ j < 256, chainsOf t t0 (256 * i + j) = mmaElem s f e fold i j (chainsOf s t0 (256 * i + j))) ∧
        (sp = true → ∀ i < 256, ∀ j < 256,
          chainsOf t t1 (256 * i + j) = mmaElem s f e fold i (256 + j) (chainsOf s t1 (256 * i + j)))) ∧
    (e.form = 2 → entryReason e true false = none → MapsRead s core e key f (operandRanges d fs base 0 d.k ++ Factor) →
      Gives .matrixEntryEnd s fun t => Runs t [t0] ∧ SameBytes s t ∧ ∀ i < 256, ∀ j < 256,
        chainsOf t t0 (256 * i + j) = (if i < d.rows ∧ j < d.k then widened s f d fs base i j else 0, 0)) ∧
    (e.form = 3 → entryReason e true false = none → MapsRead s core e key f Factor →
      MapsWrite s core e key f (operandRanges d fs base 0 d.k) → Gives .matrixEntryEnd s fun t => Runs t [] ∧
        WrittenOut s t f e fun i j => let c := chainsOf s t0 (256 * i + j); fadd (fp c.1) (fp c.2)) ∧
    (let raw := pair64 e.opA 0
     e.form = 4 → MapsWrite s core e key f [(raw, 524288)] → Gives .matrixEntryEnd s fun t => Runs t [] ∧
        (∀ el < 65536, numAt t f (raw + 8 * el) 4 = (chainsOf s t0 el).1.toNat ∧
          numAt t f (raw + 8 * el + 4) 4 = (chainsOf s t0 el).2.toNat) ∧ OnlyWithin s t f [(raw, 524288)]) ∧
    (let raw := pair64 e.opA 0
     e.form = 5 → entryReason e true false = none → MapsRead s core e key f [(raw, 524288)] →
      Gives .matrixEntryEnd s fun t => Runs t [t0] ∧ SameBytes s t ∧ ∀ el < 65536, chainsOf t t0 el =
        (BitVec.ofNat 32 (numAt s f (raw + 8 * el) 4), BitVec.ofNat 32 (numAt s f (raw + 8 * el + 4) 4))) ∧
    (let wide := fun l k => pair64 e.opB 0 + l * (nth e.opB 2).toNat + 4 * k
     let rows := (List.range d.rows).map fun l => (wide l 0, 4 * d.k)
     (e.form = 7 → entryReason e true false = none → MapsRead s core e key f (rows ++ Factor) →
       MapsWrite s core e key f (operandRanges d fs base 0 d.k) → Gives .matrixEntryEnd s fun t => Runs t [] ∧
         WrittenOut s t f e fun l k => BitVec.ofNat 32 (numAt s f (wide l k) 4)) ∧
     (e.form = 8 → entryReason e true false = none → MapsRead s core e key f (operandRanges d fs base 0 d.k ++ Factor) →
       MapsWrite s core e key f rows → Gives .matrixEntryEnd s fun t => Runs t [] ∧ OnlyWithin s t f rows ∧
         ∀ l < d.rows, ∀ k < d.k, numAt t f (wide l k) 4 = (widened s f d fs base l k).toNat))

/-- MMA_SPAN_STOP ends a started MMA that met a fault, failed with its code, or, where it stands at a boundary, one that a cancel
reaches; for a capture it leaves the entry to be recorded with the k it has done (R259, R271). CAPTURE_END turns the braid's
entries into checkpoint records, in order, of which mc_count is the number, and takes them from the queue, those that wait to enter
it again among them (R271, R272); how many more than eight may be, log 128. -/
def Sys2Proof.Claims.EntriesStop : Prop :=
  (∀ (s : State) core idx e c r, EntryAt s core idx e → e.form = 0 → e.started = true → EntryHas s e c r →
    waitingAt s core = [] →
    (∀ code, e.err = some code → Gives .mmaSpanStop s fun t => RecordEnds s t c r e.handle .failed code [] ∧
      t.eng.tiles = s.eng.tiles ∧ t.mem = s.mem ∧ ∀ x ∈ queueOfCore t core, x.seq ≠ e.seq) ∧
    (e.err = none → e.stall.isSome → e.cancel = true → Gives .mmaSpanStop s fun t =>
      RecordEnds s t c r e.handle .cancelled 0 [] ∧ t.eng.tiles = s.eng.tiles ∧ t.mem = s.mem ∧
      ∀ x ∈ queueOfCore t core, x.seq ≠ e.seq) ∧
    (e.err = none → e.stall.isSome → e.cancel = false → (lookD s.braids e.bid {}).capture = true → Gives .mmaSpanStop s fun t =>
      t.eng.tiles = s.eng.tiles ∧ t.mem = s.mem ∧ t.strands = s.strands ∧
      (queueOfCore t core)[idx]? = some { e with started := false, stall := none, resumed := true })) ∧
  ∀ (s : State) bid b, s.arg = .one bid → look s.braids bid = some b → captureReady s bid = true →
    risingFrom 0 s.braids = true → (∀ x ∈ waitingAt s b.core, x.bid = bid) →
    let es := (queueOfCore s b.core).filter (fun e => e.bid == bid) ++ waitingAt s b.core
    Gives .captureEnd s fun t => t.strands = s.strands ∧ t.mem = s.mem ∧ t.eng.tiles = s.eng.tiles ∧
      queueOfCore t b.core = (queueOfCore s b.core).filter (fun e => e.bid != bid) ∧
      ∃ b', look t.braids bid = some b' ∧ b'.capture = false ∧ b'.mcCount = es.length ∧ waitingAt t b.core = [] ∧
        ∀ (k w : Nat) e x, es[k]? = some e → w < 16 →
          ([e.insn, BitVec.ofNat 32 e.kdone, e.handle, e.epi] ++ (List.range 4).map (nth e.opA) ++ (List.range 4).map (nth e.opB) ++
            [e.sbaseA.setWidth 32, (e.sbaseA >>> 32).setWidth 32, e.sbaseB.setWidth 32, (e.sbaseB >>> 32).setWidth 32])[w]? = some x →
          lookD b'.mcStore (16 * k + w) 0 = x

/-- MatricesIssue and PinsIssue together. -/
def Obligations.MatrixEntriesQueue : Prop := Sys2Proof.Claims.MatricesIssue ∧ Sys2Proof.Claims.PinsIssue

/-- EntriesRun, EntriesCompute and EntriesStop together. -/
def Obligations.MatrixEntriesRun : Prop :=
  Sys2Proof.Claims.EntriesRun ∧ Sys2Proof.Claims.EntriesCompute ∧ Sys2Proof.Claims.EntriesStop

namespace Sys2Proof.Claims
open Sys2Proof Sys2Proof.Machine

/-! ### The calendar, the clocks and the timebase (R326 to R330, R382 to R393, R433) -/

/-- The start of the first slot of a class, given by its offset, period and duration, that ends later than t (R382, R393). -/
def FirstAfter (off period len t start : Nat) : Prop :=
  ∃ n, start = off + n * period ∧ t < start + len ∧ ∀ m, t < off + m * period + len → n ≤ m

/-- The four words of a slot. -/
def slotFour (start len period : Nat) : List Word :=
  [BitVec.ofNat 32 start, BitVec.ofNat 32 (start / 2 ^ 32), BitVec.ofNat 32 len, BitVec.ofNat 32 period]

/-- What SLOTQ tells for a selector and a time (R384, R391, R393). -/
def Told (s : State) (quad : Nat) (t : Nat) (v : List Word) : SlotSel → Prop
  | .refresh => ∃ a, FirstAfter 0 15625 1250 t a ∧ v = slotFour a 1250 15625
  | .calib => ∃ a, FirstAfter 250000 1000000 8000 t a ∧ v = slotFour a 8000 1000000
  | .sweep => ∃ a, FirstAfter 62500 125000 250 t a ∧ v = slotFour a 250 125000
  | .retrain => (∀ r ∈ s.clk.retrains, r.start + 30000 ≤ t) ∧ v = [0xFFFFFFFF, 0xFFFFFFFF, 0, 64000000] ∨
      ∃ before r after, s.clk.retrains = before ++ r :: after ∧ (∀ x ∈ before, x.start + 30000 ≤ t) ∧ t < r.start + 30000 ∧
        v = slotFour r.start 30000 64000000
  | .lpddr => ∃ r c, FirstAfter 0 15625 1250 t r ∧ FirstAfter 250000 1000000 8000 t c ∧
      v = if c ≤ r then slotFour c 8000 15625 else slotFour r 1250 15625
  | .info => ∃ m : Word, (∀ p < 32, m.getLsbD p = true ↔ ∃ r ∈ s.clk.retrains, ∃ q ∈ r.ports, q % 8 = p) ∧
      v = [s.clk.calVersion, m, BitVec.ofNat 32 (min 4 (lookD s.clk.droop quad 0 + s.clk.thermal)), 0]

/-- A slot as it begins. -/
def slotAt (c : SlotClass) (start len : Nat) : Slot := { cls := c, start := start, stop := start + len }

/-- A link that a retrain slot names still trains (R387). -/
def Trains (s : State) (x : Slot) : Prop := ∃ r ∈ s.clk.retrains, r.start = x.start ∧ ∃ p ∈ r.ports, linkSt s p = .training

/-- A slot ends: a retrain slot is published no longer (R393). -/
def SlotGone (s t : State) (x : Slot) (rest : List Slot) : Prop :=
  t.clk.slots = rest ∧ t.clk.retrains = if x.cls = .retrain then s.clk.retrains.filter (fun r => r.start != x.start) else s.clk.retrains

/-- A keeper's counter one higher, at most 2^64 − 1 (R431). -/
def Counts (s t : State) (idx : Nat) : Prop :=
  t.keep.counters = put s.keep.counters idx (min (2 ^ 64 - 1) (lookD s.keep.counters idx 0 + 1))

/-- The place of a class in the table of slots (R382). -/
def classNo : SlotClass → Nat
  | .refresh => 0 | .calibration => 1 | .retrain => 2 | .sweep => 3

/-- No write of the device's own waits for a slot's end (R385). -/
def NothingHeld (s : State) : Prop := s.cmd.evr.queued = [] ∧ s.strips.late = []

/-- A step of the timebase: the calendar's next slots are the first that end later than the new count, none is under way; the
refresh slots that it passes over, and those that it cuts off, alone or inside a calibration slot, are to be made up; a slot that
stretches ends with its event and its count, and its housekeeping, where it is not done, is left to the next slot of its class; the
ports of the retrain slots that had not begun stay published, in one slot in the next millisecond that is a multiple of 64 (R329,
R382, R384, R387). -/
def Stepped (s t : State) (tb : Nat) : Prop :=
  t.clk.tb = tb ∧ t.clk.slots = [] ∧ FirstAfter 0 15625 1250 (tb / 2 ^ 16) (15625 * t.clk.refreshNext) ∧
    FirstAfter 250000 1000000 8000 (tb / 2 ^ 16) (250000 + 1000000 * t.clk.calNext) ∧
    FirstAfter 62500 125000 250 (tb / 2 ^ 16) (62500 + 125000 * t.clk.sweepNext) ∧
    (let skips := (t.clk.refreshNext - s.clk.refreshNext) + s.clk.slots.countP fun x =>
       x.stretched.isNone && (x.cls == .refresh || x.cls == .calibration) && decide (x.stop ≤ tb / 2 ^ 16)
     skips ≤ t.clk.skipped ∧ t.clk.skipped ≤ s.clk.skipped + skips ∧
       ((∀ x ∈ s.clk.slots, x.cls = .refresh → x.stretched = none) → t.clk.skipped = s.clk.skipped + skips)) ∧
    ((s.clk.slots.map (·.cls)).Nodup → ∀ x ∈ s.clk.slots, x.stretched.isSome →
      (x.cls ∈ t.clk.owed ↔ (x.cls = .retrain → Trains s x)) ∧
      lookD t.keep.counters (0x1850 + classNo x.cls) 0 =
        min (2 ^ 64 - 1) (lookD s.keep.counters (0x1850 + classNo x.cls) 0 + 1) ∧
      ((∀ y ∈ s.clk.slots, y.stretched.isSome → y = x) → Posted s t)) ∧
    (let ahead := s.clk.retrains.filter fun r => !s.clk.slots.any fun x => x.cls == .retrain && x.start == r.start
     (ahead = [] → t.clk.retrains = []) ∧
     (ahead ≠ [] → t.clk.retrains = [⟨750000 + 64000000 * (tb / 2 ^ 16 / 64000000 + 1), ahead.flatMap (·.ports)⟩])) ∧
    (NothingHeld s → (∀ x ∈ s.clk.slots, x.stretched = none) → t.mem = s.mem ∧ t.strips = s.strips ∧ t.cmd = s.cmd)

end Sys2Proof.Claims

/-- SLOTQ writes the four words that R393 gives its selector into its quad, for the time in its pair, or for now with zr; it changes
nothing else. -/
def Sys2Proof.Claims.SlotsTold : Prop :=
  ∀ (s : State) (st : Strand) d a sel, Issues s st → Alive st → PlainNext st → uniQuadOk st d = true → uniPairOk st a = true →
    (∀ r ∈ pairOf a ++ quadOf d, (fillOf st 255 r).isFull = true) →
    ∃ v, Told s (st.core / 4) (if a = .zr then s.clk.tb / 2 ^ 16 else (readPair st 255 a).toNat) v sel ∧
      Form.CompletesBy ⟨pairOf a, quadOf d, true, fun _ => v⟩ (.slotq d a sel) s st

/-- The calendar runs once the command processor is released: requests drain 150 ns before a refresh or calibration slot; a refresh
slot that does not start with a calibration slot, a calibration slot with the refresh slot inside it, and a sweep slot begin at
their times; a slot ends at its published end or stretches, and a stretched one ends with its event and its count (R382 to R389). -/
def Sys2Proof.Claims.SlotsPass : Prop :=
  ∀ s : State, 2 ≤ s.keep.released →
    let now := s.clk.tb / 2 ^ 16
    let n := s.clk.refreshNext
    let c := s.clk.calNext
    (s.clk.drain = false → 15625 * n ≤ now + 150 ∨ 250000 + 1000000 * c ≤ now + 150 →
      exec .slotDrainWindow s = .next { s with clk := { s.clk with drain := true } }) ∧
    (n % 64 ≠ 16 → 15625 * n ≤ now → exec .refreshSlotStart s = .next { s with clk := { s.clk with
      slots := s.clk.slots ++ [slotAt .refresh (15625 * n) 1250], refreshNext := n + 1, drain := false } }) ∧
    (250000 + 1000000 * c ≤ now → exec .calibrationSlotStart s = .next { s with clk := { s.clk with
      slots := s.clk.slots ++ [slotAt .calibration (250000 + 1000000 * c) 8000], calNext := c + 1, drain := false
      refreshNext := if n % 64 = 16 then n + 1 else n } }) ∧
    (62500 + 125000 * s.clk.sweepNext ≤ now → Gives .sweepSlot s fun t => t.clk.sweepNext = s.clk.sweepNext + 1 ∧
      t.mem = s.mem ∧ t.strands = s.strands ∧ t.clk.tb = s.clk.tb ∧
      lookD t.keep.counters 0x1840 0 = t.clk.temp ∧
      lookD t.keep.counters 0x1841 0 = max t.clk.temp (lookD s.keep.counters 0x1841 0) ∧
      (t.clk.temp > 105 * 16 → t.clk.thermal = min 4 (s.clk.thermal + 1)) ∧
      (t.clk.temp < 100 * 16 → t.clk.thermal = s.clk.thermal - 1) ∧
      (100 * 16 ≤ t.clk.temp → t.clk.temp ≤ 105 * 16 → t.clk.thermal = s.clk.thermal) ∧
      ∀ q, lookD t.clk.droop q 0 = min (lookD s.clk.droop q 0) (4 - t.clk.thermal)) ∧
    ∀ (x : Slot) before after, s.clk.slots = before ++ x :: after →
      (x.stretched = none → x.stop ≤ now → (∀ y ∈ before, y.stretched.isSome ∨ now < y.stop) → ∀ overran ctrl, s.arg = .two overran ctrl →
        let late := if x.cls = .retrain then Trains s x else x.cls = .refresh ∧ 0 < s.clk.skipped ∨ overran ≠ 0
        (¬ late → Gives .slotEnd s fun t => SlotGone s t x (before ++ after) ∧ x.cls ∉ t.clk.owed ∧
          (NothingHeld s → t.mem = s.mem) ∧ t.strands = s.strands) ∧
        (late → Gives .slotEnd s fun t => (NothingHeld s → t.mem = s.mem) ∧ t.strands = s.strands ∧ t.clk.retrains = s.clk.retrains ∧
          t.clk.slots = { x with stretched := some (if x.cls = .retrain then 255 else ctrl % 32) } :: (before ++ after))) ∧
      (∀ ctrl done, x.stretched = some ctrl → x.stop < now → (∀ y ∈ before, y.stretched = none ∨ now ≤ y.stop) →
        s.arg = .one done →
        let left := if x.cls = .retrain then Trains s x else done = 0
        ¬ left ∨ x.stop + 2000 ≤ now →
        Gives .slotStretchEnd s fun t => SlotGone s t x (before ++ after) ∧ t.strands = s.strands ∧
          (x.cls ∈ t.clk.owed ↔ left) ∧ t.clk.skipped ≤ s.clk.skipped ∧
          (x.cls = .refresh → ¬ left → 0 < s.clk.skipped → t.clk.skipped < s.clk.skipped) ∧
          Counts s t (0x1850 + classNo x.cls) ∧
          Posted s t)

/-- A droop step at a quad: counted where the quad's clock has fewer than four steps; where it has four none is added, and a sag that
sets in at four thermal steps is counted alone (R390, R391, R431). -/
def Sys2Proof.Claims.Slows (s t : State) (q : Nat) (sag : Bool) : Prop :=
  t.mem = s.mem ∧ t.strands = s.strands ∧ t.clk.thermal = s.clk.thermal ∧
    (lookD s.clk.droop q 0 + s.clk.thermal < 4 → Sys2Proof.Claims.Counts s t (0x1800 + q) ∧
      lookD t.clk.droop q 0 = lookD s.clk.droop q 0 + 1 ∧ ∀ x, x ≠ q → lookD t.clk.droop x 0 = lookD s.clk.droop x 0) ∧
    (4 ≤ lookD s.clk.droop q 0 + s.clk.thermal → t.clk.droop = s.clk.droop ∧
      if sag = true ∧ 4 ≤ s.clk.thermal then Sys2Proof.Claims.Counts s t (0x1800 + q) else t.keep = s.keep)

/-- A sag slows its quad's clock by a counted step at a time, one every 2 ns while it persists, to at most four with the thermal steps;
once the supply has recovered a step is removed every microsecond; at 120 °C every part but the keeper is held in reset (R390, R391,
R433). -/
def Sys2Proof.Claims.ClocksSlow : Prop :=
  ∀ (s : State) q, s.arg = .one q →
    (q < 48 → look s.clk.sagging q = none → Gives .droopDetect s fun t => Slows s t q true ∧
      t.clk.sagging = put s.clk.sagging q (s.clk.tb + 2 * 2 ^ 16) ∧ look t.clk.recovering q = none) ∧
    (∀ x, look s.clk.sagging q = some x → x ≤ s.clk.tb → Gives .droopStep s fun t => Slows s t q false ∧
      t.clk.sagging = put s.clk.sagging q (x + 2 * 2 ^ 16) ∧ t.clk.recovering = s.clk.recovering) ∧
    ((look s.clk.sagging q).isSome → exec .droopStepRemove s = .next { s with clk := { s.clk with
      sagging := del s.clk.sagging q, recovering := put s.clk.recovering q (s.clk.tb + 1000 * 2 ^ 16) } }) ∧
    (∀ x, look s.clk.sagging q = none → look s.clk.recovering q = some x → x ≤ s.clk.tb → Gives .droopStepRemove s fun t =>
      t = { s with clk := t.clk } ∧ lookD t.clk.droop q 0 = lookD s.clk.droop q 0 - 1 ∧
      (∀ y, y ≠ q → lookD t.clk.droop y 0 = lookD s.clk.droop y 0) ∧ t.clk.sagging = s.clk.sagging ∧
      t.clk.recovering = if lookD s.clk.droop q 0 ≤ 1 then del s.clk.recovering q else put s.clk.recovering q (x + 1000 * 2 ^ 16)) ∧
    (120 * 16 ≤ q → Gives .thermalShutdown s fun t => t.keep.held = true ∧ t.keep.released = 0 ∧
      t.keep.images = s.keep.images ∧ t.keep.log = s.keep.log ∧ t.keep.failed = s.keep.failed ∧ t.keep.busy = s.keep.busy ∧
      t.keep.err = s.keep.err ∧ t.keep.data = s.keep.data ∧ t.keep.mgmt = s.keep.mgmt ++ [.overTemperature] ∧
      lookD t.keep.counters 0x1840 0 = q ∧ t.strands = [] ∧ t.cmd = State.reset.cmd ∧ t.sreg = State.reset.sreg ∧ t.mem.bytes = [])

/-- The masters heard within their last three announce intervals. -/
def Sys2Proof.Claims.mastersHeard (c : Clock) : List (Announce × Nat) :=
  c.masters.filter fun e => decide (c.tb < e.2 + 3 * e.1.interval * 2 ^ 16)

/-- The order of announced data sets: that of the grandmasters', and of one grandmaster that of the nearer (R327; the model takes it
from IEEE 1588, log 44). -/
def Sys2Proof.Claims.Better (a b : Announce) : Prop :=
  if a.grandmaster = b.grandmaster then [a.steps, a.master, a.port] ≤ [b.steps, b.master, b.port]
  else [a.priority, a.clockClass, a.accuracy, a.variance, a.priority2, a.grandmaster] ≤
    [b.priority, b.clockClass, b.accuracy, b.variance, b.priority2, b.grandmaster]

/-- One of a list of masters is better than every other. -/
def Sys2Proof.Claims.BestOf (l : List (Announce × Nat)) (e : Announce × Nat) : Prop :=
  ∀ x ∈ l, x ≠ e → ¬ Sys2Proof.Claims.Better x.1 e.1

/-- The announce interval that counts: that of the best of the masters heard, else that of the master last kept, else 2 s (R328). -/
def Sys2Proof.Claims.Interval (c : Clock) (n : Nat) : Prop :=
  (∃ e ∈ Sys2Proof.Claims.mastersHeard c, Sys2Proof.Claims.BestOf (Sys2Proof.Claims.mastersHeard c) e ∧ n = e.1.interval) ∨
    Sys2Proof.Claims.mastersHeard c = [] ∧ n = match c.master with | some m => m.interval | none => 2000000000

/-- The port that tb_ctl names hears PTP: the management port, or one whose link carries traffic (R327, R425). -/
def Sys2Proof.Claims.Hears (s : State) : Prop :=
  s.clk.port = 8 ∨ linkSt s s.clk.port = .up ∨ linkSt s s.clk.port = .retrainPending

/-- The timebase passes through the states of R328: `en` starts the servo or frees it; a Sync message moves it on by the size of the
offset; three announce intervals without one bring holdover; the best of the masters heard in their last three announce intervals is
kept, by the order of IEEE 1588 (the model takes it from there, log 44); a port that carries no traffic hears none (R425). The count
steps only where R329 allows it, for a Sync message and for a write of tb_set, and the calendar moves with it; that a write of tb_set
clears the fraction of a nanosecond is the model's choice (log 55). -/
def Sys2Proof.Claims.TimebaseDisciplined : Prop :=
  ∀ s : State,
    (∀ p v, s.arg = .val p v → v.toNat / 2 ^ 8 % 16 ≤ 8 →
      (v.getLsbD 31 = true → Gives .tbEnSet s fun t => t.clk.en = true ∧ t.clk.stepOk = v.getLsbD 30 ∧ t.clk.tb = s.clk.tb ∧
        t.clk.port = v.toNat / 2 ^ 8 % 16 ∧ t.clk.domain = v.toNat % 2 ^ 7 ∧ t = { s with clk := t.clk } ∧
        (s.clk.en = false → t.clk.st = .locking ∧ t.clk.good = 0 ∧ t.clk.master = none ∧ t.clk.lastSync = s.clk.tb) ∧
        (s.clk.en = true → t.clk.st = s.clk.st)) ∧
      (v.getLsbD 31 = false → Gives .tbEnClear s fun t => t.clk.en = false ∧ t.clk.st = .free ∧ t.clk.tb = s.clk.tb ∧
        t = { s with clk := t.clk })) ∧
    (∀ o, s.arg = .int o → ¬ Sys2Proof.Claims.Hears s → exec .ptpSync s = .next s) ∧
    (∀ o, s.arg = .int o → s.clk.st ≠ .free → Sys2Proof.Claims.Hears s → Gives .ptpSync s fun t => t.clk.offset = o ∧ t.mem = s.mem ∧
      (s.clk.st = .locking → o.natAbs ≤ 100 → t.clk.st = if s.clk.good + 1 ≥ 16 then .locked else .locking) ∧
      (s.clk.st = .locking → o.natAbs > 100 → t.clk.st = .locking ∧ t.clk.good = 0) ∧
      (s.clk.st = .locked → t.clk.st = if o.natAbs > 1000 then .locking else .locked) ∧
      (s.clk.st = .holdover → t.clk.st = .locking) ∧
      (let step := s.clk.st = .locking ∧ o.natAbs > 1000000 ∧ s.clk.stepOk = true ∧ ∀ x ∈ s.strips.streams, x.2.active = false
       (step → Stepped s t (s.clk.tb - o * 2 ^ 16).toNat) ∧
       (¬ step → t.clk.tb = s.clk.tb ∧ t.strands = s.strands ∧ t.clk.slots = s.clk.slots))) ∧
    (s.clk.st = .locking ∨ s.clk.st = .locked → ∀ n, Sys2Proof.Claims.Interval s.clk n →
      s.clk.lastSync + 3 * n * 2 ^ 16 ≤ s.clk.tb →
      exec .ptpSyncTimeout s = .next { s with clk := { s.clk with st := .holdover } }) ∧
    (∀ a, s.arg = .announce a → s.clk.en = true → Sys2Proof.Claims.Hears s → 0 < a.interval → Gives .ptpAnnounce s fun t =>
      t = { s with clk := { s.clk with masters := t.clk.masters, master := t.clk.master } } ∧
      t.clk.masters = (a, s.clk.tb) :: (Sys2Proof.Claims.mastersHeard s.clk).filter (fun e => e.1.master != a.master || e.1.port != a.port) ∧
      ∀ e ∈ t.clk.masters, Sys2Proof.Claims.BestOf t.clk.masters e → t.clk.master = some e.1) ∧
    ∀ p v, s.arg = .val p v → s.clk.st = .free → (∀ x ∈ s.strips.streams, x.2.active = false) →
      Gives .tbSet s fun t => Stepped s t (v.toNat * 2 ^ 16)

/-- SlotsTold and SlotsPass together. -/
def Obligations.SlotsRun : Prop := Sys2Proof.Claims.SlotsTold ∧ Sys2Proof.Claims.SlotsPass

/-- ClocksSlow and TimebaseDisciplined together. -/
def Obligations.ClocksKept : Prop := Sys2Proof.Claims.ClocksSlow ∧ Sys2Proof.Claims.TimebaseDisciplined

namespace Sys2Proof.Claims
open Sys2Proof Sys2Proof.Machine

/-! ### Saving (R321, R405 to R407) -/

/-- Bytes of memory are those of a number in little-endian order. -/
def Bytes (s : State) (pa n v : Nat) : Prop := s.mem.read pa n = toLE n v

/-- Where the control record of a strand lies in its save area, and the bead shadow of bead j (R406). -/
def recordAt (st : Strand) : Nat := 0x1000 + 512 * st.sx
/-- Where the bead shadow of bead j lies. -/
def shadowAt (st : Strand) (j : Nat) : Nat := 65536 * (1 + st.sx / 4) + 16384 * (st.sx % 4) + 16384 - 64 * (st.width - j)

/-- The save area at pa holds a control flow and barycentrics as R407 lays them out for a strand: the innermost entries and
levels last. -/
def Records (s : State) (pa : Nat) (st : Strand) (f : Flow) (bary : SMap Word) : Prop :=
  let c := pa + recordAt st
  Bytes s c 4 f.winBase ∧ Bytes s (c + 4) 2 f.divDepth ∧ Bytes s (c + 6) 1 f.loops.length ∧
    (∀ (k : Nat) e, f.divTop.reverse[k]? = some e → s.mem.read (c + 16 + 16 * k) 16 = divBytes e) ∧
    (∀ (k : Nat) l, f.loops.reverse[k]? = some l → Bytes s (c + 272 + 16 * k) 4 l.start.toNat ∧
      Bytes s (c + 276 + 16 * k) 4 l.stop.toNat ∧ Bytes s (c + 280 + 16 * k) 4 l.lc.toNat ∧ Bytes s (c + 284 + 16 * k) 1 l.d ∧
      Bytes s (c + 285 + 16 * k) 2 l.frame) ∧
    ∀ j < st.width, (liveMask st).getLsbD j = true →
      (let b := pa + shadowAt st j
       let cs := lookD f.calls j {}
       (∀ (k : Nat) r, cs.top.reverse[k]? = some r → s.mem.read (b + 8 * k) 8 = retBytes r) ∧ Bytes s (b + 32) 4 cs.depth ∧
         ∀ k < 4, Bytes s (b + 40 + 4 * k) 4 (lookD bary (4 * j + k) 0).toNat)

/-- A control flow as a save area can hold it: as many entries on chip as R75 and R80 keep there, and fields in their ranges. -/
def Fits (st : Strand) (f : Flow) : Prop :=
  f.winBase < 2 ^ 32 ∧ f.divDepth < 2 ^ 16 ∧ f.divTop.length = min f.divDepth 16 ∧ f.loops.length ≤ 4 ∧
    (∀ e ∈ f.divTop, divOfBytes (divBytes e) = e) ∧ (∀ l ∈ f.loops, l.d < 256 ∧ l.frame < 2 ^ 16) ∧
    ∀ j < st.width, (lookD f.calls j {}).depth < 2 ^ 32 ∧ (lookD f.calls j {}).top.length = min (lookD f.calls j {}).depth 4 ∧
      ∀ r ∈ (lookD f.calls j {}).top, retOfBytes (retBytes r) = r

/-- The bytes of a strand's records: the eight pieces of its control record and the shadows of its beads. -/
def Piece (st : Strand) (o : Nat) : Prop :=
  (∃ k < 8, o = recordAt st + 64 * k) ∨ ∃ j < st.width, (liveMask st).getLsbD j = true ∧ o = shadowAt st j

/-- The strand waits for a command of sh_ctl, its save area lies at pa, its accesses there meet only bytes, and nothing else is under
way on the bead path (R405, R406). -/
def Shadowing (s : State) (sid : Nat) (st : Strand) (need : Need) (cmd pa : Nat) : Prop :=
  s.arg = .one sid ∧ look s.strands sid = some st ∧ st.run = .blocked .shadow ∧ st.shCmd = cmd ∧ st.sx < 16 ∧ st.width ≤ 64 ∧
    st.save.toNat + 2 ^ 20 ≤ 2 ^ 64 ∧ s.flight.stores = [] ∧ s.flight.atoms = [] ∧ s.flight.loads = [] ∧ s.eng.links = [] ∧
    ∀ o, Piece st o → Hits s st .b need (st.save.toNat + o) 64 (pa + o) 0 ∧ AtRest s (pa + o) 64 0 ∧ heldBySlot s (pa + o) 64 = false

/-! ### Kernels (R312 to R323) -/

/-- A kernel is accepted or refused under the next id: its record, its braids, and the error that its signal will carry (R165, R315,
R316). -/
def Accepted (s t : State) (ctx : Nat) (r : LaunchRec) (origin : Origin) (know : List Known) : Prop :=
  let kid := s.cmd.nextKernel
  t.cmd.nextKernel = (if kid = 0x7FFFFFFF then 1 else kid + 1) ∧
    (∀ x, x ≠ kid → look t.cmd.kernels x = look s.cmd.kernels x) ∧
    ∃ k, look t.cmd.kernels kid = some k ∧ k.ctx = ctx ∧ k.lrec = r ∧ k.origin = origin ∧ k.know = know ∧ k.kind = 0 ∧
      k.strip = r.prio ∧ k.placed = [] ∧
      (refuseCode s ctx r r.prio true = none → k.err = 0 ∧ k.total = r.gx * r.gy * r.gz * if r.lk then 2 else 1) ∧
      ∀ c, refuseCode s ctx r r.prio true = some c → k.err = BitVec.ofNat 32 (0x100 + c) ∧ k.total = 0

/-- The strand holds a word in each register of a list, and 0 in every other (R320). -/
def Preloaded (st : Strand) (l : List (Nat × Word)) : Prop :=
  (∀ n, getKey st (.u n) = { val := (l.lookup n).getD 0 }) ∧ ∀ n, getKey st (.b n) = {}

end Sys2Proof.Claims

/-- SH_SAVE writes the strand's interrupted control flow and barycentrics into its save area as R407 lays them out, and no byte
outside its pieces; in a deterministic kernel it stages those writes, its save area being no window (R200); SH_LOAD installs what such
an area holds, without the beads that have retired (R76); SH_PARK stops the strand once its accesses have performed; BRAID_SAVED
takes a braid whose strands have all parked off its core (R321, R405 to R407). -/
def Obligations.StrandsSaved : Prop :=
  (∀ (s : State) sid (st : Strand) pa, Shadowing s sid st .write 1 pa → Fits st st.savedFlow → (kernelOf s st).lrec.det = false →
    GivesSt .shSave s sid fun t st' => st'.shCmd = 4 ∧ st'.rest = { st.rest with shCmd := 4 } ∧
      Records t pa st st.savedFlow st.bary ∧
      ∀ a, (∀ o, Piece st o → a < pa + o ∨ pa + o + 64 ≤ a) → t.mem.byteAt a = s.mem.byteAt a) ∧
  (∀ (s : State) sid (st : Strand) pa b, Shadowing s sid st .write 1 pa → (∀ o, Piece st o → isStaged s st (st.save.toNat + o) 64 = true) →
    look s.braids st.braid = some b → isHead s b = true → b.staged.length + 8 + st.width < 16384 →
    GivesSt .shSave s sid fun t st' => st'.shCmd = 4 ∧ SameBytes s t ∧ ∃ b' l, look t.braids st.braid = some b' ∧
      b'.staged = b.staged ++ l ∧ ∀ x ∈ l, ∃ o, Piece st o ∧ x.va = st.save.toNat + o ∧ x.pa = pa + o) ∧
  (∀ (s : State) sid (st : Strand) pa f bary, Shadowing s sid st .read 2 pa → Fits st f → Records s pa st f bary →
    (kernelOf s st).lrec.det = false →
    (∀ o, Piece st o → ∀ b, pa + o ≤ b → b < pa + o + 64 → ∀ w, newestWrite s b = some w → (w, Path.b) ∈ st.know) →
    (∀ o, Piece st o → ∀ kn, awaitsWrite s (some sid) kn .b (pa + o) 64 = false) →
    GivesSt .shLoad s sid fun t st' => st'.shCmd = 4 ∧ SameBytes s t ∧ st'.pc = st.pc ∧ st'.flow = st.flow ∧
      st'.savedFlow.winBase = f.winBase ∧ st'.savedFlow.divDepth = f.divDepth ∧
      st'.savedFlow.divTop = f.divTop.map (fun e => { e with mask := e.mask &&& liveMask st }) ∧
      st'.savedFlow.loops = f.loops ∧ st'.savedFlow.mask = st.savedFlow.mask ∧
      ∀ j < st.width, (liveMask st).getLsbD j = true → lookD st'.savedFlow.calls j {} = lookD f.calls j {} ∧
        ∀ k < 4, lookD st'.bary (4 * j + k) 0 = lookD bary (4 * j + k) 0) ∧
  (∀ (s : State) sid (st : Strand), s.arg = .one sid → look s.strands sid = some st → st.run = .blocked .shadow → st.shCmd = 3 →
    ownOps s sid = [] → (∀ x ∈ s.flight.spawns, x.sid ≠ sid) → (∀ q ∈ s.eng.mq, ∀ e ∈ q.2, e.sid ≠ sid) →
    exec .shPark s = .next { s with strands := put s.strands sid { st with shCmd := 0, run := .parked } }) ∧
  ∀ (s : State) bid b, s.arg = .one bid → look s.braids bid = some b → b.st = .placed → b.capture = false →
    (∃ e ∈ s.strands, e.2.braid = bid) → (∀ e ∈ s.strands, e.2.braid = bid → e.2.run = .parked ∧ performedAll s e.1 = true) →
    Gives .braidSaved s fun t => t.strands = s.strands ∧ t.mem = s.mem ∧ t.queues = s.queues ∧
      (∀ x, x ≠ bid → look t.braids x = look s.braids x) ∧
      (∃ b', look t.braids bid = some b' ∧ b'.tiles = [] ∧ b'.hinges = b.hinges ∧ b'.saveVault = b.saveVault ∧
        b'.saveOff = b.saveOff ∧ b'.st = match b.swapRec with
          | some r => if (look s.trans.miss (r.1 * 64 + r.2)).any (·.pending) then .swapped else .saved
          | none => .saved) ∧
      ∀ n ∈ b.tiles, ∃ z ∈ t.trans.zeroing, z.tile = some (b.core * 3 + n)

/-- LAUNCH reads the record of 192 bytes that its pair names and hands it over, and LAUNCH_ACCEPTANCE gives its destination the new
kernel's id, or 0x80000100 and the code of R315; a LAUNCH packet makes a kernel of its payload the same way (R315, R316, R324,
R325). -/
def Obligations.LaunchesAccepted : Prop :=
  (∀ (s : State) (st : Strand) d a (p : Nat → Nat) key, Issues s st → Alive st → PlainNext st → st.inTrap = false → uniDstOk st d = true →
    uniPairOk st a = true → (∀ x ∈ pairOf a ++ [d], (fillOf st 255 x).isFull = true) → (kernelOf s st).lrec.det = false →
    (readPair st 255 a).toNat % 64 = 0 → s.flight.stores = [] → s.flight.atoms = [] → s.flight.loads = [] → s.eng.links = [] →
    s.flight.launches.length < 256 →
    (∀ k < 3, Hits s st .b .read (((readPair st 255 a).toNat + 64 * k) % 2 ^ 64) 64 (p k) key ∧ AtRest s (p k) 64 key ∧
      heldBySlot s (p k) 64 = false ∧ Fresh s st.know (p k) 64 ∧ ∀ kn, awaitsWrite s (some s.cur) kn .b (p k) 64 = false) →
    GivesSt (.launch d a) s s.cur fun t st' => st'.pc = st.pc + 4 ∧ st'.run = .ready ∧ st'.flow = st.flow ∧
      LeftDue st st' true [d] ∧ SameBytes s t ∧ t.cmd = s.cmd ∧
      ∃ op : LaunchOp, t.flight.launches = s.flight.launches ++ [op] ∧ op.sid = s.cur ∧ op.ctx = st.ctx ∧ op.dst = regKeys st 255 [d] ∧
        op.lrec = parseRecord (s.mem.read (p 0) 64 ++ s.mem.read (p 1) 64 ++ s.mem.read (p 2) 64)) ∧
  (∀ (s : State) (id : Nat) (op : LaunchOp) (st : Strand), s.arg = .one id → s.flight.launches.find? (fun x => x.id == id) = some op → op.id = id → cmdUp s = true →
    (∀ x ∈ s.flight.launches, x.sid = op.sid → id ≤ x.id) → look s.strands op.sid = some st →
    GivesSt .launchAcceptance s op.sid fun t st' => Accepted s t op.ctx op.lrec (.insn op.sid) op.know ∧ t.mem = s.mem ∧
      (∀ x ∈ t.flight.launches, x.id ≠ id) ∧
      st' = fillKeys st op.dst [match refuseCode s op.ctx op.lrec op.lrec.prio true with
        | some c => BitVec.ofNat 32 (0x80000100 + c) | none => BitVec.ofNat 32 s.cmd.nextKernel]) ∧
  ∀ (s : State) cq p, s.arg = .one cq → packetAt s cq = some p → p.type = 1 → p.len = 192 → p.clean = true → cqTakes s cq = true →
    SameBytes s (packetSeen s cq p) →
    Gives .launchPacket s fun t => Accepted s t p.ctx (parseRecord (toLE 192 p.body)) (.packet cq) (cqOf s cq).know ∧
      SameBytes s t ∧ t.strands = s.strands ∧ (cqOf t cq).head = ((cqOf s cq).head + 208) % 2 ^ 64 ∧
      (cqOf t cq).kernels = (cqOf s cq).kernels ++ [s.cmd.nextKernel]

/-- BRAID_PLACE places a braid that the distributor offers on a core with room for it: its strands start at the record's entry with
all beads, R320's preloads, and every other register 0 and full. BRAID_RESTORE starts the strands of a saved braid again at its
resume entry, in trap mode, with the beads that have not retired (R317, R320, R321, R409). -/
def Obligations.BraidsPlaced : Prop :=
  (∀ (s : State) kid index core k, s.arg = .three kid index core → Offer.fresh kid index ∈ openOffers s →
    look s.cmd.kernels kid = some k → k.kind = 0 → k.formed = [] → k.lrec.lk = false → (∃ q, k.origin = .packet q) →
    (placeOn s kid index core).isSome →
    let r := k.lrec
    Gives .braidPlace s fun t => t.mem = s.mem ∧ t.nextBid = s.nextBid + 1 ∧ t.nextSid = s.nextSid + r.nstr + 1 ∧
      (∀ x, x < s.nextSid → look t.strands x = look s.strands x) ∧ (∀ x, x ≠ s.nextBid → look t.braids x = look s.braids x) ∧
      ∃ b, look t.braids s.nextBid = some b ∧ b.kernel = kid ∧ b.index = index ∧ b.ctx = k.ctx ∧ b.core = core ∧ b.st = .placed ∧
        b.locket = none ∧ b.tiles.length = r.tiles ∧ ∀ x ≤ r.nstr, ∃ st, look t.strands (s.nextSid + x) = some st ∧
          st.braid = s.nextBid ∧ st.kernel = kid ∧ st.ctx = k.ctx ∧ st.core = core ∧ st.sx = x ∧ st.width = 16 * 2 ^ r.wc ∧
          st.regs = 16 * (r.rc + 1) ∧ st.uregs = 8 * (r.uc + 1) ∧ st.pc = r.entry ∧ st.run = .ready ∧ st.inTrap = false ∧
          (∀ j < 64, st.flow.mask.getLsbD j = decide (j < 16 * 2 ^ r.wc)) ∧ st.flow.divDepth = 0 ∧ st.flow.loops = [] ∧
          st.stkLimit = BitVec.ofNat 32 (16 * r.stk) ∧ st.know = k.know ∧
          (let w := 0x1FFE0000000000 + core * 2 ^ 33 + b.slot * 2 ^ 24
           Preloaded st [(0, r.args.setWidth 32), (1, (r.args >>> 32).setWidth 32), (2, BitVec.ofNat 32 w),
             (3, BitVec.ofNat 32 (w / 2 ^ 32)), (4, BitVec.ofNat 32 index), (5, BitVec.ofNat 32 x)])) ∧
  ∀ (s : State) bid core b, s.arg = .two bid core → Offer.saved bid ∈ openOffers s → look s.braids bid = some b → b.mate = none →
    (restoreOn s bid core).isSome →
    Gives .braidRestore s fun t => t.mem = s.mem ∧
      (∃ b', look t.braids bid = some b' ∧ b'.st = .placed ∧ b'.core = core ∧ b'.mcCount = 0 ∧ b'.mcStore = [] ∧ b'.saveVault = b.saveVault ∧
        b'.saveOff = b.saveOff ∧ b'.hinges = b.hinges ∧ ∀ x st, look s.strands x = some st → st.braid = bid →
          ∃ st', look t.strands x = some st' ∧ st'.pc = (lookD s.cmd.kernels b.kernel {}).lrec.resume ∧ st'.inTrap = true ∧
            st'.run = .ready ∧ st'.flow.mask = liveMask st ∧ st'.retired = st.retired ∧ st'.core = core ∧ st'.know = st.know ∧
            st'.ports = st.ports ∧ st'.trap.cause = st.trap.cause ∧
            (let a := 0x1FFD0000000000 + b.saveVault * 2 ^ 26 + b.saveOff
             let w := 0x1FFE0000000000 + core * 2 ^ 33 + b'.slot * 2 ^ 24
             Preloaded st' [(32, BitVec.ofNat 32 a), (33, BitVec.ofNat 32 (a / 2 ^ 32)), (34, BitVec.ofNat 32 w),
               (35, BitVec.ofNat 32 (w / 2 ^ 32))])) ∧
      ∀ x st, look s.strands x = some st → st.braid ≠ bid → look t.strands x = some st

namespace Sys2Proof.Claims
open Sys2Proof Sys2Proof.Machine

/-- Memory after a staged entry is performed again: a store lays its bytes down, and an atomic the result on the value that it meets
(R200, R218). -/
def released (m : Nat → Byte) (x : Staged) : Nat → Byte :=
  let n := x.bytes.length
  let old := BitVec.ofNat (8 * n) (ofLE ((List.range n).map fun k => m (x.pa + k)))
  let bs := if x.form = 0 then x.bytes
    else toLE n (atomResult x.form (8 * n) old (BitVec.ofNat (8 * n) (ofLE x.bytes)) (BitVec.ofNat (8 * n) x.cmp.toNat)).toNat
  fun a => if x.pa ≤ a ∧ a < x.pa + n then bs.getD (a - x.pa) 0 else m a

/-- A staged entry: a store, or an atomic of a width that it has (R200, R201). -/
def Entry (x : Staged) : Prop :=
  x.form = 0 ∧ x.bytes ≠ [] ∨
    0x56 ≤ x.form ∧ x.form ≤ 0x60 ∧ (x.bytes.length = 4 ∨ x.bytes.length = 8) ∧ (x.form = 0x57 → x.bytes.length = 4)

/-- A kernel has ended but for its signal: every braid is released, and no command, fragment or triangle of it is under way (R323). -/
def EndsNow (s : State) (kid : Nat) (k : Kernel) : Prop :=
  k.open_ = false ∧ k.formed = [] ∧ k.released.length = (if k.discarded then k.placed.length else k.total) ∧
    (∀ c ∈ s.ctxs, ∀ f ∈ c.2.futures, f.2.st = .pending → f.2.kernel = kid → f.2.join.isSome) ∧
    (∀ f ∈ s.strips.frags, f.2.kernel ≠ kid) ∧ ∀ x ∈ s.flight.bins, x.kernel ≠ kid

/-- The wait of a strand on a pending miss record is one of the two that swap its braid out: longer than `swap_thr`, or while a
member waits at a hinge at which the strand has not arrived (R322). -/
def SwapsOut (s : State) (st : Strand) : Prop :=
  let thr := (sregOf s 0x10).toNat % 2 ^ 16
  (thr ≠ 0 ∧ s.clk.tb > st.blockedAt + thr * 1000 * 2 ^ 16) ∨
    ∃ (h : Fin 24) (bid m : Nat) (hg : Hinge), Member s st h bid m hg ∧ hg.arrived.testBit m = false ∧
      ∃ x ∈ s.strands, hingeBlocked s x.2 = some h.val ∧ hingeHome s x.2 h = bid

end Sys2Proof.Claims

/-- SWAP_OUT asks every strand of a braid and of its mate to save itself for a miss that keeps one of them waiting; DETERMINISTIC_RELEASE
performs a retired braid's staged stores and atomics in order once all lower braids are released, so that a later entry wins where two
overlap; KERNEL_END writes the completion signal: its value one higher, the times of the first placement and of the end, the error and
the status (R218, R282, R283, R322, R323). -/
def Obligations.KernelsEnd : Prop :=
  (∀ (s : State) sid (st : Strand) b q r need va m, s.arg = .one sid → look s.strands sid = some st → st.run = .blocked (.miss q r need va) →
    look s.braids st.braid = some b → b.st = .placed → b.swapRec = none → b.saving = false → savable (kernelOf s st) = true →
    look s.trans.miss (q * 64 + r) = some m → m.pending = true → SwapsOut s st → Gives .swapOut s fun t => t.mem = s.mem ∧
      (∃ b', look t.braids st.braid = some b' ∧ b'.swapRec = some (q, r)) ∧
      ∀ x y, look s.strands x = some y → y.held = [] → y.inTrap = false → look t.strands x = some
        (if y.braid = st.braid ∨ some y.braid = b.mate then { y with held := [{ cause := 0x11, info := 1 }] } else y)) ∧
  (∀ (s : State) bid b k key, s.arg = .one bid → look s.braids bid = some b → b.st = .retired → look s.cmd.kernels b.kernel = some k →
    (∀ x < b.index, x ∈ k.released) → lpddrHeld s = false → NoSaves s →
    (∀ x ∈ b.staged, Entry x ∧ x.key = key ∧ entryHolds s b.ctx x = true ∧ AtRest s x.pa x.bytes.length key) →
    Gives .deterministicRelease s fun t => look t.braids bid = none ∧ t.strands = s.strands ∧
      (lookD t.cmd.kernels b.kernel {}).released = b.index :: k.released ∧
      ∀ a, t.mem.byteAt a = (b.staged.foldl released s.mem.byteAt) a) ∧
  ∀ (s : State) kid k, s.arg = .one kid → cmdUp s = true → look s.cmd.kernels kid = some k → k.stall = none → EndsNow s kid k →
    (∀ x ∈ s.keep.due, x ≠ kid → ∀ y, look s.cmd.kernels x = some y → y.stall.isSome) → (∃ q, k.origin = .packet q) →
    (let Ends := fun (t : State) => look t.cmd.kernels kid = none ∧ t.strands = s.strands
     let now := s.clk.tb / 2 ^ 16
     (k.lrec.signal = 0 → Gives .kernelEnd s fun t => Ends t ∧ t.mem = s.mem) ∧
     (k.lrec.signal ≠ 0 → k.lrec.signal % 32 ≠ 0 ∨ k.lost = true → Gives .kernelEnd s fun t => Ends t ∧
       Posted s t) ∧
     ∀ pa key, k.lrec.signal ≠ 0 → k.lrec.signal % 32 = 0 → k.lost = false → NoSaves s →
       (∃ pin, translation s { ctx := k.ctx, quad := 0, need := .both, given := k.given.toList } k.lrec.signal 32 = (.ok pa key pin, s)) →
       AtRest s pa 32 key → heldBySlot s pa 32 = false → Gives .kernelEnd s fun t => Ends t ∧ ∃ sys : Bool, sys = decide (signalScope s pa .device = .system) ∧
         Stored s t pa (toLE 8 (ofLE (s.mem.read pa 8) + 1) ++ toLE 8 (k.t0.getD now) ++ toLE 8 now ++ toLE 4 k.err.toNat ++
           toLE 4 (1 + (if k.err = 0 then 0 else 2) + if sys then 4 else 0)))

namespace Sys2Proof.Claims
open Sys2Proof Sys2Proof.Machine

/-! ### Command queues, packets and contexts (R156 to R166, R286 to R291, R304 to R309, R422, R446) -/

/-- A well-formed packet of a type and a length stands at the head of a queue that takes it, or that holds it as it says, and the
read of its ring changes no byte (R179, R306, R422). -/
def Heads (s : State) (cq : Nat) (p : Packet) (type len : Nat) (held : HeldPacket) : Prop :=
  s.arg = .one cq ∧ packetAt s cq = some p ∧ p.type = type ∧ p.len = len ∧ p.clean = true ∧ (cqOf s cq).held = held ∧
    (held = .none → cqTakes s cq = true) ∧ cmdUp s = true ∧ SameBytes s (packetSeen s cq p)

/-- The queue has moved on behind its packet; no other queue and no strand has changed. -/
def Took (s t : State) (cq : Nat) (p : Packet) : Prop :=
  (cqOf t cq).head = ((cqOf s cq).head + 16 + p.len) % 2 ^ 64 ∧ (cqOf t cq).held = .none ∧ (∀ x, x ≠ cq → cqOf t x = cqOf s x) ∧
    t.strands = s.strands

/-- The packet waits, in process as it was read; nothing else has changed (R422). -/
def Waits (s t : State) (cq : Nat) (p : Packet) (held : HeldPacket) : Prop :=
  (cqOf t cq).held = held ∧ (cqOf t cq).packet = some p ∧ (cqOf t cq).head = (cqOf s cq).head ∧ (∀ x, x ≠ cq → cqOf t x = cqOf s x) ∧ t.strands = s.strands ∧
    t.queues = s.queues ∧ t.ctxs = s.ctxs ∧ SameBytes s t

/-- A packet is rejected: the queue moves on, an event is posted where the ring has room, and no queue or context changes (R161). -/
def Rejected (s t : State) (cq : Nat) (p : Packet) : Prop :=
  (cqOf t cq).head = ((cqOf s cq).head + 16 + p.len) % 2 ^ 64 ∧ t.strands = s.strands ∧ t.queues = s.queues ∧ t.ctxs = s.ctxs ∧
    Posted s t

/-- The command processor's own access reaches pa without a walk, and meets only bytes there (R446). -/
def CpReaches (s : State) (cq ctx : Nat) (need : Need) (va n pa key : Nat) : Prop :=
  (cqOf s cq).faulted = false ∧
    (∃ pin, translation s { ctx := ctx, quad := 0, need := need, given := (cqOf s cq).given.toList } va n = (.ok pa key pin, s)) ∧
    AtRest s pa n key ∧ heldBySlot s pa n = false

/-- The same, once the packet itself has been read. -/
def CpReachesAt (s : State) (cq : Nat) (p : Packet) (ctx : Nat) (need : Need) (va n pa key : Nat) : Prop :=
  CpReaches (packetSeen s cq p) cq ctx need va n pa key

/-- The context of a packet. -/
def ctxOf (s : State) (p : Packet) : Context := lookD s.ctxs p.ctx {}

/-- Only the record of one context differs. -/
def OneCtx (s t : State) (c : Nat) : Prop := ∀ x, x ≠ c → look t.ctxs x = look s.ctxs x

/-- A packet of QUEUE_SET or CONTEXT_SET of the supervisor's, with its op (R166, R287). -/
def Sets (s : State) (cq : Nat) (p : Packet) (type len mbzLo op : Nat) : Prop :=
  Heads s cq p type len .none ∧ p.sup = true ∧ fieldOf p.body 55 mbzLo = 0 ∧ fieldOf p.body 63 56 = op

/-- Nothing is translated for a context, or waits to be (R155). -/
def Forgotten (s : State) (c : Nat) : Prop :=
  (∀ e ∈ s.trans.miss, e.2.ctx ≠ c) ∧ (∀ e ∈ s.strands, ∀ g, e.2.given = some g → g.ctx ≠ c) ∧
    ∀ e ∈ s.cmd.cqs, ∀ g, e.2.given = some g → g.ctx ≠ c

end Sys2Proof.Claims

/-- A write of cq_ctl with a legal size enables its queue, one with another size is ignored, and one without `en` disables it; the
doorbell moves the tail, and its queue knows all that the application cores wrote, which is the model's reading of what they fenced
before it (log 49); a packet of a type that the new tail completes stays to be taken, and one of no type is rejected; the event ring's
head follows its register (R306, R308, R422). -/
def Sys2Proof.Claims.QueuesRung : Prop :=
  ∀ s : State,
    (∀ cq v, s.arg = .val cq v → cq < 256 →
      let q := cqOf s cq
      let x := v.toNat
      (v.getLsbD 31 = true → 12 ≤ x % 32 → x % 32 ≤ 24 → Gives .cqEnSet s fun t => t = { s with cmd := t.cmd } ∧
        cqOf t cq = { q with en := true, sup := v.getLsbD 30, ctx := x / 2 ^ 16 % 64, lsize := x % 32, stopped := false
                             lost := false } ∧ ∀ y, y ≠ cq → cqOf t y = cqOf s y) ∧
      (v.getLsbD 31 = true → x % 32 < 12 ∨ 24 < x % 32 → exec .cqEnSet s = .next s) ∧
      (v.getLsbD 31 = false → Gives .cqEnClear s fun t => t = { s with cmd := t.cmd } ∧ (cqOf t cq).en = false ∧
        (cqOf t cq).head = q.head ∧ (cqOf t cq).tail = q.tail ∧ ∀ y, y ≠ cq → cqOf t y = cqOf s y)) ∧
    (∀ cq tail, s.arg = .two cq tail → cq < 256 →
      let s1 := { s with cmd := { s.cmd with cqs := put s.cmd.cqs cq { cqOf s cq with tail := tail % 2 ^ 64 } } }
      let Rung := fun (t : State) => (cqOf t cq).tail = tail % 2 ^ 64 ∧ (∀ y, y ≠ cq → cqOf t y = cqOf s y) ∧
        (∀ k ∈ (cqOf s cq).know, k ∈ (cqOf t cq).know) ∧ ∀ w ∈ s.host.wrote, ∀ q, (w, q) ∈ (cqOf t cq).know
      (cqTakes s cq = false ∨ (∀ p, packetAt s1 cq = some p → 1 ≤ p.type ∧ p.type ≤ 12) → Gives .doorbell s fun t =>
        Rung t ∧ t = { s with cmd := t.cmd } ∧ (cqOf t cq).head = (cqOf s cq).head) ∧
      ∀ p, cqTakes s cq = true → packetAt s1 cq = some p → p.type = 0 ∨ 12 < p.type → (cqOf s cq).packet = none →
        (tail + 2 ^ 64 - (cqOf s cq).head) % 2 ^ 64 = 16 + p.len → (cqOf s cq).head < 2 ^ 64 → SameBytes s (packetSeen s1 cq p) →
        Gives .doorbell s fun t => Rung t ∧ Rejected s t cq p) ∧
    ∀ p v, s.arg = .val p v → s.cmd.evr.lost = 0 → exec .evrHeadWrite s = .next { s with cmd := { s.cmd with
      evr := { s.cmd.evr with head := v.toNat % 2 ^ 32 } } }

/-- FEED appends its element to an open work queue of its context, or of the supervisor's choice, and waits where there is no room;
it is then taken when room returns. SIGNAL_WRITE acts as SIGWR and SIGNAL_WAIT as SIGWT, with what the queue knows; a wait whose
condition fails holds its packet and looks again (R211, R286, R304, R305). -/
def Sys2Proof.Claims.PacketsSignal : Prop :=
  (∀ (s : State) cq p n q, look s.queues n = some q → fieldOf p.body 11 0 = n → q.work = true → (q.ctx = p.ctx ∨ p.sup = true) →
    let len := 8 + 8 * ((q.esize + 7) / 8)
    let Feeds := fun (t : State) => Took s t cq p ∧ Pushed s t n q [toLE q.esize (p.body / 2 ^ 64)]
    (RingRoom (packetSeen s cq p) q 1 → Heads s cq p 2 len .none → Gives .feed s Feeds) ∧
    (RingRoom (packetSeen s cq p) q 1 → Heads s cq p 2 len .feed → Gives .feedAppend s Feeds) ∧
    (q.st = .open_ → q.stopped = false → q.spillMax = 0 → q.spilled = 0 → q.count = 2 ^ q.lslots →
      NoSaves s → AtRest (packetSeen s cq p) q.ringPa (2 ^ q.lslots * q.esize) 0 → Heads s cq p 2 len .none →
      Gives .feed s fun t => Waits s t cq p .feed)) ∧
  ∀ (s : State) cq p pa key, fieldOf p.body 63 5 = 0 → fieldOf p.body 2 0 = 3 ∨ fieldOf p.body 2 0 = 4 → fieldOf p.body 191 128 % 32 = 0 →
    let scope := if fieldOf p.body 2 0 = 3 then Scope.device else Scope.system
    let v := BitVec.ofNat 64 (ofLE (s.mem.read pa 8))
    let b := BitVec.ofNat 64 (fieldOf p.body 127 64)
    let va := fieldOf p.body 191 128
    (∀ op, [SigOp.set, .add, .maxu][fieldOf p.body 4 3]? = some op → CpReachesAt s cq p p.ctx .both va 32 pa key → NoSaves s →
      Heads s cq p 3 24 .none → Gives .signalWrite s fun t => Took s t cq p ∧ Stored s t pa (toLE 8 (signalNew op v b).toNat) ∧
        ∃ w, t.mem.log = w :: s.mem.log ∧ w.pa = pa ∧ (∀ q, (w.id, q) ∈ (cqOf t cq).know) ∧
          ∃ x ∈ w.pubs, x.scope = scope ∧ x.by_ = .queue cq ∧ ∀ k ∈ (cqOf s cq).know, k ∈ x.pairs) ∧
    ∀ cond, [Cond.eq, .ne, .geu, .ltu][fieldOf p.body 4 3]? = some cond → CpReachesAt s cq p p.ctx .read va 32 pa key →
      (let Goes := fun (t : State) => Took s t cq p ∧ SameBytes s t ∧ Handed s (.queue cq) scope pa (cqOf t cq).know
       (signalMeets cond v b = true → Heads s cq p 4 24 .none → Gives .signalWait s Goes) ∧
       (signalMeets cond v b = true → Heads s cq p 4 24 .signalWait → Gives .signalWaitSatisfied s Goes) ∧
       (signalMeets cond v b = false → Heads s cq p 4 24 .none → Gives .signalWait s fun t => Waits s t cq p .signalWait))

/-- A seed packet pushes its value, drops the top, or pushes the fork of the top and counts it, within 1 to 16 entries; outside that
it is rejected. FENCE_SYS, whose queue knows since its doorbell what the application cores released, waits with `drain` for the
queue's kernels, knows then what their signals published, and goes on (R164, R224). -/
def Sys2Proof.Claims.PacketsOrder : Prop :=
  (∀ (s : State) cq p, (ctxOf s p).st = .active →
    let c := p.ctx
    let x := ctxOf s p
    let Seeds := fun (t : State) (seeds : List DWord) (fork : Word) => Took s t cq p ∧ OneCtx s t c ∧ SameBytes s t ∧
      look t.ctxs c = some { x with seeds := seeds, fork := fork }
    (Heads s cq p 5 8 .none → (x.seeds.length < 16 →
        Gives .seedPush s fun t => Seeds t (BitVec.ofNat 64 p.body :: x.seeds) x.fork) ∧
      (16 ≤ x.seeds.length → Gives .seedPush s fun t => Rejected s t cq p)) ∧
    (Heads s cq p 6 0 .none → (1 < x.seeds.length → Gives .seedPop s fun t => Seeds t x.seeds.tail x.fork) ∧
      (x.seeds.length ≤ 1 → Gives .seedPop s fun t => Rejected s t cq p)) ∧
    (Heads s cq p 7 0 .none → ∀ top rest, x.seeds = top :: rest →
      (x.seeds.length < 16 → Gives .seedFork s fun t => Seeds t (forkSeed top x.fork :: x.seeds) (x.fork + 1)) ∧
      (16 ≤ x.seeds.length → Gives .seedFork s fun t => Rejected s t cq p))) ∧
  ∀ (s : State) cq p, p.body < 4 →
    (p.body % 2 = 0 ∨ (cqOf s cq).kernels = [] → Heads s cq p 11 8 .none ∨ Heads s cq p 11 8 .drain ∧ (cqOf s cq).kernels = [] →
      Gives .fenceSys s fun t => Took s t cq p ∧ SameBytes s t ∧ (∀ k ∈ (cqOf s cq).know, k ∈ (cqOf t cq).know) ∧
        (p.body % 2 = 1 → ∀ k ∈ (cqOf s cq).ended, k ∈ (cqOf t cq).know)) ∧
    (p.body % 2 = 1 → (cqOf s cq).kernels ≠ [] → Heads s cq p 11 8 .none → Gives .fenceSys s fun t => Waits s t cq p .drain)

/-- QUEUE_SET of the supervisor opens a free queue with the ring that its descriptor names, resets a queue to empty, frees one to
which no port is bound, its ring to be zeroed, and resumes one that an event stopped; on a free queue, and for a bound one to be
freed, the packet is rejected (R163, R287 to R291). -/
def Obligations.QueuesSet : Prop :=
  ∀ (s : State) cq p n, fieldOf p.body 11 0 = n →
    (let d := queueDesc p
     ∀ pa key, Sets s cq p 10 32 12 0 → (queueOf s n).st = .free → (lookD s.ctxs d.ctx {}).st = .active → d.ok = true →
       d.ringBase % 128 = 0 → d.spillMax = 0 → (cqOf s cq).got = [] → 
       ringAddress (packetSeen s cq p) cq p d = (.ok pa key, packetSeen s cq p) →
       Gives .queueOpen s fun t => Took s t cq p ∧ SameBytes s t ∧ (∀ x, x ≠ n → look t.queues x = look s.queues x) ∧
         ∃ q, look t.queues n = some q ∧ q.st = .open_ ∧ q.head = 0 ∧ q.tail = 0 ∧ q.token = none ∧ q.spilled = 0 ∧ q.ctx = d.ctx ∧
           q.esize = d.esize ∧ q.lslots = d.lslots ∧ q.work = d.work ∧ q.ringPa = pa ∧ q.status = 0x40000000) ∧
    (∀ q, look s.queues n = some q → q.st ≠ .free →
      (Sets s cq p 10 32 12 1 → Gives .queueReset s fun t => Took s t cq p ∧ SameBytes s t ∧
        (∀ x, x ≠ n → look t.queues x = look s.queues x) ∧ ∃ q', look t.queues n = some q' ∧ q'.st = .open_ ∧ q'.head = 0 ∧
          q'.tail = 0 ∧ q'.token = none ∧ q'.spilled = 0 ∧ q'.status = 0x40000000 ∧ q'.ctx = q.ctx ∧ q'.esize = q.esize ∧
          q'.lslots = q.lslots ∧ q'.work = q.work ∧ q'.ringPa = q.ringPa) ∧
      (Sets s cq p 10 32 12 2 → (∀ e ∈ s.strands, ∀ x ∈ e.2.ports, x.2 ≠ n) → Gives .queueFree s fun t => Took s t cq p ∧
        SameBytes s t ∧ look t.queues n = none ∧ (∀ x, x ≠ n → look t.queues x = look s.queues x) ∧
        ∃ z ∈ t.trans.zeroing, z.pa = q.ringPa ∧ z.len = 2 ^ q.lslots * q.esize) ∧
      (Sets s cq p 10 32 12 2 → (∃ e ∈ s.strands, ∃ x ∈ e.2.ports, x.2 = n) → Gives .queueFree s fun t => Rejected s t cq p) ∧
      (Sets s cq p 10 32 12 3 → Gives .queueResume s fun t => Took s t cq p ∧ SameBytes s t ∧
        (∀ x, x ≠ n → look t.queues x = look s.queues x) ∧ look t.queues n = some { q with stopped := false, lost := false })) ∧
    ((queueOf s n).st = .free → (Sets s cq p 10 32 12 1 → Gives .queueReset s fun t => Rejected s t cq p) ∧
      (Sets s cq p 10 32 12 2 → Gives .queueFree s fun t => Rejected s t cq p) ∧
      (Sets s cq p 10 32 12 3 → Gives .queueResume s fun t => Rejected s t cq p))

/-- CONTEXT_SET of the supervisor makes a free context active with its record, changes the quotas and the class of an active one,
and starts its teardown: its strands and braids are gone, its kernels end with 0x480, its pending futures are failed with code 0x80 and
its matrix entries cancelled. When its operations have ended it is zeroed, and then free (R155 to R163); that its miss records and
translations leave with it is the model's choice (log 109). -/
def Obligations.ContextsLive : Prop :=
  (∀ (s : State) cq p, (let c := fieldOf p.body 5 0
     let x := p.body / 2 ^ 64
     let o := lookD s.ctxs c {}
     (Sets s cq p 12 40 6 0 → o.st = .free → recordOk x = true → Forgotten s c → Gives .contextCreate s fun t => Took s t cq p ∧ SameBytes s t ∧
       OneCtx s t c ∧ ∃ n, look t.ctxs c = some n ∧ n.st = .active ∧ n.ptBase = fieldOf x 127 64 ∧
         n.seeds = [BitVec.ofNat 64 (fieldOf x 63 0)] ∧ n.prio = (fieldOf x 156 156 == 1) ∧ n.keyCount = fieldOf x 166 157 ∧
         n.keyBase = fieldOf x 175 167 ∧ n.saveQuota = fieldOf x 207 192 ∧ n.spillQuota = fieldOf x 231 208 ∧
         n.pinQuota = fieldOf x 255 232 ∧ n.futures = [] ∧ n.fork = 0) ∧
     (Sets s cq p 12 40 6 1 → o.st = .active → recordOk x = true → fieldOf x 191 176 = o.bankKey → fieldOf x 175 167 = o.keyBase →
       fieldOf x 166 157 = o.keyCount → fieldOf x 127 64 = o.ptBase → BitVec.ofNat 64 (fieldOf x 63 0) = o.seedInit →
       Gives .contextModify s fun t => Took s t cq p ∧ SameBytes s t ∧ OneCtx s t c ∧ look t.ctxs c = some { o with
         pinQuota := fieldOf x 255 232, spillQuota := fieldOf x 231 208, saveQuota := fieldOf x 207 192
         prio := fieldOf x 156 156 == 1 }) ∧
     (Sets s cq p 12 40 6 2 → o.st = .active → Gives .contextDestroy s fun t => SameBytes s t ∧
       (cqOf t cq).head = ((cqOf s cq).head + 56) % 2 ^ 64 ∧ (lookD t.ctxs c {}).st = .draining ∧ OneCtx s t c ∧
       (∀ y st, look t.strands y = some st → st.ctx ≠ c) ∧ (∀ y b, look t.braids y = some b → b.ctx ≠ c) ∧
       (∀ r, (recordOf t c r).st ≠ .pending) ∧ (risingFrom 0 o.futures = true → ∀ r, (recordOf s c r).st = .pending →
         (recordOf t c r).st = .failed ∧ (recordOf t c r).err = 0x80) ∧ (∀ q ∈ t.eng.mq, ∀ e ∈ q.2, e.ctx ≠ c) ∧
       ∀ y k, look s.cmd.kernels y = some k → k.ctx = c → k.refused = false → ∃ k', look t.cmd.kernels y = some k' ∧ k'.discarded = true ∧
         k'.err = 0x480 ∧ k'.formed = []))) ∧
  ∀ (s : State) c, s.arg = .one c →
    ((lookD s.ctxs c {}).st = .draining → ctxBusy s c = false → Gives .contextDrained s fun t => t.mem = s.mem ∧
      (∀ x st, look s.strands x = some st → st.ctx ≠ c → st.waits = none → (∀ g, st.given = some g → g.ctx ≠ c) →
        (∀ q r need va, st.run = .blocked (.miss q r need va) → ∀ e ∈ s.trans.miss, e.1 = q * 64 + r → e.2.ctx ≠ c) →
        look t.strands x = some st) ∧
      (lookD t.ctxs c {}).st = .zeroing ∧ OneCtx s t c ∧ (∀ e ∈ t.trans.tlb, e.ctx ≠ c) ∧ (∀ e ∈ t.trans.miss, e.2.ctx ≠ c) ∧
      ∀ n q, look s.queues n = some q → q.ctx = c → q.st ≠ .free → look t.queues n = none) ∧
    ((lookD s.ctxs c {}).st = .zeroing → (∀ z ∈ s.trans.zeroing, z.ctx ≠ some c) → Gives .contextZeroed s fun t =>
      (Forgotten s c → t.strands = s.strands) ∧ Forgotten t c ∧ (∀ e ∈ t.trans.tlb, e.ctx ≠ c) ∧ (lookD t.ctxs c {}).st = .free ∧ OneCtx s t c ∧
      Posted s t)

/-- QueuesRung, PacketsSignal and PacketsOrder together. -/
def Obligations.CommandsTaken : Prop := Sys2Proof.Claims.QueuesRung ∧ Sys2Proof.Claims.PacketsSignal ∧ Sys2Proof.Claims.PacketsOrder

namespace Sys2Proof.Claims
open Sys2Proof Sys2Proof.Machine

/-! ### Pages, vaults and registers (R163, R170 to R184, R421) -/

/-- The record of a miss, by quad and number. -/
def missOf (s : State) (quad idx : Nat) : Option MissRec := look s.trans.miss (quad * 64 + idx)

/-- Only one miss record differs from before, and nothing outside the records. -/
def OneMiss (s t : State) (quad idx : Nat) (r : MissRec) : Prop :=
  missOf t quad idx = some r ∧ (∀ k, k ≠ quad * 64 + idx → look t.trans.miss k = look s.trans.miss k) ∧ t.mem = s.mem ∧
    t.strands = s.strands ∧ t.trans.tlb = s.trans.tlb

/-- A record is gone. The strands that waited on it are ready: with the fault to take, or with the translation to proceed with. One
whose braid was saved meanwhile has the fault to take after its RTT (R322). Nothing else of a strand differs (R173, R174). -/
def Freed (s t : State) (quad idx : Nat) (fault : Option (Nat × Nat)) (given : Option TlbEntry) : Prop :=
  let takes := fun (fetch : Bool) va => fault.map fun f => ({ fetch := fetch, cause := f.1, info := f.2, addr := va } : AccFault)
  missOf t quad idx = none ∧ ∀ sid st, look s.strands sid = some st → ∃ st', look t.strands sid = some st' ∧
    st' = { st with run := st'.run, accFault := st'.accFault, given := st'.given, waits := st'.waits, afterTrap := st'.afterTrap } ∧
    (∀ need va, st.run = .blocked (.miss quad idx need va) → st'.run = .ready ∧ st'.accFault = takes (need == .fetch) va ∧
      st'.given = given.orElse fun _ => st.given) ∧
    ((∀ need va, st.run ≠ .blocked (.miss quad idx need va)) → st'.run = st.run ∧ st'.accFault = st.accFault ∧
      st'.given = st.given) ∧
    (∀ fetch va, st.waits = some (quad, idx, fetch, va) → st'.waits = none ∧ st'.afterTrap = takes fetch va) ∧
    ((∀ fetch va, st.waits ≠ some (quad, idx, fetch, va)) → st'.waits = st.waits ∧ st'.afterTrap = st.afterTrap)

/-- The table of a level that a walk for an address reads: `pt_base`, and below it the frame of the entry above (R168, R169). -/
def tableAt (s : State) (ctx va : Nat) : Nat → Nat
  | 0 => (lookD s.ctxs ctx {}).ptBase
  | l + 1 => ofLE (s.mem.read (tableAt s ctx va l + 8 * (va / 2 ^ (43 - 10 * l) % 1024)) 8) / 2 ^ 13 % 2 ^ 31 * 2 ^ 13

/-- Where the entry of a level lies that a walk for an address reads, and that entry (R168). -/
def entryPlace (s : State) (ctx va l : Nat) : Nat := tableAt s ctx va l + 8 * (va / 2 ^ (43 - 10 * l) % 1024)
/-- The entry of a level that a walk for an address reads. -/
def entryAt (s : State) (ctx va l : Nat) : Nat := ofLE (s.mem.read (entryPlace s ctx va l) 8)

/-- The newest write that touches n bytes, if any does, has been released at system scope (R225). -/
def NewestReleased (s : State) (pa n : Nat) : Prop :=
  ∀ newer w older, s.mem.log = newer ++ w :: older → (w.pa < pa + n ∧ pa < w.pa + w.new.length) →
    (∀ x ∈ newer, pa + n ≤ x.pa ∨ x.pa + x.new.length ≤ pa) → w.id ∈ s.host.seen

/-- A walk meets only bytes: no slot holds it, no pointer is cached, and of each entry it reads memory holds the newest write that
was released, or the one byte string that nobody wrote (R176, R225, R385). -/
def WalkAtRest (s : State) (quad ctx va : Nat) : Prop :=
  lpddrHeld s = false ∧ (∀ e ∈ s.trans.tlb, e.cache ≠ .walk quad) ∧
    ∀ l < 4, AtRest s (entryPlace s ctx va l) 8 0 ∧ NewestReleased s (entryPlace s ctx va l) 8

/-- The frame that an entry names (R169). -/
def frameOfEntry (e : Nat) : Nat := fieldOf e 43 13 * 2 ^ 13

/-- Check 3 of R170: a bit that must be zero is not, a leaf stands at level 0, a pointer at level 3, a vault leaf is one of 8 GiB, or a
pointer names a vault frame; that an LPDDR6 leaf of no LPDDR6 frame counts as well is the model's reading (log 14). -/
def Malformed (level e : Nat) : Prop :=
  fieldOf e 12 4 ≠ 0 ∨ e.testBit 0 = true ∨
    if e.testBit 62 = true then
      level = 0 ∨ (e.testBit 61 = true ∧ (level = 1 ∨ fieldOf e 58 50 ≠ 0)) ∨ frameOfEntry e % 2 ^ (43 - 10 * level) ≠ 0 ∨
        (e.testBit 61 = false ∧ 2 ^ 40 ≤ frameOfEntry e)
    else level = 3 ∨ fieldOf e 61 59 ≠ 0 ∨ fieldOf e 58 44 ≠ 0 ∨ fieldOf e 3 1 ≠ 0 ∨ 2 ^ 40 ≤ frameOfEntry e

/-- A vault leaf's page lies in no vault's direct region, in front of its window region (check 4 of R170; R182). -/
def OutsideDirect (s : State) (level e : Nat) : Prop :=
  let off := frameOfEntry e - vaultBase
  let m := vaultMap s (off / 2 ^ 26)
  e.testBit 61 = true ∧ (frameOfEntry e < vaultBase ∨ 48 ≤ off / 2 ^ 26 ∨
    (m.direct - m.window) * 2 ^ 23 < off % 2 ^ 26 + 2 ^ (43 - 10 * level))

/-- An LPDDR6 leaf's key lies outside the context's range (check 6 of R170; R157). -/
def KeyOutside (s : State) (ctx e : Nat) : Prop :=
  let c := lookD s.ctxs ctx {}
  e.testBit 61 = false ∧ (fieldOf e 58 50 < c.keyBase ∨ c.keyBase + c.keyCount ≤ fieldOf e 58 50)

/-- An entry is a valid and well-formed pointer to the next table (R169, R170). -/
def PointsOn (level e : Nat) : Prop := e.testBit 63 = true ∧ e.testBit 62 = false ∧ ¬ Malformed level e

/-- Bytes from a on are among those that an invalidation names: of its context, or of any with scope 2, and with scope 0 in the `cnt`
pages of 8 KiB that its request named (R177). -/
def Covers (r : InvRegs) (ctx a n : Nat) : Prop :=
  (r.scope = 2 ∨ ctx = r.ctx) ∧ (r.scope = 0 → a < r.atVa / 8192 * 8192 + max 1 r.atCnt * 8192 ∧ r.atVa / 8192 * 8192 < a + n)

/-- An entry of a translation cache derives from a page that an invalidation names, its own or the first of its group (R177, R178). -/
def Invalid (r : InvRegs) (e : TlbEntry) : Prop :=
  let n := 2 ^ (13 + 10 * (3 - e.level))
  Covers r e.ctx e.va n ∨ ∃ g, e.group = some g ∧ Covers r e.ctx g n

/-- An invalidation has begun with the range as it stands: every entry outside its scope stays, and none comes (R177). -/
def Invalidates (s t : State) (scope ctx : Nat) : Prop :=
  t.mem = s.mem ∧ t.strands = s.strands ∧
    (s.trans.inv.busy = true → t.trans.inv = { s.trans.inv with lost := true } ∧ t.trans.tlb = s.trans.tlb) ∧
    (s.trans.inv.busy = false →
      t.trans.inv = { s.trans.inv with busy := true, scope := scope, ctx := ctx, atVa := s.trans.inv.va, atCnt := s.trans.inv.cnt } ∧
      (∀ e ∈ t.trans.tlb, e ∈ s.trans.tlb) ∧ ∀ e ∈ s.trans.tlb, ¬ Invalid t.trans.inv e → e ∈ t.trans.tlb)

/-- Registers that only store the bits they have, with those bits (R421). -/
def plainBits (off : Nat) : Option Nat :=
  [(0x08, 0x3FF), (0x10, 0xFFFF), (0x18, 2 ^ 48 - 1), (0xA0, 2 ^ 64 - 1)].lookup off

end Sys2Proof.Claims

/-- WALK_START gives a miss record that has neither a walk nor an answer to wait for one of its quad's 16 walks. WALK_DONE ends the
walk: it frees the record with a translation, which enters the quad's cache and which the waiting accesses proceed with, or with a
fault; or it makes the record pending, with its event, at an entry that is not valid; a walk that a slot holds goes on. MISS_RESP_RETRY
has a pending record walk again, and MISS_RESP_FAULT has its accesses take PAGE_FAULT, reason 0x00 (R172 to R175, R385). -/
def Sys2Proof.Claims.MissesEnd : Prop :=
  ∀ (s : State) quad idx r, s.arg = .two quad idx → missOf s quad idx = some r →
    (r.pending = false → r.walker = false → s.trans.miss.countP (fun e => e.1 / 64 == quad && e.2.walker) < 16 → idx < 64 →
      ∃ t, exec .walkStart s = .next t ∧ OneMiss s t quad idx { r with walker := true }) ∧
    (r.walker = true → ∀ x u, walkTables s quad r.ctx (r.vpn * 2 ^ 13) = (x, u) → ∃ t, exec .walkDone s = .next t ∧
      (∀ level pte group, x = .leaf level pte group →
        (let e : TlbEntry := { cache := .second quad, ctx := r.ctx, level := level, pte := pte, group := group
                               va := r.vpn * 2 ^ 13 / pageBytes level * pageBytes level }
         Freed s t quad idx none (some e) ∧ e ∈ t.trans.tlb)) ∧
      (∀ cause info, x = .bad cause info → Freed s t quad idx (some (cause, info)) none) ∧
      (∀ level, x = .invalid level → t.strands = s.strands ∧
        missOf t quad idx = some { r with walker := false, pending := true, level := level } ∧
        Posted s t) ∧
      (x = .held → t = s)) ∧
    (r.pending = true → ∃ t, exec .missRespRetry s = .next t ∧ OneMiss s t quad idx { r with pending := false }) ∧
    (r.pending = true → ∃ t, exec .missRespFault s = .next t ∧ Freed s t quad idx (some (0x04, r.level * 2 ^ 8)) none ∧ t.mem = s.mem)

/-- Where a walk meets only bytes, it follows the pointers of R168 from `pt_base` down to the first entry that points no further, and
WALK_DONE does what that entry says: not valid, malformed (PAGE_FAULT, reason 0x02), a leaf that its context may not use (ACCESS, with
the reason of the first of checks 4 to 6 that fails), or a leaf that is no part of a contiguous group and translates (R168 to R170,
R173; of a leaf outside LPDDR6, log 14). -/
def Sys2Proof.Claims.WalksDescend : Prop :=
  ∀ (s : State) quad idx r l, s.arg = .two quad idx → missOf s quad idx = some r → r.walker = true → l < 4 →
    (let va := r.vpn * 2 ^ 13
     let e := entryAt s r.ctx va l
     WalkAtRest s quad r.ctx va → (∀ k < l, PointsOn k (entryAt s r.ctx va k)) →
     (e.testBit 63 = false → ∃ t, exec .walkDone s = .next t ∧
       missOf t quad idx = some { r with walker := false, pending := true, level := l }) ∧
     (e.testBit 63 = true → Malformed l e → ∃ t, exec .walkDone s = .next t ∧
       Freed s t quad idx (some (0x04, 0x02 + l * 2 ^ 8)) none) ∧
     (e.testBit 63 = true → ¬ Malformed l e → e.testBit 62 = true → e.testBit 59 = false →
       let Fails := fun (w : Nat) => ∃ t, exec .walkDone s = .next t ∧ Freed s t quad idx (some (0x05, w + l * 2 ^ 8)) none
       let others := fieldOf e 49 44 ≠ r.ctx
       (OutsideDirect s l e → Fails 0x03) ∧ (¬ OutsideDirect s l e → others → Fails 0x04) ∧
       (¬ OutsideDirect s l e → ¬ others → KeyOutside s r.ctx e → Fails 0x05) ∧
       (¬ OutsideDirect s l e → ¬ others → ¬ KeyOutside s r.ctx e → ∃ t, exec .walkDone s = .next t ∧
         Freed s t quad idx none (some { cache := .second quad, ctx := r.ctx, level := l, pte := e
                                         va := va / 2 ^ (43 - 10 * l) * 2 ^ (43 - 10 * l) }))))

/-- INV_RANGE, INV_CONTEXT and INV_ALL each begin an invalidation, or while one runs set `lost` and nothing else. Once none of its
accesses is still to perform INV_DONE ends it: no cache and no waiting access holds a translation of its scope, and a sleeper there
looks again (R177, R178; that it runs its instruction again is the model's choice, log 104). -/
def Sys2Proof.Claims.PagesInvalidated : Prop :=
  (∀ (s : State) c, s.arg = .one c → (∃ t, exec .invRange s = .next t ∧ Invalidates s t 0 (c % 64)) ∧
    ∃ t, exec .invContext s = .next t ∧ Invalidates s t 1 (c % 64)) ∧
  (∀ s : State, ∃ t, exec .invAll s = .next t ∧ Invalidates s t 2 s.trans.inv.ctx) ∧
  ∀ s : State, s.trans.inv.busy = true → invClear s = true → ∃ t, exec .invDone s = .next t ∧ t.mem = s.mem ∧
    t.trans = { s.trans with inv := { s.trans.inv with busy := false }, tlb := t.trans.tlb } ∧
    (∀ e, e ∈ t.trans.tlb ↔ e ∈ s.trans.tlb ∧ ¬ Invalid s.trans.inv e) ∧
    ∀ sid st, look s.strands sid = some st → ∃ st', look t.strands sid = some st' ∧
      st' = { st with run := st'.run, given := st'.given } ∧
      (∀ e, st'.given = some e ↔ st.given = some e ∧ ¬ Invalid s.trans.inv e) ∧
      (∀ va pa key b seen, st.run = .blocked (.word va pa key b seen) → Covers s.trans.inv st.ctx va 4 → st'.run = .ready) ∧
      (∀ va pa key c b seen, st.run = .blocked (.signal va pa key c b seen) → Covers s.trans.inv st.ctx va 32 → st'.run = .ready) ∧
      ((∀ va pa key b seen, st.run = .blocked (.word va pa key b seen) → ¬ Covers s.trans.inv st.ctx va 4) →
        (∀ va pa key c b seen, st.run = .blocked (.signal va pa key c b seen) → ¬ Covers s.trans.inv st.ctx va 32) →
        st'.run = st.run)

/-- A write of zero_ctl hands the zero engine the frame in zero_pa, of 8 KiB, 8 MiB or 8 GiB; when the engine is done a range reads
zero and a tile +0 in both chains, and nothing else changes (R163, R180, R252). -/
def Sys2Proof.Claims.ResourcesZeroed : Prop :=
  (∀ (s : State) p v, s.arg = .val p v → v.toNat % 4 < 3 → Gives .zeroStart s fun t => t = { s with trans := t.trans } ∧
    ∃ z, t.trans.zeroing = s.trans.zeroing ++ [z] ∧ z.pa = s.trans.zeroPa.toNat ∧ z.len = 2 ^ (13 + 10 * (v.toNat % 4)) ∧
      z.key = v.toNat / 2 ^ 17 % 2 ^ 9 ∧ z.tile = none) ∧
  ∀ (s : State) idx z, s.arg = .one idx → s.trans.zeroing[idx]? = some z →
    (z.tile = none → 0 < z.len → lpddrHeld s = false ∨ isLpddr z.pa = false → Gives .zeroDone s fun t =>
      t.trans.zeroing = s.trans.zeroing.eraseIdx idx ∧ t.strands = s.strands ∧ t.eng = s.eng ∧
      ∀ a, t.mem.byteAt a = if z.pa ≤ a ∧ a < z.pa + z.len then 0 else s.mem.byteAt a) ∧
    (∀ n, z.tile = some n → z.len = 0 → (∀ q ∈ s.eng.mq, ∀ e ∈ q.2, n ∉ tilesNamed q.1 e) →
      (∀ q ∈ s.eng.waiting, n ∉ tilesNamed q.1 q.2) → Gives .zeroDone s fun t =>
      t.trans.zeroing = s.trans.zeroing.eraseIdx idx ∧ t.mem = s.mem ∧ t.strands = s.strands ∧
      ∀ m, ∀ el < 65536, chainsOf t m el = if m = n then (0, 0) else chainsOf s m el)

/-- A region register of R183 takes a division that fits beside the cache region, and else sets its error bit and stays. A size of the
cache region that every vault has room for drops every line, and holds until it applies; a keyring entry is loaded by its last word
(R179, R183, R184). -/
def Sys2Proof.Claims.VaultsSet : Prop :=
  ∀ (s : State) v x, s.arg = .val v x →
    let f := fun lo => x.toNat / 2 ^ lo % 16
    let total := f 0 + f 8 + f 12 + f 16
    (v < 48 → s.vaults.cuBusy = false →
      (total + s.vaults.units ≤ 8 → f 4 ≤ f 0 → Gives .vaultMapWrite s fun t => t = { s with vaults := t.vaults } ∧
        vaultMap t v = { direct := f 0, window := f 4, save := f 8, ring := f 12, ref := f 16
                         err := (vaultMap s v).err && !x.getLsbD 30 } ∧ ∀ w, w ≠ v → vaultMap t w = vaultMap s w) ∧
      (8 < total + s.vaults.units ∨ f 0 < f 4 → Gives .vaultMapWrite s fun t => t = { s with vaults := t.vaults } ∧
        vaultMap t v = { vaultMap s v with err := true } ∧ ∀ w, w ≠ v → vaultMap t w = vaultMap s w)) ∧
    (let units := x.toNat % 8
     let ok := s.vaults.cuBusy = false ∧ units ≤ 6 ∧ ∀ w < 48, (vaultMap s w).direct + (vaultMap s w).save + (vaultMap s w).ring +
       (vaultMap s w).ref + units ≤ 8
     (ok → Gives .cacheUnitsWrite s fun t => t = { s with vaults := t.vaults } ∧ t.vaults.cuBusy = true ∧ t.vaults.newUnits = units ∧
       t.vaults.lines = [] ∧ t.vaults.units = s.vaults.units ∧ t.vaults.maps = s.vaults.maps) ∧
     (¬ ok → exec .cacheUnitsWrite s = .next { s with vaults := { s.vaults with cuErr := true } })) ∧
    (s.vaults.cuBusy = true → NothingHeld s → exec .cacheResizeDone s = .next { s with vaults := { s.vaults with
      units := s.vaults.newUnits, cuBusy := false, lines := [] } }) ∧
    (Gives .keyringLoad s fun t => t = { s with trans := t.trans } ∧ look t.trans.krData 7 = some x ∧
      (∀ k, k ≠ s.trans.krIdx → look t.trans.keyring k = look s.trans.keyring k) ∧
      ∃ k, look t.trans.keyring s.trans.krIdx = some k ∧
        ∀ w < 8, k / 2 ^ (64 * w) % 2 ^ 64 = if w = 7 then x.toNat else (lookD s.trans.krData w 0).toNat)

/-- A register that only stores keeps the bits it has. An application core writes memory, reads what is newest and released there,
and writes and reads the registers of the block (R5, R167, R225, R421). Of these the model's choice is that its accesses use keyring
entry 0 (log 8), that its writes count as released (log 49), that `swap_thr` keeps 16 bits (log 51), and that an access to neither
stops (log 50). -/
def Obligations.HostAccesses : Prop :=
  (∀ (s : State) off v m, s.arg = .val off v → plainBits off = some m → Gives .registerWrite s fun t => t = { s with sreg := t.sreg } ∧
    sregOf t off = v &&& BitVec.ofNat 64 m ∧ ∀ o, o ≠ off → sregOf t o = sregOf s o) ∧
  (∀ (s : State) pa n bs, s.arg = .host pa n (some bs) → bs ≠ [] → inMemory pa bs.length = true → heldBySlot s pa bs.length = false → NoSaves s →
    AtRest s pa bs.length 0 → Gives .hostMemoryAccess s fun t => Stored s t pa bs ∧ t.strands = s.strands ∧
      ∃ w, t.mem.log = w :: s.mem.log ∧ w.id ∈ t.host.wrote ∧ w.id ∈ t.host.seen) ∧
  (∀ (s : State) pa n, s.arg = .host pa n none → n ≠ 0 → inMemory pa n = true → heldBySlot s pa n = false → AtRest s pa n 0 →
    (∀ w ∈ s.mem.log, w.pa < pa + n → pa < w.pa + w.new.length → w.id ∈ s.host.seen) → Gives .hostMemoryAccess s fun t =>
      t.host.lastRead = s.mem.read pa n ∧ SameBytes s t ∧ t.strands = s.strands) ∧
  (∀ (s : State) off, off % 8 = 0 → off + 8 ≤ 2 ^ 44 - 0xC0000000000 →
    (∀ v n, s.arg = .host (0xC0000000000 + off) n (some (toLE 8 v)) → v < 2 ^ 64 →
      exec .hostMemoryAccess s = .next (writeRegister s off (BitVec.ofNat 64 v))) ∧
    (s.arg = .host (0xC0000000000 + off) 8 none → Gives .hostMemoryAccess s fun t =>
      t.host.lastRead = toLE 8 (readRegister s off).toNat ∧ t = { s with host := t.host })) ∧
  ∀ (s : State) pa n, s.arg = .host pa n none → n ≠ 0 → inMemory pa n = false → ¬ (0xC0000000000 ≤ pa ∧ pa + n ≤ 2 ^ 44) →
    exec .hostMemoryAccess s = .fault (.noSuchAddress pa)

/-- MissesEnd, WalksDescend and PagesInvalidated together. -/
def Obligations.TranslationsKept : Prop :=
  Sys2Proof.Claims.MissesEnd ∧ Sys2Proof.Claims.WalksDescend ∧ Sys2Proof.Claims.PagesInvalidated

/-- ResourcesZeroed and VaultsSet together. -/
def Obligations.ResourcesSet : Prop := Sys2Proof.Claims.ResourcesZeroed ∧ Sys2Proof.Claims.VaultsSet

namespace Sys2Proof.Claims
open Sys2Proof Sys2Proof.Machine

/-! ### Streams, chains, the front end, blend and the outputs (R331 to R381, R413) -/

/-- No slot of R424 watches anything. -/
def NoWatch (s : State) : Prop := ∀ e ∈ s.sreg, 0xE00 ≤ e.1 → e.1 < 0x1000 → e.2.getLsbD 0 = false

/-- Times in units of 2^-16 ns: F_n, L_n(y), D_k and A_k (R334, R336). -/
def frameTime (x : Stream) (n : Nat) : Nat := x.tOrigin * 2 ^ 16 + n * x.vTotal * x.lineP
/-- L_n(y). -/
def lineAt (x : Stream) (n y : Nat) : Nat := frameTime x n + (x.vStart + y) * x.lineP
/-- D_k. -/
def deadlineAt (x : Stream) (n k : Nat) : Int := (lineAt x n (k * (8 * 2 ^ x.sh)) : Int) - 1000 * 2 ^ 16
/-- A_k. -/
def startAt (x : Stream) (n k : Nat) : Int := deadlineAt x n k - x.lead * (8 * 2 ^ x.sh) * x.lineP

/-- The number of a stream's strip, and of its line, among those of all its frames. -/
def stripNo (x : Stream) (n k : Nat) : Nat := n * x.strips + k

/-- An active stream that has not stopped stands at a strip, which its frame has. -/
def AtStrip (s : State) (stream n k next : Nat) : Prop :=
  let x := streamOf s stream
  s.arg = .three stream n k ∧ cmdUp s = true ∧ x.active = true ∧ x.stopping = false ∧ next = stripNo x n k ∧ k < x.strips

/-- Where a chain of a stream, as the stream is set now, is kept. -/
def chainAt (s : State) (stream n k : Nat) : Option Chain := look s.strips.chains (2 * ((n * 65536 + k) * 64 + stream))

/-- The lines of a strip that were ready as its output read it (R352). -/
def takenOf (s : State) (stream n k : Nat) : List Nat :=
  (look s.strips.readMarks (2 * ((n * 65536 + k) * 64 + stream))).getD []

/-- A frame as it is submitted for a stream. -/
def Submitted (s t : State) (stream n : Nat) (ks : List ChainKernel) (g : Option LaunchRec) : Prop :=
  n ∈ (streamOf t stream).submitted ∧ ∃ f ∈ t.strips.frames, f.stream = stream ∧ f.frame = n ∧ f.kernels = ks ∧ f.geom = g ∧
    (∀ f' ∈ s.strips.frames, f' ∈ t.strips.frames)

/-- A quarter of the way from one value to another, the difference truncated toward zero (R348). -/
def toward (old new : Nat) : Nat := if old ≤ new then old + (new - old) / 4 else old - (old - new) / 4

/-- The code of a pixel as a line leaves: from the ring where the line was ready as its strip was read, else the fill colour
(R352). -/
def leaves (s : State) (stream n y px : Nat) : Word :=
  let x := streamOf s stream
  if y ∈ takenOf s stream n (y / (8 * 2 ^ x.sh)) then BitVec.ofNat 32 (ofLE (s.mem.read (ringPa s x.ring (outOff s x n y px)) 4)) else BitVec.ofNat 32 x.fill

/-- A stream's output of a kind stands at line y of frame n, whose strip has been read, and its time has come. -/
def OutputAt (s : State) (stream kind n y : Nat) : Prop :=
  let x := streamOf s stream
  x.active = true ∧ x.outKind = kind ∧ x.nextLine = n * x.outH + y ∧ y < x.outH ∧ n * x.strips + y / (8 * 2 ^ x.sh) < x.nextRead ∧
    lineAt x n y ≤ s.clk.tb

/-- Two words of memory share no byte. -/
def WordsApart (a b : Nat) : Prop := a + 4 ≤ b ∨ b + 4 ≤ a

/-- Each strand is as before, but that it may know more writes. -/
def KnowsMore (s t : State) : Prop :=
  ∀ sid st, look s.strands sid = some st → ∃ st', look t.strands sid = some st' ∧ st' = { st with know := st'.know }

/-- What blend does with a fragment's colour (R368, R375 to R378): the places of its pixels' colours and depths, its own depth at a
pixel or what EMITCZ gave, and the pixels that pass. -/
structure BlendPlan where
  colour : Nat × Nat × Nat → Nat
  depth : Nat × Nat × Nat → Nat
  z : Nat × Nat × Nat → Word
  pass : Nat × Nat × Nat → Bool

/-- The plan for a fragment of a chain's kernel. -/
def blendPlan (s : State) (f : Fragment) (ch : Chain) (ck : ChainKernel) : BlendPlan :=
  let x := chainStream s ch
  let dep := fun (p : Nat × Nat × Nat) => ringPa s x.ring (depOff s x ch.frame ch.strip p.2.2 p.2.1)
  { colour := fun p => ringPa s x.ring (if ck.kind = 2 then outOff s x ch.frame p.2.2 p.2.1 else rendOff s x ch.frame p.2.2 p.2.1)
    depth := dep
    z := fun p => f.zOver.getD (f.bead.zs.getD p.1 0)
    pass := fun p => match f.zOver with
      | some z => depthPass ck.zf z (BitVec.ofNat 32 (ofLE (s.mem.read (dep p) 4)))
      | none => true }

/-- Word m of a strip of a session's frame in the reference store, 0 where the store has no place for it. -/
def refWord (s : State) (session frame k m : Nat) : Word :=
  match refAddr s session frame k m with
  | some a => BitVec.ofNat 32 (ofLE (s.mem.read a 4))
  | none => 0

end Sys2Proof.Claims

/-- STREAM_SET makes a stream active with its record, its first frame the least whose A_0 is still to come, and STOP stops one; other
packets are rejected. Of the stream's use before, what still runs keeps the stream's old record, under a number of its own (log
130). FRAME_SUBMIT takes a frame with the kernels and the geometry of its chain table, waits while a chain of
frame n − 2 has not ended, and goes on then (R331 to R333, R348, R354, R355); that it reads the table after that wait is the model's
choice (log 91). -/
def Obligations.StreamsSet : Prop :=
  (∀ (s : State) cq p n, fieldOf p.body 5 0 = n →
    (Sets s cq p 8 56 6 0 → (let r := p.body / 2 ^ 64
       (streamAccepted s n r = true → Gives .streamSet s fun t => Took s t cq p ∧ SameBytes s t ∧
         (∀ m, m ≠ n → streamOf t m = streamOf s m) ∧ (∀ f ∈ t.strips.frames, f.stream ≠ n) ∧
         (∀ e ∈ t.strips.chains, e.2.stream = n → e.2.oldStream.isSome) ∧
         ((∀ e ∈ s.strips.chains, e.1 % 2 = 1 → e.1 < 2 * s.flight.nextId) → ∀ c ch, look s.strips.chains c = some ch → ch.stream = n →
           ch.oldStream = none → chainLives s c ch = true → ∃ e ∈ t.strips.chains,
             e.2 = { ch with oldStream := some (streamOf s n), oldFrame := frameOf s ch }) ∧
         (let x := streamOf t n
          x.active = true ∧ x.stopping = false ∧ x.tOrigin = fieldOf r 383 320 ∧ x.lineP = fieldOf r 319 288 ∧
            x.outW = fieldOf r 255 240 ∧ x.outH = fieldOf r 239 224 ∧ x.rendW = fieldOf r 223 208 ∧ x.rendH = fieldOf r 207 192 ∧
            x.ctx = fieldOf r 37 32 ∧ x.submitted = [] ∧ x.eUp = fieldOf r 159 128 * 2 ^ 16 ∧
            (∀ i < 5, x.cost[i]? = some (fieldOf r 191 160 / 2 ^ i)) ∧ x.nextClear = x.firstFrame * x.strips ∧
            x.nextStart = x.nextClear ∧ x.nextRead = x.nextClear ∧ x.nextLine = x.firstFrame * x.outH ∧
            (s.clk.tb : Int) < startAt x x.firstFrame 0 ∧ ∀ m < x.firstFrame, startAt x m 0 ≤ s.clk.tb)) ∧
       (streamAccepted s n r = false → Gives .streamSet s fun t => Rejected s t cq p))) ∧
    (Sets s cq p 8 56 6 1 → (let x := streamOf s n
       (x.active = true → x.stopping = false → x.nextRead < x.nextStart → Gives .streamStop s fun t => Took s t cq p ∧
         SameBytes s t ∧ streamOf t n = { x with stopping := true } ∧
         (∀ e ∈ t.strips.chains, e.2.stream = n → e.2.oldStream = none → e.2.st ≠ .clearing)) ∧
       (x.active = false ∨ x.stopping = true → Gives .streamStop s fun t => Rejected s t cq p)))) ∧
  ∀ (s : State) cq p, (let f := frameSubmit p
    (frameBad s p f = false → framePast s f = true → ∀ ks g r u,
      readFrame (packetSeen s cq p) cq p (streamOf s f.stream).ctx f = (some (ks, g), r, u) →
      (let Goes := fun (t : State) => Submitted s t f.stream f.frame ks g ∧
         (cqOf t cq).head = ((cqOf s cq).head + 40) % 2 ^ 64 ∧ (cqOf t cq).held = .none ∧
         (g.isSome → t.cmd.nextKernel = if s.cmd.nextKernel = 0x7FFFFFFF then 1 else s.cmd.nextKernel + 1)
       (Heads s cq p 9 24 .none → Gives .frameSubmit s Goes) ∧ (Heads s cq p 9 24 .frameSubmit → Gives .frameSubmitAccept s Goes))) ∧
    (frameBad s p f = false → framePast s f = false → Heads s cq p 9 24 .none →
      Gives .frameSubmit s fun t => Waits s t cq p .frameSubmit) ∧
    (frameBad s p f = true → Heads s cq p 9 24 .none → Gives .frameSubmit s fun t => Rejected s t cq p))

/-- At A_k − 10 µs a chain enters clearing; at A_k it is admitted at a rung one below its predecessor's, within the floor, with its
depth at 1.0, its ready marks clear and its first kernel accepted, or it has missed where no frame was submitted. At D_k a running
chain is cut off: it has missed, its kernels end with 0x312, but for one that was refused (R162), and their strands hold CUTOFF;
10 µs later those left are retired (R338 to R351, R360, R368, R413). -/
def Obligations.ChainsRun : Prop :=
  (∀ (s : State) (stream n k : Nat), (let x := streamOf s stream
    (AtStrip s stream n k x.nextClear → startAt x n k - 10000 * 2 ^ 16 ≤ s.clk.tb → Gives .chainClear s fun t =>
      t.mem = s.mem ∧ (streamOf t stream).nextClear = x.nextClear + 1 ∧
      (∀ f ks, findFrame s stream n = some f → f.kernels = ks → ks ≠ [] → ∃ ch, chainAt t stream n k = some ch ∧ ch.st = .clearing ∧
        ch.stream = stream ∧ ch.frame = n ∧ ch.strip = k) ∧
      (findFrame s stream n = none → t.strands = s.strands ∧ t.strips.chains = s.strips.chains)) ∧
    (AtStrip s stream n k x.nextStart → x.nextStart < x.nextClear → startAt x n k ≤ s.clk.tb →
      (let rung := min x.floor (priorRung s stream x - 1)
       (findFrame s stream n = none → Gives .chainStart s fun t => t.strands = s.strands ∧
         (streamOf t stream).nextStart = x.nextStart + 1 ∧ Counts s t (0x1860 + stream) ∧
         (∃ ch, chainAt t stream n k = some ch ∧ ch.st = .missed ∧ ch.rung = rung ∧ ch.cores = []) ∧
         Posted s t) ∧
       ∀ f ck rest, findFrame s stream n = some f → f.kernels = ck :: rest → f.geom = none → ck.kind ≠ 2 → NoWatch s →
         refuseCode s x.ctx ck.lrec true (ck.kind == 0) = none → Gives .chainStart s fun t => t.strands = s.strands ∧
           (∃ ch, chainAt t stream n k = some ch ∧ ch.st = .running ∧ ch.rung = rung ∧ ch.admitted = s.clk.tb ∧ ch.stage = 0 ∧
             ch.kernel = some s.cmd.nextKernel) ∧
           (∃ q, look t.cmd.kernels s.cmd.nextKernel = some q ∧ q.lrec = ck.lrec ∧ q.kind = ck.kind ∧ q.strip = true ∧ q.err = 0) ∧
           (∀ m ∈ t.strips.marks, m.1 = stream → m.2 / (8 * 2 ^ x.sh) ≠ x.slotOf n k) ∧
           ∀ y, (x.band k).1 ≤ y → y < (x.band k).2 → ∀ px < x.rendW,
             t.mem.read (ringPa s x.ring (depOff s x n k y px)) 4 = toLE 4 0x3F800000)))) ∧
  ∀ (s : State) c ch, s.arg = .one c → look s.strips.chains c = some ch →
    (let mine := fun (st : Strand) => ∃ k, look s.cmd.kernels st.kernel = some k ∧ k.chain = some c
     (cmdUp s = true → ch.st = .running → deadlineAt (chainStream s ch) ch.frame ch.strip ≤ s.clk.tb →
       (∀ e ∈ s.strands, ∀ x, e.2.run ≠ .halted x) → (∀ b, ch.oldStream = none → chainAt s ch.stream ch.frame (ch.strip + 1) = some b → b.st ≠ .running) → Gives .chainCutoff s fun t =>
         (∃ ch', look t.strips.chains c = some ch' ∧ ch'.st = .missed ∧ ch'.cores = [] ∧
           ch'.cutAt = some ((deadlineAt (chainStream s ch) ch.frame ch.strip).toNat + 10000 * 2 ^ 16)) ∧
         Counts s t (0x1860 + ch.stream) ∧
         (∀ y k, look s.cmd.kernels y = some k → k.chain = some c → k.err.toNat / 256 ≠ 1 → ∃ k', look t.cmd.kernels y = some k' ∧ k'.discarded = true ∧
           k'.err = 0x312 ∧ k'.formed = []) ∧
         (∀ sid st, look s.strands sid = some st → mine st → st.held = [] → st.inTrap = false →
           look t.strands sid = some { st with held := [{ cause := 0x12 }] }) ∧
         Posted s t) ∧
     ∀ a, ch.cutAt = some a → a ≤ s.clk.tb → Gives .cutoffRetire s fun t => t.mem = s.mem ∧
       (∃ ch', look t.strips.chains c = some ch' ∧ ch'.cutAt = none ∧ ch'.st = ch.st) ∧
       ∀ sid st, look s.strands sid = some st → (mine st → look t.strands sid = none))

/-- QUAD_FORM forms the next quad of a chain's kernel, four beads of its strand, leaves a triangle that has none, or ends the work of
the front end; RATE_CHECKPOINT moves the cost of its rung a quarter of the way to what it measured, and coarsens the rate where the
chain would be late; REPLAY_LAUNCH launches the geometry record again for one strip; BLEND_RETIRE writes a fragment's pixels, those
that pass EMITCZ's test, and their depths where the kernel writes depth (R348 to R350, R366 to R369, R375 to R378). That a fragment of
EMITC is tested no more at blend, also where zearly is 0, is the model's choice (log 87). -/
def Obligations.FrontsWork : Prop :=
  (∀ (s : State) c ch, s.arg = .one c → look s.strips.chains c = some ch →
    (∀ kid k ck, frontReady s ch = some (kid, k, ck) → ck.kind ≠ 1 ∨ ch.front.rung = ch.rung →
      let Goes := fun (t : State) => SameBytes s t ∧ t.strands = s.strands ∧ t.queues = s.queues
      (ch.front.todo = [] → Gives .quadForm s fun t => Goes t ∧ ∃ k', look t.cmd.kernels kid = some k' ∧ k'.open_ = false) ∧
      (ch.front.todo ≠ [] → nextQuad s (chainStream s ch) ch (shadingOf s ch ck) = none → Gives .quadForm s fun t => Goes t ∧
        ∃ ch', look t.strips.chains c = some ch' ∧ ch'.front.todo = ch.front.todo.tail ∧ ch'.front.begun = false ∧
          ch'.order = ch.order) ∧
      ∀ o, ch.front.todo ≠ [] → nextQuad s (chainStream s ch) ch (shadingOf s ch ck) = some o → Gives .quadForm s fun t =>
        Goes t ∧ ∃ ch', look t.strips.chains c = some ch' ∧ ch'.order = ch.order + 1 ∧ ch'.front.todo = ch.front.todo ∧
          ch'.front.begun = true ∧ ch'.front.y = o.2 ∧ ch'.front.x = o.1 + 2 * (rungBlock ch.front.rung).1 ∧
          ch'.formed = ch.formed + (if k.kind = 1 then 1 else 0) ∧
          ch'.fullQuads = ch.fullQuads + (if k.kind = 1 then 2 ^ ch.front.rung else 0) ∧
          (4 * (ch.front.filling.quads + 1) < k.lrec.width → ch.front.strands.length < k.lrec.strands →
            k.kind ≠ 1 ∨ ch.formed + 1 ≠ 256 * (ch.checkpoints + 1) → ch'.front.filling.quads = ch.front.filling.quads + 1 ∧
            ∀ i < 4, ∀ f, (quadFrags s (chainStream s ch) ch.frame ch.strip (shadingOf s ch ck) ch.front.rung o.1 o.2
              ch.order)[i]? = some f → look ch'.front.filling.frags (4 * ch.front.filling.quads + i) = some f)) ∧
    (∀ ck, checkpointDue s ch = some ck → ch.oldStream = none → Gives .rateCheckpoint s fun t => t.mem = s.mem ∧ t.strands = s.strands ∧
      (let x := streamOf s ch.stream
       let y := streamOf t ch.stream
       let late := deadlineAt x ch.frame ch.strip - 4000 * 2 ^ 16 < (predict s ch ck y : Int)
       (∀ r < 5, y.cost.getD r 0 = if r = ch.rung then toward (x.cost.getD r 0) ((s.clk.tb - ch.tPrev) / ch.fullQuads)
         else x.cost.getD r 0) ∧
       ∃ ch', look t.strips.chains c = some ch' ∧ ch'.checkpoints = ch.checkpoints + 1 ∧ ch'.tPrev = s.clk.tb ∧ ch'.fullQuads = 0 ∧
         (late → ch.rung < x.floor → ch'.rung = ch.rung + 1) ∧ (¬ late ∨ x.floor ≤ ch.rung → ch'.rung = ch.rung))) ∧
    (∀ f g r, replayReady s ch = true → frameOf s ch = some f → f.geom = some g → ch.front.replay = some r →
      (let ctx := (chainStream s ch).ctx
       refuseCode s ctx { g with signal := 0 } true true = none → Gives .replayLaunch s fun t => t.mem = s.mem ∧
         t.strands = s.strands ∧ (∃ q, look t.cmd.kernels s.cmd.nextKernel = some q ∧ q.lrec = { g with signal := 0 } ∧
           q.origin = .replay c ∧ q.stripNo = BitVec.ofNat 32 ch.strip ∧ q.err = 0) ∧
         ∃ ch', look t.strips.chains c = some ch' ∧ ch'.front.replay = some { r with
           kept := [], refused := false, kernel := some s.cmd.nextKernel }))) ∧
  ∀ (s : State) id f ch ck, s.arg = .one id → look s.strips.frags id = some f → blendReady s f = true →
    look s.strips.chains f.chain = some ch → stageOf s ch = some ck →
    (f.color = none → Gives .blendRetire s fun t => t.mem = s.mem ∧ t.strands = s.strands ∧ look t.strips.frags id = none) ∧
    ∀ col, f.color = some col → ck.kind = 1 ∨ ck.kind = 2 ∧ f.zOver = none → NoWatch s → (let b := blendPlan s f ch ck
      let deep := ck.kind = 1 ∧ ck.zw = true
      let ps := f.bead.pixels
      ps.Pairwise (fun p q => WordsApart (b.colour p) (b.colour q)) →
      (ck.kind = 1 → ps.Pairwise (fun p q => WordsApart (b.depth p) (b.depth q)) ∧ ∀ p ∈ ps, ∀ q ∈ ps, WordsApart (b.colour p) (b.depth q)) →
      Gives .blendRetire s fun t => KnowsMore s t ∧ look t.strips.frags id = none ∧
        (∀ p ∈ ps, b.pass p = true →
          t.mem.read (b.colour p) 4 = toLE 4 (blendPixel (ck.kind = 1 && ck.blend) col
            (BitVec.ofNat 32 (ofLE (s.mem.read (b.colour p) 4)))).toNat ∧
          (deep → t.mem.read (b.depth p) 4 = toLE 4 (b.z p).toNat)) ∧
        ∀ a, (∀ p ∈ ps, b.pass p = true → (a < b.colour p ∨ b.colour p + 4 ≤ a) ∧
          (deep → a < b.depth p ∨ b.depth p + 4 ≤ a)) → t.mem.byteAt a = s.mem.byteAt a)

/-- At D_k an output takes the ready marks of its strip. A display port sends a line at its time, each pixel as it stands in the ring
or, where the line was not ready, in the fill colour. The encoder takes a line at its time; with a strip's last line it codes the
strip, as skip where one was not ready, appends its bytes to the session's bitstream ring, at places that are free (log 111), and puts
what the strip reconstructs to into the reference store, at places that are free (log 110): for a skip the same rows of LAST, which
the frame becomes with its last strip, as it becomes GOLDEN at the session's interval. The loopback capture stores a line's codes, but
for the words that do not translate, which are lost; after the last line it adds 1 to the signal, as a release of what it wrote, and
tells of a loss (R334, R340, R352, R379 to R381). -/
def Obligations.OutputsTake : Prop :=
  (∀ (s : State) (stream n k : Nat), (let x := streamOf s stream
    s.arg = .three stream n k → x.active = true → x.stopping = false ∨ x.nextRead < x.nextStart → k < x.strips →
      x.nextRead = stripNo x n k → deadlineAt x n k ≤ s.clk.tb → Gives .stripRead s fun t => t.mem = s.mem ∧
        t.strands = s.strands ∧ (streamOf t stream).nextRead = x.nextRead + 1 ∧
        ∀ y, y ∈ takenOf t stream n k ↔
          (∃ ch, chainAt s stream n k = some ch ∧ ch.st ≠ .waiting ∧ ch.st ≠ .clearing) ∧ (x.outLines k).1 ≤ y ∧
            y < (x.outLines k).2 ∧ lineReady s stream n y = true)) ∧
  (∀ (s : State) (stream n y : Nat), s.arg = .three stream n y → OutputAt s stream 0 n y → (let x := streamOf s stream
    let eight := (sregOf s (0x980 + 8 * x.outIdx)).getLsbD 4
    Gives .dpLineSend s fun t => SameBytes s t ∧ t.strands = s.strands ∧ (streamOf t stream).nextLine = x.nextLine + 1 ∧
      ∃ l : SentLine, t.strips.sent = s.strips.sent ++ [l] ∧ l.port = x.outIdx ∧ l.frame = n ∧ l.line = y ∧ l.pixels.length = x.outW ∧
        ∀ px < x.outW, l.pixels[px]? = some (if eight then code8 (leaves s stream n y px) else leaves s stream n y px))) ∧
  (∀ (s : State) (stream n y : Nat), s.arg = .three stream n y → OutputAt s stream 1 n y → NoWatch s → (let x := streamOf s stream
    let k := y / (8 * 2 ^ x.sh)
    let old := (look s.strips.encoders x.outIdx).getD {}
    let ready := old.rowReady + if y ∈ takenOf s stream n k then 1 else 0
    let Row := fun (r : List Word) => r.length = old.row.length + x.outW ∧ (∀ i < old.row.length, r[i]? = old.row[i]?) ∧
      ∀ px < x.outW, r[old.row.length + px]? = some (leaves s stream n y px)
    Gives .encodeStrip s fun t => t.strands = s.strands ∧ (streamOf t stream).nextLine = x.nextLine + 1 ∧
      ∃ e, look t.strips.encoders x.outIdx = some e ∧
      (y + 1 ≠ (x.outLines k).2 → SameBytes s t ∧ t.strips.coded = s.strips.coded ∧ Row e.row ∧
        e = { old with row := e.row, rowReady := ready }) ∧
      (y + 1 = (x.outLines k).2 → ∃ (c : CodedStrip) (recon : List Word), t.strips.coded = s.strips.coded ++ [c] ∧
        c.session = x.outIdx ∧ c.frame = n ∧ c.strip = k ∧ (c.skip = false ↔ ready = (x.outLines k).2 - (x.outLines k).1) ∧
        (c.skip = true → recon = (List.range (lookD old.last k 0)).map (refWord s x.outIdx old.lastAt k)) ∧
        (let place := fun i => Config.ringPlace (sregOf s (0xA08 + 16 * x.outIdx)).toNat (old.written + i)
         let kept := fun m => refAddr s x.outIdx old.frames k m
         let next := put old.next k recon.length
         let golden : Bool := old.frames % max 1 (fieldOf (sregOf s (0xA00 + 16 * x.outIdx)).toNat 47 32) == 0
         e.written = old.written + c.data.length ∧ e.row = [] ∧ e.rowReady = 0 ∧
         (k + 1 < x.strips → e.next = next ∧ e.frames = old.frames ∧ e.last = old.last ∧ e.lastAt = old.lastAt ∧
           e.golden = old.golden ∧ e.goldenAt = old.goldenAt) ∧
         (k + 1 = x.strips → e.next = [] ∧ e.frames = old.frames + 1 ∧ e.last = next ∧ e.lastAt = old.frames ∧
           e.golden = (if golden then next else old.golden) ∧ e.goldenAt = if golden then old.frames else old.goldenAt) ∧
         ((∀ i < c.data.length, ∀ j < c.data.length, place i = place j → i = j) →
           ∀ i b, c.data[i]? = some b → t.mem.byteAt (place i) = b) ∧
         ((∀ m < recon.length, ∀ a, kept m = some a → (∀ i < c.data.length, place i < a ∨ a + 4 ≤ place i) ∧
             ∀ m' < recon.length, ∀ a', m ≠ m' → kept m' = some a' → WordsApart a a') →
           ∀ m w a, recon[m]? = some w → kept m = some a → t.mem.read a 4 = toLE 4 w.toNat) ∧
         ∀ a, (∀ i < c.data.length, place i ≠ a) → (∀ m < recon.length, ∀ b, kept m = some b → a < b ∨ b + 4 ≤ a) →
           t.mem.byteAt a = s.mem.byteAt a)))) ∧
  ∀ (s : State) (stream n y : Nat) (p : Nat → Nat) key, s.arg = .three stream n y → OutputAt s stream 2 n y → (let x := streamOf s stream
    let at_ := fun (need : Need) va size => translation s { ctx := x.ctx, quad := 0, path := some .x, need := need } (va % 2 ^ 64) size
    let word_ := fun px => at_ .write ((sregOf s (0x800 + 8 * x.outIdx)).toNat + 4 * (y * x.outW + px)) 4
    let Kept := fun px => (∃ pin, word_ px = (.ok (p px) key pin, s)) ∧ AtRest s (p px) 4 key ∧ heldBySlot s (p px) 4 = false
    let Lost := fun px => ∃ cause info, word_ px = (.fault cause info, s)
    let old := captureOf s stream n
    let sig := (sregOf s (0x880 + 8 * x.outIdx)).toNat
    let Codes := fun (t : State) => t.strands = s.strands ∧ (streamOf t stream).nextLine = x.nextLine + 1 ∧
      ∀ px < x.outW, Kept px → t.mem.read (p px) 4 = toLE 4 (leaves s stream n y px).toNat
    (∀ px < x.outW, Kept px ∨ Lost px) →
    (∀ a < x.outW, ∀ b < x.outW, a ≠ b → Kept a → Kept b → WordsApart (p a) (p b)) →
    (y + 1 ≠ x.outH → Gives .loopbackCapture s fun t => Codes t ∧
      (∀ a, (∀ px < x.outW, Kept px → a < p px ∨ p px + 4 ≤ a) → t.mem.byteAt a = s.mem.byteAt a) ∧
      ∃ c ∈ t.strips.captures, c.stream = stream ∧ c.frame = n ∧
        ((∀ px < x.outW, ¬ Lost px) → c.lost = old.lost) ∧ ((∃ px < x.outW, Lost px) → c.lost = old.lost ++ [y])) ∧
    (y + 1 = x.outH → s.strips.late = [] → sig % 32 = 0 →
      (∀ q qk pin, at_ .both sig 32 = (.ok q qk pin, s) → AtRest s q 32 qk → heldBySlot s q 32 = false →
        (∀ px < x.outW, Kept px → (p px + 4 ≤ q ∨ q + 32 ≤ p px) ∧ (key = qk ∨ p px / 128 ≠ q / 128)) →
        old.lost = [] → (∀ px < x.outW, Kept px) → Gives .loopbackCapture s fun t => Codes t ∧
          t.mem.read q 8 = toLE 8 ((ofLE (s.mem.read q 8) + 1) % 2 ^ 64) ∧ t.cmd.evr = s.cmd.evr ∧
          (∀ a, (∀ px < x.outW, a < p px ∨ p px + 4 ≤ a) → a < q ∨ q + 8 ≤ a → t.mem.byteAt a = s.mem.byteAt a) ∧
          ∃ w log, t.mem.log = w :: log ∧ w.pa = q ∧ ∃ pub ∈ w.pubs, (∀ id ∈ old.writes, (id, Path.x) ∈ pub.pairs) ∧
            ∀ px < x.outW, ∃ v ∈ log, v.pa = p px ∧ (v.id, Path.x) ∈ pub.pairs) ∧
      (∀ cause info, at_ .both sig 32 = (.fault cause info, s) → Gives .loopbackCapture s fun t => t.strands = s.strands ∧
        (streamOf t stream).nextLine = x.nextLine + 1 ∧ Posted s t ∧
        ∀ c ∈ t.strips.captures, c.stream = stream → c.frame ≠ n)))

namespace Sys2Proof.Claims
open Sys2Proof Sys2Proof.Machine

/-! ### The keeper (R426 to R432) -/

/-- How many of the five parts, in order, have an image that verifies (R426). -/
def verified (images : SMap Firmware) : Nat :=
  ((List.range 5).takeWhile fun n => match look images (n + 1) with
    | some f => Config.verify f.code f.signature
    | none => false).length

/-- The measurements of the first n parts (R428). -/
def measuresOf (images : SMap Firmware) (n : Nat) : List Measure :=
  (List.range n).filterMap fun m => (look images (m + 1)).map fun f =>
    { step := m + 1, digest := sha256 f.code, version := f.version }

/-- The machine after a boot with the images that its keeper holds (R426, R427). -/
def Booted (s t : State) (images : SMap Firmware) : Prop :=
  let n := verified images
  t.keep.images = images ∧ t.keep.released = n ∧ t.keep.log = measuresOf images n ∧ t.keep.counters = s.keep.counters ∧
    t.keep.held = false ∧ t.keep.recovering = none ∧
    (n = 5 → t.keep.failed = none ∧ t.keep.mgmt = s.keep.mgmt) ∧
    (n < 5 → t.keep.failed = some (n + 1) ∧ t.keep.mgmt = s.keep.mgmt ++ [.bootFailed (n + 1)]) ∧
    t.strands = [] ∧ t.cmd = State.reset.cmd ∧ t.clk = State.reset.clk ∧ t.sreg = State.reset.sreg ∧
    t.mem = { State.reset.mem with corrected := s.mem.corrected } ∧
    t.queues = [] ∧ t.ctxs = []

/-- A report over the log for a nonce, at a time (R428). -/
def Reports (s : State) (nonce : List Byte) (r : Report) : Prop :=
  r.log = s.keep.log ∧ r.nonce = nonce ∧ r.time = s.clk.tb / 2 ^ 16 ∧ r.rom = Config.romDigest ∧
    r.sig = Config.sign (((s.keep.log.map fun m => toLE 4 m.step ++ m.digest ++ toLE 4 m.version.toNat) ++
      [Config.romDigest, nonce, toLE 8 (s.clk.tb / 2 ^ 16)]).flatten)

/-- Only the keeper differs. -/
def KeeperOnly (s t : State) : Prop := t = { s with keep := t.keep }

end Sys2Proof.Claims

/-- BOOT releases the parts one after another while their images verify, measures each, and stops and reports at the first that does
not; everything but the keeper's flash, counters and reports is as after reset. A replacement that verifies, after a failure, is
stored and boot starts again (R426 to R428); none is taken otherwise, or while a thermal shutdown holds the parts (log 116). -/
def Sys2Proof.Claims.KeeperBoots : Prop :=
  (∀ s : State, Gives .boot s fun t => Booted s t s.keep.images) ∧
  ∀ (s : State) step f, s.arg = .image step f →
    (s.keep.failed.isSome → s.keep.held = false → 1 ≤ step → step ≤ 5 → Gives .firmwareReplacement s fun t =>
      if Config.verify f.code f.signature then Booted s t (put s.keep.images step f) else t = s) ∧
    (s.keep.failed = none ∨ s.keep.held = true → exec .firmwareReplacement s = .next s)

/-- A heartbeat is noted; 100 µs without one begin recovery, and WATCHDOG is held by the strands of every braid that can be saved; its
end measures and verifies the command processor again and posts RECOVERED, or reports the image that fails (R408, R427 to R430). That
the measurement is appended to the log (log 56), and that a failed recovery leaves the parts from the command processor on in reset
(log 116), is the model's choice. -/
def Sys2Proof.Claims.KeeperWatches : Prop :=
  ∀ s : State,
    (cmdUp s = true → exec .heartbeat s = .next { s with keep := { s.keep with lastBeat := s.clk.tb } }) ∧
    (cmdUp s = true → s.keep.lastBeat + 100000 * 2 ^ 16 ≤ s.clk.tb → Gives .watchdogTimeout s fun t => t.mem = s.mem ∧
      t.keep = { s.keep with recovering := some (s.clk.tb / 2 ^ 16), recoverAt := s.clk.tb } ∧ t.cmd = s.cmd ∧
      ∀ sid st b, look s.strands sid = some st → look s.braids st.braid = some b → b.st = .placed →
        savable (lookD s.cmd.kernels b.kernel {}) = true → (∀ x ∈ st.held, x.cause ≠ 0x15) → st.inTrap = false →
        ∃ st', look t.strands sid = some st' ∧ { cause := 0x15, info := 0 } ∈ st'.held ∧ st'.pc = st.pc ∧ st'.run = st.run) ∧
    (s.keep.recovering.isSome → look s.keep.images 2 = none → exec .recoveryEnd s = .next { s with keep := { s.keep with
      recovering := none, released := 1, failed := some 2, mgmt := s.keep.mgmt ++ [.bootFailed 2] } }) ∧
    ∀ f, s.keep.recovering.isSome → look s.keep.images 2 = some f → Gives .recoveryEnd s fun t => t.strands = s.strands ∧
      t.keep.recovering = none ∧
      if Config.verify f.code f.signature then
        t.keep.lastBeat = s.clk.tb ∧ t.keep.released = s.keep.released ∧
        t.keep.log = s.keep.log ++ [{ step := 2, digest := sha256 f.code, version := f.version }] ∧
        Posted s t
      else t.keep.released = 1 ∧ t.keep.failed = some 2 ∧ t.keep.mgmt = s.keep.mgmt ++ [.bootFailed 2] ∧ t.keep.log = s.keep.log ∧
        t.cmd = s.cmd

/-- kp_cmd starts a command while none runs, and is ignored otherwise; when the command is done kp_data holds a counter of the table,
0 for an index outside it with the error bit, and a report is written where its nonce stood. A report may also be asked for over the
management port (R428, R431, R432). What a report holds is free (log 45). -/
def Sys2Proof.Claims.KeeperAnswers : Prop :=
  ∀ s : State,
    (∀ p v, s.arg = .val p v →
      (v.toNat / 2 ^ 28 % 16 = 1 → s.keep.busy = none → exec .kpRead s = .next { s with keep := { s.keep with
        busy := some (.read (v.toNat % 2 ^ 16)) } }) ∧
      (v.toNat / 2 ^ 28 % 16 = 2 → s.keep.busy = none → exec .kpAttest s = .next { s with keep := { s.keep with
        busy := some (.attest s.keep.data.toNat) } }) ∧
      (s.keep.busy.isSome → exec .kpRead s = .next s ∧ exec .kpAttest s = .next s)) ∧
    (∀ i, s.keep.busy = some (.read i) → Gives .keeperCmdDone s fun t => KeeperOnly s t ∧ t.keep.busy = none ∧
      (let listed := i ≤ 0x182F ∨ i = 0x1840 ∨ i = 0x1841 ∨ 0x1848 ≤ i ∧ i ≤ 0x184F ∨ 0x1850 ≤ i ∧ i ≤ 0x1853 ∨
         0x1860 ≤ i ∧ i ≤ 0x189F
       (listed → t.keep.err = false ∧
         t.keep.data = BitVec.ofNat 64 (if i < 0x1800 then lookD s.mem.corrected i 0 else lookD s.keep.counters i 0)) ∧
       (¬ listed → t.keep.err = true ∧ t.keep.data = 0))) ∧
    (∀ a, s.keep.busy = some (.attest a) → (inMemory a 32 = false → Gives .keeperCmdDone s fun t => KeeperOnly s t ∧
        t.keep.busy = none ∧ t.keep.err = true ∧ t.keep.data = 0) ∧
      (inMemory a 32 = true → (∀ n, AtRest s a n 0) → Gives .keeperCmdDone s fun t => t.strands = s.strands ∧
        t.keep.busy = none ∧ ∃ r, Reports s (s.mem.read a 32) r ∧
          (let bs := Config.reportBytes ((r.log.map fun m => toLE 4 m.step ++ m.digest ++ toLE 4 m.version.toNat) ++
             [r.rom, r.nonce, toLE 8 r.time, r.sig])
           if inMemory a bs.length then t.keep.err = false ∧ t.keep.data = s.keep.data ∧ Stored s t a bs
           else t.keep.err = true ∧ t.keep.data = 0 ∧ SameBytes s t))) ∧
    ∀ nonce, s.arg = .bytes nonce → nonce.length = 32 → Gives .mgmtAttestRequest s fun t => KeeperOnly s t ∧
      ∃ r, t.keep = { s.keep with mgmt := s.keep.mgmt ++ [.report r] } ∧ Reports s nonce r

/-- KeeperBoots, KeeperWatches and KeeperAnswers together. -/
def Obligations.KeeperWorks : Prop := Sys2Proof.Claims.KeeperBoots ∧ Sys2Proof.Claims.KeeperWatches ∧ Sys2Proof.Claims.KeeperAnswers

namespace Sys2Proof.Claims
open Sys2Proof Sys2Proof.Machine

/-! ### A step, and the encoding (R33 to R36, R45 to R47, R64, R69, R70) -/

/-- What a step makes of what takes place in it: time passes after a next state (log 2). -/
def thenTime (core : Option Nat) : Host.Outcome State Fault Refusal → Host.Outcome State Fault Refusal
  | .next t => .next (passTime core t)
  | .fault f => .fault f
  | .refused r => .refused r

/-- The number of the instruction that a strand begins: a new one, but that of the instruction which RTT resumes at a bead (R203,
R410). -/
def stampAt (s : State) (st : Strand) : Nat :=
  match st.savedStamp with
  | some (pc, n) => if st.inTrap = false ∧ st.resuming = true ∧ pc = st.pc ∧ 0 < st.pos ∧ st.pos < 255 then n else s.choice + 2
  | none => s.choice + 2

/-- A strand that its lane chose, as it runs the word w: it has issued at this moment, and holds the word. -/
def issuing (s : State) (st : Strand) (w : Word) : Strand :=
  { st with issued := s.choice + 2, yielded := false, run := .ready, entering := false, insn := some w
            stamp := if st.insn.isNone then stampAt s st else st.stamp
            savedStamp := if st.inTrap then st.savedStamp else none }

/-- The state in which a strand that its lane chose runs the word w; the lane's boundary has passed, so that no strand of it is
passed over any longer for a YIELD (R92). -/
def running (s : State) (sid : Nat) (st : Strand) (w : Word) : State :=
  { s with
    choice := s.choice + 2, cur := sid
    strands := put (s.strands.map fun e => if e.2.core = st.core ∧ e.2.lane = st.lane then (e.1, { e.2 with yielded := false }) else e)
      sid (issuing s st w) }

/-- The word at a strand's pc is w: its page translates for a fetch to pa, under key, where memory holds w at rest, and no write
since its kernel's launch has touched it (R36, R70, R170). -/
def HoldsWord (s : State) (sid : Nat) (st : Strand) (pa key : Nat) (w : Word) : Prop :=
  st.insn = none ∧ st.accFault = none ∧
    (∃ pin, (translation { s with choice := s.choice + 2, cur := sid } (fetchAccess st) (programAddr s st st.pc) 4).1 = .ok pa key pin) ∧
    Legible s pa 4 key ∧ zeroingAt s pa 4 = false ∧ heldBySlot s pa 4 = false ∧ wordOfBytes (s.mem.read pa 4) = w ∧
    ∀ k x, s.mem.log[k]? = some x → k < s.mem.log.length - (kernelOf s st).startLog → x.pa + x.new.length ≤ pa ∨ pa + 4 ≤ x.pa

/-- Words written out from the tables of R33, R45 and R46, field by field, and what they stand for. -/
def knownWords : List (Word × Instr) :=
  [(0b0000001#7 ++ 0#25, .nop),
   (0b0000010#7 ++ 0x1FFFFFF#25, .bra 0x1FFFFFF),
   (0b0000100#7 ++ 3#7 ++ 0x3FFFE#18, .bnz (.bead 3) 0x3FFFE),
   (0b0001001#7 ++ 92#7 ++ 8#18, .loop (.uni 4) 8),
   (0b0010000#7 ++ 1#7 ++ 2#7 ++ 88#7 ++ 1#1 ++ 0#1 ++ 2#2, .sub (.bead 1) (.bead 2) (.uni 0) true false),
   (0b0010001#7 ++ 1#7 ++ 1#7 ++ 0x3FF#10 ++ 0#1, .addi (.bead 1) (.bead 1) 0x3FF false),
   (0b0011011#7 ++ 5#7 ++ 6#7 ++ 2#2 ++ 0#3 ++ 31#5 ++ 1#1, .sari (.bead 5) (.bead 6) 31 true),
   (0b0100110#7 ++ 120#7 ++ 124#7 ++ 0#7 ++ 0#4, .mov .zr (.q 0) false),
   (0b0110001#7 ++ 7#7 ++ 8#7 ++ 9#7 ++ 1#2 ++ 3#2, .fnms (.bead 7) (.bead 8) (.bead 9) false true),
   (0b0110111#7 ++ 10#7 ++ 11#7 ++ 3#4 ++ 4#3 ++ 1#1 ++ 2#2 ++ 0#1, .cvtn (.bead 10) (.bead 11) .e4m3 .sr true 2 false),
   (0b0111011#7 ++ 4#7 ++ 5#7 ++ 7#7 ++ 0#4, .tanh (.bead 4) (.bead 5) false),
   (0b1000000#7 ++ 3#7 ++ 1#7 ++ 120#7 ++ 0#4, .scani (.bead 3) (.bead 1) .zr false false),
   (0b1001100#7 ++ 92#7 ++ 0#18, .electl (.uni 4)),
   (0b1010000#7 ++ 8#7 ++ 2#7 ++ 3#4 ++ 31#5 ++ 3#2, .ld (.bead 8) (.bead 2) 3 31 .w64),
   (0b1100000#7 ++ 1#7 ++ 2#7 ++ 4#7 ++ 5#3 ++ 1#1, .atcas (.bead 1) (.bead 2) (.bead 4) 5 true),
   (0b1100010#7 ++ 0b10001#7 ++ (0#2 ++ 1#2 ++ 4#3) ++ 0#7 ++ 0#4, .fence 17 .acq .system),
   (0b1100011#7 ++ 3#7 ++ 0#7 ++ 23#7 ++ 3#4, .htest (.bead 3) 23),
   (0b1100100#7 ++ 9#7 ++ 127#7 ++ 12#7 ++ 5#4, .qpops (.bead 9) 3 (.bead 12)),
   (0b1100111#7 ++ 0b0010011#7 ++ 96#7 ++ 98#7 ++ 0#4, .sigwr .maxu .device (.uni 8) (.uni 10)),
   (0b1101000#7 ++ 95#7 ++ 96#7 ++ 100#7 ++ 4#4, .scat (.uni 7) (.uni 8) (.uni 12)),
   (0b1101010#7 ++ 97#7 ++ 108#7 ++ 106#7 ++ 3#4, .lsig (.uni 9) (.uni 20) (.uni 18)),
   (0b1101111#7 ++ 92#7 ++ 94#7 ++ 0#7 ++ 0#4, .srate (.uni 4) (.uni 6)),
   (0b1110000#7 ++ 96#7 ++ 1#3 ++ 2#3 ++ 3#3 ++ 4#3 ++ 5#3 ++ 1#1 ++ 0#1 ++ 1#1, .mma (.uni 8) 1 2 3 4 5 true false true),
   (0b1110001#7 ++ 96#7 ++ 98#7 ++ (0#2 ++ 5#3 ++ 2#2) ++ 1#4, .acld (.uni 8) (.uni 10) 5 2),
   (0b1111000#7 ++ 88#7 ++ 0x28#7 ++ 1#7 ++ 0#4, .sread (.uni 0) 0x28 true),
   (0b1111011#7 ++ 96#7 ++ 120#7 ++ 4#7 ++ 0#4, .slotq (.uni 8) .zr .lpddr),
   (0b1111100#7 ++ 0#25, .rtt)]

/-- Words that name no instruction, and the check of R47 that they fail first. -/
def refusedWords : List (Word × DecodeError) :=
  [(0b0101000#7 ++ 0#25, .reservedOpcode), (0b1110100#7 ++ 0#25, .reservedOpcode), (0b1111101#7 ++ 0#25, .reservedOpcode),
   (0b0010011#7 ++ 0#7 ++ 0#7 ++ 0#7 ++ 0#2 ++ 1#2, .noSuchForm), (0b1100110#7 ++ 0#7 ++ 0#7 ++ 0#7 ++ 15#4, .noSuchForm),
   (0b0000001#7 ++ 1#25, .mbzNonzero), (0b0100110#7 ++ 0#7 ++ 0#7 ++ 1#7 ++ 0#4, .mbzNonzero),
   (0b0001001#7 ++ 0#7 ++ 1#18, .badImmediate), (0b1100010#7 ++ 0#7 ++ (0#2 ++ 1#2 ++ 4#3) ++ 0#7 ++ 0#4, .badImmediate),
   (0b1100010#7 ++ 1#7 ++ (0#2 ++ 0#2 ++ 4#3) ++ 0#7 ++ 0#4, .badImmediate), (0b1100011#7 ++ 0#7 ++ 0#7 ++ 24#7 ++ 0#4, .badImmediate)]

/-- What a supervisor register reads as after reset (R421). -/
def resetOf (off : Nat) : DWord :=
  if off = 0 then 1 else if off = 0x10 then 20 else if off = 0x20 then 2 else if off = 0x58 then 6
  else if 0x100 ≤ off ∧ off < 0x280 ∧ off % 8 = 0 then 6 else 0

end Sys2Proof.Claims

/-- A step runs what is chosen: the word at the chosen strand's pc, decoded, by the strand's meaning for it, or a happening with
its operand; time passes after it, and nothing else is done around it. With nothing to do only time passes, and a happening of the
outside that meets a part in reset has no effect (R426). A word that the
strand holds already, from an instruction that waited, is run again. What is chosen, and how long a step takes, are free (logs 1
and 2). -/
def Obligations.StepRuns : Prop :=
  (∀ s : State, chosen s = none → step s = .next (passTime none { s with choice := s.choice + 2 })) ∧
  (∀ (s : State) h, chosen s = some (.happening h) →
    step s = thenTime none (exec h.row { s with choice := s.choice + 2, arg := h.arg })) ∧
  (∀ (s : State) h, chosen s = some (.input h) → heard s h.row = false →
    step s = .next (passTime none { s with choice := s.choice + 2, inputs := s.inputs.tail })) ∧
  (∀ (s : State) h, chosen s = some (.input h) → heard s h.row = true →
    step s = thenTime none (exec h.row { s with choice := s.choice + 2, inputs := s.inputs.tail, arg := h.arg })) ∧
  (∀ (s : State) sid (st : Strand) w i, chosen s = some (.strand sid) → look s.strands sid = some st → st.insn = some w → st.accFault = none →
    decode w = .ok i →
    step s = thenTime (some st.core) (exec i (running s sid st w))) ∧
  ∀ (s : State) sid (st : Strand) pa key w i, chosen s = some (.strand sid) → look s.strands sid = some st → HoldsWord s sid st pa key w →
    decode w = .ok i → ∃ u, step s = thenTime (some st.core) (exec i u) ∧ SameBytes s u ∧
      u = { running s sid st w with mem := u.mem, vaults := u.vaults, trans := u.trans }

/-- A strand that fetches a word that names no instruction enters its handler with ILLEGAL, at that word, as a strand; one whose
fetch faults, with the cause and trap_info of the fault and the address fetched (R47, R70, R170, R395, R396). -/
def Obligations.WordsTrap : Prop :=
  ∀ (s : State) sid (st : Strand), chosen s = some (.strand sid) → look s.strands sid = some st → st.inTrap = false →
    (kernelOf s st).lrec.trap ≠ 0xFFFFFFFF →
    (∀ w e, st.insn = some w → st.accFault = none → decode w = .error e → ∃ t st', step s = .next (passTime (some st.core) t) ∧
      look t.strands sid = some st' ∧
      Entered (running s sid st w) sid (issuing s st w) ⟨0x01, 0xFF, st.pc, 0, st.flow.mask, 0⟩ t st') ∧
    ∀ cause info, st.insn = none → st.accFault = none →
      (translation { s with choice := s.choice + 2, cur := sid } (fetchAccess st) (programAddr s st st.pc) 4).1 = .fault cause info →
      ∃ t st', step s = .next (passTime (some st.core) t) ∧ look t.strands sid = some st' ∧
        st'.inTrap = true ∧ st'.pc = (kernelOf s st).lrec.trap ∧
        st'.trap = ⟨BitVec.ofNat 32 cause, 0xFF, st.pc, BitVec.ofNat 32 info, st.flow.mask,
          BitVec.ofNat 64 (programAddr s st st.pc)⟩

/-- The words of a few instructions, written out field by field, decode to them, and words that name none are refused by the check
that they fail (R33, R45 to R47). -/
def Obligations.KnownWordsDecode : Prop :=
  (∀ e ∈ knownWords, decode e.1 = .ok e.2) ∧ ∀ e ∈ refusedWords, decode e.1 = .error e.2

/-- Decoding the word of a well-formed instruction gives the instruction, with every operand at every value its encoding admits
(R33, R34, R45, R46). -/
def Obligations.EncodedWordsDecode : Prop := ∀ i w, i.wf = true → encode i = some w → decode w = .ok i

/-- A word that decodes is the word of the instruction that it decodes to, which is well-formed: no two words stand for one
instruction, and no bit of a word is ignored (R33, R35, R45 to R47). -/
def Obligations.DecodedWordsEncode : Prop := ∀ w i, decode w = .ok i → i.wf = true ∧ encode i = some w

/-- Every step keeps memory in its canonical form. -/
def Obligations.StepsKeepMemory : Prop := ∀ s t : State, s.Sound → step s = .next t → t.Sound

/-- Reset memory is in canonical form and lists nothing: the runs from reset start sound. That a byte that nothing has written
reads 0 is the model's choice (log 6). -/
def Obligations.ResetIsSound : Prop := State.reset.Sound ∧ ∀ a, State.reset.mem.byteAt a = 0

/-- After reset every supervisor register reads as its Reset column says, no strand, braid or kernel exists, no command queue is
enabled, and the keeper has released no part (R308, R421, R422, R426). The debug windows have no Reset column: that they read 0
before a strand is named is the model's choice (log 47). -/
def Obligations.ResetLeaves : Prop :=
  (∀ off, readRegister State.reset off = resetOf off) ∧ State.reset.strands = [] ∧ State.reset.braids = [] ∧
    State.reset.cmd.kernels = [] ∧ (∀ q, (cqOf State.reset q).en = false) ∧ State.reset.keep.released = 0 ∧
    ∀ c, (lookD State.reset.ctxs c {}).st = .free
end

