-- ==== Sys2Proof/Laws/Encoding.lean ====
section
/-!
SUPPORT. The fields of an encoded word: each format's fields read back what the encoder laid into them (R33), and each
code of a field names what it was made from (R14, R26, R37, R205, R206, R213, R284, R392).
-/

set_option Elab.async false

namespace Sys2Proof

theorem Reg.code_lt (r : Reg) : r.code < 128 := by cases r <;> simp [Reg.code] <;> omega

@[simp] theorem Reg.ofCode_code (r : Reg) : Reg.ofCode r.code = r := by
  cases r with
  | bead n => simp [Reg.code, Reg.ofCode]
  | uni n => simp [Reg.code, Reg.ofCode]
  | q n => revert n; decide
  | zr => rfl
  | bx => rfl
  | sx => rfl
  | lc => rfl

theorem Reg.code_ofCode {c : Nat} (h : c < 128) : (Reg.ofCode c).code = c := by
  revert c; decide

theorem portCode_lt (p : Fin 4) : portCode p < 128 := by revert p; decide
@[simp] theorem portOf_portCode (p : Fin 4) : portOf (portCode p) = some p := by revert p; decide
theorem hinge_lt (h : Fin 24) : h.val < 128 := by omega
@[simp] theorem hingeOf_val (h : Fin 24) : hingeOf (h.val % 32) = some h := by revert h; decide
@[simp] theorem hinge_high (h : Fin 24) : h.val / 32 = 0 := by omega
@[simp] theorem flag_toNat (b : Bool) : flag b.toNat = b := by cases b <;> rfl
theorem toNat_lt_two (b : Bool) : b.toNat < 2 := by cases b <;> decide

theorem Width.code_lt (w : Width) : w.code < 4 := by cases w <;> decide
@[simp] theorem Width.ofCode_code (w : Width) : Width.ofCode w.code = w := by cases w <;> rfl
@[simp] theorem Fmt.ofCode_code (f : Fmt) : Fmt.ofCode f.code = some f := by cases f <;> rfl
theorem Fmt.code_lt (f : Fmt) : f.code < 16 := by cases f <;> decide
@[simp] theorem Rnd.ofCode_code (r : Rnd) : Rnd.ofCode r.code = some r := by cases r <;> rfl
theorem Rnd.code_lt (r : Rnd) : r.code < 8 := by cases r <;> decide
@[simp] theorem Scope.ofCode_code (c : Scope) : Scope.ofCode c.code = some c := by cases c <;> rfl
theorem Scope.code_lt (c : Scope) : c.code < 8 := by cases c <;> decide
@[simp] theorem FenceKind.ofCode_code (k : FenceKind) : FenceKind.ofCode k.code = some k := by cases k <;> rfl
theorem FenceKind.code_lt (k : FenceKind) : k.code < 4 := by cases k <;> decide
@[simp] theorem SigOp.ofCode_code (o : SigOp) : SigOp.ofCode o.code = some o := by cases o <;> rfl
theorem SigOp.code_lt (o : SigOp) : o.code < 4 := by cases o <;> decide
@[simp] theorem Cond.ofCode_code (c : Cond) : Cond.ofCode c.code = some c := by cases c <;> rfl
theorem Cond.code_lt (c : Cond) : c.code < 4 := by cases c <;> decide
@[simp] theorem SlotSel.ofCode_code (q : SlotSel) : SlotSel.ofCode q.code = some q := by cases q <;> rfl
theorem SlotSel.code_lt (q : SlotSel) : q.code < 8 := by cases q <;> decide

/-! ### The fields that one format lays -/

/-- What a format R word holds. -/
structure FieldsR (x op d a b ea eb f : Nat) : Prop where
  op : fOp x = op
  d : fD x = d
  a : fA x = a
  b : fB x = b
  ea : fEa x = ea
  eb : fEb x = eb
  f : fR x = f

/-- What a format I word holds. -/
structure FieldsI (x op d a imm ea : Nat) : Prop where
  op : fOp x = op
  d : fD x = d
  a : fA x = a
  imm : fI x = imm
  ea : f0 x = ea

/-- What a format X word holds. -/
structure FieldsX (x op d a b f : Nat) : Prop where
  op : fOp x = op
  d : fD x = d
  a : fA x = a
  b : fB x = b
  f : fX x = f

theorem encR_fields {op d a b ea eb f : Nat} (h1 : op < 128) (h2 : d < 128) (h3 : a < 128) (h4 : b < 128)
    (h5 : ea < 2) (h6 : eb < 2) (h7 : f < 4) :
    encR op d a b ea eb f < 2 ^ 32 ∧ FieldsR (encR op d a b ea eb f) op d a b ea eb f := by
  refine ⟨?_, ⟨?_, ?_, ?_, ?_, ?_, ?_, ?_⟩⟩ <;> simp only [encR, fOp, fD, fA, fB, fEa, fEb, fR] <;> omega

theorem encI_fields {op d a imm ea : Nat} (h1 : op < 128) (h2 : d < 128) (h3 : a < 128) (h4 : imm < 1024) (h5 : ea < 2) :
    encI op d a imm ea < 2 ^ 32 ∧ FieldsI (encI op d a imm ea) op d a imm ea := by
  refine ⟨?_, ⟨?_, ?_, ?_, ?_, ?_⟩⟩ <;> simp only [encI, fOp, fD, fA, fI, f0] <;> omega

theorem encX_fields {op d a b f : Nat} (h1 : op < 128) (h2 : d < 128) (h3 : a < 128) (h4 : b < 128) (h5 : f < 16) :
    encX op d a b f < 2 ^ 32 ∧ FieldsX (encX op d a b f) op d a b f := by
  refine ⟨?_, ⟨?_, ?_, ?_, ?_, ?_⟩⟩ <;> simp only [encX, fOp, fD, fA, fB, fX] <;> omega

theorem encJ_fields {op off : Nat} (h1 : op < 128) (h2 : off < 2 ^ 25) :
    encJ op off < 2 ^ 32 ∧ fOp (encJ op off) = op ∧ f25 (encJ op off) = off := by
  refine ⟨?_, ?_, ?_⟩ <;> simp only [encJ, fOp, f25] <;> omega

theorem encB_fields {op d imm : Nat} (h1 : op < 128) (h2 : d < 128) (h3 : imm < 2 ^ 18) :
    encB op d imm < 2 ^ 32 ∧ fOp (encB op d imm) = op ∧ fD (encB op d imm) = d ∧ f18 (encB op d imm) = imm := by
  refine ⟨?_, ?_, ?_, ?_⟩ <;> simp only [encB, fOp, fD, f18] <;> omega

theorem encM_fields {op d a p imm w : Nat} (h1 : op < 128) (h2 : d < 128) (h3 : a < 128) (h4 : p < 16) (h5 : imm < 32)
    (h6 : w < 4) :
    encM op d a p imm w < 2 ^ 32 ∧ fOp (encM op d a p imm w) = op ∧ fD (encM op d a p imm w) = d ∧
      fA (encM op d a p imm w) = a ∧ fP (encM op d a p imm w) = p ∧ fDisp (encM op d a p imm w) = imm ∧
      encM op d a p imm w % 4 = w := by
  refine ⟨?_, ?_, ?_, ?_, ?_, ?_, ?_⟩ <;> simp only [encM, fOp, fD, fA, fP, fDisp] <;> omega

theorem encA_fields {op d a b p w : Nat} (h1 : op < 128) (h2 : d < 128) (h3 : a < 128) (h4 : b < 128) (h5 : p < 8)
    (h6 : w < 2) :
    encA op d a b p w < 2 ^ 32 ∧ fOp (encA op d a b p w) = op ∧ fD (encA op d a b p w) = d ∧
      fA (encA op d a b p w) = a ∧ fB (encA op d a b p w) = b ∧ fP3 (encA op d a b p w) = p ∧
      f0 (encA op d a b p w) = w := by
  refine ⟨?_, ?_, ?_, ?_, ?_, ?_, ?_⟩ <;> simp only [encA, fOp, fD, fA, fB, fP3, f0] <;> omega

/-! ### From fields to the decoded instruction -/

/-- The opcode chooses the decoder. -/
theorem decodeNat_of {x op : Nat} (h : fOp x = op) : decodeNat x = decodeAt op x := by rw [decodeNat, h]

/-- Decoding an instruction's word gives it back. -/
theorem decode_encode_of {i : Instr} {n : Nat} (he : encodeNat i = some n) (hn : n < 2 ^ 32) (hd : decodeNat n = .ok i)
    (w : Word) (hw : encode i = some w) : decode w = .ok i := by
  simp only [encode, he, Option.map_some, Option.some.injEq] at hw
  rw [← hw, decode, BitVec.toNat_ofNat, Nat.mod_eq_of_lt hn, hd]

/-- The same, the word's number first. -/
theorem decode_encode_by {i : Instr} {n : Nat} (hn : n < 2 ^ 32) (he : encodeNat i = some n) (hd : decodeNat n = .ok i)
    (w : Word) (hw : encode i = some w) : decode w = .ok i := decode_encode_of he hn hd w hw

/-- A three-register form of format R. -/
theorem decode_encode_rrr (k : Reg → Reg → Reg → Bool → Bool → Instr) (op f : Nat) (hop : op < 128) (hf : f < 4)
    (hd : ∀ x, fOp x = op → fR x = f →
      decodeNat x = .ok (k (rD x) (rA x) (rB x) (flag (fEa x)) (flag (fEb x))))
    {d a b : Reg} {ea eb : Bool}
    (he : encodeNat (k d a b ea eb) = some (encR op d.code a.code b.code ea.toNat eb.toNat f))
    (w : Word) (hw : encode (k d a b ea eb) = some w) : decode w = .ok (k d a b ea eb) := by
  obtain ⟨hn, hx⟩ := encR_fields hop d.code_lt a.code_lt b.code_lt (toNat_lt_two ea) (toNat_lt_two eb) hf
  refine decode_encode_of he hn ?_ w hw
  simp only [hd _ hx.op hx.f, rD, rA, rB, hx.d, hx.a, hx.b, hx.ea, hx.eb, Reg.ofCode_code, flag_toNat]

/-- A two-register form of format R, whose b field holds c. -/
theorem decode_encode_rr (k : Reg → Reg → Bool → Instr) (op c f : Nat) (hop : op < 128) (hc : c < 128) (hf : f < 4)
    (hd : ∀ x, fOp x = op → fR x = f → fB x = c → fEb x = 0 → decodeNat x = .ok (k (rD x) (rA x) (flag (fEa x))))
    {d a : Reg} {ea : Bool} (he : encodeNat (k d a ea) = some (encR op d.code a.code c ea.toNat 0 f))
    (w : Word) (hw : encode (k d a ea) = some w) : decode w = .ok (k d a ea) := by
  obtain ⟨hn, hx⟩ := encR_fields (eb := 0) hop d.code_lt a.code_lt hc (toNat_lt_two ea) (by decide) hf
  refine decode_encode_of he hn ?_ w hw
  simp only [hd _ hx.op hx.f hx.b hx.eb, rD, rA, hx.d, hx.a, hx.ea, Reg.ofCode_code, flag_toNat]

/-- A form of format R that names a destination alone. -/
theorem decode_encode_r (k : Reg → Instr) (op f : Nat) (hop : op < 128) (hf : f < 4)
    (hd : ∀ x, fOp x = op → fR x = f → fA x + fB x + fEa x + fEb x = 0 → decodeNat x = .ok (k (rD x)))
    {d : Reg} (he : encodeNat (k d) = some (encR op d.code 0 0 0 0 f))
    (w : Word) (hw : encode (k d) = some w) : decode w = .ok (k d) := by
  obtain ⟨hn, hx⟩ := encR_fields (a := 0) (b := 0) (ea := 0) (eb := 0) hop d.code_lt
    (by decide) (by decide) (by decide) (by decide) hf
  refine decode_encode_of he hn ?_ w hw
  simp only [hd _ hx.op hx.f (by rw [hx.a, hx.b, hx.ea, hx.eb]), rD, hx.d, Reg.ofCode_code]

/-- A form of format R with no operand. -/
theorem decode_encode_none {i : Instr} (op f : Nat) (hop : op < 128) (hf : f < 4)
    (hd : ∀ x, fOp x = op → fR x = f → fD x + fA x + fB x + fEa x + fEb x = 0 → decodeNat x = .ok i)
    (he : encodeNat i = some (encR op 0 0 0 0 0 f)) (w : Word) (hw : encode i = some w) : decode w = .ok i := by
  obtain ⟨hn, hx⟩ := encR_fields (d := 0) (a := 0) (b := 0) (ea := 0) (eb := 0) hop
    (by decide) (by decide) (by decide) (by decide) (by decide) hf
  exact decode_encode_of he hn (hd _ hx.op hx.f (by rw [hx.d, hx.a, hx.b, hx.ea, hx.eb])) w hw

/-- A form of format I. -/
theorem decode_encode_i (k : Reg → Reg → BitVec 10 → Bool → Instr) (op : Nat) (hop : op < 128)
    (hd : ∀ x, fOp x = op → decodeNat x = .ok (k (rD x) (rA x) (BitVec.ofNat 10 (fI x)) (flag (f0 x))))
    {d a : Reg} {imm : BitVec 10} {ea : Bool}
    (he : encodeNat (k d a imm ea) = some (encI op d.code a.code imm.toNat ea.toNat))
    (w : Word) (hw : encode (k d a imm ea) = some w) : decode w = .ok (k d a imm ea) := by
  obtain ⟨hn, hx⟩ := encI_fields hop d.code_lt a.code_lt imm.isLt (toNat_lt_two ea)
  refine decode_encode_of he hn ?_ w hw
  simp only [hd _ hx.op, rD, rA, hx.d, hx.a, hx.imm, hx.ea, Reg.ofCode_code, flag_toNat, BitVec.ofNat_toNat,
    BitVec.setWidth_eq]

/-- A shift by an immediate, whose form stands in the top bits of the immediate (R116). -/
theorem decode_encode_shift (k : Reg → Reg → BitVec 5 → Bool → Instr) (f : Nat) (hf : f < 4)
    (hd : ∀ x, fOp x = 0x1B → fI x / 256 = f → fI x / 32 % 8 = 0 →
      decodeNat x = .ok (k (rD x) (rA x) (BitVec.ofNat 5 (fI x % 32)) (flag (f0 x))))
    {d a : Reg} {n : BitVec 5} {ea : Bool}
    (he : encodeNat (k d a n ea) = some (encI 0x1B d.code a.code (f * 256 + n.toNat) ea.toNat))
    (w : Word) (hw : encode (k d a n ea) = some w) : decode w = .ok (k d a n ea) := by
  have hn5 := n.isLt
  obtain ⟨hn, hx⟩ := encI_fields (op := 0x1B) (imm := f * 256 + n.toNat) (by decide) d.code_lt a.code_lt (by omega)
    (toNat_lt_two ea)
  refine decode_encode_of he hn ?_ w hw
  have hm : (f * 256 + n.toNat) % 32 = n.toNat := by omega
  simp only [hd _ hx.op (by rw [hx.imm]; omega) (by rw [hx.imm]; omega), rD, rA, hx.d, hx.a, hx.imm, hx.ea, hm,
    Reg.ofCode_code, flag_toNat, BitVec.ofNat_toNat, BitVec.setWidth_eq]

/-- A form of format M. -/
theorem decode_encode_m (k : Reg → Reg → BitVec 4 → BitVec 5 → Width → Instr) (op : Nat) (hop : op < 128)
    (hd : ∀ x, fOp x = op → decodeNat x =
      .ok (k (rD x) (rA x) (BitVec.ofNat 4 (fP x)) (BitVec.ofNat 5 (fDisp x)) (Width.ofCode (x % 4))))
    {d a : Reg} {p : BitVec 4} {imm : BitVec 5} {wd : Width}
    (he : encodeNat (k d a p imm wd) = some (encM op d.code a.code p.toNat imm.toNat wd.code))
    (w : Word) (hw : encode (k d a p imm wd) = some w) : decode w = .ok (k d a p imm wd) := by
  obtain ⟨hn, h0, h1, h2, h3, h4, h5⟩ := encM_fields hop d.code_lt a.code_lt p.isLt imm.isLt wd.code_lt
  refine decode_encode_of he hn ?_ w hw
  simp only [hd _ h0, rD, rA, h1, h2, h3, h4, h5, Reg.ofCode_code, Width.ofCode_code, BitVec.ofNat_toNat,
    BitVec.setWidth_eq]

/-- A form of format M without a base pair. -/
theorem decode_encode_ms (k : Reg → Reg → BitVec 5 → Width → Instr) (op : Nat) (hop : op < 128)
    (hd : ∀ x, fOp x = op → fP x = 0 → decodeNat x =
      .ok (k (rD x) (rA x) (BitVec.ofNat 5 (fDisp x)) (Width.ofCode (x % 4))))
    {d a : Reg} {imm : BitVec 5} {wd : Width}
    (he : encodeNat (k d a imm wd) = some (encM op d.code a.code 0 imm.toNat wd.code))
    (w : Word) (hw : encode (k d a imm wd) = some w) : decode w = .ok (k d a imm wd) := by
  obtain ⟨hn, h0, h1, h2, h3, h4, h5⟩ := encM_fields (p := 0) hop d.code_lt a.code_lt (by decide) imm.isLt wd.code_lt
  refine decode_encode_of he hn ?_ w hw
  simp only [hd _ h0 h3, rD, rA, h1, h2, h4, h5, Reg.ofCode_code, Width.ofCode_code, BitVec.ofNat_toNat,
    BitVec.setWidth_eq]

/-- A form of format A. -/
theorem decode_encode_a (k : Reg → Reg → Reg → BitVec 3 → Bool → Instr) (op : Nat) (hop : op < 128)
    (hd : ∀ x, fOp x = op → decodeNat x =
      .ok (k (rD x) (rA x) (rB x) (BitVec.ofNat 3 (fP3 x)) (flag (f0 x))))
    {d a b : Reg} {p : BitVec 3} {wd : Bool}
    (he : encodeNat (k d a b p wd) = some (encA op d.code a.code b.code p.toNat wd.toNat))
    (w : Word) (hw : encode (k d a b p wd) = some w) : decode w = .ok (k d a b p wd) := by
  obtain ⟨hn, h0, h1, h2, h3, h4, h5⟩ := encA_fields hop d.code_lt a.code_lt b.code_lt p.isLt (toNat_lt_two wd)
  refine decode_encode_of he hn ?_ w hw
  simp only [hd _ h0, rD, rA, rB, h1, h2, h3, h4, h5, Reg.ofCode_code, flag_toNat, BitVec.ofNat_toNat,
    BitVec.setWidth_eq]

/-- A form of format X: its fields hold c, e and g. -/
theorem decode_encode_x {i : Instr} (op c e g f : Nat) (hop : op < 128) (hc : c < 128) (hae : e < 128) (hg : g < 128)
    (hf : f < 16) (hd : ∀ x, FieldsX x op c e g f → decodeNat x = .ok i) (he : encodeNat i = some (encX op c e g f))
    (w : Word) (hw : encode i = some w) : decode w = .ok i := by
  obtain ⟨hn, hx⟩ := encX_fields hop hc hae hg hf
  exact decode_encode_of he hn (hd _ hx) w hw

/-- A form of format J. -/
theorem decode_encode_j {i : Instr} (op off : Nat) (hop : op < 128) (ho : off < 2 ^ 25)
    (hd : ∀ x, fOp x = op → f25 x = off → decodeNat x = .ok i) (he : encodeNat i = some (encJ op off))
    (w : Word) (hw : encode i = some w) : decode w = .ok i := by
  obtain ⟨hn, h0, h1⟩ := encJ_fields hop ho
  exact decode_encode_of he hn (hd _ h0 h1) w hw

/-- A form of format B or U. -/
theorem decode_encode_b {i : Instr} (op c imm : Nat) (hop : op < 128) (hc : c < 128) (hi : imm < 2 ^ 18)
    (hd : ∀ x, fOp x = op → fD x = c → f18 x = imm → decodeNat x = .ok i) (he : encodeNat i = some (encB op c imm))
    (w : Word) (hw : encode i = some w) : decode w = .ok i := by
  obtain ⟨hn, h0, h1, h2⟩ := encB_fields hop hc hi
  exact decode_encode_of he hn (hd _ h0 h1 h2) w hw

end Sys2Proof
end

