-- ==== Sys2Proof/Laws/Map.lean ====
section
/-!
SUPPORT. Laws of the tables: what is read after an entry is put or removed, and that both keep the canonical form.
-/

set_option Elab.async false

namespace Sys2Proof.Machine
open Sys2Proof

variable {α : Type}

@[simp] theorem look_nil (k : Nat) : look ([] : SMap α) k = none := rfl

@[simp] theorem look_put_same (m : SMap α) (k : Nat) (v : α) : look (put m k v) k = some v := by
  induction m with
  | nil => simp [put, look]
  | cons e t ih =>
    obtain ⟨k', v'⟩ := e
    simp only [put]
    split
    · simp [look]
    · split
      · simp [look]
      · simp [look, *]

theorem look_put_other (m : SMap α) {k l : Nat} (h : l ≠ k) (v : α) : look (put m k v) l = look m l := by
  induction m with
  | nil => simp [put, look, h]
  | cons e t ih =>
    obtain ⟨k', v'⟩ := e
    simp only [put]
    split
    · simp [look, h]
    · split
      · subst_vars; simp [look, h]
      · simp [look, ih]

@[simp] theorem look_del_same (m : SMap α) (k : Nat) : look (del m k) k = none := by
  induction m with
  | nil => rfl
  | cons e t ih =>
    obtain ⟨k', v'⟩ := e
    simp only [del]
    split
    · exact ih
    · simp [look, *]

theorem look_del_other (m : SMap α) {k l : Nat} (h : l ≠ k) : look (del m k) l = look m l := by
  induction m with
  | nil => rfl
  | cons e t ih =>
    obtain ⟨k', v'⟩ := e
    simp only [del]
    split
    · subst_vars; simp [look, h, ih]
    · simp [look, ih]

@[simp] theorem lookD_put_same (m : SMap α) (k : Nat) (v d : α) : lookD (put m k v) k d = v := by simp [lookD]

theorem lookD_put_other (m : SMap α) {k l : Nat} (h : l ≠ k) (v d : α) : lookD (put m k v) l d = lookD m l d := by
  simp [lookD, look_put_other m h]

@[simp] theorem lookD_putD_same [DecidableEq α] (d : α) (m : SMap α) (k : Nat) (v : α) :
    lookD (putD d m k v) k d = v := by
  unfold putD; split <;> simp [lookD, *]

theorem lookD_putD_other [DecidableEq α] (d e : α) (m : SMap α) {k l : Nat} (h : l ≠ k) (v : α) :
    lookD (putD d m k v) l e = lookD m l e := by
  unfold putD; split <;> simp [lookD, look_put_other m h, look_del_other m h]

theorem look_upd_same (m : SMap α) (k : Nat) (f : α → α) : look (upd m k f) k = (look m k).map f := by
  unfold upd; split <;> simp [*]

theorem look_upd_other (m : SMap α) {k l : Nat} (h : l ≠ k) (f : α → α) : look (upd m k f) l = look m l := by
  unfold upd; split <;> simp [look_put_other m h]

/-! ### The canonical form -/

theorem risingFrom_mono {m : SMap α} : ∀ {a b : Nat}, a ≤ b → risingFrom b m = true → risingFrom a m = true := by
  cases m with
  | nil => intros; rfl
  | cons e t =>
    obtain ⟨k, v⟩ := e
    intro a b h hb
    simp only [risingFrom, Bool.and_eq_true, decide_eq_true_eq] at hb ⊢
    exact ⟨by omega, hb.2⟩

theorem risingFrom_put {m : SMap α} {k : Nat} {v : α} :
    ∀ {lo : Nat}, lo ≤ k → risingFrom lo m = true → risingFrom lo (put m k v) = true := by
  induction m with
  | nil => intro lo h _; simp [put, risingFrom, h]
  | cons e t ih =>
    obtain ⟨k', v'⟩ := e
    intro lo h hm
    simp only [risingFrom, Bool.and_eq_true, decide_eq_true_eq] at hm
    simp only [put]
    split
    · simp [risingFrom, h, hm.2]; omega
    · split
      · subst_vars; simp [risingFrom, h, hm.2]
      · simp only [risingFrom, Bool.and_eq_true, decide_eq_true_eq]
        exact ⟨hm.1, ih (by omega) hm.2⟩

theorem risingFrom_del {m : SMap α} {k : Nat} :
    ∀ {lo : Nat}, risingFrom lo m = true → risingFrom lo (del m k) = true := by
  induction m with
  | nil => intro lo _; rfl
  | cons e t ih =>
    obtain ⟨k', v'⟩ := e
    intro lo hm
    simp only [risingFrom, Bool.and_eq_true, decide_eq_true_eq] at hm
    simp only [del]
    split
    · exact risingFrom_mono (by omega) (ih hm.2)
    · simp [risingFrom, hm.1, ih hm.2]

theorem all_put {p : Nat × α → Bool} {m : SMap α} {k : Nat} {v : α} (hv : p (k, v) = true) (hm : m.all p = true) :
    (put m k v).all p = true := by
  induction m with
  | nil => simp [put, hv]
  | cons e t ih =>
    obtain ⟨k', v'⟩ := e
    simp only [List.all_cons, Bool.and_eq_true] at hm
    simp only [put]
    split
    · simp [hv, hm.1, hm.2]
    · split
      · simp [hv, hm.2]
      · simp [hm.1, ih hm.2]

theorem all_del {p : Nat × α → Bool} {m : SMap α} {k : Nat} (hm : m.all p = true) : (del m k).all p = true := by
  induction m with
  | nil => rfl
  | cons e t ih =>
    obtain ⟨k', v'⟩ := e
    simp only [List.all_cons, Bool.and_eq_true] at hm
    simp only [del]
    split
    · exact ih hm.2
    · simp [hm.1, ih hm.2]

theorem canonical_putD [DecidableEq α] {d : α} {m : SMap α} {k : Nat} {v : α} (h : canonical d m = true) :
    canonical d (putD d m k v) = true := by
  simp only [canonical, Bool.and_eq_true] at h ⊢
  unfold putD
  split
  · exact ⟨risingFrom_del h.1, all_del h.2⟩
  · exact ⟨risingFrom_put (by omega) h.1, all_put (by simpa using ‹_›) h.2⟩

theorem risingFrom_filter {p : Nat × α → Bool} {m : SMap α} :
    ∀ {lo : Nat}, risingFrom lo m = true → risingFrom lo (m.filter p) = true := by
  induction m with
  | nil => intro lo _; rfl
  | cons e t ih =>
    obtain ⟨k, v⟩ := e
    intro lo hm
    simp only [risingFrom, Bool.and_eq_true, decide_eq_true_eq] at hm
    rw [List.filter_cons]
    split
    · simp [risingFrom, hm.1, ih hm.2]
    · exact risingFrom_mono (by omega) (ih hm.2)

/-- Entries taken out leave the canonical form. -/
theorem canonical_filter [DecidableEq α] {d : α} {m : SMap α} (p : Nat × α → Bool) (h : canonical d m = true) :
    canonical d (m.filter p) = true := by
  simp only [canonical, Bool.and_eq_true] at h ⊢
  refine ⟨risingFrom_filter h.1, List.all_eq_true.2 fun x hx => List.all_eq_true.1 h.2 x (List.mem_filter.1 hx).1⟩

end Sys2Proof.Machine
end

