-- ==== Sys2Proof/Laws/Forms.lean ====
section
/-!
SUPPORT. Laws of registers and of the forms that only work on registers.
-/

set_option Elab.async false

namespace Sys2Proof.Machine
open Sys2Proof

/-! ### Registers -/

@[simp] theorem getKey_setKey_b (st : Strand) (k : Nat) (v : RegVal) : getKey (setKey st (.b k) v) (.b k) = v := by
  simp [getKey, setKey]

@[simp] theorem getKey_setKey_u (st : Strand) (k : Nat) (v : RegVal) : getKey (setKey st (.u k) v) (.u k) = v := by
  simp [getKey, setKey]

theorem getKey_setKey_other (st : Strand) {k l : RKey} (h : l ≠ k) (v : RegVal) :
    getKey (setKey st k v) l = getKey st l := by
  cases k with
  | b k =>
    cases l with
    | b l => simp only [getKey, setKey]; rw [lookD_putD_other]; simpa using h
    | u l => rfl
    | lc => rfl
  | u k =>
    cases l with
    | b l => rfl
    | u l => simp only [getKey, setKey]; rw [lookD_putD_other]; simpa using h
    | lc => rfl
  | lc =>
    cases hl : st.flow.loops with
    | nil => simp [setKey, hl]
    | cons x t =>
      cases l with
      | lc => exact absurd rfl h
      | b l => simp [setKey, hl, getKey]
      | u l => simp [setKey, hl, getKey]

/-! ### What stays of a strand -/

theorem Strand.rest_inTrap {a b : Strand} (h : a.rest = b.rest) : a.inTrap = b.inTrap := by
  have e := congrArg Strand.inTrap h; exact e
theorem Strand.rest_regs {a b : Strand} (h : a.rest = b.rest) : a.regs = b.regs := by
  have e := congrArg Strand.regs h; exact e
theorem Strand.rest_winBase {a b : Strand} (h : a.rest = b.rest) : a.flow.winBase = b.flow.winBase := by
  have e := congrArg (fun x : Strand => x.flow.winBase) h; exact e
theorem Strand.rest_mask {a b : Strand} (h : a.rest = b.rest) : a.flow.mask = b.flow.mask := by
  have e := congrArg (fun x : Strand => x.flow.mask) h; exact e
theorem Strand.rest_width {a b : Strand} (h : a.rest = b.rest) : a.width = b.width := by
  have e := congrArg Strand.width h; exact e
theorem Strand.rest_retired {a b : Strand} (h : a.rest = b.rest) : a.retired = b.retired := by
  have e := congrArg Strand.retired h; exact e
theorem Strand.rest_sx {a b : Strand} (h : a.rest = b.rest) : a.sx = b.sx := by
  have e := congrArg Strand.sx h; exact e

/-- The place of a register depends on what stays. -/
theorem regKey_rest {a b : Strand} (h : a.rest = b.rest) (j : Nat) (r : Reg) : regKey a j r = regKey b j r := by
  cases r <;> simp [regKey, physBead, physUni, Strand.rest_inTrap h, Strand.rest_regs h, Strand.rest_winBase h]

/-- The stops of the loop levels stay. -/
theorem plainNext_rest {a b : Strand} (h : a.rest = b.rest) (t : Word) :
    (∀ l ∈ a.flow.loops, l.stop ≠ t) ↔ (∀ l ∈ b.flow.loops, l.stop ≠ t) := by
  have key : a.flow.loops.map (·.stop) = b.flow.loops.map (·.stop) := by
    have := congrArg (fun x : Strand => x.flow.loops.map (·.stop)) h
    simp only [Strand.rest] at this
    revert this
    cases a.flow.loops <;> cases b.flow.loops <;> simp
  constructor
  · intro ha l hl
    have : l.stop ∈ b.flow.loops.map (·.stop) := List.mem_map_of_mem hl
    rw [← key] at this
    obtain ⟨x, hx, e⟩ := List.mem_map.1 this
    rw [← e]; exact ha x hx
  · intro hb l hl
    have : l.stop ∈ a.flow.loops.map (·.stop) := List.mem_map_of_mem hl
    rw [key] at this
    obtain ⟨x, hx, e⟩ := List.mem_map.1 this
    rw [← e]; exact hb x hx

theorem setKey_rest (st : Strand) (k : RKey) (v : RegVal) : (setKey st k v).rest = st.rest := by
  cases k with
  | b k => rfl
  | u k => rfl
  | lc => cases h : st.flow.loops <;> simp [setKey, Strand.rest, h]

theorem writeReg_rest (st : Strand) (j : Nat) (r : Reg) (v : Word) : (writeReg st j r v).rest = st.rest := by
  unfold writeReg; split
  · exact setKey_rest _ _ _
  · rfl

/-- A read of a register is a read of its place. -/
theorem readReg_of_key {st : Strand} {j : Nat} {r : Reg} {k : RKey} (h : regKey st j r = some k) :
    readReg st j r = (getKey st k).val := by
  cases r <;> simp_all [regKey, readReg]

theorem fillOf_of_key {st : Strand} {j : Nat} {r : Reg} {k : RKey} (h : regKey st j r = some k) :
    fillOf st j r = (getKey st k).fill := by
  cases r <;> simp_all [regKey, fillOf]
  subst h; simp [getKey]

/-- Strands that agree on what stays and on the place of a register agree on the register. -/
theorem readReg_congr {a b : Strand} (h : a.rest = b.rest) {j : Nat} {r : Reg}
    (hk : ∀ k, regKey b j r = some k → getKey a k = getKey b k) : readReg a j r = readReg b j r := by
  cases hr : regKey b j r with
  | some k => rw [readReg_of_key hr, readReg_of_key ((regKey_rest h j r).trans hr), hk k hr]
  | none => cases r <;> simp_all [regKey, readReg, Strand.rest_sx h]

theorem fillOf_congr {a b : Strand} (h : a.rest = b.rest) {j : Nat} {r : Reg}
    (hk : ∀ k, regKey b j r = some k → getKey a k = getKey b k) : fillOf a j r = fillOf b j r := by
  cases hr : regKey b j r with
  | some k => rw [fillOf_of_key hr, fillOf_of_key ((regKey_rest h j r).trans hr), hk k hr]
  | none => cases r <;> simp_all [regKey, fillOf]

/-! ### Results written in order -/

/-- Results written to registers of bead j, in order. -/
def writeRegs (j : Nat) : List Reg → List Word → Strand → Strand
  | d :: ds, v :: vs, st => writeRegs j ds vs (writeReg st j d v)
  | _, _, st => st

theorem writeRegs_rest (j : Nat) : ∀ (ds : List Reg) (vs : List Word) (st : Strand), (writeRegs j ds vs st).rest = st.rest := by
  intro ds
  induction ds with
  | nil => intros; rfl
  | cons d ds ih =>
    intro vs st
    cases vs with
    | nil => rfl
    | cons v vs => rw [writeRegs, ih, writeReg_rest]

theorem getKey_writeReg_other {st : Strand} {j : Nat} {r : Reg} {k : RKey} (h : regKey st j r ≠ some k) (v : Word) :
    getKey (writeReg st j r v) k = getKey st k := by
  unfold writeReg; split
  · next k' hk => exact getKey_setKey_other _ (fun e => h (by rw [hk, e])) _
  · rfl

theorem getKey_writeRegs_other (j : Nat) : ∀ (ds : List Reg) (vs : List Word) (st : Strand) (k : RKey),
    (∀ d ∈ ds, regKey st j d ≠ some k) → getKey (writeRegs j ds vs st) k = getKey st k := by
  intro ds
  induction ds with
  | nil => intros; rfl
  | cons d ds ih =>
    intro vs st k h
    cases vs with
    | nil => rfl
    | cons v vs =>
      rw [writeRegs, ih _ _ _ (fun e he => by rw [regKey_rest (writeReg_rest st j d v)]; exact h e (by simp [he])),
        getKey_writeReg_other (h d (by simp))]

/-- A register just written reads as written and is full, but zr and a loop count that is not there. -/
theorem getKey_writeReg_same {st : Strand} {j : Nat} {r : Reg} {k : RKey} (h : regKey st j r = some k)
    (hl : r = .lc → st.flow.loops ≠ []) (v : Word) : getKey (writeReg st j r v) k = { val := v } := by
  unfold writeReg; rw [h]
  cases k with
  | b k => simp
  | u k => simp
  | lc =>
    have : r = .lc := by cases r <;> simp_all [regKey]
    have := hl this
    cases hh : st.flow.loops with
    | nil => exact absurd hh this
    | cons x t => simp [setKey, hh, getKey]

end Sys2Proof.Machine
end

