-- ==== Sys2Proof/Laws/Memory.lean ====
section
/-!
SUPPORT. Laws of memory: reading after writing, and the canonical form kept by every operation on its bytes.
-/

set_option Elab.async false

namespace Sys2Proof.Machine
open Sys2Proof

theorem poke_before (a : Nat) : ∀ (bs : List Byte) (m : SMap Byte) (x : Nat), a < x →
    lookD (poke m x bs) a 0 = lookD m a 0 := by
  intro bs
  induction bs with
  | nil => intros; rfl
  | cons b t ih =>
    intro m x h
    rw [poke, ih _ _ (by omega), lookD_putD_other _ _ _ (by omega)]

/-- A byte outside the range written reads as before. -/
theorem lookD_poke_outside (a : Nat) : ∀ (bs : List Byte) (m : SMap Byte) (x : Nat), a < x ∨ x + bs.length ≤ a →
    lookD (poke m x bs) a 0 = lookD m a 0 := by
  intro bs
  induction bs with
  | nil => intros; rfl
  | cons b t ih =>
    intro m x h
    simp only [List.length_cons] at h
    rw [poke, ih _ _ (by omega), lookD_putD_other _ _ _ (by omega)]

/-- A byte of the range written reads as written. -/
theorem lookD_poke_inside : ∀ (bs : List Byte) (m : SMap Byte) (x i : Nat) (h : i < bs.length),
    lookD (poke m x bs) (x + i) 0 = bs[i] := by
  intro bs
  induction bs with
  | nil => intro _ _ i h; simp at h
  | cons b t ih =>
    intro m x i h
    cases i with
    | zero =>
      rw [poke, Nat.add_zero, poke_before _ _ _ _ (by omega)]
      simp
    | succ i =>
      rw [poke, show x + (i + 1) = x + 1 + i by omega, ih _ _ i (by simpa using h)]
      simp

theorem canonical_poke : ∀ (bs : List Byte) (m : SMap Byte) (x : Nat), canonical (0 : Byte) m = true →
    canonical (0 : Byte) (poke m x bs) = true := by
  intro bs
  induction bs with
  | nil => intro _ _ h; exact h
  | cons b t ih => intro m x h; exact ih _ _ (canonical_putD h)

/-- Every operation on memory's bytes keeps the canonical form. -/
theorem Memory.wf_lay {m : Memory} (h : m.wf = true) (a : Nat) (bs : List Byte) : (m.lay a bs).wf = true :=
  canonical_poke _ _ _ h

theorem Memory.wf_perform {m : Memory} (h : m.wf = true) (id pa : Nat) (bs : List Byte) (p : Option Path)
    (pubs : List Pub) : (m.perform id pa bs p pubs).wf = true :=
  canonical_poke _ _ _ h

theorem Memory.byteAt_perform_outside (m : Memory) (id pa : Nat) (bs : List Byte) (p : Option Path) (pubs : List Pub)
    (a : Nat) (h : a < pa ∨ pa + bs.length ≤ a) : (m.perform id pa bs p pubs).byteAt a = m.byteAt a :=
  lookD_poke_outside a bs m.bytes pa h

theorem Memory.byteAt_perform_inside (m : Memory) (id pa : Nat) (bs : List Byte) (p : Option Path) (pubs : List Pub)
    (i : Nat) (h : i < bs.length) : (m.perform id pa bs p pubs).byteAt (pa + i) = bs[i] :=
  lookD_poke_inside bs m.bytes pa i h

theorem Memory.read_perform (m : Memory) (id pa : Nat) (bs : List Byte) (p : Option Path) (pubs : List Pub) :
    (m.perform id pa bs p pubs).read pa bs.length = bs := by
  apply List.ext_getElem
  · simp [Memory.read]
  · intro i h1 h2
    simp only [Memory.read, List.getElem_map, List.getElem_range]
    exact Memory.byteAt_perform_inside m id pa bs p pubs i h2

/-- Where nothing has been written since reset, a read gives the bytes as they stand, whatever is known (R209). -/
theorem readKnown_bytes_of_log_nil (know : List Known) (q : Path) : ∀ (n : Nat) (s : State) (pa : Nat), s.mem.log = [] →
    (readKnown s know q pa n).1.bytes = s.mem.read pa n := by
  intro n
  induction n with
  | zero => intros; rfl
  | succ n ih =>
    intro s pa h
    have hv : versions (fun id => know.any fun k => k.1 == id && k.2 == q) pa
        (s.mem.floorAt pa) s.mem.log (s.mem.byteAt pa) = [(s.mem.byteAt pa, none)] := by rw [h]; rfl
    simp only [readKnown, hv, List.length_singleton, Nat.le_refl, if_true, Nat.zero_mod, Memory.read]
    rw [List.range_succ_eq_map]
    simp only [List.map_cons, List.map_map, Nat.add_zero]
    congr 1
    rw [ih s (pa + 1) h]
    simp only [Memory.read, List.map_inj_left, Function.comp_apply]
    intro a _
    congr 1
    omega

theorem Memory.wf_zeroed {m : Memory} (h : m.wf = true) (pa n : Nat) : (m.zeroed pa n).wf = true := canonical_filter _ h

@[simp] theorem Memory.bytes_correct (m : Memory) (pa n : Nat) : (m.correct pa n).bytes = m.bytes := by
  unfold Memory.correct
  split <;> rfl

@[simp] theorem Memory.log_correct (m : Memory) (pa n : Nat) : (m.correct pa n).log = m.log := by
  unfold Memory.correct
  split <;> rfl

theorem Memory.wf_correct {m : Memory} (h : m.wf = true) (pa n : Nat) : (m.correct pa n).wf = true := by
  simpa [Memory.wf] using h

/-- A zeroed byte reads 0, and every other byte as before (R163). -/
theorem Memory.byteAt_zeroed (m : Memory) (pa n a : Nat) :
    (m.zeroed pa n).byteAt a = if pa ≤ a ∧ a < pa + n then 0 else m.byteAt a := by
  simp only [Memory.byteAt, Memory.zeroed, lookD]
  generalize m.bytes = l
  induction l with
  | nil => simp [look]
  | cons e t ih =>
    obtain ⟨k, v⟩ := e
    rw [List.filter_cons]
    by_cases hk : pa ≤ k ∧ k < pa + n
    · have : (decide (k < pa) || decide (pa + n ≤ k)) = false := by simp; omega
      simp only [this, Bool.false_eq_true, if_false, ih, look]
      by_cases e : a = k
      · subst e; simp [hk]
      · simp [e]
    · have : (decide (k < pa) || decide (pa + n ≤ k)) = true := by simp; omega
      simp only [this, if_true, look]
      by_cases e : a = k
      · subst e; simp [hk]
      · simp only [e, if_false]; exact ih

/-- The memory of the machine right after reset is in canonical form. -/
theorem reset_wf : State.reset.mem.wf = true := rfl

end Sys2Proof.Machine
end

