-- ==== Sys2Proof/Laws/PerInstr.lean ====
section
/-!
SUPPORT. The round trip of the encoding, one lemma an instruction: the decoder reads from an instruction's word that
instruction, with every operand as it was (03_encoding.md R33, R34, R45, R46). A happening has no word.
-/

set_option Elab.async false

namespace Sys2Proof.Laws.RoundTrip
open Sys2Proof

/-- The word of a well-formed instruction decodes to it. -/
def Statement (i : Instr) : Prop := i.wf = true → ∀ w, encode i = some w → decode w = .ok i

theorem ill (tag : BitVec 25) : Statement (.ill tag) :=
  fun _ => decode_encode_j 0x00 tag.toNat (by decide) tag.isLt
    (fun x ho hz => (decodeNat_of ho).trans (show decode00 x = _ by simp only [decode00, hz, BitVec.ofNat_toNat, BitVec.setWidth_eq])) rfl

theorem illErased (tag : BitVec 25) : Statement (.illErased tag) :=
  fun _ => decode_encode_j 0x7F tag.toNat (by decide) tag.isLt
    (fun x ho hz => (decodeNat_of ho).trans (show decode7F x = _ by simp only [decode7F, hz, BitVec.ofNat_toNat, BitVec.setWidth_eq])) rfl

theorem bra (off : BitVec 25) : Statement (.bra off) :=
  fun _ => decode_encode_j 0x02 off.toNat (by decide) off.isLt
    (fun x ho hz => (decodeNat_of ho).trans (show decode02 x = _ by simp only [decode02, hz, BitVec.ofNat_toNat, BitVec.setWidth_eq])) rfl

theorem call (off : BitVec 25) : Statement (.call off) :=
  fun _ => decode_encode_j 0x03 off.toNat (by decide) off.isLt
    (fun x ho hz => (decodeNat_of ho).trans (show decode03 x = _ by simp only [decode03, hz, BitVec.ofNat_toNat, BitVec.setWidth_eq])) rfl

theorem bnz (c : Reg) (off : BitVec 18) : Statement (.bnz c off) :=
  fun _ => decode_encode_b 0x04 c.code off.toNat (by decide) c.code_lt off.isLt
    (fun x ho hc hi => (decodeNat_of ho).trans (show decode04 x = _ by simp only [decode04, rD, hc, hi, Reg.ofCode_code, BitVec.ofNat_toNat, BitVec.setWidth_eq])) rfl

theorem bz (c : Reg) (off : BitVec 18) : Statement (.bz c off) :=
  fun _ => decode_encode_b 0x05 c.code off.toNat (by decide) c.code_lt off.isLt
    (fun x ho hc hi => (decodeNat_of ho).trans (show decode05 x = _ by simp only [decode05, rD, hc, hi, Reg.ofCode_code, BitVec.ofNat_toNat, BitVec.setWidth_eq])) rfl

theorem brx (a : Reg) (ea : Bool) : Statement (.brx a ea) := by
  obtain ⟨hn, hx⟩ := encR_fields (op := 0x06) (d := 0) (a := a.code) (b := 0) (ea := ea.toNat) (eb := 0) (f := 0) (by decide) (by decide) a.code_lt (by decide) (toNat_lt_two ea) (by decide) (by decide)
  exact fun _ => decode_encode_by hn rfl (by
    rw [decodeNat_of hx.op]; show decode06 _ = _
    simp [decode06, hx.f, hx.d, hx.a, hx.b, hx.ea, hx.eb, mbz, rA])

theorem callx (a : Reg) (ea : Bool) : Statement (.callx a ea) := by
  obtain ⟨hn, hx⟩ := encR_fields (op := 0x06) (d := 0) (a := a.code) (b := 0) (ea := ea.toNat) (eb := 0) (f := 1) (by decide) (by decide) a.code_lt (by decide) (toNat_lt_two ea) (by decide) (by decide)
  exact fun _ => decode_encode_by hn rfl (by
    rw [decodeNat_of hx.op]; show decode06 _ = _
    simp [decode06, hx.f, hx.d, hx.a, hx.b, hx.ea, hx.eb, mbz, rA])

theorem jpt (off : BitVec 18) : Statement (.jpt off) :=
  fun _ => decode_encode_b 0x07 0 off.toNat (by decide) (by decide) off.isLt
    (fun x ho hc hi => (decodeNat_of ho).trans (show decode07 x = _ by simp only [decode07, hc, hi, mbz, if_pos, BitVec.ofNat_toNat, BitVec.setWidth_eq])) rfl

theorem loop (c : Reg) (off : BitVec 18) : Statement (.loop c off) :=
  fun hw => decode_encode_b 0x09 c.code off.toNat (by decide) c.code_lt off.isLt
    (fun x ho hc hi => (decodeNat_of ho).trans (show decode09 x = _ by
      simp only [decode09, rD, hc, hi, limit, Reg.ofCode_code, BitVec.ofNat_toNat, BitVec.setWidth_eq, show loopOffOk off = true from hw, if_pos])) rfl

theorem wait (a : Reg) : Statement (.wait a) := by
  obtain ⟨hn, hx⟩ := encR_fields (op := 0x0B) (d := 0) (a := a.code) (b := 0) (ea := 0) (eb := 0) (f := 0) (by decide) (by decide) a.code_lt (by decide) (by decide) (by decide) (by decide)
  exact fun _ => decode_encode_by hn rfl (by
    rw [decodeNat_of hx.op]; show decode0B _ = _
    simp [decode0B, hx.f, hx.d, hx.a, hx.b, hx.ea, hx.eb, mbz, rA])

theorem sleept (a : Reg) (ea : Bool) : Statement (.sleept a ea) := by
  obtain ⟨hn, hx⟩ := encR_fields (op := 0x0D) (d := 0) (a := a.code) (b := 0) (ea := ea.toNat) (eb := 0) (f := 0) (by decide) (by decide) a.code_lt (by decide) (toNat_lt_two ea) (by decide) (by decide)
  exact fun _ => decode_encode_by hn rfl (by
    rw [decodeNat_of hx.op]; show decode0D _ = _
    simp [decode0D, hx.f, hx.d, hx.a, hx.b, hx.ea, hx.eb, mbz, rA])

theorem sleepq (p : Fin 4) : Statement (.sleepq p) := by
  obtain ⟨hn, hx⟩ := encR_fields (op := 0x0D) (d := 0) (a := (portCode p)) (b := 0) (ea := 0) (eb := 0) (f := 1) (by decide) (by decide) (portCode_lt p) (by decide) (by decide) (by decide) (by decide)
  exact fun _ => decode_encode_by hn rfl (by
    rw [decodeNat_of hx.op]; show decode0D _ = _
    simp [decode0D, hx.f, hx.d, hx.a, hx.b, hx.ea, hx.eb, mbz, listed])

theorem sleepw (a b : Reg) (ea eb : Bool) : Statement (.sleepw a b ea eb) := by
  obtain ⟨hn, hx⟩ := encR_fields (op := 0x0D) (d := 0) (a := a.code) (b := b.code) (ea := ea.toNat) (eb := eb.toNat) (f := 2) (by decide) (by decide) a.code_lt b.code_lt (toNat_lt_two ea) (toNat_lt_two eb) (by decide)
  exact fun _ => decode_encode_by hn rfl (by
    rw [decodeNat_of hx.op]; show decode0D _ = _
    simp [decode0D, hx.f, hx.d, hx.a, hx.b, hx.ea, hx.eb, mbz, rA, rB])

theorem brkpt (imm : BitVec 18) : Statement (.brkpt imm) :=
  fun _ => decode_encode_b 0x0E 0 imm.toNat (by decide) (by decide) imm.isLt
    (fun x ho hc hi => (decodeNat_of ho).trans (show decode0E x = _ by simp only [decode0E, hc, hi, mbz, if_pos, BitVec.ofNat_toNat, BitVec.setWidth_eq])) rfl

theorem trap (imm : BitVec 18) : Statement (.trap imm) :=
  fun _ => decode_encode_b 0x0F 0 imm.toNat (by decide) (by decide) imm.isLt
    (fun x ho hc hi => (decodeNat_of ho).trans (show decode0F x = _ by simp only [decode0F, hc, hi, mbz, if_pos, BitVec.ofNat_toNat, BitVec.setWidth_eq])) rfl

theorem add (d a b : Reg) (ea eb : Bool) : Statement (.add d a b ea eb) :=
  fun _ => decode_encode_rrr .add 0x10 0 (by decide) (by decide)
    (fun x ho hf => (decodeNat_of ho).trans (show decode10 x = _ by simp only [decode10, hf])) rfl

theorem addc (d a b : Reg) (ea eb : Bool) : Statement (.addc d a b ea eb) :=
  fun _ => decode_encode_rrr .addc 0x10 1 (by decide) (by decide)
    (fun x ho hf => (decodeNat_of ho).trans (show decode10 x = _ by simp only [decode10, hf])) rfl

theorem sub (d a b : Reg) (ea eb : Bool) : Statement (.sub d a b ea eb) :=
  fun _ => decode_encode_rrr .sub 0x10 2 (by decide) (by decide)
    (fun x ho hf => (decodeNat_of ho).trans (show decode10 x = _ by simp only [decode10, hf])) rfl

theorem subb (d a b : Reg) (ea eb : Bool) : Statement (.subb d a b ea eb) :=
  fun _ => decode_encode_rrr .subb 0x10 3 (by decide) (by decide)
    (fun x ho hf => (decodeNat_of ho).trans (show decode10 x = _ by simp only [decode10, hf])) rfl

theorem addi (d a : Reg) (imm : BitVec 10) (ea : Bool) : Statement (.addi d a imm ea) :=
  fun _ => decode_encode_i .addi 0x11 (by decide)
    (fun x ho => (decodeNat_of ho).trans (show decode11 x = _ by simp only [decode11])) rfl

theorem mul (d a b : Reg) (ea eb : Bool) : Statement (.mul d a b ea eb) :=
  fun _ => decode_encode_rrr .mul 0x12 0 (by decide) (by decide)
    (fun x ho hf => (decodeNat_of ho).trans (show decode12 x = _ by simp only [decode12, hf])) rfl

theorem mulhu (d a b : Reg) (ea eb : Bool) : Statement (.mulhu d a b ea eb) :=
  fun _ => decode_encode_rrr .mulhu 0x12 1 (by decide) (by decide)
    (fun x ho hf => (decodeNat_of ho).trans (show decode12 x = _ by simp only [decode12, hf])) rfl

theorem mulhs (d a b : Reg) (ea eb : Bool) : Statement (.mulhs d a b ea eb) :=
  fun _ => decode_encode_rrr .mulhs 0x12 2 (by decide) (by decide)
    (fun x ho hf => (decodeNat_of ho).trans (show decode12 x = _ by simp only [decode12, hf])) rfl

theorem mulhsu (d a b : Reg) (ea eb : Bool) : Statement (.mulhsu d a b ea eb) :=
  fun _ => decode_encode_rrr .mulhsu 0x12 3 (by decide) (by decide)
    (fun x ho hf => (decodeNat_of ho).trans (show decode12 x = _ by simp only [decode12, hf])) rfl

theorem mad (d a b : Reg) (ea eb : Bool) : Statement (.mad d a b ea eb) :=
  fun _ => decode_encode_rrr .mad 0x13 0 (by decide) (by decide)
    (fun x ho hf => (decodeNat_of ho).trans (show decode13 x = _ by simp only [decode13, hf])) rfl

theorem divu (d a b : Reg) (ea eb : Bool) : Statement (.divu d a b ea eb) :=
  fun _ => decode_encode_rrr .divu 0x14 0 (by decide) (by decide)
    (fun x ho hf => (decodeNat_of ho).trans (show decode14 x = _ by simp only [decode14, hf])) rfl

theorem divs (d a b : Reg) (ea eb : Bool) : Statement (.divs d a b ea eb) :=
  fun _ => decode_encode_rrr .divs 0x14 1 (by decide) (by decide)
    (fun x ho hf => (decodeNat_of ho).trans (show decode14 x = _ by simp only [decode14, hf])) rfl

theorem remu (d a b : Reg) (ea eb : Bool) : Statement (.remu d a b ea eb) :=
  fun _ => decode_encode_rrr .remu 0x14 2 (by decide) (by decide)
    (fun x ho hf => (decodeNat_of ho).trans (show decode14 x = _ by simp only [decode14, hf])) rfl

theorem rems (d a b : Reg) (ea eb : Bool) : Statement (.rems d a b ea eb) :=
  fun _ => decode_encode_rrr .rems 0x14 3 (by decide) (by decide)
    (fun x ho hf => (decodeNat_of ho).trans (show decode14 x = _ by simp only [decode14, hf])) rfl

theorem minu (d a b : Reg) (ea eb : Bool) : Statement (.minu d a b ea eb) :=
  fun _ => decode_encode_rrr .minu 0x15 0 (by decide) (by decide)
    (fun x ho hf => (decodeNat_of ho).trans (show decode15 x = _ by simp only [decode15, hf])) rfl

theorem mins (d a b : Reg) (ea eb : Bool) : Statement (.mins d a b ea eb) :=
  fun _ => decode_encode_rrr .mins 0x15 1 (by decide) (by decide)
    (fun x ho hf => (decodeNat_of ho).trans (show decode15 x = _ by simp only [decode15, hf])) rfl

theorem maxu (d a b : Reg) (ea eb : Bool) : Statement (.maxu d a b ea eb) :=
  fun _ => decode_encode_rrr .maxu 0x15 2 (by decide) (by decide)
    (fun x ho hf => (decodeNat_of ho).trans (show decode15 x = _ by simp only [decode15, hf])) rfl

theorem maxs (d a b : Reg) (ea eb : Bool) : Statement (.maxs d a b ea eb) :=
  fun _ => decode_encode_rrr .maxs 0x15 3 (by decide) (by decide)
    (fun x ho hf => (decodeNat_of ho).trans (show decode15 x = _ by simp only [decode15, hf])) rfl

theorem and (d a b : Reg) (ea eb : Bool) : Statement (.and d a b ea eb) :=
  fun _ => decode_encode_rrr .and 0x16 0 (by decide) (by decide)
    (fun x ho hf => (decodeNat_of ho).trans (show decode16 x = _ by simp only [decode16, hf])) rfl

theorem or (d a b : Reg) (ea eb : Bool) : Statement (.or d a b ea eb) :=
  fun _ => decode_encode_rrr .or 0x16 1 (by decide) (by decide)
    (fun x ho hf => (decodeNat_of ho).trans (show decode16 x = _ by simp only [decode16, hf])) rfl

theorem xor (d a b : Reg) (ea eb : Bool) : Statement (.xor d a b ea eb) :=
  fun _ => decode_encode_rrr .xor 0x16 2 (by decide) (by decide)
    (fun x ho hf => (decodeNat_of ho).trans (show decode16 x = _ by simp only [decode16, hf])) rfl

theorem andn (d a b : Reg) (ea eb : Bool) : Statement (.andn d a b ea eb) :=
  fun _ => decode_encode_rrr .andn 0x16 3 (by decide) (by decide)
    (fun x ho hf => (decodeNat_of ho).trans (show decode16 x = _ by simp only [decode16, hf])) rfl

theorem andi (d a : Reg) (imm : BitVec 10) (ea : Bool) : Statement (.andi d a imm ea) :=
  fun _ => decode_encode_i .andi 0x17 (by decide)
    (fun x ho => (decodeNat_of ho).trans (show decode17 x = _ by simp only [decode17])) rfl

theorem ori (d a : Reg) (imm : BitVec 10) (ea : Bool) : Statement (.ori d a imm ea) :=
  fun _ => decode_encode_i .ori 0x18 (by decide)
    (fun x ho => (decodeNat_of ho).trans (show decode18 x = _ by simp only [decode18])) rfl

theorem xori (d a : Reg) (imm : BitVec 10) (ea : Bool) : Statement (.xori d a imm ea) :=
  fun _ => decode_encode_i .xori 0x19 (by decide)
    (fun x ho => (decodeNat_of ho).trans (show decode19 x = _ by simp only [decode19])) rfl

theorem shl (d a b : Reg) (ea eb : Bool) : Statement (.shl d a b ea eb) :=
  fun _ => decode_encode_rrr .shl 0x1A 0 (by decide) (by decide)
    (fun x ho hf => (decodeNat_of ho).trans (show decode1A x = _ by simp only [decode1A, hf])) rfl

theorem shr (d a b : Reg) (ea eb : Bool) : Statement (.shr d a b ea eb) :=
  fun _ => decode_encode_rrr .shr 0x1A 1 (by decide) (by decide)
    (fun x ho hf => (decodeNat_of ho).trans (show decode1A x = _ by simp only [decode1A, hf])) rfl

theorem sar (d a b : Reg) (ea eb : Bool) : Statement (.sar d a b ea eb) :=
  fun _ => decode_encode_rrr .sar 0x1A 2 (by decide) (by decide)
    (fun x ho hf => (decodeNat_of ho).trans (show decode1A x = _ by simp only [decode1A, hf])) rfl

theorem rol (d a b : Reg) (ea eb : Bool) : Statement (.rol d a b ea eb) :=
  fun _ => decode_encode_rrr .rol 0x1A 3 (by decide) (by decide)
    (fun x ho hf => (decodeNat_of ho).trans (show decode1A x = _ by simp only [decode1A, hf])) rfl

theorem shli (d a : Reg) (n : BitVec 5) (ea : Bool) : Statement (.shli d a n ea) :=
  fun _ => decode_encode_shift .shli 0 (by decide)
    (fun x ho hf hz => (decodeNat_of ho).trans (show decode1B x = _ by simp only [decode1B, hf, hz, mbz, if_pos])) rfl

theorem shri (d a : Reg) (n : BitVec 5) (ea : Bool) : Statement (.shri d a n ea) :=
  fun _ => decode_encode_shift .shri 1 (by decide)
    (fun x ho hf hz => (decodeNat_of ho).trans (show decode1B x = _ by simp only [decode1B, hf, hz, mbz, if_pos])) rfl

theorem sari (d a : Reg) (n : BitVec 5) (ea : Bool) : Statement (.sari d a n ea) :=
  fun _ => decode_encode_shift .sari 2 (by decide)
    (fun x ho hf hz => (decodeNat_of ho).trans (show decode1B x = _ by simp only [decode1B, hf, hz, mbz, if_pos])) rfl

theorem roli (d a : Reg) (n : BitVec 5) (ea : Bool) : Statement (.roli d a n ea) :=
  fun _ => decode_encode_shift .roli 3 (by decide)
    (fun x ho hf hz => (decodeNat_of ho).trans (show decode1B x = _ by simp only [decode1B, hf, hz, mbz, if_pos])) rfl

theorem clz (d a : Reg) (ea : Bool) : Statement (.clz d a ea) :=
  fun _ => decode_encode_rr .clz 0x1C 0 0 (by decide) (by decide) (by decide)
    (fun x ho hf hb he => (decodeNat_of ho).trans (show decode1C x = _ by simp only [decode1C, hf, hb, he, mbz, if_pos])) rfl

theorem ctz (d a : Reg) (ea : Bool) : Statement (.ctz d a ea) :=
  fun _ => decode_encode_rr .ctz 0x1C 0 1 (by decide) (by decide) (by decide)
    (fun x ho hf hb he => (decodeNat_of ho).trans (show decode1C x = _ by simp only [decode1C, hf, hb, he, mbz, if_pos])) rfl

theorem popc (d a : Reg) (ea : Bool) : Statement (.popc d a ea) :=
  fun _ => decode_encode_rr .popc 0x1C 0 2 (by decide) (by decide) (by decide)
    (fun x ho hf hb he => (decodeNat_of ho).trans (show decode1C x = _ by simp only [decode1C, hf, hb, he, mbz, if_pos])) rfl

theorem brev (d a : Reg) (ea : Bool) : Statement (.brev d a ea) :=
  fun _ => decode_encode_rr .brev 0x1C 0 3 (by decide) (by decide) (by decide)
    (fun x ho hf hb he => (decodeNat_of ho).trans (show decode1C x = _ by simp only [decode1C, hf, hb, he, mbz, if_pos])) rfl

theorem bfxu (d a b : Reg) (ea eb : Bool) : Statement (.bfxu d a b ea eb) :=
  fun _ => decode_encode_rrr .bfxu 0x1D 0 (by decide) (by decide)
    (fun x ho hf => (decodeNat_of ho).trans (show decode1D x = _ by simp only [decode1D, hf])) rfl

theorem bfxs (d a b : Reg) (ea eb : Bool) : Statement (.bfxs d a b ea eb) :=
  fun _ => decode_encode_rrr .bfxs 0x1D 1 (by decide) (by decide)
    (fun x ho hf => (decodeNat_of ho).trans (show decode1D x = _ by simp only [decode1D, hf])) rfl

theorem bfi (d a b : Reg) (ea eb : Bool) : Statement (.bfi d a b ea eb) :=
  fun _ => decode_encode_rrr .bfi 0x1E 0 (by decide) (by decide)
    (fun x ho hf => (decodeNat_of ho).trans (show decode1E x = _ by simp only [decode1E, hf])) rfl

theorem ilv2 (d a b : Reg) (ea eb : Bool) : Statement (.ilv2 d a b ea eb) :=
  fun _ => decode_encode_rrr .ilv2 0x1F 0 (by decide) (by decide)
    (fun x ho hf => (decodeNat_of ho).trans (show decode1F x = _ by simp only [decode1F, hf])) rfl

theorem ilv3 (d a b : Reg) (ea eb : Bool) : Statement (.ilv3 d a b ea eb) :=
  fun _ => decode_encode_rrr .ilv3 0x1F 1 (by decide) (by decide)
    (fun x ho hf => (decodeNat_of ho).trans (show decode1F x = _ by simp only [decode1F, hf])) rfl

theorem dlv2 (d a : Reg) (ea : Bool) : Statement (.dlv2 d a ea) :=
  fun _ => decode_encode_rr .dlv2 0x1F 0 2 (by decide) (by decide) (by decide)
    (fun x ho hf hb he => (decodeNat_of ho).trans (show decode1F x = _ by simp only [decode1F, hf, hb, he, mbz, if_pos])) rfl

theorem dlv3 (d a b : Reg) (ea eb : Bool) : Statement (.dlv3 d a b ea eb) :=
  fun _ => decode_encode_rrr .dlv3 0x1F 3 (by decide) (by decide)
    (fun x ho hf => (decodeNat_of ho).trans (show decode1F x = _ by simp only [decode1F, hf])) rfl

theorem ceq (d a b : Reg) (ea eb : Bool) : Statement (.ceq d a b ea eb) :=
  fun _ => decode_encode_rrr .ceq 0x20 0 (by decide) (by decide)
    (fun x ho hf => (decodeNat_of ho).trans (show decode20 x = _ by simp only [decode20, hf])) rfl

theorem cne (d a b : Reg) (ea eb : Bool) : Statement (.cne d a b ea eb) :=
  fun _ => decode_encode_rrr .cne 0x20 1 (by decide) (by decide)
    (fun x ho hf => (decodeNat_of ho).trans (show decode20 x = _ by simp only [decode20, hf])) rfl

theorem cltu (d a b : Reg) (ea eb : Bool) : Statement (.cltu d a b ea eb) :=
  fun _ => decode_encode_rrr .cltu 0x20 2 (by decide) (by decide)
    (fun x ho hf => (decodeNat_of ho).trans (show decode20 x = _ by simp only [decode20, hf])) rfl

theorem clts (d a b : Reg) (ea eb : Bool) : Statement (.clts d a b ea eb) :=
  fun _ => decode_encode_rrr .clts 0x20 3 (by decide) (by decide)
    (fun x ho hf => (decodeNat_of ho).trans (show decode20 x = _ by simp only [decode20, hf])) rfl

theorem cleu (d a b : Reg) (ea eb : Bool) : Statement (.cleu d a b ea eb) :=
  fun _ => decode_encode_rrr .cleu 0x21 0 (by decide) (by decide)
    (fun x ho hf => (decodeNat_of ho).trans (show decode21 x = _ by simp only [decode21, hf])) rfl

theorem cles (d a b : Reg) (ea eb : Bool) : Statement (.cles d a b ea eb) :=
  fun _ => decode_encode_rrr .cles 0x21 1 (by decide) (by decide)
    (fun x ho hf => (decodeNat_of ho).trans (show decode21 x = _ by simp only [decode21, hf])) rfl

theorem cbit (d a b : Reg) (ea eb : Bool) : Statement (.cbit d a b ea eb) :=
  fun _ => decode_encode_rrr .cbit 0x21 2 (by decide) (by decide)
    (fun x ho hf => (decodeNat_of ho).trans (show decode21 x = _ by simp only [decode21, hf])) rfl

theorem sel (d a b : Reg) (ea eb : Bool) : Statement (.sel d a b ea eb) :=
  fun _ => decode_encode_rrr .sel 0x22 0 (by decide) (by decide)
    (fun x ho hf => (decodeNat_of ho).trans (show decode22 x = _ by simp only [decode22, hf])) rfl

theorem abs (d a : Reg) (ea : Bool) : Statement (.abs d a ea) :=
  fun _ => decode_encode_rr .abs 0x23 0 0 (by decide) (by decide) (by decide)
    (fun x ho hf hb he => (decodeNat_of ho).trans (show decode23 x = _ by simp only [decode23, hf, hb, he, mbz, if_pos])) rfl

theorem neg (d a : Reg) (ea : Bool) : Statement (.neg d a ea) :=
  fun _ => decode_encode_rr .neg 0x23 0 1 (by decide) (by decide) (by decide)
    (fun x ho hf hb he => (decodeNat_of ho).trans (show decode23 x = _ by simp only [decode23, hf, hb, he, mbz, if_pos])) rfl

theorem sext8 (d a : Reg) (ea : Bool) : Statement (.sext8 d a ea) :=
  fun _ => decode_encode_rr .sext8 0x23 0 2 (by decide) (by decide) (by decide)
    (fun x ho hf hb he => (decodeNat_of ho).trans (show decode23 x = _ by simp only [decode23, hf, hb, he, mbz, if_pos])) rfl

theorem sext16 (d a : Reg) (ea : Bool) : Statement (.sext16 d a ea) :=
  fun _ => decode_encode_rr .sext16 0x23 0 3 (by decide) (by decide) (by decide)
    (fun x ho hf hb he => (decodeNat_of ho).trans (show decode23 x = _ by simp only [decode23, hf, hb, he, mbz, if_pos])) rfl

theorem movh (d : Reg) (imm : BitVec 18) : Statement (.movh d imm) :=
  fun _ => decode_encode_b 0x24 d.code imm.toNat (by decide) d.code_lt imm.isLt
    (fun x ho hc hi => (decodeNat_of ho).trans (show decode24 x = _ by simp only [decode24, rD, hc, hi, Reg.ofCode_code, BitVec.ofNat_toNat, BitVec.setWidth_eq])) rfl

theorem orl (d : Reg) (imm : BitVec 18) : Statement (.orl d imm) :=
  fun _ => decode_encode_b 0x25 d.code imm.toNat (by decide) d.code_lt imm.isLt
    (fun x ho hc hi => (decodeNat_of ho).trans (show decode25 x = _ by simp only [decode25, rD, hc, hi, Reg.ofCode_code, BitVec.ofNat_toNat, BitVec.setWidth_eq])) rfl

theorem mov (d a : Reg) (ea : Bool) : Statement (.mov d a ea) :=
  fun _ => decode_encode_rr .mov 0x26 0 0 (by decide) (by decide) (by decide)
    (fun x ho hf hb he => (decodeNat_of ho).trans (show decode26 x = _ by simp only [decode26, hf, hb, he, mbz, if_pos])) rfl

theorem movp (d a : Reg) (ea : Bool) : Statement (.movp d a ea) :=
  fun _ => decode_encode_rr .movp 0x26 0 1 (by decide) (by decide) (by decide)
    (fun x ho hf hb he => (decodeNat_of ho).trans (show decode26 x = _ by simp only [decode26, hf, hb, he, mbz, if_pos])) rfl

theorem movf (d a : Reg) (ea : Bool) : Statement (.movf d a ea) :=
  fun _ => decode_encode_rr .movf 0x26 0 2 (by decide) (by decide) (by decide)
    (fun x ho hf hb he => (decodeNat_of ho).trans (show decode26 x = _ by simp only [decode26, hf, hb, he, mbz, if_pos])) rfl

theorem add64 (d a b : Reg) (ea eb : Bool) : Statement (.add64 d a b ea eb) :=
  fun _ => decode_encode_rrr .add64 0x27 0 (by decide) (by decide)
    (fun x ho hf => (decodeNat_of ho).trans (show decode27 x = _ by simp only [decode27, hf])) rfl

theorem sub64 (d a b : Reg) (ea eb : Bool) : Statement (.sub64 d a b ea eb) :=
  fun _ => decode_encode_rrr .sub64 0x27 1 (by decide) (by decide)
    (fun x ho hf => (decodeNat_of ho).trans (show decode27 x = _ by simp only [decode27, hf])) rfl

theorem shl64 (d a b : Reg) (ea eb : Bool) : Statement (.shl64 d a b ea eb) :=
  fun _ => decode_encode_rrr .shl64 0x27 2 (by decide) (by decide)
    (fun x ho hf => (decodeNat_of ho).trans (show decode27 x = _ by simp only [decode27, hf])) rfl

theorem shru64 (d a b : Reg) (ea eb : Bool) : Statement (.shru64 d a b ea eb) :=
  fun _ => decode_encode_rrr .shru64 0x27 3 (by decide) (by decide)
    (fun x ho hf => (decodeNat_of ho).trans (show decode27 x = _ by simp only [decode27, hf])) rfl

theorem fadd (d a b : Reg) (ea eb : Bool) : Statement (.fadd d a b ea eb) :=
  fun _ => decode_encode_rrr .fadd 0x30 0 (by decide) (by decide)
    (fun x ho hf => (decodeNat_of ho).trans (show decode30 x = _ by simp only [decode30, hf])) rfl

theorem fsub (d a b : Reg) (ea eb : Bool) : Statement (.fsub d a b ea eb) :=
  fun _ => decode_encode_rrr .fsub 0x30 1 (by decide) (by decide)
    (fun x ho hf => (decodeNat_of ho).trans (show decode30 x = _ by simp only [decode30, hf])) rfl

theorem fmul (d a b : Reg) (ea eb : Bool) : Statement (.fmul d a b ea eb) :=
  fun _ => decode_encode_rrr .fmul 0x30 2 (by decide) (by decide)
    (fun x ho hf => (decodeNat_of ho).trans (show decode30 x = _ by simp only [decode30, hf])) rfl

theorem ffma (d a b : Reg) (ea eb : Bool) : Statement (.ffma d a b ea eb) :=
  fun _ => decode_encode_rrr .ffma 0x31 0 (by decide) (by decide)
    (fun x ho hf => (decodeNat_of ho).trans (show decode31 x = _ by simp only [decode31, hf])) rfl

theorem ffms (d a b : Reg) (ea eb : Bool) : Statement (.ffms d a b ea eb) :=
  fun _ => decode_encode_rrr .ffms 0x31 1 (by decide) (by decide)
    (fun x ho hf => (decodeNat_of ho).trans (show decode31 x = _ by simp only [decode31, hf])) rfl

theorem fnma (d a b : Reg) (ea eb : Bool) : Statement (.fnma d a b ea eb) :=
  fun _ => decode_encode_rrr .fnma 0x31 2 (by decide) (by decide)
    (fun x ho hf => (decodeNat_of ho).trans (show decode31 x = _ by simp only [decode31, hf])) rfl

theorem fnms (d a b : Reg) (ea eb : Bool) : Statement (.fnms d a b ea eb) :=
  fun _ => decode_encode_rrr .fnms 0x31 3 (by decide) (by decide)
    (fun x ho hf => (decodeNat_of ho).trans (show decode31 x = _ by simp only [decode31, hf])) rfl

theorem fmin (d a b : Reg) (ea eb : Bool) : Statement (.fmin d a b ea eb) :=
  fun _ => decode_encode_rrr .fmin 0x32 0 (by decide) (by decide)
    (fun x ho hf => (decodeNat_of ho).trans (show decode32 x = _ by simp only [decode32, hf])) rfl

theorem fmax (d a b : Reg) (ea eb : Bool) : Statement (.fmax d a b ea eb) :=
  fun _ => decode_encode_rrr .fmax 0x32 1 (by decide) (by decide)
    (fun x ho hf => (decodeNat_of ho).trans (show decode32 x = _ by simp only [decode32, hf])) rfl

theorem fminn (d a b : Reg) (ea eb : Bool) : Statement (.fminn d a b ea eb) :=
  fun _ => decode_encode_rrr .fminn 0x32 2 (by decide) (by decide)
    (fun x ho hf => (decodeNat_of ho).trans (show decode32 x = _ by simp only [decode32, hf])) rfl

theorem fmaxn (d a b : Reg) (ea eb : Bool) : Statement (.fmaxn d a b ea eb) :=
  fun _ => decode_encode_rrr .fmaxn 0x32 3 (by decide) (by decide)
    (fun x ho hf => (decodeNat_of ho).trans (show decode32 x = _ by simp only [decode32, hf])) rfl

theorem fceq (d a b : Reg) (ea eb : Bool) : Statement (.fceq d a b ea eb) :=
  fun _ => decode_encode_rrr .fceq 0x33 0 (by decide) (by decide)
    (fun x ho hf => (decodeNat_of ho).trans (show decode33 x = _ by simp only [decode33, hf])) rfl

theorem fclt (d a b : Reg) (ea eb : Bool) : Statement (.fclt d a b ea eb) :=
  fun _ => decode_encode_rrr .fclt 0x33 1 (by decide) (by decide)
    (fun x ho hf => (decodeNat_of ho).trans (show decode33 x = _ by simp only [decode33, hf])) rfl

theorem fcle (d a b : Reg) (ea eb : Bool) : Statement (.fcle d a b ea eb) :=
  fun _ => decode_encode_rrr .fcle 0x33 2 (by decide) (by decide)
    (fun x ho hf => (decodeNat_of ho).trans (show decode33 x = _ by simp only [decode33, hf])) rfl

theorem fcun (d a b : Reg) (ea eb : Bool) : Statement (.fcun d a b ea eb) :=
  fun _ => decode_encode_rrr .fcun 0x33 3 (by decide) (by decide)
    (fun x ho hf => (decodeNat_of ho).trans (show decode33 x = _ by simp only [decode33, hf])) rfl

theorem fabs (d a : Reg) (ea : Bool) : Statement (.fabs d a ea) :=
  fun _ => decode_encode_rr .fabs 0x34 0 0 (by decide) (by decide) (by decide)
    (fun x ho hf hb he => (decodeNat_of ho).trans (show decode34 x = _ by simp only [decode34, hf, hb, he, mbz, if_pos])) rfl

theorem fneg (d a : Reg) (ea : Bool) : Statement (.fneg d a ea) :=
  fun _ => decode_encode_rr .fneg 0x34 0 1 (by decide) (by decide) (by decide)
    (fun x ho hf hb he => (decodeNat_of ho).trans (show decode34 x = _ by simp only [decode34, hf, hb, he, mbz, if_pos])) rfl

theorem fclass (d a : Reg) (ea : Bool) : Statement (.fclass d a ea) :=
  fun _ => decode_encode_rr .fclass 0x34 0 2 (by decide) (by decide) (by decide)
    (fun x ho hf hb he => (decodeNat_of ho).trans (show decode34 x = _ by simp only [decode34, hf, hb, he, mbz, if_pos])) rfl

theorem frne (d a : Reg) (ea : Bool) : Statement (.frne d a ea) :=
  fun _ => decode_encode_rr .frne 0x35 0 0 (by decide) (by decide) (by decide)
    (fun x ho hf hb he => (decodeNat_of ho).trans (show decode35 x = _ by simp only [decode35, hf, hb, he, mbz, if_pos])) rfl

theorem frtz (d a : Reg) (ea : Bool) : Statement (.frtz d a ea) :=
  fun _ => decode_encode_rr .frtz 0x35 0 1 (by decide) (by decide) (by decide)
    (fun x ho hf hb he => (decodeNat_of ho).trans (show decode35 x = _ by simp only [decode35, hf, hb, he, mbz, if_pos])) rfl

theorem frdn (d a : Reg) (ea : Bool) : Statement (.frdn d a ea) :=
  fun _ => decode_encode_rr .frdn 0x35 0 2 (by decide) (by decide) (by decide)
    (fun x ho hf hb he => (decodeNat_of ho).trans (show decode35 x = _ by simp only [decode35, hf, hb, he, mbz, if_pos])) rfl

theorem frup (d a : Reg) (ea : Bool) : Statement (.frup d a ea) :=
  fun _ => decode_encode_rr .frup 0x35 0 3 (by decide) (by decide) (by decide)
    (fun x ho hf hb he => (decodeNat_of ho).trans (show decode35 x = _ by simp only [decode35, hf, hb, he, mbz, if_pos])) rfl

theorem cvtuf (d a : Reg) (ea : Bool) : Statement (.cvtuf d a ea) :=
  fun _ => decode_encode_rr .cvtuf 0x36 0 0 (by decide) (by decide) (by decide)
    (fun x ho hf hb he => (decodeNat_of ho).trans (show decode36 x = _ by simp only [decode36, hf, hb, he, mbz, if_pos])) rfl

theorem cvtsf (d a : Reg) (ea : Bool) : Statement (.cvtsf d a ea) :=
  fun _ => decode_encode_rr .cvtsf 0x36 0 1 (by decide) (by decide) (by decide)
    (fun x ho hf hb he => (decodeNat_of ho).trans (show decode36 x = _ by simp only [decode36, hf, hb, he, mbz, if_pos])) rfl

theorem cvtfu (d a : Reg) (ea : Bool) : Statement (.cvtfu d a ea) :=
  fun _ => decode_encode_rr .cvtfu 0x36 0 2 (by decide) (by decide) (by decide)
    (fun x ho hf hb he => (decodeNat_of ho).trans (show decode36 x = _ by simp only [decode36, hf, hb, he, mbz, if_pos])) rfl

theorem cvtfs (d a : Reg) (ea : Bool) : Statement (.cvtfs d a ea) :=
  fun _ => decode_encode_rr .cvtfs 0x36 0 3 (by decide) (by decide) (by decide)
    (fun x ho hf hb he => (decodeNat_of ho).trans (show decode36 x = _ by simp only [decode36, hf, hb, he, mbz, if_pos])) rfl

theorem cvtn (d a : Reg) (fmt : Fmt) (rnd : Rnd) (sat : Bool) (pos : BitVec 2) (ea : Bool) : Statement (.cvtn d a fmt rnd sat pos ea) := by
  have h0 := pos.isLt
  have h1 := fmt.code_lt
  have h2 := rnd.code_lt
  have h3 := toNat_lt_two sat
  obtain ⟨hn, hx⟩ := encI_fields (op := 0x37) (imm := fmt.code * 64 + rnd.code * 8 + sat.toNat * 4 + pos.toNat)
    (by decide) d.code_lt a.code_lt (by omega) (toNat_lt_two ea)
  have e1 : (fmt.code * 64 + rnd.code * 8 + sat.toNat * 4 + pos.toNat) / 64 = fmt.code := by omega
  have e2 : (fmt.code * 64 + rnd.code * 8 + sat.toNat * 4 + pos.toNat) / 8 % 8 = rnd.code := by omega
  have e3 : (fmt.code * 64 + rnd.code * 8 + sat.toNat * 4 + pos.toNat) / 4 % 2 = sat.toNat := by omega
  have e4 : (fmt.code * 64 + rnd.code * 8 + sat.toNat * 4 + pos.toNat) % 4 = pos.toNat := by omega
  intro hwf
  have hd : ∀ x, FieldsI x 0x37 d.code a.code (fmt.code * 64 + rnd.code * 8 + sat.toNat * 4 + pos.toNat) ea.toNat →
      decodeNat x = .ok (.cvtn d a fmt rnd sat pos ea) := by
    clear hx hn
    intro x hx
    rw [decodeNat_of hx.op]; show decode37 _ = _
    simp only [decode37, listed, hx.imm, e1, Fmt.ofCode_code, e2, Rnd.ofCode_code, limit, e4, BitVec.ofNat_toNat,
      BitVec.setWidth_eq, show cvtnOk fmt pos = true from hwf, ↓reduceIte, rD, hx.d, Reg.ofCode_code, rA, hx.a, e3,
      flag_toNat, hx.ea]
  exact decode_encode_by hn rfl (hd _ hx)

theorem cvtw (d a : Reg) (fmt : Fmt) (pos : BitVec 3) (ea : Bool) : Statement (.cvtw d a fmt pos ea) := by
  have h0 := pos.isLt
  have h1 := fmt.code_lt
  obtain ⟨hn, hx⟩ := encI_fields (op := 0x38) (imm := fmt.code * 64 + pos.toNat * 8)
    (by decide) d.code_lt a.code_lt (by omega) (toNat_lt_two ea)
  have e1 : (fmt.code * 64 + pos.toNat * 8) / 64 = fmt.code := by omega
  have e2 : (fmt.code * 64 + pos.toNat * 8) / 8 % 8 = pos.toNat := by omega
  have e3 : (fmt.code * 64 + pos.toNat * 8) % 8 = 0 := by omega
  intro hwf
  have hd : ∀ x, FieldsI x 0x38 d.code a.code (fmt.code * 64 + pos.toNat * 8) ea.toNat →
      decodeNat x = .ok (.cvtw d a fmt pos ea) := by
    clear hx hn
    intro x hx
    rw [decodeNat_of hx.op]; show decode38 _ = _
    simp only [decode38, mbz, hx.imm, e3, ↓reduceIte, listed, e1, Fmt.ofCode_code, limit, e2, BitVec.ofNat_toNat,
      BitVec.setWidth_eq, show cvtwOk fmt pos = true from hwf, rD, hx.d, Reg.ofCode_code, rA, hx.a, hx.ea, flag_toNat]
  exact decode_encode_by hn rfl (hd _ hx)

theorem badd2 (d a b : Reg) (ea eb : Bool) : Statement (.badd2 d a b ea eb) :=
  fun _ => decode_encode_rrr .badd2 0x39 0 (by decide) (by decide)
    (fun x ho hf => (decodeNat_of ho).trans (show decode39 x = _ by simp only [decode39, hf])) rfl

theorem bmul2 (d a b : Reg) (ea eb : Bool) : Statement (.bmul2 d a b ea eb) :=
  fun _ => decode_encode_rrr .bmul2 0x39 1 (by decide) (by decide)
    (fun x ho hf => (decodeNat_of ho).trans (show decode39 x = _ by simp only [decode39, hf])) rfl

theorem hadd2 (d a b : Reg) (ea eb : Bool) : Statement (.hadd2 d a b ea eb) :=
  fun _ => decode_encode_rrr .hadd2 0x39 2 (by decide) (by decide)
    (fun x ho hf => (decodeNat_of ho).trans (show decode39 x = _ by simp only [decode39, hf])) rfl

theorem hmul2 (d a b : Reg) (ea eb : Bool) : Statement (.hmul2 d a b ea eb) :=
  fun _ => decode_encode_rrr .hmul2 0x39 3 (by decide) (by decide)
    (fun x ho hf => (decodeNat_of ho).trans (show decode39 x = _ by simp only [decode39, hf])) rfl

theorem bfma2 (d a b : Reg) (ea eb : Bool) : Statement (.bfma2 d a b ea eb) :=
  fun _ => decode_encode_rrr .bfma2 0x3A 0 (by decide) (by decide)
    (fun x ho hf => (decodeNat_of ho).trans (show decode3A x = _ by simp only [decode3A, hf])) rfl

theorem hfma2 (d a b : Reg) (ea eb : Bool) : Statement (.hfma2 d a b ea eb) :=
  fun _ => decode_encode_rrr .hfma2 0x3A 1 (by decide) (by decide)
    (fun x ho hf => (decodeNat_of ho).trans (show decode3A x = _ by simp only [decode3A, hf])) rfl

theorem rcp (d a : Reg) (ea : Bool) : Statement (.rcp d a ea) :=
  fun _ => decode_encode_rr .rcp 0x3B 0 0 (by decide) (by decide) (by decide)
    (fun x ho hf hb he => (decodeNat_of ho).trans (show decode3B x = _ by simp only [decode3B, hf, hb, he, mbz, if_pos])) rfl

theorem rsq (d a : Reg) (ea : Bool) : Statement (.rsq d a ea) :=
  fun _ => decode_encode_rr .rsq 0x3B 1 0 (by decide) (by decide) (by decide)
    (fun x ho hf hb he => (decodeNat_of ho).trans (show decode3B x = _ by simp only [decode3B, hf, hb, he, mbz, if_pos])) rfl

theorem sqrt (d a : Reg) (ea : Bool) : Statement (.sqrt d a ea) :=
  fun _ => decode_encode_rr .sqrt 0x3B 2 0 (by decide) (by decide) (by decide)
    (fun x ho hf hb he => (decodeNat_of ho).trans (show decode3B x = _ by simp only [decode3B, hf, hb, he, mbz, if_pos])) rfl

theorem ex2 (d a : Reg) (ea : Bool) : Statement (.ex2 d a ea) :=
  fun _ => decode_encode_rr .ex2 0x3B 3 0 (by decide) (by decide) (by decide)
    (fun x ho hf hb he => (decodeNat_of ho).trans (show decode3B x = _ by simp only [decode3B, hf, hb, he, mbz, if_pos])) rfl

theorem lg2 (d a : Reg) (ea : Bool) : Statement (.lg2 d a ea) :=
  fun _ => decode_encode_rr .lg2 0x3B 4 0 (by decide) (by decide) (by decide)
    (fun x ho hf hb he => (decodeNat_of ho).trans (show decode3B x = _ by simp only [decode3B, hf, hb, he, mbz, if_pos])) rfl

theorem sin (d a : Reg) (ea : Bool) : Statement (.sin d a ea) :=
  fun _ => decode_encode_rr .sin 0x3B 5 0 (by decide) (by decide) (by decide)
    (fun x ho hf hb he => (decodeNat_of ho).trans (show decode3B x = _ by simp only [decode3B, hf, hb, he, mbz, if_pos])) rfl

theorem cos (d a : Reg) (ea : Bool) : Statement (.cos d a ea) :=
  fun _ => decode_encode_rr .cos 0x3B 6 0 (by decide) (by decide) (by decide)
    (fun x ho hf hb he => (decodeNat_of ho).trans (show decode3B x = _ by simp only [decode3B, hf, hb, he, mbz, if_pos])) rfl

theorem tanh (d a : Reg) (ea : Bool) : Statement (.tanh d a ea) :=
  fun _ => decode_encode_rr .tanh 0x3B 7 0 (by decide) (by decide) (by decide)
    (fun x ho hf hb he => (decodeNat_of ho).trans (show decode3B x = _ by simp only [decode3B, hf, hb, he, mbz, if_pos])) rfl

theorem idot4ss (d a b : Reg) (ea eb : Bool) : Statement (.idot4ss d a b ea eb) :=
  fun _ => decode_encode_rrr .idot4ss 0x3C 0 (by decide) (by decide)
    (fun x ho hf => (decodeNat_of ho).trans (show decode3C x = _ by simp only [decode3C, hf])) rfl

theorem idot4uu (d a b : Reg) (ea eb : Bool) : Statement (.idot4uu d a b ea eb) :=
  fun _ => decode_encode_rrr .idot4uu 0x3C 1 (by decide) (by decide)
    (fun x ho hf => (decodeNat_of ho).trans (show decode3C x = _ by simp only [decode3C, hf])) rfl

theorem idot4su (d a b : Reg) (ea eb : Bool) : Statement (.idot4su d a b ea eb) :=
  fun _ => decode_encode_rrr .idot4su 0x3C 2 (by decide) (by decide)
    (fun x ho hf => (decodeNat_of ho).trans (show decode3C x = _ by simp only [decode3C, hf])) rfl

theorem idot4us (d a b : Reg) (ea eb : Bool) : Statement (.idot4us d a b ea eb) :=
  fun _ => decode_encode_rrr .idot4us 0x3C 3 (by decide) (by decide)
    (fun x ho hf => (decodeNat_of ho).trans (show decode3C x = _ by simp only [decode3C, hf])) rfl

theorem fscl (d a b : Reg) (ea eb : Bool) : Statement (.fscl d a b ea eb) :=
  fun _ => decode_encode_rrr .fscl 0x3D 0 (by decide) (by decide)
    (fun x ho hf => (decodeNat_of ho).trans (show decode3D x = _ by simp only [decode3D, hf])) rfl

theorem fexp (d a : Reg) (ea : Bool) : Statement (.fexp d a ea) :=
  fun _ => decode_encode_rr .fexp 0x3D 0 1 (by decide) (by decide) (by decide)
    (fun x ho hf hb he => (decodeNat_of ho).trans (show decode3D x = _ by simp only [decode3D, hf, hb, he, mbz, if_pos])) rfl

theorem fmnt (d a : Reg) (ea : Bool) : Statement (.fmnt d a ea) :=
  fun _ => decode_encode_rr .fmnt 0x3D 0 2 (by decide) (by decide) (by decide)
    (fun x ho hf hb he => (decodeNat_of ho).trans (show decode3D x = _ by simp only [decode3D, hf, hb, he, mbz, if_pos])) rfl

theorem scani (d a b : Reg) (ea eb : Bool) : Statement (.scani d a b ea eb) :=
  fun _ => decode_encode_rrr .scani 0x40 0 (by decide) (by decide)
    (fun x ho hf => (decodeNat_of ho).trans (show decode40 x = _ by simp only [decode40, hf])) rfl

theorem scanx (d a b : Reg) (ea eb : Bool) : Statement (.scanx d a b ea eb) :=
  fun _ => decode_encode_rrr .scanx 0x40 1 (by decide) (by decide)
    (fun x ho hf => (decodeNat_of ho).trans (show decode40 x = _ by simp only [decode40, hf])) rfl

theorem scanf (d a b : Reg) (ea eb : Bool) : Statement (.scanf d a b ea eb) :=
  fun _ => decode_encode_rrr .scanf 0x40 2 (by decide) (by decide)
    (fun x ho hf => (decodeNat_of ho).trans (show decode40 x = _ by simp only [decode40, hf])) rfl

theorem scanfx (d a b : Reg) (ea eb : Bool) : Statement (.scanfx d a b ea eb) :=
  fun _ => decode_encode_rrr .scanfx 0x40 3 (by decide) (by decide)
    (fun x ho hf => (decodeNat_of ho).trans (show decode40 x = _ by simp only [decode40, hf])) rfl

theorem scanmaxs (d a : Reg) (ea : Bool) : Statement (.scanmaxs d a ea) :=
  fun _ => decode_encode_rr .scanmaxs 0x41 0 0 (by decide) (by decide) (by decide)
    (fun x ho hf hb he => (decodeNat_of ho).trans (show decode41 x = _ by simp only [decode41, hf, hb, he, mbz, if_pos])) rfl

theorem scanmins (d a : Reg) (ea : Bool) : Statement (.scanmins d a ea) :=
  fun _ => decode_encode_rr .scanmins 0x41 0 1 (by decide) (by decide) (by decide)
    (fun x ho hf hb he => (decodeNat_of ho).trans (show decode41 x = _ by simp only [decode41, hf, hb, he, mbz, if_pos])) rfl

theorem scanmaxu (d a : Reg) (ea : Bool) : Statement (.scanmaxu d a ea) :=
  fun _ => decode_encode_rr .scanmaxu 0x41 0 2 (by decide) (by decide) (by decide)
    (fun x ho hf hb he => (decodeNat_of ho).trans (show decode41 x = _ by simp only [decode41, hf, hb, he, mbz, if_pos])) rfl

theorem scanminu (d a : Reg) (ea : Bool) : Statement (.scanminu d a ea) :=
  fun _ => decode_encode_rr .scanminu 0x41 0 3 (by decide) (by decide) (by decide)
    (fun x ho hf hb he => (decodeNat_of ho).trans (show decode41 x = _ by simp only [decode41, hf, hb, he, mbz, if_pos])) rfl

theorem scanand (d a : Reg) (ea : Bool) : Statement (.scanand d a ea) :=
  fun _ => decode_encode_rr .scanand 0x42 0 0 (by decide) (by decide) (by decide)
    (fun x ho hf hb he => (decodeNat_of ho).trans (show decode42 x = _ by simp only [decode42, hf, hb, he, mbz, if_pos])) rfl

theorem scanor (d a : Reg) (ea : Bool) : Statement (.scanor d a ea) :=
  fun _ => decode_encode_rr .scanor 0x42 0 1 (by decide) (by decide) (by decide)
    (fun x ho hf hb he => (decodeNat_of ho).trans (show decode42 x = _ by simp only [decode42, hf, hb, he, mbz, if_pos])) rfl

theorem scanxor (d a : Reg) (ea : Bool) : Statement (.scanxor d a ea) :=
  fun _ => decode_encode_rr .scanxor 0x42 0 2 (by decide) (by decide) (by decide)
    (fun x ho hf hb he => (decodeNat_of ho).trans (show decode42 x = _ by simp only [decode42, hf, hb, he, mbz, if_pos])) rfl

theorem sscani (d a b : Reg) (ea eb : Bool) : Statement (.sscani d a b ea eb) :=
  fun _ => decode_encode_rrr .sscani 0x43 0 (by decide) (by decide)
    (fun x ho hf => (decodeNat_of ho).trans (show decode43 x = _ by simp only [decode43, hf])) rfl

theorem sscanx (d a b : Reg) (ea eb : Bool) : Statement (.sscanx d a b ea eb) :=
  fun _ => decode_encode_rrr .sscanx 0x43 1 (by decide) (by decide)
    (fun x ho hf => (decodeNat_of ho).trans (show decode43 x = _ by simp only [decode43, hf])) rfl

theorem sscanf (d a b : Reg) (ea eb : Bool) : Statement (.sscanf d a b ea eb) :=
  fun _ => decode_encode_rrr .sscanf 0x43 2 (by decide) (by decide)
    (fun x ho hf => (decodeNat_of ho).trans (show decode43 x = _ by simp only [decode43, hf])) rfl

theorem sscanfx (d a b : Reg) (ea eb : Bool) : Statement (.sscanfx d a b ea eb) :=
  fun _ => decode_encode_rrr .sscanfx 0x43 3 (by decide) (by decide)
    (fun x ho hf => (decodeNat_of ho).trans (show decode43 x = _ by simp only [decode43, hf])) rfl

theorem redi (d a : Reg) (ea : Bool) : Statement (.redi d a ea) :=
  fun _ => decode_encode_rr .redi 0x44 0 0 (by decide) (by decide) (by decide)
    (fun x ho hf hb he => (decodeNat_of ho).trans (show decode44 x = _ by simp only [decode44, hf, hb, he, mbz, if_pos])) rfl

theorem redf (d a : Reg) (ea : Bool) : Statement (.redf d a ea) :=
  fun _ => decode_encode_rr .redf 0x44 0 1 (by decide) (by decide) (by decide)
    (fun x ho hf hb he => (decodeNat_of ho).trans (show decode44 x = _ by simp only [decode44, hf, hb, he, mbz, if_pos])) rfl

theorem redmax (d a : Reg) (ea : Bool) : Statement (.redmax d a ea) :=
  fun _ => decode_encode_rr .redmax 0x44 0 2 (by decide) (by decide) (by decide)
    (fun x ho hf hb he => (decodeNat_of ho).trans (show decode44 x = _ by simp only [decode44, hf, hb, he, mbz, if_pos])) rfl

theorem redmin (d a : Reg) (ea : Bool) : Statement (.redmin d a ea) :=
  fun _ => decode_encode_rr .redmin 0x44 0 3 (by decide) (by decide) (by decide)
    (fun x ho hf hb he => (decodeNat_of ho).trans (show decode44 x = _ by simp only [decode44, hf, hb, he, mbz, if_pos])) rfl

theorem vany (d a : Reg) (ea : Bool) : Statement (.vany d a ea) :=
  fun _ => decode_encode_rr .vany 0x45 0 0 (by decide) (by decide) (by decide)
    (fun x ho hf hb he => (decodeNat_of ho).trans (show decode45 x = _ by simp only [decode45, hf, hb, he, mbz, if_pos])) rfl

theorem vall (d a : Reg) (ea : Bool) : Statement (.vall d a ea) :=
  fun _ => decode_encode_rr .vall 0x45 0 1 (by decide) (by decide) (by decide)
    (fun x ho hf hb he => (decodeNat_of ho).trans (show decode45 x = _ by simp only [decode45, hf, hb, he, mbz, if_pos])) rfl

theorem vbal (d a : Reg) (ea : Bool) : Statement (.vbal d a ea) :=
  fun _ => decode_encode_rr .vbal 0x45 0 2 (by decide) (by decide) (by decide)
    (fun x ho hf hb he => (decodeNat_of ho).trans (show decode45 x = _ by simp only [decode45, hf, hb, he, mbz, if_pos])) rfl

theorem vcnt (d a : Reg) (ea : Bool) : Statement (.vcnt d a ea) :=
  fun _ => decode_encode_rr .vcnt 0x45 0 3 (by decide) (by decide) (by decide)
    (fun x ho hf hb he => (decodeNat_of ho).trans (show decode45 x = _ by simp only [decode45, hf, hb, he, mbz, if_pos])) rfl

theorem bcast (d a b : Reg) (ea eb : Bool) : Statement (.bcast d a b ea eb) :=
  fun _ => decode_encode_rrr .bcast 0x46 0 (by decide) (by decide)
    (fun x ho hf => (decodeNat_of ho).trans (show decode46 x = _ by simp only [decode46, hf])) rfl

theorem bfirst (d a : Reg) (ea : Bool) : Statement (.bfirst d a ea) :=
  fun _ => decode_encode_rr .bfirst 0x46 0 1 (by decide) (by decide) (by decide)
    (fun x ho hf hb he => (decodeNat_of ho).trans (show decode46 x = _ by simp only [decode46, hf, hb, he, mbz, if_pos])) rfl

theorem blast (d a : Reg) (ea : Bool) : Statement (.blast d a ea) :=
  fun _ => decode_encode_rr .blast 0x46 0 2 (by decide) (by decide) (by decide)
    (fun x ho hf hb he => (decodeNat_of ho).trans (show decode46 x = _ by simp only [decode46, hf, hb, he, mbz, if_pos])) rfl

theorem prev (d a b : Reg) (ea eb : Bool) : Statement (.prev d a b ea eb) :=
  fun _ => decode_encode_rrr .prev 0x47 0 (by decide) (by decide)
    (fun x ho hf => (decodeNat_of ho).trans (show decode47 x = _ by simp only [decode47, hf])) rfl

theorem next (d a b : Reg) (ea eb : Bool) : Statement (.next d a b ea eb) :=
  fun _ => decode_encode_rrr .next 0x47 1 (by decide) (by decide)
    (fun x ho hf => (decodeNat_of ho).trans (show decode47 x = _ by simp only [decode47, hf])) rfl

theorem rotp (d a : Reg) (ea : Bool) : Statement (.rotp d a ea) :=
  fun _ => decode_encode_rr .rotp 0x47 0 2 (by decide) (by decide) (by decide)
    (fun x ho hf hb he => (decodeNat_of ho).trans (show decode47 x = _ by simp only [decode47, hf, hb, he, mbz, if_pos])) rfl

theorem rotn (d a : Reg) (ea : Bool) : Statement (.rotn d a ea) :=
  fun _ => decode_encode_rr .rotn 0x47 0 3 (by decide) (by decide) (by decide)
    (fun x ho hf hb he => (decodeNat_of ho).trans (show decode47 x = _ by simp only [decode47, hf, hb, he, mbz, if_pos])) rfl

theorem permg (d a b : Reg) (ea eb : Bool) : Statement (.permg d a b ea eb) :=
  fun _ => decode_encode_rrr .permg 0x48 0 (by decide) (by decide)
    (fun x ho hf => (decodeNat_of ho).trans (show decode48 x = _ by simp only [decode48, hf])) rfl

theorem perms (d a b : Reg) (ea eb : Bool) : Statement (.perms d a b ea eb) :=
  fun _ => decode_encode_rrr .perms 0x48 1 (by decide) (by decide)
    (fun x ho hf => (decodeNat_of ho).trans (show decode48 x = _ by simp only [decode48, hf])) rfl

theorem topkd (d a b : Reg) (ea eb : Bool) : Statement (.topkd d a b ea eb) :=
  fun _ => decode_encode_rrr .topkd 0x49 0 (by decide) (by decide)
    (fun x ho hf => (decodeNat_of ho).trans (show decode49 x = _ by simp only [decode49, hf])) rfl

theorem topka (d a b : Reg) (ea eb : Bool) : Statement (.topka d a b ea eb) :=
  fun _ => decode_encode_rrr .topka 0x49 1 (by decide) (by decide)
    (fun x ho hf => (decodeNat_of ho).trans (show decode49 x = _ by simp only [decode49, hf])) rfl

theorem topkm (d a b : Reg) (ea eb : Bool) : Statement (.topkm d a b ea eb) :=
  fun _ => decode_encode_rrr .topkm 0x49 2 (by decide) (by decide)
    (fun x ho hf => (decodeNat_of ho).trans (show decode49 x = _ by simp only [decode49, hf])) rfl

theorem matchB (d a : Reg) (ea : Bool) : Statement (.matchB d a ea) :=
  fun _ => decode_encode_rr .matchB 0x4A 0 0 (by decide) (by decide) (by decide)
    (fun x ho hf hb he => (decodeNat_of ho).trans (show decode4A x = _ by simp only [decode4A, hf, hb, he, mbz, if_pos])) rfl

theorem match64 (d a : Reg) (ea : Bool) : Statement (.match64 d a ea) :=
  fun _ => decode_encode_rr .match64 0x4A 0 1 (by decide) (by decide) (by decide)
    (fun x ho hf hb he => (decodeNat_of ho).trans (show decode4A x = _ by simp only [decode4A, hf, hb, he, mbz, if_pos])) rfl

theorem rand (d : Reg) : Statement (.rand d) :=
  fun _ => decode_encode_r .rand 0x4B 0 (by decide) (by decide)
    (fun x ho hf hz => (decodeNat_of ho).trans (show decode4B x = _ by simp only [decode4B, hf, hz, mbz, if_pos])) rfl

theorem randf (d : Reg) : Statement (.randf d) :=
  fun _ => decode_encode_r .randf 0x4B 1 (by decide) (by decide)
    (fun x ho hf hz => (decodeNat_of ho).trans (show decode4B x = _ by simp only [decode4B, hf, hz, mbz, if_pos])) rfl

theorem electl (d : Reg) : Statement (.electl d) :=
  fun _ => decode_encode_r .electl 0x4C 0 (by decide) (by decide)
    (fun x ho hf hz => (decodeNat_of ho).trans (show decode4C x = _ by simp only [decode4C, hf, hz, mbz, if_pos])) rfl

theorem electh (d : Reg) : Statement (.electh d) :=
  fun _ => decode_encode_r .electh 0x4C 1 (by decide) (by decide)
    (fun x ho hf hz => (decodeNat_of ho).trans (show decode4C x = _ by simp only [decode4C, hf, hz, mbz, if_pos])) rfl

theorem ld (d a : Reg) (p : BitVec 4) (imm : BitVec 5) (w : Width) : Statement (.ld d a p imm w) :=
  fun _ => decode_encode_m .ld 0x50 (by decide)
    (fun x ho => (decodeNat_of ho).trans (show decode50 x = _ by simp only [decode50])) rfl

theorem st (d a : Reg) (p : BitVec 4) (imm : BitVec 5) (w : Width) : Statement (.st d a p imm w) :=
  fun _ => decode_encode_m .st 0x51 (by decide)
    (fun x ho => (decodeNat_of ho).trans (show decode51 x = _ by simp only [decode51])) rfl

theorem ldu (d a : Reg) (p : BitVec 4) (imm : BitVec 5) (w : Width) : Statement (.ldu d a p imm w) :=
  fun _ => decode_encode_m .ldu 0x52 (by decide)
    (fun x ho => (decodeNat_of ho).trans (show decode52 x = _ by simp only [decode52])) rfl

theorem lds (d a : Reg) (imm : BitVec 5) (w : Width) : Statement (.lds d a imm w) :=
  fun _ => decode_encode_ms .lds 0x53 (by decide)
    (fun x ho hp => (decodeNat_of ho).trans (show decode53 x = _ by simp only [decode53, hp, mbz, if_pos])) rfl

theorem sts (d a : Reg) (imm : BitVec 5) (w : Width) : Statement (.sts d a imm w) :=
  fun _ => decode_encode_ms .sts 0x54 (by decide)
    (fun x ho hp => (decodeNat_of ho).trans (show decode54 x = _ by simp only [decode54, hp, mbz, if_pos])) rfl

theorem atadd (d a b : Reg) (p : BitVec 3) (w : Bool) : Statement (.atadd d a b p w) :=
  fun _ => decode_encode_a .atadd 0x56 (by decide)
    (fun x ho => (decodeNat_of ho).trans (show decode56 x = _ by simp only [decode56])) rfl

theorem atfadd (d a b : Reg) (p : BitVec 3) : Statement (.atfadd d a b p) := by
  obtain ⟨hn, h0, h1, h2, h3, h4, h5⟩ := encA_fields (op := 0x57) (w := 0) (by decide) d.code_lt a.code_lt b.code_lt
    p.isLt (by decide)
  have hd : ∀ x, fOp x = 0x57 → fD x = d.code → fA x = a.code → fB x = b.code → fP3 x = p.toNat → f0 x = 0 →
      decodeNat x = .ok (.atfadd d a b p) := by
    clear h0 h1 h2 h3 h4 h5 hn
    intro x h0 h1 h2 h3 h4 h5
    rw [decodeNat_of h0]; show decode57 _ = _
    simp only [decode57, limit, h5, BEq.rfl, ↓reduceIte, rD, h1, Reg.ofCode_code, rA, h2, rB, h3, h4, BitVec.ofNat_toNat,
      BitVec.setWidth_eq]
  exact fun _ => decode_encode_by hn rfl (hd _ h0 h1 h2 h3 h4 h5)

theorem atmins (d a b : Reg) (p : BitVec 3) (w : Bool) : Statement (.atmins d a b p w) :=
  fun _ => decode_encode_a .atmins 0x58 (by decide)
    (fun x ho => (decodeNat_of ho).trans (show decode58 x = _ by simp only [decode58])) rfl

theorem atmaxs (d a b : Reg) (p : BitVec 3) (w : Bool) : Statement (.atmaxs d a b p w) :=
  fun _ => decode_encode_a .atmaxs 0x59 (by decide)
    (fun x ho => (decodeNat_of ho).trans (show decode59 x = _ by simp only [decode59])) rfl

theorem atminu (d a b : Reg) (p : BitVec 3) (w : Bool) : Statement (.atminu d a b p w) :=
  fun _ => decode_encode_a .atminu 0x5A (by decide)
    (fun x ho => (decodeNat_of ho).trans (show decode5A x = _ by simp only [decode5A])) rfl

theorem atmaxu (d a b : Reg) (p : BitVec 3) (w : Bool) : Statement (.atmaxu d a b p w) :=
  fun _ => decode_encode_a .atmaxu 0x5B (by decide)
    (fun x ho => (decodeNat_of ho).trans (show decode5B x = _ by simp only [decode5B])) rfl

theorem atand (d a b : Reg) (p : BitVec 3) (w : Bool) : Statement (.atand d a b p w) :=
  fun _ => decode_encode_a .atand 0x5C (by decide)
    (fun x ho => (decodeNat_of ho).trans (show decode5C x = _ by simp only [decode5C])) rfl

theorem ator (d a b : Reg) (p : BitVec 3) (w : Bool) : Statement (.ator d a b p w) :=
  fun _ => decode_encode_a .ator 0x5D (by decide)
    (fun x ho => (decodeNat_of ho).trans (show decode5D x = _ by simp only [decode5D])) rfl

theorem atxor (d a b : Reg) (p : BitVec 3) (w : Bool) : Statement (.atxor d a b p w) :=
  fun _ => decode_encode_a .atxor 0x5E (by decide)
    (fun x ho => (decodeNat_of ho).trans (show decode5E x = _ by simp only [decode5E])) rfl

theorem atxch (d a b : Reg) (p : BitVec 3) (w : Bool) : Statement (.atxch d a b p w) :=
  fun _ => decode_encode_a .atxch 0x5F (by decide)
    (fun x ho => (decodeNat_of ho).trans (show decode5F x = _ by simp only [decode5F])) rfl

theorem atcas (d a b : Reg) (p : BitVec 3) (w : Bool) : Statement (.atcas d a b p w) :=
  fun _ => decode_encode_a .atcas 0x60 (by decide)
    (fun x ho => (decodeNat_of ho).trans (show decode60 x = _ by simp only [decode60])) rfl

theorem fence (paths : BitVec 5) (kind : FenceKind) (scope : Scope) : Statement (.fence paths kind scope) := by
  have hp := paths.isLt
  have hv := kind.code_lt
  have hs := scope.code_lt
  have e0 : paths.toNat / 32 = 0 := by omega
  have e1 : paths.toNat % 32 = paths.toNat := by omega
  have e2 : (kind.code * 8 + scope.code) / 32 = 0 := by omega
  have e3 : (kind.code * 8 + scope.code) / 8 % 4 = kind.code := by omega
  have e4 : (kind.code * 8 + scope.code) % 8 = scope.code := by omega
  intro hwf
  have hz : paths.toNat ≠ 0 := fun h => by
    have hq : (paths != 0) = true := hwf
    rw [bne_iff_ne] at hq
    exact hq (BitVec.eq_of_toNat_eq h)
  exact decode_encode_x 0x62 paths.toNat (kind.code * 8 + scope.code) 0 0 (by decide) (by omega) (by omega) (by decide) (by decide)
    (fun x hx => (decodeNat_of hx.op).trans (show decode62 x = _ by
      simp only [decode62, hx.f, mbz, hx.d, e0, hx.a, e2, Nat.add_zero, hx.b, ↓reduceIte, limit, e1, bne_iff_ne, ne_eq, hz,
        not_false_eq_true, listed, e3, FenceKind.ofCode_code, e4, Scope.ofCode_code, BitVec.ofNat_toNat,
        BitVec.setWidth_eq])) rfl

theorem harr (h : Fin 24) : Statement (.harr h) :=
  fun _ => decode_encode_x 0x63 0 0 h.val 0 (by decide) (by decide) (by decide) (hinge_lt h) (by decide)
    (fun x hx => (decodeNat_of hx.op).trans (show decode63 x = _ by simp [decode63, hx.f, hx.d, hx.a, hx.b, mbz, listed])) rfl

theorem hwait (h : Fin 24) : Statement (.hwait h) :=
  fun _ => decode_encode_x 0x63 0 0 h.val 1 (by decide) (by decide) (by decide) (hinge_lt h) (by decide)
    (fun x hx => (decodeNat_of hx.op).trans (show decode63 x = _ by simp [decode63, hx.f, hx.d, hx.a, hx.b, mbz, listed])) rfl

theorem hsync (h : Fin 24) : Statement (.hsync h) :=
  fun _ => decode_encode_x 0x63 0 0 h.val 2 (by decide) (by decide) (by decide) (hinge_lt h) (by decide)
    (fun x hx => (decodeNat_of hx.op).trans (show decode63 x = _ by simp [decode63, hx.f, hx.d, hx.a, hx.b, mbz, listed])) rfl

theorem htest (d : Reg) (h : Fin 24) : Statement (.htest d h) :=
  fun _ => decode_encode_x 0x63 d.code 0 h.val 3 (by decide) d.code_lt (by decide) (hinge_lt h) (by decide)
    (fun x hx => (decodeNat_of hx.op).trans (show decode63 x = _ by simp [decode63, hx.f, hx.d, hx.a, hx.b, mbz, listed, rD])) rfl

theorem qbind (p : Fin 4) (a : Reg) : Statement (.qbind p a) :=
  fun _ => decode_encode_x 0x64 (portCode p) a.code 0 0 (by decide) (portCode_lt p) a.code_lt (by decide) (by decide)
    (fun x hx => (decodeNat_of hx.op).trans (show decode64 x = _ by simp [decode64, hx.f, hx.d, hx.a, hx.b, mbz, listed, rA])) rfl

theorem qunbind (p : Fin 4) : Statement (.qunbind p) :=
  fun _ => decode_encode_x 0x64 (portCode p) 0 0 1 (by decide) (portCode_lt p) (by decide) (by decide) (by decide)
    (fun x hx => (decodeNat_of hx.op).trans (show decode64 x = _ by simp [decode64, hx.f, hx.d, hx.a, hx.b, mbz, listed])) rfl

theorem qstat (d : Reg) (p : Fin 4) : Statement (.qstat d p) :=
  fun _ => decode_encode_x 0x64 d.code (portCode p) 0 2 (by decide) d.code_lt (portCode_lt p) (by decide) (by decide)
    (fun x hx => (decodeNat_of hx.op).trans (show decode64 x = _ by simp [decode64, hx.f, hx.d, hx.a, hx.b, mbz, listed, rD])) rfl

theorem qclose (p : Fin 4) : Statement (.qclose p) :=
  fun _ => decode_encode_x 0x64 (portCode p) 0 0 3 (by decide) (portCode_lt p) (by decide) (by decide) (by decide)
    (fun x hx => (decodeNat_of hx.op).trans (show decode64 x = _ by simp [decode64, hx.f, hx.d, hx.a, hx.b, mbz, listed])) rfl

theorem qclosee (p : Fin 4) (a : Reg) : Statement (.qclosee p a) :=
  fun _ => decode_encode_x 0x64 (portCode p) a.code 0 4 (by decide) (portCode_lt p) a.code_lt (by decide) (by decide)
    (fun x hx => (decodeNat_of hx.op).trans (show decode64 x = _ by simp [decode64, hx.f, hx.d, hx.a, hx.b, mbz, listed, rA])) rfl

theorem qpops (d : Reg) (p : Fin 4) (b : Reg) : Statement (.qpops d p b) :=
  fun _ => decode_encode_x 0x64 d.code (portCode p) b.code 5 (by decide) d.code_lt (portCode_lt p) b.code_lt (by decide)
    (fun x hx => (decodeNat_of hx.op).trans (show decode64 x = _ by simp [decode64, hx.f, hx.d, hx.a, hx.b, listed, rD, rB])) rfl

theorem qpushu (p : Fin 4) (a : Reg) : Statement (.qpushu p a) :=
  fun _ => decode_encode_x 0x64 (portCode p) a.code 0 6 (by decide) (portCode_lt p) a.code_lt (by decide) (by decide)
    (fun x hx => (decodeNat_of hx.op).trans (show decode64 x = _ by simp [decode64, hx.f, hx.d, hx.a, hx.b, mbz, listed, rA])) rfl

theorem spawn (d a : Reg) (p : Fin 4) : Statement (.spawn d a p) :=
  fun _ => decode_encode_x 0x65 d.code a.code (portCode p) 0 (by decide) d.code_lt a.code_lt (portCode_lt p) (by decide)
    (fun x hx => (decodeNat_of hx.op).trans (show decode65 x = _ by simp [decode65, hx.f, hx.d, hx.a, hx.b, listed, rD, rA])) rfl

theorem launch (d a : Reg) : Statement (.launch d a) :=
  fun _ => decode_encode_x 0x66 d.code a.code 0 0 (by decide) d.code_lt a.code_lt (by decide) (by decide)
    (fun x hx => (decodeNat_of hx.op).trans (show decode66 x = _ by simp [decode66, hx.f, hx.d, hx.a, hx.b, mbz, rD, rA])) rfl

theorem sigwr (op : SigOp) (scope : Scope) (a b : Reg) : Statement (.sigwr op scope a b) := by
  have hv := op.code_lt
  have hs := scope.code_lt
  have e0 : (op.code * 8 + scope.code) / 32 = 0 := by omega
  have e1 : (op.code * 8 + scope.code) / 8 % 4 = op.code := by omega
  have e2 : (op.code * 8 + scope.code) % 8 = scope.code := by omega
  exact fun _ => decode_encode_x 0x67 (op.code * 8 + scope.code) a.code b.code 0 (by decide) (by omega) a.code_lt b.code_lt (by decide)
    (fun x hx => (decodeNat_of hx.op).trans (show decode67 x = _ by simp [decode67, hx.f, hx.d, hx.a, hx.b, e0, e1, e2, mbz, listed, rA, rB])) rfl

theorem sigwt (cond : Cond) (scope : Scope) (a b : Reg) : Statement (.sigwt cond scope a b) := by
  have hv := cond.code_lt
  have hs := scope.code_lt
  have e0 : (cond.code * 8 + scope.code) / 32 = 0 := by omega
  have e1 : (cond.code * 8 + scope.code) / 8 % 4 = cond.code := by omega
  have e2 : (cond.code * 8 + scope.code) % 8 = scope.code := by omega
  exact fun _ => decode_encode_x 0x67 (cond.code * 8 + scope.code) a.code b.code 1 (by decide) (by omega) a.code_lt b.code_lt (by decide)
    (fun x hx => (decodeNat_of hx.op).trans (show decode67 x = _ by simp [decode67, hx.f, hx.d, hx.a, hx.b, e0, e1, e2, mbz, listed, rA, rB])) rfl

theorem sigrd (d a : Reg) (scope : Scope) : Statement (.sigrd d a scope) := by
  have hs := scope.code_lt
  have e0 : scope.code / 8 = 0 := by omega
  have e1 : scope.code % 8 = scope.code := by omega
  exact fun _ => decode_encode_x 0x67 d.code a.code scope.code 2 (by decide) d.code_lt a.code_lt (by omega) (by decide)
    (fun x hx => (decodeNat_of hx.op).trans (show decode67 x = _ by simp [decode67, hx.f, hx.d, hx.a, hx.b, e0, e1, mbz, listed, rD, rA])) rfl

theorem cpy1 (d a b : Reg) : Statement (.cpy1 d a b) :=
  fun _ => decode_encode_x 0x68 d.code a.code b.code 0 (by decide) d.code_lt a.code_lt b.code_lt (by decide)
    (fun x hx => (decodeNat_of hx.op).trans (show decode68 x = _ by simp [decode68, hx.f, hx.d, hx.a, hx.b, rD, rA, rB])) rfl

theorem cpy2 (d a b : Reg) : Statement (.cpy2 d a b) :=
  fun _ => decode_encode_x 0x68 d.code a.code b.code 1 (by decide) d.code_lt a.code_lt b.code_lt (by decide)
    (fun x hx => (decodeNat_of hx.op).trans (show decode68 x = _ by simp [decode68, hx.f, hx.d, hx.a, hx.b, rD, rA, rB])) rfl

theorem fill (d a b : Reg) : Statement (.fill d a b) :=
  fun _ => decode_encode_x 0x68 d.code a.code b.code 2 (by decide) d.code_lt a.code_lt b.code_lt (by decide)
    (fun x hx => (decodeNat_of hx.op).trans (show decode68 x = _ by simp [decode68, hx.f, hx.d, hx.a, hx.b, rD, rA, rB])) rfl

theorem gath (d a b : Reg) : Statement (.gath d a b) :=
  fun _ => decode_encode_x 0x68 d.code a.code b.code 3 (by decide) d.code_lt a.code_lt b.code_lt (by decide)
    (fun x hx => (decodeNat_of hx.op).trans (show decode68 x = _ by simp [decode68, hx.f, hx.d, hx.a, hx.b, rD, rA, rB])) rfl

theorem scat (d a b : Reg) : Statement (.scat d a b) :=
  fun _ => decode_encode_x 0x68 d.code a.code b.code 4 (by decide) d.code_lt a.code_lt b.code_lt (by decide)
    (fun x hx => (decodeNat_of hx.op).trans (show decode68 x = _ by simp [decode68, hx.f, hx.d, hx.a, hx.b, rD, rA, rB])) rfl

theorem ftest (d a : Reg) : Statement (.ftest d a) :=
  fun _ => decode_encode_x 0x69 d.code a.code 0 0 (by decide) d.code_lt a.code_lt (by decide) (by decide)
    (fun x hx => (decodeNat_of hx.op).trans (show decode69 x = _ by simp [decode69, hx.f, hx.d, hx.a, hx.b, mbz, rD, rA])) rfl

theorem fcancel (a : Reg) : Statement (.fcancel a) :=
  fun _ => decode_encode_x 0x69 0 a.code 0 1 (by decide) (by decide) a.code_lt (by decide) (by decide)
    (fun x hx => (decodeNat_of hx.op).trans (show decode69 x = _ by simp [decode69, hx.f, hx.d, hx.a, hx.b, mbz, rA])) rfl

theorem fwaith (a : Reg) : Statement (.fwaith a) :=
  fun _ => decode_encode_x 0x69 0 a.code 0 2 (by decide) (by decide) a.code_lt (by decide) (by decide)
    (fun x hx => (decodeNat_of hx.op).trans (show decode69 x = _ by simp [decode69, hx.f, hx.d, hx.a, hx.b, mbz, rA])) rfl

theorem fjoin (d a b : Reg) : Statement (.fjoin d a b) :=
  fun _ => decode_encode_x 0x69 d.code a.code b.code 3 (by decide) d.code_lt a.code_lt b.code_lt (by decide)
    (fun x hx => (decodeNat_of hx.op).trans (show decode69 x = _ by simp [decode69, hx.f, hx.d, hx.a, hx.b, rD, rA, rB])) rfl

theorem lput (d a b : Reg) : Statement (.lput d a b) :=
  fun _ => decode_encode_x 0x6A d.code a.code b.code 0 (by decide) d.code_lt a.code_lt b.code_lt (by decide)
    (fun x hx => (decodeNat_of hx.op).trans (show decode6A x = _ by simp [decode6A, hx.f, hx.d, hx.a, hx.b, rD, rA, rB])) rfl

theorem lget (d a b : Reg) : Statement (.lget d a b) :=
  fun _ => decode_encode_x 0x6A d.code a.code b.code 1 (by decide) d.code_lt a.code_lt b.code_lt (by decide)
    (fun x hx => (decodeNat_of hx.op).trans (show decode6A x = _ by simp [decode6A, hx.f, hx.d, hx.a, hx.b, rD, rA, rB])) rfl

theorem lradd (d a b : Reg) : Statement (.lradd d a b) :=
  fun _ => decode_encode_x 0x6A d.code a.code b.code 2 (by decide) d.code_lt a.code_lt b.code_lt (by decide)
    (fun x hx => (decodeNat_of hx.op).trans (show decode6A x = _ by simp [decode6A, hx.f, hx.d, hx.a, hx.b, rD, rA, rB])) rfl

theorem lsig (d a b : Reg) : Statement (.lsig d a b) :=
  fun _ => decode_encode_x 0x6A d.code a.code b.code 3 (by decide) d.code_lt a.code_lt b.code_lt (by decide)
    (fun x hx => (decodeNat_of hx.op).trans (show decode6A x = _ by simp [decode6A, hx.f, hx.d, hx.a, hx.b, rD, rA, rB])) rfl

theorem tex (d a b : Reg) : Statement (.tex d a b) :=
  fun _ => decode_encode_x 0x6B d.code a.code b.code 0 (by decide) d.code_lt a.code_lt b.code_lt (by decide)
    (fun x hx => (decodeNat_of hx.op).trans (show decode6B x = _ by simp [decode6B, hx.f, hx.d, hx.a, hx.b, rD, rA, rB])) rfl

theorem texl (d a b : Reg) : Statement (.texl d a b) :=
  fun _ => decode_encode_x 0x6B d.code a.code b.code 1 (by decide) d.code_lt a.code_lt b.code_lt (by decide)
    (fun x hx => (decodeNat_of hx.op).trans (show decode6B x = _ by simp [decode6B, hx.f, hx.d, hx.a, hx.b, rD, rA, rB])) rfl

theorem texf (d a b : Reg) : Statement (.texf d a b) :=
  fun _ => decode_encode_x 0x6B d.code a.code b.code 2 (by decide) d.code_lt a.code_lt b.code_lt (by decide)
    (fun x hx => (decodeNat_of hx.op).trans (show decode6B x = _ by simp [decode6B, hx.f, hx.d, hx.a, hx.b, rD, rA, rB])) rfl

theorem texg (d a b : Reg) : Statement (.texg d a b) :=
  fun _ => decode_encode_x 0x6B d.code a.code b.code 3 (by decide) d.code_lt a.code_lt b.code_lt (by decide)
    (fun x hx => (decodeNat_of hx.op).trans (show decode6B x = _ by simp [decode6B, hx.f, hx.d, hx.a, hx.b, rD, rA, rB])) rfl

theorem ipers (d a : Reg) : Statement (.ipers d a) :=
  fun _ => decode_encode_x 0x6C d.code a.code 0 0 (by decide) d.code_lt a.code_lt (by decide) (by decide)
    (fun x hx => (decodeNat_of hx.op).trans (show decode6C x = _ by simp [decode6C, hx.f, hx.d, hx.a, hx.b, mbz, rD, rA])) rfl

theorem iflat (d a : Reg) : Statement (.iflat d a) :=
  fun _ => decode_encode_x 0x6C d.code a.code 0 1 (by decide) d.code_lt a.code_lt (by decide) (by decide)
    (fun x hx => (decodeNat_of hx.op).trans (show decode6C x = _ by simp [decode6C, hx.f, hx.d, hx.a, hx.b, mbz, rD, rA])) rfl

theorem icent (d a : Reg) : Statement (.icent d a) :=
  fun _ => decode_encode_x 0x6C d.code a.code 0 2 (by decide) d.code_lt a.code_lt (by decide) (by decide)
    (fun x hx => (decodeNat_of hx.op).trans (show decode6C x = _ by simp [decode6C, hx.f, hx.d, hx.a, hx.b, mbz, rD, rA])) rfl

theorem emitc (a : Reg) : Statement (.emitc a) :=
  fun _ => decode_encode_x 0x6D 0 a.code 0 0 (by decide) (by decide) a.code_lt (by decide) (by decide)
    (fun x hx => (decodeNat_of hx.op).trans (show decode6D x = _ by simp [decode6D, hx.f, hx.d, hx.a, hx.b, mbz, rA])) rfl

theorem emitcz (a b : Reg) : Statement (.emitcz a b) :=
  fun _ => decode_encode_x 0x6D 0 a.code b.code 1 (by decide) (by decide) a.code_lt b.code_lt (by decide)
    (fun x hx => (decodeNat_of hx.op).trans (show decode6D x = _ by simp [decode6D, hx.f, hx.d, hx.a, hx.b, mbz, rA, rB])) rfl

theorem emitv (d a b : Reg) : Statement (.emitv d a b) :=
  fun _ => decode_encode_x 0x6E d.code a.code b.code 0 (by decide) d.code_lt a.code_lt b.code_lt (by decide)
    (fun x hx => (decodeNat_of hx.op).trans (show decode6E x = _ by simp [decode6E, hx.f, hx.d, hx.a, hx.b, rD, rA, rB])) rfl

theorem srate (d a : Reg) : Statement (.srate d a) :=
  fun _ => decode_encode_x 0x6F d.code a.code 0 0 (by decide) d.code_lt a.code_lt (by decide) (by decide)
    (fun x hx => (decodeNat_of hx.op).trans (show decode6F x = _ by simp [decode6F, hx.f, hx.d, hx.a, hx.b, mbz, rD, rA])) rfl

theorem mma (d : Reg) (acc qa qb sa sb : BitVec 3) (z sp f : Bool) : Statement (.mma d acc qa qb sa sb z sp f) := by
  have h0 := d.code_lt
  have h1 := acc.isLt
  have h2 := qa.isLt
  have h3 := qb.isLt
  have h4 := sa.isLt
  have h5 := sb.isLt
  have h6 := toNat_lt_two z
  have h7 := toNat_lt_two sp
  have h8 := toNat_lt_two f
  obtain ⟨x, hx⟩ : ∃ x, x = encT 0x70 d.code acc.toNat qa.toNat qb.toNat sa.toNat sb.toNat
      (z.toNat * 4 + sp.toNat * 2 + f.toNat) := ⟨_, rfl⟩
  have hx' := hx
  simp only [encT] at hx'
  have hn : encT 0x70 d.code acc.toNat qa.toNat qb.toNat sa.toNat sb.toNat (z.toNat * 4 + sp.toNat * 2 + f.toNat) < 2 ^ 32 := by
    rw [← hx]; omega
  refine fun _ => decode_encode_by hn rfl ?_
  have e0 : fOp x = 0x70 := by simp only [fOp]; omega
  have e1 : fD x = d.code := by simp only [fD]; omega
  have e2 : x / 2 ^ 15 % 8 = acc.toNat := by omega
  have e3 : x / 2 ^ 12 % 8 = qa.toNat := by omega
  have e4 : x / 2 ^ 9 % 8 = qb.toNat := by omega
  have e5 : x / 2 ^ 6 % 8 = sa.toNat := by omega
  have e6 : x / 2 ^ 3 % 8 = sb.toNat := by omega
  have e7 : x / 4 % 2 = z.toNat := by omega
  have e8 : x / 2 % 2 = sp.toNat := by omega
  have e9 : x % 2 = f.toNat := by omega
  rw [← hx, decodeNat_of e0]; show decode70 _ = _
  simp only [decode70, rD, e1, e2, e3, e4, e5, e6, e7, e8, e9, Reg.ofCode_code, flag_toNat,
    BitVec.ofNat_toNat, BitVec.setWidth_eq]

theorem acz (d : Reg) (tile : BitVec 2) : Statement (.acz d tile) := by
  have ht := tile.isLt
  have e0 : tile.toNat / 4 = 0 := by omega
  have e1 : tile.toNat % 4 = tile.toNat := by omega
  exact fun _ => decode_encode_x 0x71 d.code 0 tile.toNat 0 (by decide) d.code_lt (by decide) (by omega) (by decide)
    (fun x hx => (decodeNat_of hx.op).trans (show decode71 x = _ by simp [decode71, hx.f, hx.d, hx.a, hx.b, e0, e1, mbz, rD])) rfl

theorem acld (d a : Reg) (slot : BitVec 3) (tile : BitVec 2) : Statement (.acld d a slot tile) := by
  have ht := tile.isLt
  have hs := slot.isLt
  have e0 : (slot.toNat * 4 + tile.toNat) / 32 = 0 := by omega
  have e1 : (slot.toNat * 4 + tile.toNat) / 4 % 8 = slot.toNat := by omega
  have e2 : (slot.toNat * 4 + tile.toNat) % 4 = tile.toNat := by omega
  exact fun _ => decode_encode_x 0x71 d.code a.code (slot.toNat * 4 + tile.toNat) 1 (by decide) d.code_lt a.code_lt (by omega) (by decide)
    (fun x hx => (decodeNat_of hx.op).trans (show decode71 x = _ by simp [decode71, hx.f, hx.d, hx.a, hx.b, e0, e1, e2, mbz, rD, rA])) rfl

theorem acst (d a : Reg) (slot : BitVec 3) (tile : BitVec 2) : Statement (.acst d a slot tile) := by
  have ht := tile.isLt
  have hs := slot.isLt
  have e0 : (slot.toNat * 4 + tile.toNat) / 32 = 0 := by omega
  have e1 : (slot.toNat * 4 + tile.toNat) / 4 % 8 = slot.toNat := by omega
  have e2 : (slot.toNat * 4 + tile.toNat) % 4 = tile.toNat := by omega
  exact fun _ => decode_encode_x 0x71 d.code a.code (slot.toNat * 4 + tile.toNat) 2 (by decide) d.code_lt a.code_lt (by omega) (by decide)
    (fun x hx => (decodeNat_of hx.op).trans (show decode71 x = _ by simp [decode71, hx.f, hx.d, hx.a, hx.b, e0, e1, e2, mbz, rD, rA])) rfl

theorem acstr (d a : Reg) (tile : BitVec 2) : Statement (.acstr d a tile) := by
  have ht := tile.isLt
  have e0 : tile.toNat / 4 = 0 := by omega
  have e1 : tile.toNat % 4 = tile.toNat := by omega
  exact fun _ => decode_encode_x 0x71 d.code a.code tile.toNat 3 (by decide) d.code_lt a.code_lt (by omega) (by decide)
    (fun x hx => (decodeNat_of hx.op).trans (show decode71 x = _ by simp [decode71, hx.f, hx.d, hx.a, hx.b, e0, e1, mbz, rD, rA])) rfl

theorem acldr (d a : Reg) (tile : BitVec 2) : Statement (.acldr d a tile) := by
  have ht := tile.isLt
  have e0 : tile.toNat / 4 = 0 := by omega
  have e1 : tile.toNat % 4 = tile.toNat := by omega
  exact fun _ => decode_encode_x 0x71 d.code a.code tile.toNat 4 (by decide) d.code_lt a.code_lt (by omega) (by decide)
    (fun x hx => (decodeNat_of hx.op).trans (show decode71 x = _ by simp [decode71, hx.f, hx.d, hx.a, hx.b, e0, e1, mbz, rD, rA])) rfl

theorem acfold (d : Reg) (tile : BitVec 2) : Statement (.acfold d tile) := by
  have ht := tile.isLt
  have e0 : tile.toNat / 4 = 0 := by omega
  have e1 : tile.toNat % 4 = tile.toNat := by omega
  exact fun _ => decode_encode_x 0x71 d.code 0 tile.toNat 5 (by decide) d.code_lt (by decide) (by omega) (by decide)
    (fun x hx => (decodeNat_of hx.op).trans (show decode71 x = _ by simp [decode71, hx.f, hx.d, hx.a, hx.b, e0, e1, mbz, rD])) rfl

theorem mquant (d a b : Reg) : Statement (.mquant d a b) :=
  fun _ => decode_encode_x 0x72 d.code a.code b.code 0 (by decide) d.code_lt a.code_lt b.code_lt (by decide)
    (fun x hx => (decodeNat_of hx.op).trans (show decode72 x = _ by simp [decode72, hx.f, hx.d, hx.a, hx.b, rD, rA, rB])) rfl

theorem mdeq (d a b : Reg) : Statement (.mdeq d a b) :=
  fun _ => decode_encode_x 0x72 d.code a.code b.code 1 (by decide) d.code_lt a.code_lt b.code_lt (by decide)
    (fun x hx => (decodeNat_of hx.op).trans (show decode72 x = _ by simp [decode72, hx.f, hx.d, hx.a, hx.b, rD, rA, rB])) rfl

theorem mpin (d a b : Reg) : Statement (.mpin d a b) :=
  fun _ => decode_encode_x 0x73 d.code a.code b.code 0 (by decide) d.code_lt a.code_lt b.code_lt (by decide)
    (fun x hx => (decodeNat_of hx.op).trans (show decode73 x = _ by simp [decode73, hx.f, hx.d, hx.a, hx.b, rD, rA, rB])) rfl

theorem munpin (a b : Reg) : Statement (.munpin a b) :=
  fun _ => decode_encode_x 0x73 0 a.code b.code 1 (by decide) (by decide) a.code_lt b.code_lt (by decide)
    (fun x hx => (decodeNat_of hx.op).trans (show decode73 x = _ by simp [decode73, hx.f, hx.d, hx.a, hx.b, mbz, rA, rB])) rfl

theorem sread (d : Reg) (sr : BitVec 7) (pr : Bool) : Statement (.sread d sr pr) := by
  have hs := sr.isLt
  have hp := toNat_lt_two pr
  have e0 : pr.toNat / 2 = 0 := by omega
  have e1 : pr.toNat % 2 = pr.toNat := by omega
  exact fun _ => decode_encode_x 0x78 d.code sr.toNat pr.toNat 0 (by decide) d.code_lt (by omega) (by omega) (by decide)
    (fun x hx => (decodeNat_of hx.op).trans (show decode78 x = _ by simp [decode78, hx.f, hx.d, hx.a, hx.b, e0, e1, mbz, rD])) rfl

theorem swrite (sr : BitVec 7) (b : Reg) : Statement (.swrite sr b) := by
  have hs := sr.isLt
  exact fun _ => decode_encode_x 0x79 0 sr.toNat b.code 0 (by decide) (by decide) (by omega) b.code_lt (by decide)
    (fun x hx => (decodeNat_of hx.op).trans (show decode79 x = _ by simp [decode79, hx.f, hx.d, hx.a, hx.b, mbz, rB])) rfl

theorem win (a : Reg) (n : BitVec 5) (ea : Bool) : Statement (.win a n ea) := by
  have h5 := n.isLt
  obtain ⟨hn, hx⟩ := encI_fields (op := 0x7A) (d := 0) (imm := n.toNat) (by decide) (by decide) a.code_lt (by omega)
    (toNat_lt_two ea)
  have h1 : n.toNat / 32 = 0 := by omega
  have h2 : n.toNat % 32 = n.toNat := by omega
  exact fun _ => decode_encode_by hn rfl (by
    rw [decodeNat_of hx.op]; show decode7A _ = _
    simp [decode7A, hx.d, hx.a, hx.imm, hx.ea, h1, h2, mbz, rA])

theorem slotq (d a : Reg) (sel : SlotSel) : Statement (.slotq d a sel) := by
  have hs := sel.code_lt
  have e0 : sel.code / 8 = 0 := by omega
  have e1 : sel.code % 8 = sel.code := by omega
  exact fun _ => decode_encode_x 0x7B d.code a.code sel.code 0 (by decide) d.code_lt a.code_lt (by omega) (by decide)
    (fun x hx => (decodeNat_of hx.op).trans (show decode7B x = _ by simp [decode7B, hx.f, hx.d, hx.a, hx.b, e0, e1, mbz, listed, rD, rA])) rfl

theorem nop : Statement .nop :=
  fun _ => decode_encode_j 0x01 0 (by decide) (by decide)
    (fun x ho hz => (decodeNat_of ho).trans (show decode01 x = _ by simp only [decode01, hz, mbz, if_pos])) rfl

theorem ret : Statement .ret :=
  fun _ => decode_encode_none 0x06 2 (by decide) (by decide)
    (fun x ho hf hz => (decodeNat_of ho).trans (show decode06 x = _ by simp only [decode06, hf, hz, mbz, if_pos])) rfl

theorem join : Statement .join :=
  fun _ => decode_encode_j 0x08 0 (by decide) (by decide)
    (fun x ho hz => (decodeNat_of ho).trans (show decode08 x = _ by simp only [decode08, hz, mbz, if_pos])) rfl

theorem exit : Statement .exit :=
  fun _ => decode_encode_none 0x0A 0 (by decide) (by decide)
    (fun x ho hf hz => (decodeNat_of ho).trans (show decode0A x = _ by simp only [decode0A, hf, hz, mbz, if_pos])) rfl

theorem exits : Statement .exits :=
  fun _ => decode_encode_none 0x0A 1 (by decide) (by decide)
    (fun x ho hf hz => (decodeNat_of ho).trans (show decode0A x = _ by simp only [decode0A, hf, hz, mbz, if_pos])) rfl

theorem waitld : Statement .waitld :=
  fun _ => decode_encode_none 0x0B 1 (by decide) (by decide)
    (fun x ho hf hz => (decodeNat_of ho).trans (show decode0B x = _ by simp only [decode0B, hf, hz, mbz, if_pos])) rfl

theorem waitsfu : Statement .waitsfu :=
  fun _ => decode_encode_none 0x0B 2 (by decide) (by decide)
    (fun x ho hf hz => (decodeNat_of ho).trans (show decode0B x = _ by simp only [decode0B, hf, hz, mbz, if_pos])) rfl

theorem waitall : Statement .waitall :=
  fun _ => decode_encode_none 0x0B 3 (by decide) (by decide)
    (fun x ho hf hz => (decodeNat_of ho).trans (show decode0B x = _ by simp only [decode0B, hf, hz, mbz, if_pos])) rfl

theorem yield : Statement .yield :=
  fun _ => decode_encode_j 0x0C 0 (by decide) (by decide)
    (fun x ho hz => (decodeNat_of ho).trans (show decode0C x = _ by simp only [decode0C, hz, mbz, if_pos])) rfl

theorem sleeptWake : Statement .sleeptWake := fun _ _ h => nomatch h
theorem sleepwRecheck : Statement .sleepwRecheck := fun _ _ h => nomatch h
theorem sfuResultArrival : Statement .sfuResultArrival := fun _ _ h => nomatch h
theorem loadArrival : Statement .loadArrival := fun _ _ h => nomatch h
theorem storePerform : Statement .storePerform := fun _ _ h => nomatch h
theorem cacheLineFill : Statement .cacheLineFill := fun _ _ h => nomatch h
theorem atomicPerform : Statement .atomicPerform := fun _ _ h => nomatch h
theorem atomicReturn : Statement .atomicReturn := fun _ _ h => nomatch h
theorem hingeDeadlock : Statement .hingeDeadlock := fun _ _ h => nomatch h
theorem spawnReservation : Statement .spawnReservation := fun _ _ h => nomatch h
theorem popArrival : Statement .popArrival := fun _ _ h => nomatch h
theorem spillMove : Statement .spillMove := fun _ _ h => nomatch h
theorem sigwtRecheck : Statement .sigwtRecheck := fun _ _ h => nomatch h
theorem copyUnitStart : Statement .copyUnitStart := fun _ _ h => nomatch h
theorem copyUnitDone : Statement .copyUnitDone := fun _ _ h => nomatch h
theorem cancelReach : Statement .cancelReach := fun _ _ h => nomatch h
theorem futureDone : Statement .futureDone := fun _ _ h => nomatch h
theorem futureFail : Statement .futureFail := fun _ _ h => nomatch h
theorem flitReceive : Statement .flitReceive := fun _ _ h => nomatch h
theorem flitAck : Statement .flitAck := fun _ _ h => nomatch h
theorem fenceTokenArrive : Statement .fenceTokenArrive := fun _ _ h => nomatch h
theorem texelArrival : Statement .texelArrival := fun _ _ h => nomatch h
theorem discard : Statement .discard :=
  fun _ => decode_encode_x 0x6D 0 0 0 2 (by decide) (by decide) (by decide) (by decide) (by decide)
    (fun x hx => (decodeNat_of hx.op).trans (show decode6D x = _ by simp [decode6D, hx.f, hx.d, hx.a, hx.b, mbz])) rfl

theorem binnerAnswer : Statement .binnerAnswer := fun _ _ h => nomatch h
theorem matrixEntryStart : Statement .matrixEntryStart := fun _ _ h => nomatch h
theorem matrixEntryEnd : Statement .matrixEntryEnd := fun _ _ h => nomatch h
theorem mmaSpanStop : Statement .mmaSpanStop := fun _ _ h => nomatch h
theorem captureEnd : Statement .captureEnd := fun _ _ h => nomatch h
theorem shSave : Statement .shSave := fun _ _ h => nomatch h
theorem shLoad : Statement .shLoad := fun _ _ h => nomatch h
theorem shPark : Statement .shPark := fun _ _ h => nomatch h
theorem braidSaved : Statement .braidSaved := fun _ _ h => nomatch h
theorem rtt : Statement .rtt :=
  fun _ => decode_encode_j 0x7C 0 (by decide) (by decide)
    (fun x ho hz => (decodeNat_of ho).trans (show decode7C x = _ by simp only [decode7C, hz, mbz, if_pos])) rfl

theorem trapEntry : Statement .trapEntry := fun _ _ h => nomatch h
theorem dbgKill : Statement .dbgKill := fun _ _ h => nomatch h
theorem dbgResume : Statement .dbgResume := fun _ _ h => nomatch h
theorem walkStart : Statement .walkStart := fun _ _ h => nomatch h
theorem walkDone : Statement .walkDone := fun _ _ h => nomatch h
theorem missRespRetry : Statement .missRespRetry := fun _ _ h => nomatch h
theorem missRespFault : Statement .missRespFault := fun _ _ h => nomatch h
theorem invRange : Statement .invRange := fun _ _ h => nomatch h
theorem invContext : Statement .invContext := fun _ _ h => nomatch h
theorem invAll : Statement .invAll := fun _ _ h => nomatch h
theorem invDone : Statement .invDone := fun _ _ h => nomatch h
theorem zeroStart : Statement .zeroStart := fun _ _ h => nomatch h
theorem zeroDone : Statement .zeroDone := fun _ _ h => nomatch h
theorem vaultMapWrite : Statement .vaultMapWrite := fun _ _ h => nomatch h
theorem cacheUnitsWrite : Statement .cacheUnitsWrite := fun _ _ h => nomatch h
theorem cacheResizeDone : Statement .cacheResizeDone := fun _ _ h => nomatch h
theorem keyringLoad : Statement .keyringLoad := fun _ _ h => nomatch h
theorem evrHeadWrite : Statement .evrHeadWrite := fun _ _ h => nomatch h
theorem registerWrite : Statement .registerWrite := fun _ _ h => nomatch h
theorem doorbell : Statement .doorbell := fun _ _ h => nomatch h
theorem cqEnSet : Statement .cqEnSet := fun _ _ h => nomatch h
theorem cqEnClear : Statement .cqEnClear := fun _ _ h => nomatch h
theorem launchPacket : Statement .launchPacket := fun _ _ h => nomatch h
theorem feed : Statement .feed := fun _ _ h => nomatch h
theorem feedAppend : Statement .feedAppend := fun _ _ h => nomatch h
theorem signalWrite : Statement .signalWrite := fun _ _ h => nomatch h
theorem signalWait : Statement .signalWait := fun _ _ h => nomatch h
theorem signalWaitSatisfied : Statement .signalWaitSatisfied := fun _ _ h => nomatch h
theorem seedPush : Statement .seedPush := fun _ _ h => nomatch h
theorem seedPop : Statement .seedPop := fun _ _ h => nomatch h
theorem seedFork : Statement .seedFork := fun _ _ h => nomatch h
theorem streamSet : Statement .streamSet := fun _ _ h => nomatch h
theorem streamStop : Statement .streamStop := fun _ _ h => nomatch h
theorem frameSubmit : Statement .frameSubmit := fun _ _ h => nomatch h
theorem frameSubmitAccept : Statement .frameSubmitAccept := fun _ _ h => nomatch h
theorem queueOpen : Statement .queueOpen := fun _ _ h => nomatch h
theorem queueReset : Statement .queueReset := fun _ _ h => nomatch h
theorem queueFree : Statement .queueFree := fun _ _ h => nomatch h
theorem queueResume : Statement .queueResume := fun _ _ h => nomatch h
theorem fenceSys : Statement .fenceSys := fun _ _ h => nomatch h
theorem contextCreate : Statement .contextCreate := fun _ _ h => nomatch h
theorem contextModify : Statement .contextModify := fun _ _ h => nomatch h
theorem contextDestroy : Statement .contextDestroy := fun _ _ h => nomatch h
theorem contextDrained : Statement .contextDrained := fun _ _ h => nomatch h
theorem contextZeroed : Statement .contextZeroed := fun _ _ h => nomatch h
theorem braidPlace : Statement .braidPlace := fun _ _ h => nomatch h
theorem braidRestore : Statement .braidRestore := fun _ _ h => nomatch h
theorem swapOut : Statement .swapOut := fun _ _ h => nomatch h
theorem deterministicRelease : Statement .deterministicRelease := fun _ _ h => nomatch h
theorem kernelEnd : Statement .kernelEnd := fun _ _ h => nomatch h
theorem chainClear : Statement .chainClear := fun _ _ h => nomatch h
theorem chainStart : Statement .chainStart := fun _ _ h => nomatch h
theorem replayLaunch : Statement .replayLaunch := fun _ _ h => nomatch h
theorem quadForm : Statement .quadForm := fun _ _ h => nomatch h
theorem rateCheckpoint : Statement .rateCheckpoint := fun _ _ h => nomatch h
theorem blendRetire : Statement .blendRetire := fun _ _ h => nomatch h
theorem chainCutoff : Statement .chainCutoff := fun _ _ h => nomatch h
theorem cutoffRetire : Statement .cutoffRetire := fun _ _ h => nomatch h
theorem stripRead : Statement .stripRead := fun _ _ h => nomatch h
theorem dpLineSend : Statement .dpLineSend := fun _ _ h => nomatch h
theorem encodeStrip : Statement .encodeStrip := fun _ _ h => nomatch h
theorem loopbackCapture : Statement .loopbackCapture := fun _ _ h => nomatch h
theorem ptpSync : Statement .ptpSync := fun _ _ h => nomatch h
theorem ptpSyncTimeout : Statement .ptpSyncTimeout := fun _ _ h => nomatch h
theorem tbEnSet : Statement .tbEnSet := fun _ _ h => nomatch h
theorem tbEnClear : Statement .tbEnClear := fun _ _ h => nomatch h
theorem tbSet : Statement .tbSet := fun _ _ h => nomatch h
theorem slotDrainWindow : Statement .slotDrainWindow := fun _ _ h => nomatch h
theorem refreshSlotStart : Statement .refreshSlotStart := fun _ _ h => nomatch h
theorem calibrationSlotStart : Statement .calibrationSlotStart := fun _ _ h => nomatch h
theorem retrainSlotStart : Statement .retrainSlotStart := fun _ _ h => nomatch h
theorem sweepSlot : Statement .sweepSlot := fun _ _ h => nomatch h
theorem slotEnd : Statement .slotEnd := fun _ _ h => nomatch h
theorem slotStretchEnd : Statement .slotStretchEnd := fun _ _ h => nomatch h
theorem droopDetect : Statement .droopDetect := fun _ _ h => nomatch h
theorem droopStep : Statement .droopStep := fun _ _ h => nomatch h
theorem droopStepRemove : Statement .droopStepRemove := fun _ _ h => nomatch h
theorem thermalShutdown : Statement .thermalShutdown := fun _ _ h => nomatch h
theorem boot : Statement .boot := fun _ _ h => nomatch h
theorem heartbeat : Statement .heartbeat := fun _ _ h => nomatch h
theorem watchdogTimeout : Statement .watchdogTimeout := fun _ _ h => nomatch h
theorem recoveryEnd : Statement .recoveryEnd := fun _ _ h => nomatch h
theorem kpRead : Statement .kpRead := fun _ _ h => nomatch h
theorem kpAttest : Statement .kpAttest := fun _ _ h => nomatch h
theorem keeperCmdDone : Statement .keeperCmdDone := fun _ _ h => nomatch h
theorem linkEnSet : Statement .linkEnSet := fun _ _ h => nomatch h
theorem linkEnClear : Statement .linkEnClear := fun _ _ h => nomatch h
theorem linkTrained : Statement .linkTrained := fun _ _ h => nomatch h
theorem linkTrainFail : Statement .linkTrainFail := fun _ _ h => nomatch h
theorem linkRetrainPending : Statement .linkRetrainPending := fun _ _ h => nomatch h
theorem launchAcceptance : Statement .launchAcceptance := fun _ _ h => nomatch h
theorem hostMemoryAccess : Statement .hostMemoryAccess := fun _ _ h => nomatch h
theorem ptpAnnounce : Statement .ptpAnnounce := fun _ _ h => nomatch h
theorem firmwareReplacement : Statement .firmwareReplacement := fun _ _ h => nomatch h
theorem mgmtAttestRequest : Statement .mgmtAttestRequest := fun _ _ h => nomatch h

end Sys2Proof.Laws.RoundTrip
end

