-- ==== Sys2Proof/Laws/Run.lean ====
section
/-!
SUPPORT. Laws of the run of an instruction over its beads: what a form that only works on registers does, said once.
-/

set_option Elab.async false

namespace Sys2Proof.Machine
open Sys2Proof

/-! ### Reading -/

/-- Acquiring only adds knowledge. -/
theorem acquireRegs_know (i : Issue) (j : Nat) (rs : List Reg) :
    ∃ kn, acquireRegs i j rs = { i with st := { i.st with know := kn } } := by
  unfold acquireRegs
  induction rs generalizing i with
  | nil => exact ⟨i.st.know, rfl⟩
  | cons r t ih =>
    rw [List.foldl_cons]
    split
    · obtain ⟨kn, h⟩ := ih { i with st := acquire i.st (handlePub i.s (readReg i.st j r)) }
      exact ⟨kn, h⟩
    · exact ih i

theorem readReg_know (st : Strand) (kn : List Known) (j : Nat) (r : Reg) :
    readReg { st with know := kn } j r = readReg st j r := by cases r <;> rfl

theorem fillOf_know (st : Strand) (kn : List Known) (j : Nat) (r : Reg) :
    fillOf { st with know := kn } j r = fillOf st j r := by cases r <;> rfl

theorem valsOf_know (st : Strand) (kn : List Known) (j : Nat) : ∀ (rs : List Reg) (n : Nat),
    valsOf { st with know := kn } j n rs = valsOf st j n rs := by
  intro rs
  induction rs with
  | nil => intro _; rfl
  | cons r t ih => intro n; cases r <;> simp [valsOf, ih, readReg_know]

/-- The sources of a bead whose pops are answered are read as `valsOf` says. -/
theorem readAll_eq (j : Nat) : ∀ (srcs : List Src) (n : Nat) (i : Issue) (k : List Word → Issue → BeadOut),
    (∀ m < ((srcs.map (·.reg)).filter isPort).length, ∃ bs c, i.st.popped[n + m]? = some (some bs, c)) →
    ∃ kn, readAll j srcs n i k = k (valsOf i.st j n (srcs.map (·.reg))) { i with st := { i.st with know := kn } } := by
  intro srcs
  induction srcs with
  | nil => intro n i k _; exact ⟨i.st.know, rfl⟩
  | cons x t ih =>
    intro n i k h
    obtain ⟨r, e, fld⟩ := x
    have plain : ∀ r : Reg, isPort r = false →
        (∀ m < (((⟨r, e, fld⟩ : Src) :: t).map (·.reg) |>.filter isPort).length,
          ∃ bs c, i.st.popped[n + m]? = some (some bs, c)) →
        ∃ kn, readAll j t n (acquireRegs i j [r]) (fun vs i => k (readReg i.st j r :: vs) i) =
          k (readReg i.st j r :: valsOf i.st j n (t.map (·.reg))) { i with st := { i.st with know := kn } } := by
      intro r hr h
      obtain ⟨kn, hk⟩ := acquireRegs_know i j [r]
      rw [hk]
      obtain ⟨kn', hk'⟩ := ih n { i with st := { i.st with know := kn } } (fun vs i => k (readReg i.st j r :: vs) i)
        (by intro m hm; exact h m (by simpa [hr] using hm))
      refine ⟨kn', ?_⟩
      rw [hk']
      simp only [readReg_know, valsOf_know]
    cases r with
    | q p =>
      obtain ⟨bs, c, hp⟩ := h 0 (by simp [isPort])
      obtain ⟨kn, hk⟩ := ih (n + 1) i (fun vs i => k (wordOfElement bs 0 :: vs) i)
        (by intro m hm; have := h (m + 1) (by rw [List.map_cons, List.filter_cons_of_pos (by rfl)]; simpa using hm); rwa [show n + 1 + m = n + (m + 1) by omega])
      refine ⟨kn, ?_⟩
      simp only [readAll, popReg, popAt, Nat.add_zero] at hp ⊢
      rw [hp]
      simp only [List.map_cons, valsOf, hp, hk]
    | bead m => exact plain (.bead m) rfl h
    | uni m => exact plain (.uni m) rfl h
    | zr => exact plain .zr rfl h
    | bx => exact plain .bx rfl h
    | sx => exact plain .sx rfl h
    | lc => exact plain .lc rfl h

/-! ### Writing -/

/-- Results for registers that are no q-ports are written in order. -/
theorem writeAll_eq (j : Nat) : ∀ (ds : List Reg) (vs : List Word) (i : Issue), (∀ d ∈ ds, isPort d = false) →
    writeAll j ds vs i = .ok { i with st := writeRegs j ds vs i.st } := by
  intro ds
  induction ds with
  | nil => intros; rfl
  | cons d ds ih =>
    intro vs i h
    cases vs with
    | nil => rfl
    | cons v vs =>
      have hd : isPort d = false := h d (by simp)
      have : writeDst j d v i = .ok { i with st := writeReg i.st j d v } := by
        cases d <;> first | rfl | simp [isPort] at hd
      simp only [writeAll, this, BeadOut.andThen, writeRegs]
      exact ih _ _ fun e he => h e (by simp [he])

/-- Registers that are all full let an instruction go on. -/
theorem readyOr_full {i : Issue} {j : Nat} {srcs : List Src} {dsts : List Reg} {k : BeadOut}
    (h : ∀ r ∈ srcs.map (·.reg) ++ dsts, (fillOf i.st j r).isFull = true) : readyOr i j srcs dsts k = k := by
  have h1 : firstEmpty i.st j srcs = none := by
    simp only [firstEmpty, List.find?_eq_none]
    intro x hx
    have hx : x ∈ srcs := by
      rcases List.mem_append.1 hx with hx | hx <;> exact (List.mem_filter.1 hx).1
    simp [h x.reg (by simp; exact .inl ⟨x, hx, rfl⟩)]
  have h2 : dsts.find? (fun r => !(fillOf i.st j r).isFull) = none := by
    simp only [List.find?_eq_none]
    intro x hx
    simp [h x (by simp [hx])]
  simp [readyOr, h1, h2]

/-- A bead whose pops are answered, and which pushes nothing, makes no request of a queue. -/
theorem withPorts_answered {i : Issue} {srcs : List Src} {dsts : List Reg} {k : Issue → BeadOut}
    (hp : ∀ m < ((srcs.map (·.reg)).filter isPort).length, ∃ bs c, i.st.popped[m]? = some (some bs, c)) :
    withPorts i srcs dsts k = k i := by
  have hl : ((srcs.map (·.reg)).filter isPort).length ≤ i.st.popped.length := by
    apply Nat.le_of_not_lt
    intro h
    obtain ⟨bs, c, e⟩ := hp i.st.popped.length h
    simp at e
  have hq : (popQueues i.st srcs).length = ((srcs.map (·.reg)).filter isPort).length := by
    clear hp hl
    induction srcs with
    | nil => rfl
    | cons x t ih =>
      obtain ⟨r, e, fld⟩ := x
      unfold popQueues at *
      cases r <;> simp_all [isPort, List.filter_cons]
  unfold withPorts
  simp only [hq, hl, true_or, if_true]

/-- One bead's part of a form that works on registers. -/
theorem beadOp_eq {srcs : List Src} {dsts : List Reg} {f : List Word → List Word} {j : Nat} {i : Issue}
    (hf : ∀ r ∈ srcs.map (·.reg) ++ dsts, (fillOf i.st j r).isFull = true) (hd : ∀ d ∈ dsts, isPort d = false)
    (hp : ∀ m < ((srcs.map (·.reg)).filter isPort).length, ∃ bs c, i.st.popped[m]? = some (some bs, c)) :
    ∃ kn, beadOp srcs dsts f j i = .ok { i with
      st := writeRegs j dsts (f (valsOf i.st j 0 (srcs.map (·.reg)))) { i.st with know := kn } } := by
  obtain ⟨kn, h⟩ := readAll_eq j srcs 0 i (fun vs i => writeAll j dsts (f vs) i) (by simpa using hp)
  refine ⟨kn, ?_⟩
  rw [beadOp, readyOr_full hf, withPorts_answered hp, h, writeAll_eq j _ _ _ hd]

theorem writeReg_pc (st : Strand) (j : Nat) (r : Reg) (v : Word) : (writeReg st j r v).pc = st.pc := by
  unfold writeReg; split
  · next k _ =>
    cases k with
    | b k => rfl
    | u k => rfl
    | lc => cases h : st.flow.loops <;> simp [setKey, h]
  · rfl

theorem writeRegs_pc (j : Nat) : ∀ (ds : List Reg) (vs : List Word) (st : Strand), (writeRegs j ds vs st).pc = st.pc := by
  intro ds
  induction ds with
  | nil => intros; rfl
  | cons d ds ih =>
    intro vs st
    cases vs with
    | nil => rfl
    | cons v vs => rw [writeRegs, ih, writeReg_pc]

/-! ### The beads of a form -/

/-- What the beads in a list have done to a strand so far. -/
structure Progress (fm : Form) (done : List Nat) (st st' : Strand) : Prop where
  rest : st'.rest = st.rest
  pc : st'.pc = st.pc
  wrote : ∀ j ∈ done, ∀ k d, fm.dsts[k]? = some d → d ≠ .zr →
    readReg st' j d = nth (fm.val (valsOf st j 0 fm.srcs)) k ∧ fillOf st' j d = .full
  others : ∀ key, (∀ j ∈ done, ∀ d ∈ fm.dsts, regKey st j d ≠ some key) → getKey st' key = getKey st key

theorem valsOf_congr {a b : Strand} (h : a.rest = b.rest) (j : Nat) : ∀ (rs : List Reg) (n : Nat),
    (∀ r ∈ rs, ∀ k, regKey b j r = some k → getKey a k = getKey b k) →
    (a.popped = b.popped ∨ rs.filter isPort = []) → valsOf a j n rs = valsOf b j n rs := by
  intro rs
  induction rs with
  | nil => intros; rfl
  | cons r t ih =>
    intro n hk hp
    have hr : readReg a j r = readReg b j r := readReg_congr h (hk r (by simp))
    have ht : ∀ n, valsOf a j n t = valsOf b j n t := fun n => ih n (fun x hx => hk x (by simp [hx]))
      (hp.imp_right fun e => by
        rw [List.filter_cons] at e; split at e
        · exact absurd e (by simp)
        · exact e)
    cases r with
    | q p =>
      rcases hp with hp | hp
      · simp [valsOf, ht, hp]
      · exact absurd hp (by rw [List.filter_cons_of_pos (by rfl)]; simp)
    | bead m => simp [valsOf, ht, hr]
    | uni m => simp [valsOf, ht, hr]
    | zr => simp [valsOf, ht, hr]
    | bx => simp [valsOf, ht, hr]
    | sx => simp [valsOf, ht, hr]
    | lc => simp [valsOf, ht, hr]

/-- What makes the parts of a form independent: its destinations are no q-ports, have different places, a count to hold lc, and
belong each to the bead that writes it. -/
structure Form.Apart (fm : Form) (st : Strand) : Prop where
  ports : ∀ d ∈ fm.dsts, isPort d = false
  lens : ∀ vs, (fm.val vs).length = fm.dsts.length
  real : ∀ d ∈ fm.dsts, d ≠ .bx ∧ d ≠ .sx
  count : .lc ∈ fm.dsts → st.flow.loops ≠ []
  differ : ∀ j, fm.dsts.Pairwise fun d e => ∀ k, regKey st j d = some k → regKey st j e ≠ some k
  own : fm.uniform = false → ∀ d ∈ fm.dsts, d = .zr ∨ ∃ n, d = .bead n

/-- Registers of different beads have different places. -/
theorem key_apart {st : Strand} {j l : Nat} (hj : j < 64) (hl : l < 64) (h : j ≠ l) {d r : Reg}
    (hd : d = .zr ∨ ∃ n, d = .bead n) {k : RKey} (e : regKey st j d = some k) : regKey st l r ≠ some k := by
  rcases hd with rfl | ⟨n, rfl⟩
  · simp [regKey] at e
  · simp only [regKey, Option.some.injEq] at e
    subst e
    cases r <;> simp [regKey, beadKey]
    omega

theorem loops_rest {a b : Strand} (h : a.rest = b.rest) : a.flow.loops = [] ↔ b.flow.loops = [] := by
  have := congrArg (fun x : Strand => x.flow.loops) h
  simp only [Strand.rest] at this
  revert this
  cases a.flow.loops <;> cases b.flow.loops <;> simp

/-- Results written to registers with different places all stand. -/
theorem writeRegs_stands {j : Nat} : ∀ {ds : List Reg} {vs : List Word} {st : Strand}, vs.length = ds.length →
    (.lc ∈ ds → st.flow.loops ≠ []) →
    ds.Pairwise (fun d e => ∀ k, regKey st j d = some k → regKey st j e ≠ some k) →
    ∀ n d k, ds[n]? = some d → regKey st j d = some k → getKey (writeRegs j ds vs st) k = { val := nth vs n } := by
  intro ds
  induction ds with
  | nil => intro vs st _ _ _ n d k h; simp at h
  | cons x ds ih =>
    intro vs st hl hc hp n d k hn hk
    cases vs with
    | nil => simp at hl
    | cons v vs =>
      rw [List.pairwise_cons] at hp
      have hr := writeReg_rest st j x v
      cases n with
      | zero =>
        simp only [List.getElem?_cons_zero, Option.some.injEq] at hn
        subst hn
        rw [writeRegs, getKey_writeRegs_other _ _ _ _ _ (fun e he => by rw [regKey_rest hr]; exact hp.1 e he k hk),
          getKey_writeReg_same hk (fun e => hc (by simp [e]))]
        simp [nth]
      | succ n =>
        simp only [List.getElem?_cons_succ] at hn
        rw [writeRegs, ih (by simpa using hl)
          (fun h => by rw [ne_eq, loops_rest hr]; exact hc (by simp [h]))
          (hp.2.imp fun h k => by rw [regKey_rest hr, regKey_rest hr]; exact h k) n d k hn
          (by rw [regKey_rest hr]; exact hk)]
        simp [nth]

/-- A register other than zr that can be a destination has a place. -/
theorem regKey_dst {st : Strand} {j : Nat} {d : Reg} (h1 : isPort d = false) (h2 : d ≠ .zr) (h3 : d ≠ .bx) (h4 : d ≠ .sx) :
    ∃ k, regKey st j d = some k := by
  cases d <;> simp_all [regKey, isPort]

theorem Progress.none (fm : Form) (st : Strand) : Progress fm [] st st :=
  ⟨rfl, rfl, by simp, fun _ _ => rfl⟩

/-- One more bead of a form does its part. -/
theorem Progress.step {fm : Form} {st st' : Strand} {done : List Nat} {j : Nat} (h : Progress fm done st st')
    (ha : fm.Apart st) (hb : ∀ l ∈ done, l ≠ j ∧ l < 64 ∧ j < 64 ∧ fm.uniform = false)
    {st2 : Strand} (h2 : st2.rest = st'.rest) (h3 : st2.pc = st'.pc) (hg : ∀ k, getKey st2 k = getKey st' k)
    (hv : st2.popped = st.popped ∨ fm.srcs.filter isPort = []) :
    valsOf st2 j 0 fm.srcs = valsOf st j 0 fm.srcs ∧
      Progress fm (done ++ [j]) st (writeRegs j fm.dsts (fm.val (valsOf st j 0 fm.srcs)) st2) := by
  have hr : st2.rest = st.rest := h2.trans h.rest
  have hw := writeRegs_rest j fm.dsts (fm.val (valsOf st j 0 fm.srcs)) st2
  have away : ∀ r k, regKey st j r = some k → ∀ l ∈ done, ∀ d ∈ fm.dsts, regKey st l d ≠ some k := by
    intro r k hk l hl d hd e
    obtain ⟨n1, n2, n3, n4⟩ := hb l hl
    exact key_apart n2 n3 n1 (ha.own n4 d hd) e hk
  have same : ∀ r k, regKey st j r = some k → getKey st2 k = getKey st k := by
    intro r k hk
    rw [hg, h.others k (away r k hk)]
  refine ⟨valsOf_congr hr j _ _ (fun r _ k hk => same r k hk) hv, hw.trans hr,
    (writeRegs_pc _ _ _ _).trans (h3.trans h.pc), ?_, ?_⟩
  · intro l hl n d hn hz
    have hd : d ∈ fm.dsts := List.mem_of_getElem? hn
    obtain ⟨k, hk⟩ := regKey_dst (st := st) (j := l) (ha.ports d hd) hz (ha.real d hd).1 (ha.real d hd).2
    have e1 := readReg_of_key ((regKey_rest (hw.trans hr) l d).trans hk)
    have e2 := fillOf_of_key ((regKey_rest (hw.trans hr) l d).trans hk)
    rw [e1, e2]
    rcases List.mem_append.1 hl with hl | hl
    · have old := h.wrote l hl n d hn hz
      rw [readReg_of_key ((regKey_rest h.rest l d).trans hk), fillOf_of_key ((regKey_rest h.rest l d).trans hk)] at old
      rw [getKey_writeRegs_other, hg]
      · exact old
      · intro e he
        rw [regKey_rest hr]
        obtain ⟨n1, n2, n3, n4⟩ := hb l hl
        exact fun x => key_apart n3 n2 (Ne.symm n1) (ha.own n4 e he) x hk
    · simp only [List.mem_singleton] at hl
      subst hl
      rw [writeRegs_stands (ha.lens _) (fun hc => by rw [ne_eq, loops_rest hr]; exact ha.count hc)
        ((ha.differ l).imp fun hx k => by rw [regKey_rest hr, regKey_rest hr]; exact hx k) n d k hn
        (by rw [regKey_rest hr]; exact hk)]
      exact ⟨rfl, rfl⟩
  · intro key hkey
    rw [getKey_writeRegs_other, hg, h.others]
    · exact fun l hl => hkey l (by simp [hl])
    · intro d hd
      rw [regKey_rest hr]
      exact hkey j (by simp) d hd

/-- The rest of a form's beads do their parts. -/
theorem eachBead_form {fm : Form} {srcs : List Src} {st : Strand} (ha : fm.Apart st) (hs : srcs.map (·.reg) = fm.srcs)
    (hf : ∀ j, ∀ r ∈ fm.srcs ++ fm.dsts, j ∈ actsOn st fm.uniform → (fillOf st j r).isFull = true) :
    ∀ (todo done : List Nat) (i : Issue), Progress fm done st i.st →
      (∀ j ∈ todo, j ∈ actsOn st fm.uniform) → (done ++ todo).Nodup →
      (done ++ todo = [] ∨ ∃ j, done ++ todo = [j]) ∨ (fm.uniform = false ∧ ∀ j ∈ done ++ todo, j < 64) →
      (fm.pops = 0 ∨ todo = [] ∨ (done = [] ∧ todo.length = 1 ∧ i.st.popped = st.popped ∧
        ∀ n < fm.pops, ∃ bs c, st.popped[n]? = some (some bs, c))) →
      ∃ st', eachBead (beadOp srcs fm.dsts fm.val) todo i = .ok { i with st := st' } ∧ Progress fm (done ++ todo) st st' := by
  intro todo
  induction todo with
  | nil => intro done i hp _ _ _ _; exact ⟨i.st, rfl, by simpa using hp⟩
  | cons j t ih =>
    intro done i hp hm hn hb hq
    have hpops : fm.pops = 0 → fm.srcs.filter isPort = [] := fun h => List.length_eq_zero_iff.1 h
    have hbl : ∀ l ∈ done, l ≠ j ∧ l < 64 ∧ j < 64 ∧ fm.uniform = false := by
      intro l hl
      have hlj : l ≠ j := by
        intro e; subst e
        rw [List.nodup_append] at hn
        exact hn.2.2 l hl l (by simp) rfl
      rcases hb with (hb | ⟨x, hb⟩) | ⟨hu, hb⟩
      · simp at hb
      · cases done with
        | nil => simp at hl
        | cons a b => simp at hb
      · exact ⟨hlj, hb l (by simp [hl]), hb j (by simp), hu⟩
    have fill : ∀ r ∈ fm.srcs ++ fm.dsts, (fillOf { i.st with pos := j } j r).isFull = true := by
      intro r hr
      have : fillOf { i.st with pos := j } j r = fillOf st j r := by
        apply fillOf_congr (a := { i.st with pos := j }) (b := st) hp.rest
        intro k hk
        show getKey i.st k = getKey st k
        refine hp.others k fun l hl d hd e => ?_
        obtain ⟨n1, n2, n3, n4⟩ := hbl l hl
        exact key_apart n2 n3 n1 (ha.own n4 d hd) e hk
      rw [this]
      exact hf j r hr (hm j (by simp))
    obtain ⟨kn, hop⟩ := beadOp_eq (srcs := srcs) (dsts := fm.dsts) (f := fm.val) (j := j)
      (i := { i with st := { i.st with pos := j } }) (by rw [hs]; exact fill) ha.ports
      (by
        intro m hm'
        rw [hs] at hm'
        rcases hq with hq | hq | ⟨_, _, h3, h4⟩
        · exact absurd hm' (by simp [hpops hq])
        · simp at hq
        · obtain ⟨bs, c, e⟩ := h4 m hm'
          exact ⟨bs, c, by rw [show ({ i with st := { i.st with pos := j } } : Issue).st.popped = i.st.popped from rfl, h3, e]⟩)
    have hpop : ({ i.st with pos := j, know := kn } : Strand).popped = st.popped ∨ fm.srcs.filter isPort = [] := by
      rcases hq with hq | hq | ⟨_, _, h3, _⟩
      · exact .inr (hpops hq)
      · simp at hq
      · exact .inl h3
    obtain ⟨ev, hp'⟩ := hp.step (st2 := { i.st with pos := j, know := kn }) ha hbl rfl rfl (fun _ => by rename_i k; cases k <;> rfl) hpop
    have ev' : valsOf { i.st with pos := j } j 0 fm.srcs = valsOf st j 0 fm.srcs := by
      rw [← ev]; exact (valsOf_know { i.st with pos := j } kn j _ _).symm
    rw [hs] at hop
    simp only [ev'] at hop
    simp only [eachBead, hop, BeadOut.andThen]
    obtain ⟨st', he, hP⟩ := ih (done ++ [j])
      { i with st := { writeRegs j fm.dsts (fm.val (valsOf st j 0 fm.srcs)) { i.st with pos := j, know := kn } with popped := [] } }
      ⟨hp'.rest, hp'.pc, hp'.wrote, hp'.others⟩
      (fun l hl => hm l (by simp [hl])) (by simpa using hn) (by simpa using hb)
      (by
        rcases hq with hq | hq | ⟨_, h2, _, _⟩
        · exact .inl hq
        · simp at hq
        · exact .inr (.inl (by cases t <;> simp_all)))
    exact ⟨st', he, by simpa using hP⟩

/-! ### The whole form -/

theorem takeFirst_mem {α : Type} {p : α → Bool} : ∀ {ls : List α} {x : α} {r : List α}, takeFirst p ls = some (x, r) → x ∈ ls := by
  intro ls
  induction ls with
  | nil => intro x r e; simp [takeFirst] at e
  | cons a t ih =>
    intro x r e
    simp only [takeFirst] at e
    split at e
    · simp only [Option.some.injEq, Prod.mk.injEq] at e; simp [e.1]
    · simp only [Option.map_eq_some_iff, Prod.exists] at e
      obtain ⟨y, q, e1, e2⟩ := e
      simp only [Prod.mk.injEq] at e2
      simp [← e2.1, ih e1]

/-- Where no level ends, the end test changes nothing. -/
theorem endTest_plain {st : Strand} (n : Nat) (h : ∀ l ∈ st.flow.loops, l.stop ≠ st.pc) : endTest (n + 1) st = (true, st) := by
  simp only [endTest]
  split
  · rfl
  · next l outer e =>
    exact if_pos (h l ((List.dropWhile_suffix _).mem (e ▸ List.mem_cons_self)))

/-- A form completes where the end of the instruction is plain sequential flow. -/
theorem advance_plain {i : Issue} (h : ∀ l ∈ i.st.flow.loops, l.stop ≠ i.st.pc + 4) :
    advance i = .ok { i with st := { i.st with pc := i.st.pc + 4 } } := by
  simp only [advance, sequential]
  rw [endTest_plain (st := { i.st with pc := i.st.pc + 4 }) _ h]

/-- An instruction that completes with beads to run leaves its strand ready. -/
theorem settle_ok {i : Issue} (h1 : i.st.flow.mask ≠ 0) (h2 : liveMask i.st ≠ 0) :
    settle (.ok i) = commit { i with st := { i.st with run := .ready, pos := 0, popped := [], accFault := none, insn := none, srHeld := [], woken := false } } := by
  simp only [settle]
  rw [if_neg]
  rintro (h | h)
  · exact h2 h
  · exact h1 h.1

theorem onStrand_issue {s : State} {st : Strand} (h : Issues s st) (f : Issue → BeadOut) :
    ∃ sy, onStrand s f = .next (settle (f { s := s, sid := s.cur, st := { st with resuming := false, sync := sy } })) := by
  unfold Issues at h
  exact ⟨if st.resuming && st.sync != none then none else st.sync, by simp only [onStrand, onStrandKeep, issueOf, h, Option.map_some]⟩

/-- The beads on which a strand acts lie below 64. -/
theorem actsOn_lt {st : Strand} {j : Nat} (h : j ∈ actsOn st false) : j < 64 := by
  simp only [actsOn, activeBeads, Bool.false_eq_true, if_false, List.mem_filter, List.mem_range] at h
  exact BitVec.lt_of_getLsbD h.1.2

theorem actsOn_nodup (st : Strand) (u : Bool) : (actsOn st u).Nodup := by
  unfold actsOn
  split
  · simp
  · exact (List.nodup_range.filter _).filter _

/-- What holds of a strand holds of it at the start of an instruction's run. -/
theorem actsOn_start (st : Strand) (u : Bool) (sy : Option Nat) :
    actsOn { st with resuming := false, sync := sy } u = actsOn st u := rfl

/-- WHAT A FORM THAT WORKS ON REGISTERS DOES: where its operands exist and are full and its pops are answered, it completes as
its form says. -/
theorem runForm_completes {fm : Form} {i : Instr} {s : State} {st : Strand} {srcs : List Src} {forbid : Bool} {ok : Strand → Bool}
    (hi : Issues s st) (halive : Alive st) (hnext : PlainNext st) (ha : fm.Apart st) (hfull : fm.Full st)
    (hans : fm.Answered st) (hs : srcs.map (·.reg) = fm.srcs) (hforbid : (st.inTrap && forbid) = false)
    (hok : ∀ sy, ok { st with resuming := false, sync := sy } = true)
    (he : exec i s = onStrand s fun x => runForm forbid (ok x.st) fm.uniform (beadOp srcs fm.dsts fm.val) x) :
    fm.CompletesBy i s st := by
  obtain ⟨sy, hrun⟩ := onStrand_issue hi fun x => runForm forbid (ok x.st) fm.uniform (beadOp srcs fm.dsts fm.val) x
  rw [← he] at hrun
  let st0 : Strand := { st with resuming := false, sync := sy }
  -- the parts of the beads
  have parts : ∃ st1, (if fm.uniform then runUniform (beadOp srcs fm.dsts fm.val 255) { s := s, sid := s.cur, st := st0 }
        else runBeads (beadOp srcs fm.dsts fm.val) { s := s, sid := s.cur, st := st0 }) =
      .ok { s := s, sid := s.cur, st := st1 } ∧ Progress fm (actsOn st fm.uniform) st st1 ∧ st1.pc = st.pc := by
    cases hu : fm.uniform with
    | true =>
      have hacts : actsOn st fm.uniform = [255] := by simp [actsOn, hu]
      obtain ⟨kn, hop⟩ := beadOp_eq (srcs := srcs) (dsts := fm.dsts) (f := fm.val) (j := 255)
        (i := { s := s, sid := s.cur, st := { st0 with pos := 255 } })
        (by
          intro r hr
          rw [hs] at hr
          have := hfull 255 (by simp [hacts]) r hr
          cases r <;> exact this)
        ha.ports
        (by
          intro m hm
          rw [hs] at hm
          rcases hans with h | ⟨_, h⟩
          · rw [List.length_eq_zero_iff.1 h] at hm; simp at hm
          · exact h m hm)
      obtain ⟨ev, hp⟩ := (Progress.none fm st).step (j := 255) (st2 := { st0 with pos := 255, know := kn }) ha (by simp) rfl rfl
        (fun k => by cases k <;> rfl) (.inl rfl)
      have ev' : valsOf { st0 with pos := 255 } 255 0 fm.srcs = valsOf st 255 0 fm.srcs := by
        rw [← ev]; exact (valsOf_know { st0 with pos := 255 } kn 255 _ _).symm
      rw [hs] at hop
      simp only [ev'] at hop
      refine ⟨_, ?_, by rw [← hu, hacts]; exact hp, hp.pc⟩
      simp only [runUniform, hop, BeadOut.unlearnt, BeadOut.atBead, if_true]
    | false =>
      have hacts : actsOn st fm.uniform = (activeBeads st0).filter fun j => decide (startBead st0 ≤ j) := by
        simp only [actsOn, hu, Bool.false_eq_true, if_false]; rfl
      obtain ⟨st1, he1, hp⟩ := eachBead_form (fm := fm) (srcs := srcs) (st := st) ha hs
        (fun j r hr hj => hfull j hj r hr) (actsOn st fm.uniform) []
        { s := s, sid := s.cur, st := st0 } ⟨rfl, rfl, by simp, fun k _ => by cases k <;> rfl⟩
        (fun j hj => hj) (by simpa using actsOn_nodup st fm.uniform)
        (.inr ⟨hu, by
          intro j hj
          simp only [List.nil_append] at hj
          rw [hu] at hj
          exact actsOn_lt hj⟩)
        (by
          rcases hans with h | ⟨h1, h2⟩
          · exact .inl h
          · exact .inr (.inr ⟨rfl, h1, rfl, h2⟩))
      refine ⟨st1, ?_, by rw [← hu]; simpa using hp, hp.pc⟩
      rw [hacts] at he1
      simp only [Bool.false_eq_true, if_false]
      exact he1
  obtain ⟨st1, hparts, hp, hpc⟩ := parts
  have hplain : ∀ l ∈ st1.flow.loops, l.stop ≠ st1.pc + 4 := by
    rw [hpc]; exact (plainNext_rest hp.rest _).2 hnext
  have hrun' : runForm forbid (ok st0) fm.uniform (beadOp srcs fm.dsts fm.val) { s := s, sid := s.cur, st := st0 } =
      .ok { s := s, sid := s.cur, st := { st1 with pc := st1.pc + 4 } } := by
    have h1 : (st0.inTrap && forbid) = false := hforbid
    have h2 : ok st0 = true := hok sy
    simp only [runForm, guarded, h1, h2, Bool.false_eq_true, if_false, Bool.not_true]
    rw [hparts]
    exact advance_plain hplain
  refine ⟨{ st1 with pc := st1.pc + 4, run := .ready, pos := 0, popped := [], accFault := none, insn := none, srHeld := [], woken := false }, ?_, ?_, rfl, ?_, ?_, ?_⟩
  · rw [hrun, hrun', settle_ok]
    · rfl
    · show st1.flow.mask ≠ 0
      rw [Strand.rest_mask hp.rest]; exact halive.1
    · show liveMask st1 ≠ 0
      have : liveMask st1 = liveMask st := by
        simp [liveMask, Strand.rest_width hp.rest, Strand.rest_retired hp.rest]
      rw [this]; exact halive.2
  · show st1.pc + 4 = _
    rw [hpc]
  · intro j hj k d hk hz
    have := hp.wrote j hj k d hk hz
    cases d <;> exact this
  · intro key hk
    have := hp.others key hk
    cases key <;> exact this
  · exact hp.rest

end Sys2Proof.Machine
end

