-- ==== Sys2Proof/Laws/Shapes.lean ====
section
/-!
SUPPORT. Laws of the shapes that the arithmetic families share: what makes the parts of each independent.
-/

set_option Elab.async false

namespace Sys2Proof.Machine
open Sys2Proof

theorem dstOk_real {st : Strand} {d : Reg} (h : dstOk st d = true) :
    d ≠ .bx ∧ d ≠ .sx ∧ (d = .lc → st.flow.loops ≠ []) := by
  refine ⟨by rintro rfl; simp [dstOk] at h, by rintro rfl; simp [dstOk] at h, ?_⟩
  rintro rfl
  simpa [dstOk] using h

theorem isBead_of {d : Reg} (h1 : isBead d = true) (h2 : isPort d = false) (h3 : d ≠ .bx) : ∃ n, d = .bead n := by
  cases d <;> simp_all [isBead, isPort]

/-- A form with one destination has independent parts. -/
theorem apart_one {st : Strand} {srcs : List Reg} {d : Reg} {u : Bool} {rs : List Reg} {f : List Word → List Word}
    (hd : dstOk st d = true) (hp : isPort d = false) (hc : classOk d rs = true) (hu : u = allUniform (d :: rs))
    (hl : ∀ vs, (f vs).length = 1) : (⟨srcs, [d], u, f⟩ : Form).Apart st := by
  obtain ⟨h1, h2, h3⟩ := dstOk_real hd
  refine ⟨by simpa using hp, by simpa using hl, by simp [h1, h2], by simpa [eq_comm] using h3, by simp, ?_⟩
  intro huf e he
  simp only [List.mem_singleton] at he
  subst he
  simp only [classOk, Bool.or_eq_true, beq_iff_eq] at hc
  rcases hc with (hb | hz) | ha
  · exact .inr (isBead_of hb hp h1)
  · exact .inl hz
  · by_cases hb : isBead e = true
    · exact .inr (isBead_of hb hp h1)
    · simp only [hu, allUniform, List.all_cons] at huf ha
      simp [ha, hb] at huf

theorem pairOk_cases {st : Strand} {d : Reg} (h : pairOk st d = true) :
    d = .zr ∨ (∃ n m, d = .bead n ∧ pairOf d = [.bead n, .bead m] ∧ m.val = n.val + 1 ∧ n.val % 2 = 0) ∨
      ∃ n m, d = .uni n ∧ pairOf d = [.uni n, .uni m] ∧ m.val = n.val + 1 ∧ n.val % 2 = 0 := by
  cases d with
  | bead n =>
    refine .inr (.inl ⟨n, ?_⟩)
    simp only [pairOk, pairOf, Bool.and_eq_true, beq_iff_eq] at h
    by_cases hn : n.val + 1 < 88
    · exact ⟨⟨n.val + 1, hn⟩, rfl, by simp [pairOf, hn], rfl, h.1.1⟩
    · simp [hn] at h
  | uni n =>
    refine .inr (.inr ⟨n, ?_⟩)
    simp only [pairOk, pairOf, Bool.and_eq_true, beq_iff_eq] at h
    by_cases hn : n.val + 1 < 32
    · exact ⟨⟨n.val + 1, hn⟩, rfl, by simp [pairOf, hn], rfl, h.1.1⟩
    · simp [hn] at h
  | zr => exact .inl rfl
  | bx => simp [pairOk] at h
  | sx => simp [pairOk] at h
  | lc => simp [pairOk] at h
  | q p => simp [pairOk] at h

/-- A form whose destination is a pair has independent parts. -/
theorem apart_pair {st : Strand} {srcs : List Reg} {d : Reg} {u : Bool} {rs : List Reg} {f : List Word → List Word}
    (hd : pairOk st d = true) (hc : classOk d rs = true) (hu : u = allUniform (d :: rs))
    (hl : ∀ vs, (f vs).length = 2) : (⟨srcs, pairOf d, u, f⟩ : Form).Apart st := by
  rcases pairOk_cases hd with rfl | ⟨n, m, rfl, hp, hm, hn⟩ | ⟨n, m, rfl, hp, hm, hn⟩
  · exact ⟨by simp [pairOf, isPort], by simpa [pairOf] using hl, by simp [pairOf], by simp [pairOf], by simp [pairOf, regKey],
      by simp [pairOf]⟩
  · refine ⟨?_, by simpa [hp] using hl, ?_, ?_, ?_, ?_⟩
    · simp [hp, isPort]
    · simp [hp]
    · simp [hp]
    · intro j
      simp only [hp, List.pairwise_cons, List.mem_singleton, forall_eq, List.not_mem_nil, false_imp_iff, implies_true, List.Pairwise.nil, and_true]
      intro k hk
      simp only [regKey, Option.some.injEq] at hk
      subst hk
      simp only [regKey, physBead, beadKey, ne_eq, Option.some.injEq, RKey.b.injEq, hm]
      split <;> split <;> rename_i h1 h2 <;> simp at h1 h2 <;> first | omega | skip
      all_goals cases hT : st.inTrap <;> simp [hT] at h1 h2 <;> omega
    · simp [hp]
  · refine ⟨?_, by simpa [hp] using hl, ?_, ?_, ?_, ?_⟩
    · simp [hp, isPort]
    · simp [hp]
    · simp [hp]
    · intro j
      simp only [hp, List.pairwise_cons, List.mem_singleton, forall_eq, List.not_mem_nil, false_imp_iff, implies_true, List.Pairwise.nil, and_true]
      intro k hk
      simp only [regKey, Option.some.injEq] at hk
      subst hk
      simp only [regKey, physUni, ne_eq, Option.some.injEq, RKey.u.injEq, hm]
      split <;> split <;> rename_i h1 h2 <;> simp at h1 h2 <;> omega
    · intro huf
      simp only [classOk, isBead, Bool.false_or, Bool.or_eq_true, beq_iff_eq, reduceCtorEq, false_or] at hc
      simp only [hu, allUniform, List.all_cons, isBead] at huf hc
      simp [hc] at huf

end Sys2Proof.Machine
end

