-- ==== Sys2Proof/Laws/State.lean ====
section
/-!
SUPPORT. Laws of the updates of the state: what each field holds after one, so that no proof unfolds a record update.
-/

set_option Elab.async false

namespace Sys2Proof.Machine
open Sys2Proof

/-! ### setStrips -/

@[simp] theorem setStrips_mem (s : State) (f : Strips → Strips) : (setStrips s f).mem = s.mem := rfl
@[simp] theorem setStrips_strands (s : State) (f : Strips → Strips) : (setStrips s f).strands = s.strands := rfl
@[simp] theorem setStrips_nextSid (s : State) (f : Strips → Strips) : (setStrips s f).nextSid = s.nextSid := rfl
@[simp] theorem setStrips_braids (s : State) (f : Strips → Strips) : (setStrips s f).braids = s.braids := rfl
@[simp] theorem setStrips_nextBid (s : State) (f : Strips → Strips) : (setStrips s f).nextBid = s.nextBid := rfl
@[simp] theorem setStrips_ctxs (s : State) (f : Strips → Strips) : (setStrips s f).ctxs = s.ctxs := rfl
@[simp] theorem setStrips_trans (s : State) (f : Strips → Strips) : (setStrips s f).trans = s.trans := rfl
@[simp] theorem setStrips_vaults (s : State) (f : Strips → Strips) : (setStrips s f).vaults = s.vaults := rfl
@[simp] theorem setStrips_flight (s : State) (f : Strips → Strips) : (setStrips s f).flight = s.flight := rfl
@[simp] theorem setStrips_eng (s : State) (f : Strips → Strips) : (setStrips s f).eng = s.eng := rfl
@[simp] theorem setStrips_queues (s : State) (f : Strips → Strips) : (setStrips s f).queues = s.queues := rfl
@[simp] theorem setStrips_cmd (s : State) (f : Strips → Strips) : (setStrips s f).cmd = s.cmd := rfl
@[simp] theorem setStrips_clk (s : State) (f : Strips → Strips) : (setStrips s f).clk = s.clk := rfl
@[simp] theorem setStrips_strips (s : State) (f : Strips → Strips) : (setStrips s f).strips = f s.strips := rfl
@[simp] theorem setStrips_fab (s : State) (f : Strips → Strips) : (setStrips s f).fab = s.fab := rfl
@[simp] theorem setStrips_keep (s : State) (f : Strips → Strips) : (setStrips s f).keep = s.keep := rfl
@[simp] theorem setStrips_host (s : State) (f : Strips → Strips) : (setStrips s f).host = s.host := rfl
@[simp] theorem setStrips_sreg (s : State) (f : Strips → Strips) : (setStrips s f).sreg = s.sreg := rfl
@[simp] theorem setStrips_inputs (s : State) (f : Strips → Strips) : (setStrips s f).inputs = s.inputs := rfl
@[simp] theorem setStrips_arg (s : State) (f : Strips → Strips) : (setStrips s f).arg = s.arg := rfl
@[simp] theorem setStrips_choice (s : State) (f : Strips → Strips) : (setStrips s f).choice = s.choice := rfl
@[simp] theorem setStrips_cur (s : State) (f : Strips → Strips) : (setStrips s f).cur = s.cur := rfl

/-! ### setChain -/

@[simp] theorem setChain_mem (s : State) (c : Nat) (f : Chain → Chain) : (setChain s c f).mem = s.mem := rfl
@[simp] theorem setChain_strands (s : State) (c : Nat) (f : Chain → Chain) : (setChain s c f).strands = s.strands := rfl
@[simp] theorem setChain_nextSid (s : State) (c : Nat) (f : Chain → Chain) : (setChain s c f).nextSid = s.nextSid := rfl
@[simp] theorem setChain_braids (s : State) (c : Nat) (f : Chain → Chain) : (setChain s c f).braids = s.braids := rfl
@[simp] theorem setChain_nextBid (s : State) (c : Nat) (f : Chain → Chain) : (setChain s c f).nextBid = s.nextBid := rfl
@[simp] theorem setChain_ctxs (s : State) (c : Nat) (f : Chain → Chain) : (setChain s c f).ctxs = s.ctxs := rfl
@[simp] theorem setChain_trans (s : State) (c : Nat) (f : Chain → Chain) : (setChain s c f).trans = s.trans := rfl
@[simp] theorem setChain_vaults (s : State) (c : Nat) (f : Chain → Chain) : (setChain s c f).vaults = s.vaults := rfl
@[simp] theorem setChain_flight (s : State) (c : Nat) (f : Chain → Chain) : (setChain s c f).flight = s.flight := rfl
@[simp] theorem setChain_eng (s : State) (c : Nat) (f : Chain → Chain) : (setChain s c f).eng = s.eng := rfl
@[simp] theorem setChain_queues (s : State) (c : Nat) (f : Chain → Chain) : (setChain s c f).queues = s.queues := rfl
@[simp] theorem setChain_cmd (s : State) (c : Nat) (f : Chain → Chain) : (setChain s c f).cmd = s.cmd := rfl
@[simp] theorem setChain_clk (s : State) (c : Nat) (f : Chain → Chain) : (setChain s c f).clk = s.clk := rfl
@[simp] theorem setChain_strips (s : State) (c : Nat) (f : Chain → Chain) : (setChain s c f).strips = { s.strips with chains := upd s.strips.chains c f } := rfl
@[simp] theorem setChain_fab (s : State) (c : Nat) (f : Chain → Chain) : (setChain s c f).fab = s.fab := rfl
@[simp] theorem setChain_keep (s : State) (c : Nat) (f : Chain → Chain) : (setChain s c f).keep = s.keep := rfl
@[simp] theorem setChain_host (s : State) (c : Nat) (f : Chain → Chain) : (setChain s c f).host = s.host := rfl
@[simp] theorem setChain_sreg (s : State) (c : Nat) (f : Chain → Chain) : (setChain s c f).sreg = s.sreg := rfl
@[simp] theorem setChain_inputs (s : State) (c : Nat) (f : Chain → Chain) : (setChain s c f).inputs = s.inputs := rfl
@[simp] theorem setChain_arg (s : State) (c : Nat) (f : Chain → Chain) : (setChain s c f).arg = s.arg := rfl
@[simp] theorem setChain_choice (s : State) (c : Nat) (f : Chain → Chain) : (setChain s c f).choice = s.choice := rfl
@[simp] theorem setChain_cur (s : State) (c : Nat) (f : Chain → Chain) : (setChain s c f).cur = s.cur := rfl

/-! ### setStream -/

@[simp] theorem setStream_mem (s : State) (n : Nat) (f : Stream → Stream) : (setStream s n f).mem = s.mem := rfl
@[simp] theorem setStream_strands (s : State) (n : Nat) (f : Stream → Stream) : (setStream s n f).strands = s.strands := rfl
@[simp] theorem setStream_nextSid (s : State) (n : Nat) (f : Stream → Stream) : (setStream s n f).nextSid = s.nextSid := rfl
@[simp] theorem setStream_braids (s : State) (n : Nat) (f : Stream → Stream) : (setStream s n f).braids = s.braids := rfl
@[simp] theorem setStream_nextBid (s : State) (n : Nat) (f : Stream → Stream) : (setStream s n f).nextBid = s.nextBid := rfl
@[simp] theorem setStream_ctxs (s : State) (n : Nat) (f : Stream → Stream) : (setStream s n f).ctxs = s.ctxs := rfl
@[simp] theorem setStream_trans (s : State) (n : Nat) (f : Stream → Stream) : (setStream s n f).trans = s.trans := rfl
@[simp] theorem setStream_vaults (s : State) (n : Nat) (f : Stream → Stream) : (setStream s n f).vaults = s.vaults := rfl
@[simp] theorem setStream_flight (s : State) (n : Nat) (f : Stream → Stream) : (setStream s n f).flight = s.flight := rfl
@[simp] theorem setStream_eng (s : State) (n : Nat) (f : Stream → Stream) : (setStream s n f).eng = s.eng := rfl
@[simp] theorem setStream_queues (s : State) (n : Nat) (f : Stream → Stream) : (setStream s n f).queues = s.queues := rfl
@[simp] theorem setStream_cmd (s : State) (n : Nat) (f : Stream → Stream) : (setStream s n f).cmd = s.cmd := rfl
@[simp] theorem setStream_clk (s : State) (n : Nat) (f : Stream → Stream) : (setStream s n f).clk = s.clk := rfl
@[simp] theorem setStream_strips (s : State) (n : Nat) (f : Stream → Stream) : (setStream s n f).strips = { s.strips with streams := upd s.strips.streams n f } := rfl
@[simp] theorem setStream_fab (s : State) (n : Nat) (f : Stream → Stream) : (setStream s n f).fab = s.fab := rfl
@[simp] theorem setStream_keep (s : State) (n : Nat) (f : Stream → Stream) : (setStream s n f).keep = s.keep := rfl
@[simp] theorem setStream_host (s : State) (n : Nat) (f : Stream → Stream) : (setStream s n f).host = s.host := rfl
@[simp] theorem setStream_sreg (s : State) (n : Nat) (f : Stream → Stream) : (setStream s n f).sreg = s.sreg := rfl
@[simp] theorem setStream_inputs (s : State) (n : Nat) (f : Stream → Stream) : (setStream s n f).inputs = s.inputs := rfl
@[simp] theorem setStream_arg (s : State) (n : Nat) (f : Stream → Stream) : (setStream s n f).arg = s.arg := rfl
@[simp] theorem setStream_choice (s : State) (n : Nat) (f : Stream → Stream) : (setStream s n f).choice = s.choice := rfl
@[simp] theorem setStream_cur (s : State) (n : Nat) (f : Stream → Stream) : (setStream s n f).cur = s.cur := rfl

/-! ### setBraid -/

@[simp] theorem setBraid_mem (s : State) (b : Nat) (f : Braid → Braid) : (setBraid s b f).mem = s.mem := rfl
@[simp] theorem setBraid_strands (s : State) (b : Nat) (f : Braid → Braid) : (setBraid s b f).strands = s.strands := rfl
@[simp] theorem setBraid_nextSid (s : State) (b : Nat) (f : Braid → Braid) : (setBraid s b f).nextSid = s.nextSid := rfl
@[simp] theorem setBraid_braids (s : State) (b : Nat) (f : Braid → Braid) : (setBraid s b f).braids = upd s.braids b f := rfl
@[simp] theorem setBraid_nextBid (s : State) (b : Nat) (f : Braid → Braid) : (setBraid s b f).nextBid = s.nextBid := rfl
@[simp] theorem setBraid_ctxs (s : State) (b : Nat) (f : Braid → Braid) : (setBraid s b f).ctxs = s.ctxs := rfl
@[simp] theorem setBraid_trans (s : State) (b : Nat) (f : Braid → Braid) : (setBraid s b f).trans = s.trans := rfl
@[simp] theorem setBraid_vaults (s : State) (b : Nat) (f : Braid → Braid) : (setBraid s b f).vaults = s.vaults := rfl
@[simp] theorem setBraid_flight (s : State) (b : Nat) (f : Braid → Braid) : (setBraid s b f).flight = s.flight := rfl
@[simp] theorem setBraid_eng (s : State) (b : Nat) (f : Braid → Braid) : (setBraid s b f).eng = s.eng := rfl
@[simp] theorem setBraid_queues (s : State) (b : Nat) (f : Braid → Braid) : (setBraid s b f).queues = s.queues := rfl
@[simp] theorem setBraid_cmd (s : State) (b : Nat) (f : Braid → Braid) : (setBraid s b f).cmd = s.cmd := rfl
@[simp] theorem setBraid_clk (s : State) (b : Nat) (f : Braid → Braid) : (setBraid s b f).clk = s.clk := rfl
@[simp] theorem setBraid_strips (s : State) (b : Nat) (f : Braid → Braid) : (setBraid s b f).strips = s.strips := rfl
@[simp] theorem setBraid_fab (s : State) (b : Nat) (f : Braid → Braid) : (setBraid s b f).fab = s.fab := rfl
@[simp] theorem setBraid_keep (s : State) (b : Nat) (f : Braid → Braid) : (setBraid s b f).keep = s.keep := rfl
@[simp] theorem setBraid_host (s : State) (b : Nat) (f : Braid → Braid) : (setBraid s b f).host = s.host := rfl
@[simp] theorem setBraid_sreg (s : State) (b : Nat) (f : Braid → Braid) : (setBraid s b f).sreg = s.sreg := rfl
@[simp] theorem setBraid_inputs (s : State) (b : Nat) (f : Braid → Braid) : (setBraid s b f).inputs = s.inputs := rfl
@[simp] theorem setBraid_arg (s : State) (b : Nat) (f : Braid → Braid) : (setBraid s b f).arg = s.arg := rfl
@[simp] theorem setBraid_choice (s : State) (b : Nat) (f : Braid → Braid) : (setBraid s b f).choice = s.choice := rfl
@[simp] theorem setBraid_cur (s : State) (b : Nat) (f : Braid → Braid) : (setBraid s b f).cur = s.cur := rfl

/-! ### setKernel -/

@[simp] theorem setKernel_mem (s : State) (k : Nat) (f : Kernel → Kernel) : (setKernel s k f).mem = s.mem := rfl
@[simp] theorem setKernel_strands (s : State) (k : Nat) (f : Kernel → Kernel) : (setKernel s k f).strands = s.strands := rfl
@[simp] theorem setKernel_nextSid (s : State) (k : Nat) (f : Kernel → Kernel) : (setKernel s k f).nextSid = s.nextSid := rfl
@[simp] theorem setKernel_braids (s : State) (k : Nat) (f : Kernel → Kernel) : (setKernel s k f).braids = s.braids := rfl
@[simp] theorem setKernel_nextBid (s : State) (k : Nat) (f : Kernel → Kernel) : (setKernel s k f).nextBid = s.nextBid := rfl
@[simp] theorem setKernel_ctxs (s : State) (k : Nat) (f : Kernel → Kernel) : (setKernel s k f).ctxs = s.ctxs := rfl
@[simp] theorem setKernel_trans (s : State) (k : Nat) (f : Kernel → Kernel) : (setKernel s k f).trans = s.trans := rfl
@[simp] theorem setKernel_vaults (s : State) (k : Nat) (f : Kernel → Kernel) : (setKernel s k f).vaults = s.vaults := rfl
@[simp] theorem setKernel_flight (s : State) (k : Nat) (f : Kernel → Kernel) : (setKernel s k f).flight = s.flight := rfl
@[simp] theorem setKernel_eng (s : State) (k : Nat) (f : Kernel → Kernel) : (setKernel s k f).eng = s.eng := rfl
@[simp] theorem setKernel_queues (s : State) (k : Nat) (f : Kernel → Kernel) : (setKernel s k f).queues = s.queues := rfl
@[simp] theorem setKernel_cmd (s : State) (k : Nat) (f : Kernel → Kernel) : (setKernel s k f).cmd = { s.cmd with kernels := upd s.cmd.kernels k f } := rfl
@[simp] theorem setKernel_clk (s : State) (k : Nat) (f : Kernel → Kernel) : (setKernel s k f).clk = s.clk := rfl
@[simp] theorem setKernel_strips (s : State) (k : Nat) (f : Kernel → Kernel) : (setKernel s k f).strips = s.strips := rfl
@[simp] theorem setKernel_fab (s : State) (k : Nat) (f : Kernel → Kernel) : (setKernel s k f).fab = s.fab := rfl
@[simp] theorem setKernel_keep (s : State) (k : Nat) (f : Kernel → Kernel) : (setKernel s k f).keep = s.keep := rfl
@[simp] theorem setKernel_host (s : State) (k : Nat) (f : Kernel → Kernel) : (setKernel s k f).host = s.host := rfl
@[simp] theorem setKernel_sreg (s : State) (k : Nat) (f : Kernel → Kernel) : (setKernel s k f).sreg = s.sreg := rfl
@[simp] theorem setKernel_inputs (s : State) (k : Nat) (f : Kernel → Kernel) : (setKernel s k f).inputs = s.inputs := rfl
@[simp] theorem setKernel_arg (s : State) (k : Nat) (f : Kernel → Kernel) : (setKernel s k f).arg = s.arg := rfl
@[simp] theorem setKernel_choice (s : State) (k : Nat) (f : Kernel → Kernel) : (setKernel s k f).choice = s.choice := rfl
@[simp] theorem setKernel_cur (s : State) (k : Nat) (f : Kernel → Kernel) : (setKernel s k f).cur = s.cur := rfl

/-! ### setFlight -/

@[simp] theorem setFlight_mem (s : State) (f : Flight → Flight) : (setFlight s f).mem = s.mem := rfl
@[simp] theorem setFlight_strands (s : State) (f : Flight → Flight) : (setFlight s f).strands = s.strands := rfl
@[simp] theorem setFlight_nextSid (s : State) (f : Flight → Flight) : (setFlight s f).nextSid = s.nextSid := rfl
@[simp] theorem setFlight_braids (s : State) (f : Flight → Flight) : (setFlight s f).braids = s.braids := rfl
@[simp] theorem setFlight_nextBid (s : State) (f : Flight → Flight) : (setFlight s f).nextBid = s.nextBid := rfl
@[simp] theorem setFlight_ctxs (s : State) (f : Flight → Flight) : (setFlight s f).ctxs = s.ctxs := rfl
@[simp] theorem setFlight_trans (s : State) (f : Flight → Flight) : (setFlight s f).trans = s.trans := rfl
@[simp] theorem setFlight_vaults (s : State) (f : Flight → Flight) : (setFlight s f).vaults = s.vaults := rfl
@[simp] theorem setFlight_flight (s : State) (f : Flight → Flight) : (setFlight s f).flight = f s.flight := rfl
@[simp] theorem setFlight_eng (s : State) (f : Flight → Flight) : (setFlight s f).eng = s.eng := rfl
@[simp] theorem setFlight_queues (s : State) (f : Flight → Flight) : (setFlight s f).queues = s.queues := rfl
@[simp] theorem setFlight_cmd (s : State) (f : Flight → Flight) : (setFlight s f).cmd = s.cmd := rfl
@[simp] theorem setFlight_clk (s : State) (f : Flight → Flight) : (setFlight s f).clk = s.clk := rfl
@[simp] theorem setFlight_strips (s : State) (f : Flight → Flight) : (setFlight s f).strips = s.strips := rfl
@[simp] theorem setFlight_fab (s : State) (f : Flight → Flight) : (setFlight s f).fab = s.fab := rfl
@[simp] theorem setFlight_keep (s : State) (f : Flight → Flight) : (setFlight s f).keep = s.keep := rfl
@[simp] theorem setFlight_host (s : State) (f : Flight → Flight) : (setFlight s f).host = s.host := rfl
@[simp] theorem setFlight_sreg (s : State) (f : Flight → Flight) : (setFlight s f).sreg = s.sreg := rfl
@[simp] theorem setFlight_inputs (s : State) (f : Flight → Flight) : (setFlight s f).inputs = s.inputs := rfl
@[simp] theorem setFlight_arg (s : State) (f : Flight → Flight) : (setFlight s f).arg = s.arg := rfl
@[simp] theorem setFlight_choice (s : State) (f : Flight → Flight) : (setFlight s f).choice = s.choice := rfl
@[simp] theorem setFlight_cur (s : State) (f : Flight → Flight) : (setFlight s f).cur = s.cur := rfl

/-! ### setCtx -/

@[simp] theorem setCtx_mem (s : State) (c : Nat) (f : Context → Context) : (setCtx s c f).mem = s.mem := rfl
@[simp] theorem setCtx_strands (s : State) (c : Nat) (f : Context → Context) : (setCtx s c f).strands = s.strands := rfl
@[simp] theorem setCtx_nextSid (s : State) (c : Nat) (f : Context → Context) : (setCtx s c f).nextSid = s.nextSid := rfl
@[simp] theorem setCtx_braids (s : State) (c : Nat) (f : Context → Context) : (setCtx s c f).braids = s.braids := rfl
@[simp] theorem setCtx_nextBid (s : State) (c : Nat) (f : Context → Context) : (setCtx s c f).nextBid = s.nextBid := rfl
@[simp] theorem setCtx_ctxs (s : State) (c : Nat) (f : Context → Context) : (setCtx s c f).ctxs = upd s.ctxs c f := rfl
@[simp] theorem setCtx_trans (s : State) (c : Nat) (f : Context → Context) : (setCtx s c f).trans = s.trans := rfl
@[simp] theorem setCtx_vaults (s : State) (c : Nat) (f : Context → Context) : (setCtx s c f).vaults = s.vaults := rfl
@[simp] theorem setCtx_flight (s : State) (c : Nat) (f : Context → Context) : (setCtx s c f).flight = s.flight := rfl
@[simp] theorem setCtx_eng (s : State) (c : Nat) (f : Context → Context) : (setCtx s c f).eng = s.eng := rfl
@[simp] theorem setCtx_queues (s : State) (c : Nat) (f : Context → Context) : (setCtx s c f).queues = s.queues := rfl
@[simp] theorem setCtx_cmd (s : State) (c : Nat) (f : Context → Context) : (setCtx s c f).cmd = s.cmd := rfl
@[simp] theorem setCtx_clk (s : State) (c : Nat) (f : Context → Context) : (setCtx s c f).clk = s.clk := rfl
@[simp] theorem setCtx_strips (s : State) (c : Nat) (f : Context → Context) : (setCtx s c f).strips = s.strips := rfl
@[simp] theorem setCtx_fab (s : State) (c : Nat) (f : Context → Context) : (setCtx s c f).fab = s.fab := rfl
@[simp] theorem setCtx_keep (s : State) (c : Nat) (f : Context → Context) : (setCtx s c f).keep = s.keep := rfl
@[simp] theorem setCtx_host (s : State) (c : Nat) (f : Context → Context) : (setCtx s c f).host = s.host := rfl
@[simp] theorem setCtx_sreg (s : State) (c : Nat) (f : Context → Context) : (setCtx s c f).sreg = s.sreg := rfl
@[simp] theorem setCtx_inputs (s : State) (c : Nat) (f : Context → Context) : (setCtx s c f).inputs = s.inputs := rfl
@[simp] theorem setCtx_arg (s : State) (c : Nat) (f : Context → Context) : (setCtx s c f).arg = s.arg := rfl
@[simp] theorem setCtx_choice (s : State) (c : Nat) (f : Context → Context) : (setCtx s c f).choice = s.choice := rfl
@[simp] theorem setCtx_cur (s : State) (c : Nat) (f : Context → Context) : (setCtx s c f).cur = s.cur := rfl

/-! ### setFuture -/

@[simp] theorem setFuture_mem (s : State) (c r : Nat) (f : Future → Future) : (setFuture s c r f).mem = s.mem := rfl
@[simp] theorem setFuture_strands (s : State) (c r : Nat) (f : Future → Future) : (setFuture s c r f).strands = s.strands := rfl
@[simp] theorem setFuture_nextSid (s : State) (c r : Nat) (f : Future → Future) : (setFuture s c r f).nextSid = s.nextSid := rfl
@[simp] theorem setFuture_braids (s : State) (c r : Nat) (f : Future → Future) : (setFuture s c r f).braids = s.braids := rfl
@[simp] theorem setFuture_nextBid (s : State) (c r : Nat) (f : Future → Future) : (setFuture s c r f).nextBid = s.nextBid := rfl
@[simp] theorem setFuture_trans (s : State) (c r : Nat) (f : Future → Future) : (setFuture s c r f).trans = s.trans := rfl
@[simp] theorem setFuture_vaults (s : State) (c r : Nat) (f : Future → Future) : (setFuture s c r f).vaults = s.vaults := rfl
@[simp] theorem setFuture_flight (s : State) (c r : Nat) (f : Future → Future) : (setFuture s c r f).flight = s.flight := rfl
@[simp] theorem setFuture_eng (s : State) (c r : Nat) (f : Future → Future) : (setFuture s c r f).eng = s.eng := rfl
@[simp] theorem setFuture_queues (s : State) (c r : Nat) (f : Future → Future) : (setFuture s c r f).queues = s.queues := rfl
@[simp] theorem setFuture_cmd (s : State) (c r : Nat) (f : Future → Future) : (setFuture s c r f).cmd = s.cmd := rfl
@[simp] theorem setFuture_clk (s : State) (c r : Nat) (f : Future → Future) : (setFuture s c r f).clk = s.clk := rfl
@[simp] theorem setFuture_strips (s : State) (c r : Nat) (f : Future → Future) : (setFuture s c r f).strips = s.strips := rfl
@[simp] theorem setFuture_fab (s : State) (c r : Nat) (f : Future → Future) : (setFuture s c r f).fab = s.fab := rfl
@[simp] theorem setFuture_keep (s : State) (c r : Nat) (f : Future → Future) : (setFuture s c r f).keep = s.keep := rfl
@[simp] theorem setFuture_host (s : State) (c r : Nat) (f : Future → Future) : (setFuture s c r f).host = s.host := rfl
@[simp] theorem setFuture_sreg (s : State) (c r : Nat) (f : Future → Future) : (setFuture s c r f).sreg = s.sreg := rfl
@[simp] theorem setFuture_inputs (s : State) (c r : Nat) (f : Future → Future) : (setFuture s c r f).inputs = s.inputs := rfl
@[simp] theorem setFuture_arg (s : State) (c r : Nat) (f : Future → Future) : (setFuture s c r f).arg = s.arg := rfl
@[simp] theorem setFuture_choice (s : State) (c r : Nat) (f : Future → Future) : (setFuture s c r f).choice = s.choice := rfl
@[simp] theorem setFuture_cur (s : State) (c r : Nat) (f : Future → Future) : (setFuture s c r f).cur = s.cur := rfl

/-! ### setHost -/

@[simp] theorem setHost_mem (s : State) (f : HostSide → HostSide) : (setHost s f).mem = s.mem := rfl
@[simp] theorem setHost_strands (s : State) (f : HostSide → HostSide) : (setHost s f).strands = s.strands := rfl
@[simp] theorem setHost_nextSid (s : State) (f : HostSide → HostSide) : (setHost s f).nextSid = s.nextSid := rfl
@[simp] theorem setHost_braids (s : State) (f : HostSide → HostSide) : (setHost s f).braids = s.braids := rfl
@[simp] theorem setHost_nextBid (s : State) (f : HostSide → HostSide) : (setHost s f).nextBid = s.nextBid := rfl
@[simp] theorem setHost_ctxs (s : State) (f : HostSide → HostSide) : (setHost s f).ctxs = s.ctxs := rfl
@[simp] theorem setHost_trans (s : State) (f : HostSide → HostSide) : (setHost s f).trans = s.trans := rfl
@[simp] theorem setHost_vaults (s : State) (f : HostSide → HostSide) : (setHost s f).vaults = s.vaults := rfl
@[simp] theorem setHost_flight (s : State) (f : HostSide → HostSide) : (setHost s f).flight = s.flight := rfl
@[simp] theorem setHost_eng (s : State) (f : HostSide → HostSide) : (setHost s f).eng = s.eng := rfl
@[simp] theorem setHost_queues (s : State) (f : HostSide → HostSide) : (setHost s f).queues = s.queues := rfl
@[simp] theorem setHost_cmd (s : State) (f : HostSide → HostSide) : (setHost s f).cmd = s.cmd := rfl
@[simp] theorem setHost_clk (s : State) (f : HostSide → HostSide) : (setHost s f).clk = s.clk := rfl
@[simp] theorem setHost_strips (s : State) (f : HostSide → HostSide) : (setHost s f).strips = s.strips := rfl
@[simp] theorem setHost_fab (s : State) (f : HostSide → HostSide) : (setHost s f).fab = s.fab := rfl
@[simp] theorem setHost_keep (s : State) (f : HostSide → HostSide) : (setHost s f).keep = s.keep := rfl
@[simp] theorem setHost_host (s : State) (f : HostSide → HostSide) : (setHost s f).host = f s.host := rfl
@[simp] theorem setHost_sreg (s : State) (f : HostSide → HostSide) : (setHost s f).sreg = s.sreg := rfl
@[simp] theorem setHost_inputs (s : State) (f : HostSide → HostSide) : (setHost s f).inputs = s.inputs := rfl
@[simp] theorem setHost_arg (s : State) (f : HostSide → HostSide) : (setHost s f).arg = s.arg := rfl
@[simp] theorem setHost_choice (s : State) (f : HostSide → HostSide) : (setHost s f).choice = s.choice := rfl
@[simp] theorem setHost_cur (s : State) (f : HostSide → HostSide) : (setHost s f).cur = s.cur := rfl

/-! ### setKeeper -/

@[simp] theorem setKeeper_mem (s : State) (f : Keeper → Keeper) : (setKeeper s f).mem = s.mem := rfl
@[simp] theorem setKeeper_strands (s : State) (f : Keeper → Keeper) : (setKeeper s f).strands = s.strands := rfl
@[simp] theorem setKeeper_nextSid (s : State) (f : Keeper → Keeper) : (setKeeper s f).nextSid = s.nextSid := rfl
@[simp] theorem setKeeper_braids (s : State) (f : Keeper → Keeper) : (setKeeper s f).braids = s.braids := rfl
@[simp] theorem setKeeper_nextBid (s : State) (f : Keeper → Keeper) : (setKeeper s f).nextBid = s.nextBid := rfl
@[simp] theorem setKeeper_ctxs (s : State) (f : Keeper → Keeper) : (setKeeper s f).ctxs = s.ctxs := rfl
@[simp] theorem setKeeper_trans (s : State) (f : Keeper → Keeper) : (setKeeper s f).trans = s.trans := rfl
@[simp] theorem setKeeper_vaults (s : State) (f : Keeper → Keeper) : (setKeeper s f).vaults = s.vaults := rfl
@[simp] theorem setKeeper_flight (s : State) (f : Keeper → Keeper) : (setKeeper s f).flight = s.flight := rfl
@[simp] theorem setKeeper_eng (s : State) (f : Keeper → Keeper) : (setKeeper s f).eng = s.eng := rfl
@[simp] theorem setKeeper_queues (s : State) (f : Keeper → Keeper) : (setKeeper s f).queues = s.queues := rfl
@[simp] theorem setKeeper_cmd (s : State) (f : Keeper → Keeper) : (setKeeper s f).cmd = s.cmd := rfl
@[simp] theorem setKeeper_clk (s : State) (f : Keeper → Keeper) : (setKeeper s f).clk = s.clk := rfl
@[simp] theorem setKeeper_strips (s : State) (f : Keeper → Keeper) : (setKeeper s f).strips = s.strips := rfl
@[simp] theorem setKeeper_fab (s : State) (f : Keeper → Keeper) : (setKeeper s f).fab = s.fab := rfl
@[simp] theorem setKeeper_keep (s : State) (f : Keeper → Keeper) : (setKeeper s f).keep = f s.keep := rfl
@[simp] theorem setKeeper_host (s : State) (f : Keeper → Keeper) : (setKeeper s f).host = s.host := rfl
@[simp] theorem setKeeper_sreg (s : State) (f : Keeper → Keeper) : (setKeeper s f).sreg = s.sreg := rfl
@[simp] theorem setKeeper_inputs (s : State) (f : Keeper → Keeper) : (setKeeper s f).inputs = s.inputs := rfl
@[simp] theorem setKeeper_arg (s : State) (f : Keeper → Keeper) : (setKeeper s f).arg = s.arg := rfl
@[simp] theorem setKeeper_choice (s : State) (f : Keeper → Keeper) : (setKeeper s f).choice = s.choice := rfl
@[simp] theorem setKeeper_cur (s : State) (f : Keeper → Keeper) : (setKeeper s f).cur = s.cur := rfl

/-! ### setLines -/

@[simp] theorem setLines_mem (s : State) (ls : List CacheLine) : (setLines s ls).mem = s.mem := rfl
@[simp] theorem setLines_strands (s : State) (ls : List CacheLine) : (setLines s ls).strands = s.strands := rfl
@[simp] theorem setLines_nextSid (s : State) (ls : List CacheLine) : (setLines s ls).nextSid = s.nextSid := rfl
@[simp] theorem setLines_braids (s : State) (ls : List CacheLine) : (setLines s ls).braids = s.braids := rfl
@[simp] theorem setLines_nextBid (s : State) (ls : List CacheLine) : (setLines s ls).nextBid = s.nextBid := rfl
@[simp] theorem setLines_ctxs (s : State) (ls : List CacheLine) : (setLines s ls).ctxs = s.ctxs := rfl
@[simp] theorem setLines_trans (s : State) (ls : List CacheLine) : (setLines s ls).trans = s.trans := rfl
@[simp] theorem setLines_vaults (s : State) (ls : List CacheLine) : (setLines s ls).vaults = { s.vaults with lines := ls } := rfl
@[simp] theorem setLines_flight (s : State) (ls : List CacheLine) : (setLines s ls).flight = s.flight := rfl
@[simp] theorem setLines_eng (s : State) (ls : List CacheLine) : (setLines s ls).eng = s.eng := rfl
@[simp] theorem setLines_queues (s : State) (ls : List CacheLine) : (setLines s ls).queues = s.queues := rfl
@[simp] theorem setLines_cmd (s : State) (ls : List CacheLine) : (setLines s ls).cmd = s.cmd := rfl
@[simp] theorem setLines_clk (s : State) (ls : List CacheLine) : (setLines s ls).clk = s.clk := rfl
@[simp] theorem setLines_strips (s : State) (ls : List CacheLine) : (setLines s ls).strips = s.strips := rfl
@[simp] theorem setLines_fab (s : State) (ls : List CacheLine) : (setLines s ls).fab = s.fab := rfl
@[simp] theorem setLines_keep (s : State) (ls : List CacheLine) : (setLines s ls).keep = s.keep := rfl
@[simp] theorem setLines_host (s : State) (ls : List CacheLine) : (setLines s ls).host = s.host := rfl
@[simp] theorem setLines_sreg (s : State) (ls : List CacheLine) : (setLines s ls).sreg = s.sreg := rfl
@[simp] theorem setLines_inputs (s : State) (ls : List CacheLine) : (setLines s ls).inputs = s.inputs := rfl
@[simp] theorem setLines_arg (s : State) (ls : List CacheLine) : (setLines s ls).arg = s.arg := rfl
@[simp] theorem setLines_choice (s : State) (ls : List CacheLine) : (setLines s ls).choice = s.choice := rfl
@[simp] theorem setLines_cur (s : State) (ls : List CacheLine) : (setLines s ls).cur = s.cur := rfl

/-! ### setSreg -/

@[simp] theorem setSreg_mem (s : State) (off : Nat) (v : DWord) : (setSreg s off v).mem = s.mem := rfl
@[simp] theorem setSreg_strands (s : State) (off : Nat) (v : DWord) : (setSreg s off v).strands = s.strands := rfl
@[simp] theorem setSreg_nextSid (s : State) (off : Nat) (v : DWord) : (setSreg s off v).nextSid = s.nextSid := rfl
@[simp] theorem setSreg_braids (s : State) (off : Nat) (v : DWord) : (setSreg s off v).braids = s.braids := rfl
@[simp] theorem setSreg_nextBid (s : State) (off : Nat) (v : DWord) : (setSreg s off v).nextBid = s.nextBid := rfl
@[simp] theorem setSreg_ctxs (s : State) (off : Nat) (v : DWord) : (setSreg s off v).ctxs = s.ctxs := rfl
@[simp] theorem setSreg_trans (s : State) (off : Nat) (v : DWord) : (setSreg s off v).trans = s.trans := rfl
@[simp] theorem setSreg_vaults (s : State) (off : Nat) (v : DWord) : (setSreg s off v).vaults = s.vaults := rfl
@[simp] theorem setSreg_flight (s : State) (off : Nat) (v : DWord) : (setSreg s off v).flight = s.flight := rfl
@[simp] theorem setSreg_eng (s : State) (off : Nat) (v : DWord) : (setSreg s off v).eng = s.eng := rfl
@[simp] theorem setSreg_queues (s : State) (off : Nat) (v : DWord) : (setSreg s off v).queues = s.queues := rfl
@[simp] theorem setSreg_cmd (s : State) (off : Nat) (v : DWord) : (setSreg s off v).cmd = s.cmd := rfl
@[simp] theorem setSreg_clk (s : State) (off : Nat) (v : DWord) : (setSreg s off v).clk = s.clk := rfl
@[simp] theorem setSreg_strips (s : State) (off : Nat) (v : DWord) : (setSreg s off v).strips = s.strips := rfl
@[simp] theorem setSreg_fab (s : State) (off : Nat) (v : DWord) : (setSreg s off v).fab = s.fab := rfl
@[simp] theorem setSreg_keep (s : State) (off : Nat) (v : DWord) : (setSreg s off v).keep = s.keep := rfl
@[simp] theorem setSreg_host (s : State) (off : Nat) (v : DWord) : (setSreg s off v).host = s.host := rfl
@[simp] theorem setSreg_sreg (s : State) (off : Nat) (v : DWord) : (setSreg s off v).sreg = putD 0 s.sreg off v := rfl
@[simp] theorem setSreg_inputs (s : State) (off : Nat) (v : DWord) : (setSreg s off v).inputs = s.inputs := rfl
@[simp] theorem setSreg_arg (s : State) (off : Nat) (v : DWord) : (setSreg s off v).arg = s.arg := rfl
@[simp] theorem setSreg_choice (s : State) (off : Nat) (v : DWord) : (setSreg s off v).choice = s.choice := rfl
@[simp] theorem setSreg_cur (s : State) (off : Nat) (v : DWord) : (setSreg s off v).cur = s.cur := rfl

/-! ### startZero -/

@[simp] theorem startZero_mem (s : State) (z : ZeroJob) : (startZero s z).mem = s.mem := rfl
@[simp] theorem startZero_strands (s : State) (z : ZeroJob) : (startZero s z).strands = s.strands := rfl
@[simp] theorem startZero_nextSid (s : State) (z : ZeroJob) : (startZero s z).nextSid = s.nextSid := rfl
@[simp] theorem startZero_braids (s : State) (z : ZeroJob) : (startZero s z).braids = s.braids := rfl
@[simp] theorem startZero_nextBid (s : State) (z : ZeroJob) : (startZero s z).nextBid = s.nextBid := rfl
@[simp] theorem startZero_ctxs (s : State) (z : ZeroJob) : (startZero s z).ctxs = s.ctxs := rfl
@[simp] theorem startZero_trans (s : State) (z : ZeroJob) : (startZero s z).trans =
    { s.trans with zeroing := s.trans.zeroing ++ [{ z with upto := if z.ctx.isSome then s.flight.nextId else 0 }] } := rfl
@[simp] theorem startZero_vaults (s : State) (z : ZeroJob) : (startZero s z).vaults = s.vaults := rfl
@[simp] theorem startZero_flight (s : State) (z : ZeroJob) : (startZero s z).flight = s.flight := rfl
@[simp] theorem startZero_eng (s : State) (z : ZeroJob) : (startZero s z).eng = s.eng := rfl
@[simp] theorem startZero_queues (s : State) (z : ZeroJob) : (startZero s z).queues = s.queues := rfl
@[simp] theorem startZero_cmd (s : State) (z : ZeroJob) : (startZero s z).cmd = s.cmd := rfl
@[simp] theorem startZero_clk (s : State) (z : ZeroJob) : (startZero s z).clk = s.clk := rfl
@[simp] theorem startZero_strips (s : State) (z : ZeroJob) : (startZero s z).strips = s.strips := rfl
@[simp] theorem startZero_fab (s : State) (z : ZeroJob) : (startZero s z).fab = s.fab := rfl
@[simp] theorem startZero_keep (s : State) (z : ZeroJob) : (startZero s z).keep = s.keep := rfl
@[simp] theorem startZero_host (s : State) (z : ZeroJob) : (startZero s z).host = s.host := rfl
@[simp] theorem startZero_sreg (s : State) (z : ZeroJob) : (startZero s z).sreg = s.sreg := rfl
@[simp] theorem startZero_inputs (s : State) (z : ZeroJob) : (startZero s z).inputs = s.inputs := rfl
@[simp] theorem startZero_arg (s : State) (z : ZeroJob) : (startZero s z).arg = s.arg := rfl
@[simp] theorem startZero_choice (s : State) (z : ZeroJob) : (startZero s z).choice = s.choice := rfl
@[simp] theorem startZero_cur (s : State) (z : ZeroJob) : (startZero s z).cur = s.cur := rfl

/-! ### releaseSystem -/

@[simp] theorem releaseSystem_mem (s : State) (ids : List Nat) : (releaseSystem s ids).mem = s.mem := rfl
@[simp] theorem releaseSystem_strands (s : State) (ids : List Nat) : (releaseSystem s ids).strands = s.strands := rfl
@[simp] theorem releaseSystem_nextSid (s : State) (ids : List Nat) : (releaseSystem s ids).nextSid = s.nextSid := rfl
@[simp] theorem releaseSystem_braids (s : State) (ids : List Nat) : (releaseSystem s ids).braids = s.braids := rfl
@[simp] theorem releaseSystem_nextBid (s : State) (ids : List Nat) : (releaseSystem s ids).nextBid = s.nextBid := rfl
@[simp] theorem releaseSystem_ctxs (s : State) (ids : List Nat) : (releaseSystem s ids).ctxs = s.ctxs := rfl
@[simp] theorem releaseSystem_trans (s : State) (ids : List Nat) : (releaseSystem s ids).trans = s.trans := rfl
@[simp] theorem releaseSystem_vaults (s : State) (ids : List Nat) : (releaseSystem s ids).vaults = s.vaults := rfl
@[simp] theorem releaseSystem_flight (s : State) (ids : List Nat) : (releaseSystem s ids).flight = s.flight := rfl
@[simp] theorem releaseSystem_eng (s : State) (ids : List Nat) : (releaseSystem s ids).eng = s.eng := rfl
@[simp] theorem releaseSystem_queues (s : State) (ids : List Nat) : (releaseSystem s ids).queues = s.queues := rfl
@[simp] theorem releaseSystem_cmd (s : State) (ids : List Nat) : (releaseSystem s ids).cmd = s.cmd := rfl
@[simp] theorem releaseSystem_clk (s : State) (ids : List Nat) : (releaseSystem s ids).clk = s.clk := rfl
@[simp] theorem releaseSystem_strips (s : State) (ids : List Nat) : (releaseSystem s ids).strips = s.strips := rfl
@[simp] theorem releaseSystem_fab (s : State) (ids : List Nat) : (releaseSystem s ids).fab = s.fab := rfl
@[simp] theorem releaseSystem_keep (s : State) (ids : List Nat) : (releaseSystem s ids).keep = s.keep := rfl
@[simp] theorem releaseSystem_sreg (s : State) (ids : List Nat) : (releaseSystem s ids).sreg = s.sreg := rfl
@[simp] theorem releaseSystem_inputs (s : State) (ids : List Nat) : (releaseSystem s ids).inputs = s.inputs := rfl
@[simp] theorem releaseSystem_arg (s : State) (ids : List Nat) : (releaseSystem s ids).arg = s.arg := rfl
@[simp] theorem releaseSystem_choice (s : State) (ids : List Nat) : (releaseSystem s ids).choice = s.choice := rfl
@[simp] theorem releaseSystem_cur (s : State) (ids : List Nat) : (releaseSystem s ids).cur = s.cur := rfl

/-! ### setTrans -/

@[simp] theorem setTrans_mem (s : State) (f : Trans → Trans) : (setTrans s f).mem = s.mem := rfl
@[simp] theorem setTrans_strands (s : State) (f : Trans → Trans) : (setTrans s f).strands = s.strands := rfl
@[simp] theorem setTrans_nextSid (s : State) (f : Trans → Trans) : (setTrans s f).nextSid = s.nextSid := rfl
@[simp] theorem setTrans_braids (s : State) (f : Trans → Trans) : (setTrans s f).braids = s.braids := rfl
@[simp] theorem setTrans_nextBid (s : State) (f : Trans → Trans) : (setTrans s f).nextBid = s.nextBid := rfl
@[simp] theorem setTrans_ctxs (s : State) (f : Trans → Trans) : (setTrans s f).ctxs = s.ctxs := rfl
@[simp] theorem setTrans_trans (s : State) (f : Trans → Trans) : (setTrans s f).trans = f s.trans := rfl
@[simp] theorem setTrans_vaults (s : State) (f : Trans → Trans) : (setTrans s f).vaults = s.vaults := rfl
@[simp] theorem setTrans_flight (s : State) (f : Trans → Trans) : (setTrans s f).flight = s.flight := rfl
@[simp] theorem setTrans_eng (s : State) (f : Trans → Trans) : (setTrans s f).eng = s.eng := rfl
@[simp] theorem setTrans_queues (s : State) (f : Trans → Trans) : (setTrans s f).queues = s.queues := rfl
@[simp] theorem setTrans_cmd (s : State) (f : Trans → Trans) : (setTrans s f).cmd = s.cmd := rfl
@[simp] theorem setTrans_clk (s : State) (f : Trans → Trans) : (setTrans s f).clk = s.clk := rfl
@[simp] theorem setTrans_strips (s : State) (f : Trans → Trans) : (setTrans s f).strips = s.strips := rfl
@[simp] theorem setTrans_fab (s : State) (f : Trans → Trans) : (setTrans s f).fab = s.fab := rfl
@[simp] theorem setTrans_keep (s : State) (f : Trans → Trans) : (setTrans s f).keep = s.keep := rfl
@[simp] theorem setTrans_host (s : State) (f : Trans → Trans) : (setTrans s f).host = s.host := rfl
@[simp] theorem setTrans_sreg (s : State) (f : Trans → Trans) : (setTrans s f).sreg = s.sreg := rfl
@[simp] theorem setTrans_inputs (s : State) (f : Trans → Trans) : (setTrans s f).inputs = s.inputs := rfl
@[simp] theorem setTrans_arg (s : State) (f : Trans → Trans) : (setTrans s f).arg = s.arg := rfl
@[simp] theorem setTrans_choice (s : State) (f : Trans → Trans) : (setTrans s f).choice = s.choice := rfl
@[simp] theorem setTrans_cur (s : State) (f : Trans → Trans) : (setTrans s f).cur = s.cur := rfl

/-! ### setVaults -/

@[simp] theorem setVaults_mem (s : State) (f : Vaults → Vaults) : (setVaults s f).mem = s.mem := rfl
@[simp] theorem setVaults_strands (s : State) (f : Vaults → Vaults) : (setVaults s f).strands = s.strands := rfl
@[simp] theorem setVaults_nextSid (s : State) (f : Vaults → Vaults) : (setVaults s f).nextSid = s.nextSid := rfl
@[simp] theorem setVaults_braids (s : State) (f : Vaults → Vaults) : (setVaults s f).braids = s.braids := rfl
@[simp] theorem setVaults_nextBid (s : State) (f : Vaults → Vaults) : (setVaults s f).nextBid = s.nextBid := rfl
@[simp] theorem setVaults_ctxs (s : State) (f : Vaults → Vaults) : (setVaults s f).ctxs = s.ctxs := rfl
@[simp] theorem setVaults_trans (s : State) (f : Vaults → Vaults) : (setVaults s f).trans = s.trans := rfl
@[simp] theorem setVaults_vaults (s : State) (f : Vaults → Vaults) : (setVaults s f).vaults = f s.vaults := rfl
@[simp] theorem setVaults_flight (s : State) (f : Vaults → Vaults) : (setVaults s f).flight = s.flight := rfl
@[simp] theorem setVaults_eng (s : State) (f : Vaults → Vaults) : (setVaults s f).eng = s.eng := rfl
@[simp] theorem setVaults_queues (s : State) (f : Vaults → Vaults) : (setVaults s f).queues = s.queues := rfl
@[simp] theorem setVaults_cmd (s : State) (f : Vaults → Vaults) : (setVaults s f).cmd = s.cmd := rfl
@[simp] theorem setVaults_clk (s : State) (f : Vaults → Vaults) : (setVaults s f).clk = s.clk := rfl
@[simp] theorem setVaults_strips (s : State) (f : Vaults → Vaults) : (setVaults s f).strips = s.strips := rfl
@[simp] theorem setVaults_fab (s : State) (f : Vaults → Vaults) : (setVaults s f).fab = s.fab := rfl
@[simp] theorem setVaults_keep (s : State) (f : Vaults → Vaults) : (setVaults s f).keep = s.keep := rfl
@[simp] theorem setVaults_host (s : State) (f : Vaults → Vaults) : (setVaults s f).host = s.host := rfl
@[simp] theorem setVaults_sreg (s : State) (f : Vaults → Vaults) : (setVaults s f).sreg = s.sreg := rfl
@[simp] theorem setVaults_inputs (s : State) (f : Vaults → Vaults) : (setVaults s f).inputs = s.inputs := rfl
@[simp] theorem setVaults_arg (s : State) (f : Vaults → Vaults) : (setVaults s f).arg = s.arg := rfl
@[simp] theorem setVaults_choice (s : State) (f : Vaults → Vaults) : (setVaults s f).choice = s.choice := rfl
@[simp] theorem setVaults_cur (s : State) (f : Vaults → Vaults) : (setVaults s f).cur = s.cur := rfl

/-! ### setEvr -/

@[simp] theorem setEvr_mem (s : State) (f : EvRing → EvRing) : (setEvr s f).mem = s.mem := rfl
@[simp] theorem setEvr_strands (s : State) (f : EvRing → EvRing) : (setEvr s f).strands = s.strands := rfl
@[simp] theorem setEvr_nextSid (s : State) (f : EvRing → EvRing) : (setEvr s f).nextSid = s.nextSid := rfl
@[simp] theorem setEvr_braids (s : State) (f : EvRing → EvRing) : (setEvr s f).braids = s.braids := rfl
@[simp] theorem setEvr_nextBid (s : State) (f : EvRing → EvRing) : (setEvr s f).nextBid = s.nextBid := rfl
@[simp] theorem setEvr_ctxs (s : State) (f : EvRing → EvRing) : (setEvr s f).ctxs = s.ctxs := rfl
@[simp] theorem setEvr_trans (s : State) (f : EvRing → EvRing) : (setEvr s f).trans = s.trans := rfl
@[simp] theorem setEvr_vaults (s : State) (f : EvRing → EvRing) : (setEvr s f).vaults = s.vaults := rfl
@[simp] theorem setEvr_flight (s : State) (f : EvRing → EvRing) : (setEvr s f).flight = s.flight := rfl
@[simp] theorem setEvr_eng (s : State) (f : EvRing → EvRing) : (setEvr s f).eng = s.eng := rfl
@[simp] theorem setEvr_queues (s : State) (f : EvRing → EvRing) : (setEvr s f).queues = s.queues := rfl
@[simp] theorem setEvr_cmd (s : State) (f : EvRing → EvRing) : (setEvr s f).cmd = { s.cmd with evr := f s.cmd.evr } := rfl
@[simp] theorem setEvr_clk (s : State) (f : EvRing → EvRing) : (setEvr s f).clk = s.clk := rfl
@[simp] theorem setEvr_strips (s : State) (f : EvRing → EvRing) : (setEvr s f).strips = s.strips := rfl
@[simp] theorem setEvr_fab (s : State) (f : EvRing → EvRing) : (setEvr s f).fab = s.fab := rfl
@[simp] theorem setEvr_keep (s : State) (f : EvRing → EvRing) : (setEvr s f).keep = s.keep := rfl
@[simp] theorem setEvr_host (s : State) (f : EvRing → EvRing) : (setEvr s f).host = s.host := rfl
@[simp] theorem setEvr_sreg (s : State) (f : EvRing → EvRing) : (setEvr s f).sreg = s.sreg := rfl
@[simp] theorem setEvr_inputs (s : State) (f : EvRing → EvRing) : (setEvr s f).inputs = s.inputs := rfl
@[simp] theorem setEvr_arg (s : State) (f : EvRing → EvRing) : (setEvr s f).arg = s.arg := rfl
@[simp] theorem setEvr_choice (s : State) (f : EvRing → EvRing) : (setEvr s f).choice = s.choice := rfl
@[simp] theorem setEvr_cur (s : State) (f : EvRing → EvRing) : (setEvr s f).cur = s.cur := rfl

/-! ### setClk -/

@[simp] theorem setClk_mem (s : State) (f : Clock → Clock) : (setClk s f).mem = s.mem := rfl
@[simp] theorem setClk_strands (s : State) (f : Clock → Clock) : (setClk s f).strands = s.strands := rfl
@[simp] theorem setClk_nextSid (s : State) (f : Clock → Clock) : (setClk s f).nextSid = s.nextSid := rfl
@[simp] theorem setClk_braids (s : State) (f : Clock → Clock) : (setClk s f).braids = s.braids := rfl
@[simp] theorem setClk_nextBid (s : State) (f : Clock → Clock) : (setClk s f).nextBid = s.nextBid := rfl
@[simp] theorem setClk_ctxs (s : State) (f : Clock → Clock) : (setClk s f).ctxs = s.ctxs := rfl
@[simp] theorem setClk_trans (s : State) (f : Clock → Clock) : (setClk s f).trans = s.trans := rfl
@[simp] theorem setClk_vaults (s : State) (f : Clock → Clock) : (setClk s f).vaults = s.vaults := rfl
@[simp] theorem setClk_flight (s : State) (f : Clock → Clock) : (setClk s f).flight = s.flight := rfl
@[simp] theorem setClk_eng (s : State) (f : Clock → Clock) : (setClk s f).eng = s.eng := rfl
@[simp] theorem setClk_queues (s : State) (f : Clock → Clock) : (setClk s f).queues = s.queues := rfl
@[simp] theorem setClk_cmd (s : State) (f : Clock → Clock) : (setClk s f).cmd = s.cmd := rfl
@[simp] theorem setClk_clk (s : State) (f : Clock → Clock) : (setClk s f).clk = f s.clk := rfl
@[simp] theorem setClk_strips (s : State) (f : Clock → Clock) : (setClk s f).strips = s.strips := rfl
@[simp] theorem setClk_fab (s : State) (f : Clock → Clock) : (setClk s f).fab = s.fab := rfl
@[simp] theorem setClk_keep (s : State) (f : Clock → Clock) : (setClk s f).keep = s.keep := rfl
@[simp] theorem setClk_host (s : State) (f : Clock → Clock) : (setClk s f).host = s.host := rfl
@[simp] theorem setClk_sreg (s : State) (f : Clock → Clock) : (setClk s f).sreg = s.sreg := rfl
@[simp] theorem setClk_inputs (s : State) (f : Clock → Clock) : (setClk s f).inputs = s.inputs := rfl
@[simp] theorem setClk_arg (s : State) (f : Clock → Clock) : (setClk s f).arg = s.arg := rfl
@[simp] theorem setClk_choice (s : State) (f : Clock → Clock) : (setClk s f).choice = s.choice := rfl
@[simp] theorem setClk_cur (s : State) (f : Clock → Clock) : (setClk s f).cur = s.cur := rfl

/-! ### countUp -/

@[simp] theorem countUp_mem (s : State) (idx : Nat) : (countUp s idx).mem = s.mem := rfl
@[simp] theorem countUp_strands (s : State) (idx : Nat) : (countUp s idx).strands = s.strands := rfl
@[simp] theorem countUp_nextSid (s : State) (idx : Nat) : (countUp s idx).nextSid = s.nextSid := rfl
@[simp] theorem countUp_braids (s : State) (idx : Nat) : (countUp s idx).braids = s.braids := rfl
@[simp] theorem countUp_nextBid (s : State) (idx : Nat) : (countUp s idx).nextBid = s.nextBid := rfl
@[simp] theorem countUp_ctxs (s : State) (idx : Nat) : (countUp s idx).ctxs = s.ctxs := rfl
@[simp] theorem countUp_trans (s : State) (idx : Nat) : (countUp s idx).trans = s.trans := rfl
@[simp] theorem countUp_vaults (s : State) (idx : Nat) : (countUp s idx).vaults = s.vaults := rfl
@[simp] theorem countUp_flight (s : State) (idx : Nat) : (countUp s idx).flight = s.flight := rfl
@[simp] theorem countUp_eng (s : State) (idx : Nat) : (countUp s idx).eng = s.eng := rfl
@[simp] theorem countUp_queues (s : State) (idx : Nat) : (countUp s idx).queues = s.queues := rfl
@[simp] theorem countUp_cmd (s : State) (idx : Nat) : (countUp s idx).cmd = s.cmd := rfl
@[simp] theorem countUp_clk (s : State) (idx : Nat) : (countUp s idx).clk = s.clk := rfl
@[simp] theorem countUp_strips (s : State) (idx : Nat) : (countUp s idx).strips = s.strips := rfl
@[simp] theorem countUp_fab (s : State) (idx : Nat) : (countUp s idx).fab = s.fab := rfl
@[simp] theorem countUp_host (s : State) (idx : Nat) : (countUp s idx).host = s.host := rfl
@[simp] theorem countUp_sreg (s : State) (idx : Nat) : (countUp s idx).sreg = s.sreg := rfl
@[simp] theorem countUp_inputs (s : State) (idx : Nat) : (countUp s idx).inputs = s.inputs := rfl
@[simp] theorem countUp_arg (s : State) (idx : Nat) : (countUp s idx).arg = s.arg := rfl
@[simp] theorem countUp_choice (s : State) (idx : Nat) : (countUp s idx).choice = s.choice := rfl
@[simp] theorem countUp_cur (s : State) (idx : Nat) : (countUp s idx).cur = s.cur := rfl

/-! ### setMq -/

@[simp] theorem setMq_mem (s : State) (core : Nat) (q : List MEntry) : (setMq s core q).mem = s.mem := rfl
@[simp] theorem setMq_strands (s : State) (core : Nat) (q : List MEntry) : (setMq s core q).strands = s.strands := rfl
@[simp] theorem setMq_nextSid (s : State) (core : Nat) (q : List MEntry) : (setMq s core q).nextSid = s.nextSid := rfl
@[simp] theorem setMq_braids (s : State) (core : Nat) (q : List MEntry) : (setMq s core q).braids = s.braids := rfl
@[simp] theorem setMq_nextBid (s : State) (core : Nat) (q : List MEntry) : (setMq s core q).nextBid = s.nextBid := rfl
@[simp] theorem setMq_ctxs (s : State) (core : Nat) (q : List MEntry) : (setMq s core q).ctxs = s.ctxs := rfl
@[simp] theorem setMq_trans (s : State) (core : Nat) (q : List MEntry) : (setMq s core q).trans = s.trans := rfl
@[simp] theorem setMq_vaults (s : State) (core : Nat) (q : List MEntry) : (setMq s core q).vaults = s.vaults := rfl
@[simp] theorem setMq_flight (s : State) (core : Nat) (q : List MEntry) : (setMq s core q).flight = s.flight := rfl
@[simp] theorem setMq_eng (s : State) (core : Nat) (q : List MEntry) : (setMq s core q).eng = { s.eng with mq := putD [] s.eng.mq core q } := rfl
@[simp] theorem setMq_queues (s : State) (core : Nat) (q : List MEntry) : (setMq s core q).queues = s.queues := rfl
@[simp] theorem setMq_cmd (s : State) (core : Nat) (q : List MEntry) : (setMq s core q).cmd = s.cmd := rfl
@[simp] theorem setMq_clk (s : State) (core : Nat) (q : List MEntry) : (setMq s core q).clk = s.clk := rfl
@[simp] theorem setMq_strips (s : State) (core : Nat) (q : List MEntry) : (setMq s core q).strips = s.strips := rfl
@[simp] theorem setMq_fab (s : State) (core : Nat) (q : List MEntry) : (setMq s core q).fab = s.fab := rfl
@[simp] theorem setMq_keep (s : State) (core : Nat) (q : List MEntry) : (setMq s core q).keep = s.keep := rfl
@[simp] theorem setMq_host (s : State) (core : Nat) (q : List MEntry) : (setMq s core q).host = s.host := rfl
@[simp] theorem setMq_sreg (s : State) (core : Nat) (q : List MEntry) : (setMq s core q).sreg = s.sreg := rfl
@[simp] theorem setMq_inputs (s : State) (core : Nat) (q : List MEntry) : (setMq s core q).inputs = s.inputs := rfl
@[simp] theorem setMq_arg (s : State) (core : Nat) (q : List MEntry) : (setMq s core q).arg = s.arg := rfl
@[simp] theorem setMq_choice (s : State) (core : Nat) (q : List MEntry) : (setMq s core q).choice = s.choice := rfl
@[simp] theorem setMq_cur (s : State) (core : Nat) (q : List MEntry) : (setMq s core q).cur = s.cur := rfl

/-! ### setWaiting -/

@[simp] theorem setWaiting_mem (s : State) (core : Nat) (es : List MEntry) : (setWaiting s core es).mem = s.mem := rfl
@[simp] theorem setWaiting_strands (s : State) (core : Nat) (es : List MEntry) : (setWaiting s core es).strands = s.strands := rfl
@[simp] theorem setWaiting_nextSid (s : State) (core : Nat) (es : List MEntry) : (setWaiting s core es).nextSid = s.nextSid := rfl
@[simp] theorem setWaiting_braids (s : State) (core : Nat) (es : List MEntry) : (setWaiting s core es).braids = s.braids := rfl
@[simp] theorem setWaiting_nextBid (s : State) (core : Nat) (es : List MEntry) : (setWaiting s core es).nextBid = s.nextBid := rfl
@[simp] theorem setWaiting_ctxs (s : State) (core : Nat) (es : List MEntry) : (setWaiting s core es).ctxs = s.ctxs := rfl
@[simp] theorem setWaiting_trans (s : State) (core : Nat) (es : List MEntry) : (setWaiting s core es).trans = s.trans := rfl
@[simp] theorem setWaiting_vaults (s : State) (core : Nat) (es : List MEntry) : (setWaiting s core es).vaults = s.vaults := rfl
@[simp] theorem setWaiting_flight (s : State) (core : Nat) (es : List MEntry) : (setWaiting s core es).flight = s.flight := rfl
@[simp] theorem setWaiting_eng (s : State) (core : Nat) (es : List MEntry) : (setWaiting s core es).eng = { s.eng with waiting := (s.eng.waiting.filter fun e => e.1 != core) ++ es.map fun e => (core, e) } := rfl
@[simp] theorem setWaiting_queues (s : State) (core : Nat) (es : List MEntry) : (setWaiting s core es).queues = s.queues := rfl
@[simp] theorem setWaiting_cmd (s : State) (core : Nat) (es : List MEntry) : (setWaiting s core es).cmd = s.cmd := rfl
@[simp] theorem setWaiting_clk (s : State) (core : Nat) (es : List MEntry) : (setWaiting s core es).clk = s.clk := rfl
@[simp] theorem setWaiting_strips (s : State) (core : Nat) (es : List MEntry) : (setWaiting s core es).strips = s.strips := rfl
@[simp] theorem setWaiting_fab (s : State) (core : Nat) (es : List MEntry) : (setWaiting s core es).fab = s.fab := rfl
@[simp] theorem setWaiting_keep (s : State) (core : Nat) (es : List MEntry) : (setWaiting s core es).keep = s.keep := rfl
@[simp] theorem setWaiting_host (s : State) (core : Nat) (es : List MEntry) : (setWaiting s core es).host = s.host := rfl
@[simp] theorem setWaiting_sreg (s : State) (core : Nat) (es : List MEntry) : (setWaiting s core es).sreg = s.sreg := rfl
@[simp] theorem setWaiting_inputs (s : State) (core : Nat) (es : List MEntry) : (setWaiting s core es).inputs = s.inputs := rfl
@[simp] theorem setWaiting_arg (s : State) (core : Nat) (es : List MEntry) : (setWaiting s core es).arg = s.arg := rfl
@[simp] theorem setWaiting_choice (s : State) (core : Nat) (es : List MEntry) : (setWaiting s core es).choice = s.choice := rfl
@[simp] theorem setWaiting_cur (s : State) (core : Nat) (es : List MEntry) : (setWaiting s core es).cur = s.cur := rfl

/-- The records that wait at a core are those that were put there. -/
@[simp] theorem waitingAt_setWaiting (s : State) (core : Nat) (es : List MEntry) : waitingAt (setWaiting s core es) core = es := by
  have h : ∀ e ∈ es.map fun e => (core, e), (e.1 == core) = true := by simp
  have h0 : ∀ e ∈ s.eng.waiting, ¬(e.1 == core && e.1 != core) = true := by simp
  simp [waitingAt, List.filter_filter, List.filter_eq_self.mpr h, List.filter_eq_nil_iff.mpr h0, Function.comp_def]

/-! ### setEntry -/

@[simp] theorem setEntry_mem (s : State) (core seq : Nat) (f : MEntry → MEntry) : (setEntry s core seq f).mem = s.mem := rfl
@[simp] theorem setEntry_strands (s : State) (core seq : Nat) (f : MEntry → MEntry) : (setEntry s core seq f).strands = s.strands := rfl
@[simp] theorem setEntry_nextSid (s : State) (core seq : Nat) (f : MEntry → MEntry) : (setEntry s core seq f).nextSid = s.nextSid := rfl
@[simp] theorem setEntry_braids (s : State) (core seq : Nat) (f : MEntry → MEntry) : (setEntry s core seq f).braids = s.braids := rfl
@[simp] theorem setEntry_nextBid (s : State) (core seq : Nat) (f : MEntry → MEntry) : (setEntry s core seq f).nextBid = s.nextBid := rfl
@[simp] theorem setEntry_ctxs (s : State) (core seq : Nat) (f : MEntry → MEntry) : (setEntry s core seq f).ctxs = s.ctxs := rfl
@[simp] theorem setEntry_trans (s : State) (core seq : Nat) (f : MEntry → MEntry) : (setEntry s core seq f).trans = s.trans := rfl
@[simp] theorem setEntry_vaults (s : State) (core seq : Nat) (f : MEntry → MEntry) : (setEntry s core seq f).vaults = s.vaults := rfl
@[simp] theorem setEntry_flight (s : State) (core seq : Nat) (f : MEntry → MEntry) : (setEntry s core seq f).flight = s.flight := rfl
@[simp] theorem setEntry_queues (s : State) (core seq : Nat) (f : MEntry → MEntry) : (setEntry s core seq f).queues = s.queues := rfl
@[simp] theorem setEntry_cmd (s : State) (core seq : Nat) (f : MEntry → MEntry) : (setEntry s core seq f).cmd = s.cmd := rfl
@[simp] theorem setEntry_clk (s : State) (core seq : Nat) (f : MEntry → MEntry) : (setEntry s core seq f).clk = s.clk := rfl
@[simp] theorem setEntry_strips (s : State) (core seq : Nat) (f : MEntry → MEntry) : (setEntry s core seq f).strips = s.strips := rfl
@[simp] theorem setEntry_fab (s : State) (core seq : Nat) (f : MEntry → MEntry) : (setEntry s core seq f).fab = s.fab := rfl
@[simp] theorem setEntry_keep (s : State) (core seq : Nat) (f : MEntry → MEntry) : (setEntry s core seq f).keep = s.keep := rfl
@[simp] theorem setEntry_host (s : State) (core seq : Nat) (f : MEntry → MEntry) : (setEntry s core seq f).host = s.host := rfl
@[simp] theorem setEntry_sreg (s : State) (core seq : Nat) (f : MEntry → MEntry) : (setEntry s core seq f).sreg = s.sreg := rfl
@[simp] theorem setEntry_inputs (s : State) (core seq : Nat) (f : MEntry → MEntry) : (setEntry s core seq f).inputs = s.inputs := rfl
@[simp] theorem setEntry_arg (s : State) (core seq : Nat) (f : MEntry → MEntry) : (setEntry s core seq f).arg = s.arg := rfl
@[simp] theorem setEntry_choice (s : State) (core seq : Nat) (f : MEntry → MEntry) : (setEntry s core seq f).choice = s.choice := rfl
@[simp] theorem setEntry_cur (s : State) (core seq : Nat) (f : MEntry → MEntry) : (setEntry s core seq f).cur = s.cur := rfl

/-! ### mapTile -/

@[simp] theorem mapTile_mem (s : State) (t : Nat) (f : Nat → Chains → Chains) : (mapTile s t f).mem = s.mem := rfl
@[simp] theorem mapTile_strands (s : State) (t : Nat) (f : Nat → Chains → Chains) : (mapTile s t f).strands = s.strands := rfl
@[simp] theorem mapTile_nextSid (s : State) (t : Nat) (f : Nat → Chains → Chains) : (mapTile s t f).nextSid = s.nextSid := rfl
@[simp] theorem mapTile_braids (s : State) (t : Nat) (f : Nat → Chains → Chains) : (mapTile s t f).braids = s.braids := rfl
@[simp] theorem mapTile_nextBid (s : State) (t : Nat) (f : Nat → Chains → Chains) : (mapTile s t f).nextBid = s.nextBid := rfl
@[simp] theorem mapTile_ctxs (s : State) (t : Nat) (f : Nat → Chains → Chains) : (mapTile s t f).ctxs = s.ctxs := rfl
@[simp] theorem mapTile_trans (s : State) (t : Nat) (f : Nat → Chains → Chains) : (mapTile s t f).trans = s.trans := rfl
@[simp] theorem mapTile_vaults (s : State) (t : Nat) (f : Nat → Chains → Chains) : (mapTile s t f).vaults = s.vaults := rfl
@[simp] theorem mapTile_flight (s : State) (t : Nat) (f : Nat → Chains → Chains) : (mapTile s t f).flight = s.flight := rfl
@[simp] theorem mapTile_queues (s : State) (t : Nat) (f : Nat → Chains → Chains) : (mapTile s t f).queues = s.queues := rfl
@[simp] theorem mapTile_cmd (s : State) (t : Nat) (f : Nat → Chains → Chains) : (mapTile s t f).cmd = s.cmd := rfl
@[simp] theorem mapTile_clk (s : State) (t : Nat) (f : Nat → Chains → Chains) : (mapTile s t f).clk = s.clk := rfl
@[simp] theorem mapTile_strips (s : State) (t : Nat) (f : Nat → Chains → Chains) : (mapTile s t f).strips = s.strips := rfl
@[simp] theorem mapTile_fab (s : State) (t : Nat) (f : Nat → Chains → Chains) : (mapTile s t f).fab = s.fab := rfl
@[simp] theorem mapTile_keep (s : State) (t : Nat) (f : Nat → Chains → Chains) : (mapTile s t f).keep = s.keep := rfl
@[simp] theorem mapTile_host (s : State) (t : Nat) (f : Nat → Chains → Chains) : (mapTile s t f).host = s.host := rfl
@[simp] theorem mapTile_sreg (s : State) (t : Nat) (f : Nat → Chains → Chains) : (mapTile s t f).sreg = s.sreg := rfl
@[simp] theorem mapTile_inputs (s : State) (t : Nat) (f : Nat → Chains → Chains) : (mapTile s t f).inputs = s.inputs := rfl
@[simp] theorem mapTile_arg (s : State) (t : Nat) (f : Nat → Chains → Chains) : (mapTile s t f).arg = s.arg := rfl
@[simp] theorem mapTile_choice (s : State) (t : Nat) (f : Nat → Chains → Chains) : (mapTile s t f).choice = s.choice := rfl
@[simp] theorem mapTile_cur (s : State) (t : Nat) (f : Nat → Chains → Chains) : (mapTile s t f).cur = s.cur := rfl

/-! ### setCopy -/

@[simp] theorem setCopy_mem (s : State) (id : Nat) (f : CopyCmd → CopyCmd) : (setCopy s id f).mem = s.mem := rfl
@[simp] theorem setCopy_strands (s : State) (id : Nat) (f : CopyCmd → CopyCmd) : (setCopy s id f).strands = s.strands := rfl
@[simp] theorem setCopy_nextSid (s : State) (id : Nat) (f : CopyCmd → CopyCmd) : (setCopy s id f).nextSid = s.nextSid := rfl
@[simp] theorem setCopy_braids (s : State) (id : Nat) (f : CopyCmd → CopyCmd) : (setCopy s id f).braids = s.braids := rfl
@[simp] theorem setCopy_nextBid (s : State) (id : Nat) (f : CopyCmd → CopyCmd) : (setCopy s id f).nextBid = s.nextBid := rfl
@[simp] theorem setCopy_ctxs (s : State) (id : Nat) (f : CopyCmd → CopyCmd) : (setCopy s id f).ctxs = s.ctxs := rfl
@[simp] theorem setCopy_trans (s : State) (id : Nat) (f : CopyCmd → CopyCmd) : (setCopy s id f).trans = s.trans := rfl
@[simp] theorem setCopy_vaults (s : State) (id : Nat) (f : CopyCmd → CopyCmd) : (setCopy s id f).vaults = s.vaults := rfl
@[simp] theorem setCopy_flight (s : State) (id : Nat) (f : CopyCmd → CopyCmd) : (setCopy s id f).flight = s.flight := rfl
@[simp] theorem setCopy_eng (s : State) (id : Nat) (f : CopyCmd → CopyCmd) : (setCopy s id f).eng = { s.eng with copies := mapWhere (fun x => x.id == id) f s.eng.copies } := rfl
@[simp] theorem setCopy_queues (s : State) (id : Nat) (f : CopyCmd → CopyCmd) : (setCopy s id f).queues = s.queues := rfl
@[simp] theorem setCopy_cmd (s : State) (id : Nat) (f : CopyCmd → CopyCmd) : (setCopy s id f).cmd = s.cmd := rfl
@[simp] theorem setCopy_clk (s : State) (id : Nat) (f : CopyCmd → CopyCmd) : (setCopy s id f).clk = s.clk := rfl
@[simp] theorem setCopy_strips (s : State) (id : Nat) (f : CopyCmd → CopyCmd) : (setCopy s id f).strips = s.strips := rfl
@[simp] theorem setCopy_fab (s : State) (id : Nat) (f : CopyCmd → CopyCmd) : (setCopy s id f).fab = s.fab := rfl
@[simp] theorem setCopy_keep (s : State) (id : Nat) (f : CopyCmd → CopyCmd) : (setCopy s id f).keep = s.keep := rfl
@[simp] theorem setCopy_host (s : State) (id : Nat) (f : CopyCmd → CopyCmd) : (setCopy s id f).host = s.host := rfl
@[simp] theorem setCopy_sreg (s : State) (id : Nat) (f : CopyCmd → CopyCmd) : (setCopy s id f).sreg = s.sreg := rfl
@[simp] theorem setCopy_inputs (s : State) (id : Nat) (f : CopyCmd → CopyCmd) : (setCopy s id f).inputs = s.inputs := rfl
@[simp] theorem setCopy_arg (s : State) (id : Nat) (f : CopyCmd → CopyCmd) : (setCopy s id f).arg = s.arg := rfl
@[simp] theorem setCopy_choice (s : State) (id : Nat) (f : CopyCmd → CopyCmd) : (setCopy s id f).choice = s.choice := rfl
@[simp] theorem setCopy_cur (s : State) (id : Nat) (f : CopyCmd → CopyCmd) : (setCopy s id f).cur = s.cur := rfl

/-! ### setPin -/

@[simp] theorem setPin_mem (s : State) (h : Word) (f : PinCmd → PinCmd) : (setPin s h f).mem = s.mem := rfl
@[simp] theorem setPin_strands (s : State) (h : Word) (f : PinCmd → PinCmd) : (setPin s h f).strands = s.strands := rfl
@[simp] theorem setPin_nextSid (s : State) (h : Word) (f : PinCmd → PinCmd) : (setPin s h f).nextSid = s.nextSid := rfl
@[simp] theorem setPin_braids (s : State) (h : Word) (f : PinCmd → PinCmd) : (setPin s h f).braids = s.braids := rfl
@[simp] theorem setPin_nextBid (s : State) (h : Word) (f : PinCmd → PinCmd) : (setPin s h f).nextBid = s.nextBid := rfl
@[simp] theorem setPin_ctxs (s : State) (h : Word) (f : PinCmd → PinCmd) : (setPin s h f).ctxs = s.ctxs := rfl
@[simp] theorem setPin_trans (s : State) (h : Word) (f : PinCmd → PinCmd) : (setPin s h f).trans = s.trans := rfl
@[simp] theorem setPin_vaults (s : State) (h : Word) (f : PinCmd → PinCmd) : (setPin s h f).vaults = s.vaults := rfl
@[simp] theorem setPin_flight (s : State) (h : Word) (f : PinCmd → PinCmd) : (setPin s h f).flight = s.flight := rfl
@[simp] theorem setPin_eng (s : State) (h : Word) (f : PinCmd → PinCmd) : (setPin s h f).eng = { s.eng with pins := mapWhere (fun x => x.handle == h) f s.eng.pins } := rfl
@[simp] theorem setPin_queues (s : State) (h : Word) (f : PinCmd → PinCmd) : (setPin s h f).queues = s.queues := rfl
@[simp] theorem setPin_cmd (s : State) (h : Word) (f : PinCmd → PinCmd) : (setPin s h f).cmd = s.cmd := rfl
@[simp] theorem setPin_clk (s : State) (h : Word) (f : PinCmd → PinCmd) : (setPin s h f).clk = s.clk := rfl
@[simp] theorem setPin_strips (s : State) (h : Word) (f : PinCmd → PinCmd) : (setPin s h f).strips = s.strips := rfl
@[simp] theorem setPin_fab (s : State) (h : Word) (f : PinCmd → PinCmd) : (setPin s h f).fab = s.fab := rfl
@[simp] theorem setPin_keep (s : State) (h : Word) (f : PinCmd → PinCmd) : (setPin s h f).keep = s.keep := rfl
@[simp] theorem setPin_host (s : State) (h : Word) (f : PinCmd → PinCmd) : (setPin s h f).host = s.host := rfl
@[simp] theorem setPin_sreg (s : State) (h : Word) (f : PinCmd → PinCmd) : (setPin s h f).sreg = s.sreg := rfl
@[simp] theorem setPin_inputs (s : State) (h : Word) (f : PinCmd → PinCmd) : (setPin s h f).inputs = s.inputs := rfl
@[simp] theorem setPin_arg (s : State) (h : Word) (f : PinCmd → PinCmd) : (setPin s h f).arg = s.arg := rfl
@[simp] theorem setPin_choice (s : State) (h : Word) (f : PinCmd → PinCmd) : (setPin s h f).choice = s.choice := rfl
@[simp] theorem setPin_cur (s : State) (h : Word) (f : PinCmd → PinCmd) : (setPin s h f).cur = s.cur := rfl

/-! ### setLink -/

@[simp] theorem setLink_mem (s : State) (p : Nat) (f : Link → Link) : (setLink s p f).mem = s.mem := rfl
@[simp] theorem setLink_strands (s : State) (p : Nat) (f : Link → Link) : (setLink s p f).strands = s.strands := rfl
@[simp] theorem setLink_nextSid (s : State) (p : Nat) (f : Link → Link) : (setLink s p f).nextSid = s.nextSid := rfl
@[simp] theorem setLink_braids (s : State) (p : Nat) (f : Link → Link) : (setLink s p f).braids = s.braids := rfl
@[simp] theorem setLink_nextBid (s : State) (p : Nat) (f : Link → Link) : (setLink s p f).nextBid = s.nextBid := rfl
@[simp] theorem setLink_ctxs (s : State) (p : Nat) (f : Link → Link) : (setLink s p f).ctxs = s.ctxs := rfl
@[simp] theorem setLink_trans (s : State) (p : Nat) (f : Link → Link) : (setLink s p f).trans = s.trans := rfl
@[simp] theorem setLink_vaults (s : State) (p : Nat) (f : Link → Link) : (setLink s p f).vaults = s.vaults := rfl
@[simp] theorem setLink_flight (s : State) (p : Nat) (f : Link → Link) : (setLink s p f).flight = s.flight := rfl
@[simp] theorem setLink_eng (s : State) (p : Nat) (f : Link → Link) : (setLink s p f).eng = s.eng := rfl
@[simp] theorem setLink_queues (s : State) (p : Nat) (f : Link → Link) : (setLink s p f).queues = s.queues := rfl
@[simp] theorem setLink_cmd (s : State) (p : Nat) (f : Link → Link) : (setLink s p f).cmd = s.cmd := rfl
@[simp] theorem setLink_clk (s : State) (p : Nat) (f : Link → Link) : (setLink s p f).clk = s.clk := rfl
@[simp] theorem setLink_strips (s : State) (p : Nat) (f : Link → Link) : (setLink s p f).strips = s.strips := rfl
@[simp] theorem setLink_fab (s : State) (p : Nat) (f : Link → Link) : (setLink s p f).fab = { s.fab with ports := put s.fab.ports p (f (lookD s.fab.ports p {})) } := rfl
@[simp] theorem setLink_keep (s : State) (p : Nat) (f : Link → Link) : (setLink s p f).keep = s.keep := rfl
@[simp] theorem setLink_host (s : State) (p : Nat) (f : Link → Link) : (setLink s p f).host = s.host := rfl
@[simp] theorem setLink_sreg (s : State) (p : Nat) (f : Link → Link) : (setLink s p f).sreg = s.sreg := rfl
@[simp] theorem setLink_inputs (s : State) (p : Nat) (f : Link → Link) : (setLink s p f).inputs = s.inputs := rfl
@[simp] theorem setLink_arg (s : State) (p : Nat) (f : Link → Link) : (setLink s p f).arg = s.arg := rfl
@[simp] theorem setLink_choice (s : State) (p : Nat) (f : Link → Link) : (setLink s p f).choice = s.choice := rfl
@[simp] theorem setLink_cur (s : State) (p : Nat) (f : Link → Link) : (setLink s p f).cur = s.cur := rfl

/-! ### setLinkCmd -/

@[simp] theorem setLinkCmd_mem (s : State) (h : Word) (f : LinkCmd → LinkCmd) : (setLinkCmd s h f).mem = s.mem := rfl
@[simp] theorem setLinkCmd_strands (s : State) (h : Word) (f : LinkCmd → LinkCmd) : (setLinkCmd s h f).strands = s.strands := rfl
@[simp] theorem setLinkCmd_nextSid (s : State) (h : Word) (f : LinkCmd → LinkCmd) : (setLinkCmd s h f).nextSid = s.nextSid := rfl
@[simp] theorem setLinkCmd_braids (s : State) (h : Word) (f : LinkCmd → LinkCmd) : (setLinkCmd s h f).braids = s.braids := rfl
@[simp] theorem setLinkCmd_nextBid (s : State) (h : Word) (f : LinkCmd → LinkCmd) : (setLinkCmd s h f).nextBid = s.nextBid := rfl
@[simp] theorem setLinkCmd_ctxs (s : State) (h : Word) (f : LinkCmd → LinkCmd) : (setLinkCmd s h f).ctxs = s.ctxs := rfl
@[simp] theorem setLinkCmd_trans (s : State) (h : Word) (f : LinkCmd → LinkCmd) : (setLinkCmd s h f).trans = s.trans := rfl
@[simp] theorem setLinkCmd_vaults (s : State) (h : Word) (f : LinkCmd → LinkCmd) : (setLinkCmd s h f).vaults = s.vaults := rfl
@[simp] theorem setLinkCmd_flight (s : State) (h : Word) (f : LinkCmd → LinkCmd) : (setLinkCmd s h f).flight = s.flight := rfl
@[simp] theorem setLinkCmd_eng (s : State) (h : Word) (f : LinkCmd → LinkCmd) : (setLinkCmd s h f).eng = { s.eng with links := mapWhere (fun x => x.handle == h) f s.eng.links } := rfl
@[simp] theorem setLinkCmd_queues (s : State) (h : Word) (f : LinkCmd → LinkCmd) : (setLinkCmd s h f).queues = s.queues := rfl
@[simp] theorem setLinkCmd_cmd (s : State) (h : Word) (f : LinkCmd → LinkCmd) : (setLinkCmd s h f).cmd = s.cmd := rfl
@[simp] theorem setLinkCmd_clk (s : State) (h : Word) (f : LinkCmd → LinkCmd) : (setLinkCmd s h f).clk = s.clk := rfl
@[simp] theorem setLinkCmd_strips (s : State) (h : Word) (f : LinkCmd → LinkCmd) : (setLinkCmd s h f).strips = s.strips := rfl
@[simp] theorem setLinkCmd_fab (s : State) (h : Word) (f : LinkCmd → LinkCmd) : (setLinkCmd s h f).fab = s.fab := rfl
@[simp] theorem setLinkCmd_keep (s : State) (h : Word) (f : LinkCmd → LinkCmd) : (setLinkCmd s h f).keep = s.keep := rfl
@[simp] theorem setLinkCmd_host (s : State) (h : Word) (f : LinkCmd → LinkCmd) : (setLinkCmd s h f).host = s.host := rfl
@[simp] theorem setLinkCmd_sreg (s : State) (h : Word) (f : LinkCmd → LinkCmd) : (setLinkCmd s h f).sreg = s.sreg := rfl
@[simp] theorem setLinkCmd_inputs (s : State) (h : Word) (f : LinkCmd → LinkCmd) : (setLinkCmd s h f).inputs = s.inputs := rfl
@[simp] theorem setLinkCmd_arg (s : State) (h : Word) (f : LinkCmd → LinkCmd) : (setLinkCmd s h f).arg = s.arg := rfl
@[simp] theorem setLinkCmd_choice (s : State) (h : Word) (f : LinkCmd → LinkCmd) : (setLinkCmd s h f).choice = s.choice := rfl
@[simp] theorem setLinkCmd_cur (s : State) (h : Word) (f : LinkCmd → LinkCmd) : (setLinkCmd s h f).cur = s.cur := rfl

/-! ### setHinge -/

@[simp] theorem setHinge_mem (s : State) (b h : Nat) (f : Hinge → Hinge) : (setHinge s b h f).mem = s.mem := rfl
@[simp] theorem setHinge_strands (s : State) (b h : Nat) (f : Hinge → Hinge) : (setHinge s b h f).strands = s.strands := rfl
@[simp] theorem setHinge_nextSid (s : State) (b h : Nat) (f : Hinge → Hinge) : (setHinge s b h f).nextSid = s.nextSid := rfl
@[simp] theorem setHinge_nextBid (s : State) (b h : Nat) (f : Hinge → Hinge) : (setHinge s b h f).nextBid = s.nextBid := rfl
@[simp] theorem setHinge_ctxs (s : State) (b h : Nat) (f : Hinge → Hinge) : (setHinge s b h f).ctxs = s.ctxs := rfl
@[simp] theorem setHinge_trans (s : State) (b h : Nat) (f : Hinge → Hinge) : (setHinge s b h f).trans = s.trans := rfl
@[simp] theorem setHinge_vaults (s : State) (b h : Nat) (f : Hinge → Hinge) : (setHinge s b h f).vaults = s.vaults := rfl
@[simp] theorem setHinge_flight (s : State) (b h : Nat) (f : Hinge → Hinge) : (setHinge s b h f).flight = s.flight := rfl
@[simp] theorem setHinge_eng (s : State) (b h : Nat) (f : Hinge → Hinge) : (setHinge s b h f).eng = s.eng := rfl
@[simp] theorem setHinge_queues (s : State) (b h : Nat) (f : Hinge → Hinge) : (setHinge s b h f).queues = s.queues := rfl
@[simp] theorem setHinge_cmd (s : State) (b h : Nat) (f : Hinge → Hinge) : (setHinge s b h f).cmd = s.cmd := rfl
@[simp] theorem setHinge_clk (s : State) (b h : Nat) (f : Hinge → Hinge) : (setHinge s b h f).clk = s.clk := rfl
@[simp] theorem setHinge_strips (s : State) (b h : Nat) (f : Hinge → Hinge) : (setHinge s b h f).strips = s.strips := rfl
@[simp] theorem setHinge_fab (s : State) (b h : Nat) (f : Hinge → Hinge) : (setHinge s b h f).fab = s.fab := rfl
@[simp] theorem setHinge_keep (s : State) (b h : Nat) (f : Hinge → Hinge) : (setHinge s b h f).keep = s.keep := rfl
@[simp] theorem setHinge_host (s : State) (b h : Nat) (f : Hinge → Hinge) : (setHinge s b h f).host = s.host := rfl
@[simp] theorem setHinge_sreg (s : State) (b h : Nat) (f : Hinge → Hinge) : (setHinge s b h f).sreg = s.sreg := rfl
@[simp] theorem setHinge_inputs (s : State) (b h : Nat) (f : Hinge → Hinge) : (setHinge s b h f).inputs = s.inputs := rfl
@[simp] theorem setHinge_arg (s : State) (b h : Nat) (f : Hinge → Hinge) : (setHinge s b h f).arg = s.arg := rfl
@[simp] theorem setHinge_choice (s : State) (b h : Nat) (f : Hinge → Hinge) : (setHinge s b h f).choice = s.choice := rfl
@[simp] theorem setHinge_cur (s : State) (b h : Nat) (f : Hinge → Hinge) : (setHinge s b h f).cur = s.cur := rfl

/-! ### setCq -/

@[simp] theorem setCq_mem (s : State) (q : Nat) (f : CmdQueue → CmdQueue) : (setCq s q f).mem = s.mem := rfl
@[simp] theorem setCq_strands (s : State) (q : Nat) (f : CmdQueue → CmdQueue) : (setCq s q f).strands = s.strands := rfl
@[simp] theorem setCq_nextSid (s : State) (q : Nat) (f : CmdQueue → CmdQueue) : (setCq s q f).nextSid = s.nextSid := rfl
@[simp] theorem setCq_braids (s : State) (q : Nat) (f : CmdQueue → CmdQueue) : (setCq s q f).braids = s.braids := rfl
@[simp] theorem setCq_nextBid (s : State) (q : Nat) (f : CmdQueue → CmdQueue) : (setCq s q f).nextBid = s.nextBid := rfl
@[simp] theorem setCq_ctxs (s : State) (q : Nat) (f : CmdQueue → CmdQueue) : (setCq s q f).ctxs = s.ctxs := rfl
@[simp] theorem setCq_trans (s : State) (q : Nat) (f : CmdQueue → CmdQueue) : (setCq s q f).trans = s.trans := rfl
@[simp] theorem setCq_vaults (s : State) (q : Nat) (f : CmdQueue → CmdQueue) : (setCq s q f).vaults = s.vaults := rfl
@[simp] theorem setCq_flight (s : State) (q : Nat) (f : CmdQueue → CmdQueue) : (setCq s q f).flight = s.flight := rfl
@[simp] theorem setCq_eng (s : State) (q : Nat) (f : CmdQueue → CmdQueue) : (setCq s q f).eng = s.eng := rfl
@[simp] theorem setCq_queues (s : State) (q : Nat) (f : CmdQueue → CmdQueue) : (setCq s q f).queues = s.queues := rfl
@[simp] theorem setCq_cmd (s : State) (q : Nat) (f : CmdQueue → CmdQueue) : (setCq s q f).cmd = { s.cmd with cqs := put s.cmd.cqs q (f (cqOf s q)) } := rfl
@[simp] theorem setCq_clk (s : State) (q : Nat) (f : CmdQueue → CmdQueue) : (setCq s q f).clk = s.clk := rfl
@[simp] theorem setCq_strips (s : State) (q : Nat) (f : CmdQueue → CmdQueue) : (setCq s q f).strips = s.strips := rfl
@[simp] theorem setCq_fab (s : State) (q : Nat) (f : CmdQueue → CmdQueue) : (setCq s q f).fab = s.fab := rfl
@[simp] theorem setCq_keep (s : State) (q : Nat) (f : CmdQueue → CmdQueue) : (setCq s q f).keep = s.keep := rfl
@[simp] theorem setCq_host (s : State) (q : Nat) (f : CmdQueue → CmdQueue) : (setCq s q f).host = s.host := rfl
@[simp] theorem setCq_sreg (s : State) (q : Nat) (f : CmdQueue → CmdQueue) : (setCq s q f).sreg = s.sreg := rfl
@[simp] theorem setCq_inputs (s : State) (q : Nat) (f : CmdQueue → CmdQueue) : (setCq s q f).inputs = s.inputs := rfl
@[simp] theorem setCq_arg (s : State) (q : Nat) (f : CmdQueue → CmdQueue) : (setCq s q f).arg = s.arg := rfl
@[simp] theorem setCq_choice (s : State) (q : Nat) (f : CmdQueue → CmdQueue) : (setCq s q f).choice = s.choice := rfl
@[simp] theorem setCq_cur (s : State) (q : Nat) (f : CmdQueue → CmdQueue) : (setCq s q f).cur = s.cur := rfl

/-! ### setQueue -/

@[simp] theorem setQueue_mem (s : State) (q : Nat) (f : HwQueue → HwQueue) : (setQueue s q f).mem = s.mem := rfl
@[simp] theorem setQueue_strands (s : State) (q : Nat) (f : HwQueue → HwQueue) : (setQueue s q f).strands = s.strands := rfl
@[simp] theorem setQueue_nextSid (s : State) (q : Nat) (f : HwQueue → HwQueue) : (setQueue s q f).nextSid = s.nextSid := rfl
@[simp] theorem setQueue_braids (s : State) (q : Nat) (f : HwQueue → HwQueue) : (setQueue s q f).braids = s.braids := rfl
@[simp] theorem setQueue_nextBid (s : State) (q : Nat) (f : HwQueue → HwQueue) : (setQueue s q f).nextBid = s.nextBid := rfl
@[simp] theorem setQueue_ctxs (s : State) (q : Nat) (f : HwQueue → HwQueue) : (setQueue s q f).ctxs = s.ctxs := rfl
@[simp] theorem setQueue_trans (s : State) (q : Nat) (f : HwQueue → HwQueue) : (setQueue s q f).trans = s.trans := rfl
@[simp] theorem setQueue_vaults (s : State) (q : Nat) (f : HwQueue → HwQueue) : (setQueue s q f).vaults = s.vaults := rfl
@[simp] theorem setQueue_flight (s : State) (q : Nat) (f : HwQueue → HwQueue) : (setQueue s q f).flight = s.flight := rfl
@[simp] theorem setQueue_eng (s : State) (q : Nat) (f : HwQueue → HwQueue) : (setQueue s q f).eng = s.eng := rfl
@[simp] theorem setQueue_queues (s : State) (q : Nat) (f : HwQueue → HwQueue) : (setQueue s q f).queues = put s.queues q (f (queueOf s q)) := rfl
@[simp] theorem setQueue_cmd (s : State) (q : Nat) (f : HwQueue → HwQueue) : (setQueue s q f).cmd = s.cmd := rfl
@[simp] theorem setQueue_clk (s : State) (q : Nat) (f : HwQueue → HwQueue) : (setQueue s q f).clk = s.clk := rfl
@[simp] theorem setQueue_strips (s : State) (q : Nat) (f : HwQueue → HwQueue) : (setQueue s q f).strips = s.strips := rfl
@[simp] theorem setQueue_fab (s : State) (q : Nat) (f : HwQueue → HwQueue) : (setQueue s q f).fab = s.fab := rfl
@[simp] theorem setQueue_keep (s : State) (q : Nat) (f : HwQueue → HwQueue) : (setQueue s q f).keep = s.keep := rfl
@[simp] theorem setQueue_host (s : State) (q : Nat) (f : HwQueue → HwQueue) : (setQueue s q f).host = s.host := rfl
@[simp] theorem setQueue_sreg (s : State) (q : Nat) (f : HwQueue → HwQueue) : (setQueue s q f).sreg = s.sreg := rfl
@[simp] theorem setQueue_inputs (s : State) (q : Nat) (f : HwQueue → HwQueue) : (setQueue s q f).inputs = s.inputs := rfl
@[simp] theorem setQueue_arg (s : State) (q : Nat) (f : HwQueue → HwQueue) : (setQueue s q f).arg = s.arg := rfl
@[simp] theorem setQueue_choice (s : State) (q : Nat) (f : HwQueue → HwQueue) : (setQueue s q f).choice = s.choice := rfl
@[simp] theorem setQueue_cur (s : State) (q : Nat) (f : HwQueue → HwQueue) : (setQueue s q f).cur = s.cur := rfl

/-! ### leaveMiss -/

@[simp] theorem leaveMiss_mem (s : State) (quad idx who : Nat) : (leaveMiss s quad idx who).mem = s.mem := rfl
@[simp] theorem leaveMiss_strands (s : State) (quad idx who : Nat) : (leaveMiss s quad idx who).strands = s.strands := rfl
@[simp] theorem leaveMiss_nextSid (s : State) (quad idx who : Nat) : (leaveMiss s quad idx who).nextSid = s.nextSid := rfl
@[simp] theorem leaveMiss_braids (s : State) (quad idx who : Nat) : (leaveMiss s quad idx who).braids = s.braids := rfl
@[simp] theorem leaveMiss_nextBid (s : State) (quad idx who : Nat) : (leaveMiss s quad idx who).nextBid = s.nextBid := rfl
@[simp] theorem leaveMiss_ctxs (s : State) (quad idx who : Nat) : (leaveMiss s quad idx who).ctxs = s.ctxs := rfl
@[simp] theorem leaveMiss_vaults (s : State) (quad idx who : Nat) : (leaveMiss s quad idx who).vaults = s.vaults := rfl
@[simp] theorem leaveMiss_flight (s : State) (quad idx who : Nat) : (leaveMiss s quad idx who).flight = s.flight := rfl
@[simp] theorem leaveMiss_eng (s : State) (quad idx who : Nat) : (leaveMiss s quad idx who).eng = s.eng := rfl
@[simp] theorem leaveMiss_queues (s : State) (quad idx who : Nat) : (leaveMiss s quad idx who).queues = s.queues := rfl
@[simp] theorem leaveMiss_cmd (s : State) (quad idx who : Nat) : (leaveMiss s quad idx who).cmd = s.cmd := rfl
@[simp] theorem leaveMiss_clk (s : State) (quad idx who : Nat) : (leaveMiss s quad idx who).clk = s.clk := rfl
@[simp] theorem leaveMiss_strips (s : State) (quad idx who : Nat) : (leaveMiss s quad idx who).strips = s.strips := rfl
@[simp] theorem leaveMiss_fab (s : State) (quad idx who : Nat) : (leaveMiss s quad idx who).fab = s.fab := rfl
@[simp] theorem leaveMiss_keep (s : State) (quad idx who : Nat) : (leaveMiss s quad idx who).keep = s.keep := rfl
@[simp] theorem leaveMiss_host (s : State) (quad idx who : Nat) : (leaveMiss s quad idx who).host = s.host := rfl
@[simp] theorem leaveMiss_sreg (s : State) (quad idx who : Nat) : (leaveMiss s quad idx who).sreg = s.sreg := rfl
@[simp] theorem leaveMiss_inputs (s : State) (quad idx who : Nat) : (leaveMiss s quad idx who).inputs = s.inputs := rfl
@[simp] theorem leaveMiss_arg (s : State) (quad idx who : Nat) : (leaveMiss s quad idx who).arg = s.arg := rfl
@[simp] theorem leaveMiss_choice (s : State) (quad idx who : Nat) : (leaveMiss s quad idx who).choice = s.choice := rfl
@[simp] theorem leaveMiss_cur (s : State) (quad idx who : Nat) : (leaveMiss s quad idx who).cur = s.cur := rfl

/-! ### drawFree -/

@[simp] theorem drawFree_mem (s : State) : (drawFree s).2.mem = s.mem := rfl
@[simp] theorem drawFree_strands (s : State) : (drawFree s).2.strands = s.strands := rfl
@[simp] theorem drawFree_nextSid (s : State) : (drawFree s).2.nextSid = s.nextSid := rfl
@[simp] theorem drawFree_braids (s : State) : (drawFree s).2.braids = s.braids := rfl
@[simp] theorem drawFree_nextBid (s : State) : (drawFree s).2.nextBid = s.nextBid := rfl
@[simp] theorem drawFree_ctxs (s : State) : (drawFree s).2.ctxs = s.ctxs := rfl
@[simp] theorem drawFree_trans (s : State) : (drawFree s).2.trans = s.trans := rfl
@[simp] theorem drawFree_vaults (s : State) : (drawFree s).2.vaults = s.vaults := rfl
@[simp] theorem drawFree_flight (s : State) : (drawFree s).2.flight = s.flight := rfl
@[simp] theorem drawFree_eng (s : State) : (drawFree s).2.eng = s.eng := rfl
@[simp] theorem drawFree_queues (s : State) : (drawFree s).2.queues = s.queues := rfl
@[simp] theorem drawFree_cmd (s : State) : (drawFree s).2.cmd = s.cmd := rfl
@[simp] theorem drawFree_clk (s : State) : (drawFree s).2.clk = s.clk := rfl
@[simp] theorem drawFree_strips (s : State) : (drawFree s).2.strips = s.strips := rfl
@[simp] theorem drawFree_fab (s : State) : (drawFree s).2.fab = s.fab := rfl
@[simp] theorem drawFree_keep (s : State) : (drawFree s).2.keep = s.keep := rfl
@[simp] theorem drawFree_host (s : State) : (drawFree s).2.host = s.host := rfl
@[simp] theorem drawFree_sreg (s : State) : (drawFree s).2.sreg = s.sreg := rfl
@[simp] theorem drawFree_inputs (s : State) : (drawFree s).2.inputs = s.inputs := rfl
@[simp] theorem drawFree_arg (s : State) : (drawFree s).2.arg = s.arg := rfl
@[simp] theorem drawFree_choice (s : State) : (drawFree s).2.choice = s.choice + 1 := rfl
@[simp] theorem drawFree_cur (s : State) : (drawFree s).2.cur = s.cur := rfl

/-! ### newFlight -/

@[simp] theorem newFlight_mem (s : State) : (newFlight s).2.mem = s.mem := rfl
@[simp] theorem newFlight_strands (s : State) : (newFlight s).2.strands = s.strands := rfl
@[simp] theorem newFlight_nextSid (s : State) : (newFlight s).2.nextSid = s.nextSid := rfl
@[simp] theorem newFlight_braids (s : State) : (newFlight s).2.braids = s.braids := rfl
@[simp] theorem newFlight_nextBid (s : State) : (newFlight s).2.nextBid = s.nextBid := rfl
@[simp] theorem newFlight_ctxs (s : State) : (newFlight s).2.ctxs = s.ctxs := rfl
@[simp] theorem newFlight_trans (s : State) : (newFlight s).2.trans = s.trans := rfl
@[simp] theorem newFlight_vaults (s : State) : (newFlight s).2.vaults = s.vaults := rfl
@[simp] theorem newFlight_flight (s : State) : (newFlight s).2.flight = { s.flight with nextId := s.flight.nextId + 1 } := rfl
@[simp] theorem newFlight_eng (s : State) : (newFlight s).2.eng = s.eng := rfl
@[simp] theorem newFlight_queues (s : State) : (newFlight s).2.queues = s.queues := rfl
@[simp] theorem newFlight_cmd (s : State) : (newFlight s).2.cmd = s.cmd := rfl
@[simp] theorem newFlight_clk (s : State) : (newFlight s).2.clk = s.clk := rfl
@[simp] theorem newFlight_strips (s : State) : (newFlight s).2.strips = s.strips := rfl
@[simp] theorem newFlight_fab (s : State) : (newFlight s).2.fab = s.fab := rfl
@[simp] theorem newFlight_keep (s : State) : (newFlight s).2.keep = s.keep := rfl
@[simp] theorem newFlight_host (s : State) : (newFlight s).2.host = s.host := rfl
@[simp] theorem newFlight_sreg (s : State) : (newFlight s).2.sreg = s.sreg := rfl
@[simp] theorem newFlight_inputs (s : State) : (newFlight s).2.inputs = s.inputs := rfl
@[simp] theorem newFlight_arg (s : State) : (newFlight s).2.arg = s.arg := rfl
@[simp] theorem newFlight_choice (s : State) : (newFlight s).2.choice = s.choice := rfl
@[simp] theorem newFlight_cur (s : State) : (newFlight s).2.cur = s.cur := rfl

/-! ### newWrite -/

@[simp] theorem newWrite_mem (s : State) : (newWrite s).2.mem = { s.mem with nextWrite := s.mem.nextWrite + 1 } := rfl
@[simp] theorem newWrite_strands (s : State) : (newWrite s).2.strands = s.strands := rfl
@[simp] theorem newWrite_nextSid (s : State) : (newWrite s).2.nextSid = s.nextSid := rfl
@[simp] theorem newWrite_braids (s : State) : (newWrite s).2.braids = s.braids := rfl
@[simp] theorem newWrite_nextBid (s : State) : (newWrite s).2.nextBid = s.nextBid := rfl
@[simp] theorem newWrite_ctxs (s : State) : (newWrite s).2.ctxs = s.ctxs := rfl
@[simp] theorem newWrite_trans (s : State) : (newWrite s).2.trans = s.trans := rfl
@[simp] theorem newWrite_vaults (s : State) : (newWrite s).2.vaults = s.vaults := rfl
@[simp] theorem newWrite_flight (s : State) : (newWrite s).2.flight = s.flight := rfl
@[simp] theorem newWrite_eng (s : State) : (newWrite s).2.eng = s.eng := rfl
@[simp] theorem newWrite_queues (s : State) : (newWrite s).2.queues = s.queues := rfl
@[simp] theorem newWrite_cmd (s : State) : (newWrite s).2.cmd = s.cmd := rfl
@[simp] theorem newWrite_clk (s : State) : (newWrite s).2.clk = s.clk := rfl
@[simp] theorem newWrite_strips (s : State) : (newWrite s).2.strips = s.strips := rfl
@[simp] theorem newWrite_fab (s : State) : (newWrite s).2.fab = s.fab := rfl
@[simp] theorem newWrite_keep (s : State) : (newWrite s).2.keep = s.keep := rfl
@[simp] theorem newWrite_host (s : State) : (newWrite s).2.host = s.host := rfl
@[simp] theorem newWrite_sreg (s : State) : (newWrite s).2.sreg = s.sreg := rfl
@[simp] theorem newWrite_inputs (s : State) : (newWrite s).2.inputs = s.inputs := rfl
@[simp] theorem newWrite_arg (s : State) : (newWrite s).2.arg = s.arg := rfl
@[simp] theorem newWrite_choice (s : State) : (newWrite s).2.choice = s.choice := rfl
@[simp] theorem newWrite_cur (s : State) : (newWrite s).2.cur = s.cur := rfl

/-! ### commit -/

@[simp] theorem commit_mem (i : Issue) : (commit i).mem = i.s.mem := rfl
@[simp] theorem commit_strands (i : Issue) : (commit i).strands = put i.s.strands i.sid i.st := rfl
@[simp] theorem commit_nextSid (i : Issue) : (commit i).nextSid = i.s.nextSid := rfl
@[simp] theorem commit_braids (i : Issue) : (commit i).braids = i.s.braids := rfl
@[simp] theorem commit_nextBid (i : Issue) : (commit i).nextBid = i.s.nextBid := rfl
@[simp] theorem commit_ctxs (i : Issue) : (commit i).ctxs = i.s.ctxs := rfl
@[simp] theorem commit_trans (i : Issue) : (commit i).trans = i.s.trans := rfl
@[simp] theorem commit_vaults (i : Issue) : (commit i).vaults = i.s.vaults := rfl
@[simp] theorem commit_flight (i : Issue) : (commit i).flight = i.s.flight := rfl
@[simp] theorem commit_eng (i : Issue) : (commit i).eng = i.s.eng := rfl
@[simp] theorem commit_queues (i : Issue) : (commit i).queues = i.s.queues := rfl
@[simp] theorem commit_cmd (i : Issue) : (commit i).cmd = i.s.cmd := rfl
@[simp] theorem commit_clk (i : Issue) : (commit i).clk = i.s.clk := rfl
@[simp] theorem commit_strips (i : Issue) : (commit i).strips = i.s.strips := rfl
@[simp] theorem commit_fab (i : Issue) : (commit i).fab = i.s.fab := rfl
@[simp] theorem commit_keep (i : Issue) : (commit i).keep = i.s.keep := rfl
@[simp] theorem commit_host (i : Issue) : (commit i).host = i.s.host := rfl
@[simp] theorem commit_sreg (i : Issue) : (commit i).sreg = i.s.sreg := rfl
@[simp] theorem commit_inputs (i : Issue) : (commit i).inputs = i.s.inputs := rfl
@[simp] theorem commit_arg (i : Issue) : (commit i).arg = i.s.arg := rfl
@[simp] theorem commit_choice (i : Issue) : (commit i).choice = i.s.choice := rfl
@[simp] theorem commit_cur (i : Issue) : (commit i).cur = i.s.cur := rfl

/-! ### tlbInsert -/

@[simp] theorem tlbInsert_mem (s : State) (e : TlbEntry) : (tlbInsert s e).mem = s.mem := by unfold tlbInsert; split <;> rfl
@[simp] theorem tlbInsert_strands (s : State) (e : TlbEntry) : (tlbInsert s e).strands = s.strands := by unfold tlbInsert; split <;> rfl
@[simp] theorem tlbInsert_nextSid (s : State) (e : TlbEntry) : (tlbInsert s e).nextSid = s.nextSid := by unfold tlbInsert; split <;> rfl
@[simp] theorem tlbInsert_braids (s : State) (e : TlbEntry) : (tlbInsert s e).braids = s.braids := by unfold tlbInsert; split <;> rfl
@[simp] theorem tlbInsert_nextBid (s : State) (e : TlbEntry) : (tlbInsert s e).nextBid = s.nextBid := by unfold tlbInsert; split <;> rfl
@[simp] theorem tlbInsert_ctxs (s : State) (e : TlbEntry) : (tlbInsert s e).ctxs = s.ctxs := by unfold tlbInsert; split <;> rfl
@[simp] theorem tlbInsert_vaults (s : State) (e : TlbEntry) : (tlbInsert s e).vaults = s.vaults := by unfold tlbInsert; split <;> rfl
@[simp] theorem tlbInsert_flight (s : State) (e : TlbEntry) : (tlbInsert s e).flight = s.flight := by unfold tlbInsert; split <;> rfl
@[simp] theorem tlbInsert_eng (s : State) (e : TlbEntry) : (tlbInsert s e).eng = s.eng := by unfold tlbInsert; split <;> rfl
@[simp] theorem tlbInsert_queues (s : State) (e : TlbEntry) : (tlbInsert s e).queues = s.queues := by unfold tlbInsert; split <;> rfl
@[simp] theorem tlbInsert_cmd (s : State) (e : TlbEntry) : (tlbInsert s e).cmd = s.cmd := by unfold tlbInsert; split <;> rfl
@[simp] theorem tlbInsert_clk (s : State) (e : TlbEntry) : (tlbInsert s e).clk = s.clk := by unfold tlbInsert; split <;> rfl
@[simp] theorem tlbInsert_strips (s : State) (e : TlbEntry) : (tlbInsert s e).strips = s.strips := by unfold tlbInsert; split <;> rfl
@[simp] theorem tlbInsert_fab (s : State) (e : TlbEntry) : (tlbInsert s e).fab = s.fab := by unfold tlbInsert; split <;> rfl
@[simp] theorem tlbInsert_keep (s : State) (e : TlbEntry) : (tlbInsert s e).keep = s.keep := by unfold tlbInsert; split <;> rfl
@[simp] theorem tlbInsert_host (s : State) (e : TlbEntry) : (tlbInsert s e).host = s.host := by unfold tlbInsert; split <;> rfl
@[simp] theorem tlbInsert_sreg (s : State) (e : TlbEntry) : (tlbInsert s e).sreg = s.sreg := by unfold tlbInsert; split <;> rfl
@[simp] theorem tlbInsert_inputs (s : State) (e : TlbEntry) : (tlbInsert s e).inputs = s.inputs := by unfold tlbInsert; split <;> rfl
@[simp] theorem tlbInsert_arg (s : State) (e : TlbEntry) : (tlbInsert s e).arg = s.arg := by unfold tlbInsert; split <;> rfl
@[simp] theorem tlbInsert_choice (s : State) (e : TlbEntry) : (tlbInsert s e).choice = s.choice := by unfold tlbInsert; split <;> rfl
@[simp] theorem tlbInsert_cur (s : State) (e : TlbEntry) : (tlbInsert s e).cur = s.cur := by unfold tlbInsert; split <;> rfl

end Sys2Proof.Machine
end

