-- ==== Sys2Proof/Laws/Store.lean ====
section
/-!
SUPPORT. What the shared operations of memory can do: each keeps the canonical form of the bytes, and which parts of the
state each leaves as they are.
-/

set_option Elab.async false

namespace Sys2Proof.Machine
open Sys2Proof

/-- A property that every step of a fold keeps holds of its end. -/
theorem foldl_keeps {α β : Type} (p : α → Prop) (f : α → β → α) (h : ∀ a b, p a → p (f a b)) :
    ∀ (l : List β) (a : α), p a → p (l.foldl f a)
  | [], _, ha => ha
  | b :: t, a, ha => foldl_keeps p f h t (f a b) (h a b ha)

/-- A value that no step of a fold changes is that of its start. -/
theorem foldl_same {α β γ : Type} (g : α → γ) (f : α → β → α) (h : ∀ a b, g (f a b) = g a) (l : List β) (a : α) :
    g (l.foldl f a) = g a :=
  foldl_keeps (fun x => g x = g a) f (fun x b hx => (h x b).trans hx) l a rfl

/-! ### The canonical form -/

theorem wf_decryptAs {s : State} (h : s.mem.wf = true) (line key : Nat) : (decryptAs s line key).mem.wf = true := by
  unfold decryptAs
  dsimp only
  split
  · exact h
  · split
    · exact h
    · generalize xtsLine _ _ _ _ = d
      exact canonical_poke _ _ _ h

theorem wf_insertLine {s : State} (h : s.mem.wf = true) (l : CacheLine) : (insertLine s l).mem.wf = true := by
  unfold insertLine
  split
  · exact h
  · dsimp only; split <;> exact h

theorem wf_openLine {s : State} (h : s.mem.wf = true) (line key : Nat) (alloc : Bool) :
    (openLine s line key alloc).mem.wf = true := by
  unfold openLine
  split
  · dsimp only
    split
    · exact h
    · exact wf_insertLine (wf_decryptAs (by exact h) _ _) _
  · dsimp only
    split
    · exact wf_insertLine (wf_decryptAs h _ _) _
    · exact wf_decryptAs h _ _

theorem wf_openRange {s : State} (h : s.mem.wf = true) (pa n key : Nat) (alloc : Bool) :
    (openRange s pa n key alloc).mem.wf = true := by
  unfold openRange
  split
  · exact foldl_keeps (fun s : State => s.mem.wf = true) _ (fun _ _ h => wf_openLine h _ _ _) _ _ h
  · exact h

theorem wf_openRead {s : State} (h : s.mem.wf = true) (pa n key : Nat) (alloc : Bool) :
    (openRead s pa n key alloc).mem.wf = true :=
  wf_openRange (s := { s with mem := s.mem.correct pa n }) (Memory.wf_correct h pa n) _ _ _ _

theorem wf_readNow {s : State} (h : s.mem.wf = true) (pa key n : Nat) : (readNow s pa key n).2.mem.wf = true :=
  wf_openRead h _ _ _ _

theorem wf_readSystem {s : State} (h : s.mem.wf = true) (pa key n : Nat) : (readSystem s pa key n).2.mem.wf = true := by
  unfold readSystem
  dsimp only
  split <;> exact wf_openRead h _ _ _ _

/-- A read under what is known changes nothing but the counter of free values. -/
theorem readKnown_state (know : List Known) (q : Path) : ∀ (n : Nat) (s : State) (pa : Nat),
    ∃ c, (readKnown s know q pa n).2 = { s with choice := c }
  | 0, s, _ => ⟨s.choice, rfl⟩
  | n + 1, s, pa => by
    simp only [readKnown]
    split
    · exact readKnown_state know q n s (pa + 1)
    · obtain ⟨c, hc⟩ := readKnown_state know q n (drawFree s).2 (pa + 1)
      exact ⟨c, hc⟩

theorem readKnown_mem (s : State) (know : List Known) (q : Path) (pa n : Nat) :
    (readKnown s know q pa n).2.mem = s.mem := by
  obtain ⟨c, hc⟩ := readKnown_state know q n s pa
  rw [hc]

/-- All of a state but its links' buffers. -/
def State.offFab (s : State) : State := { s with fab := {} }

theorem sendMsg_off (s : State) (h : HeldMsg) : (sendMsg s h).offFab = s.offFab := rfl

theorem flowOut_off (s : State) : (flowOut s).offFab = s.offFab := by
  have h := foldl_same (fun x : List HeldMsg × State => x.2.offFab)
    (fun (acc : List HeldMsg × State) h =>
      if mayLeave acc.2 acc.1 h then (acc.1, sendMsg acc.2 h) else (acc.1 ++ [h], acc.2))
    (fun a b => by split <;> rfl) s.fab.held ([], s)
  exact h

@[simp] theorem flowOut_mem (s : State) : (flowOut s).mem = s.mem := by
  have h := congrArg State.mem (flowOut_off s)
  exact h

@[simp] theorem holdMsg_mem (s : State) (d : Nat) (m : LinkMsg) : (holdMsg s d m).mem = s.mem := by
  unfold holdMsg; split <;> rfl

@[simp] theorem sendTokens_mem (s : State) (know : List Known) : (sendTokens s know).mem = s.mem := by
  unfold sendTokens
  rw [flowOut_mem]
  exact foldl_same State.mem _ (fun _ _ => holdMsg_mem _ _ _) _ _

theorem wf_fireSlot {again : State → Nat → State} (ha : ∀ s x, s.mem.wf = true → (again s x).mem.wf = true) {s : State}
    (h : s.mem.wf = true) (k pa : Nat) : (fireSlot again s k pa).mem.wf = true := by
  unfold fireSlot
  dsimp only
  split
  · exact h
  · split
    · exact h
    · split
      · rw [flowOut_mem, holdMsg_mem]; exact h
      · exact ha _ _ (canonical_poke _ _ _ h)

theorem wf_fireWatches : ∀ (n : Nat) (s : State) (pa : Nat), s.mem.wf = true → (fireWatches n s pa).mem.wf = true
  | 0, _, _, h => h
  | n + 1, _, _, h =>
    foldl_keeps (fun s : State => s.mem.wf = true) _ (fun _ _ h => wf_fireSlot (wf_fireWatches n) h _ _) _ _ h

theorem wf_writeNow {s : State} (h : s.mem.wf = true) (id pa key : Nat) (bs : List Byte) (path : Option Path)
    (pubs : List Pub) : (writeNow s id pa key bs path pubs).mem.wf = true := by
  unfold writeNow
  split
  · exact h
  · exact foldl_keeps (fun s : State => s.mem.wf = true) _ (fun _ _ h => wf_fireWatches _ _ _ h) _ _
      (canonical_poke _ _ _ (wf_openRange h pa bs.length key true))

theorem wf_writeOwn {s : State} (h : s.mem.wf = true) (pa key : Nat) (bs : List Byte) (path : Option Path)
    (pubs : List Pub) : (writeOwn s pa key bs path pubs).2.mem.wf = true := wf_writeNow (by exact h) _ _ _ _ _ _

theorem wf_rekeyRange {s : State} (h : s.mem.wf = true) (pa n key : Nat) : (rekeyRange s pa n key).mem.wf = true := h

theorem wf_zeroRange {s : State} (h : s.mem.wf = true) (z : ZeroJob) : (zeroRange s z).mem.wf = true :=
  Memory.wf_zeroed (wf_rekeyRange h z.pa z.len z.key) z.pa z.len

theorem wf_settleZeroFor {s : State} (h : s.mem.wf = true) (id pa n : Nat) : (settleZeroFor s id pa n).mem.wf = true := by
  unfold settleZeroFor
  dsimp only
  split
  · exact h
  · exact foldl_keeps (fun s : State => s.mem.wf = true) _ (fun _ _ h => wf_zeroRange h _) _ _ h

theorem wf_settleZero {s : State} (h : s.mem.wf = true) (pa n : Nat) : (settleZero s pa n).mem.wf = true :=
  wf_settleZeroFor h _ _ _

/-- With nothing being zeroed no zeroing ends. -/
@[simp] theorem settleZeroFor_idle {s : State} (h : s.trans.zeroing = []) (id pa n : Nat) : settleZeroFor s id pa n = s := by
  simp [settleZeroFor, h]

@[simp] theorem settleZero_idle {s : State} (h : s.trans.zeroing = []) (pa n : Nat) : settleZero s pa n = s :=
  settleZeroFor_idle h _ _ _

theorem wf_evrPut {s : State} (h : s.mem.wf = true) (e : Nat) : (evrPut s e).mem.wf = true := by
  unfold evrPut
  have hw := fun a b => wf_writeOwn h a 0 b none []
  exact hw _ _

theorem wf_evrFlush : ∀ (n : Nat) (s : State), s.mem.wf = true → (evrFlush n s).mem.wf = true
  | 0, _, h => h
  | n + 1, s, h => by
    unfold evrFlush
    split
    · exact h
    · split
      · exact h
      · exact wf_evrFlush n _ (wf_evrPut (by exact h) _)

theorem wf_evrWrite {s : State} (h : s.mem.wf = true) (src ctx type data : Nat) :
    (evrWrite s src ctx type data).mem.wf = true := by
  unfold evrWrite
  dsimp only
  split
  · exact wf_evrPut h _
  · exact h

theorem wf_flushEvents {s : State} (h : s.mem.wf = true) : (flushEvents s).mem.wf = true := wf_evrFlush _ _ h

theorem wf_evrLose {s : State} (h : s.mem.wf = true) (src : Nat) : (evrLose s src).mem.wf = true := by
  unfold evrLose
  dsimp only
  split
  · exact h
  · split <;> exact h

theorem wf_evrOverflow {s : State} (h : s.mem.wf = true) : (evrOverflow s).mem.wf = true := by
  unfold evrOverflow
  dsimp only
  split
  · have hw := wf_evrWrite h 0xFFFF 0xFF 0x0006 (s.cmd.evr.lost + s.cmd.evr.lostSrc * 2 ^ 32)
    revert hw
    generalize evrWrite s _ _ _ _ = t
    exact fun hw => hw
  · exact h

theorem wf_postEvent {s : State} (h : s.mem.wf = true) (src ctx type data : Nat) :
    (postEvent s src ctx type data).mem.wf = true := by
  unfold postEvent
  dsimp only
  split
  · exact wf_evrWrite (wf_evrOverflow (wf_flushEvents h)) _ _ _ _
  · exact wf_evrLose (wf_evrOverflow (wf_flushEvents h)) _

/-! ### What stays -/

/-- All of a state but its memory and the lines of the cache region. -/
def State.offMemory (s : State) : State := { s with mem := {}, vaults := {} }

/-- All of a state but what a write of memory can change: memory and the cache region's lines, and what leaves the device
through a watched signal (R424), which takes a number of its own. -/
def State.offWrite (s : State) : State :=
  { s with mem := {}, vaults := {}, fab := {}, host := {}, flight := { s.flight with nextId := 0 } }

theorem holdMsg_off (s : State) (d : Nat) (m : LinkMsg) : (holdMsg s d m).offWrite = s.offWrite := by
  unfold holdMsg; split <;> rfl

theorem decryptAs_off (s : State) (line key : Nat) : (decryptAs s line key).offMemory = s.offMemory := by
  unfold decryptAs
  dsimp only
  split
  · rfl
  · split
    · rfl
    · generalize xtsLine _ _ _ _ = d
      rfl

theorem insertLine_off (s : State) (l : CacheLine) : (insertLine s l).offMemory = s.offMemory := by
  unfold insertLine
  split
  · rfl
  · dsimp only; split <;> rfl

theorem insertLine_mem (s : State) (l : CacheLine) : (insertLine s l).mem = s.mem := by
  unfold insertLine
  split
  · rfl
  · dsimp only; split <;> rfl

theorem openLine_off (s : State) (line key : Nat) (alloc : Bool) : (openLine s line key alloc).offMemory = s.offMemory := by
  unfold openLine
  dsimp only
  split
  · split
    · rfl
    · exact (insertLine_off _ _).trans (decryptAs_off _ _ _)
  · split
    · exact (insertLine_off _ _).trans (decryptAs_off _ _ _)
    · exact decryptAs_off _ _ _

/-- Opening lines changes memory's bytes, keys and the cache region's lines, and nothing else. -/
theorem openRange_off (s : State) (pa n key : Nat) (alloc : Bool) : (openRange s pa n key alloc).offMemory = s.offMemory := by
  unfold openRange
  split
  · exact foldl_same State.offMemory _ (fun _ _ => openLine_off _ _ _ _) _ _
  · rfl

/-- The same of a read's range, whose errors are corrected. -/
theorem openRead_off (s : State) (pa n key : Nat) (alloc : Bool) : (openRead s pa n key alloc).offMemory = s.offMemory :=
  openRange_off { s with mem := s.mem.correct pa n } pa n key alloc

theorem fireWatches_off : ∀ (n : Nat) (s : State) (pa : Nat), (fireWatches n s pa).offWrite = s.offWrite
  | 0, _, _ => rfl
  | n + 1, _, _ => foldl_same State.offWrite _ (fun s k => by
      unfold fireSlot
      dsimp only
      split
      · rfl
      · split
        · rfl
        · split
          · exact (congrArg State.offWrite (flowOut_off _)).trans (holdMsg_off _ _ _)
          · exact fireWatches_off n _ _) _ _

/-- A write of memory changes nothing but what `offWrite` leaves out. -/
theorem writeNow_off (s : State) (id pa key : Nat) (bs : List Byte) (path : Option Path) (pubs : List Pub) :
    (writeNow s id pa key bs path pubs).offWrite = s.offWrite := by
  unfold writeNow
  split
  · rfl
  · have h : (openRange s pa bs.length key true).offMemory.offWrite = s.offMemory.offWrite :=
      congrArg State.offWrite (openRange_off s pa bs.length key true)
    revert h
    dsimp only
    generalize openRange s pa bs.length key true = t
    intro h
    exact (foldl_same State.offWrite _ (fun _ _ => fireWatches_off _ _ _) _ _).trans h

theorem writeOwn_off (s : State) (pa key : Nat) (bs : List Byte) (path : Option Path) (pubs : List Pub) :
    (writeOwn s pa key bs path pubs).2.offWrite = s.offWrite := writeNow_off _ _ _ _ _ _ _

@[simp] theorem openRange_strands (s : State) (pa n key : Nat) (alloc : Bool) : (openRange s pa n key alloc).strands = s.strands := by
  have h := congrArg State.strands (openRange_off s pa n key alloc)
  exact h
@[simp] theorem openRange_nextSid (s : State) (pa n key : Nat) (alloc : Bool) : (openRange s pa n key alloc).nextSid = s.nextSid := by
  have h := congrArg State.nextSid (openRange_off s pa n key alloc)
  exact h
@[simp] theorem openRange_braids (s : State) (pa n key : Nat) (alloc : Bool) : (openRange s pa n key alloc).braids = s.braids := by
  have h := congrArg State.braids (openRange_off s pa n key alloc)
  exact h
@[simp] theorem openRange_nextBid (s : State) (pa n key : Nat) (alloc : Bool) : (openRange s pa n key alloc).nextBid = s.nextBid := by
  have h := congrArg State.nextBid (openRange_off s pa n key alloc)
  exact h
@[simp] theorem openRange_ctxs (s : State) (pa n key : Nat) (alloc : Bool) : (openRange s pa n key alloc).ctxs = s.ctxs := by
  have h := congrArg State.ctxs (openRange_off s pa n key alloc)
  exact h
@[simp] theorem openRange_trans (s : State) (pa n key : Nat) (alloc : Bool) : (openRange s pa n key alloc).trans = s.trans := by
  have h := congrArg State.trans (openRange_off s pa n key alloc)
  exact h
@[simp] theorem openRange_flight (s : State) (pa n key : Nat) (alloc : Bool) : (openRange s pa n key alloc).flight = s.flight := by
  have h := congrArg State.flight (openRange_off s pa n key alloc)
  exact h
@[simp] theorem openRange_eng (s : State) (pa n key : Nat) (alloc : Bool) : (openRange s pa n key alloc).eng = s.eng := by
  have h := congrArg State.eng (openRange_off s pa n key alloc)
  exact h
@[simp] theorem openRange_queues (s : State) (pa n key : Nat) (alloc : Bool) : (openRange s pa n key alloc).queues = s.queues := by
  have h := congrArg State.queues (openRange_off s pa n key alloc)
  exact h
@[simp] theorem openRange_cmd (s : State) (pa n key : Nat) (alloc : Bool) : (openRange s pa n key alloc).cmd = s.cmd := by
  have h := congrArg State.cmd (openRange_off s pa n key alloc)
  exact h
@[simp] theorem openRange_clk (s : State) (pa n key : Nat) (alloc : Bool) : (openRange s pa n key alloc).clk = s.clk := by
  have h := congrArg State.clk (openRange_off s pa n key alloc)
  exact h
@[simp] theorem openRange_strips (s : State) (pa n key : Nat) (alloc : Bool) : (openRange s pa n key alloc).strips = s.strips := by
  have h := congrArg State.strips (openRange_off s pa n key alloc)
  exact h
@[simp] theorem openRange_keep (s : State) (pa n key : Nat) (alloc : Bool) : (openRange s pa n key alloc).keep = s.keep := by
  have h := congrArg State.keep (openRange_off s pa n key alloc)
  exact h
@[simp] theorem openRange_sreg (s : State) (pa n key : Nat) (alloc : Bool) : (openRange s pa n key alloc).sreg = s.sreg := by
  have h := congrArg State.sreg (openRange_off s pa n key alloc)
  exact h
@[simp] theorem openRange_inputs (s : State) (pa n key : Nat) (alloc : Bool) : (openRange s pa n key alloc).inputs = s.inputs := by
  have h := congrArg State.inputs (openRange_off s pa n key alloc)
  exact h
@[simp] theorem openRange_arg (s : State) (pa n key : Nat) (alloc : Bool) : (openRange s pa n key alloc).arg = s.arg := by
  have h := congrArg State.arg (openRange_off s pa n key alloc)
  exact h
@[simp] theorem openRange_choice (s : State) (pa n key : Nat) (alloc : Bool) : (openRange s pa n key alloc).choice = s.choice := by
  have h := congrArg State.choice (openRange_off s pa n key alloc)
  exact h
@[simp] theorem openRange_cur (s : State) (pa n key : Nat) (alloc : Bool) : (openRange s pa n key alloc).cur = s.cur := by
  have h := congrArg State.cur (openRange_off s pa n key alloc)
  exact h
@[simp] theorem openRange_fab (s : State) (pa n key : Nat) (alloc : Bool) : (openRange s pa n key alloc).fab = s.fab := by
  have h := congrArg State.fab (openRange_off s pa n key alloc)
  exact h
@[simp] theorem openRange_host (s : State) (pa n key : Nat) (alloc : Bool) : (openRange s pa n key alloc).host = s.host := by
  have h := congrArg State.host (openRange_off s pa n key alloc)
  exact h
@[simp] theorem openRead_strands (s : State) (pa n key : Nat) (alloc : Bool) : (openRead s pa n key alloc).strands = s.strands := by
  have h := congrArg State.strands (openRead_off s pa n key alloc)
  exact h
@[simp] theorem openRead_nextSid (s : State) (pa n key : Nat) (alloc : Bool) : (openRead s pa n key alloc).nextSid = s.nextSid := by
  have h := congrArg State.nextSid (openRead_off s pa n key alloc)
  exact h
@[simp] theorem openRead_braids (s : State) (pa n key : Nat) (alloc : Bool) : (openRead s pa n key alloc).braids = s.braids := by
  have h := congrArg State.braids (openRead_off s pa n key alloc)
  exact h
@[simp] theorem openRead_nextBid (s : State) (pa n key : Nat) (alloc : Bool) : (openRead s pa n key alloc).nextBid = s.nextBid := by
  have h := congrArg State.nextBid (openRead_off s pa n key alloc)
  exact h
@[simp] theorem openRead_ctxs (s : State) (pa n key : Nat) (alloc : Bool) : (openRead s pa n key alloc).ctxs = s.ctxs := by
  have h := congrArg State.ctxs (openRead_off s pa n key alloc)
  exact h
@[simp] theorem openRead_trans (s : State) (pa n key : Nat) (alloc : Bool) : (openRead s pa n key alloc).trans = s.trans := by
  have h := congrArg State.trans (openRead_off s pa n key alloc)
  exact h
@[simp] theorem openRead_flight (s : State) (pa n key : Nat) (alloc : Bool) : (openRead s pa n key alloc).flight = s.flight := by
  have h := congrArg State.flight (openRead_off s pa n key alloc)
  exact h
@[simp] theorem openRead_eng (s : State) (pa n key : Nat) (alloc : Bool) : (openRead s pa n key alloc).eng = s.eng := by
  have h := congrArg State.eng (openRead_off s pa n key alloc)
  exact h
@[simp] theorem openRead_queues (s : State) (pa n key : Nat) (alloc : Bool) : (openRead s pa n key alloc).queues = s.queues := by
  have h := congrArg State.queues (openRead_off s pa n key alloc)
  exact h
@[simp] theorem openRead_cmd (s : State) (pa n key : Nat) (alloc : Bool) : (openRead s pa n key alloc).cmd = s.cmd := by
  have h := congrArg State.cmd (openRead_off s pa n key alloc)
  exact h
@[simp] theorem openRead_clk (s : State) (pa n key : Nat) (alloc : Bool) : (openRead s pa n key alloc).clk = s.clk := by
  have h := congrArg State.clk (openRead_off s pa n key alloc)
  exact h
@[simp] theorem openRead_strips (s : State) (pa n key : Nat) (alloc : Bool) : (openRead s pa n key alloc).strips = s.strips := by
  have h := congrArg State.strips (openRead_off s pa n key alloc)
  exact h
@[simp] theorem openRead_keep (s : State) (pa n key : Nat) (alloc : Bool) : (openRead s pa n key alloc).keep = s.keep := by
  have h := congrArg State.keep (openRead_off s pa n key alloc)
  exact h
@[simp] theorem openRead_sreg (s : State) (pa n key : Nat) (alloc : Bool) : (openRead s pa n key alloc).sreg = s.sreg := by
  have h := congrArg State.sreg (openRead_off s pa n key alloc)
  exact h
@[simp] theorem openRead_inputs (s : State) (pa n key : Nat) (alloc : Bool) : (openRead s pa n key alloc).inputs = s.inputs := by
  have h := congrArg State.inputs (openRead_off s pa n key alloc)
  exact h
@[simp] theorem openRead_arg (s : State) (pa n key : Nat) (alloc : Bool) : (openRead s pa n key alloc).arg = s.arg := by
  have h := congrArg State.arg (openRead_off s pa n key alloc)
  exact h
@[simp] theorem openRead_choice (s : State) (pa n key : Nat) (alloc : Bool) : (openRead s pa n key alloc).choice = s.choice := by
  have h := congrArg State.choice (openRead_off s pa n key alloc)
  exact h
@[simp] theorem openRead_cur (s : State) (pa n key : Nat) (alloc : Bool) : (openRead s pa n key alloc).cur = s.cur := by
  have h := congrArg State.cur (openRead_off s pa n key alloc)
  exact h
@[simp] theorem openRead_fab (s : State) (pa n key : Nat) (alloc : Bool) : (openRead s pa n key alloc).fab = s.fab := by
  have h := congrArg State.fab (openRead_off s pa n key alloc)
  exact h
@[simp] theorem openRead_host (s : State) (pa n key : Nat) (alloc : Bool) : (openRead s pa n key alloc).host = s.host := by
  have h := congrArg State.host (openRead_off s pa n key alloc)
  exact h
@[simp] theorem writeNow_strands (s : State) (id pa key : Nat) (bs : List Byte) (path : Option Path) (pubs : List Pub) :
    (writeNow s id pa key bs path pubs).strands = s.strands := by
  have h := congrArg State.strands (writeNow_off s id pa key bs path pubs)
  exact h
@[simp] theorem writeOwn_strands (s : State) (pa key : Nat) (bs : List Byte) (path : Option Path) (pubs : List Pub) :
    (writeOwn s pa key bs path pubs).2.strands = s.strands := by
  have h := congrArg State.strands (writeOwn_off s pa key bs path pubs)
  exact h
@[simp] theorem writeNow_nextSid (s : State) (id pa key : Nat) (bs : List Byte) (path : Option Path) (pubs : List Pub) :
    (writeNow s id pa key bs path pubs).nextSid = s.nextSid := by
  have h := congrArg State.nextSid (writeNow_off s id pa key bs path pubs)
  exact h
@[simp] theorem writeOwn_nextSid (s : State) (pa key : Nat) (bs : List Byte) (path : Option Path) (pubs : List Pub) :
    (writeOwn s pa key bs path pubs).2.nextSid = s.nextSid := by
  have h := congrArg State.nextSid (writeOwn_off s pa key bs path pubs)
  exact h
@[simp] theorem writeNow_braids (s : State) (id pa key : Nat) (bs : List Byte) (path : Option Path) (pubs : List Pub) :
    (writeNow s id pa key bs path pubs).braids = s.braids := by
  have h := congrArg State.braids (writeNow_off s id pa key bs path pubs)
  exact h
@[simp] theorem writeOwn_braids (s : State) (pa key : Nat) (bs : List Byte) (path : Option Path) (pubs : List Pub) :
    (writeOwn s pa key bs path pubs).2.braids = s.braids := by
  have h := congrArg State.braids (writeOwn_off s pa key bs path pubs)
  exact h
@[simp] theorem writeNow_nextBid (s : State) (id pa key : Nat) (bs : List Byte) (path : Option Path) (pubs : List Pub) :
    (writeNow s id pa key bs path pubs).nextBid = s.nextBid := by
  have h := congrArg State.nextBid (writeNow_off s id pa key bs path pubs)
  exact h
@[simp] theorem writeOwn_nextBid (s : State) (pa key : Nat) (bs : List Byte) (path : Option Path) (pubs : List Pub) :
    (writeOwn s pa key bs path pubs).2.nextBid = s.nextBid := by
  have h := congrArg State.nextBid (writeOwn_off s pa key bs path pubs)
  exact h
@[simp] theorem writeNow_ctxs (s : State) (id pa key : Nat) (bs : List Byte) (path : Option Path) (pubs : List Pub) :
    (writeNow s id pa key bs path pubs).ctxs = s.ctxs := by
  have h := congrArg State.ctxs (writeNow_off s id pa key bs path pubs)
  exact h
@[simp] theorem writeOwn_ctxs (s : State) (pa key : Nat) (bs : List Byte) (path : Option Path) (pubs : List Pub) :
    (writeOwn s pa key bs path pubs).2.ctxs = s.ctxs := by
  have h := congrArg State.ctxs (writeOwn_off s pa key bs path pubs)
  exact h
@[simp] theorem writeNow_trans (s : State) (id pa key : Nat) (bs : List Byte) (path : Option Path) (pubs : List Pub) :
    (writeNow s id pa key bs path pubs).trans = s.trans := by
  have h := congrArg State.trans (writeNow_off s id pa key bs path pubs)
  exact h
@[simp] theorem writeOwn_trans (s : State) (pa key : Nat) (bs : List Byte) (path : Option Path) (pubs : List Pub) :
    (writeOwn s pa key bs path pubs).2.trans = s.trans := by
  have h := congrArg State.trans (writeOwn_off s pa key bs path pubs)
  exact h
@[simp] theorem writeNow_loads (s : State) (id pa key : Nat) (bs : List Byte) (path : Option Path) (pubs : List Pub) :
    (writeNow s id pa key bs path pubs).flight.loads = s.flight.loads := by
  have h := congrArg (fun x : State => x.flight.loads) (writeNow_off s id pa key bs path pubs)
  exact h
@[simp] theorem writeNow_stores (s : State) (id pa key : Nat) (bs : List Byte) (path : Option Path) (pubs : List Pub) :
    (writeNow s id pa key bs path pubs).flight.stores = s.flight.stores := by
  have h := congrArg (fun x : State => x.flight.stores) (writeNow_off s id pa key bs path pubs)
  exact h
@[simp] theorem writeNow_atoms (s : State) (id pa key : Nat) (bs : List Byte) (path : Option Path) (pubs : List Pub) :
    (writeNow s id pa key bs path pubs).flight.atoms = s.flight.atoms := by
  have h := congrArg (fun x : State => x.flight.atoms) (writeNow_off s id pa key bs path pubs)
  exact h
@[simp] theorem writeNow_sfu (s : State) (id pa key : Nat) (bs : List Byte) (path : Option Path) (pubs : List Pub) :
    (writeNow s id pa key bs path pubs).flight.sfu = s.flight.sfu := by
  have h := congrArg (fun x : State => x.flight.sfu) (writeNow_off s id pa key bs path pubs)
  exact h
@[simp] theorem writeNow_pops (s : State) (id pa key : Nat) (bs : List Byte) (path : Option Path) (pubs : List Pub) :
    (writeNow s id pa key bs path pubs).flight.pops = s.flight.pops := by
  have h := congrArg (fun x : State => x.flight.pops) (writeNow_off s id pa key bs path pubs)
  exact h
@[simp] theorem writeNow_texels (s : State) (id pa key : Nat) (bs : List Byte) (path : Option Path) (pubs : List Pub) :
    (writeNow s id pa key bs path pubs).flight.texels = s.flight.texels := by
  have h := congrArg (fun x : State => x.flight.texels) (writeNow_off s id pa key bs path pubs)
  exact h
@[simp] theorem writeOwn_loads (s : State) (pa key : Nat) (bs : List Byte) (path : Option Path) (pubs : List Pub) :
    (writeOwn s pa key bs path pubs).2.flight.loads = s.flight.loads := by
  have h := congrArg (fun x : State => x.flight.loads) (writeOwn_off s pa key bs path pubs)
  exact h
@[simp] theorem writeOwn_stores (s : State) (pa key : Nat) (bs : List Byte) (path : Option Path) (pubs : List Pub) :
    (writeOwn s pa key bs path pubs).2.flight.stores = s.flight.stores := by
  have h := congrArg (fun x : State => x.flight.stores) (writeOwn_off s pa key bs path pubs)
  exact h
@[simp] theorem writeOwn_atoms (s : State) (pa key : Nat) (bs : List Byte) (path : Option Path) (pubs : List Pub) :
    (writeOwn s pa key bs path pubs).2.flight.atoms = s.flight.atoms := by
  have h := congrArg (fun x : State => x.flight.atoms) (writeOwn_off s pa key bs path pubs)
  exact h
@[simp] theorem writeOwn_sfu (s : State) (pa key : Nat) (bs : List Byte) (path : Option Path) (pubs : List Pub) :
    (writeOwn s pa key bs path pubs).2.flight.sfu = s.flight.sfu := by
  have h := congrArg (fun x : State => x.flight.sfu) (writeOwn_off s pa key bs path pubs)
  exact h
@[simp] theorem writeOwn_pops (s : State) (pa key : Nat) (bs : List Byte) (path : Option Path) (pubs : List Pub) :
    (writeOwn s pa key bs path pubs).2.flight.pops = s.flight.pops := by
  have h := congrArg (fun x : State => x.flight.pops) (writeOwn_off s pa key bs path pubs)
  exact h
@[simp] theorem writeOwn_texels (s : State) (pa key : Nat) (bs : List Byte) (path : Option Path) (pubs : List Pub) :
    (writeOwn s pa key bs path pubs).2.flight.texels = s.flight.texels := by
  have h := congrArg (fun x : State => x.flight.texels) (writeOwn_off s pa key bs path pubs)
  exact h
@[simp] theorem writeNow_eng (s : State) (id pa key : Nat) (bs : List Byte) (path : Option Path) (pubs : List Pub) :
    (writeNow s id pa key bs path pubs).eng = s.eng := by
  have h := congrArg State.eng (writeNow_off s id pa key bs path pubs)
  exact h
@[simp] theorem writeOwn_eng (s : State) (pa key : Nat) (bs : List Byte) (path : Option Path) (pubs : List Pub) :
    (writeOwn s pa key bs path pubs).2.eng = s.eng := by
  have h := congrArg State.eng (writeOwn_off s pa key bs path pubs)
  exact h
@[simp] theorem writeNow_queues (s : State) (id pa key : Nat) (bs : List Byte) (path : Option Path) (pubs : List Pub) :
    (writeNow s id pa key bs path pubs).queues = s.queues := by
  have h := congrArg State.queues (writeNow_off s id pa key bs path pubs)
  exact h
@[simp] theorem writeOwn_queues (s : State) (pa key : Nat) (bs : List Byte) (path : Option Path) (pubs : List Pub) :
    (writeOwn s pa key bs path pubs).2.queues = s.queues := by
  have h := congrArg State.queues (writeOwn_off s pa key bs path pubs)
  exact h
@[simp] theorem writeNow_cmd (s : State) (id pa key : Nat) (bs : List Byte) (path : Option Path) (pubs : List Pub) :
    (writeNow s id pa key bs path pubs).cmd = s.cmd := by
  have h := congrArg State.cmd (writeNow_off s id pa key bs path pubs)
  exact h
@[simp] theorem writeOwn_cmd (s : State) (pa key : Nat) (bs : List Byte) (path : Option Path) (pubs : List Pub) :
    (writeOwn s pa key bs path pubs).2.cmd = s.cmd := by
  have h := congrArg State.cmd (writeOwn_off s pa key bs path pubs)
  exact h
@[simp] theorem writeNow_clk (s : State) (id pa key : Nat) (bs : List Byte) (path : Option Path) (pubs : List Pub) :
    (writeNow s id pa key bs path pubs).clk = s.clk := by
  have h := congrArg State.clk (writeNow_off s id pa key bs path pubs)
  exact h
@[simp] theorem writeOwn_clk (s : State) (pa key : Nat) (bs : List Byte) (path : Option Path) (pubs : List Pub) :
    (writeOwn s pa key bs path pubs).2.clk = s.clk := by
  have h := congrArg State.clk (writeOwn_off s pa key bs path pubs)
  exact h
@[simp] theorem writeNow_strips (s : State) (id pa key : Nat) (bs : List Byte) (path : Option Path) (pubs : List Pub) :
    (writeNow s id pa key bs path pubs).strips = s.strips := by
  have h := congrArg State.strips (writeNow_off s id pa key bs path pubs)
  exact h
@[simp] theorem writeOwn_strips (s : State) (pa key : Nat) (bs : List Byte) (path : Option Path) (pubs : List Pub) :
    (writeOwn s pa key bs path pubs).2.strips = s.strips := by
  have h := congrArg State.strips (writeOwn_off s pa key bs path pubs)
  exact h
@[simp] theorem writeNow_keep (s : State) (id pa key : Nat) (bs : List Byte) (path : Option Path) (pubs : List Pub) :
    (writeNow s id pa key bs path pubs).keep = s.keep := by
  have h := congrArg State.keep (writeNow_off s id pa key bs path pubs)
  exact h
@[simp] theorem writeOwn_keep (s : State) (pa key : Nat) (bs : List Byte) (path : Option Path) (pubs : List Pub) :
    (writeOwn s pa key bs path pubs).2.keep = s.keep := by
  have h := congrArg State.keep (writeOwn_off s pa key bs path pubs)
  exact h
@[simp] theorem writeNow_sreg (s : State) (id pa key : Nat) (bs : List Byte) (path : Option Path) (pubs : List Pub) :
    (writeNow s id pa key bs path pubs).sreg = s.sreg := by
  have h := congrArg State.sreg (writeNow_off s id pa key bs path pubs)
  exact h
@[simp] theorem writeOwn_sreg (s : State) (pa key : Nat) (bs : List Byte) (path : Option Path) (pubs : List Pub) :
    (writeOwn s pa key bs path pubs).2.sreg = s.sreg := by
  have h := congrArg State.sreg (writeOwn_off s pa key bs path pubs)
  exact h
@[simp] theorem writeNow_inputs (s : State) (id pa key : Nat) (bs : List Byte) (path : Option Path) (pubs : List Pub) :
    (writeNow s id pa key bs path pubs).inputs = s.inputs := by
  have h := congrArg State.inputs (writeNow_off s id pa key bs path pubs)
  exact h
@[simp] theorem writeOwn_inputs (s : State) (pa key : Nat) (bs : List Byte) (path : Option Path) (pubs : List Pub) :
    (writeOwn s pa key bs path pubs).2.inputs = s.inputs := by
  have h := congrArg State.inputs (writeOwn_off s pa key bs path pubs)
  exact h
@[simp] theorem writeNow_arg (s : State) (id pa key : Nat) (bs : List Byte) (path : Option Path) (pubs : List Pub) :
    (writeNow s id pa key bs path pubs).arg = s.arg := by
  have h := congrArg State.arg (writeNow_off s id pa key bs path pubs)
  exact h
@[simp] theorem writeOwn_arg (s : State) (pa key : Nat) (bs : List Byte) (path : Option Path) (pubs : List Pub) :
    (writeOwn s pa key bs path pubs).2.arg = s.arg := by
  have h := congrArg State.arg (writeOwn_off s pa key bs path pubs)
  exact h
@[simp] theorem writeNow_choice (s : State) (id pa key : Nat) (bs : List Byte) (path : Option Path) (pubs : List Pub) :
    (writeNow s id pa key bs path pubs).choice = s.choice := by
  have h := congrArg State.choice (writeNow_off s id pa key bs path pubs)
  exact h
@[simp] theorem writeOwn_choice (s : State) (pa key : Nat) (bs : List Byte) (path : Option Path) (pubs : List Pub) :
    (writeOwn s pa key bs path pubs).2.choice = s.choice := by
  have h := congrArg State.choice (writeOwn_off s pa key bs path pubs)
  exact h
@[simp] theorem writeNow_cur (s : State) (id pa key : Nat) (bs : List Byte) (path : Option Path) (pubs : List Pub) :
    (writeNow s id pa key bs path pubs).cur = s.cur := by
  have h := congrArg State.cur (writeNow_off s id pa key bs path pubs)
  exact h
@[simp] theorem writeOwn_cur (s : State) (pa key : Nat) (bs : List Byte) (path : Option Path) (pubs : List Pub) :
    (writeOwn s pa key bs path pubs).2.cur = s.cur := by
  have h := congrArg State.cur (writeOwn_off s pa key bs path pubs)
  exact h

/-! ### Posted events -/

/-- All of a state but what an event posted can change: what a write of memory can, the event ring, and the queues that an
event lost stops (R308, R309). -/
def State.offEvents (s : State) : State := { s.offWrite with cmd := {}, queues := [] }

theorem evrPut_off (s : State) (e : Nat) : (evrPut s e).offEvents = s.offEvents := by
  unfold evrPut
  generalize toLE 32 _ = b
  generalize evrSlot s = a
  have h := congrArg State.offEvents (writeOwn_off s a 0 b none [])
  revert h
  generalize writeOwn s a 0 b none [] = w
  exact fun h => h

theorem evrFlush_off : ∀ (n : Nat) (s : State), (evrFlush n s).offEvents = s.offEvents
  | 0, _ => rfl
  | n + 1, s => by
    unfold evrFlush
    split
    · rfl
    · split
      · rfl
      · exact (evrFlush_off n _).trans (evrPut_off _ _)

theorem flushEvents_off (s : State) : (flushEvents s).offEvents = s.offEvents := evrFlush_off _ _

theorem evrWrite_off (s : State) (src ctx type data : Nat) : (evrWrite s src ctx type data).offEvents = s.offEvents := by
  unfold evrWrite
  dsimp only
  split
  · exact evrPut_off _ _
  · rfl

theorem evrOverflow_off (s : State) : (evrOverflow s).offEvents = s.offEvents := by
  unfold evrOverflow
  dsimp only
  split
  · have h := evrWrite_off s 0xFFFF 0xFF 0x0006 (s.cmd.evr.lost + s.cmd.evr.lostSrc * 2 ^ 32)
    revert h
    generalize evrWrite s _ _ _ _ = t
    exact fun h => h
  · rfl

theorem evrLose_off (s : State) (src : Nat) : (evrLose s src).offEvents = s.offEvents := by
  unfold evrLose
  dsimp only
  split
  · rfl
  · split <;> rfl

/-- An event posted changes nothing but what `offEvents` leaves out. -/
theorem postEvent_off (s : State) (src ctx type data : Nat) : (postEvent s src ctx type data).offEvents = s.offEvents := by
  unfold postEvent
  dsimp only
  split
  · exact (evrWrite_off _ _ _ _ _).trans ((evrOverflow_off _).trans (flushEvents_off s))
  · exact (evrLose_off _ _).trans ((evrOverflow_off _).trans (flushEvents_off s))

@[simp] theorem postEvent_strands (s : State) (src ctx type data : Nat) : (postEvent s src ctx type data).strands = s.strands := by
  have h := congrArg State.strands (postEvent_off s src ctx type data)
  exact h
@[simp] theorem postEvent_nextSid (s : State) (src ctx type data : Nat) : (postEvent s src ctx type data).nextSid = s.nextSid := by
  have h := congrArg State.nextSid (postEvent_off s src ctx type data)
  exact h
@[simp] theorem postEvent_braids (s : State) (src ctx type data : Nat) : (postEvent s src ctx type data).braids = s.braids := by
  have h := congrArg State.braids (postEvent_off s src ctx type data)
  exact h
@[simp] theorem postEvent_nextBid (s : State) (src ctx type data : Nat) : (postEvent s src ctx type data).nextBid = s.nextBid := by
  have h := congrArg State.nextBid (postEvent_off s src ctx type data)
  exact h
@[simp] theorem postEvent_ctxs (s : State) (src ctx type data : Nat) : (postEvent s src ctx type data).ctxs = s.ctxs := by
  have h := congrArg State.ctxs (postEvent_off s src ctx type data)
  exact h
@[simp] theorem postEvent_trans (s : State) (src ctx type data : Nat) : (postEvent s src ctx type data).trans = s.trans := by
  have h := congrArg State.trans (postEvent_off s src ctx type data)
  exact h
@[simp] theorem postEvent_loads (s : State) (src ctx type data : Nat) :
    (postEvent s src ctx type data).flight.loads = s.flight.loads := by
  have h := congrArg (fun x : State => x.flight.loads) (postEvent_off s src ctx type data)
  exact h
@[simp] theorem postEvent_stores (s : State) (src ctx type data : Nat) :
    (postEvent s src ctx type data).flight.stores = s.flight.stores := by
  have h := congrArg (fun x : State => x.flight.stores) (postEvent_off s src ctx type data)
  exact h
@[simp] theorem postEvent_atoms (s : State) (src ctx type data : Nat) :
    (postEvent s src ctx type data).flight.atoms = s.flight.atoms := by
  have h := congrArg (fun x : State => x.flight.atoms) (postEvent_off s src ctx type data)
  exact h
@[simp] theorem postEvent_sfu (s : State) (src ctx type data : Nat) :
    (postEvent s src ctx type data).flight.sfu = s.flight.sfu := by
  have h := congrArg (fun x : State => x.flight.sfu) (postEvent_off s src ctx type data)
  exact h
@[simp] theorem postEvent_pops (s : State) (src ctx type data : Nat) :
    (postEvent s src ctx type data).flight.pops = s.flight.pops := by
  have h := congrArg (fun x : State => x.flight.pops) (postEvent_off s src ctx type data)
  exact h
@[simp] theorem postEvent_texels (s : State) (src ctx type data : Nat) :
    (postEvent s src ctx type data).flight.texels = s.flight.texels := by
  have h := congrArg (fun x : State => x.flight.texels) (postEvent_off s src ctx type data)
  exact h
@[simp] theorem postEvent_eng (s : State) (src ctx type data : Nat) : (postEvent s src ctx type data).eng = s.eng := by
  have h := congrArg State.eng (postEvent_off s src ctx type data)
  exact h
@[simp] theorem postEvent_clk (s : State) (src ctx type data : Nat) : (postEvent s src ctx type data).clk = s.clk := by
  have h := congrArg State.clk (postEvent_off s src ctx type data)
  exact h
@[simp] theorem postEvent_strips (s : State) (src ctx type data : Nat) : (postEvent s src ctx type data).strips = s.strips := by
  have h := congrArg State.strips (postEvent_off s src ctx type data)
  exact h
@[simp] theorem postEvent_keep (s : State) (src ctx type data : Nat) : (postEvent s src ctx type data).keep = s.keep := by
  have h := congrArg State.keep (postEvent_off s src ctx type data)
  exact h
@[simp] theorem postEvent_sreg (s : State) (src ctx type data : Nat) : (postEvent s src ctx type data).sreg = s.sreg := by
  have h := congrArg State.sreg (postEvent_off s src ctx type data)
  exact h
@[simp] theorem postEvent_inputs (s : State) (src ctx type data : Nat) : (postEvent s src ctx type data).inputs = s.inputs := by
  have h := congrArg State.inputs (postEvent_off s src ctx type data)
  exact h
@[simp] theorem postEvent_arg (s : State) (src ctx type data : Nat) : (postEvent s src ctx type data).arg = s.arg := by
  have h := congrArg State.arg (postEvent_off s src ctx type data)
  exact h
@[simp] theorem postEvent_choice (s : State) (src ctx type data : Nat) : (postEvent s src ctx type data).choice = s.choice := by
  have h := congrArg State.choice (postEvent_off s src ctx type data)
  exact h
@[simp] theorem postEvent_cur (s : State) (src ctx type data : Nat) : (postEvent s src ctx type data).cur = s.cur := by
  have h := congrArg State.cur (postEvent_off s src ctx type data)
  exact h

end Sys2Proof.Machine
end

