-- ==== Sys2Proof/Laws/Traps.lean ====
section
/-!
SUPPORT. What performing a strand's accesses, retiring it, taking a trap and ending an instruction can do to memory and to
what the trap registers hold.
-/

set_option Elab.async false

namespace Sys2Proof.Machine
open Sys2Proof

/-! ### The canonical form of memory -/

theorem wf_performStore {s : State} (h : s.mem.wf = true) (op : StoreOp) : (performStore s op).mem.wf = true :=
  wf_writeNow (wf_settleZeroFor (by exact h) _ _ _) _ _ _ _ _ _

theorem wf_performLoad {i : Issue} (h : i.s.mem.wf = true) (op : LoadOp) : (performLoad i op).s.mem.wf = true := by
  have hz := wf_settleZero h op.pa op.len
  unfold performLoad
  dsimp only
  split
  · exact hz
  · have ho := wf_openRead
      (s := setFlight (settleZero i.s op.pa op.len) fun f => { f with loads := f.loads.filter fun x => x.id != op.id })
      (by exact hz) op.pa op.len op.key op.alloc
    split
    · exact ho
    · exact (congrArg Memory.wf (readKnown_mem _ _ .b op.pa op.len)).trans ho

theorem wf_performAtom {s : State} (h : s.mem.wf = true) (op : AtomOp) : (performAtom s op).mem.wf = true := by
  unfold performAtom
  generalize (if op.wide then 64 else 32) = n
  have hz := wf_settleZeroFor h op.id op.pa (n / 8)
  dsimp only
  split
  · exact hz
  · split
    · exact wf_openRead hz _ _ _ _
    · exact wf_writeNow (wf_readNow hz _ _ _) _ _ _ _ _ _

theorem returnAtom_mem (i : Issue) (op : AtomOp) : (returnAtom i op).s.mem = i.s.mem := by
  unfold returnAtom
  dsimp only
  split <;> rfl

theorem leavesMiss_mem (i : Issue) (c : Nat) : (leavesMiss i c).s.mem = i.s.mem := by
  unfold leavesMiss
  split
  · split <;> rfl
  · rfl

theorem leaveWaits_mem (s : State) (st : Strand) : (leaveWaits s st).mem = s.mem := by
  unfold leaveWaits
  split <;> rfl

theorem handFragment_mem (s : State) (st : Strand) (fb : FragBead) (c : Option (List Word)) (z : Option Word) :
    (handFragment s st fb c z).mem = s.mem := by
  unfold handFragment
  split <;> rfl

theorem discardFrags_mem (s : State) (st : Strand) (b : DWord) : (discardFrags s st b).mem = s.mem :=
  foldl_same State.mem _ (fun _ _ => handFragment_mem _ _ _ _ _) _ _

theorem leaveHinges_mem (s : State) (st : Strand) : (leaveHinges s st).mem = s.mem :=
  foldl_same State.mem _ (fun s h => by dsimp only; split <;> rfl) _ _

theorem releaseBraid_mem (s : State) (b : Nat) : (releaseBraid s b).mem = s.mem := by
  unfold releaseBraid
  split
  · rfl
  · dsimp only; split <;> rfl

theorem freePlace_mem (s : State) (b : Braid) : (freePlace s b).mem = s.mem := by
  unfold freePlace
  dsimp only
  refine (foldl_same State.mem _ (fun s _ => startZero_mem s _) _ _).trans ?_
  split <;> rfl

theorem retireBraid_mem (s : State) (b : Nat) : (retireBraid s b).mem = s.mem := by
  unfold retireBraid
  split
  · rfl
  · rename_i x _
    have hp : ∀ c : Prop, ∀ [Decidable c], (if c then freePlace s x else s).mem = s.mem := by
      intro c _; split
      · exact freePlace_mem s x
      · rfl
    dsimp only
    split
    · exact hp _
    · exact (releaseBraid_mem _ b).trans (hp _)

/-- A strand that retires changes no byte of memory (R86). -/
theorem retireStrand_mem (s : State) (sid : Nat) : (retireStrand s sid).mem = s.mem := by
  unfold retireStrand
  split
  · rfl
  · rename_i st _
    dsimp only
    have h : ∀ t : State, t.mem = s.mem →
        (leaveHinges (dropDue (discardFrags t st (liveMask st)) sid) st).mem = s.mem := by
      intro t ht
      rw [leaveHinges_mem]
      exact (discardFrags_mem t st _).trans ht
    have h2 : ∀ t : State, t.mem = s.mem → ∀ k f, ∀ m : SMap Strand,
        (if m.any fun e => e.2.braid == st.braid then { setKernel t k f with strands := m }
         else retireBraid { setKernel t k f with strands := m } st.braid).mem = s.mem := by
      intro t ht k f m
      split
      · exact ht
      · exact (retireBraid_mem _ _).trans ht
    refine h2 _ (h _ ?_) _ _ _
    split
    · rfl
    · exact leaveWaits_mem s st

theorem wf_haltWith {i : Issue} (h : i.s.mem.wf = true) (c n : Nat) (a : Word) : (haltWith i c n a).mem.wf = true := by
  unfold haltWith
  exact wf_postEvent (by exact h) _ _ _ _

theorem beginCapture_mem (s : State) (b c : Nat) : (beginCapture s b c).mem = s.mem := by
  unfold beginCapture
  split <;> rfl

/-- Taking a trap keeps the canonical form of memory. -/
theorem wf_takeTrapAt {i : Issue} (h : i.s.mem.wf = true) (t : TrapInfo) (pc : Word) (bead : Nat) :
    (takeTrapAt i t pc bead).mem.wf = true := by
  have hd : (withdrawPops (leavesMiss i t.cause)).s.mem.wf = true := (congrArg Memory.wf (leavesMiss_mem i t.cause)).trans h
  unfold takeTrapAt
  split
  · exact wf_haltWith h _ _ _
  · revert hd
    dsimp only
    generalize withdrawPops (leavesMiss i t.cause) = d
    intro hd
    split
    · split
      · exact (congrArg Memory.wf (retireStrand_mem _ _)).trans hd
      · exact wf_haltWith (by exact hd) _ _ _
    · exact (congrArg Memory.wf (beginCapture_mem _ _ _)).trans hd

/-- What an instruction comes to keeps the canonical form, if what it did does. -/
theorem wf_settle {o : BeadOut} (h : match o with | .ok i | .block _ i | .trap _ i => i.s.mem.wf = true) : (settle o).mem.wf = true := by
  cases o with
  | ok i =>
    simp only [settle]
    split
    · exact (congrArg Memory.wf (retireStrand_mem _ _)).trans h
    · exact h
  | block w i => exact h
  | trap t i => exact wf_takeTrapAt h _ _ _

/-! ### Taking a trap -/

/-- TAKING A TRAP of a strand that is not in a handler and whose kernel names one: the trap registers hold the cause, the bead,
the pc, the information, the mask and the address, the interrupted control flow is set aside, and the strand goes on at the
handler with all its unretired beads (R395, R396). -/
theorem takeTrapAt_enters {i : Issue} (t : TrapInfo) (pc : Word) (bead : Nat) (h : i.st.inTrap = false)
    (he : (kernelOf i.s i.st).lrec.trap ≠ noEntry) :
    takeTrapAt i t pc bead =
      let d := withdrawPops (leavesMiss i t.cause)
      commit { d with s := beginCapture d.s i.st.braid t.cause
                      st := { setAside d.st t pc bead with pc := (kernelOf i.s i.st).lrec.trap } } := by
  have hs : ∀ st : Strand, kernelOf (leavesMiss i t.cause).s st = kernelOf i.s st := by
    intro st; unfold leavesMiss; split
    · split <;> rfl
    · rfl
  have hk : (leavesMiss i t.cause).st.kernel = i.st.kernel := by
    unfold leavesMiss; split
    · split <;> rfl
    · rfl
  have hb : (leavesMiss i t.cause).st.braid = i.st.braid := by
    unfold leavesMiss; split
    · split <;> rfl
    · rfl
  have hq : kernelOf (withdrawPops (leavesMiss i t.cause)).s (withdrawPops (leavesMiss i t.cause)).st = kernelOf i.s i.st := by
    change kernelOf (leavesMiss i t.cause).s (leavesMiss i t.cause).st = _
    rw [hs]; unfold kernelOf; rw [hk]
  unfold takeTrapAt
  rw [if_neg (by simp [h])]
  dsimp only
  rw [hq, if_neg he]
  have hb' : (setAside (withdrawPops (leavesMiss i t.cause)).st t pc bead).braid = i.st.braid := hb
  rw [hb']

/-- In a handler a trap halts the strand (R399). -/
theorem takeTrapAt_double {i : Issue} (t : TrapInfo) (pc : Word) (bead : Nat) (h : i.st.inTrap = true) :
    takeTrapAt i t pc bead = haltWith i t.cause i.st.trap.cause.toNat (t.at_.getD pc) := by
  unfold takeTrapAt
  rw [if_pos h]

end Sys2Proof.Machine
end

