-- ==== Sys2Proof/Tests/Slice0.lean ====
section
/-!
SUPPORT. Tests: ill-formed terms, words written out from the encoding tables, single steps whose results come from the
manual's own formulas and examples, and for each statement states and operands that meet what it assumes.
-/

set_option Elab.async false

namespace Sys2Proof.Tests
open Sys2Proof Sys2Proof.Machine Sys2Proof.Claims

/-! ### Small states -/

/-- A strand of 16 beads, two of them active, of kernel 1 in context 1. -/
def st0 : Strand := { kernel := 1, ctx := 1, flow := { mask := 3 } }

/-- A machine in which one strand issues; its kernel has a trap entry at 0x80. -/
def stateOf (st : Strand) : State :=
  { State.reset with
    strands := [(0, st)], nextSid := 1, braids := [(0, { kernel := 1, ctx := 1, saveOff := 0 })], nextBid := 1
    ctxs := [(1, { st := .active, seeds := [0], keyCount := 1, pinQuota := 4, saveQuota := 1 })]
    cmd := { kernels := [(1, { ctx := 1, lrec := { trap := 0x80, save := 2, rc := 1, uc := 1, nstr := 0 }, total := 1, placed := [0] })],
             nextKernel := 2 }
    keep := { released := 5 } }

/-- The machine of st0. -/
def s0 : State := stateOf st0

/-- What an instruction or a happening comes to; a stop shows as the state before. -/
def after (i : Instr) (s : State) : State := match exec i s with | .next t => t | _ => s

/-- Whether it answers a next state. -/
def goesOn (i : Instr) (s : State) : Bool := match exec i s with | .next _ => true | _ => false

/-- The strand that issued, afterwards. -/
def strandAfter (i : Instr) (s : State) : Strand := lookD (after i s).strands s.cur {}

/-- A strand with bead registers set, by register × 64 + bead. -/
def withBeads (st : Strand) (l : List (Nat × Word)) : Strand := { st with breg := l.map fun e => (e.1, { val := e.2 }) }

/-- A strand with uniform registers set. -/
def withUni (st : Strand) (l : List (Nat × Word)) : Strand := { st with ureg := l.map fun e => (e.1, { val := e.2 }) }

/-- What bead j reads from a register after an instruction of the strand st. -/
def result (i : Instr) (st : Strand) (j : Nat) (d : Reg) : Word := readReg (strandAfter i (stateOf st)) j d

theorem issues_of (st : Strand) : Issues (stateOf st) st := rfl
theorem alive0 : Alive st0 := ⟨by decide, by decide⟩
theorem plain0 : PlainNext st0 := fun _ h => nomatch h

/-! ### Ill-formed terms (R46, R73, R129 to R132, R213) -/

theorem test_wf_loop_short : (Instr.loop (.uni 0) 1).wf = false := by decide
theorem test_wf_loop_back : (Instr.loop (.uni 0) 0x20000).wf = false := by decide
theorem test_wf_loop : (Instr.loop (.uni 0) 2).wf = true := by decide
theorem test_wf_cvtn_format : (Instr.cvtn (.bead 0) (.bead 0) .int32 .rne false 0 false).wf = false := by decide
theorem test_wf_cvtn_place : (Instr.cvtn (.bead 0) (.bead 0) .fp16 .rne false 2 false).wf = false := by decide
theorem test_wf_cvtw_format : (Instr.cvtw (.bead 0) (.bead 0) .fp32 0 false).wf = false := by decide
theorem test_wf_cvtw_place : (Instr.cvtw (.bead 0) (.bead 0) .int8 4 false).wf = false := by decide
theorem test_wf_fence_paths : (Instr.fence 0 .ar .system).wf = false := by decide

/-! ### Words from the tables of R33, R45, R46 -/

/-- The instruction that decoding gives, or the check that fails. -/
def okOf : Decoded → Option Instr
  | .ok i => some i
  | .error _ => none
def errOf : Decoded → Option DecodeError
  | .ok _ => none
  | .error e => some e

theorem ok_of {d : Decoded} {i : Instr} (h : okOf d = some i) : d = .ok i := by
  cases d <;> simp_all [okOf]

theorem test_words_known : ∀ e ∈ knownWords, okOf (decode e.1) = some e.2 := by decide
theorem test_words_refused : ∀ e ∈ refusedWords, errOf (decode e.1) = some e.2 := by decide
/-- R115: ADDI b1, b1, #-1. -/
theorem test_word_addi : encode (.addi (.bead 1) (.bead 1) (-1) false) = some 0x22040FFE := by decide
/-- R421's example: FENCE #LB, #ACQ, #SYSTEM. -/
theorem test_word_fence : encode (.fence 17 .acq .system) = some 0xC4446000 := by decide

/-! ### Forms on registers: what the statements assume, and a few results -/

/-- A strand with values in b1, b2 and b3 of both active beads, and in u0 to u3. -/
def stV : Strand := withUni (withBeads st0
  [(64, 0xFFFFFFFF), (65, 0x80000000), (128, 1), (129, 31), (192, 5), (193, 7)]) [(0, 0x3F800000), (1, 2), (2, 0xFFFFFFFF), (3, 0)]

/-- A row whose operands exist and are full, that needs no pop: what `Row.Completes` and `Row.Queues` assume. -/
def ready (st : Strand) (r : Option Row) : Bool :=
  match r with
  | some r => r.legal st && r.form.dsts.all (fun d => !isPort d) && decide (r.form.pops = 0) &&
      (actsOn st r.form.uniform).all fun j => (r.form.srcs ++ r.form.dsts).all fun x => (fillOf st j x).isFull
  | none => false

/-- The integer forms on bead registers, and one of each class on uniform ones. -/
def integerForms : List Instr :=
  let k := fun (f : Reg → Reg → Reg → Bool → Bool → Instr) => f (.bead 4) (.bead 1) (.uni 0) true false
  let u := fun (f : Reg → Reg → Bool → Instr) => f (.bead 4) (.bead 1) false
  let p := fun (f : Reg → Reg → Reg → Bool → Bool → Instr) => f (.bead 4) (.bead 2) (.uni 2) false false
  [k .add, k .addc, k .sub, k .subb, k .mul, k .mulhu, k .mulhs, k .mulhsu, k .mad, k .minu, k .mins, k .maxu, k .maxs, k .and, k .or,
   k .xor, k .andn, k .shl, k .shr, k .sar, k .rol, k .bfxu, k .bfxs, k .bfi, k .ilv2, k .ilv3, k .dlv3, k .ceq, k .cne, k .cltu, k .clts,
   k .cleu, k .cles, k .cbit, k .sel, u .clz, u .ctz, u .popc, u .brev, u .dlv2, u .abs, u .neg, u .sext8, u .sext16, u .mov,
   .addi (.uni 4) (.uni 0) 0x3FF false, .andi .zr (.bead 1) 8 false, .ori .lc .sx 1 false, .xori (.bead 87) .bx 1 false,
   .shli (.bead 0) (.bead 1) 31 false, .shri (.bead 0) (.bead 1) 0 false, .sari (.bead 0) (.bead 1) 1 true, .roli (.uni 31) .zr 4 false,
   .movh (.bead 0) 0x3FFFF, .orl (.uni 0) 1, .movp (.bead 4) (.uni 2) false,
   p .add64, p .sub64, p .shl64, p .shru64]

/-- A strand with every register that the lists name, in a hardware loop. -/
def stAll : Strand :=
  { stV with regs := 88, uregs := 32, flow := { mask := 3, loops := [{ start := 0, stop := 0x40, lc := 3, d := 0, frame := 0 }] } }

theorem test_meets_IntegerResults : Alive stAll ∧ PlainNext stAll ∧
    integerForms.all (fun i => ready stAll (integerRow i)) = true :=
  ⟨⟨by decide, by decide⟩, by unfold PlainNext; decide, by decide⟩

/-- The floating-point forms. -/
def floatForms : List Instr :=
  let k := fun (f : Reg → Reg → Reg → Bool → Bool → Instr) => f (.bead 4) (.bead 1) (.uni 0) true false
  let u := fun (f : Reg → Reg → Bool → Instr) => f (.bead 4) (.bead 1) false
  [k .fadd, k .fsub, k .fmul, k .ffma, k .ffms, k .fnma, k .fnms, k .fmin, k .fmax, k .fminn, k .fmaxn, k .fceq, k .fclt, k .fcle, k .fcun,
   u .fabs, u .fneg, u .fclass, u .frne, u .frtz, u .frdn, u .frup, u .cvtuf, u .cvtsf, u .cvtfu, u .cvtfs,
   .cvtw (.bead 4) (.bead 1) .e2m1 7 false, k .badd2, k .bmul2, k .hadd2, k .hmul2, k .bfma2, k .hfma2,
   k .idot4ss, k .idot4uu, k .idot4su, k .idot4us, k .fscl, u .fexp, u .fmnt]

theorem test_meets_FloatResults : floatForms.all (fun i => ready stAll (floatRow i)) = true := by decide

/-- The forms of class V. -/
def queuedForms : List Instr :=
  let k := fun (f : Reg → Reg → Reg → Bool → Bool → Instr) => f (.bead 4) (.bead 1) (.uni 0) true false
  let u := fun (f : Reg → Reg → Bool → Instr) => f (.bead 4) (.bead 1) false
  [k .divu, k .divs, k .remu, k .rems, u .rcp, u .rsq, u .sqrt, u .ex2, u .lg2, u .sin, u .cos, u .tanh]

theorem test_meets_QueuedForms : queuedForms.all (fun i => ready stAll (queuedRow i)) = true ∧
    ((stateOf stAll).flight.sfu.countP fun x => x.lane == 0) + (actsOn stAll false).length ≤ 32 := by decide

/-- A machine with two results due, of which the second is the first of lane 1. -/
def sSfu : State :=
  { s0 with flight := { sfu := [⟨0, 0, 0, [.b 64], 7⟩, ⟨1, 0, 1, [.b 65], 9⟩] }, arg := .one 1 }

theorem test_meets_SfuArrivalFills : ∃ pre op post st, sSfu.flight.sfu = pre ++ op :: post ∧ (∀ x ∈ pre, x.lane ≠ 1) ∧ op.lane = 1 ∧
    look sSfu.strands op.sid = some st := ⟨[_], _, [], st0, rfl, by decide, rfl, rfl⟩

/-- The exchange forms. -/
def exchangeForms : List Instr :=
  let k := fun (f : Reg → Reg → Reg → Bool → Bool → Instr) => f (.bead 4) (.bead 1) (.uni 3) false false
  let u := fun (f : Reg → Reg → Bool → Instr) => f (.bead 4) (.bead 1) false
  let v := fun (f : Reg → Reg → Bool → Instr) => f (.uni 4) (.bead 1) false
  [k .scani, k .scanx, k .scanf, k .scanfx, u .scanmaxs, u .scanmins, u .scanmaxu, u .scanminu, u .scanand, u .scanor, u .scanxor,
   k .sscani, k .sscanx, k .sscanf, k .sscanfx, v .redi, v .redmax, v .redmin, v .vany, v .vall, v .vbal, v .vcnt,
   k .bcast, v .bfirst, v .blast, k .prev, k .next, u .rotp, u .rotn, k .permg, k .perms, k .topkd, k .topka, k .topkm, u .matchB,
   .match64 (.bead 4) (.bead 2) false]

theorem test_meets_ExchangeResults : exchangeForms.all (fun i => match exchangeRow i with
      | some x => x.legal stAll && (x.srcs ++ x.dsts).all (fun r => !isPort r) &&
          (x.beads stAll).all fun j => (x.srcs ++ x.dsts).all fun r => (fillOf stAll j r).isFull
      | none => false) = true ∧ actsOn stAll false ≠ [] := by decide

theorem test_meets_FloatReductions : (match redfRow (.redf (.uni 4) (.bead 1) false) with
      | some x => x.legal stAll && (x.srcs ++ x.dsts).all (fun r => !isPort r) &&
          (x.beads stAll).all fun j => (x.srcs ++ x.dsts).all fun r => (fillOf stAll j r).isFull
      | none => false) = true ∧ actsOn stAll false ≠ [] := by decide

theorem test_meets_DrawForms : drawRow (.rand (.bead 4)) = some (.bead 4, id) ∧ dstOk stAll (.bead 4) = true ∧
    actsOn stAll false ≠ [] ∧ (∀ j ∈ actsOn stAll false, (fillOf stAll j (.bead 4)).isFull = true) ∧
    (drawRow (.randf (.uni 4))).isSome = true ∧ dstOk stAll (.uni 4) = true ∧ (fillOf stAll 0 (.uni 4)).isFull = true :=
  ⟨rfl, by decide⟩

theorem test_meets_ElectForms : isBead (.uni 4) = false ∧ dstOk stAll (.uni 4) = true ∧ (fillOf stAll 0 (.uni 4)).isFull = true := by
  decide

theorem test_meets_NarrowResults : (twoSrc (.bead 4) (.bead 1) (.bead 1) fun x _ => x).legal stAll = true ∧
    (∀ j ∈ actsOn stAll false, ∀ r ∈ [Reg.bead 1, .bead 4, .bead 4], (fillOf stAll j r).isFull = true) := by decide

/-- A strand with the handle of a future in b1 of its first bead. -/
def stHandle : Strand := { st0 with breg := [(64, { val := 0x1003, fill := .future })] }

theorem test_meets_MovfHandles : (oneSrc (.bead 4) (.bead 1) id).legal stHandle = true ∧
    (∀ j ∈ actsOn stHandle (allUniform [.bead 4, .bead 1]), (fillOf stHandle j (.bead 4)).isFull = true ∧
      (fillOf stHandle j (.bead 1) = .future ∨ (fillOf stHandle j (.bead 1)).isFull = true)) ∧
    fillOf stHandle 0 (.bead 1) = .future ∧ (fillOf stHandle 1 (.bead 1)).isFull = true := by decide

/-! Results by hand from R104 to R116 on 0xFFFFFFFF, 0x80000000 and 1, 31. -/

theorem test_add_wraps : result (.add (.bead 4) (.bead 1) (.bead 2) false false) stV 0 (.bead 4) = 0 := by decide
theorem test_addc_carries : result (.addc (.bead 4) (.bead 1) (.bead 2) false false) stV 0 (.bead 4) = 1 := by decide
theorem test_subb_borrows : result (.subb (.bead 4) (.bead 2) (.bead 1) false false) stV 0 (.bead 4) = 1 := by decide
theorem test_mulhs_signed : result (.mulhs (.bead 4) (.bead 1) (.bead 3) false false) stV 0 (.bead 4) = 0xFFFFFFFF := by decide
theorem test_mulhsu_mixed : result (.mulhsu (.bead 4) (.bead 1) (.uni 2) false false) stV 0 (.bead 4) = 0xFFFFFFFF := by decide
theorem test_mad_source_is_destination : result (.mad (.bead 3) (.bead 3) (.bead 3) false false) stV 0 (.bead 3) = 30 := by decide
theorem test_sar_fills : result (.sar (.bead 4) (.bead 1) (.bead 2) false false) stV 1 (.bead 4) = 0xFFFFFFFF := by decide
theorem test_rol_31 : result (.rol (.bead 4) (.bead 2) (.bead 2) false false) stV 1 (.bead 4) = 0x8000000F := by decide
theorem test_clz_of_zero : result (.clz (.bead 4) .zr false) stV 0 (.bead 4) = 32 := by decide
theorem test_bfxs_sign : result (.bfxs (.bead 4) (.bead 3) (.uni 0) false false)
    (withUni stV [(0, 0x301)]) 0 (.bead 4) = 2 := by decide
theorem test_bfxs_negative : result (.bfxs (.bead 4) (.bead 3) (.uni 0) false false)
    (withUni stV [(0, 0x201)]) 0 (.bead 4) = 0xFFFFFFFE := by decide
theorem test_sel_reads_destination : result (.sel (.bead 3) (.bead 1) (.bead 2) false false) stV 0 (.bead 3) = 0xFFFFFFFF := by decide
theorem test_abs_most_negative : result (.abs (.bead 4) (.bead 1) false) stV 1 (.bead 4) = 0x80000000 := by decide
theorem test_andi_extends : result (.andi (.bead 4) (.bead 1) 0x3F8 false) stV 0 (.bead 4) = 0xFFFFFFF8 := by decide
theorem test_movh_shifts : result (.movh (.bead 4) 0x3FFFF) stV 0 (.bead 4) = 0xFFFFC000 := by decide
theorem test_zr_discards : result (.ori .zr (.bead 1) 1 false) stV 0 .zr = 0 := by decide
theorem test_pc_advances : (strandAfter (.mov (.bead 4) (.bead 1) false) (stateOf stV)).pc = 4 := by decide
theorem test_inactive_bead_keeps : result (.mov (.bead 4) (.uni 2) false) stV 2 (.bead 4) = 0 := by decide
/-- 1.0 + 1.0 and 1.0 − 1.0 in FP32. -/
theorem test_fadd : result (.fadd (.uni 4) (.uni 0) (.uni 0) false false) stV 0 (.uni 4) = 0x40000000 := by decide
theorem test_fsub_zero : result (.fsub (.uni 4) (.uni 0) (.uni 0) false false) stV 0 (.uni 4) = 0 := by decide
/-- A NaN result is the canonical one. -/
theorem test_fabs_nan : result (.fabs (.uni 4) (.uni 2) false) stV 0 (.uni 4) = 0x7FC00000 := by decide
theorem test_divu_queues : (after (.divu (.bead 4) (.bead 1) .zr false false) (stateOf stV)).flight.sfu.map (·.val) =
    [0xFFFFFFFF, 0xFFFFFFFF] := by decide
theorem test_divu_empties : fillOf (strandAfter (.divu (.bead 4) (.bead 1) .zr false false) (stateOf stV)) 0 (.bead 4) = .due := by decide
theorem test_scani_carries_in : (result (.scani (.bead 4) (.bead 3) (.uni 1) false false) stV 0 (.bead 4),
    result (.scani (.bead 4) (.bead 3) (.uni 1) false false) stV 1 (.bead 4)) = (7, 14) := by decide
theorem test_vbal_pair : (result (.vbal (.uni 4) (.bead 3) false) stV 0 (.uni 4), result (.vbal (.uni 4) (.bead 3) false) stV 0 (.uni 5)) =
    (3, 0) := by decide
theorem test_rotp_turns : result (.rotp (.bead 4) (.bead 3) false) stV 0 (.bead 4) = 7 := by decide
theorem test_elect_last : result (.electh (.uni 4)) stV 0 (.uni 4) = 1 := by decide

/-! ### Control flow -/

theorem test_meets_WaitsComplete : loadsDue s0 0 = false ∧ sfusDue s0 0 = false ∧ emptyRegs st0 = [] ∧
    srcOk st0 (.bead 1) = true ∧ (∀ j ∈ actsOn st0 false, (fillOf st0 j (.bead 1)).isFull = true) ∧
    srcOk st0 (.uni 0) = true ∧ (fillOf st0 255 (.uni 0)).isFull = true ∧ 8 * ((readReg st0 255 (.uni 0)).toNat + 1) < st0.regs := by
  decide

/-- A strand at 0x10 with b1 = 1, 0 and u1 = 0x40. -/
def stBr : Strand := { withUni (withBeads st0 [(64, 1), (65, 0), (128, 1), (129, 1)]) [(1, 0x40)] with pc := 0x10 }

theorem test_meets_BranchesGo : activeBeads stBr ≠ [] ∧ FullOn stBr (.bead 2) ∧ FullOn stBr (.bead 3) ∧ FullOn stBr (.uni 1) ∧
    (∀ j ∈ activeBeads stBr, readReg stBr j (.bead 2) ≠ 0) ∧ (∀ j ∈ activeBeads stBr, readReg stBr j (.bead 3) = 0) ∧
    (∀ j ∈ activeBeads stBr, readReg stBr j (.uni 1) = 0x40) ∧ Goes stBr (at_ stBr (-4 : BitVec 25)) [] ∧
    Goes stBr (at_ stBr (3 : BitVec 18)) [] ∧ Goes stBr 0x14 [] ∧ Goes stBr 0x40 [] := by
  simp only [FullOn, Goes, PlainNext]; decide

/-- R70: a target is the pc plus four times the offset. -/
theorem test_bra_back : (strandAfter (.bra (-2)) (stateOf { st0 with pc := 0x10 })).pc = 8 := by decide

/-- The same under a JOIN entry. -/
def stSplit : Strand :=
  { stBr with flow := { mask := 3, divDepth := 1, divTop := [{ kind := .join, mask := 3, pc := 0x30, loop := 0 }] } }

theorem test_meets_BranchesSplit : FullOn stSplit (.bead 1) ∧ RoomOnChip stSplit 1 ∧ SplitsUnder stSplit ∧
    (activeBeads stSplit).filter (fun j => readReg stSplit j (.bead 1) != 0) = [0] ∧
    (activeBeads stSplit).filter (fun j => !(readReg stSplit j (.bead 1) != 0)) = [1] :=
  ⟨by simp only [FullOn]; decide, by simp only [RoomOnChip]; decide,
   ⟨⟨_, [], rfl, rfl⟩, rfl, fun e h => nomatch h⟩, by decide, by decide⟩

/-- R78: the set of the lowest active bead runs first. -/
theorem test_bnz_splits : let st := strandAfter (.bnz (.bead 1) 4) (stateOf stSplit)
    st.flow.mask = 1 ∧ st.pc = 0x20 ∧ st.flow.divTop.map (fun e => (e.mask, e.pc)) = [(2, 0x14), (3, 0x30)] := by decide

/-- A strand at the JOIN of its topmost entry, or under a PATH entry. -/
def stJoin (k : DivKind) : Strand :=
  { st0 with pc := 0x30, flow := { mask := 1, divDepth := 1, divTop := [{ kind := k, mask := 3, pc := 0x30, loop := 0 }] } }

theorem test_meets_JoinsMeet : RoomOnChip stBr 1 ∧ RoomOnChip (stJoin .path) 0 ∧ RoomOnChip (stJoin .join) 0 ∧
    (3 : DWord) &&& liveMask (stJoin .join) ≠ 0 ∧ Alive (stJoin .join) := by
  simp only [RoomOnChip, Alive]; decide

theorem test_meets_LoopsOpen : srcOk stBr (.uni 0) = true ∧ (fillOf stBr 255 (.uni 0)).isFull = true ∧
    readReg stBr 255 (.uni 0) = 0 ∧ Goes stBr (at_ stBr (2 : BitVec 18)) [] ∧ readReg stBr 255 (.uni 1) ≠ 0 ∧
    stBr.flow.loops.length < 4 := by simp only [Goes, PlainNext]; decide

/-- A strand at the end of its innermost loop, with a count. -/
def stLoop (n : Word) : Strand :=
  { st0 with pc := 0x1C, flow := { mask := 3, loops := [{ start := 0x10, stop := 0x20, lc := n, d := 0, frame := 0 },
                                                       { start := 0, stop := 0x40, lc := 5, d := 0, frame := 0 }] } }

theorem test_meets_LoopsTurn : (stLoop 2).flow.loops.length = 2 ∧ 1 < (2 : Word).toNat ∧ (1 : Word).toNat ≤ 1 ∧
    (stLoop 2).pc + 4 = 0x20 ∧ (callStack (stLoop 2) ((activeBeads (stLoop 2)).headD 0)).depth = 0 ∧
    (∀ x ∈ (stLoop 2).flow.loops.drop 1, x.stop ≠ 0x20) := by decide

theorem test_loop_turns : (strandAfter .nop (stateOf (stLoop 2))).pc = 0x10 := by decide
theorem test_loop_leaves : (strandAfter .nop (stateOf (stLoop 1))).pc = 0x20 := by decide

theorem test_meets_CallsPush : (∀ j ∈ activeBeads stBr, (callStack stBr j).depth = (callStack stBr j).top.length ∧
      (callStack stBr j).depth < 4) ∧ FullOn stBr (.uni 1) ∧ (∀ j ∈ activeBeads stBr, readReg stBr j (.uni 1) = 0x40) ∧
    (at_ stBr (5 : BitVec 25)).toNat % 4 = 0 := by simp only [FullOn]; decide

/-- A strand whose beads return to 0x100, called inside one loop level. -/
def stRet : Strand :=
  { st0 with flow := { mask := 3, calls := [(0, { depth := 1, top := [{ ret := 0x100, d0 := 0, l0 := 0 }] }),
                                           (1, { depth := 1, top := [{ ret := 0x100, d0 := 0, l0 := 0 }] })] } }

theorem test_meets_ReturnsPop : (∀ j ∈ activeBeads stRet, (callStack stRet j).top = [{ ret := 0x100, d0 := 0, l0 := 0 }] ∧
    (callStack stRet j).depth = 1) ∧ activeBeads stRet ≠ [] := by decide

theorem test_ret_goes : (strandAfter .ret (stateOf stRet)).pc = 0x100 := by decide

theorem test_meets_ExitsEnd : (∃ e rest, (stJoin .path).flow.divTop = e :: rest ∧ e.kind = .path ∧ e.loop ≤ 0 ∧
    e.mask &&& liveMask { stJoin .path with retired := (stJoin .path).retired ||| (stJoin .path).flow.mask } ≠ 0) ∧
    liveMask { stJoin .path with retired := (stJoin .path).retired ||| (stJoin .path).flow.mask } ≠ 0 ∧ st0.inTrap = false ∧
    st0.flow.divDepth = 0 ∧ ({ st0 with inTrap := true } : Strand).inTrap = true :=
  ⟨⟨_, [], rfl, rfl, by decide, by decide⟩, by decide⟩

theorem test_exit_retires : (after .exit s0).strands = [] := by decide +kernel

/-- A strand at 0x10 whose two beads call 0x40 and 0x80; the second of them after the first has returned. -/
def stX : Strand := { withBeads st0 [(64, 0x40), (65, 0x80)] with pc := 0x10 }
def retX : RetEntry := { ret := 0x14, d0 := 0, l0 := 0 }
def xJoin : DivEntry := { kind := .xjoin, mask := 3, pc := 0x14, loop := 0 }
def stXRet (mask : DWord) (l : List DivEntry) : Strand :=
  { st0 with flow := { mask := mask, divDepth := l.length, divTop := l, calls := [(0, { depth := 1, top := [retX] }), (1, { depth := 1, top := [retX] })] } }

theorem test_meets_CallsSplit : FullOn stX (.bead 1) ∧ RoomOnChip stX 2 ∧
    targetSets stX (fun j => if j = 0 then 0x40 else 0x80) = [(1, 0x40), (2, 0x80)] ∧
    (∀ j ∈ activeBeads stX, readReg stX j (.bead 1) = (if j = 0 then 0x40 else 0x80) ∧
      (callStack stX j).depth = (callStack stX j).top.length ∧ (callStack stX j).depth < 4) := by
  simp only [FullOn, RoomOnChip]; decide

theorem test_meets_ReturnsJoin : ∀ l ∈ [[{ kind := .xpath, mask := 2, pc := 0x80, loop := 0 }], []],
    (activeBeads (stXRet 1 (l ++ [xJoin])) ≠ [] ∧ RoomOnChip (stXRet 1 (l ++ [xJoin])) 0 ∧
     (∀ j ∈ activeBeads (stXRet 1 (l ++ [xJoin])), (callStack (stXRet 1 (l ++ [xJoin])) j).top = [retX] ∧
       (callStack (stXRet 1 (l ++ [xJoin])) j).depth = 1) ∧ (∀ y ∈ l, y.kind = .xpath) ∧
     (∃ x tail, l ++ [xJoin] = x :: tail ∧ x.loop ≤ retX.l0 ∧ x.mask &&& liveMask (stXRet 1 (l ++ [xJoin])) ≠ 0)) := by
  intro l hl
  simp only [List.mem_cons, List.not_mem_nil, or_false] at hl
  simp only [RoomOnChip]
  rcases hl with rfl | rfl <;> exact ⟨by decide, by decide, by decide, by decide, ⟨_, _, rfl, by decide, by decide⟩⟩

/-- R83, R84: the set of the lowest bead goes first; its return starts the other set. -/
theorem test_callx_splits : let st := strandAfter (.callx (.bead 1) false) (stateOf stX)
    (st.pc, st.flow.mask, st.flow.divTop) = (0x40, 1, [{ kind := .xpath, mask := 2, pc := 0x80, loop := 0 }, xJoin]) := by decide
theorem test_ret_starts_other : let st := strandAfter .ret (stateOf (stXRet 1 [{ kind := .xpath, mask := 2, pc := 0x80, loop := 0 }, xJoin]))
    (st.pc, st.flow.mask, st.flow.divTop) = (0x80, 2, [xJoin]) := by decide

/-- A leaf that maps page 0 of context 1 to the start of vault 0, with the given permissions. -/
def leafOf (perms : Nat) : Nat := 2 ^ 63 + 2 ^ 62 + 2 ^ 61 + 2 ^ 44 + 2 ^ 43 + perms

/-- Context 1's page 0 of 8 KiB, in vault 0, in the caches of core 0: readable and writable, and to be fetched. -/
def mapped (s : State) : State :=
  { s with trans := { s.trans with
      tlb := [{ cache := .bead 0, ctx := 1, va := 0, level := 3, pte := leafOf 6 },
              { cache := .fetch 0, ctx := 1, va := 0, level := 3, pte := leafOf 8 },
              { cache := .mx 0, ctx := 1, va := 0, level := 3, pte := leafOf 6 },
              { cache := .second 0, ctx := 1, va := 0, level := 3, pte := leafOf 6 }] } }

/-- The first byte of vault 0. -/
def v0 : Nat := 0x80000000000

/-- A strand with u0:u1 = 0x100 and u2 = 7, a bound port and its queue. -/
def stMem : Strand := { withUni st0 [(0, 0x100), (2, 7)] with ports := [(0, 3)] }
def sMem : State := { mapped (stateOf stMem) with queues := [(3, { st := .open_, tail := 1, ctx := 1 })] }

theorem test_meets_SleepsEnd : uniPairOk stMem (.uni 0) = true ∧ (∀ r ∈ pairOf (.uni 0), (fillOf stMem 255 r).isFull = true) ∧
    (readPair stMem 255 (.uni 4)).toNat ≤ nowNs sMem ∧ nowNs sMem < (readPair stMem 255 (.uni 0)).toNat ∧
    look stMem.ports 0 = some 3 ∧ (queueOf sMem 3).count > 0 ∧ uniSrcOk stMem (.uni 2) = true ∧ stMem.accFault = none ∧
    (readPair stMem 255 (.uni 0)).toNat % 4 = 0 ∧
    (translation sMem (strandAccess stMem .b .read) (readPair stMem 255 (.uni 0)).toNat 4).1 = .ok (v0 + 0x100) 0 false ∧
    (translation sMem (strandAccess stMem .b .read) (readPair stMem 255 (.uni 0)).toNat 4).2.strands = sMem.strands := by decide

theorem test_sleepw_moves_on : (strandAfter (.sleepw (.uni 0) (.uni 2) false false) sMem).pc = 4 := by decide
theorem test_sleept_blocks : (strandAfter (.sleept (.uni 0) false) sMem).run = .blocked (.time 0x100) := by decide

theorem test_meets_SleepsEnd_word :
    let s1 := (translation sMem (strandAccess stMem .b .read) 0x100 4).2
    let s2 := openRange (settleZero s1 (v0 + 0x100) 4) (v0 + 0x100) 4 0 true
    (∀ kn, awaitsWrite s1 (some 0) kn .b (v0 + 0x100) 4 = false) ∧ firstInOrder s1 0 s1.flight.nextId (v0 + 0x100) 4 = true ∧
    heldBySlot s1 (v0 + 0x100) 4 = false ∧
    ∀ kn, BitVec.ofNat 32 (ofLE (if isStaged s2 stMem 0x100 4 then readStaged s2 stMem s2.mem.nextWrite (v0 + 0x100) 4
      else (readKnown s2 kn .b (v0 + 0x100) 4).1).bytes) ≠ readReg stMem 255 (.uni 2) := by
  refine ⟨fun _ => rfl, by decide, by decide, fun kn => ?_⟩
  rw [if_neg (by decide), readKnown_bytes_of_log_nil _ _ _ _ _ rfl]
  decide

/-! ### Traps and special registers -/

/-- A strand in its handler, interrupted at 0x44 by a load's error. -/
def stTrap (cause : Word) : Strand :=
  { st0 with inTrap := true, pc := 0x90, trap := { cause := cause, pc := 0x44, mask := 3 }, savedFlow := { mask := 3 } }

/-- The machine of st0 whose kernel has no trap entry. -/
def sBare (st : Strand) : State :=
  { stateOf st with cmd := { kernels := [(1, { ctx := 1, lrec := { trap := 0xFFFFFFFF }, total := 1, placed := [0] })], nextKernel := 2 } }

theorem test_meets_TrapsEnter : st0.inTrap = false ∧ (kernelOf s0 st0).lrec.trap ≠ 0xFFFFFFFF ∧ PlainNext st0 ∧
    (stTrap 5).inTrap = true ∧ (kernelOf (sBare st0) st0).lrec.trap = 0xFFFFFFFF := by simp only [PlainNext]; decide

theorem test_trap_enters : let st := strandAfter (.trap 0x2A) s0
    st.pc = 0x80 ∧ st.trap = ⟨0x10, 0xFF, 4, 0x2A, 3, 0⟩ ∧ st.inTrap = true := by decide
theorem test_ill_traps_in_place : (strandAfter (.ill 7) s0).trap = ⟨0x01, 0xFF, 0, 0, 3, 0⟩ := by decide
theorem test_double_fault_halts : (strandAfter (.trap 0) (stateOf (stTrap 5))).run = .halted 0x10 := by decide

theorem test_meets_TrapsReturn : (stTrap 0x12).inTrap = true ∧ (braidOf (stateOf (stTrap 0x12)) (stTrap 0x12)).capture = false ∧
    (stTrap 0x12).trap.cause = 0x12 ∧ (stTrap 5).trap.cause ≠ 0x12 ∧ (stTrap 5).trap.cause ≠ 0x13 ∧
    (stTrap 5).trap.mask &&& liveMask (stTrap 5) ≠ 0 ∧ (braidOf (stateOf (stTrap 5)) (stTrap 5)).mcCount = 0 ∧
    (stTrap 5).held = [] := by decide

theorem test_rtt_returns : let st := strandAfter .rtt (stateOf (stTrap 5))
    st.pc = 0x44 ∧ st.inTrap = false ∧ st.flow.mask = 3 := by decide

/-- A strand that halted for want of a trap entry. -/
def stHalt : Strand := { stTrap 5 with inTrap := false, run := .halted 5, savedFlow := { mask := 3 } }

theorem test_meets_TrapsReturn_debug : haltedAt (sBare stHalt) 0 0 0 = some (0, stHalt, 5) ∧
    (kernelOf (sBare stHalt) stHalt).lrec.trap = 0xFFFFFFFF ∧ stHalt.trap.mask &&& liveMask stHalt ≠ 0 ∧
    (braidOf (sBare stHalt) stHalt).capture = false ∧ (braidOf (sBare stHalt) stHalt).mcCount = 0 ∧ stHalt.held = [] := by decide

/-- A strand that holds a watchdog and an error of a load. -/
def stHeld (c : Nat) : Strand := { st0 with held := [{ cause := c, bead := 1, pc := 0x20, addr := 0x400 }] }

theorem test_meets_HeldCausesEnter :
    (∀ c ∈ [0x11, 0x12, 0x15, 0x13], asyncReady (stateOf (stHeld c)) (stHeld c) = true ∧
      ∀ x ∈ (stHeld c).held, turnOf c ≤ turnOf x.cause) ∧
    (look (sBare stHalt).cmd.kernels stHalt.kernel).isSome := by decide

theorem test_ecc_enters : (strandAfter .trapEntry { stateOf (stHeld 0x13) with arg := .one 0 }).trap =
    ⟨0x13, 1, 0x20, 0, 3, 0x400⟩ := by decide

theorem test_meets_SpecialsRead : srOperandOk (.bead 1) = true ∧ regExists st0 (.bead 1) = true ∧ srOperandOk (.uni 1) = true ∧
    srVarying 0x12 = false ∧ shadowBad st0 0x12 = false ∧ st0.srHeld = [] ∧ (∀ j ∈ actsOn st0 false, (fillOf st0 j (.bead 1)).isFull = true) ∧
    (∀ j ∈ actsOn st0 true, (fillOf st0 j (.uni 1)).isFull = true) ∧ specialRow s0 st0 0 0x12 = some 1 := by decide

theorem test_meets_SpecialsRead_bead : ∀ j, specialRow s0 st0 j 0x5A = some 0 := fun _ => rfl

theorem test_sread_ctx : result (.sread (.uni 1) 0x12 false) st0 0 (.uni 1) = 1 := by decide

theorem test_meets_SpecialPairsRead : pairOk st0 (.uni 2) = true ∧ srPair 0x14 = true ∧ srOperandOk (.uni 2) = true ∧
    srVarying 0x14 = false ∧ (∀ j ∈ actsOn st0 true, ∀ r ∈ pairOf (.uni 2), (fillOf st0 j r).isFull = true) ∧ srPair 0 = true := by
  decide

theorem test_meets_SpecialPairsRead_words : (∀ j, specialRow s0 st0 j 0x14 = some 3) ∧ ∀ j, specialRow s0 st0 j 0x15 = some 0 :=
  ⟨fun _ => rfl, fun _ => rfl⟩

/-- A handler that has 5 in u0 and 1 in u1. -/
def stSw : Strand := withUni (stTrap 5) [(0, 5), (1, 1), (2, 2), (32, 8)]

theorem test_meets_SpecialsWritten : (∀ sr ∈ [0x20, 0x22, 0x28, 0x49, 0x4B, 0x59], srWritable sr = true ∧ shadowBad stSw sr = false) ∧
    srOperandOk (.uni 4) = true ∧ regExists stSw (.uni 4) = true ∧ (fillOf stSw 255 (.uni 4)).isFull = true ∧
    (look (stateOf stSw).braids stSw.braid).isSome ∧ srWritable 0x4A = true ∧ srVarying 0x4A = true ∧
    (∀ j ∈ actsOn stSw false, (fillOf stSw j (.uni 4)).isFull = true) := by decide

theorem test_swrite_pc : (strandAfter (.swrite 0x22 (.uni 4)) (stateOf (withUni (stTrap 5) [(4, 0x57)]))).trap.pc = 0x54 := by decide

/-- A saving handler with v in u4. -/
def stCkpt (v : Word) : Strand := withUni (stTrap 0x15) [(4, v)]

theorem test_meets_CheckpointsWritten : isBead (.uni 4) = false ∧ (look (stateOf stSw).braids stSw.braid).isSome ∧
    (∀ v ∈ [1, 2, 3], readReg (stCkpt v) 255 (.uni 4) = v ∧ (stCkpt v).trap.cause = 0x15 ∧ (stCkpt v).shCmd ≠ 4) ∧
    actsOn { stTrap 5 with flow := { mask := 1 } } false = [0] ∧ stSw.shIdx < stSw.regs := by
  refine ⟨by decide, by decide, ?_, by decide, by decide⟩
  intro v hv
  simp only [List.mem_cons, List.not_mem_nil, or_false] at hv
  rcases hv with rfl | rfl | rfl <;> decide

/-! ### Memory -/

/-- A range that begins in a vault is never held. -/
theorem notHeld_vault (s : State) (pa n : Nat) (h : isLpddr pa = false) : heldBySlot s pa n = false := by simp [heldBySlot, h]

/-- An access by way of an address range that lies in a vault, with nothing due there. -/
theorem atRest_vault (s : State) (pa n key : Nat) (h : isLpddr pa = false) (h2 : zeroingAt s pa n = false) (h3 : eccHit s pa n = false)
    (h4 : watchedBy s pa n = []) : AtRest s pa n key :=
  ⟨fun h' => absurd (h.symm.trans h') (by decide), h2, h3, h4⟩

/-- A place in the first vault is not in LPDDR6. -/
theorem v0_not_lpddr (o : Nat) : isLpddr (v0 + o) = false := by
  unfold isLpddr v0
  simp only [decide_eq_false_iff_not]
  omega

/-- A strand whose base u0:u1 is 0x100, whose stack slices lie at 0x400, and whose two beads have the offsets 0 and 8 in b1. -/
def stLd : Strand :=
  { withUni (withBeads st0 [(64, 0), (65, 8), (128, 0x11223344), (129, 0x55667788), (192, 0xA), (193, 0xB)]) [(0, 0x100)]
    with stk := 0x400, stkLimit := 0x100 }
def sLd : State := mapped (stateOf stLd)

theorem hits_mapped (st : Strand) (hc : st.ctx = 1) (hk : st.core = 0) (hf : st.accFault = none) (hg : st.given = none) (need : Need) (h : need ≠ .fetch)
    (va n : Nat) (hva : va < 0x2000) : Hits (mapped (stateOf st)) st .b need va n (v0 + va) 0 := by
  refine ⟨hf, false, ?_⟩
  have h1 : ¬ va ≥ 2 ^ 53 := by omega
  have h2 : ¬ va ≥ apertureBase := by unfold apertureBase; omega
  have h3 : tlbFind (mapped (stateOf st)) (.bead 0) 1 va =
      some { cache := .bead 0, ctx := 1, va := 0, level := 3, pte := leafOf 6 } := by
    simp [tlbFind, mapped, TlbEntry.maps, pageBytes, hva]
  have ha : strandAccess st .b need = { ctx := 1, core := some 0, quad := 0, bid := some st.braid, path := some .b, need := need, who := strandWho st } := by
    simp [strandAccess, hc, hk, hg, quadOfCore]
  have h4 : cacheOf (strandAccess st .b need) = some (.bead 0) := by rw [ha]; cases need <;> first | rfl | exact absurd rfl h
  have h5 : leafReason (mapped (stateOf st)) 1 3 (leafOf 6) = none :=
    show leafReason (mapped (stateOf {})) 1 3 (leafOf 6) = none by decide
  have h6 : pteGrants (leafOf 6) need = true := by cases need <;> first | decide | exact absurd rfl h
  have h7 : pteFrame (leafOf 6) = v0 := by decide
  have h8 : pageBytes 3 = 0x2000 := by decide
  have h9 : bits (leafOf 6) 58 50 = 0 := by decide
  have h10 : (bit (leafOf 6) 60 && !bit (leafOf 6) 61) = false := by decide
  simp only [translation, h1, h2, if_false, h4, Option.bind_some]
  simp [ha, h3, useLeaf, h5, h6, h7, h8, h9, h10, Nat.mod_eq_of_lt hva]

/-- A strand with n return entries for each bead and m divergence entries, in stack slices of 256 bytes from 0x400 on. -/
def stDeep (n m : Nat) : Strand :=
  { st0 with
    stk := 0x400, stkLimit := 0x100
    flow := { mask := 3, divDepth := m, divTop := List.replicate (min m 16) { kind := .path, mask := 3, pc := 0x80, loop := 0 }
              calls := [(0, { depth := n, top := List.replicate (min n 4) { ret := 0x44, d0 := m, l0 := 0 } }),
                        (1, { depth := n, top := List.replicate (min n 4) { ret := 0x44, d0 := m, l0 := 0 } })] } }
def sDeep (n m : Nat) : State := mapped (stateOf (stDeep n m))

theorem stackAt_deep (n m : Nat) (need : Need) (h : need ≠ .fetch) (va len : Nat) (hv : va < 0x2000) :
    StackAt (sDeep n m) (stDeep n m) need va len (v0 + va) 0 :=
  ⟨rfl, hits_mapped _ rfl rfl rfl rfl need h va len hv, atRest_vault _ _ _ _ (v0_not_lpddr _) rfl rfl rfl,
    notHeld_vault _ _ _ (v0_not_lpddr _), rfl⟩

theorem test_meets_CallsSpill : NoSaves (sDeep 4 0) ∧ NoSaves (sDeep 5 0) ∧ activeBeads (stDeep 4 0) = [0, 1] ∧
    (∀ n ∈ [4, 5], ∀ j ∈ activeBeads (stDeep n 0), KeptCalls (stDeep n 0) j ∧ (callStack (stDeep n 0) j).depth = n ∧
      (callStack (stDeep n 0) j).top.head? = some { ret := 0x44, d0 := (stDeep n 0).flow.divDepth, l0 := 0 } ∧
      n < 4 + (stDeep n 0).stkLimit.toNat / 16 * 16 / 8) ∧
    (∀ j ∈ activeBeads (stDeep 4 0), StackAt (sDeep 4 0) (stDeep 4 0) .write (sliceAt (stDeep 4 0) j 0) 8 (v0 + sliceAt (stDeep 4 0) j 0) 0) ∧
    (v0 + sliceAt (stDeep 4 0) 0 0) + 8 ≤ v0 + sliceAt (stDeep 4 0) 1 0 ∧
    (∀ j ∈ activeBeads (stDeep 5 0), StackAt (sDeep 5 0) (stDeep 5 0) .read (sliceAt (stDeep 5 0) j 0) 8 (v0 + sliceAt (stDeep 5 0) j 0) 0 ∧
      Fresh (sDeep 5 0) (stDeep 5 0).know (v0 + sliceAt (stDeep 5 0) j 0) 8) := by
  refine ⟨(fun _ h => nomatch h), (fun _ h => nomatch h), by decide, ?_, fun j hj => stackAt_deep 4 0 _ (by decide) _ _ ?_, by decide, fun j hj =>
    ⟨stackAt_deep 5 0 _ (by decide) _ _ ?_, fun _ _ _ _ h => nomatch h⟩⟩
  · simp only [KeptCalls]; decide
  · revert hj; revert j; decide
  · revert hj; revert j; decide

theorem test_meets_EntriesSpill : (∀ m ∈ [16, 17], NoSaves (sDeep 0 m) ∧ (stDeep 0 m).flow.divTop.length = 16 ∧ PlainNext (stDeep 0 m) ∧
      m < min 255 (16 + (stDeep 0 m).stkLimit.toNat / 16 * 16 / 16) ∧
      ∀ need ∈ [Need.read, .write], StackAt (sDeep 0 m) (stDeep 0 m) need (sliceAt (stDeep 0 m) (stDeep 0 m).width 0) 16 (v0 + 0x1400) 0) ∧
    (∃ e rest, (stDeep 0 17).flow.divTop = e :: rest ∧ e.kind = .path ∧ e.loop ≤ (stDeep 0 17).flow.loops.length ∧
      e.mask &&& liveMask (stDeep 0 17) ≠ 0) ∧ Fresh (sDeep 0 17) (stDeep 0 17).know (v0 + 0x1400) 16 := by
  refine ⟨fun m hm => ?_, ⟨_, _, rfl, rfl, by decide, by decide⟩, fun _ _ _ _ h => nomatch h⟩
  refine ⟨(fun _ h => nomatch h), ?_, (fun _ h => nomatch h), ?_, fun need hn => ?_⟩
  · revert hm; revert m; decide
  · revert hm; revert m; decide
  · have h : sliceAt (stDeep 0 m) (stDeep 0 m).width 0 = 0x1400 := by revert hm; revert m; decide
    rw [h]
    exact stackAt_deep 0 m need (by rintro rfl; exact absurd hn (by decide)) 0x1400 16 (by decide)

/-- R80, R82: the oldest entry of each bead goes to its slice, with its word and d0. -/
theorem test_call_spills : (after (.call 5) (sDeep 4 0)).mem.bytes = [(v0 + 0x400, 0x44), (v0 + 0x500, 0x44)] := by decide +kernel
theorem test_jpt_spills : (after (.jpt 4) (sDeep 0 16)).mem.read (v0 + 0x1400) 16 = [3, 0, 0, 0, 0, 0, 0, 0, 0x80, 0, 0, 0, 1, 0, 0, 0] := by
  decide +kernel

theorem test_meets_LoadsIssue :
    (∀ i ∈ [Instr.ld (.bead 4) (.bead 1) 0 3 .w32, .ldu (.bead 4) (.bead 1) 0 0 .w64, .lds (.bead 4) (.bead 1) 1 .w8], ∃ r, loadRow i = some r ∧
      r.legal stLd ∧ loadDstOk stLd r.d r.wide = true ∧ classOk r.d [r.a] = true ∧
      AllFull stLd (allUniform [r.d, r.a]) (r.base ++ [r.a] ++ r.data) ∧
      ∀ j ∈ actsOn stLd (allUniform [r.d, r.a]), r.fits stLd j ∧ r.addr stLd j % r.n = 0 ∧
        Hits sLd stLd .b .read (r.addr stLd j) r.n (v0 + r.addr stLd j) 0) := by
  intro i hi
  simp only [List.mem_cons, List.not_mem_nil, or_false] at hi
  rcases hi with rfl | rfl | rfl
  all_goals
    refine ⟨_, rfl, by simp only [LoadRow.legal]; decide, by decide, by decide, by simp only [AllFull]; decide, ?_⟩
    intro j hj
    have hj : j = 0 ∨ j = 1 := by revert hj; revert j; decide
    rcases hj with rfl | rfl
    all_goals exact ⟨by first | exact trivial | (show inSlice _ _ _ _ _; simp only [inSlice]; decide), by decide,
      hits_mapped stLd rfl rfl rfl rfl .read (by decide) _ _ (by decide)⟩

theorem test_meets_StoresIssue :
    (∀ i ∈ [Instr.st (.bead 2) (.bead 1) 0 3 .w32, .sts (.bead 2) (.bead 1) 0 .w16], ∃ r, storeRow i = some r ∧ r.legal stLd ∧
      AllFull stLd (allUniform [r.d, r.a]) (r.base ++ [r.a] ++ r.data) ∧
      ∀ j ∈ actsOn stLd (allUniform [r.d, r.a]), r.fits stLd j ∧ r.addr stLd j % r.n = 0 ∧
        Hits sLd stLd .b .write (r.addr stLd j) r.n (v0 + r.addr stLd j) 0 ∧ isStaged sLd stLd (r.addr stLd j) r.n = false) := by
  intro i hi
  simp only [List.mem_cons, List.not_mem_nil, or_false] at hi
  rcases hi with rfl | rfl
  all_goals
    refine ⟨_, rfl, by simp only [LoadRow.legal]; decide, by simp only [AllFull]; decide, ?_⟩
    intro j hj
    have hj : j = 0 ∨ j = 1 := by revert hj; revert j; decide
    rcases hj with rfl | rfl
    all_goals exact ⟨by first | exact trivial | (show inSlice _ _ _ _ _; simp only [inSlice]; decide), by decide,
      hits_mapped stLd rfl rfl rfl rfl .write (by decide) _ _ (by decide), by decide⟩

/-- The same strand of a deterministic kernel. -/
def sDet : State :=
  { sLd with cmd := { kernels := [(1, { ctx := 1, lrec := { trap := 0x80, det := true }, total := 1, placed := [0] })], nextKernel := 2 } }

theorem test_meets_StoresIssue_staged : isStaged sDet stLd 0x100 4 = true ∧ isStaged sDet stLd 0x108 4 = true ∧
    (look sDet.braids stLd.braid).isSome ∧ isHead sDet (braidOf sDet stLd) = true ∧ (braidOf sDet stLd).staged.length + 2 ≤ 16384 := by
  decide

theorem test_meets_AtomicsIssue : ∃ r, atomRow (.atcas (.bead 4) (.bead 1) (.bead 2) 0 false) = some r ∧
    loadDstOk stLd r.d r.wide = true ∧ dataOk stLd r.b r.wide = true ∧ srcOk stLd r.a = true ∧ isPort r.a = false ∧
    (∀ x ∈ baseRegs r.p, regExists stLd x = true) ∧ classOk r.d [r.a, r.b] = true ∧
    AllFull stLd false (baseRegs r.p ++ [r.a] ++ r.regs r.b ++ r.regs r.d) ∧
    ∀ j ∈ actsOn stLd false, baseAddr stLd r.p r.a 0 j % 4 = 0 ∧
      Hits sLd stLd .b .both (baseAddr stLd r.p r.a 0 j) 4 (v0 + baseAddr stLd r.p r.a 0 j) 0 ∧
      isStaged sLd stLd (baseAddr stLd r.p r.a 0 j) 4 = false := by
  refine ⟨_, rfl, by decide, by decide, by decide, by decide, by decide, by decide, by simp only [AllFull]; decide, ?_⟩
  intro j hj
  have hj : j = 0 ∨ j = 1 := by revert hj; revert j; decide
  rcases hj with rfl | rfl
  all_goals exact ⟨by decide, hits_mapped stLd rfl rfl rfl rfl .both (by decide) _ _ (by decide), by decide⟩

theorem test_meets_AtomicsStage : ∃ r, atomRow (.atcas (.bead 4) (.bead 1) (.bead 2) 0 false) = some r ∧
    (look sDet.braids stLd.braid).isSome ∧ AllFull stLd false (baseRegs r.p ++ [r.a] ++ r.regs r.b ++ r.regs r.d) ∧
    isHead sDet (braidOf sDet stLd) = true ∧ (braidOf sDet stLd).staged.length + (actsOn stLd false).length ≤ 16384 ∧
    ∀ j ∈ actsOn stLd false, baseAddr stLd r.p r.a 0 j % 4 = 0 ∧
      Hits sDet stLd .b .both (baseAddr stLd r.p r.a 0 j) 4 (v0 + baseAddr stLd r.p r.a 0 j) 0 ∧
      isStaged sDet stLd (baseAddr stLd r.p r.a 0 j) 4 = true := by
  refine ⟨_, rfl, by decide, by simp only [AllFull]; decide, by decide, by decide, ?_⟩
  intro j hj
  have hj : j = 0 ∨ j = 1 := by revert hj; revert j; decide
  rcases hj with rfl | rfl
  all_goals exact ⟨by decide, ⟨rfl, false, by decide⟩, by decide⟩

theorem test_atomic_stages : (lookD (after (.atadd (.bead 4) (.bead 1) (.bead 2) 0 false) sDet).braids 0 {}).staged.map (fun x => (x.pa, x.bytes)) =
    [(v0 + 0x100, [0x44, 0x33, 0x22, 0x11]), (v0 + 0x108, [0x88, 0x77, 0x66, 0x55])] := by decide +kernel

theorem test_meets_FencesOrder : beadDone sLd sLd.cur = true ∧ sLd.eng.links = [] ∧ Alive stLd ∧ PlainNext stLd :=
  ⟨by decide, rfl, ⟨by decide, by decide⟩, fun _ h => nomatch h⟩

theorem test_ld_leaves_due : fillOf (strandAfter (.ld (.bead 4) (.bead 1) 0 0 .w32) sLd) 0 (.bead 4) = .due ∧
    (after (.ld (.bead 4) (.bead 1) 0 3 .w32) sLd).flight.loads.map (fun x => (x.bead, x.pa, x.len)) =
      [(0, v0 + 0x10C, 4), (1, v0 + 0x114, 4)] := by decide
theorem test_st_hands_bytes : (after (.st (.bead 2) (.bead 1) 0 0 .w16) sLd).flight.stores.map (fun x => (x.pa, x.bytes)) =
    [(v0 + 0x100, [0x44, 0x33]), (v0 + 0x108, [0x88, 0x77])] := by decide
/-- R196, R394: a misaligned address faults with MISALIGNED, and is recorded. -/
theorem test_ld_misaligned : (strandAfter (.ld (.bead 4) (.bead 3) 0 0 .w32) sLd).trap =
    ⟨0x06, 0, 0, 0, 3, 0x10A⟩ := by decide

/-- A load, a store, an atomic whose old value has come, and a line on their way. -/
def ld1 : LoadOp := { id := 5, sid := 0, bead := 0, dst := [.b 256], len := 4, pa := v0 + 0x100, va := 0x100, key := 0 }
def sto1 : StoreOp := { id := 6, sid := 0, pa := v0 + 0x200, key := 0, bytes := [1, 2, 3, 4], writeId := 9, pubs := [] }
def at1 (form : Nat) : AtomOp :=
  { id := 7, sid := 0, bead := 0, form := form, wide := false, pa := v0 + 0x300, va := 0x300, key := 0, b := 5, cmp := 0, dst := [.b 256],
    writeId := 10, pubs := [] }
def sOps : State :=
  { sLd with flight := { nextId := 8, loads := [ld1], stores := [sto1], atoms := [at1 0x56], fills := [{ line := 2, key := 0 }] } }

theorem atRest_v0 (pa n key : Nat) (h : isLpddr pa = false) (h2 : watchedBy sOps pa n = []) : AtRest sOps pa n key :=
  ⟨fun h' => absurd (h.symm.trans h') (by decide), rfl, rfl, h2⟩

theorem test_meets_AccessesPerform :
    sOps.flight.loads.find? (fun x => x.id == ld1.id) = some ld1 ∧ look sOps.strands ld1.sid = some stLd ∧ loadReady sOps ld1 = true ∧
    ld1.failed = false ∧ ld1.snap = none ∧ AtRest sOps ld1.pa ld1.len ld1.key ∧ Fresh sOps (ld1.know ++ stLd.reads) ld1.pa ld1.len ∧ ld1.dst.Nodup ∧
    RKey.lc ∉ ld1.dst ∧ sOps.flight.stores.find? (fun x => x.id == sto1.id) = some sto1 ∧ storeReady sOps sto1 = true ∧ sto1.bytes ≠ [] ∧
    AtRest sOps sto1.pa sto1.bytes.length sto1.key ∧ lpddrHeld sOps = false ∧ Legible sOps (128 * 2) 128 0 ∧
    isLpddr (128 * 2) = true ∧ sOps.vaults.units ≠ 0 := by
  refine ⟨rfl, rfl, by decide, rfl, rfl, atRest_v0 _ _ _ (by decide) (by decide), (fun _ _ _ _ h => nomatch h), by decide, by decide, rfl,
    by decide, by decide, atRest_v0 _ _ _ (by decide) (by decide), by decide, ?_, by decide, by decide⟩
  intro _ l _
  exact ⟨(fun _ hh => nomatch hh), .inl rfl⟩

theorem test_meets_AtomicsPerform : sOps.flight.atoms.find? (fun x => x.id == 7) = some (at1 0x56) ∧ atomReady sOps (at1 0x56) = true ∧
    (∀ x ∈ sOps.flight.atoms, x.id = 7 → x = at1 0x56) ∧ (look sOps.strands 0).isSome ∧ (at1 0x56).bead ≠ 254 ∧
    AtRest sOps (at1 0x56).pa 4 0 ∧ (at1 0x56).failed = false ∧ (at1 0x56).snap = none ∧ ({ at1 0x56 with old := some 3 } : AtomOp).old = some 3 ∧ (at1 0x56).dst.Nodup ∧
    RKey.lc ∉ (at1 0x56).dst :=
  ⟨rfl, by decide, by decide, rfl, by decide, atRest_v0 _ _ _ (by decide) (by decide), rfl, rfl, rfl, by decide, by decide⟩

/-- The atomic as a deterministic kernel's strand sends it. -/
theorem test_meets_AtomicsPerform_staged : ({ at1 0x56 with snap := some 0 } : AtomOp).snap = some 0 ∧
    atomReady { sOps with flight := { nextId := 8, atoms := [{ at1 0x56 with snap := some 0 }] } } { at1 0x56 with snap := some 0 } = true := by
  decide

theorem test_store_performs : (after .storePerform { sOps with arg := .one 6 }).mem.bytes =
    [(v0 + 0x200, 1), (v0 + 0x201, 2), (v0 + 0x202, 3), (v0 + 0x203, 4)] := by decide +kernel
theorem test_atomic_adds : (after .atomicPerform { sOps with arg := .one 7 }).mem.bytes = [(v0 + 0x300, 5)] := by decide +kernel

/-! ### Hinges and signals -/

/-- A braid whose hinge 0 has two members: the strand, whose arrival is as given, and another that lacks or has come. -/
def hingeWith (a : Arrival) (arrived : Nat) : Hinge := { members := 3, arrived := arrived, st := [(0, a)] }
def sHinge (st : Strand) (a : Arrival) (arrived : Nat) : State :=
  { stateOf st with braids := [(0, { kernel := 1, ctx := 1, hinges := [(0, hingeWith a arrived)] })] }

theorem test_meets_HingesArrive : Member (sHinge st0 .idle 0) st0 0 0 0 (hingeWith .idle 0) ∧
    Member (sHinge st0 .idle 2) st0 0 0 0 (hingeWith .idle 2) ∧ (∀ ph, ¬ At (hingeWith .idle 0) 0 (.pending ph)) ∧
    ¬ LastAt (hingeWith .idle 0) 0 ∧ LastAt (hingeWith .idle 2) 0 ∧ performedAll (sHinge st0 .idle 0) 0 = true ∧ st0.sync = none ∧
    At (hingeWith .passed 0) 0 .passed ∧ ({ st0 with sync := some 0 } : Strand).sync = some 0 ∧
    Member (sHinge { st0 with sync := some 0 } .passed 0) { st0 with sync := some 0 } 0 0 0 (hingeWith .passed 0) := by
  simp only [Member, At, LastAt]
  decide

theorem test_meets_HingesWait : Member (sHinge st0 .passed 0) st0 0 0 0 (hingeWith .passed 0) ∧ At (hingeWith .passed 0) 0 .passed ∧
    Member (sHinge st0 (.pending false) 1) st0 0 0 0 (hingeWith (.pending false) 1) ∧
    At (hingeWith (.pending false) 1) 0 (.pending false) ∧ At (hingeWith .idle 0) 0 .idle ∧
    (kernelOf (sHinge st0 .idle 0) st0).lrec.trap ≠ 0xFFFFFFFF ∧ dstOk st0 (.uni 1) = true ∧ (fillOf st0 255 (.uni 1)).isFull = true := by
  simp only [Member, At]
  decide

theorem test_harr_last_turns : (look (after (.harr 0) (sHinge st0 .idle 2)).braids 0).map
    (fun b => (hingeWith .idle 2 == lookD b.hinges 0 {}, (lookD b.hinges 0 {}).phase, (lookD b.hinges 0 {}).arrived)) =
    some (false, true, 0) := by decide
theorem test_htest_counts : result (.htest (.uni 1) 0) st0 0 (.uni 1) = 0 ∧
    readReg (strandAfter (.htest (.uni 1) 0) (sHinge st0 (.pending false) 1)) 0 (.uni 1) = 0x10000 := by decide
theorem test_hwait_idle_faults : (strandAfter (.hwait 0) (sHinge st0 .idle 0)).trap = ⟨0x0D, 0xFF, 0, 0x200, 3, 0⟩ := by decide

/-- Two strands of a braid, each waiting at a hinge that lacks only the other. -/
def stDead (sx h : Nat) : Strand := { st0 with sx := sx, run := .blocked (.hinge h) }
def sDead : State :=
  { stateOf st0 with
    strands := [(0, stDead 0 0), (1, stDead 1 1)], arg := .one 0
    braids := [(0, { kernel := 1, ctx := 1, hinges := [(0, { members := 3, arrived := 1, st := [(0, .pending false)] }),
                                                       (1, { members := 3, arrived := 2, st := [(1, .pending false)] })] })] }

theorem test_meets_DeadlocksTrap : risingFrom 0 sDead.strands = true ∧
    (∀ e ∈ sDead.strands, e.2.braid = 0 ∧ hingeBlocked sDead e.2 = some e.1 ∧ lacksOnly sDead sDead.strands e.2 e.1 = true ∧
      (kernelOf sDead e.2).lrec.trap ≠ 0xFFFFFFFF) := by decide

/-- A strand with a signal's address 0x100 in u0:u1 and 5 in u2:u3. -/
def stSig : Strand := withUni st0 [(0, 0x100), (2, 5)]
def sSig : State := mapped (stateOf stSig)

theorem test_meets_SignalsAct : SignalAt sSig stSig (.uni 0) .both (v0 + 0x100) 0 ∧ SignalAt sSig stSig (.uni 0) .read (v0 + 0x100) 0 ∧
    uniPairOk stSig (.uni 2) = true ∧ (∀ r ∈ pairOf (.uni 2), (fillOf stSig 255 r).isFull = true) ∧
    signalMeets .geu (signalSeen sSig stSig 0x100 (v0 + 0x100)) (readPair stSig 255 (.uni 2)) = false ∧ NoSaves sSig ∧
    signalMeets .ltu (signalSeen sSig stSig 0x100 (v0 + 0x100)) (readPair stSig 255 (.uni 2)) = true ∧ isStaged sSig stSig 0x100 32 = false := by
  have h : AtRest sSig (v0 + 0x100) 32 0 := ⟨fun h => absurd (show isLpddr (v0 + 0x100) = false by decide) (by simp [h]), rfl, rfl, by decide⟩
  exact ⟨⟨by decide, by decide, by decide, hits_mapped stSig rfl rfl rfl rfl .both (by decide) 0x100 32 (by decide), h, by decide, by decide, by decide, fun _ => rfl⟩,
    ⟨by decide, by decide, by decide, hits_mapped stSig rfl rfl rfl rfl .read (by decide) 0x100 32 (by decide), h, by decide, by decide, by decide, fun _ => rfl⟩, by decide, by decide, by decide, (fun _ h => nomatch h), by decide, by decide⟩

theorem test_sigwr_adds : (after (.sigwr .add .device (.uni 0) (.uni 2)) sSig).mem.bytes = [(v0 + 0x100, 5)] := by decide +kernel
theorem test_sigwt_waits : (strandAfter (.sigwt .geu .device (.uni 0) (.uni 2)) sSig).run =
    .blocked (.signal 0x100 (v0 + 0x100) 0 .geu 5 0) := by decide +kernel

/-- A strand that waits, after a write of 7 to the word that it watches. -/
def sWake (w : Wait) : State :=
  { stateOf { st0 with run := .blocked w } with
    arg := .one 0
    mem := { bytes := [(v0, 7)], log := [{ id := 0, pa := v0, old := [0, 0, 0, 0], new := [7, 0, 0, 0], path := none, pubs := [] }], nextWrite := 1 } }

theorem test_meets_WaitersWake :
    ((sWake (.time 0)).strands.map fun e => e.2.run) = [.blocked (.time 0)] ∧ 0 ≤ nowNs (sWake (.time 0)) ∧
    (∃ w ∈ (sWake (.word 0 v0 0 0 0)).mem.log.take 1, w.pa / 128 ≤ v0 / 128 ∧ v0 / 128 ≤ (w.pa + w.new.length - 1) / 128 ∧ w.new ≠ []) ∧
    BitVec.ofNat 32 (ofLE ((sWake (.word 0 v0 0 0 0)).mem.read v0 4)) ≠ 0 ∧ BitVec.ofNat 32 (ofLE ((sWake (.word 0 v0 0 7 0)).mem.read v0 4)) = 7 ∧
    (∃ w ∈ (sWake (.signal 0 v0 0 .eq 7 0)).mem.log.take 1, w.pa < v0 + 32 ∧ v0 < w.pa + w.new.length) ∧
    signalMeets .eq (signalSeen (sWake (.signal 0 v0 0 .eq 7 0)) { st0 with run := .blocked (.signal 0 v0 0 .eq 7 0) } 0 v0) 7 = true ∧
    signalMeets .ne (signalSeen (sWake (.signal 0 v0 0 .ne 7 0)) { st0 with run := .blocked (.signal 0 v0 0 .ne 7 0) } 0 v0) 7 = false ∧
    (∀ w ∈ [Wait.word 0 v0 0 0 0, .word 0 v0 0 7 0, .signal 0 v0 0 .eq 7 0, .signal 0 v0 0 .ne 7 0], heldBySlot (sWake w) v0 32 = false ∧
      heldBySlot (sWake w) v0 4 = false ∧ isStaged (sWake w) { st0 with run := .blocked w } 0 4 = false) := by decide

theorem test_meets_WaitersWake_rest (w : Wait) (n : Nat) : AtRest (sWake w) v0 n 0 :=
  ⟨fun h => absurd h (by decide), rfl, rfl, rfl⟩

/-- The waiter of a deterministic kernel, whose word in memory is 7. -/
theorem test_meets_WaitersWake_staged :
    let s : State := { sWake (.word 0 v0 0 3 0) with cmd := sDet.cmd }
    let st : Strand := { st0 with run := .blocked (.word 0 v0 0 3 0) }
    heldBySlot s v0 4 = false ∧ isStaged s st 0 4 = true ∧ BitVec.ofNat 32 (ofLE (readStaged s st s.mem.nextWrite v0 4).bytes) ≠ 3 := by
  decide +kernel

theorem test_sleepw_recheck_wakes : ((after .sleepwRecheck (sWake (.word 0 v0 0 0 0))).strands.map fun e => e.2.run) = [.ready] := by decide

/-! ### Queues -/

/-- A strand with queue 3 bound to q0; u0 = 3, u1 = 5. -/
def stQ : Strand := { withUni (withBeads st0 [(64, 0xAB), (65, 0xCD)]) [(0, 3), (1, 5)] with ports := [(0, 3)] }
/-- Queue 3, with its ring of two words in vault 0, in a state and holding n elements. -/
def q3 (st : QSt) (n : Nat) : HwQueue := { st := st, ctx := 1, tail := n, ringPa := v0 + 0x1000, lslots := 1, esize := 4 }
def sQ (st : Strand) (q : HwQueue) : State := { stateOf st with queues := [(3, q)] }

theorem atRest_q (st : Strand) (q : HwQueue) (pa n : Nat) (h : isLpddr pa = false) : AtRest (sQ st q) pa n 0 :=
  ⟨fun h' => absurd (h.symm.trans h') (by decide), rfl, rfl, rfl⟩

theorem test_meets_PortsPush : ∃ r, integerRow (.mov (.q 0) (.bead 1) false) = some r ∧ r.form.dsts = [.q 0] ∧ r.legal stQ = true ∧
    r.form.Full stQ ∧ r.form.Answered stQ ∧ PortAt (sQ stQ (q3 .open_ 0)) stQ 0 3 (q3 .open_ 0) ∧
    RingRoom (sQ stQ (q3 .open_ 0)) (q3 .open_ 0) (actsOn stQ r.form.uniform).length :=
  ⟨_, rfl, rfl, by decide, by simp only [Form.Full]; decide, .inl rfl, ⟨rfl, rfl, (fun _ h => nomatch h), by decide⟩,
    ⟨rfl, rfl, rfl, by decide, by decide, by decide, by decide, by decide, by decide, atRest_q _ _ _ _ (by decide), (fun _ h => nomatch h), by decide⟩⟩

theorem test_push_two : (after (.mov (.q 0) (.bead 1) false) (sQ stQ (q3 .open_ 0))).mem.bytes =
    [(v0 + 0x1000, 0xAB), (v0 + 0x1004, 0xCD)] := by decide +kernel

/-- A pop request for queue 3. -/
def pop1 : PopOp := { id := 4, sid := 0, bead := 0, qid := 3 }
def sPop (q : HwQueue) : State := { sQ stQ q with flight := { nextId := 5, pops := [pop1] }, arg := .one 4 }

theorem test_meets_PortsPop : (∃ r, integerRow (.add (.bead 2) (.q 0) (.bead 1) false false) = some r ∧
      r.form.srcs.find? isPort = some (.q 0) ∧ (r.form.srcs ++ r.form.dsts).countP isPort = 1 ∧ r.legal stQ = true ∧ actsOn stQ false = [0, 1] ∧ stQ.popped = [] ∧
      (∀ x ∈ r.form.srcs ++ r.form.dsts, (fillOf stQ 0 x).isFull = true) ∧ look stQ.ports 0 = some 3) ∧
    (sPop (q3 .open_ 1)).flight.pops.find? (fun x => x.id == pop1.id) = some pop1 ∧
    (∀ q ∈ [q3 .open_ 1, q3 .closed 0], firstInOrder (sPop q) 0 4 q.ringPa 8 = true) ∧
    (q3 .open_ 1).spilled < (q3 .open_ 1).count ∧
    AtRest (sPop (q3 .open_ 1)) (ringSlot (q3 .open_ 1) (q3 .open_ 1).head) 4 0 ∧
    (q3 .closed 0).count = 0 ∧ (q3 .drained 0).spilled = 0 ∧
    ({ q3 .closed 0 with token := some (0, some 9) } : HwQueue).token = some (0, some 9) :=
  ⟨⟨_, rfl, rfl, by decide, by decide, by decide, rfl, by decide, rfl⟩, rfl, by decide, by decide,
    ⟨fun h' => absurd h' (by decide), rfl, rfl, rfl⟩, by decide, rfl, rfl⟩

/-- ADD q1, q0, b1, with queue 3 at q0, empty or with an element, and queue 4, which is closed, at q1. -/
def stQ2 : Strand := { stQ with ports := [(0, 3), (1, 4)] }
def sQ2 (n : Nat) : State := { sQ stQ2 (q3 .open_ n) with queues := [(3, q3 .open_ n), (4, q3 .closed 0)] }

theorem test_meets_PortsPop_two : (∃ r, integerRow (.add (.q 1) (.q 0) (.bead 1) false false) = some r ∧ r.form.pops ≠ 0 ∧
      1 < (r.form.srcs ++ r.form.dsts).countP isPort ∧ r.legal stQ2 = true ∧ actsOn stQ2 false = [0, 1] ∧ stQ2.popped = [] ∧
      (∀ x ∈ r.form.srcs ++ r.form.dsts, (fillOf stQ2 0 x).isFull = true)) ∧ (sQ2 0).flight.spawns = [] ∧
    portQueue stQ2 0 = 3 ∧ portQueue stQ2 1 = 4 ∧ planPorts (sQ2 0) (some 4) [] [3] = .wait ∧
    (match planPorts (sQ2 1) (some 4) [] [3] with | .fault _ q => q == 4 | _ => false) = true :=
  ⟨⟨_, rfl, by decide, by decide, by decide, by decide, rfl, by decide⟩, rfl, rfl, rfl, by decide, by decide⟩

/-- R98: the bead that faults at its push has taken no element. -/
theorem test_pop_unmade : (strandAfter (.add (.q 1) (.q 0) (.bead 1) false false) (sQ2 1)).trap.cause = 0x0B ∧
    ((look (after (.add (.q 1) (.q 0) (.bead 1) false false) (sQ2 1)).queues 3).map (·.count)) = some 1 := by decide +kernel

theorem test_pop_token : (strandAfter .popArrival (sPop { q3 .closed 0 with token := some (0, some 9) })).popped = [(none, 0x902)] := by
  decide

theorem test_meets_QueuesBind : UniFull stQ (.uni 0) ∧ look (sQ stQ (q3 .open_ 0)).queues (readReg stQ 255 (.uni 0)).toNat = some (q3 .open_ 0) ∧
    (readReg stQ 255 (.uni 0)).toNat < 4096 ∧ (q3 .open_ 0).st ≠ .free ∧ (q3 .open_ 0).ctx = stQ.ctx ∧
    PortAt (sQ stQ (q3 .open_ 0)) stQ 0 3 (q3 .open_ 0) ∧ uniPairOk stQ (.uni 4) = true ∧
    (∀ r ∈ pairOf (.uni 4), (fillOf stQ 255 r).isFull = true) :=
  ⟨⟨by decide, by decide⟩, by decide, by decide, by decide, rfl, ⟨rfl, rfl, (fun _ h => nomatch h), by decide⟩, by decide, by decide⟩

theorem test_qstat_reads : (result (.qstat (.uni 4) 0) stQ 0 (.uni 4) = 0) ∧
    readReg (strandAfter (.qstat (.uni 4) 0) (sQ stQ (q3 .open_ 1))) 0 (.uni 4) = 0x40000000 ∧
    readReg (strandAfter (.qstat (.uni 4) 0) (sQ stQ (q3 .open_ 1))) 0 (.uni 5) = 1 := by decide

theorem test_meets_QueuesClose : PortAt (sQ stQ (q3 .closed 0)) stQ 0 3 (q3 .closed 0) ∧ (q3 .closed 0).st ≠ .open_ ∧
    (q3 .open_ 0).st = .open_ ∧ UniFull stQ (.uni 1) ∧ isPort (.uni 1) = false :=
  ⟨⟨rfl, rfl, (fun _ h => nomatch h), by decide⟩, by decide, rfl, ⟨by decide, by decide⟩, rfl⟩

/-- The strand with one bead, whose pop was answered. -/
def stAns : Strand := { stQ with flow := { mask := 1 }, popped := [(some [1, 2, 3, 4], 0)] }

theorem test_meets_QueueWords : PortAt (sQ stAns (q3 .open_ 0)) stAns 0 3 (q3 .open_ 0) ∧ actsOn stAns false = [0] ∧
    runOf (.bead 4) 1 = some [.bead 4] ∧ beadRunOk stAns (.bead 4) 1 = true ∧ beadRunOk stAns (.bead 6) 1 = true ∧
    (∀ r ∈ [Reg.bead 4, .bead 6], (fillOf stAns 0 r).isFull = true) ∧ runOf (.uni 0) 1 = some [.uni 0] ∧
    uniRunOk stAns (.uni 0) 1 = true ∧ RingRoom (sQ stAns (q3 .open_ 0)) (q3 .open_ 0) 1 :=
  ⟨⟨rfl, rfl, (fun _ h => nomatch h), by decide⟩, by decide, by decide, by decide, by decide, by decide, by decide, by decide,
    ⟨rfl, rfl, rfl, by decide, by decide, by decide, by decide, by decide, by decide, atRest_q _ _ _ _ (by decide), (fun _ h => nomatch h), by decide⟩⟩

theorem test_qpops_word : readReg (strandAfter (.qpops (.bead 4) 0 (.bead 6)) (sQ stAns (q3 .open_ 0))) 0 (.bead 4) = 0x04030201 := by decide

/-- A reservation of two elements at queue 3. -/
def spawn1 : SpawnOp := { id := 4, sid := 0, qid := 3, dst := [.b 256, .b 257], elems := [[1, 0, 0, 0], [2, 0, 0, 0]], ids := [0, 1], pubs := [] }
def sSpawn (q : HwQueue) : State := { sQ stQ q with flight := { nextId := 5, spawns := [spawn1] }, arg := .one 4 }

theorem test_meets_SpawnsReserve : beadRunOk stQ (.bead 4) 1 = true ∧ beadRunOk stQ (.bead 1) 1 = true ∧ runOf (.bead 1) 1 = some [.bead 1] ∧
    actsOn stQ false ≠ [] ∧ (∀ j ∈ actsOn stQ false, ∀ r ∈ [Reg.bead 1, .bead 4], (fillOf stQ j r).isFull = true) ∧ look stQ.ports 0 = some 3 ∧
    (sSpawn (q3 .open_ 0)).flight.spawns.find? (fun x => x.id == 4) = some spawn1 ∧ spawn1.dst.Nodup ∧ RKey.lc ∉ spawn1.dst ∧
    spawn1.dst.length = spawn1.elems.length ∧ spawn1.ids.length = spawn1.elems.length ∧ (∀ e ∈ spawn1.elems, e.length = 4) ∧ RingRoom (sSpawn (q3 .open_ 0)) (q3 .open_ 0) 2 ∧
    (q3 .closed 0).st ≠ .open_ ∧ (∀ q ∈ [q3 .open_ 0, q3 .closed 0], spawnHeld (sSpawn q) spawn1 = false) ∧ stQ.run ≠ .blocked (.queue 3) :=
  ⟨by decide, by decide, by decide, by decide, by decide, rfl, rfl, by decide, by decide, rfl, rfl, by decide,
    ⟨rfl, rfl, rfl, by decide, by decide, by decide, by decide, by decide, by decide, ⟨fun h' => absurd h' (by decide), rfl, rfl, rfl⟩,
      (fun _ h => nomatch h), by decide⟩, by decide, by decide, by decide⟩

theorem test_spawn_closed : getKey (strandAfter .spawnReservation (sSpawn (q3 .closed 0))) (.b 256) = { val := 0xFFFFFFFF } := by decide

/-- Queue 3 with three elements, one of them in its spill page in vault 0. -/
def qSpill : HwQueue := { q3 .open_ 3 with head := 1, spilled := 1, spillMax := 4, spillPages := [(v0 + 0x4000, 0)] }
def sSpill : State := { sQ stQ qSpill with arg := .one 3, cmd := { (sQ stQ qSpill).cmd with evr := { en := true } } }

theorem test_meets_SpillsMove : look sSpill.queues 3 = some qSpill ∧ 0 < qSpill.spilled ∧ qSpill.count - qSpill.spilled < 2 ^ qSpill.lslots ∧
    unitFits sSpill (spillLines qSpill) = true ∧ poolFirst sSpill none qSpill.ringPa = false ∧ qSpill.spilled ≤ qSpill.count ∧ spillPieces qSpill qSpill.spillHead = [(v0 + 0x4000, 0, 4)] ∧
    AtRest sSpill (v0 + 0x4000) 4 0 ∧ isLpddr (ringSlot qSpill 2) = false ∧ AtRest sSpill (ringSlot qSpill 2) 4 0 ∧
    eccHit { sSpill with mem := { ecc := [(v0 + 0x4000) / 8] } } (v0 + 0x4000) 4 = true ∧ qSpill.st ≠ .drained ∧
    RingTakes sSpill :=
  ⟨rfl, by decide, by decide, by decide, by decide, by decide, by decide, ⟨fun h' => absurd h' (by decide), rfl, rfl, rfl⟩, by decide,
    ⟨fun h' => absurd h' (by decide), rfl, rfl, rfl⟩, by decide, by decide, by decide, rfl, rfl, by decide⟩

/-! ### Engines -/

/-- A leaf that passes its checks gives its frame and the offset in it. -/
theorem useLeaf_ok (s : State) (a : Accessor) (va l e : Nat) (hl : leafReason s a.ctx l e = none) (hg : pteGrants e a.need = true) :
    useLeaf s a va l e = .ok (pteFrame e + va % pageBytes l) (bits e 58 50) (bit e 60 && !bit e 61) := by
  unfold useLeaf
  rw [hl]
  simp only [hg]
  rfl

/-- An access whose page its own cache holds. -/
theorem translate_first (s : State) (a : Accessor) (va n : Nat) (id : CacheId) (e : TlbEntry) (h1 : ¬ va ≥ 2 ^ 53) (h2 : ¬ va ≥ apertureBase)
    (h4 : cacheOf a = some id) (h3 : tlbFind s id a.ctx va = some e) : translation s a va n = (useLeaf s a va e.level e.pte, s) := by
  unfold translation
  rw [if_neg h1, if_neg h2]
  simp only [h4, Option.bind_some, h3]

/-- An access of a unit without a core whose page its quad's second cache holds. -/
theorem translate_second (s : State) (a : Accessor) (va n : Nat) (e : TlbEntry) (h1 : ¬ va ≥ 2 ^ 53) (h2 : ¬ va ≥ apertureBase)
    (hk : a.core = none) (hg : a.given = []) (h3 : tlbFind s (.second a.quad) a.ctx va = some e) :
    translation s a va n = (useLeaf s a va e.level e.pte, s) := by
  have h4 : cacheOf a = none := by simp [cacheOf, hk]
  unfold translation
  rw [if_neg h1, if_neg h2]
  simp [h4, h3, hg, firstLevel]

/-- An access of a unit without a core to page 0 of context 1 reaches vault 0. -/
theorem reach_mapped (s : State) (hl : leafReason (mapped s) 1 3 (leafOf 6) = none) (a : Accessor) (hc : a.ctx = 1)
    (hk : a.core = none) (hg : a.given = []) (hq : a.quad = 0) (hn : a.need ≠ .fetch) (va n : Nat) (hva : va < 0x2000) :
    translation (mapped s) a va n = (.ok (v0 + va) 0 false, mapped s) := by
  have h3 : tlbFind (mapped s) (.second a.quad) a.ctx va =
      some { cache := .second 0, ctx := 1, va := 0, level := 3, pte := leafOf 6 } := by
    rw [hc, hq]
    simp [tlbFind, mapped, TlbEntry.maps, pageBytes, hva]
  have h6 : pteGrants (leafOf 6) a.need = true := by
    generalize a.need = need at hn
    cases need <;> first | decide | exact absurd rfl hn
  have h7 : pteFrame (leafOf 6) = v0 := by decide
  have h8 : pageBytes 3 = 0x2000 := by decide
  have h9 : bits (leafOf 6) 58 50 = 0 := by decide
  have h10 : (bit (leafOf 6) 60 && !bit (leafOf 6) 61) = false := by decide
  rw [translate_second (mapped s) a va n _ (by omega) (by unfold apertureBase; omega) hk hg h3,
    useLeaf_ok (mapped s) a va 3 (leafOf 6) (hc ▸ hl) h6, h7, h8, h9, h10, Nat.mod_eq_of_lt hva]

theorem reaches_mapped (s : State) (hl : leafReason (mapped s) 1 3 (leafOf 6) = none) (a : Accessor) (hc : a.ctx = 1)
    (hk : a.core = none) (hg : a.given = []) (hq : a.quad = 0) (hn : a.need ≠ .fetch) (va n : Nat) (hva : va < 0x2000) (hr : runs va n = [(va, n)])
    (hrest : AtRest (mapped s) (v0 + va) n 0) : Reaches (mapped s) a va n 0 [(v0 + va, n)] := by
  refine ⟨by rw [hr]; rfl, ?_⟩
  intro k r p h1 h2
  rw [hr] at h1
  cases k with
  | zero =>
    simp only [List.getElem?_cons_zero, Option.some.injEq] at h1 h2
    subst h1; subst h2
    exact ⟨rfl, ⟨false, reach_mapped s hl a hc hk hg hq hn va n hva⟩, hrest⟩
  | succ k => simp at h1

/-- u0 to u3 hold the addresses 0x100 and 0x200, u4 the length 64, u5 to u7 the rest of a command. -/
def stCpy (n : Word) : Strand := withUni st0 [(0, 0x100), (2, 0x200), (4, n), (5, 1)]

theorem nextRecord0 (st : Strand) : NextRecord (stateOf st) 1 0 :=
  ⟨by decide, by decide, rfl, show 0 < 2 ^ 16 by decide, .inl ⟨rfl, fun x h => absurd h (by omega)⟩⟩

theorem test_meets_CopiesIssue :
    (∀ n ∈ [(64 : Word), 0], ∃ r, copyRow (.cpy1 (.uni 6) (.uni 0) (.uni 4)) = some r ∧ r.legal (stCpy n) = true ∧
      uniDstOk (stCpy n) r.d = true ∧ (∀ x ∈ r.srcs ++ [r.d], (fillOf (stCpy n) 255 x).isFull = true) ∧ (∀ x ∈ r.srcs, isPort x = false) ∧
      r.Admits (r.srcs.map (readReg (stCpy n) 255)) ∧ (r.units (r.srcs.map (readReg (stCpy n) 255)) = 0 ↔ n = 0) ∧
      NextRecord (stateOf (stCpy n)) 1 0) ∧
    ((stateOf (stCpy 64)).eng.copies.countP fun x => x.core / 4 == 0) < 64 := by
  refine ⟨?_, by decide⟩
  intro n hn
  simp only [List.mem_cons, List.not_mem_nil, or_false] at hn
  rcases hn with rfl | rfl
  all_goals exact ⟨_, rfl, by decide, by decide, by decide, by decide, ⟨by decide, by decide⟩, by decide, nextRecord0 _⟩

theorem test_meets_CopiesIssue_rows : ∃ r, copyRow (.cpy2 (.uni 6) (.uni 0) (.uni 4)) = some r ∧ r.legal (stCpy 64) = true ∧
    r.Admits (r.srcs.map (readReg (stCpy 64) 255)) ∧ r.units (r.srcs.map (readReg (stCpy 64) 255)) ≠ 0 :=
  ⟨_, rfl, by decide, ⟨by decide, by decide⟩, by decide⟩

theorem test_meets_CopiesIssue_gather : ∃ r, copyRow (.gath (.uni 6) (.uni 0) (.uni 4)) = some r ∧ r.legal (stCpy 64) = true ∧
    r.Admits (r.srcs.map (readReg (stCpy 64) 255)) ∧ r.units (r.srcs.map (readReg (stCpy 64) 255)) ≠ 0 :=
  ⟨_, rfl, by decide, ⟨by decide, fun _ => ⟨⟨6, by decide, by decide⟩, by decide, by decide, by decide, by decide⟩⟩, by decide⟩

/-- R227, R228: the first handle of context 1 is of record 0, generation 1. -/
theorem test_cpy1_handle : readReg (strandAfter (.cpy1 (.uni 6) (.uni 0) (.uni 4)) (stateOf (stCpy 64))) 0 (.uni 6) = 0x04000001 ∧
    fillOf (strandAfter (.cpy1 (.uni 6) (.uni 0) (.uni 4)) (stateOf (stCpy 64))) 0 (.uni 6) = .future := by
  decide +kernel

/-- A copy or fill command of 8 bytes from 0x200 to 0x100, whose unit waits or has started. -/
def cpyOf (form : Nat) (started : Bool) : CopyCmd :=
  { id := 2, sid := 0, ctx := 1, core := 0, handle := 0x04000001, form := form, dst := 0x100, src := 0x200, rowBytes := 8, rows := 1,
    spitch := 0, layout := 0, list := 0, know := [], pubs := [], waiting := if started then [] else [(0, 1)],
    started := if started then [0] else [] }
/-- The context's first record is pending for it. -/
def sCpy (x : CopyCmd) : State :=
  { stateOf st0 with
    ctxs := [(1, { st := .active, keyCount := 1, futures := [(0, { gen := 1, st := .pending, cancel := true })] })]
    eng := { copies := [x] }, arg := .two 2 0 }

theorem test_meets_CopyUnitsRun : unitMayStart (mapped (sCpy (cpyOf 0 false))) (cpyOf 0 false) 0 = true ∧
    0 ∈ (cpyOf 0 true).started ∧ lpddrHeld (mapped (sCpy (cpyOf 0 true))) = false ∧
    afterReads (mapped (sCpy (cpyOf 0 true))) (cpyOf 0 true).after = true ∧
    (∀ k < 8, ∀ m < (cpyOf 0 true).rowBytes, ((cpyOf 0 true).src + 4096 * 0 + k) % 2 ^ 64 ≠ ((cpyOf 0 true).dst + m) % 2 ^ 64) ∧ NoSaves (mapped (sCpy (cpyOf 0 true))) ∧
    Reaches (mapped (sCpy (cpyOf 0 true))) (byCopy (cpyOf 0 true) .write) 0x100 8 0 [(v0 + 0x100, 8)] ∧ Apart [(v0 + 0x100, 8)] ∧
    Reaches (mapped (sCpy (cpyOf 0 true))) (byCopy (cpyOf 0 true) .read) 0x200 8 0 [(v0 + 0x200, 8)] ∧
    Settled (mapped (sCpy (cpyOf 0 true))) [] .c (v0 + 0x200) 8 ∧
    Reaches (mapped (sCpy (cpyOf 2 true))) (byCopy (cpyOf 2 true) .write) 0x100 8 0 [(v0 + 0x100, 8)] :=
  ⟨by decide, by decide, by decide, by decide, by decide, (fun _ h => nomatch h),
    reaches_mapped _ (by decide) _ rfl rfl rfl rfl (by decide) _ _ (by decide) (by decide) ⟨fun h => absurd h (by decide), rfl, rfl, rfl⟩,
    List.pairwise_singleton _ _,
    reaches_mapped _ (by decide) _ rfl rfl rfl rfl (by decide) _ _ (by decide) (by decide) ⟨fun h => absurd h (by decide), rfl, rfl, rfl⟩,
    ⟨(fun _ _ _ _ h => nomatch h), rfl⟩,
    reaches_mapped _ (by decide) _ rfl rfl rfl rfl (by decide) _ _ (by decide) (by decide) ⟨fun h => absurd h (by decide), rfl, rfl, rfl⟩⟩

theorem test_fill_writes : (after .copyUnitDone (mapped (sCpy { cpyOf 2 true with src := 0x04030201, rowBytes := 6 }))).mem.bytes =
    [(v0 + 0x100, 1), (v0 + 0x101, 2), (v0 + 0x102, 3), (v0 + 0x103, 4), (v0 + 0x104, 1), (v0 + 0x105, 2)] := by decide +kernel

/-- A strand with the handle of that record in u0, and the null handle in u2. -/
def stFut : Strand := withUni st0 [(0, 0x04000001), (1, 0x04010001)]
/-- The record in a state, and another that is pending. -/
def sFut (f : FutSt) : State :=
  { stateOf stFut with
    ctxs := [(1, { st := .active, futures := [(0, { gen := 1, st := f }), (1, { gen := 1, st := .pending })] })] }

theorem test_meets_FuturesTest : srcOk stFut (.uni 0) = true ∧ pairOk stFut (.uni 4) = true ∧ classOk (.uni 4) [.uni 0] = true ∧
    (∀ j ∈ actsOn stFut true, HandleIn stFut j (.uni 0) ∧ ∀ r ∈ pairOf (.uni 4), (fillOf stFut j r).isFull = true) ∧
    (recordOf (sFut .pending) 1 0).join = none ∧ (look (sFut .pending).ctxs 1).isSome ∧
    UnderWay (sFut .pending) (readReg stFut 255 (.uni 0)) ∧ ¬ UnderWay (sFut .done) (readReg stFut 255 (.uni 0)) ∧
    actsOn stFut (!isBead (.uni 0)) = [255] := by
  simp only [HandleIn, UnderWay]
  decide

theorem test_ftest_done : readReg (strandAfter (.ftest (.uni 4) (.uni 0)) (sFut .done)) 0 (.uni 4) = 1 := by decide

theorem test_meets_FuturesJoin : actsOn stFut (allUniform [.uni 4, .uni 0, .uni 1]) = [255] ∧ dstOk stFut (.uni 4) = true ∧
    HandleIn stFut 255 (.uni 0) ∧ HandleIn stFut 255 (.uni 1) ∧ HandleIn stFut 255 (.uni 2) ∧ (fillOf stFut 255 (.uni 4)).isFull = true ∧
    readReg stFut 255 (.uni 0) ≠ readReg stFut 255 (.uni 1) ∧ (readReg stFut 255 (.uni 0)).toNat % 2 ^ 16 ≠ 0 ∧
    (readReg stFut 255 (.uni 1)).toNat % 2 ^ 16 ≠ 0 ∧ (readReg stFut 255 (.uni 2)).toNat % 2 ^ 16 = 0 ∧
    UnderWay (sFut .pending) (readReg stFut 255 (.uni 0)) ∧ ¬ UnderWay (sFut .failed) (readReg stFut 255 (.uni 0)) := by
  simp only [HandleIn, UnderWay]
  decide

theorem test_meets_FuturesJoin_record : NextRecord (sFut .done) 1 2 :=
  ⟨by decide, by decide, rfl, by decide, .inl ⟨rfl, by decide⟩⟩

theorem test_meets_FuturesEnd :
    (∀ x ∈ [{ cpyOf 0 true with started := [] }, { cpyOf 0 true with err := some 0x13 }, cpyOf 0 true], CommandOf (sCpy x) 1 0 x) ∧
    (recordOf (sCpy (cpyOf 0 true)) 1 0).cancel = true := by
  refine ⟨?_, rfl⟩
  intro x hx
  simp only [List.mem_cons, List.not_mem_nil, or_false] at hx
  rcases hx with rfl | rfl | rfl
  all_goals exact ⟨rfl, rfl, rfl, by decide, by decide, by decide, by decide, rfl, (fun _ h => nomatch h), (fun _ h => nomatch h),
    (fun _ h => nomatch h)⟩

/-- A join of the two records. -/
def sJoin (f g : FutSt) : State :=
  { sFut .done with
    arg := .two 1 2
    ctxs := [(1, { st := .active, futures := [(0, { gen := 1, st := f }), (1, { gen := 1, st := g }),
      (2, { gen := 1, st := .pending, join := some (0x04000001, 0x04010001) })] })] }

theorem test_meets_FuturesEnd_join : (recordOf (sJoin .done .done) 1 2).join = some (0x04000001, 0x04010001) ∧
    (recordOf (sJoin .done .done) 1 0).st = .done ∧ (recordOf (sJoin .done .done) 1 1).st = .done ∧
    (recordOf (sJoin .failed .cancelled) 1 0).st = .failed ∧ (recordOf (sJoin .failed .cancelled) 1 1).st.final = true ∧
    (recordOf (sJoin .cancelled .done) 1 0).st = .cancelled ∧ (recordOf (sJoin .cancelled .done) 1 0).gen = 1 := by decide

theorem test_join_done : (recordOf (after .futureDone (sJoin .done .done)) 1 2).st = .done := by decide

/-! ### Links -/

/-- A route to device 5 over port 2, in a state; context 1 is open to the links. -/
def sLink (st : Strand) (l : LinkSt) : State :=
  { stateOf st with
    sreg := [(0x10, 20), (0xA0, 2), (0x1E000 + 8 * 5, 10)]
    fab := { ports := [(2, { en := true, st := l })] }
    cmd := { (stateOf st).cmd with evr := { en := true } } }

/-- u0 to u3 hold two addresses, u4 a length and u5 the destination 5, or u4 the route of LSIG. -/
def stLink (n : Word) : Strand := withUni st0 [(0, 0x100), (2, 0x200), (4, n), (5, 5)]

theorem test_meets_LinksIssue :
    (∀ n ∈ [(64 : Word), 0], ∃ r, linkRow (.lput (.uni 6) (.uni 0) (.uni 4)) = some r ∧ r.legal (stLink n) = true ∧
      uniDstOk (stLink n) r.d = true ∧ (∀ x ∈ r.srcs ++ [r.d], (fillOf (stLink n) 255 x).isFull = true) ∧ (∀ x ∈ r.srcs, isPort x = false) ∧
      r.Admits (sLink (stLink n) .up) (r.srcs.map (readReg (stLink n) 255)) ∧
      routeOf (sLink (stLink n) .up) (r.dest (r.srcs.map (readReg (stLink n) 255))) = some 2 ∧
      (r.len (r.srcs.map (readReg (stLink n) 255)) = 0 ↔ n = 0)) ∧
    linkSt (sLink (stLink 64) .up) 2 = .up ∧ NextRecord (sLink (stLink 64) .up) 1 0 ∧
    (∃ r, linkRow (.lsig (.uni 6) (.uni 0) (.uni 4)) = some r ∧ r.legal (stLink 5) = true ∧
      r.Admits (sLink (stLink 5) .up) (r.srcs.map (readReg (stLink 5) 255)) ∧ beadDone (sLink (stLink 5) .up) 0 = true ∧
      ∀ c ∈ (sLink (stLink 5) .up).eng.links, c.unsent = true → deviceUp (sLink (stLink 5) .up) c.dest = false) := by
  refine ⟨?_, by decide, ⟨by decide, by decide, rfl, by decide, .inl ⟨rfl, fun x h => absurd h (by omega)⟩⟩,
    ⟨_, rfl, by decide, ⟨by decide, by decide, by decide, by decide, by decide, by decide, by decide⟩, by decide, by decide⟩⟩
  intro n hn
  simp only [List.mem_cons, List.not_mem_nil, or_false] at hn
  rcases hn with rfl | rfl
  all_goals exact ⟨_, rfl, by decide, by decide, by decide, by decide,
    ⟨by decide, by decide, by decide, by decide, by decide, by decide, by decide⟩, by decide, by decide⟩

theorem test_meets_LinksMove : (∀ l ∈ [LinkSt.down, .training, .up, .retrainPending], (Sys2Proof.Claims.portOf (sLink st0 l) 2).st = l) ∧
    (Sys2Proof.Claims.portOf (sLink st0 .training) 2).fails < 2 ∧ evrRoom (sLink st0 .up) = true ∧
    retrainDue { sLink st0 .retrainPending with clk := { tb := 2 ^ 16 * 64000000, retrains := [⟨64000000, [2]⟩] },
                                                  keep := { released := 5 } } = some ⟨64000000, [2]⟩ ∧
    ({ sLink st0 .up with arg := .one 2, fab := { held := [⟨0, 5, .reply .performed⟩] } } : State).fab.held.length = 1 := by decide

theorem test_link_trains : (Sys2Proof.Claims.portOf (after .linkEnSet { sLink st0 .down with arg := .val 2 0x80000000 }) 2).st = .training := by
  decide +kernel
theorem test_link_disabled : (Sys2Proof.Claims.portOf (after .linkEnClear { sLink st0 .up with arg := .val 2 0 }) 2).st = .down := by decide +kernel

/-- A flit of context 1 from device 5. -/
def flitOf (k : FlitKind) : Flit := { src := 5, ctx := 1, kind := k }
/-- It comes next. -/
def sFlit (k : FlitKind) : State := { sLink st0 .up with arg := .flit (flitOf k) }

theorem test_meets_FlitsPerform_arrives : ∀ k ∈ [FlitKind.store 8 [1, 2], .read 8 2, .add 8 2 7],
    Arrives (mapped (sFlit k)) (flitOf k) ∧ (mapped (sFlit k)).fab.arrived = [] := by
  intro k hk
  simp only [List.mem_cons, List.not_mem_nil, or_false] at hk
  rcases hk with rfl | rfl | rfl
  all_goals exact ⟨⟨⟨2, by decide, .inl (by decide)⟩, by decide, by decide, by decide, (fun _ h => nomatch h), (fun _ h => nomatch h)⟩, rfl⟩

theorem test_meets_FlitsPerform :
    Reaches (mapped (sFlit (.store 8 [1, 2]))) (byEndpoint (flitOf (.store 8 [1, 2])) 8 .write) 8 2 0 [(v0 + 8, 2)] ∧ Apart [(v0 + 8, 2)] ∧
    Reaches (mapped (sFlit (.read 8 2))) (byEndpoint (flitOf (.read 8 2)) 8 .read) 8 2 0 [(v0 + 8, 2)] ∧
    Settled (mapped (sFlit (.read 8 2))) (remoteKnow (mapped (sFlit (.read 8 2))) 5) .l (v0 + 8) 2 ∧
    (∃ pin, translation (mapped (sFlit (.add 8 2 7))) (byEndpoint (flitOf (.add 8 2 7)) 8 .both) 8 8 = (.ok (v0 + 8) 0 pin, mapped (sFlit (.add 8 2 7)))) ∧
    AtRest (mapped (sFlit (.add 8 2 7))) (v0 + 8) 8 0 :=
  ⟨reaches_mapped _ (by decide) _ rfl rfl rfl (by decide) (by decide) _ _ (by decide) (by decide) (atRest_vault _ _ _ _ (by decide) rfl rfl rfl),
    List.pairwise_singleton _ _,
    reaches_mapped _ (by decide) _ rfl rfl rfl (by decide) (by decide) _ _ (by decide) (by decide) (atRest_vault _ _ _ _ (by decide) rfl rfl rfl),
    ⟨(fun _ _ _ _ h => nomatch h), by decide⟩,
    ⟨false, reach_mapped _ (by decide) _ rfl rfl rfl (by decide) (by decide) 8 8 (by decide)⟩,
    atRest_vault _ _ _ _ (by decide) rfl rfl rfl⟩

theorem test_flit_adds : (after .flitReceive (mapped (sFlit (.add 8 2 0x107)))).mem.bytes = [(v0 + 8, 7), (v0 + 9, 1)] := by
  decide +kernel

/-- A link command of one flit that has left and is not answered, under the context's first record. -/
def linkOf (form : Nat) : LinkCmd :=
  { ctx := 1, sid := 0, core := 0, handle := 0x04000001, form := form, dest := 5, port := 2, raddr := 0x100, laddr := 0x200, len := 8, ty := 0,
    val := 0, know := [], pubs := [], flits := 1, sent := 1 }
def sAck (form : Nat) (a : Ack) : State :=
  { sLink st0 .up with
    ctxs := [(1, { st := .active, keyCount := 1, futures := [(0, { gen := 1, st := .pending })] })]
    eng := { links := [linkOf form] }, arg := .ack 1 0 a }

theorem test_meets_FlitsPerform_acks : (recordOf (sAck 0 .performed) 1 0).gen < 2 ^ 16 ∧
    (linkOf 0).handle = BitVec.ofNat 32 (1 * 2 ^ 26 + 0 * 2 ^ 16 + (recordOf (sAck 0 .performed) 1 0).gen) ∧
    (sAck 0 .performed).eng.links.find? (fun y => y.handle == (linkOf 0).handle) = some (linkOf 0) ∧
    linkSt (sAck 0 .performed) (linkOf 0).port = .up ∧ (linkOf 0).acked + (linkOf 0).data.length < (linkOf 0).sent ∧ (linkOf 0).err = none ∧
    NoSaves (mapped (sAck 1 (.data [1, 2, 3, 4, 5, 6, 7, 8]))) ∧
    min 64 ((linkOf 1).len - 64 * (linkOf 1).acked) = 8 ∧ lpddrHeld (mapped (sAck 1 (.data [1, 2, 3, 4, 5, 6, 7, 8]))) = false ∧
    Reaches (mapped (sAck 1 (.data [1, 2, 3, 4, 5, 6, 7, 8]))) (byLink (linkOf 1) .write) 0x200 8 0
      [(v0 + 0x200, 8)] :=
  ⟨by decide, by decide, by decide, by decide, by decide, rfl, (fun _ h => nomatch h), by decide, by decide,
    reaches_mapped _ (by decide) _ rfl rfl rfl rfl (by decide) _ _ (by decide) (by decide) (atRest_vault _ _ _ _ (by decide) rfl rfl rfl)⟩

theorem test_ack_finishes : (recordOf (after .flitAck (sAck 0 .performed)) 1 0).st = .pending ∧
    (after .flitAck (sAck 0 .performed)).eng.links.map (fun x => x.acked) = [1] := by decide +kernel

/-! ### Textures and fragments -/

/-- A strand with a 4 × 4 RGBA8 texture at 0x1000, clamped and point-sampled, in u0 to u3, and u = v = 1/2 in b0 and b1 of bead 0. -/
def stTex : Strand :=
  withUni (withBeads st0 [(0, 0x3F000000), (64, 0x3F000000)]) [(0, 0x1000), (2, 0x500000), (3, 0x40004)]
def sTex : State := mapped (stateOf stTex)
def texEx (form : Nat) : TexRow := ⟨form, .bead 4, .bead 0, .uni 0⟩

/-- An access on path X of a strand of core 0 to page 0 of context 1. -/
theorem hits_mx (st : Strand) (hc : st.ctx = 1) (hk : st.core = 0) (hf : st.accFault = none) (hg : st.given = none) (va n : Nat) (hva : va < 0x2000) :
    Hits (mapped (stateOf st)) st .x .read va n (v0 + va) 0 := by
  refine ⟨hf, false, ?_⟩
  have ha : strandAccess st .x .read = { ctx := 1, core := some 0, quad := 0, bid := some st.braid, path := some .x, need := .read, who := strandWho st } := by
    simp [strandAccess, hc, hk, hg, quadOfCore]
  have h1 : ¬ va ≥ 2 ^ 53 := by omega
  have h2 : ¬ va ≥ apertureBase := by unfold apertureBase; omega
  have h3 : tlbFind (mapped (stateOf st)) (.mx 0) 1 va =
      some { cache := .mx 0, ctx := 1, va := 0, level := 3, pte := leafOf 6 } := by
    simp [tlbFind, mapped, TlbEntry.maps, pageBytes, hva]
  have h4 : cacheOf (strandAccess st .x .read) = some (.mx 0) := by rw [ha]; rfl
  have h5 : leafReason (mapped (stateOf st)) 1 3 (leafOf 6) = none :=
    show leafReason (mapped (stateOf {})) 1 3 (leafOf 6) = none by decide
  have hx : (strandAccess st .x .read).ctx = 1 := by rw [ha]
  have e := translate_first (mapped (stateOf st)) (strandAccess st .x .read) va n _ _ h1 h2 h4 (hx ▸ h3)
  have h7 : pteFrame (leafOf 6) = v0 := by decide
  have h8 : pageBytes 3 = 0x2000 := by decide
  have h9 : bits (leafOf 6) 58 50 = 0 := by decide
  have h10 : (bit (leafOf 6) 60 && !bit (leafOf 6) 61) = false := by decide
  rw [e, useLeaf_ok (mapped (stateOf st)) _ va 3 (leafOf 6) (by rw [ha]; exact h5)
      (by rw [ha]; show pteGrants (leafOf 6) .read = true; decide), h7, h8, h9, h10,
    Nat.mod_eq_of_lt hva]

theorem test_meets_TexturesIssue : texDstOk stTex (.bead 4) = true ∧ beadRunOk stTex (.bead 0) 3 = true ∧ uniQuadOk stTex (.uni 0) = true ∧
    ((texEx 0).desc stTex).bad = false ∧ (∀ x ∈ quadOf (.uni 0), (fillOf stTex 0 x).isFull = true) ∧
    (∀ j ∈ activeBeads stTex, ∀ x ∈ (runOf (.bead 0) 3).getD [] ++ quadOf (.bead 4), (fillOf stTex j x).isFull = true) := by decide

theorem test_meets_TexturesIssue_texels : ∀ form ∈ [0, 1, 2, 3], ∀ j ∈ actsOn stTex false,
    (form ≠ 2 → Named (nth ((texEx form).words stTex j) 0) ∧ Named (nth ((texEx form).words stTex j) 1)) ∧
    ∀ va ∈ ((texEx form).texels sTex stTex j).1, Hits sTex stTex .x .read va ((texEx form).desc stTex).texel (v0 + va) 0 := by
  intro form hform j hj
  simp only [List.mem_cons, List.not_mem_nil, or_false] at hform
  have hj : j = 0 ∨ j = 1 := by revert hj; revert j; decide
  refine ⟨fun _ => ⟨fun n h => ?_, fun n h => ?_⟩, fun va hva => hits_mx stTex rfl rfl rfl rfl va _ ?_⟩
  · revert h
    rcases hform with rfl | rfl | rfl | rfl <;> rcases hj with rfl | rfl <;> cases n <;> decide +kernel
  · revert h
    rcases hform with rfl | rfl | rfl | rfl <;> rcases hj with rfl | rfl <;> cases n <;> decide +kernel
  · revert hva
    revert va
    rcases hform with rfl | rfl | rfl | rfl <;> rcases hj with rfl | rfl <;> decide +kernel

theorem test_meets_TexturesIssue_beyond : ∀ j ∈ actsOn (withBeads stTex [(128, 1), (129, 1)]) false,
    ((texEx 2).desc stTex).lv < (nth ((texEx 2).words (withBeads stTex [(128, 1), (129, 1)]) j) 2).toNat := by decide

/-- R371, R372: u = v = 1/2 on a 4 × 4 texture of 4-byte texels names texel (2, 2), 40 bytes on; bead 1's zero names (0, 0). -/
theorem test_tex_addresses : (after (.tex (.bead 4) (.bead 0) (.uni 0)) sTex).flight.texels.map (fun x => (x.bead, x.texels)) =
    [(0, [(v0 + 0x1028, 0)]), (1, [(v0 + 0x1000, 0)])] := by decide +kernel

/-- A read of one texel under way for bead 0, of four channels. -/
def tex1 : TexOp :=
  { id := 3, sid := 0, bead := 0, dst := [.b 256, .b 320, .b 384, .b 448], fmt := 0, mode := 0, alpha := 0, beta := 0,
    texels := [(v0 + 0x1000, 0)] }
/-- An LGET whose data come while that read is still to perform. -/
theorem test_meets_FlitsPerform_keeps :
    let x : LinkCmd := { linkOf 1 with after := [3] }
    let s : State := { sAck 1 (.data [1, 2, 3, 4, 5, 6, 7, 8]) with flight := { texels := [tex1] }, eng := { links := [x] } }
    afterReads s x.after = false ∧ s.eng.links.find? (fun y => y.handle == x.handle) = some x ∧ x.acked + x.data.length < x.sent ∧
    [1, 2, 3, 4, 5, 6, 7, 8].length = min 64 (x.len - 64 * (x.acked + x.data.length)) ∧
    afterReads (sAck 1 (.data [])) (linkOf 1).after = true ∧ (linkOf 1).data = [] := by decide

def sTexel : State :=
  { sTex with
    arg := .one 3, flight := { nextId := 4, texels := [tex1] }
    mem := { bytes := [(v0 + 0x1000, 255), (v0 + 0x1003, 51)] } }

theorem test_meets_TexelsArrive : sTexel.flight.texels.find? (fun x => x.id == tex1.id) = some tex1 ∧ look sTexel.strands 0 = some stTex ∧
    texReady sTexel tex1 = true ∧ tex1.failed = false ∧ tex1.dst.Nodup ∧ RKey.lc ∉ tex1.dst ∧
    ∀ x ∈ tex1.texels, x.2 = 0 ∧ AtRest sTexel x.1 4 0 ∧ Settled sTexel tex1.know .x x.1 4 := by
  refine ⟨by decide, by decide, by decide, rfl, by decide, by decide, ?_⟩
  intro x hx
  obtain rfl : x = (v0 + 0x1000, 0) := by simpa [tex1] using hx
  exact ⟨rfl, atRest_vault _ _ _ _ (by decide) rfl rfl rfl, (fun _ _ _ _ h => nomatch h), by decide⟩

/-- R371: RGBA8 holds unorm codes: 255 is 1, and 51 is 1/5. -/
theorem test_texel_values : let st := lookD (after .texelArrival sTexel).strands 0 {}
    (readReg st 0 (.bead 4), readReg st 0 (.bead 5), readReg st 0 (.bead 7)) = (0x3F800000, 0, 0x3E4CCCCD) := by decide +kernel

/-- The fragments of beads 0 and 1, the second a helper. -/
def frag0 : FragBead := { x := 8, y := 4, w := 1, h := 1, cover := 1, helper := false, order := 5 }
def stFrag : Strand :=
  { withUni (withBeads st0 [(0, 0x3F800000), (64, 0x40000000), (128, 0x40400000)]) [(0, 2)] with
    bary := [(0, 0x3F000000), (1, 0x3E800000)], frags := [(0, frag0), (1, { frag0 with helper := true })] }
/-- Its kernel shades fragments for chain 9. -/
def sFrag (kind : Nat) : State :=
  { stateOf stFrag with
    cmd := { kernels := [(1, { ctx := 1, lrec := { trap := 0x80 }, origin := .chain 9, kind := kind, chain := some 9, total := 1, placed := [0] })],
             nextKernel := 2 }
    strips := { streams := [(0, { floor := 3 })], chains := [(9, { stream := 0, frame := 0, strip := 0, rung := 1 })] } }

theorem test_meets_AttributesInterpolate : (kernelOf (sFrag 1) stFrag).kind = 1 ∧ (kernelOf (sFrag 2) stFrag).kind = 2 ∧
    regExists stFrag (.bead 4) = true ∧ beadRunOk stFrag (.bead 0) 3 = true ∧
    AllFull stFrag false ((runOf (.bead 0) 3).getD [] ++ [.bead 4]) := by
  simp only [AllFull]; decide

/-- R370: λ2 × (3 − 1) + (λ1 × (2 − 1) + 1) at λ1 = 1/2, λ2 = 1/4 is 2. -/
theorem test_ipers_value : readReg (strandAfter (.ipers (.bead 4) (.bead 0)) (sFrag 1)) 0 (.bead 4) = 0x40000000 := by decide +kernel

theorem test_meets_FragmentsGo : (kernelOf (sFrag 1) stFrag).chain = some 9 ∧ beadRunOk stFrag (.bead 0) 4 = true ∧
    regExists stFrag (.bead 4) = true ∧ AllFull stFrag false ((runOf (.bead 0) 4).getD [] ++ [.bead 4]) ∧
    (∀ j ∈ actsOn stFrag false, look stFrag.frags j = some (if j = 0 then frag0 else { frag0 with helper := true }) ∧
      ((if j = 0 then frag0 else { frag0 with helper := true }).helper = true ∨
        (if j = 0 then frag0 else { frag0 with helper := true }).emitted = false)) := by
  simp only [AllFull]; decide

theorem test_emitc_hands : (after (.emitc (.bead 0)) (sFrag 1)).strips.frags =
    [(0, { chain := 9, kernel := 1, bead := { frag0 with emitted := true }, color := some [0x3F800000, 0x40000000, 0x40400000, 0] })] := by
  decide +kernel

/-- A strand of 24 registers of a geometry kernel. -/
def stGeo : Strand := { st0 with regs := 24 }
def sGeo : State :=
  { stateOf stGeo with
    cmd := { kernels := [(1, { ctx := 1, lrec := { trap := 0x80 }, origin := .geometry 0 0, total := 1, placed := [0] })], nextKernel := 2 } }

theorem test_meets_FragmentsGo_emitv : (kernelOf sGeo stGeo).origin = .geometry 0 0 ∧ beadRunOk stGeo (.bead 0) 12 = true ∧
    beadRunOk stGeo (.bead 14) 2 = true ∧ pairOk stGeo (.bead 14) = true ∧ statusOk stGeo (.bead 16) (.bead 0) = true ∧
    AllFull stGeo false ((runOf (.bead 0) 12).getD [] ++ pairOf (.bead 14) ++ [.bead 16]) := by
  simp only [AllFull]; decide

/-- A triangle (2, 2), (12, 2), (2, 7) with q = 1, within the first of two strips of 8 lines of a 16 × 16 stream with a ring in
vault 0; its EMITV waits for the binner. -/
def triVals (y : Word) : List Word :=
  [0x40000000, y, 0, 0x3F800000, 0x41400000, y, 0, 0x3F800000, 0x40000000, 0x40E00000, 0, 0x3F800000, 3, 0x100]
def bin1 (y : Word) : BinOp := { id := 4, sid := 0, bead := 0, kernel := 1, dst := some (.b 1024), vals := triVals y }
def sBin (y : Word) (lc cnt : Nat) : State :=
  { sGeo with
    arg := .one 4, flight := { nextId := 5, bins := [bin1 y] }
    vaults := { maps := [(0, { direct := 6, ring := 1 })] }
    sreg := [(0x10, 20), (0x400, BitVec.ofNat 64 (lc * 2 ^ 16)), (0x408, BitVec.ofNat 64 (2 ^ 48))]
    strips := { streams := [(0, { active := true, outW := 16, outH := 16, rendW := 16, rendH := 16, vTotal := 20, lineP := 1 })]
                bins := [(0, { count := cnt })] } }

theorem test_meets_TrianglesBin : (sBin 0x40000000 16 0).flight.bins.find?
      (fun x => x.id == 4 && binFirst (sBin 0x40000000 16 0) x) = some (bin1 0x40000000) ∧
    (look (sBin 0x40000000 16 0).strands 0).isSome ∧ culled (streamOf (sBin 0x40000000 16 0) 0) (triVals 0x40000000) = false ∧
    stripsMet (streamOf (sBin 0x40000000 16 0) 0) (triVals 0x40000000) = [0] ∧
    0 < recRoom (sBin 0x40000000 16 0) (streamOf (sBin 0x40000000 16 0) 0) ∧ lcap (sBin 0x40000000 16 0) (streamOf (sBin 0x40000000 16 0) 0) = 16 ∧
    (binList (sBin 0x40000000 16 0) 0 0 0) = {} ∧ (binList (sBin 0x40000000 16 16) 0 0 0).count = 16 ∧
    culled (streamOf (sBin 0x40E00000 16 0) 0) (triVals 0x40E00000) = true := by decide +kernel

theorem test_meets_TrianglesBin_ring : AtRest (sBin 0x40000000 16 0) (ringPa (sBin 0x40000000 16 0) 0 (listOff (sBin 0x40000000 16 0) (streamOf (sBin 0x40000000 16 0) 0) 0 0)) 4 0 ∧
    AtRest (sBin 0x40000000 16 0) (ringPa (sBin 0x40000000 16 0) 0 (recOff (sBin 0x40000000 16 0) (streamOf (sBin 0x40000000 16 0) 0) 0 0)) 64 0 :=
  ⟨atRest_vault _ _ _ _ (by decide +kernel) rfl rfl rfl, atRest_vault _ _ _ _ (by decide +kernel) rfl rfl rfl⟩

theorem test_binner_status : ((sBin 0x40000000 16 0 |> after .binnerAnswer).strips.bins, (sBin 0x40000000 16 0 |> after .binnerAnswer).strips.recCount) =
      ([(0, { count := 1 })], [(0, 1)]) ∧
    readReg (lookD (after .binnerAnswer (sBin 0x40000000 16 16)).strands 0 {}) 0 (.bead 16) = 2 ∧
    readReg (lookD (after .binnerAnswer (sBin 0x40E00000 16 0)).strands 0 {}) 0 (.bead 16) = 1 := by decide +kernel

theorem test_meets_TrianglesBin_srate : uniDstOk stFrag (.uni 1) = true ∧ uniSrcOk stFrag (.uni 0) = true ∧
    look (sFrag 1).strips.chains 9 = some { stream := 0, frame := 0, strip := 0, rung := 1 } ∧
    (fillOf stFrag 255 (.uni 0)).isFull = true ∧ (readReg stFrag 255 (.uni 0)).toNat ≤ 4 ∧
    dstOk { stFrag with flow := { stFrag.flow with loops := [{ start := 0, stop := 0x40, lc := 5, d := 0, frame := 0 }] } } .lc = true := by decide

theorem test_srate_coarsens : ((after (.srate (.uni 1) (.uni 0)) (sFrag 1)).strips.chains.map fun e => e.2.rung) = [2] ∧
    readReg (strandAfter (.srate (.uni 1) (.uni 0)) (sFrag 1)) 0 (.uni 1) = 2 := by decide +kernel

/-! ### The matrix queue -/

/-- A strand with a descriptor of 8 rows and 32 columns at 0x1000 in u0 to u3, and an aligned destination with its pitch and slot 1
in u4 to u7. -/
def stMx : Strand :=
  withUni { st0 with uregs := 16 } [(0, 0x1000), (2, 0x00040000), (3, 0x00200008), (4, 0x1400), (6, 0x80), (7, 1)]
/-- Its braid has a tile; slots 0 and 1 hold format 2, which the array takes, slot 2 asks for stochastic rounding. -/
def sMx : State :=
  { stateOf stMx with
    braids := [(0, { kernel := 1, ctx := 1, tiles := [1], mcEpi := 7 })]
    cmd := { kernels := [(1, { ctx := 1, lrec := { trap := 0x80, slots := [2, 2, 0x802] }, total := 1, placed := [0] })], nextKernel := 2 } }

/-- An entry with what the checks of R251 read. -/
def checked (form : Nat) (a b : List Word) (sa sb ba bb : DWord) : MEntry :=
  { insn := 0, form := form, sid := 0, bid := 0, ctx := 0, tile := 0, opA := a, opB := b, sbaseA := ba, sbaseB := bb, slotA := sa,
    slotB := sb, neg := false, epi := 0, handle := 0 }
theorem entryReason_checked (e : MEntry) (p s : Bool) :
    entryReason e p s = entryReason (checked e.form e.opA e.opB e.slotA e.slotB e.sbaseA e.sbaseB) p s := rfl

/-- Words of the forms. -/
def mxForms : List Instr :=
  [.mma (.uni 8) 0 0 0 0 1 true false false, .acz (.uni 8) 0, .acld (.uni 8) (.uni 0) 0 0, .acst (.uni 8) (.uni 0) 2 0,
   .acstr (.uni 8) (.uni 0) 0, .acldr (.uni 8) (.uni 0) 0, .acfold (.uni 8) 0, .mquant (.uni 8) (.uni 0) (.uni 4), .mdeq (.uni 8) (.uni 0) (.uni 4)]

theorem test_meets_MatricesIssue : ∀ i ∈ mxForms, ∃ r, matrixRow i = some r ∧ r.legal sMx stMx = true ∧ uniDstOk stMx r.d = true ∧
    (∀ x, r.tile = some x → x < (lookD sMx.braids 0 {}).tiles.length) ∧
    (∀ k ∈ r.slots stMx, slotPairOk stMx (slotOf (slotWord sMx stMx k)) = true) ∧
    (∀ x ∈ r.opA ++ r.opB ++ (r.slots stMx).flatMap (fun k => slotRegs (slotOf (slotWord sMx stMx k))) ++ [r.d],
      (fillOf stMx 255 x).isFull = true) ∧ ∀ e, r.Captures sMx stMx e → entryReason e true r.spans = none := by
  intro i hi
  simp only [mxForms, List.mem_cons, List.not_mem_nil, or_false] at hi
  rcases hi with rfl | rfl | rfl | rfl | rfl | rfl | rfl | rfl | rfl
  all_goals
    refine ⟨_, rfl, by decide, by decide, ?_, by decide, by decide, ?_⟩
    · intro x h
      cases h <;> decide
    · intro e ⟨h1, h2, h3, h4, h5, h6, h7, _⟩
      rw [entryReason_checked, h1, h2, h3, h4, h5, h6, h7]
      decide +kernel

theorem test_meets_MatricesIssue_queue : (queueOfCore sMx stMx.core).length < 8 ∧ waitingAt sMx stMx.core = [] ∧ NextRecord sMx 1 0 :=
  ⟨by decide, rfl, by decide, by decide, rfl, by decide, .inl ⟨rfl, by decide⟩⟩

theorem test_acst_captures : (queueOfCore (after (.acst (.uni 8) (.uni 0) 2 0) sMx) 0).map (fun e => (e.tile, e.opA, e.epi)) =
      [(1, [0x1000, 0, 0x00040000, 0x00200008], 7)] ∧
    (lookD (after (.acst (.uni 8) (.uni 0) 2 0) sMx).braids 0 {}).mcEpi = 8 := by decide +kernel

/-- A strand with the address 0x100 in u0:u1 and a length of 200 in u2, none in u3; a line is pinned there by its braid and by another. -/
def stPin : Strand := withUni st0 [(0, 0x100), (2, 200)]
def sPin : State := { stateOf stPin with vaults := { lines := [{ line := 2, key := 0, pinBraid := [(0, 0x100), (7, 0x100)] }] } }

theorem test_meets_PinsIssue : uniPairOk stPin (.uni 0) = true ∧ uniSrcOk stPin (.uni 2) = true ∧
    (∀ x ∈ pairOf (.uni 0) ++ [.uni 2, .uni 3], (fillOf stPin 255 x).isFull = true) ∧
    (readReg stPin 255 (.uni 2)).toNat = 200 ∧ (readReg stPin 255 (.uni 3)).toNat = 0 ∧ uniDstOk stPin (.uni 4) = true ∧
    (readPair stPin 255 (.uni 0)).toNat + 200 ≤ 2 ^ 64 ∧ NextRecord (stateOf stPin) 1 0 :=
  ⟨by decide, by decide, by decide, by decide, by decide, by decide, by decide, nextRecord0 _⟩

theorem test_munpin_own_pins : (after (.munpin (.uni 0) (.uni 2)) sPin).vaults.lines.map (fun l => l.pinBraid) = [[(7, 0x100)]] := by
  decide +kernel
theorem test_mpin_lines : (after (.mpin (.uni 4) (.uni 0) (.uni 2)) sPin).eng.pins.map (fun p => p.vas) = [[0x100, 0x180]] := by
  decide +kernel

/-- An entry of core 0's queue, under the context's first record. -/
def entOf (i : Instr) (form : Nat) (started : Bool) : MEntry :=
  { insn := (encode i).getD 0, form := form, sid := 0, bid := 0, ctx := 1, tile := 1, opA := [], opB := [], sbaseA := 0, sbaseB := 0,
    slotA := 0, slotB := 0, neg := false, epi := 0, handle := 0x04000001, started := started, seq := 3 }
def sEnt (e : MEntry) : State :=
  { sMx with
    ctxs := [(1, { st := .active, pinQuota := 4, futures := [(0, { gen := 1, st := .pending })] })]
    eng := { mq := [(0, [e])], tiles := [(((0 * 3 + 1) * 65536 + 5) * 2, 0x3F800000), (((0 * 3 + 1) * 65536 + 5) * 2 + 1, 0x40000000)] }
    arg := .two 0 0 }
def eMma (z : Bool) : MEntry := entOf (.mma (.uni 8) 0 0 0 0 1 z false false) 0 false

theorem test_meets_EntriesRun : (∀ form ∈ [1, 2, 6], mayStart (sEnt (entOf (.acz (.uni 8) 0) form false)) 0 (entOf (.acz (.uni 8) 0) form false) = true) ∧
    (∀ z ∈ [true, false], mayStart (sEnt (eMma z)) 0 (eMma z) = true ∧ pinRule (sEnt (eMma z)) 0 (eMma z) = .pin true [] ∧
      firstAtPins (sEnt (eMma z)) (eMma z) = true ∧ pinsHeld (sEnt (eMma z)) [] = false ∧ (mmaFlags (eMma z)).1 = z) ∧
    (∀ form ∈ [1, 6], EntryHas (sEnt (entOf (.acz (.uni 8) 0) form true)) (entOf (.acz (.uni 8) 0) form true) 1 0) ∧
    (∀ e, EntryAt (sEnt e) 0 0 e) ∧ risingFrom 0 (sEnt (eMma true)).eng.tiles = true ∧ waitingAt (sEnt (eMma true)) 0 = [] := by
  refine ⟨by decide +kernel, by decide +kernel, by simp only [EntryHas]; decide +kernel, fun e => ⟨rfl, rfl, fun x hx _ => ?_⟩, by decide +kernel, rfl⟩
  exact List.mem_singleton.mp hx

/-- R32, R266: the fold of element 5, of 1.0 and 2.0, leaves 3.0 in the first chain and +0 in the second. -/
theorem test_acfold_adds : walkTile 0 (fun _ c => foldChains c) 6 0 [(10, 0x3F800000), (11, 0x40000000)] =
    [(10, 0x40400000)] := by decide +kernel
theorem test_acz_zeroes : (after .matrixEntryEnd (sEnt (entOf (.acz (.uni 8) 0) 1 true))).eng.tiles = [] := by decide +kernel

/-- The first 8 MiB of context 1 in the matrix cache of core 0, in vault 0, and a started entry with its operands there. -/
def sComp (e : MEntry) : State :=
  { sEnt e with trans := { tlb := [{ cache := .mx 0, ctx := 1, va := 0, level := 2, pte := leafOf 6 }] } }
/-- Lines of 8 rows and 32 columns of 16 bits, and a wide destination of the same extent. -/
def eWork (i : Instr) (form : Nat) : MEntry :=
  { entOf i form true with
    opA := [0x1000, 0, 0x00040000, 0x00200008], slotA := 2, slotB := 2
    opB := if form = 0 then [0x2000, 0, 0x00040000, 0x00200008] else [0x4000, 0, 0x80, 1] }
/-- The MMA of one core, and of a pair. -/
def eSpan (sp : Bool) : MEntry := { eWork (.mma (.uni 8) 0 0 0 0 1 false sp true) 0 with tile2 := 1 }

theorem tile_hits (e : MEntry) (hc : e.ctx = 1) (hg : e.given = none) (need : Need) (hn : need ≠ .fetch) (va n : Nat) (hva : va < 0x800000) :
    translation (sComp e) { tileAccess 0 e with need := need } va n = (.ok (v0 + va) 0 false, sComp e) := by
  have h1 : ¬ va ≥ 2 ^ 53 := by omega
  have h2 : ¬ va ≥ apertureBase := by unfold apertureBase; omega
  have h3 : tlbFind (sComp e) (.mx 0) 1 va = some { cache := .mx 0, ctx := 1, va := 0, level := 2, pte := leafOf 6 } := by
    simp [tlbFind, sComp, TlbEntry.maps, pageBytes, hva]
  have h4 : cacheOf { tileAccess 0 e with need := need } = some (.mx 0) := by cases need <;> first | rfl | exact absurd rfl hn
  have hx : ({ tileAccess 0 e with need := need } : Accessor).ctx = 1 := hc
  have hl : leafReason (sComp e) 1 2 (leafOf 6) = none := by
    have h : leafReason (sComp e) 1 2 (leafOf 6) = leafReason (sComp (eMma true)) 1 2 (leafOf 6) := by
      unfold leafReason vaultMap sComp sEnt
      rfl
    rw [h]
    decide
  have h5 := translate_first (sComp e) { tileAccess 0 e with need := need } va n _ _ h1 h2 h4 (hx ▸ h3)
  have h6 : pteGrants (leafOf 6) need = true := by cases need <;> first | decide | exact absurd rfl hn
  have h7 : pteFrame (leafOf 6) = v0 := by decide
  have h8 : pageBytes 2 = 0x800000 := by decide
  have h9 : bits (leafOf 6) 58 50 = 0 := by decide
  have h10 : (bit (leafOf 6) 60 && !bit (leafOf 6) 61) = false := by decide
  rw [h5, useLeaf_ok (sComp e) _ va 2 (leafOf 6) (hx ▸ hl) h6, h7, h8, h9, h10, Nat.mod_eq_of_lt hva]

theorem mapped_tile (e : MEntry) (hc : e.ctx = 1) (hg : e.given = none) (need : Need) (hn : need ≠ .fetch) (rs : List (Nat × Nat))
    (hr : ∀ r ∈ rs, ∀ p ∈ runs r.1 r.2, p.1 < 0x800000) : Mapped (sComp e) { tileAccess 0 e with need := need } 0 (v0 + ·) rs :=
  fun r h p hp => ⟨⟨false, tile_hits e hc hg need hn _ _ (hr r h p hp)⟩, atRest_vault _ _ _ _ (v0_not_lpddr _) rfl rfl rfl,
    fun _ _ => (Nat.add_assoc _ _ _).symm⟩

theorem mapsRead_tile (e : MEntry) (hc : e.ctx = 1) (hg : e.given = none) (rs : List (Nat × Nat))
    (hr : ∀ r ∈ rs, ∀ p ∈ runs r.1 r.2, p.1 < 0x800000) : MapsRead (sComp e) 0 e 0 (v0 + ·) rs :=
  ⟨mapped_tile e hc hg .read (by decide) rs hr, fun _ _ _ _ => ⟨(fun _ _ _ _ h => nomatch h), rfl⟩⟩

theorem test_meets_EntriesCompute : ∀ e ∈ [eSpan false, eSpan true, eWork (.acld (.uni 8) (.uni 0) 0 0) 2, eWork (.acst (.uni 8) (.uni 0) 0 0) 3,
      eWork (.acstr (.uni 8) (.uni 0) 0) 4, eWork (.acldr (.uni 8) (.uni 0) 0) 5, eWork (.mquant (.uni 8) (.uni 0) (.uni 4)) 7,
      eWork (.mdeq (.uni 8) (.uni 0) (.uni 4)) 8],
    EntryAt (sComp e) 0 0 e ∧ e.started = true ∧ e.stall = none ∧ e.err = none ∧ EntryHas (sComp e) e 1 0 ∧
    risingFrom 0 (sComp e).eng.tiles = true ∧ waitingAt (sComp e) 0 = [] ∧ lpddrHeld (sComp e) = false ∧ NoSaves (sComp e) := by
  intro e he
  simp only [List.mem_cons, List.not_mem_nil, or_false] at he
  simp only [EntryAt, EntryHas]
  rcases he with rfl | rfl | rfl | rfl | rfl | rfl | rfl | rfl <;>
    exact ⟨by decide, rfl, rfl, rfl, by decide, by decide, rfl, rfl, fun _ h => nomatch h⟩

theorem test_meets_EntriesCompute_mma : ∀ sp : Bool, let e := eSpan sp
    decode e.insn = .ok (.mma (.uni 8) 0 0 0 0 1 false sp true) ∧ entryReason e true sp = none ∧ e.kdone % 64 = 0 ∧
    e.kdone < (descOf e.opA).k ∧ e.tile < 3 ∧ e.tile2 < 3 ∧
    ∀ m, 64 * m < (descOf e.opA).k → MapsRead (sComp e) 0 e 0 (v0 + ·)
      (operandRanges (descOf e.opA) (slotOf e.slotA) e.sbaseA.toNat (64 * m) (min 64 ((descOf e.opA).k - 64 * m)) ++
        operandRanges (descOf e.opB) (slotOf e.slotB) e.sbaseB.toNat (64 * m) (min 64 ((descOf e.opA).k - 64 * m))) := by
  intro sp e
  refine ⟨ok_of (by cases sp <;> decide), by cases sp <;> decide, by cases sp <;> decide, by cases sp <;> decide, by cases sp <;> decide,
    by cases sp <;> decide, fun m hm => mapsRead_tile _ (by cases sp <;> rfl) (by cases sp <;> rfl) _ ?_⟩
  have hk : (descOf e.opA).k = 32 := by cases sp <;> decide
  obtain rfl : m = 0 := by omega
  cases sp <;> decide +kernel

theorem test_meets_EntriesCompute_rows :
    (let e := eWork (.acld (.uni 8) (.uni 0) 0 0) 2
     entryReason e true false = none ∧ MapsRead (sComp e) 0 e 0 (v0 + ·) (operandRanges (descOf e.opA) (slotOf e.slotA) 0 0 32)) ∧
    (let e := eWork (.acst (.uni 8) (.uni 0) 0 0) 3
     entryReason e true false = none ∧ MapsRead (sComp e) 0 e 0 (v0 + ·) [] ∧
       MapsWrite (sComp e) 0 e 0 (v0 + ·) (operandRanges (descOf e.opA) (slotOf e.slotA) 0 0 32)) ∧
    (let e := eWork (.mquant (.uni 8) (.uni 0) (.uni 4)) 7
     entryReason e true false = none ∧ MapsRead (sComp e) 0 e 0 (v0 + ·) ((List.range 8).map fun l => (pair64 e.opB 0 + l * 0x80, 4 * 32)) ∧
       MapsWrite (sComp e) 0 e 0 (v0 + ·) (operandRanges (descOf e.opA) (slotOf e.slotA) 0 0 32)) ∧
    (let e := eWork (.mdeq (.uni 8) (.uni 0) (.uni 4)) 8
     entryReason e true false = none ∧ MapsRead (sComp e) 0 e 0 (v0 + ·) (operandRanges (descOf e.opA) (slotOf e.slotA) 0 0 32) ∧
       MapsWrite (sComp e) 0 e 0 (v0 + ·) ((List.range 8).map fun l => (pair64 e.opB 0 + l * 0x80, 4 * 32))) := by
  refine ⟨⟨by decide, mapsRead_tile _ rfl rfl _ (by decide +kernel)⟩,
    ⟨by decide, mapsRead_tile _ rfl rfl _ (fun _ h => nomatch h), mapped_tile _ rfl rfl .write (by decide) _ (by decide +kernel),
      by unfold Apart; decide +kernel⟩,
    ⟨by decide, mapsRead_tile _ rfl rfl _ (by decide +kernel), mapped_tile _ rfl rfl .write (by decide) _ (by decide +kernel),
      by unfold Apart; decide +kernel⟩,
    ⟨by decide, mapsRead_tile _ rfl rfl _ (by decide +kernel), mapped_tile _ rfl rfl .write (by decide) _ (by decide +kernel),
      by unfold Apart; decide +kernel⟩⟩

theorem test_meets_EntriesCompute_raw :
    (let e := eWork (.acstr (.uni 8) (.uni 0) 0) 4
     MapsWrite (sComp e) 0 e 0 (v0 + ·) [(pair64 e.opA 0, 524288)]) ∧
    (let e := eWork (.acldr (.uni 8) (.uni 0) 0) 5
     entryReason e true false = none ∧ MapsRead (sComp e) 0 e 0 (v0 + ·) [(pair64 e.opA 0, 524288)]) :=
  ⟨⟨mapped_tile _ rfl rfl .write (by decide) _ (by decide +kernel), by unfold Apart; decide +kernel⟩,
    ⟨by decide, mapsRead_tile _ rfl rfl _ (by decide +kernel)⟩⟩

/-- A started MMA that met a fault; that stalls under a cancel; that stalls under its braid's capture. -/
def eStop (k : Nat) : MEntry :=
  { eMma false with started := true, kdone := 64, err := if k = 0 then some 0x12 else none, stall := if k = 0 then none else some (0, 9),
                    cancel := k == 1 }
def sStop (k : Nat) : State := { sEnt (eStop k) with braids := [(0, { kernel := 1, ctx := 1, tiles := [1], capture := k == 2 })] }

theorem test_meets_EntriesStop : (∀ k ∈ [0, 1, 2], EntryHas (sStop k) (eStop k) 1 0 ∧ (eStop k).form = 0 ∧ (eStop k).started = true) ∧
    (lookD (sStop 2).braids (eStop 2).bid {}).capture = true ∧ waitingAt (sStop 0) 0 = [] := by
  simp only [EntryHas]
  decide +kernel

/-- A braid whose capture can end, with one entry that has done 64 columns. -/
def sCap : State :=
  { sMx with
    braids := [(0, { kernel := 1, ctx := 1, tiles := [1], capture := true })]
    eng := { mq := [(0, [{ eStop 2 with started := false, stall := none, epi := 5 }])] }, arg := .one 0 }

theorem test_meets_EntriesStop_capture : captureReady sCap 0 = true ∧ risingFrom 0 sCap.braids = true ∧
    (∀ x ∈ waitingAt sCap 0, x.bid = 0) := by decide

theorem test_capture_record : let b := lookD (after .captureEnd sCap).braids 0 {}
    (b.mcCount, (List.range 4).map fun w => lookD b.mcStore w 0) = (1, [(eMma false).insn, 64, 0x04000001, 5]) := by decide +kernel

/-! ### The calendar, the clocks and the timebase -/

/-- A machine with its command processor released, at a time in ns. -/
def sAt (ns : Nat) : State := { stateOf st0 with clk := { tb := ns * 2 ^ 16, retrains := [⟨750000, [9]⟩], droop := [(0, 1)] }, keep := { released := 5 } }

theorem test_meets_SlotsTold : uniQuadOk st0 (.uni 0) = true ∧ uniPairOk st0 (.uni 4) = true ∧ uniPairOk st0 .zr = true ∧
    (∀ r ∈ pairOf (.uni 4) ++ quadOf (.uni 0), (fillOf st0 255 r).isFull = true) := by decide

/-- R393: at 16,875 ns the refresh slot at 15,625 has just ended; the next is at 31,250, and LPDDR6 is next held there too. -/
theorem test_slotq_refresh : let t := after (.slotq (.uni 0) .zr .refresh) (sAt 16875)
    (List.range 4).map (fun k => readReg (lookD t.strands 0 {}) 0 (.uni ⟨k % 32, by omega⟩)) = [31250, 0, 1250, 15625] := by decide +kernel
/-- The slot at 250,000 ns is a calibration slot, which holds a refresh slot. -/
theorem test_slotq_lpddr : let t := after (.slotq (.uni 0) .zr .lpddr) (sAt 240000)
    (List.range 4).map (fun k => readReg (lookD t.strands 0 {}) 0 (.uni ⟨k % 32, by omega⟩)) = [250000, 0, 8000, 15625] := by decide +kernel

/-- Slots of that machine. -/
def sSlots (st : Option Nat) (arg : Arg) : State :=
  { sAt 1000000 with
    clk := { tb := 1000000 * 2 ^ 16, slots := [{ cls := .refresh, start := 995000, stop := 996250, stretched := st }] }
    arg := arg, cmd := { evr := { en := true, base := v0 } } }

theorem test_meets_SlotsPass : 2 ≤ (sAt 1000000).keep.released ∧ (sAt 1000000).clk.drain = false ∧
    15625 * (sAt 1000000).clk.refreshNext ≤ (sAt 1000000).clk.tb / 2 ^ 16 ∧ (sAt 1000000).clk.refreshNext % 64 ≠ 16 ∧
    250000 + 1000000 * (sAt 1000000).clk.calNext ≤ (sAt 1000000).clk.tb / 2 ^ 16 ∧
    62500 + 125000 * (sAt 1000000).clk.sweepNext ≤ (sAt 1000000).clk.tb / 2 ^ 16 ∧
    (sSlots none (.two 0 0)).clk.slots = [] ++ { cls := .refresh, start := 995000, stop := 996250 } :: [] ∧
    996250 ≤ (sSlots none (.two 0 0)).clk.tb / 2 ^ 16 ∧ 996250 + 2000 ≤ (sSlots (some 3) (.one 0)).clk.tb / 2 ^ 16 ∧
    RingTakes (sSlots (some 3) (.one 0)) ∧ NothingHeld (sSlots none (.two 0 0)) := by
  simp only [RingTakes, NothingHeld]
  decide

/-- A retrain slot whose link trains still, and refresh slots that were passed over. -/
theorem test_meets_SlotsPass_late :
    let r : Slot := { cls := .retrain, start := 750000, stop := 780000 }
    let s : State := { sAt 1000000 with fab := { ports := [(2, { st := .training })] }
                                        clk := { tb := 1000000 * 2 ^ 16, retrains := [⟨750000, [2]⟩], skipped := 1, slots := [r] } }
    Trains s r ∧ ¬ Trains { s with fab := {} } r ∧ 0 < s.clk.skipped ∧ r.stop + 2000 ≤ s.clk.tb / 2 ^ 16 := by
  simp only [Trains]
  decide

theorem test_slot_stretches : (after .slotEnd (sSlots none (.two 1 7))).clk.slots.map (fun x => x.stretched) = [some 7] ∧
    (after .slotStretchEnd (sSlots (some 3) (.one 1))).keep.counters = [(0x1850, 1)] := by decide +kernel

/-- That machine with an operand, a sag at quad 3 that began before it, and a supply that has recovered at quad 4. -/
def sSag (q : Nat) : State :=
  { sAt 1000 with clk := { tb := 1000 * 2 ^ 16, sagging := [(3, 100)], droop := [(3, 4), (4, 2)], recovering := [(4, 0)] }, arg := .one q }

theorem test_meets_ClocksSlow : 5 < 48 ∧ look (sSag 5).clk.sagging 5 = none ∧ look (sSag 3).clk.sagging 3 = some 100 ∧
    100 ≤ (sSag 3).clk.tb ∧ look (sSag 4).clk.sagging 4 = none ∧ look (sSag 4).clk.recovering 4 = some 0 ∧ 0 ≤ (sSag 4).clk.tb ∧
    120 * 16 ≤ 1920 := by decide
/-- Slows has both its cases: quad 5 has no step yet, quad 3 four. -/
theorem test_meets_ClocksSlow_cases : lookD (sSag 5).clk.droop 5 0 + (sSag 5).clk.thermal < 4 ∧
    4 ≤ lookD (sSag 3).clk.droop 3 0 + (sSag 3).clk.thermal := by decide
theorem test_droop_stops_at_four : (after .droopStep (sSag 3)).clk.droop = [(3, 4), (4, 2)] ∧
    (after .droopStepRemove (sSag 4)).clk.droop = [(3, 4), (4, 1)] := by decide +kernel

/-- A machine whose timebase is in a state, with an operand and 15 good messages. -/
def sTb (st : TbSt) (arg : Arg) : State :=
  { sAt 9000000000 with clk := { tb := 9000000000 * 2 ^ 16, st := st, en := true, stepOk := true, good := 15, port := 8 }, arg := arg }

theorem test_meets_TimebaseDisciplined :
    (0x80000000 : DWord).getLsbD 31 = true ∧ (0x80000000 : DWord).toNat / 2 ^ 8 % 16 ≤ 8 ∧ (0 : DWord).getLsbD 31 = false ∧
    (∀ st ∈ [TbSt.locking, .locked, .holdover], (sTb st (.int 5)).clk.st ≠ .free) ∧
    ((2000000 : Int).natAbs > 1000000 ∧ (sTb .locking (.int 2000000)).clk.stepOk = true ∧ (sTb .locking .none).strips.streams = []) ∧
    (sTb .locked .none).clk.lastSync + 3 * 2000000000 * 2 ^ 16 ≤ (sTb .locked .none).clk.tb ∧ (sTb .locked .none).clk.en = true ∧
    (sTb .free .none).clk.st = .free := by decide

/-- A master heard 1 s ago, whose announce interval is 2 s, and one that is worse; a third was heard too long ago. -/
def annOf (m p : Nat) : Announce := { master := m, priority := p, grandmaster := m, interval := 2000000000 }
def sMasters : State :=
  { sTb .locked (.announce (annOf 7 1)) with
    clk := { (sTb .locked .none).clk with masters := [(annOf 5 1, 8000000000 * 2 ^ 16), (annOf 6 2, 8000000000 * 2 ^ 16), (annOf 4 0, 0)] } }

theorem test_meets_TimebaseDisciplined_ptp : Hears (sTb .locked (.int 5)) ∧ ¬ Hears { sTb .locked (.int 5) with clk := { port := 2 } } ∧
    Interval (sTb .locked .none).clk 2000000000 ∧ Interval sMasters.clk 2000000000 ∧ 0 < (annOf 7 1).interval ∧ sMasters.clk.en = true := by
  have h1 : mastersHeard (sTb .locked .none).clk = [] := by unfold mastersHeard; decide
  have h2 : mastersHeard sMasters.clk = [(annOf 5 1, 8000000000 * 2 ^ 16), (annOf 6 2, 8000000000 * 2 ^ 16)] := by
    unfold mastersHeard; decide
  refine ⟨.inl rfl, by simp only [Hears]; decide, .inr ⟨h1, rfl⟩, .inl ⟨(annOf 5 1, 8000000000 * 2 ^ 16), ?_⟩, by decide, rfl⟩
  rw [h2]
  refine ⟨List.mem_cons_self, fun x hx hne => ?_, rfl⟩
  simp only [List.mem_cons, List.not_mem_nil, or_false] at hx
  rcases hx with rfl | rfl
  · exact absurd rfl hne
  · simp only [Better]
    decide

/-- R327: the better of the masters is kept, the one heard too long ago is not. -/
theorem test_best_master : (after .ptpAnnounce sMasters).clk.master.map (·.master) = some 5 ∧
    (after .ptpAnnounce sMasters).clk.masters.map (fun e => e.1.master) = [7, 5, 6] := by decide +kernel

/-- A step of the timebase over a stretched slot, and over refresh slots. -/
def sStep : State := { sTb .free (.val 0 1000) with clk := { (sTb .free .none).clk with slots := [slotAt .sweep 62500 0].map fun x => { x with stretched := some 7 } } }
theorem test_meets_TimebaseDisciplined_slots : (sStep.clk.slots.map (·.cls)).Nodup ∧ (∃ x ∈ sStep.clk.slots, x.stretched.isSome) ∧
    (∀ x ∈ sStep.clk.slots, x.cls = .refresh → x.stretched = none) ∧ NothingHeld sStep := by
  simp only [NothingHeld]
  decide
theorem test_step_ends_slots : (after .tbSet sStep).keep.counters = [(0x1853, 1)] ∧ (after .tbSet sStep).clk.slots = [] := by decide +kernel

theorem test_ptp_locks : (after .ptpSync (sTb .locking (.int (-100)))).clk.st = .locked ∧
    (after .ptpSync (sTb .locked (.int 1001))).clk.st = .locking ∧
    (after .ptpSync (sTb .locking (.int 2000000))).clk.tb = (9000000000 - 2000000) * 2 ^ 16 ∧
    (after .ptpSyncTimeout (sTb .locked .none)).clk.st = .holdover := by decide +kernel
theorem test_tb_set : (after .tbSet (sTb .free (.val 0 1000))).clk.tb = 1000 * 2 ^ 16 ∧
    (after .tbSet (sTb .free (.val 0 1000))).clk.refreshNext = 0 := by decide +kernel

/-! ### Saving, kernels -/

/-- The first 8 MiB of context 1, in vault 0. -/
def mappedBig (s : State) : State :=
  { s with trans := { s.trans with
      tlb := [{ cache := .bead 0, ctx := 1, va := 0, level := 2, pte := leafOf 6 }, { cache := .second 0, ctx := 1, va := 0, level := 2, pte := leafOf 6 }] } }

theorem hits_big (s : State) (hl : leafReason (mappedBig s) 1 2 (leafOf 6) = none) (st : Strand) (hc : st.ctx = 1) (hk : st.core = 0)
    (hf : st.accFault = none) (hg : st.given = none) (need : Need) (hn : need ≠ .fetch) (va n : Nat) (hva : va < 0x800000) :
    Hits (mappedBig s) st .b need va n (v0 + va) 0 := by
  refine ⟨hf, false, ?_⟩
  have ha : strandAccess st .b need = { ctx := 1, core := some 0, quad := 0, bid := some st.braid, path := some .b, need := need, who := strandWho st } := by
    simp [strandAccess, hc, hk, hg, quadOfCore]
  have h1 : ¬ va ≥ 2 ^ 53 := by omega
  have h2 : ¬ va ≥ apertureBase := by unfold apertureBase; omega
  have h3 : tlbFind (mappedBig s) (.bead 0) 1 va = some { cache := .bead 0, ctx := 1, va := 0, level := 2, pte := leafOf 6 } := by
    simp [tlbFind, mappedBig, TlbEntry.maps, pageBytes, hva]
  have h4 : cacheOf (strandAccess st .b need) = some (.bead 0) := by rw [ha]; cases need <;> first | rfl | exact absurd rfl hn
  have hx : (strandAccess st .b need).ctx = 1 := by rw [ha]
  have e := translate_first (mappedBig s) (strandAccess st .b need) va n _ _ h1 h2 h4 (hx ▸ h3)
  have h6 : pteGrants (leafOf 6) need = true := by cases need <;> first | decide | exact absurd rfl hn
  have h7 : pteFrame (leafOf 6) = v0 := by decide
  have h8 : pageBytes 2 = 0x800000 := by decide
  have h9 : bits (leafOf 6) 58 50 = 0 := by decide
  have h10 : (bit (leafOf 6) 60 && !bit (leafOf 6) 61) = false := by decide
  rw [e, useLeaf_ok (mappedBig s) _ va 2 (leafOf 6) (by rw [ha]; exact hl) (by rw [ha]; exact h6), h7, h8, h9, h10,
    Nat.mod_eq_of_lt hva]

theorem leaf_big (s : State) (h1 : s.ctxs = (stateOf {}).ctxs) (h2 : s.vaults = {}) : leafReason (mappedBig s) 1 2 (leafOf 6) = none := by
  have h : leafReason (mappedBig s) 1 2 (leafOf 6) = leafReason (mappedBig (stateOf {})) 1 2 (leafOf 6) := by
    unfold leafReason vaultMap mappedBig
    simp only [h1, h2]
    rfl
  rw [h]
  decide

/-- A strand in trap mode whose control flow was set aside, waiting for a command of sh_ctl; its save area is at 0. -/
def flowSaved : Flow :=
  { mask := 3, winBase := 0x40, divDepth := 1, divTop := [{ kind := .path, mask := 5, pc := 0x80, loop := 1 }]
    loops := [{ start := 0x20, stop := 0x30, lc := 7, d := 1, frame := 0 }]
    calls := [(1, { depth := 1, top := [{ ret := 0x44, d0 := 1, l0 := 1 }] })] }
def stShadow (cmd : Nat) : Strand :=
  { st0 with inTrap := true, run := .blocked .shadow, shCmd := cmd, savedFlow := flowSaved, bary := [(4, 0x3F000000)] }
def sShadow (cmd : Nat) : State := mappedBig { stateOf (stShadow cmd) with arg := .one 0 }

theorem piece_low (cmd o : Nat) (h : Piece (stShadow cmd) o) : o ≤ 0x18000 := by
  rcases h with ⟨k, hk, rfl⟩ | ⟨j, hj, -, rfl⟩
  · have : recordAt (stShadow cmd) = 0x1000 := rfl
    omega
  · have h1 : (stShadow cmd).sx = 0 := rfl
    have h2 : (stShadow cmd).width = 16 := rfl
    unfold shadowAt
    rw [h1, h2]
    rw [h2] at hj
    omega

theorem shadowing (cmd : Nat) (need : Need) (hn : need ≠ .fetch) : Shadowing (sShadow cmd) 0 (stShadow cmd) need cmd v0 := by
  refine ⟨rfl, rfl, rfl, rfl, (show 0 < 16 by decide), (show 16 ≤ 64 by decide), (show (0 : DWord).toNat + 2 ^ 20 ≤ 2 ^ 64 by decide),
    rfl, rfl, rfl, rfl, fun o h => ?_⟩
  have ho := piece_low cmd o h
  have hz : (stShadow cmd).save.toNat = 0 := rfl
  refine ⟨?_, atRest_vault _ _ _ _ (v0_not_lpddr o) rfl rfl rfl, notHeld_vault _ _ _ (v0_not_lpddr o)⟩
  rw [hz, Nat.zero_add]
  exact hits_big { stateOf (stShadow cmd) with arg := .one 0 } (leaf_big _ rfl rfl) (stShadow cmd) rfl rfl rfl rfl need hn o 64 (by omega)

theorem fits_saved (cmd : Nat) : Fits (stShadow cmd) flowSaved := by
  refine ⟨by decide, by decide, by decide, by decide, by decide, by decide, fun j hj => ?_⟩
  have hj' : j < 16 := hj
  clear hj
  revert hj'
  revert j
  decide

theorem test_meets_StrandsSaved : Shadowing (sShadow 1) 0 (stShadow 1) .write 1 v0 ∧ Fits (stShadow 1) (stShadow 1).savedFlow ∧
    Shadowing (sShadow 2) 0 (stShadow 2) .read 2 v0 ∧ Fits (stShadow 2) {} ∧ Records (sShadow 2) v0 (stShadow 2) {} [] ∧
    (sShadow 2).mem.log = [] ∧ (kernelOf (sShadow 1) (stShadow 1)).lrec.det = false ∧ (kernelOf (sShadow 2) (stShadow 2)).lrec.det = false ∧
    (∀ o, Piece (stShadow 2) o → ∀ kn, awaitsWrite (sShadow 2) (some 0) kn .b (v0 + o) 64 = false) ∧ (stShadow 3).run = .blocked .shadow ∧ ownOps (sShadow 3) 0 = [] ∧ (sShadow 3).flight.spawns = [] ∧ (sShadow 3).eng.mq = [] := by
  refine ⟨shadowing 1 .write (by decide), fits_saved 1, shadowing 2 .read (by decide), ?_, ?_, rfl, rfl, rfl, (fun _ _ _ => rfl), rfl, by decide, rfl, rfl⟩
  · exact ⟨by decide, by decide, by decide, by decide, (fun _ h => nomatch h), (fun _ h => nomatch h), fun j _ =>
      ⟨show 0 < 2 ^ 32 by decide, rfl, (fun _ h => nomatch h)⟩⟩
  · refine ⟨by unfold Bytes; decide, by unfold Bytes; decide, by unfold Bytes; decide, fun k e h => by simp at h,
      fun k e h => by simp at h, fun j hj hm => ?_⟩
    have hj : j < 16 := hj
    have h01 : j = 0 ∨ j = 1 ∨ j = 2 ∨ j = 3 ∨ j = 4 ∨ j = 5 ∨ j = 6 ∨ j = 7 ∨ j = 8 ∨ j = 9 ∨ j = 10 ∨ j = 11 ∨ j = 12 ∨ j = 13 ∨
      j = 14 ∨ j = 15 := by omega
    refine ⟨fun k r h => by simp [lookD, look] at h, ?_⟩
    clear hm hj
    unfold Bytes
    rcases h01 with rfl | rfl | rfl | rfl | rfl | rfl | rfl | rfl | rfl | rfl | rfl | rfl | rfl | rfl | rfl | rfl <;> decide +kernel

theorem test_meets_StrandsSaved_staged :
    let s : State := { sShadow 1 with cmd := sDet.cmd }
    (∀ k < 8, isStaged s (stShadow 1) ((stShadow 1).save.toNat + (recordAt (stShadow 1) + 64 * k)) 64 = true) ∧
    (∀ j < 16, isStaged s (stShadow 1) ((stShadow 1).save.toNat + shadowAt (stShadow 1) j) 64 = true) ∧
    isHead s (braidOf s (stShadow 1)) = true ∧ (braidOf s (stShadow 1)).staged.length + 8 + 16 < 16384 := by
  decide +kernel

/-- R407: winBase at the record's start, its depth at 4, and the entry's mask and kind at 16. -/
theorem test_save_layout : let t := after .shSave (sShadow 1)
    (t.mem.read (v0 + 0x1000) 8, t.mem.read (v0 + 0x1010) 16, t.mem.read (v0 + 0x10000 + 0x4000 - 64 * 15) 8) =
      ([0x40, 0, 0, 0, 1, 0, 1, 0], [5, 0, 0, 0, 0, 0, 0, 0, 0x80, 0, 0, 0, 1, 1, 0, 0], [0x44, 0, 0, 0, 1, 1, 0, 0]) := by
  decide +kernel

/-- A braid whose only strand has parked. -/
def sParked : State :=
  { stateOf { st0 with run := .parked } with
    braids := [(0, { kernel := 1, ctx := 1, tiles := [2], swapRec := some (0, 5) })]
    arg := .one 0, nextBid := 1 }

theorem test_meets_StrandsSaved_braid : (∃ b, look sParked.braids 0 = some b ∧ b.st = .placed ∧ b.capture = false) ∧
    (∃ e ∈ sParked.strands, e.2.braid = 0) ∧
    (∀ e ∈ sParked.strands, e.2.braid = 0 → e.2.run = .parked ∧ performedAll sParked e.1 = true) := by
  exact ⟨⟨_, rfl, rfl, rfl⟩, ⟨_, List.mem_cons_self, rfl⟩, by decide⟩

/-- A strand with the address of a record in u0:u1. -/
def stLaunch : Strand := withUni st0 [(0, 0x400)]

theorem test_meets_LaunchesAccepted : uniDstOk stLaunch (.uni 2) = true ∧ uniPairOk stLaunch (.uni 0) = true ∧
    (∀ x ∈ pairOf (.uni 0) ++ [.uni 2], (fillOf stLaunch 255 x).isFull = true) ∧ (readPair stLaunch 255 (.uni 0)).toNat = 0x400 ∧
    (kernelOf (mappedBig (stateOf stLaunch)) stLaunch).lrec.det = false ∧
    (mappedBig (stateOf stLaunch)).flight.launches.length < 256 ∧
    ∀ k < 3, Hits (mappedBig (stateOf stLaunch)) stLaunch .b .read (0x400 + 64 * k) 64 (v0 + (0x400 + 64 * k)) 0 ∧
      AtRest (mappedBig (stateOf stLaunch)) (v0 + (0x400 + 64 * k)) 64 0 ∧
      heldBySlot (mappedBig (stateOf stLaunch)) (v0 + (0x400 + 64 * k)) 64 = false ∧
      Fresh (mappedBig (stateOf stLaunch)) stLaunch.know (v0 + (0x400 + 64 * k)) 64 ∧
      ∀ kn, awaitsWrite (mappedBig (stateOf stLaunch)) (some 0) kn .b (v0 + (0x400 + 64 * k)) 64 = false :=
  ⟨by decide, by decide, by decide, by decide, by decide, by decide, fun k _ =>
    ⟨hits_big (stateOf stLaunch) (leaf_big _ rfl rfl) stLaunch rfl rfl rfl rfl .read (by decide) (0x400 + 64 * k) 64 (by omega),
      atRest_vault _ _ _ _ (v0_not_lpddr _) rfl rfl rfl, notHeld_vault _ _ _ (v0_not_lpddr _), (fun _ _ _ _ h => nomatch h), fun _ => rfl⟩⟩

/-- A record handed over: one braid, with the entry given. -/
def launchOf (entry : Word) : LaunchOp :=
  { id := 4, sid := 0, ctx := 1, dst := [.u 2], lrec := { entry := entry, save := 2 }, know := [] }
def sLaunch (entry : Word) : State :=
  { stateOf st0 with
    arg := .one 4, flight := { nextId := 5, launches := [launchOf entry] }
    ctxs := [(1, { st := .active, seeds := [9], saveQuota := 4 })] }

theorem test_meets_LaunchesAccepted_op (e : Word) : cmdUp (sLaunch e) = true ∧
    (sLaunch e).flight.launches.find? (fun x => x.id == 4) = some (launchOf e) ∧ (launchOf e).id = 4 ∧
    (∀ x ∈ (sLaunch e).flight.launches, x.sid = 0 → 4 ≤ x.id) ∧ look (sLaunch e).strands 0 = some st0 := by
  refine ⟨rfl, rfl, rfl, fun x hx _ => ?_, rfl⟩
  obtain rfl : x = launchOf e := by simpa [sLaunch] using hx
  exact Nat.le_refl 4

/-- R315, R325: an entry that is no multiple of 4 is code 6. -/
theorem test_launch_answers : readReg (lookD (after .launchAcceptance (sLaunch 0x10)).strands 0 {}) 0 (.uni 2) = 2 ∧
    readReg (lookD (after .launchAcceptance (sLaunch 0x11)).strands 0 {}) 0 (.uni 2) = 0x80000106 := by decide +kernel

/-- Bytes from an address on. -/
def bytesFrom (pa : Nat) (bs : List Byte) : SMap Byte :=
  ((List.range bs.length).zip bs).filterMap fun e => if e.2 = 0 then none else some (pa + e.1, e.2)
/-- Command queue 3 of context 1, of the supervisor, with a packet at its head in vault 0. -/
def sPkt (type len body : Nat) (held : HeldPacket) (s : State) : State :=
  { s with
    arg := .one 3
    mem := { bytes := bytesFrom (v0 + 0x2000) (toLE 16 (type + len * 2 ^ 16) ++ toLE len body) }
    cmd := { s.cmd with cqs := [(3, { en := true, sup := true, ctx := 1, lsize := 12, base := v0 + 0x2000, tail := 16 + len, held := held })] } }

/-- A well-formed packet of a type and a length stands at its head. -/
def headIs (s : State) (type len : Nat) : Bool :=
  match packetAt s 3 with | some p => p.type == type && p.len == len && p.clean | none => false

theorem test_meets_LaunchesAccepted_packet : headIs (sPkt 1 192 (2 ^ 200) .none (sLaunch 0)) 1 192 = true ∧
    cqTakes (sPkt 1 192 (2 ^ 200) .none (sLaunch 0)) 3 = true := by decide +kernel

/-- An accepted kernel of one braid with a tile and one more strand, in an empty machine; vault 0 has a window and a save area. -/
def recPlace : LaunchRec := { args := 0x500000007, stk := 1, save := 12, vault := 1, tiles := 1, nstr := 1, entry := 0x40, trap := 0x80, resume := 0x90 }
def sPlace (k : Kernel) (arg : Arg) : State :=
  { State.reset with
    ctxs := [(1, { st := .active, seeds := [9], saveQuota := 40 })], cmd := { kernels := [(5, k)], nextKernel := 6 }
    vaults := { maps := [(0, { direct := 4, window := 1, save := 1 })] }, keep := { released := 5 }, arg := arg }
def kPlace : Kernel := { ctx := 1, lrec := recPlace, total := 1 }

theorem test_meets_BraidsPlaced : Offer.fresh 5 0 ∈ openOffers (sPlace kPlace (.three 5 0 0)) ∧
    (placeOn (sPlace kPlace (.three 5 0 0)) 5 0 0).isSome ∧ look (sPlace kPlace (.three 5 0 0)).cmd.kernels 5 = some kPlace ∧
    kPlace.kind = 0 ∧ kPlace.formed = [] ∧ kPlace.lrec.lk = false ∧ kPlace.origin = .packet 0 :=
  ⟨by decide +kernel, by decide +kernel, rfl, rfl, rfl, rfl, rfl⟩

/-- R320: u0:u1 hold args, u2:u3 the window base, u4 and u5 the braid index and the strand number; the entry is the record's. -/
theorem test_place_preloads : let st := newStrand (sPlace kPlace .none) 5 kPlace 0 9 1 ⟨2, [0, 1], 3, 0, 0, 0, []⟩ none
    (st.pc, st.stkLimit, (List.range 6).map fun n => readReg st 0 (.uni ⟨n % 32, by omega⟩)) =
      (0x40, 16, [7, 5, 0x3000000, 0x1FFE04, 9, 1]) := by decide +kernel

/-- Its braid saved. -/
def sSaved (arg : Arg) : State :=
  { sPlace { kPlace with placed := [0] } arg with
    strands := [(0, { st0 with kernel := 5, run := .parked, retired := 2 })], nextSid := 1
    braids := [(0, { kernel := 5, ctx := 1, st := .saved, lanes := [0], saveOff := 0x2000000, mcCount := 3 })], nextBid := 1 }

theorem test_meets_BraidsPlaced_saved : Offer.saved 0 ∈ openOffers (sSaved (.two 0 1)) ∧ (restoreOn (sSaved (.two 0 1)) 0 1).isSome ∧
    (lookD (sSaved (.two 0 1)).braids 0 {}).mate = none := by decide +kernel

/-- R409: the resume entry in trap mode, with the beads that have not retired. -/
theorem test_restore_resumes : (fun (st : Strand) => (st.pc, st.inTrap, st.flow.mask, st.core))
    (restoredStrand (sSaved .none) kPlace (lookD (sSaved .none).braids 0 {}) ⟨1, [0], 0, 0, 0, 0, []⟩
      { st0 with kernel := 5, run := .parked, retired := 2 }) = (0x90, true, 0xFFFD, 1) := by decide +kernel

/-- A strand that waits on a pending record for longer than the threshold allows. -/
def stWaits : Strand := { st0 with run := .blocked (.miss 0 5 .read 0x100) }
def sSwap : State :=
  { stateOf stWaits with
    arg := .one 0, clk := { tb := 10 ^ 9 * 2 ^ 16 }, trans := { miss := [(5, { ctx := 1, vpn := 0, pending := true })] }
    cmd := { kernels := [(1, { ctx := 1, lrec := { trap := 0x80, resume := 0x90 }, total := 1, placed := [0] })], nextKernel := 2 } }

theorem test_meets_KernelsEnd_swap : SwapsOut sSwap stWaits ∧ (∃ b, look sSwap.braids 0 = some b ∧ b.st = .placed ∧ b.swapRec = none ∧
      b.saving = false) ∧ savable (kernelOf sSwap stWaits) = true ∧ (∃ m, look sSwap.trans.miss 5 = some m ∧ m.pending = true) ∧
    stWaits.held = [] ∧ stWaits.inTrap = false :=
  ⟨.inl (by decide), ⟨_, rfl, rfl, rfl, rfl⟩, by decide, ⟨_, rfl, rfl⟩, rfl, rfl⟩

/-- The other reason: a hinge at which another strand waits for it. -/
def hgWaits : Hinge := { members := 3, arrived := 2, st := [(1, .pending false)] }
theorem test_meets_KernelsEnd_swap_hinge :
    SwapsOut { stateOf stWaits with
      strands := [(0, stWaits), (1, { st0 with sx := 1, run := .blocked (.hinge 0) })]
      braids := [(0, { kernel := 1, ctx := 1, hinges := [(0, hgWaits)] })] } stWaits :=
  .inr ⟨0, 0, 0, hgWaits, by simp only [Member]; decide, by decide, (1, _), List.mem_cons_of_mem _ List.mem_cons_self, by decide, by decide⟩

/-- R322: the strand is asked to save itself, with the miss as the reason. -/
theorem test_swap_asks : (after .swapOut sSwap).strands.map (fun e => e.2.held) = [[{ cause := 0x11, info := 1 }]] := by decide +kernel

/-- A retired braid of a deterministic kernel with one staged store, or none. -/
def bDet (l : List Staged) : Braid := { kernel := 1, ctx := 1, st := .retired, staged := l }
def stg : Staged := { va := 0x40, pa := v0 + 0x40, key := 0, form := 0, bytes := [7, 8], writeId := 0, pubs := [] }
def sRel (l : List Staged) : State :=
  { stateOf st0 with
    arg := .one 0, braids := [(0, bDet l)]
    cmd := { kernels := [(1, { ctx := 1, lrec := { trap := 0x80, det := true }, total := 1, placed := [0] })], nextKernel := 2 } }

/-- A later store over the first, and an ATADD to both. -/
def stgs : List Staged :=
  [stg, { stg with pa := v0 + 0x41, bytes := [9], writeId := 1 }, { stg with form := 0x56, bytes := [1, 0, 0, 0], writeId := 2 }]

theorem test_meets_KernelsEnd_release : (bDet stgs).st = .retired ∧ (look (sRel stgs).cmd.kernels 1).isSome ∧ (bDet stgs).index = 0 ∧
    lpddrHeld (sRel stgs) = false ∧ NoSaves (sRel stgs) ∧
    ∀ x ∈ stgs, Entry x ∧ x.key = 0 ∧ entryHolds (sRel stgs) 1 x = true ∧ AtRest (sRel stgs) x.pa x.bytes.length 0 := by
  refine ⟨rfl, rfl, rfl, by decide, (fun _ h => nomatch h), fun x hx => ?_⟩
  simp only [stgs, List.mem_cons, List.not_mem_nil, or_false] at hx
  rcases hx with rfl | rfl | rfl <;>
    exact ⟨by unfold Entry; decide, rfl, by decide, atRest_vault _ _ _ _ (by decide) rfl rfl rfl⟩

/-- R218: 7, 8; then 9 over the 8; then one more. -/
theorem test_release_writes : (after .deterministicRelease (sRel stgs)).mem.bytes = [(v0 + 0x40, 8), (v0 + 0x41, 9)] := by decide +kernel

/-- A kernel that is over, with its completion signal at an address. -/
def kOver (signal : Nat) : Kernel :=
  { ctx := 1, lrec := { signal := signal }, total := 1, placed := [0], released := [0], t0 := some 3, err := 0x112 }
def sOver (signal : Nat) : State :=
  mapped { State.reset with
    ctxs := [(1, { st := .active })], cmd := { kernels := [(5, kOver signal)], nextKernel := 6, evr := { en := true } }
    keep := { released := 5 }, arg := .one 5, clk := { tb := 9 * 2 ^ 16 } }

theorem test_meets_KernelsEnd : (∀ v ∈ [0, 0x101, 0x100], cmdUp (sOver v) = true ∧ look (sOver v).cmd.kernels 5 = some (kOver v) ∧
      EndsNow (sOver v) 5 (kOver v) ∧ (∀ x ∈ (sOver v).keep.due, x ≠ 5 → ∀ y, look (sOver v).cmd.kernels x = some y → y.stall.isSome)) ∧
    (kOver 0x100).stall = none ∧ (∃ q, (kOver 0).origin = .packet q) ∧ NoSaves (sOver 0x100) ∧ (kOver 0x100).lost = false ∧
    (∃ pin, translation (sOver 0x100) { ctx := 1, quad := 0, need := .both, given := (kOver 0x100).given.toList } 0x100 32 = (.ok (v0 + 0x100) 0 pin, sOver 0x100)) ∧
    AtRest (sOver 0x100) (v0 + 0x100) 32 0 ∧ heldBySlot (sOver 0x100) (v0 + 0x100) 32 = false := by
  refine ⟨fun v hv => ?_, rfl, ⟨_, rfl⟩, (fun _ h => nomatch h), rfl, ⟨false, reach_mapped _ (by decide) _ rfl rfl rfl rfl (by decide) _ 32 (by decide)⟩,
    atRest_vault _ _ _ _ (by decide) rfl rfl (by decide), by decide⟩
  refine ⟨rfl, rfl, ⟨rfl, rfl, rfl, fun c hc f hf => ?_, (fun _ h => nomatch h), (fun _ h => nomatch h)⟩, (fun _ h => nomatch h)⟩
  obtain rfl : c = (1, ({ st := .active } : Context)) := List.mem_singleton.mp hc
  exact nomatch hf

/-- R282, R283: value 1, start 3, end 9, the error, and status 3: written, with an error. -/
theorem test_end_signal : (after .kernelEnd (sOver 0x100)).mem.read (v0 + 0x100) 32 =
    toLE 8 1 ++ toLE 8 3 ++ toLE 8 9 ++ toLE 4 0x112 ++ toLE 4 3 := by decide +kernel

/-! ### Command queues, packets and contexts -/

/-- The packet of sPkt. -/
def pkt (type len body : Nat) : Packet := { type := type, len := len, user := 0, clean := true, body := body, ctx := 1, sup := true }

/-- A read of a vault's bytes without errors changes nothing. -/
theorem readNow_vault (s : State) (pa key n : Nat) (hf : s.mem.flips = []) (h : isLpddr pa = false) :
    readNow s pa key n = (s.mem.read pa n, s) := by
  have h1 : s.mem.correct pa n = s.mem := by simp [Memory.correct, hf]
  simp [readNow, openRead, openRange, h, h1]

theorem ringRead_vault (s : State) (q : CmdQueue) (o n : Nat) (hf : s.mem.flips = [])
    (h1 : isLpddr (q.base + (q.head + o) % 2 ^ q.lsize) = false) (h2 : isLpddr q.base = false) : (ringRead s q o n).2 = s := by
  unfold ringRead
  by_cases ha : min n (2 ^ q.lsize - (q.head + o) % 2 ^ q.lsize) = 0 <;>
    by_cases hb : n - min n (2 ^ q.lsize - (q.head + o) % 2 ^ q.lsize) = 0 <;>
    simp [ha, hb, readNow_vault s _ _ _ hf h1, readNow_vault s _ _ _ hf h2] <;> split <;> rfl

theorem seen_pkt (s : State) (type len body : Nat) (held : HeldPacket) (p : Packet) :
    packetSeen (sPkt type len body held s) 3 p = sPkt type len body held s :=
  ringRead_vault _ { en := true, sup := true, ctx := 1, lsize := 12, base := v0 + 0x2000, tail := 16 + len, held := held } 0 (16 + p.len)
    rfl (v0_not_lpddr 0x2000) (v0_not_lpddr 0x2000)

theorem heads_pkt (s : State) (type len body : Nat) (held : HeldPacket) (h : packetAt (sPkt type len body held s) 3 = some (pkt type len body))
    (hu : cmdUp s = true) : Heads (sPkt type len body held s) 3 (pkt type len body) type len held := by
  have hc : cmdUp (sPkt type len body held s) = true := hu
  refine ⟨rfl, h, rfl, rfl, rfl, rfl, fun e => ?_, hc, by rw [seen_pkt]; exact fun _ => rfl⟩
  subst e
  unfold cqTakes
  rw [hc]
  rfl

theorem test_meets_LaunchesAccepted_seen (p : Packet) : SameBytes (sPkt 1 192 (2 ^ 200) .none (sLaunch 0)) (packetSeen (sPkt 1 192 (2 ^ 200) .none (sLaunch 0)) 3 p) := by
  rw [seen_pkt]
  exact fun _ => rfl

theorem test_meets_QueuesRung : (0x8001000D : DWord).getLsbD 31 = true ∧ 12 ≤ (0x8001000D : DWord).toNat % 32 ∧ (0x8001000D : DWord).toNat % 32 ≤ 24 ∧
    (0x80000000 : DWord).toNat % 32 < 12 ∧ (0 : DWord).getLsbD 31 = false ∧ cqTakes s0 3 = false ∧ s0.cmd.evr.lost = 0 := by decide

/-- Queue 3 before the doorbell that completes a packet of a type. -/
def sBell (type : Nat) : State :=
  let s := sPkt type 8 0 .none s0
  { s with arg := .two 3 24, cmd := { s.cmd with cqs := s.cmd.cqs.map fun e => (e.1, { e.2 with tail := 0 }) } }

theorem test_meets_QueuesRung_bell : ∀ type ∈ [0, 5, 13], cqTakes (sBell type) 3 = true ∧ packetAt (sBell type) 3 = none ∧
    packetAt (sPkt type 8 0 .none s0) 3 = some (pkt type 8 0) ∧ (cqOf (sBell type) 3).packet = none ∧
    (24 + 2 ^ 64 - (cqOf (sBell type) 3).head) % 2 ^ 64 = 16 + (pkt type 8 0).len := by decide +kernel

theorem test_meets_QueuesRung_same (type : Nat) :
    let s := sBell type
    let s1 := { s with cmd := { s.cmd with cqs := put s.cmd.cqs 3 { cqOf s 3 with tail := 24 } } }
    SameBytes s (packetSeen s1 3 (pkt type 8 0)) := by
  intro s s1
  have h : packetSeen s1 3 (pkt type 8 0) = s1 :=
    ringRead_vault s1 { en := true, sup := true, ctx := 1, lsize := 12, base := v0 + 0x2000, tail := 24 } 0 24 rfl (v0_not_lpddr 0x2000) (v0_not_lpddr 0x2000)
  rw [h]
  exact fun _ => rfl

theorem test_bell_rejects : (cqOf (after .doorbell (sBell 13)) 3).head = 24 ∧ (cqOf (after .doorbell (sBell 5)) 3).head = 0 := by decide +kernel

theorem test_cq_enables : (cqOf (after .cqEnSet { s0 with arg := .val 3 0x8001000D }) 3).en = true ∧
    (cqOf (after .cqEnSet { s0 with arg := .val 3 0x8001000D }) 3).ctx = 1 := by decide +kernel

/-- A work queue with n elements. -/
def qWork (n : Nat) : HwQueue := { q3 .open_ n with work := true }
def sFeed (n : Nat) (held : HeldPacket) : State := sPkt 2 16 (3 + 5 * 2 ^ 64) held (sQ st0 (qWork n))

theorem test_meets_PacketsSignal : Heads (sFeed 0 .none) 3 (pkt 2 16 (3 + 5 * 2 ^ 64)) 2 16 .none ∧
    Heads (sFeed 0 .feed) 3 (pkt 2 16 (3 + 5 * 2 ^ 64)) 2 16 .feed ∧ Heads (sFeed 2 .none) 3 (pkt 2 16 (3 + 5 * 2 ^ 64)) 2 16 .none ∧
    fieldOf (3 + 5 * 2 ^ 64) 63 12 = 0 ∧ fieldOf (3 + 5 * 2 ^ 64) 11 0 = 3 ∧
    (∀ p, packetSeen (sFeed 0 .none) 3 p = sFeed 0 .none) ∧ RingRoom (sFeed 0 .none) (qWork 0) 1 ∧
    (qWork 2).count = 2 ^ (qWork 2).lslots ∧ AtRest (sFeed 2 .none) (qWork 2).ringPa 8 0 :=
  ⟨heads_pkt _ _ _ _ _ (by decide +kernel) rfl, heads_pkt _ _ _ _ _ (by decide +kernel) rfl, heads_pkt _ _ _ _ _ (by decide +kernel) rfl,
    by decide, by decide, seen_pkt _ _ _ _ _, ⟨rfl, rfl, rfl, by decide, by decide, by decide, by decide, by decide, by decide,
      atRest_vault _ _ _ _ (by decide) rfl rfl rfl, (fun _ h => nomatch h), by decide⟩, by decide, atRest_vault _ _ _ _ (by decide) rfl rfl rfl⟩

theorem test_feed_appends : ((look (after .feed (sFeed 0 .none)).queues 3).map (·.tail), (after .feed (sFeed 0 .none)).mem.read (v0 + 0x1000) 4) =
    (some 1, [5, 0, 0, 0]) ∧ (cqOf (after .feed (sFeed 2 .none)) 3).held = .feed := by decide +kernel

/-- A signal packet of device scope with a code, the operand b, and the signal at 0x100. -/
def sSigPkt (type code b : Nat) (held : HeldPacket) : State := sPkt type 24 (3 + code * 8 + b * 2 ^ 64 + 0x100 * 2 ^ 128) held (mapped s0)

theorem leaf_small (s : State) (h1 : s.ctxs = (stateOf {}).ctxs) (h2 : s.vaults = {}) : leafReason (mapped s) 1 3 (leafOf 6) = none := by
  have h : leafReason (mapped s) 1 3 (leafOf 6) = leafReason (mapped (stateOf {})) 1 3 (leafOf 6) := by
    unfold leafReason vaultMap mapped
    simp only [h1, h2]
    rfl
  rw [h]
  decide

theorem reaches_pkt (type code b : Nat) (held : HeldPacket) (need : Need) (hn : need ≠ .fetch) :
    CpReachesAt (sSigPkt type code b held) 3 (pkt type 24 (3 + code * 8 + b * 2 ^ 64 + 0x100 * 2 ^ 128)) 1 need 0x100 32 (v0 + 0x100) 0 := by
  show CpReaches (packetSeen (sPkt type 24 (3 + code * 8 + b * 2 ^ 64 + 0x100 * 2 ^ 128) held (mapped s0)) 3 _) 3 1 need 0x100 32 (v0 + 0x100) 0
  rw [seen_pkt]
  show CpReaches (sSigPkt type code b held) 3 1 need 0x100 32 (v0 + 0x100) 0
  have hs : sSigPkt type code b held = mapped (sPkt type 24 (3 + code * 8 + b * 2 ^ 64 + 0x100 * 2 ^ 128) held s0) := rfl
  generalize h : sPkt type 24 (3 + code * 8 + b * 2 ^ 64 + 0x100 * 2 ^ 128) held s0 = s at hs
  have h1 : s.ctxs = (stateOf {}).ctxs := by rw [← h]; rfl
  have h2 : s.vaults = {} := by rw [← h]; rfl
  have h3 : s.trans.zeroing = [] := by rw [← h]; rfl
  have h4 : (s.mem.ecc, s.strands, s.cmd.kernels, (cqOf s 3).faulted) = ([], s0.strands, s0.cmd.kernels, false) := by rw [← h]; rfl
  have h5 : (cqOf s 3).given.toList = [] := by rw [← h]; rfl
  simp only [Prod.mk.injEq] at h4
  rw [hs]
  refine ⟨h4.2.2.2, ⟨false, reach_mapped s (leaf_small s h1 h2) _ rfl rfl h5 rfl hn 0x100 32 (by decide)⟩, ?_⟩
  subst h
  exact ⟨atRest_vault _ _ _ _ (by decide) rfl rfl rfl, notHeld_vault _ _ _ (by decide)⟩

theorem test_meets_PacketsSignal_write : Heads (sSigPkt 3 1 7 .none) 3 (pkt 3 24 (3 + 1 * 8 + 7 * 2 ^ 64 + 0x100 * 2 ^ 128)) 3 24 .none ∧
    CpReachesAt (sSigPkt 3 1 7 .none) 3 (pkt 3 24 (3 + 1 * 8 + 7 * 2 ^ 64 + 0x100 * 2 ^ 128)) 1 .both 0x100 32 (v0 + 0x100) 0 ∧
    fieldOf (3 + 1 * 8 + 7 * 2 ^ 64 + 0x100 * 2 ^ 128) 63 5 = 0 ∧ fieldOf (3 + 1 * 8 + 7 * 2 ^ 64 + 0x100 * 2 ^ 128) 2 0 = 3 ∧
    fieldOf (3 + 1 * 8 + 7 * 2 ^ 64 + 0x100 * 2 ^ 128) 191 128 = 0x100 :=
  ⟨heads_pkt _ _ _ _ _ (by decide +kernel) rfl, reaches_pkt 3 1 7 .none .both (by decide), by decide, by decide, by decide⟩

theorem test_meets_PacketsSignal_wait : Heads (sSigPkt 4 0 0 .none) 3 (pkt 4 24 (3 + 0 * 8 + 0 * 2 ^ 64 + 0x100 * 2 ^ 128)) 4 24 .none ∧
    Heads (sSigPkt 4 0 0 .signalWait) 3 (pkt 4 24 (3 + 0 * 8 + 0 * 2 ^ 64 + 0x100 * 2 ^ 128)) 4 24 .signalWait ∧
    Heads (sSigPkt 4 1 0 .none) 3 (pkt 4 24 (3 + 1 * 8 + 0 * 2 ^ 64 + 0x100 * 2 ^ 128)) 4 24 .none ∧
    CpReachesAt (sSigPkt 4 0 0 .none) 3 (pkt 4 24 (3 + 0 * 8 + 0 * 2 ^ 64 + 0x100 * 2 ^ 128)) 1 .read 0x100 32 (v0 + 0x100) 0 ∧
    CpReachesAt (sSigPkt 4 0 0 .signalWait) 3 (pkt 4 24 (3 + 0 * 8 + 0 * 2 ^ 64 + 0x100 * 2 ^ 128)) 1 .read 0x100 32 (v0 + 0x100) 0 ∧
    CpReachesAt (sSigPkt 4 1 0 .none) 3 (pkt 4 24 (3 + 1 * 8 + 0 * 2 ^ 64 + 0x100 * 2 ^ 128)) 1 .read 0x100 32 (v0 + 0x100) 0 ∧
    signalMeets .eq (BitVec.ofNat 64 (ofLE ((sSigPkt 4 0 0 .none).mem.read (v0 + 0x100) 8))) 0 = true ∧ signalMeets .ne 0 0 = false :=
  ⟨heads_pkt _ _ _ _ _ (by decide +kernel) rfl, heads_pkt _ _ _ _ _ (by decide +kernel) rfl, heads_pkt _ _ _ _ _ (by decide +kernel) rfl,
    reaches_pkt 4 0 0 .none .read (by decide), reaches_pkt 4 0 0 .signalWait .read (by decide), reaches_pkt 4 1 0 .none .read (by decide),
    by decide +kernel, by decide⟩

theorem test_signal_packets : (after .signalWrite (sSigPkt 3 1 7 .none)).mem.read (v0 + 0x100) 8 = [7, 0, 0, 0, 0, 0, 0, 0] ∧
    (cqOf (after .signalWait (sSigPkt 4 1 0 .none)) 3).held = .signalWait ∧ (cqOf (after .signalWait (sSigPkt 4 0 0 .none)) 3).head = 40 := by
  decide +kernel

/-- A packet for a context with n seeds. -/
def sSeed (type len body n : Nat) : State := sPkt type len body .none { s0 with ctxs := [(1, { st := .active, seeds := List.replicate n 9 })] }

theorem test_meets_PacketsOrder : Heads (sSeed 5 8 3 2) 3 (pkt 5 8 3) 5 8 .none ∧ Heads (sSeed 5 8 3 16) 3 (pkt 5 8 3) 5 8 .none ∧
    Heads (sSeed 6 0 0 2) 3 (pkt 6 0 0) 6 0 .none ∧ Heads (sSeed 6 0 0 1) 3 (pkt 6 0 0) 6 0 .none ∧
    Heads (sSeed 7 0 0 2) 3 (pkt 7 0 0) 7 0 .none ∧ Heads (sSeed 7 0 0 16) 3 (pkt 7 0 0) 7 0 .none ∧
    (∀ n ∈ [1, 2, 16], (ctxOf (sSeed 5 8 3 n) (pkt 5 8 3)).st = .active ∧ (ctxOf (sSeed 5 8 3 n) (pkt 5 8 3)).seeds.length = n) :=
  ⟨heads_pkt _ _ _ _ _ (by decide +kernel) rfl, heads_pkt _ _ _ _ _ (by decide +kernel) rfl, heads_pkt _ _ _ _ _ (by decide +kernel) rfl,
    heads_pkt _ _ _ _ _ (by decide +kernel) rfl, heads_pkt _ _ _ _ _ (by decide +kernel) rfl, heads_pkt _ _ _ _ _ (by decide +kernel) rfl,
    by decide +kernel⟩

theorem test_seeds : ((look (after .seedPush (sSeed 5 8 3 2)).ctxs 1).map (·.seeds), (look (after .seedPop (sSeed 6 0 0 2)).ctxs 1).map (·.seeds),
    (look (after .seedFork (sSeed 7 0 0 2)).ctxs 1).map fun c => (c.seeds.length, c.fork)) = (some [3, 9, 9], some [9], some (3, 1)) := by
  decide +kernel

/-- A FENCE_SYS packet of a queue with or without a kernel under way. -/
def sFence (body : Nat) (held : HeldPacket) (ks : List Nat) : State :=
  let s := sPkt 11 8 body held s0
  { s with cmd := { s.cmd with cqs := s.cmd.cqs.map fun e => (e.1, { e.2 with kernels := ks }) } }

theorem test_meets_PacketsOrder_fence :
    (packetAt (sFence 0 .none [1]) 3 = some (pkt 11 8 0) ∧ cqTakes (sFence 0 .none [1]) 3 = true) ∧
    (packetAt (sFence 1 .none []) 3 = some (pkt 11 8 1) ∧ cqTakes (sFence 1 .none []) 3 = true) ∧
    (packetAt (sFence 1 .drain []) 3 = some (pkt 11 8 1) ∧ (cqOf (sFence 1 .drain []) 3).held = .drain) ∧
    (packetAt (sFence 1 .none [1]) 3 = some (pkt 11 8 1) ∧ (cqOf (sFence 1 .none [1]) 3).kernels ≠ []) := by decide +kernel

theorem test_fence_drains : (cqOf (after .fenceSys (sFence 1 .none [1])) 3).held = .drain ∧ (cqOf (after .fenceSys (sFence 1 .drain [])) 3).head = 24 := by
  decide +kernel

/-- QUEUE_SET of queue 3 with an op and a descriptor of context 1, 2 slots of 4 bytes, ring at 0x80. -/
def setBody (op : Nat) : Nat := 3 + op * 2 ^ 56 + (1 * 2 ^ 7 + 1 * 2 ^ 16 + 0x80 * 2 ^ 64) * 2 ^ 64
def sSet (op : Nat) (s : State) : State := sPkt 10 32 (setBody op) .none (mapped s)

theorem test_meets_QueuesSet : Sets (sSet 0 s0) 3 (pkt 10 32 (setBody 0)) 10 32 12 0 ∧ (queueOf (sSet 0 s0) 3).st = .free ∧
    (queueDesc (pkt 10 32 (setBody 0))).ok = true ∧ (queueDesc (pkt 10 32 (setBody 0))).ringBase = 0x80 ∧
    (queueDesc (pkt 10 32 (setBody 0))).spillMax = 0 ∧ (queueDesc (pkt 10 32 (setBody 0))).ctx = 1 ∧
    (∀ op ∈ [1, 2, 3], ∀ s ∈ [sQ { st0 with ports := [] } (q3 .open_ 0), sQ stQ (q3 .open_ 0), s0],
      Sets (sSet op s) 3 (pkt 10 32 (setBody op)) 10 32 12 op) ∧
    (∃ e ∈ (sSet 2 (sQ stQ (q3 .open_ 0))).strands, ∃ x ∈ e.2.ports, x.2 = 3) := by
  refine ⟨⟨heads_pkt _ _ _ _ _ (by decide +kernel) rfl, by decide, by decide, by decide⟩, by decide, by decide, by decide, by decide, by decide, ?_,
    by decide⟩
  intro op ho s hs
  simp only [List.mem_cons, List.not_mem_nil, or_false] at ho hs
  rcases ho with rfl | rfl | rfl <;> rcases hs with rfl | rfl | rfl <;>
    exact ⟨heads_pkt _ _ _ _ _ (by decide +kernel) rfl, by decide, by decide, by decide⟩

theorem test_meets_QueuesSet_ring : (cqOf (sSet 0 s0) 3).got = [] ∧ ringAddress (sSet 0 s0) 3 (pkt 10 32 (setBody 0)) (queueDesc (pkt 10 32 (setBody 0))) = (.ok (v0 + 0x80) 0, sSet 0 s0) := by
  decide +kernel

theorem test_queue_opens : ((look (after .queueOpen (sSet 0 s0)).queues 3).map fun q => (q.st, q.ringPa, q.lslots)) = some (.open_, v0 + 0x80, 1) ∧
    (look (after .queueFree (sSet 2 (sQ { st0 with ports := [] } (q3 .open_ 0)))).queues 3) = none := by decide +kernel

/-- CONTEXT_SET of context c with an op and a record of seed 7 and quotas 1, 2, 3. -/
def ctxBody (op c : Nat) : Nat := c + op * 2 ^ 56 + (7 + 1 * 2 ^ 192 + 2 * 2 ^ 208 + 3 * 2 ^ 232) * 2 ^ 64
def sCtx (op c : Nat) : State :=
  sPkt 12 40 (ctxBody op c) .none { s0 with ctxs := [(1, { st := .active, seeds := [7], seedInit := 7 })] }

theorem test_meets_ContextsLive : Sets (sCtx 0 2) 3 (pkt 12 40 (ctxBody 0 2)) 12 40 6 0 ∧ (lookD (sCtx 0 2).ctxs 2 {}).st = .free ∧ Forgotten (sCtx 0 2) 2 ∧
    recordOk (ctxBody 0 2 / 2 ^ 64) = true ∧ Sets (sCtx 1 1) 3 (pkt 12 40 (ctxBody 1 1)) 12 40 6 1 ∧
    (lookD (sCtx 1 1).ctxs 1 {}).st = .active ∧ fieldOf (ctxBody 1 1 / 2 ^ 64) 191 176 = (lookD (sCtx 1 1).ctxs 1 {}).bankKey ∧
    fieldOf (ctxBody 1 1 / 2 ^ 64) 175 167 = (lookD (sCtx 1 1).ctxs 1 {}).keyBase ∧
    fieldOf (ctxBody 1 1 / 2 ^ 64) 166 157 = (lookD (sCtx 1 1).ctxs 1 {}).keyCount ∧
    fieldOf (ctxBody 1 1 / 2 ^ 64) 127 64 = (lookD (sCtx 1 1).ctxs 1 {}).ptBase ∧
    BitVec.ofNat 64 (fieldOf (ctxBody 1 1 / 2 ^ 64) 63 0) = (lookD (sCtx 1 1).ctxs 1 {}).seedInit ∧
    Sets (sCtx 2 1) 3 (pkt 12 40 (ctxBody 2 1)) 12 40 6 2 :=
  ⟨⟨heads_pkt _ _ _ _ _ (by decide +kernel) rfl, by decide, by decide, by decide⟩, by decide,
    by simp only [Forgotten]; decide, by decide,
    ⟨heads_pkt _ _ _ _ _ (by decide +kernel) rfl, by decide, by decide, by decide⟩, by decide, by decide, by decide, by decide, by decide,
    by decide, ⟨heads_pkt _ _ _ _ _ (by decide +kernel) rfl, by decide, by decide, by decide⟩⟩

/-- A context that drains, or is zeroed, with nothing left. -/
def sDrain (st : CtxSt) : State :=
  { State.reset with
    ctxs := [(1, { st := st })], queues := [(3, q3 .open_ 0)], arg := .one 1, keep := { released := 5 }, cmd := { evr := { en := true } } }

theorem test_meets_ContextsLive_ends : ctxBusy (sDrain .draining) 1 = false ∧ (lookD (sDrain .draining).ctxs 1 {}).st = .draining ∧
    (lookD (sDrain .zeroing).ctxs 1 {}).st = .zeroing ∧ (∀ z ∈ (sDrain .zeroing).trans.zeroing, z.ctx ≠ some 1) ∧
    Forgotten (sDrain .zeroing) 1 ∧ (sDrain .zeroing).cmd.evr.lost = 0 ∧ evrRoom (sDrain .zeroing) = true := by
  simp only [Forgotten]
  decide

theorem test_contexts : ((look (after .contextCreate (sCtx 0 2)).ctxs 2).map fun c => (c.st, c.seeds, c.saveQuota, c.spillQuota, c.pinQuota)) =
      some (.active, [7], 1, 2, 3) ∧
    (after .contextDestroy (sCtx 2 1)).strands = [] ∧ (look (after .contextDestroy (sCtx 2 1)).ctxs 1).map (·.st) = some .draining ∧
    (after .contextDrained (sDrain .draining)).queues = [] ∧ (after .contextZeroed (sDrain .zeroing)).ctxs = [] := by decide +kernel

/-! ### Pages, vaults and registers -/

/-- A miss record of context 1 for page 0, under number 5 of quad 0, with tables at 0x10000: the first entry as given, and an 8 GiB
leaf at 0x20000. -/
def sMiss (r : MissRec) (e : Nat) : State :=
  { State.reset with
    trans := { miss := [(5, r)] }, arg := .two 0 5, keep := { released := 5 }, cmd := { evr := { en := true } }
    ctxs := [(1, { st := .active, keyCount := 1, ptBase := 0x10000 })]
    mem := { bytes := bytesFrom 0x10000 (toLE 8 e) ++ bytesFrom 0x20000 (toLE 8 (2 ^ 63 + 2 ^ 62 + 2 ^ 44 + 6)) } }
def missRec (pending walker : Bool) : MissRec := { ctx := 1, vpn := 3, pending := pending, walker := walker, level := 2 }

theorem test_meets_MissesEnd : missOf (sMiss (missRec false false) 0) 0 5 = some (missRec false false) ∧
    (sMiss (missRec false false) 0).trans.miss.countP (fun e => e.1 / 64 == 0 && e.2.walker) < 16 ∧
    (walkTables (sMiss (missRec false true) 0) 0 1 (3 * 2 ^ 13)).1 = .invalid 0 ∧
    (walkTables (sMiss (missRec false true) (2 ^ 63 + 16)) 0 1 (3 * 2 ^ 13)).1 = .bad 0x04 0x02 ∧
    (walkTables (sMiss (missRec false true) (2 ^ 63 + 0x20000)) 0 1 (3 * 2 ^ 13)).1 = .leaf 1 (2 ^ 63 + 2 ^ 62 + 2 ^ 44 + 6) none ∧
    lpddrHeld (sMiss (missRec false true) 0) = false ∧
    (walkTables { sMiss (missRec false true) 0 with clk := { drain := true } } 0 1 (3 * 2 ^ 13)).1 = .held ∧
    (sMiss (missRec true false) 0).braids = [] ∧ evrRoom (sMiss (missRec false true) 0) = true := by decide +kernel

/-- A walk for page 3 of context 1 with the first entry as given: the entries it reads lie at rest, wherever it goes. -/
theorem test_meets_WalksDescend_rest : ∀ e ∈ [0, 2 ^ 63 + 16, 2 ^ 63 + 2 ^ 62 + 2 ^ 44 + 6, 2 ^ 63 + 0x20000],
    WalkAtRest (sMiss (missRec false true) e) 0 1 (3 * 2 ^ 13) := by
  intro e _
  refine ⟨rfl, (fun _ h => nomatch h), fun l _ => ⟨⟨fun _ m _ => ⟨fun _ h => (nomatch h), .inl rfl⟩, rfl, rfl, rfl⟩, ?_⟩⟩
  intro newer w older h
  exact absurd (congrArg List.length (show [] = newer ++ w :: older from h)) (by simp)

/-- The same where the table's first entry was written, and that write released. -/
theorem test_meets_WalksDescend_written : ∀ e ∈ [0, 2 ^ 63 + 0x20000],
    let s0 := sMiss (missRec false true) e
    let w : Write := { id := 4, pa := 0x10000, old := List.replicate 8 0, new := toLE 8 e, path := none, pubs := [] }
    let s : State := { s0 with mem := { s0.mem with log := [w] }, host := { s0.host with seen := [4] } }
    WalkAtRest s 0 1 (3 * 2 ^ 13) ∧ s.mem.log ≠ [] := by
  intro e _
  refine ⟨⟨rfl, (fun _ h => nomatch h), fun l _ => ⟨⟨fun _ m _ => ⟨fun _ h => (nomatch h), .inl rfl⟩, rfl, rfl, rfl⟩, ?_⟩⟩, fun h => nomatch h⟩
  intro newer w older h _ _
  have h : [({ id := 4, pa := 0x10000, old := List.replicate 8 0, new := toLE 8 e, path := none, pubs := [] } : Write)] = newer ++ w :: older := h
  cases newer with
  | nil =>
    simp only [List.nil_append, List.cons.injEq] at h
    rw [← h.1]
    exact List.mem_singleton.mpr rfl
  | cons x l => exact absurd (congrArg List.length h) (by simp)

/-- At level 0 nothing, a malformed entry, or a leaf of a context that has its key; at level 1, below a pointer, a leaf of LPDDR6 or of
a vault beyond its direct region, of this context or another. -/
theorem test_meets_WalksDescend : entryAt (sMiss (missRec false true) 0) 1 (3 * 2 ^ 13) 0 = 0 ∧
    entryAt (sMiss (missRec false true) (2 ^ 63 + 16)) 1 (3 * 2 ^ 13) 0 = 2 ^ 63 + 16 ∧ Malformed 0 (2 ^ 63 + 16) ∧
    PointsOn 0 (entryAt (sMiss (missRec false true) (2 ^ 63 + 0x20000)) 1 (3 * 2 ^ 13) 0) ∧
    (let s := sMiss (missRec false true) (2 ^ 63 + 0x20000)
     let e := entryAt s 1 (3 * 2 ^ 13) 1
     e = 2 ^ 63 + 2 ^ 62 + 2 ^ 44 + 6 ∧ ¬ Malformed 1 e ∧ ¬ OutsideDirect s 1 e ∧ fieldOf e 49 44 = 1 ∧ ¬ KeyOutside s 1 e ∧
       KeyOutside { s with ctxs := [(1, { st := .active, ptBase := 0x10000 })] } 1 e) ∧
    OutsideDirect (sMiss (missRec false true) 0) 3 (leafOf 6 + 7 * 2 ^ 23) ∧ ¬ Malformed 3 (leafOf 6 + 7 * 2 ^ 23) ∧
    fieldOf (leafOf 6 + 2 ^ 44) 49 44 ≠ 1 := by
  simp only [PointsOn]
  refine ⟨by decide +kernel, by decide +kernel, by unfold Malformed; decide +kernel, ⟨by decide +kernel, by decide +kernel, by unfold Malformed; decide +kernel⟩,
    ⟨by decide +kernel, by unfold Malformed; decide +kernel, by unfold OutsideDirect; decide +kernel, by decide +kernel,
      by unfold KeyOutside; decide +kernel, by unfold KeyOutside; decide +kernel⟩, by unfold OutsideDirect; decide +kernel,
    by unfold Malformed; decide +kernel, by decide +kernel⟩

/-- Entries of contexts 1 and 2 in a cache, with an invalidation of context 1 under way or not. -/
def sInv (busy : Bool) : State :=
  { State.reset with
    trans := { tlb := [{ cache := .second 0, ctx := 1, va := 0, level := 3, pte := 5 }, { cache := .second 0, ctx := 2, va := 0, level := 3, pte := 6 }]
               inv := { busy := busy, scope := 1, ctx := 1 } }, arg := .one 1 }

theorem test_meets_PagesInvalidated_scope : Invalid (sInv true).trans.inv { cache := .second 0, ctx := 1, va := 0, level := 3, pte := 5 } ∧
    ¬ Invalid (sInv true).trans.inv { cache := .second 0, ctx := 2, va := 0, level := 3, pte := 6 } ∧
    Covers { scope := 0, ctx := 1, atVa := 0x4000, atCnt := 2 } 1 0x7FFC 8 ∧ ¬ Covers { scope := 0, ctx := 1, atVa := 0x4000, atCnt := 2 } 1 0x8000 8 := by
  simp only [Invalid, Covers]
  refine ⟨.inl ⟨.inr rfl, by decide⟩, ?_, by decide, by decide⟩
  rintro (⟨h | h, -⟩ | ⟨g, h, -⟩)
  · exact absurd h (by decide)
  · exact absurd h (by decide)
  · exact nomatch h
theorem test_meets_PagesInvalidated : (sInv true).trans.inv.busy = true ∧ invClear (sInv true) = true ∧
    (sInv false).trans.inv.busy = false := by decide
theorem test_inv_done : (after .invDone (sInv true)).trans.tlb.map (fun e => e.ctx) = [2] ∧ (after .invAll (sInv true)).trans.inv.lost = true := by
  decide +kernel

/-- A range, or tile 4, that the zero engine works on. -/
def zRange : ZeroJob := { pa := v0 + 0x100, len := 16 }
def zTile : ZeroJob := { pa := 0, len := 0, tile := some 4 }
def sZero (z : ZeroJob) : State :=
  { State.reset with
    trans := { zeroing := [z] }, arg := .one 0, mem := { bytes := [(v0 + 0xFF, 1), (v0 + 0x100, 2), (v0 + 0x110, 3)] }
    eng := { tiles := [((3 * 65536 + 2) * 2, 1), ((4 * 65536 + 2) * 2, 7)] } }

theorem test_meets_ResourcesZeroed : (sZero zRange).trans.zeroing[0]? = some zRange ∧ 0 < zRange.len ∧ watchedBy (sZero zRange) zRange.pa 16 = [] ∧
    zRange.tile = none ∧ zTile.tile = some 4 ∧ zTile.len = 0 ∧ (0x20001 : DWord).toNat % 4 < 3 ∧
    lpddrHeld (sZero zRange) = false ∧ (∀ q ∈ (sZero zTile).eng.mq, ∀ e ∈ q.2, 4 ∉ tilesNamed q.1 e) ∧
    ∀ q ∈ (sZero zTile).eng.waiting, 4 ∉ tilesNamed q.1 q.2 := by decide
theorem test_zeroes : (after .zeroDone (sZero zRange)).mem.bytes = [(v0 + 0xFF, 1), (v0 + 0x110, 3)] ∧
    (after .zeroDone (sZero zTile)).eng.tiles = [((3 * 65536 + 2) * 2, 1)] := by decide +kernel

/-- A machine with an operand of a register's write, no braid and an idle cache region. -/
def sReg (p : Nat) (v : DWord) (busy : Bool) : State :=
  { State.reset with arg := .val p v, vaults := { cuBusy := busy, newUnits := 4 }, trans := { krIdx := 9, krData := [(0, 5)] } }

theorem test_meets_VaultsSet : ((List.range 5).map fun k => (0x1014 : DWord).toNat / 2 ^ (4 * k) % 16) = [4, 1, 0, 1, 0] ∧
    4 + 0 + 1 + 0 + (sReg 3 0x1014 false).vaults.units ≤ 8 ∧
    (sReg 3 0x1014 false).vaults.cuBusy = false ∧ (0x17 : DWord).toNat / 2 ^ 4 % 16 ≤ (0x17 : DWord).toNat % 16 ∧
    8 < (0x17 : DWord).toNat % 16 + (sReg 3 0x17 false).vaults.units ∧
    (2 : DWord).toNat % 8 ≤ 6 ∧ (∀ w < 48, (vaultMap (sReg 0 2 false) w).direct + (vaultMap (sReg 0 2 false) w).save +
      (vaultMap (sReg 0 2 false) w).ring + (vaultMap (sReg 0 2 false) w).ref + 2 ≤ 8) ∧ (sReg 0 2 true).vaults.cuBusy = true ∧
    NothingHeld (sReg 0 2 true) := by
  simp only [NothingHeld]
  decide +kernel
theorem test_vault_map : (vaultMap (after .vaultMapWrite (sReg 3 0x1014 false)) 3).ring = 1 ∧
    (vaultMap (after .vaultMapWrite (sReg 3 0x17 false)) 3).err = true ∧ (vaultMap (after .vaultMapWrite (sReg 3 0x17 false)) 3).direct = 6 ∧
    look (after .keyringLoad (sReg 0 6 false)).trans.keyring 9 = some (5 + 6 * 2 ^ 448) := by decide +kernel

theorem test_meets_HostAccesses : plainBits 8 = some 0x3FF ∧ inMemory (v0 + 0x40) 2 = true ∧ heldBySlot State.reset (v0 + 0x40) 2 = false ∧
    AtRest State.reset (v0 + 0x40) 2 0 ∧ NoSaves State.reset ∧ (State.reset.mem.log = []) ∧ 0x10 % 8 = 0 ∧ 0x10 + 8 ≤ 2 ^ 44 - 0xC0000000000 ∧
    inMemory (2 ^ 45) 8 = false ∧ ¬ (0xC0000000000 ≤ 2 ^ 45 ∧ 2 ^ 45 + 8 ≤ 2 ^ 44) :=
  ⟨by decide, by decide, by decide, atRest_vault _ _ _ _ (by decide) rfl rfl rfl, (fun _ h => nomatch h), rfl, by decide, by decide, by decide, by decide⟩

theorem test_host_registers : (after .hostMemoryAccess { State.reset with arg := .host (0xC0000000000 + 0x10) 8 none }).host.lastRead =
      [20, 0, 0, 0, 0, 0, 0, 0] ∧
    sregOf (after .registerWrite { State.reset with arg := .val 8 0xFFFF }) 8 = 0x3FF := by decide +kernel

/-! ### Streams, chains, the front end, blend and the outputs -/

/-- A stream of 16 × 16 pixels in two strips of 8 lines of 2 µs each, on ring 0. -/
def str0 : Stream :=
  { active := true, lineP := 2000 * 2 ^ 16, vTotal := 20, vStart := 2, outW := 16, outH := 16, rendW := 16, rendH := 16, ctx := 1, floor := 2,
    cost := [64, 32, 16, 8, 4], fill := 0x155, nextClear := 21, nextStart := 20, nextRead := 20, nextLine := 160, firstFrame := 3 }
/-- Ring 0: 16 entries for each list, 24 render lines, and areas at 64 KiB steps. -/
def ringRegs : SMap DWord := [(0x10, 20), (0x400, 0x1800100000), (0x408, 0x1000300020001)]
/-- A chain table of one kernel of kind 1 and the upscale stage. -/
def ck0 (kind : Nat) : ChainKernel := { lrec := { save := 2, entry := 0x40, trap := 0x80 }, kind := kind, blend := false, zearly := false, zw := false, zf := 0 }
/-- A machine with that stream, at a time in ns, with frames and chains. -/
def sStr (x : Stream) (ns : Nat) (fs : List Frame) (cs : SMap Chain) (arg : Arg) : State :=
  { State.reset with
    keep := { released := 5 }, clk := { tb := ns * 2 ^ 16 }, vaults := { maps := [(0, { direct := 5, ring := 1 })] }, sreg := ringRegs, arg := arg
    ctxs := [(1, { st := .active, prio := true, seeds := [9], saveQuota := 8 })], cmd := { evr := { en := true } }
    strips := { streams := [(0, x)], frames := fs, chains := cs } }
def fr0 (n : Nat) : Frame := { stream := 0, frame := n, kernels := [ck0 1, ck0 2], geom := none }

/-- The record of that stream, and STREAM_SET packets. -/
def strRecord : Nat := 2000 * 2 ^ 16 * 2 ^ 288 + 20 * 2 ^ 272 + 2 * 2 ^ 256 + 16 * 2 ^ 240 + 16 * 2 ^ 224 + 16 * 2 ^ 208 + 16 * 2 ^ 192 + 1 * 2 ^ 46 + 1 * 2 ^ 32
def strBody (op rec : Nat) : Nat := op * 2 ^ 56 + rec * 2 ^ 64
def sStrPkt (op rec : Nat) (x : Stream) : State := sPkt 8 56 (strBody op rec) .none (sStr x 400000 [] [] .none)

theorem test_meets_StreamsSet : Sets (sStrPkt 0 strRecord {}) 3 (pkt 8 56 (strBody 0 strRecord)) 8 56 6 0 ∧
    streamAccepted (sStrPkt 0 strRecord {}) 0 strRecord = true ∧ streamAccepted (sStrPkt 0 strRecord str0) 0 strRecord = false ∧
    Sets (sStrPkt 1 0 { str0 with nextRead := 19 }) 3 (pkt 8 56 (strBody 1 0)) 8 56 6 1 ∧
    (streamOf (sStrPkt 1 0 { str0 with nextRead := 19 }) 0).nextRead < (streamOf (sStrPkt 1 0 { str0 with nextRead := 19 }) 0).nextStart ∧
    Sets (sStrPkt 1 0 {}) 3 (pkt 8 56 (strBody 1 0)) 8 56 6 1 := by
  refine ⟨⟨heads_pkt _ _ _ _ _ (by decide +kernel) rfl, by decide, by decide +kernel, by decide +kernel⟩, by decide +kernel, by decide +kernel,
    ⟨heads_pkt _ _ _ _ _ (by decide +kernel) rfl, by decide, by decide +kernel, by decide +kernel⟩, by decide,
    ⟨heads_pkt _ _ _ _ _ (by decide +kernel) rfl, by decide, by decide +kernel, by decide +kernel⟩⟩

/-- R333: the first frame is the least whose A_0 is still to come: with A_0 of frame n at 40 n − 13 µs, at 400 µs frame 11. -/
theorem test_stream_first : (streamOf (after .streamSet (sStrPkt 0 strRecord {})) 0).firstFrame = 11 := by decide +kernel

/-- FRAME_SUBMIT of a frame with a chain table of the upscale stage alone at 0x400, whose record at 0x800 is zero. -/
def submitBody (n : Nat) : Nat := n * 2 ^ 32 + 0x400 * 2 ^ 128
def sSubmit (n : Nat) (x : Stream) (cs : SMap Chain) (held : HeldPacket) : State :=
  let s := sPkt 9 24 (submitBody n) held (mapped { sStr x 400000 [] cs .none with vaults := {} })
  { s with mem := { bytes := bytesFrom (v0 + 0x400) (toLE 16 (0x800 + 2 * 2 ^ 64)) ++ s.mem.bytes } }
/-- The stream, with a strip of frame 10 unread and its chain running. -/
def chWait : SMap Chain := [(2 * ((10 * 65536 + 1) * 64), { stream := 0, frame := 10, strip := 1, st := .running })]

theorem test_meets_StreamsSet_frame :
    frameBad (sSubmit 12 { str0 with nextRead := 22 } [] .none) (pkt 9 24 (submitBody 12)) (frameSubmit (pkt 9 24 (submitBody 12))) = false ∧
    framePast (sSubmit 12 { str0 with nextRead := 22 } [] .none) (frameSubmit (pkt 9 24 (submitBody 12))) = true ∧
    framePast (sSubmit 12 str0 chWait .none) (frameSubmit (pkt 9 24 (submitBody 12))) = false ∧
    frameBad (sSubmit 12 {} [] .none) (pkt 9 24 (submitBody 12)) (frameSubmit (pkt 9 24 (submitBody 12))) = true ∧
    packetAt (sSubmit 12 str0 chWait .none) 3 = some (pkt 9 24 (submitBody 12)) ∧ cqTakes (sSubmit 12 str0 chWait .none) 3 = true ∧
    packetAt (sSubmit 12 { str0 with nextRead := 22 } [] .frameSubmit) 3 = some (pkt 9 24 (submitBody 12)) := by decide +kernel

theorem seen_submit (n : Nat) (x : Stream) (cs : SMap Chain) (held : HeldPacket) (p : Packet) :
    packetSeen (sSubmit n x cs held) 3 p = sSubmit n x cs held :=
  ringRead_vault _ { en := true, sup := true, ctx := 1, lsize := 12, base := v0 + 0x2000, tail := 40, held := held } 0 (16 + p.len)
    rfl (v0_not_lpddr 0x2000) (v0_not_lpddr 0x2000)

theorem test_meets_StreamsSet_table : Heads (sSubmit 12 { str0 with nextRead := 22 } [] .none) 3 (pkt 9 24 (submitBody 12)) 9 24 .none ∧
    Heads (sSubmit 12 { str0 with nextRead := 22 } [] .frameSubmit) 3 (pkt 9 24 (submitBody 12)) 9 24 .frameSubmit ∧
    Heads (sSubmit 12 str0 chWait .none) 3 (pkt 9 24 (submitBody 12)) 9 24 .none ∧
    (readFrame (packetSeen (sSubmit 12 { str0 with nextRead := 22 } [] .none) 3 (pkt 9 24 (submitBody 12))) 3 (pkt 9 24 (submitBody 12)) 1
      (frameSubmit (pkt 9 24 (submitBody 12)))).1.isSome := by
  refine ⟨⟨rfl, by decide +kernel, rfl, rfl, rfl, rfl, fun _ => by decide +kernel, rfl, by rw [seen_submit]; exact fun _ => rfl⟩,
    ⟨rfl, by decide +kernel, rfl, rfl, rfl, rfl, (fun h => nomatch h), rfl, by rw [seen_submit]; exact fun _ => rfl⟩,
    ⟨rfl, by decide +kernel, rfl, rfl, rfl, rfl, fun _ => by decide +kernel, rfl, by rw [seen_submit]; exact fun _ => rfl⟩, ?_⟩
  rw [seen_submit]
  decide +kernel

theorem test_frame_waits : (cqOf (after .frameSubmit (sSubmit 12 str0 chWait .none)) 3).held = .frameSubmit ∧
    (after .frameSubmitAccept (sSubmit 12 { str0 with nextRead := 22 } [] .frameSubmit)).strips.frames.map (fun f => (f.frame, f.kernels.length)) = [(12, 1)] := by
  decide +kernel

/-- The chain of strip 0 of frame 10, in a state of its life. -/
def ch0 (st : ChainSt) : Chain := { stream := 0, frame := 10, strip := 0, st := st, rung := 1 }
def chKey : Nat := 2 * (10 * 65536 * 64)

/-- That stream stopped, with a chain of it at work, and a STREAM_SET. -/
def sStrOld : State :=
  let s := sStrPkt 0 strRecord { str0 with active := false }
  { s with
    strips := { s.strips with chains := [(chKey, ch0 .running)] }
    cmd := { s.cmd with kernels := [(1, { ctx := 1, chain := some chKey, origin := .chain chKey, kind := 1, placed := [0], total := 1 })] } }

theorem test_meets_StreamsSet_old : streamAccepted sStrOld 0 strRecord = true ∧ (∀ e ∈ sStrOld.strips.chains, e.1 % 2 = 1 → e.1 < 2 * sStrOld.flight.nextId) ∧
    look sStrOld.strips.chains chKey = some (ch0 .running) ∧ chainLives sStrOld chKey (ch0 .running) = true ∧
    packetAt sStrOld 3 = some (pkt 8 56 (strBody 0 strRecord)) := by decide +kernel

/-- R337: the chain goes on under the stream's old record. -/
theorem test_stream_keeps_old : (after .streamSet sStrOld).strips.chains.map (fun e => (e.2.stream, e.2.oldStream.isSome)) = [(0, true)] := by decide +kernel

theorem test_meets_ChainsRun : AtStrip (sStr { str0 with nextClear := 20 } 380000 [fr0 10] [] (.three 0 10 0)) 0 10 0 20 ∧
    startAt str0 10 0 - 10000 * 2 ^ 16 ≤ (380000 * 2 ^ 16 : Nat) ∧ AtStrip (sStr str0 390000 [] [] (.three 0 10 0)) 0 10 0 20 ∧
    startAt str0 10 0 ≤ (390000 * 2 ^ 16 : Nat) ∧ findFrame (sStr str0 390000 [] [] .none) 0 10 = none ∧
    findFrame (sStr str0 390000 [fr0 10] [] .none) 0 10 = some (fr0 10) ∧ (20 : Nat) < str0.nextClear := by
  refine ⟨⟨rfl, rfl, rfl, rfl, by decide, by decide⟩, by decide, ⟨rfl, rfl, rfl, rfl, by decide, by decide⟩, by decide, by decide, by decide, by decide⟩

theorem test_meets_ChainsRun_kernel : refuseCode (sStr str0 390000 [fr0 10] [] .none) 1 (ck0 1).lrec true ((ck0 1).kind == 0) = none ∧
    NoWatch (sStr str0 390000 [fr0 10] [] .none) := by
  exact ⟨by decide, by unfold NoWatch; decide⟩

theorem test_chain_starts : (after .chainStart (sStr str0 390000 [] [] (.three 0 10 0))).strips.chains.map (fun e => (e.1, e.2.st)) = [(chKey, .missed)] ∧
    (after .chainStart (sStr str0 390000 [] [] (.three 0 10 0))).keep.counters = [(0x1860, 1)] := by decide +kernel

/-- A chain past its deadline, with a kernel of one strand, and one cut off 10 µs ago. -/
def sCut (ch : Chain) : State :=
  { sStr str0 420000 [fr0 10] [(chKey, ch)] (.one chKey) with
    strands := [(0, { st0 with kernel := 1 })], nextSid := 1, braids := [(0, { kernel := 1, ctx := 1 })], nextBid := 1
    cmd := { kernels := [(1, { ctx := 1, chain := some chKey, origin := .chain chKey, kind := 1, open_ := true, placed := [0], total := 1 })], nextKernel := 2, evr := { en := true } } }

theorem test_meets_ChainsRun_cutoff : cmdUp (sCut (ch0 .running)) = true ∧ look (sCut (ch0 .running)).strips.chains chKey = some (ch0 .running) ∧
    deadlineAt (streamOf (sCut (ch0 .running)) 0) 10 0 ≤ ((sCut (ch0 .running)).clk.tb : Int) ∧
    (∀ e ∈ (sCut (ch0 .running)).strands, ∀ x, e.2.run ≠ .halted x) ∧
    (∀ b, chainAt (sCut (ch0 .running)) 0 10 1 = some b → b.st ≠ .running) ∧
    ({ ch0 .missed with cutAt := some (413000 * 2 ^ 16) } : Chain).cutAt = some (413000 * 2 ^ 16) ∧
    413000 * 2 ^ 16 ≤ (sCut { ch0 .missed with cutAt := some (413000 * 2 ^ 16) }).clk.tb := by
  refine ⟨by decide, by decide, by decide, ?_, ?_, rfl, by decide⟩
  · intro e he x h
    obtain rfl : e = (0, { st0 with kernel := 1 }) := by simpa [sCut, sStr] using he
    exact nomatch h
  · intro b h
    have h2 : chainAt (sCut (ch0 .running)) 0 10 1 = none := by decide
    rw [h2] at h
    exact nomatch h

theorem test_cutoff : let t := after .chainCutoff (sCut (ch0 .running));
    (t.strips.chains.map fun e => e.2.st, t.cmd.kernels.map fun e => e.2.err, t.strands.map fun e => e.2.held.map (·.cause)) =
      ([.missed], [0x312], [[0x12]]) := by decide +kernel

/-- The chain at work: its kernel, and the front end as given. -/
def chRun (f : Front) (formed tPrev full : Nat) : Chain :=
  { ch0 .running with kernel := some 1, front := f, formed := formed, tPrev := tPrev, fullQuads := full, order := 7 }
def sFront (ch : Chain) (kind : Nat) (g : Option LaunchRec) : State :=
  { sStr str0 400000 [{ fr0 10 with kernels := [ck0 kind], geom := g }] [(chKey, ch)] (.one chKey) with
    cmd := { kernels := [(1, { ctx := 1, lrec := (ck0 kind).lrec, chain := some chKey, origin := .chain chKey, kind := kind, open_ := true })], nextKernel := 2 } }

theorem test_meets_FrontsWork : (frontReady (sFront (chRun {} 0 0 0) 2 none) (chRun {} 0 0 0)).isSome ∧
    (frontReady (sFront (chRun { todo := [[]] } 0 0 0) 2 none) (chRun { todo := [[]] } 0 0 0)).isSome ∧
    nextQuad (sFront (chRun { todo := [[]] } 0 0 0) 2 none) str0 (chRun { todo := [[]] } 0 0 0)
      (shadingOf (sFront (chRun { todo := [[]] } 0 0 0) 2 none) (chRun { todo := [[]] } 0 0 0) (ck0 2)) = some (0, 0) ∧
    nextQuad (sFront (chRun { todo := [[]], begun := true, y := 8 } 0 0 0) 2 none) str0 (chRun { todo := [[]], begun := true, y := 8 } 0 0 0)
      (shadingOf (sFront (chRun { todo := [[]], begun := true, y := 8 } 0 0 0) 2 none) (chRun { todo := [[]], begun := true, y := 8 } 0 0 0) (ck0 2)) = none := by
  decide +kernel

theorem test_meets_FrontsWork_rate : (checkpointDue (sFront (chRun {} 256 0 100) 1 none) (chRun {} 256 0 100)) = some (ck0 1) ∧
    replayReady (sFront (chRun { replay := some { refused := true } } 0 0 0) 1 (some {})) (chRun { replay := some { refused := true } } 0 0 0) = true ∧
    refuseCode (sFront (chRun { replay := some { refused := true } } 0 0 0) 1 (some { save := 2 })) 1 { save := 2 } true true = none := by
  decide +kernel

theorem test_quad_forms : ((look (after .quadForm (sFront (chRun { todo := [[]] } 0 0 0) 2 none)).strips.chains chKey).map fun c =>
    [c.front.x, c.front.filling.quads, c.order] ++ c.front.filling.frags.flatMap fun e => [e.1, e.2.x, e.2.y]) =
    some [2, 1, 8, 0, 0, 0, 1, 1, 0, 2, 0, 1, 3, 1, 1] := by decide +kernel

/-- A fragment of that chain at pixel (3, 5), written or discarded. -/
def frOf (c : Option (List Word)) : Fragment :=
  { chain := chKey, kernel := 1, bead := { x := 3, y := 5, w := 1, h := 1, cover := 1, helper := false, order := 2, emitted := true }, color := c }
def sBlend (c : Option (List Word)) : State :=
  let s := sFront (chRun {} 0 0 0) 1 none
  { s with arg := .one 6, strips := { s.strips with frags := [(6, frOf c)], nextFrag := 7 } }

theorem test_meets_FrontsWork_blend : (∀ c ∈ [none, some [0x3F800000, 0, 0x3F000000, 0]], blendReady (sBlend c) (frOf c) = true ∧
      look (sBlend c).strips.frags 6 = some (frOf c)) ∧
    stageOf (sBlend none) (chRun {} 0 0 0) = some (ck0 1) ∧ (ck0 1).zw = false ∧ (frOf none).bead.pixels = [(0, 3, 5)] ∧
    NoWatch (sBlend none) := by
  refine ⟨by decide +kernel, by decide, rfl, by decide, by unfold NoWatch; decide⟩

/-- R357, R358, R378: line 165 of the stream's lines is in slot 21 of 24, of 128 bytes; red 1 is 1023 in bits 29:20, blue 1/2 is
512. -/
theorem test_blend_writes : (after .blendRetire (sBlend (some [0x3F800000, 0, 0x3F000000, 0]))).mem.read (v0 + 5 * 2 ^ 23 + 21 * 128 + 12) 4 =
    toLE 4 (1023 * 2 ^ 20 + 512) := by decide +kernel

/-- A fragment with its own depth z, of a kernel that writes depth where it is the lesser. -/
def frDeep (z : Word) : Fragment := { frOf (some [0x3F800000, 0, 0x3F000000, 0]) with zOver := some z }
def sDepth (z : Word) : State :=
  let s := sBlend none
  { s with mem := { bytes := [(v0 + 42076814, 0x80), (v0 + 42076815, 0x3F)] }, strips := { s.strips with frags := [(6, frDeep z)], frames := s.strips.frames.map fun f => { f with kernels := [{ ck0 1 with zw := true, zf := 1 }] } } }

theorem test_meets_FrontsWork_depth : blendReady (sDepth 0) (frDeep 0) = true ∧ look (sDepth 0).strips.frags 6 = some (frDeep 0) ∧
    stageOf (sDepth 0) (chRun {} 0 0 0) = some { ck0 1 with zw := true, zf := 1 } ∧ (frDeep 0).bead.pixels = [(0, 3, 5)] ∧ NoWatch (sDepth 0) ∧
    (let b := blendPlan (sDepth 0) (frDeep 0) (chRun {} 0 0 0) { ck0 1 with zw := true, zf := 1 }
     WordsApart (b.colour (0, 3, 5)) (b.depth (0, 3, 5))) := by
  refine ⟨by decide +kernel, by decide, by decide, by decide, by unfold NoWatch; decide, ?_⟩
  unfold WordsApart
  decide +kernel

/-- R375, R377: a depth of 1/2 is less than the 1.0 that stands there, and is written. -/
theorem test_depth_writes : (after .blendRetire (sDepth 0x3F000000)).mem.read (v0 + 42076812) 4 = toLE 4 0x3F000000 := by decide +kernel

/-- The stream at its output, with strip 0 of frame 10 read or to be read. -/
def strOut (kind read : Nat) : Stream := { str0 with outKind := kind, nextRead := read, nextStart := 21 }
def sOut (kind read : Nat) (l : List Nat) (arg : Arg) : State :=
  let s := sStr (strOut kind read) 440000 [fr0 10] [(chKey, ch0 .done)] arg
  { s with strips := { s.strips with marks := [(0, 16), (0, 17)], readMarks := if read = 20 then [] else [(chKey, l)] } }

theorem test_meets_OutputsTake : (strOut 0 20).nextRead = stripNo (strOut 0 20) 10 0 ∧ deadlineAt (strOut 0 20) 10 0 ≤ ((sOut 0 20 [] .none).clk.tb : Int) ∧
    OutputAt (sOut 0 21 [0] .none) 0 0 10 0 ∧ OutputAt (sOut 1 21 [0] .none) 0 1 10 0 ∧ OutputAt (sOut 2 21 [0] .none) 0 2 10 0 ∧
    lineAt (strOut 1 21) 10 7 ≤ (sOut 1 21 [] .none).clk.tb := by
  simp only [OutputAt]
  decide

/-- R358, R360: strip 0 of frame 10 has slot 20 mod 3, whose lines have the marks 16 to 23. -/
theorem test_strip_marks : (after .stripRead (sOut 0 20 [] (.three 0 10 0))).strips.readMarks = [(chKey, [0, 1])] := by decide +kernel
theorem test_line_fills : (after .dpLineSend (sOut 0 21 [] (.three 0 10 0))).strips.sent.map (fun l => (l.filled, l.pixels.length, l.pixels.head?)) =
    [(true, 16, some 0x155)] := by decide +kernel

/-- A loopback buffer at 0x1000 of context 1. -/
def sLoop : State := mapped { sOut 2 21 [] (.three 0 10 0) with vaults := {}, sreg := [(0x10, 20), (0x800, 0x1000)] }

theorem test_meets_OutputsTake_loop : ∀ px < 16,
    (∃ pin, translation sLoop { ctx := 1, quad := 0, path := some .x, need := .write }
      (((sregOf sLoop 0x800).toNat + 4 * (0 * 16 + px)) % 2 ^ 64) 4 = (.ok (v0 + (0x1000 + 4 * px)) 0 pin, sLoop)) ∧
    AtRest sLoop (v0 + (0x1000 + 4 * px)) 4 0 ∧ heldBySlot sLoop (v0 + (0x1000 + 4 * px)) 4 = false := by
  intro px hpx
  have h1 : ((sregOf sLoop 0x800).toNat + 4 * (0 * 16 + px)) % 2 ^ 64 = 0x1000 + 4 * px := by
    have h : (sregOf sLoop 0x800).toNat = 0x1000 := by decide
    rw [h]
    omega
  rw [h1]
  refine ⟨⟨false, reach_mapped _ ?_ _ rfl rfl rfl rfl (by decide) _ 4 (by omega)⟩, atRest_vault _ _ _ _ (v0_not_lpddr _) rfl rfl rfl,
    notHeld_vault _ _ _ (v0_not_lpddr _)⟩
  decide

/-- That stream's output at line y of frame 10, both of whose strips have been read. -/
def outAt (kind y : Nat) (s : State) : State :=
  { s with arg := .three 0 10 y, strips := { s.strips with streams := [(0, { strOut kind 22 with nextLine := 160 + y })] } }

theorem test_meets_OutputsTake_encoder : (∀ y ∈ [0, 7, 15], OutputAt (outAt 1 y (sOut 1 22 [0] .none)) 0 1 10 y) ∧
    NoWatch (outAt 1 7 (sOut 1 22 [0] .none)) ∧ (strOut 1 22).outLines 0 = (0, 8) ∧ (strOut 1 22).outLines 1 = (8, 16) ∧
    (strOut 1 22).strips = 2 := by
  simp only [OutputAt]
  exact ⟨by decide, by unfold NoWatch; decide, by decide⟩

/-- The last line of a captured frame, with the signal at an address. -/
def sLoopEnd (sig : Nat) : State := mapped { outAt 2 15 sLoop with sreg := [(0x10, 20), (0x800, 0x1000), (0x880, BitVec.ofNat 64 sig)] }

theorem test_meets_OutputsTake_last : OutputAt (sLoopEnd 0x1800) 0 2 10 15 ∧ (sLoopEnd 0x1800).strips.late = [] ∧
    (sregOf (sLoopEnd 0x1800) 0x880).toNat = 0x1800 ∧ (sregOf (sLoopEnd (2 ^ 60)) 0x880).toNat = 2 ^ 60 ∧
    (captureOf (sLoopEnd 0x1800) 0 10).lost = [] ∧
    (∃ pin, translation (sLoopEnd 0x1800) { ctx := 1, quad := 0, path := some .x, need := .both } 0x1800 32 = (.ok (v0 + 0x1800) 0 pin, sLoopEnd 0x1800)) ∧
    AtRest (sLoopEnd 0x1800) (v0 + 0x1800) 32 0 ∧ heldBySlot (sLoopEnd 0x1800) (v0 + 0x1800) 32 = false ∧
    (∃ cause info, translation (sLoopEnd (2 ^ 60)) { ctx := 1, quad := 0, path := some .x, need := .both } (2 ^ 60) 32 =
      (.fault cause info, sLoopEnd (2 ^ 60))) ∧
    ∀ px < 16, (∃ pin, translation (sLoopEnd 0x1800) { ctx := 1, quad := 0, path := some .x, need := .write }
      (((sregOf (sLoopEnd 0x1800) 0x800).toNat + 4 * (15 * 16 + px)) % 2 ^ 64) 4 = (.ok (v0 + (0x13C0 + 4 * px)) 0 pin, sLoopEnd 0x1800)) ∧
      AtRest (sLoopEnd 0x1800) (v0 + (0x13C0 + 4 * px)) 4 0 ∧ heldBySlot (sLoopEnd 0x1800) (v0 + (0x13C0 + 4 * px)) 4 = false ∧
      v0 + (0x13C0 + 4 * px) + 4 ≤ v0 + 0x1800 := by
  refine ⟨by simp only [OutputAt]; decide, rfl, by decide, by decide, by decide, ⟨false, reach_mapped _ (by decide) _ rfl rfl rfl rfl (by decide) _ 32 (by decide)⟩,
    atRest_vault _ _ _ _ (v0_not_lpddr _) rfl rfl rfl, notHeld_vault _ _ _ (v0_not_lpddr _), ⟨5, 1, by decide +kernel⟩, fun px hpx => ?_⟩
  have h1 : ((sregOf (sLoopEnd 0x1800) 0x800).toNat + 4 * (15 * 16 + px)) % 2 ^ 64 = 0x13C0 + 4 * px := by
    have h : (sregOf (sLoopEnd 0x1800) 0x800).toNat = 0x1000 := by decide
    rw [h]
    omega
  rw [h1]
  exact ⟨⟨false, reach_mapped _ (by decide) _ rfl rfl rfl rfl (by decide) _ 4 (by omega)⟩, atRest_vault _ _ _ _ (v0_not_lpddr _) rfl rfl rfl,
    notHeld_vault _ _ _ (v0_not_lpddr _), by omega⟩

/-! ### The keeper -/

theorem test_meets_KeeperBoots : ({ State.reset with keep := { failed := some 2 } } : State).keep.failed.isSome ∧ ({ State.reset with keep := { failed := some 2 } } : State).keep.held = false ∧ 1 ≤ 2 ∧ 2 ≤ 5 ∧
    ({ State.reset with keep := { failed := some 2, held := true } } : State).keep.held = true := by decide

/-- R427: with no images the first part fails. -/
theorem test_boot_fails : (after .boot State.reset).keep.failed = some 1 ∧ (after .boot State.reset).keep.mgmt = [.bootFailed 1] := by
  decide +kernel

/-- A machine whose command processor has been silent for a millisecond, with a strand whose braid can be saved. -/
def sSilent (a : Option Nat) : State :=
  { stateOf st0 with
    keep := { released := 5, recovering := a }, clk := { tb := 10 ^ 6 * 2 ^ 16 }
    cmd := { kernels := [(1, { ctx := 1, lrec := { trap := 0x80, resume := 0x90 }, total := 1, placed := [0] })], nextKernel := 2, evr := { en := true } } }

theorem test_meets_KeeperWatches : cmdUp (sSilent none) = true ∧ (sSilent none).keep.lastBeat + 100000 * 2 ^ 16 ≤ (sSilent none).clk.tb ∧
    look (sSilent none).strands 0 = some st0 ∧ (lookD (sSilent none).braids st0.braid {}).st = .placed ∧
    savable (lookD (sSilent none).cmd.kernels 1 {}) = true ∧ st0.held = [] ∧ st0.inTrap = false ∧ (sSilent (some 5)).keep.recovering.isSome ∧
    look (sSilent (some 5)).keep.images 2 = none ∧
    (look ({ sSilent none with keep := { recovering := some 5, images := [(2, ⟨[1], 2, [3]⟩)] } } : State).keep.images 2).isSome ∧
    RingTakes (sSilent (some 5)) ∧ (∀ x ∈ st0.held, x.cause ≠ 0x15) := by
  simp only [RingTakes]
  decide +kernel

theorem test_watchdog_holds : (after .watchdogTimeout (sSilent none)).strands.map (fun e => e.2.held.map (·.cause)) = [[0x15]] ∧
    (after .recoveryEnd (sSilent (some 5))).keep.recovering = none := by decide +kernel

/-- A keeper with a command under way. -/
def sKp (b : Option KeeperCmd) (arg : Arg) : State :=
  { State.reset with keep := { released := 5, busy := b, counters := [(0x1840, 7)] }, arg := arg }

theorem test_meets_KeeperAnswers : (0x10001840 : DWord).toNat / 2 ^ 28 % 16 = 1 ∧ (0x20000000 : DWord).toNat / 2 ^ 28 % 16 = 2 ∧
    (sKp none .none).keep.busy = none ∧ (sKp (some (.read 0x1840)) .none).keep.busy = some (.read 0x1840) ∧
    (sKp (some (.attest (2 ^ 45))) .none).keep.busy = some (.attest (2 ^ 45)) ∧ inMemory (2 ^ 45) 32 = false ∧ inMemory v0 32 = true ∧
    (∀ n, AtRest (sKp (some (.attest v0)) .none) v0 n 0) ∧ (List.replicate 32 (0 : Byte)).length = 32 :=
  ⟨by decide, by decide, rfl, rfl, rfl, by decide, by decide, fun n => atRest_vault _ _ n _ (by decide) rfl rfl rfl, rfl⟩

theorem test_counter_read : (after .keeperCmdDone (sKp (some (.read 0x1840)) .none)).keep.data = 7 ∧
    (after .keeperCmdDone (sKp (some (.read 0x1842)) .none)).keep.err = true := by decide +kernel

/-! ### A step -/

/-- A machine with nothing to do, and with an input. -/
def sIdle (l : List Happening) : State := { State.reset with keep := { failed := some 1 }, inputs := l }
/-- A machine about to fetch a word; about to run one that its strand holds. -/
def sFetch (w : Nat) : State := State.reset.withFetchWord 32 w
def sHold (w : Nat) : State := let s := sFetch w; { s with strands := s.strands.map fun e => (e.1, { e.2 with insn := some (BitVec.ofNat 32 w) }) }
def stFetch (w : Nat) : Strand := lookD (sFetch w).strands 0 {}

theorem test_meets_StepRuns : chosen (sIdle []) = none ∧ chosen { State.reset with keep := { released := 5 }, clk := { refreshNext := 1 }, trans := { zeroing := [zRange] } } = some (.happening ⟨.zeroDone, .one 0⟩) ∧
    chosen (sIdle [⟨.droopDetect, .one 3⟩]) = some (.input ⟨.droopDetect, .one 3⟩) ∧
    heard (sIdle []) .droopDetect = false ∧ chosen (sIdle [⟨.mgmtAttestRequest, .bytes []⟩]) = some (.input ⟨.mgmtAttestRequest, .bytes []⟩) ∧
    heard (sIdle []) .mgmtAttestRequest = true ∧
    chosen (sFetch 0x02000000) = some (.strand 0) ∧ chosen (sHold 0x02000000) = some (.strand 0) ∧
    okOf (decode 0x02000000) = some .nop := by decide +kernel

theorem test_meets_StepRuns_word : look (sFetch 0x02000000).strands 0 = some (stFetch 0x02000000) ∧
    HoldsWord (sFetch 0x02000000) 0 (stFetch 0x02000000) 0 0 0x02000000 := by
  refine ⟨rfl, rfl, rfl, ⟨false, by decide +kernel⟩, ?_, by decide +kernel, by decide +kernel, by decide +kernel, fun k x h => ?_⟩
  · intro _ l hl
    have hl : l = 0 := by
      have h : linesOf 0 4 = [0] := by decide
      rw [h] at hl
      simpa using hl
    subst hl
    have hn : (heldLine (sFetch 0x02000000) 0).all (fun h => h.key == 0) = true := by decide +kernel
    refine ⟨fun h hh => ?_, by decide +kernel⟩
    rw [hh] at hn
    simpa using hn
  · have h2 : (sFetch 0x02000000).mem.log = [] := rfl
    rw [h2] at h
    exact nomatch h

/-- A machine whose strand holds a word that names no instruction, or fetches where no program may stand, with a trap entry. -/
def sBad (insn : Option Word) (tlb : List TlbEntry) : State :=
  let s := sFetch 0
  { s with
    strands := s.strands.map fun e => (e.1, { e.2 with insn := insn }), trans := { s.trans with tlb := tlb }
    cmd := { s.cmd with kernels := s.cmd.kernels.map fun e => (e.1, { e.2 with lrec := { e.2.lrec with trap := 0x80 } }) } }
/-- A leaf that grants no fetch. -/
def noFetch : List TlbEntry := [{ cache := .fetch 0, ctx := 1, va := 0, level := 3, pte := 2 ^ 63 + 2 ^ 62 + 2 ^ 44 + 2 }]

theorem test_meets_WordsTrap : chosen (sBad (some 0xFA000000) []) = some (.strand 0) ∧ errOf (decode 0xFA000000) = some .reservedOpcode ∧
    chosen (sBad none noFetch) = some (.strand 0) ∧ (lookD (sBad none noFetch).strands 0 {}).inTrap = false ∧
    (kernelOf (sBad none noFetch) (lookD (sBad none noFetch).strands 0 {})).lrec.trap = 0x80 ∧
    (translation { sBad none noFetch with choice := (sBad none noFetch).choice + 2, cur := 0 } (fetchAccess (lookD (sBad none noFetch).strands 0 {}))
      (programAddr (sBad none noFetch) (lookD (sBad none noFetch).strands 0 {}) 0) 4).1 = .fault 0x05 (0x06 + 3 * 2 ^ 8) := by decide +kernel

/-- What a step comes to, without what time changes. -/
def stepped (s : State) : State := match step s with | .next t => t | _ => s

theorem test_step_illegal : (stepped (sBad (some 0xFA000000) [])).strands.map (fun e => (e.2.pc, e.2.inTrap, e.2.trap.cause, e.2.trap.bead)) =
    [(0x80, true, 1, 0xFF)] := by decide +kernel
theorem test_step_fetches : (stepped (sFetch 0x02000000)).strands.map (fun e => (e.2.pc, e.2.insn)) = [(4, none)] := by decide +kernel

theorem test_meets_words : (Instr.add (.bead 1) (.bead 2) (.uni 3) true false).wf = true ∧
    (encode (.add (.bead 1) (.bead 2) (.uni 3) true false)).isSome ∧ okOf (decode 0x02000000) = some .nop := by decide
theorem test_meets_StepsKeepMemory : State.reset.Sound ∧ (sFetch 0x02000000).Sound ∧ ∃ t, step (sFetch 0x02000000) = .next t := by
  refine ⟨by unfold State.Sound; decide +kernel, by unfold State.Sound; decide +kernel, ?_⟩
  have h : (match step (sFetch 0x02000000) with | .next _ => true | _ => false) = true := by decide +kernel
  revert h
  generalize step (sFetch 0x02000000) = o
  cases o with
  | next t => exact fun _ => ⟨t, rfl⟩
  | fault f => exact fun h => nomatch h
  | refused r => exact fun h => nomatch h
theorem test_reset_registers : ∀ off ∈ [0, 0x10, 0x20, 0x58, 0x100, 0x278, 0x280, 0xA0], readRegister State.reset off = resetOf off := by decide +kernel

end Sys2Proof.Tests
end

section
/-!
The accesses of the application cores (R5, R167, R225, R421). A range at rest is opened without a byte of it changing, so what a
host's read or write does to memory is what the plain read, or the plain write, of its bytes does.
-/

namespace Sys2Proof.Claims
open Sys2Proof Sys2Proof.Machine

/-! ### Lines that are opened under the key they have (R179, R191) -/

/-- A state in which at most the keys of LPDDR6 lines and the lines of the cache region have changed. -/
def Opened (s t : State) : Prop :=
  ∃ keys lines, t = { s with mem := { s.mem with lineKey := keys }, vaults := { s.vaults with lines := lines } }

theorem Opened.refl (s : State) : Opened s s := ⟨s.mem.lineKey, s.vaults.lines, rfl⟩

theorem Opened.trans {s t u : State} (h : Opened s t) (h' : Opened t u) : Opened s u := by
  obtain ⟨_, _, rfl⟩ := h
  obtain ⟨keys, lines, rfl⟩ := h'
  exact ⟨keys, lines, rfl⟩

theorem opened_setLines (s : State) (ls : List CacheLine) : Opened s (setLines s ls) := ⟨s.mem.lineKey, ls, rfl⟩

/-- The cache region holds a line under a key, or not at all. -/
def HeldUnder (s : State) (key l : Nat) : Prop := ∀ h, heldLine s l = some h → h.key = key

/-- A line is encrypted under the pair of a key, or was never under any. -/
def PairedUnder (s : State) (key l : Nat) : Prop := s.mem.pairOf l = none ∨ s.mem.pairOf l = some (keyPair s key)

theorem heldUnder_setLines_cons {s : State} {x : CacheLine} {ls : List CacheLine} {key l : Nat} (hx : x.key = key)
    (h : HeldUnder (setLines s ls) key l) : HeldUnder (setLines s (x :: ls)) key l := by
  intro y hy
  replace hy : (x :: ls).find? (fun e => e.line == l) = some y := hy
  rw [List.find?_cons] at hy
  split at hy
  · exact Option.some.inj hy ▸ hx
  · exact h y hy

/-- A line that leaves the cache region leaves the others as they are held. -/
theorem heldUnder_setLines_filter {s : State} {key l : Nat} (n : Nat) (h : HeldUnder s key l) :
    HeldUnder (setLines s (s.vaults.lines.filter fun x => x.line != n)) key l := by
  intro y hy
  replace hy : (s.vaults.lines.filter fun x => x.line != n).find? (fun e => e.line == l) = some y := hy
  rw [List.find?_filter] at hy
  by_cases hn : n = l
  · subst hn
    simpa using List.find?_some hy
  · refine h y (hy ▸ congrArg (fun p => s.vaults.lines.find? p) (funext fun x => ?_))
    by_cases hx : x.line = l <;> simp [hx, Ne.symm hn]

theorem insertLine_opened (s : State) (x : CacheLine) : Opened s (insertLine s x) := by
  unfold insertLine
  split
  · exact .refl s
  · dsimp only
    split <;> exact opened_setLines _ _

theorem heldUnder_insertLine {s : State} {x : CacheLine} {key l : Nat} (hx : x.key = key) (h : HeldUnder s key l) :
    HeldUnder (insertLine s x) key l := by
  unfold insertLine
  split
  · exact h
  · dsimp only
    split
    · exact heldUnder_setLines_cons hx h
    · exact heldUnder_setLines_cons hx (heldUnder_setLines_filter _ h)

theorem decryptAs_opened {s : State} {key l : Nat} (h : PairedUnder s key l) : Opened s (decryptAs s l key) := by
  rcases h with h | h
  · simp only [decryptAs, h]
    exact ⟨put s.mem.lineKey l (keyPair s key), s.vaults.lines, rfl⟩
  · simpa only [decryptAs, h, if_true] using .refl s

theorem decryptAs_vaults (s : State) (l key : Nat) : (decryptAs s l key).vaults = s.vaults := by
  unfold decryptAs
  dsimp only
  split
  · rfl
  · split <;> rfl

/-- A line that had no key pair takes that of the key; a line under that pair stays under it. -/
theorem pairedUnder_decryptAs {s : State} {key l m : Nat} (h : PairedUnder s key l) (hm : PairedUnder s key m) :
    PairedUnder (decryptAs s l key) key m := by
  rcases h with h | h
  · simp only [decryptAs, h]
    by_cases hml : m = l
    · subst hml
      exact .inr (by simp [Memory.pairOf, keyPair])
    · simpa [PairedUnder, Memory.pairOf, keyPair, look_put_other _ hml] using hm
  · simpa only [decryptAs, h, if_true] using hm

/-- A change of the cache region alone leaves the key pairs. -/
theorem pairedUnder_insertLine {s : State} {x : CacheLine} {key m : Nat} (h : PairedUnder s key m) :
    PairedUnder (insertLine s x) key m := by
  have hk := congrArg (fun u : State => keyPair u key) (insertLine_off s x)
  replace hk : keyPair (insertLine s x) key = keyPair s key := hk
  unfold PairedUnder
  rwa [insertLine_mem, hk]

/-- A line held under a key and encrypted under its pair opens without a byte of memory changing, and so may every other such line
afterwards: this is what lets the lines of a range be opened in turn. -/
theorem openLine_legible {s : State} {key l : Nat} (alloc : Bool) (hh : HeldUnder s key l) (hp : PairedUnder s key l) :
    Opened s (openLine s l key alloc) ∧
      ∀ m, HeldUnder s key m → PairedUnder s key m →
        HeldUnder (openLine s l key alloc) key m ∧ PairedUnder (openLine s l key alloc) key m := by
  unfold openLine
  split
  · next x hx =>
    dsimp only
    rw [if_pos (hh x hx)]
    exact ⟨opened_setLines _ _, fun m hm hm' => ⟨heldUnder_setLines_cons (hh x hx) (heldUnder_setLines_filter l hm), hm'⟩⟩
  · have held : ∀ m, HeldUnder s key m → HeldUnder (decryptAs s l key) key m := fun m hm => by
      simpa only [HeldUnder, heldLine, decryptAs_vaults] using hm
    dsimp only
    split
    · exact ⟨(decryptAs_opened hp).trans (insertLine_opened _ _), fun m hm hm' =>
        ⟨heldUnder_insertLine rfl (held m hm), pairedUnder_insertLine (pairedUnder_decryptAs hp hm')⟩⟩
    · exact ⟨decryptAs_opened hp, fun m hm hm' => ⟨held m hm, pairedUnder_decryptAs hp hm'⟩⟩

theorem openLines_legible {key : Nat} (alloc : Bool) : ∀ (ls : List Nat) (s : State),
    (∀ l ∈ ls, HeldUnder s key l ∧ PairedUnder s key l) → Opened s (ls.foldl (fun s l => openLine s l key alloc) s)
  | [], s, _ => .refl s
  | l :: ls, s, h => by
    obtain ⟨hh, hp⟩ := h l List.mem_cons_self
    obtain ⟨ho, hkeep⟩ := openLine_legible alloc hh hp
    exact ho.trans (openLines_legible alloc ls _ fun m hm =>
      have ⟨hm1, hm2⟩ := h m (List.mem_cons_of_mem l hm)
      hkeep m hm1 hm2)

/-- A legible range opens without a byte of memory changing (R179). -/
theorem openRange_legible {s : State} {pa n key : Nat} (h : Legible s pa n key) (alloc : Bool) :
    Opened s (openRange s pa n key alloc) := by
  unfold openRange
  split
  · next hpa => exact openLines_legible alloc _ s (h hpa)
  · exact .refl s

/-- A correction changes the words with single-bit errors and their counters alone (R193). -/
theorem correct_changes (m : Memory) (pa n : Nat) :
    ∃ flips counts, m.correct pa n = { m with flips := flips, corrected := counts } := by
  unfold Memory.correct
  split
  · exact ⟨m.flips, m.corrected, rfl⟩
  · exact ⟨_, _, rfl⟩

/-! ### Reads and writes of a range at rest -/

/-- A legible range made readable keeps memory's bytes and the order of writes. -/
theorem openRead_legible {s : State} {pa n key : Nat} (h : Legible s pa n key) (alloc : Bool) :
    (openRead s pa n key alloc).mem.bytes = s.mem.bytes ∧ (openRead s pa n key alloc).mem.log = s.mem.log := by
  obtain ⟨flips, counts, hc⟩ := correct_changes s.mem pa n
  have hl : Legible { s with mem := s.mem.correct pa n } pa n key := by rw [hc]; exact h
  obtain ⟨_, _, ho⟩ := openRange_legible hl alloc
  unfold openRead
  rw [ho]
  exact ⟨Memory.bytes_correct _ _ _, Memory.log_correct _ _ _⟩

/-- Where no resource that a range touches is being zeroed, no zeroing is brought to its end. -/
theorem settleZero_of_not_zeroing {s : State} {pa n : Nat} (h : zeroingAt s pa n = false) : settleZero s pa n = s := by
  unfold settleZero settleZeroFor
  refine if_pos ?_
  simp only [zeroingAt, List.any_eq_false] at h
  simp only [List.isEmpty_iff, List.filter_eq_nil_iff, overlaps]
  intro z hz hit
  refine h z hz ?_
  simp only [Bool.and_eq_true] at hit ⊢
  exact ⟨⟨hit.1.1, hit.2.1⟩, hit.2.2⟩

/-- A write of a range at rest is performed on memory as it stands. -/
theorem writeNow_atRest {s : State} {pa key : Nat} {bs : List Byte} (h : AtRest s pa bs.length key) (hb : bs ≠ []) (id : Nat)
    (path : Option Path) (pubs : List Pub) :
    ∃ t, Opened s t ∧ writeNow s id pa key bs path pubs = { t with mem := t.mem.perform id pa bs path pubs } := by
  obtain ⟨hl, -, -, hw⟩ := h
  have ho := openRange_legible hl true
  refine ⟨_, ho, ?_⟩
  unfold writeNow
  rw [if_neg (by simpa using hb)]
  dsimp only
  generalize openRange s pa bs.length key true = t at ho ⊢
  obtain ⟨_, _, rfl⟩ := ho
  have hw' : ∀ m : Memory, ∀ v : Vaults, watchedBy { s with mem := m, vaults := v } pa bs.length = [] := fun _ _ => hw
  rw [hw']
  rfl

/-- Where every write that touches a range was released at system scope, its newest bytes are the only ones a page-table walk or an
application core can read (R225). -/
theorem systemFloor_of_released {seen : List Nat} {pa n : Nat} : ∀ {log : List Write},
    (∀ w ∈ log, w.pa < pa + n → pa < w.pa + w.new.length → w.id ∈ seen) → (systemFloor seen pa n log false).2 = false
  | [], _ => rfl
  | w :: log, h => by
    unfold systemFloor
    split
    · next ht => rw [if_pos (by simpa using h w List.mem_cons_self ht.1 ht.2)]
    · exact systemFloor_of_released fun x hx => h x (List.mem_cons_of_mem w hx)

theorem readSystem_legible {s : State} {pa n key : Nat} (h : Legible s pa n key)
    (hseen : ∀ w ∈ s.mem.log, w.pa < pa + n → pa < w.pa + w.new.length → w.id ∈ s.host.seen) :
    readSystem s pa key n = (s.mem.read pa n, openRead s pa n key true) := by
  obtain ⟨hbytes, hlog⟩ := openRead_legible h true
  have hhost := congrArg State.host (openRead_off s pa n key true)
  replace hhost : (openRead s pa n key true).host = s.host := hhost
  have hread : (openRead s pa n key true).mem.read pa n = s.mem.read pa n := by simp only [Memory.read, Memory.byteAt, hbytes]
  have hfloor := systemFloor_of_released hseen
  unfold readSystem
  dsimp only
  rw [hhost, hlog]
  split
  · rw [hread]
  · next heq => simp [heq] at hfloor

/-! ### The rows (R421) -/

theorem poolFirst_of_noSaves {s : State} (h : NoSaves s) (sid : Option Nat) (pa : Nat) : poolFirst s sid pa = false := by
  have : (s.flight.stores.any fun x => x.pa / 2 ^ 26 == pa / 2 ^ 26 && savesToPool s x.sid x.pa && storeOpen s x) = false :=
    List.any_eq_false.2 fun x hx => by simp [h x hx]
  rw [poolFirst, this, Bool.and_false]

theorem hostMemoryAccess_writes {s : State} {pa n : Nat} {bs : List Byte} (ha : s.arg = .host pa n (some bs)) (hb : bs ≠ [])
    (hm : inMemory pa bs.length = true) (hh : heldBySlot s pa bs.length = false) (hp : poolFirst s none pa = false) :
    exec .hostMemoryAccess s = .next (hostWrite s pa bs) := by
  show execHostMemoryAccess s = _
  simp [execHostMemoryAccess, ha, hb, hm, hh, hp]

theorem hostMemoryAccess_reads {s : State} {pa n : Nat} (ha : s.arg = .host pa n none) (hn : n ≠ 0)
    (hm : inMemory pa n = true) (hh : heldBySlot s pa n = false) : exec .hostMemoryAccess s = .next (hostRead s pa n) := by
  show execHostMemoryAccess s = _
  simp [execHostMemoryAccess, ha, hn, hm, hh]

theorem hostMemoryAccess_stops {s : State} {pa n : Nat} (ha : s.arg = .host pa n none) (hn : n ≠ 0)
    (hm : inMemory pa n = false) (hblock : ¬ (blockBase ≤ pa ∧ pa + n ≤ 2 ^ 44)) :
    exec .hostMemoryAccess s = .fault (.noSuchAddress pa) := by
  show execHostMemoryAccess s = _
  simp only [execHostMemoryAccess, ha, hn, hm, hblock, if_false, Bool.false_eq_true]

theorem hostMemoryAccess_writes_block {s : State} {pa n : Nat} {bs : List Byte} (ha : s.arg = .host pa n (some bs)) (hb : bs ≠ [])
    (hm : inMemory pa bs.length = false) (hblock : blockBase ≤ pa ∧ pa + bs.length ≤ 2 ^ 44) :
    exec .hostMemoryAccess s = .next (writeBlock bs.length s (pa - blockBase) bs) := by
  show execHostMemoryAccess s = _
  simp only [execHostMemoryAccess, ha, List.length_eq_zero_iff, hb, hm, hblock, and_self, if_true, if_false, Bool.false_eq_true]

theorem hostMemoryAccess_reads_block {s : State} {pa n : Nat} (ha : s.arg = .host pa n none) (hn : n ≠ 0)
    (hm : inMemory pa n = false) (hblock : blockBase ≤ pa ∧ pa + n ≤ 2 ^ 44) :
    exec .hostMemoryAccess s = .next (setHost s fun h => { h with lastRead := readBlock s (pa - blockBase) n }) := by
  show execHostMemoryAccess s = _
  simp only [execHostMemoryAccess, ha, hn, hm, hblock, and_self, if_true, if_false, Bool.false_eq_true]

/-! ### Whole registers as bytes -/

theorem length_toLE : ∀ (n x : Nat), (toLE n x).length = n
  | 0, _ => rfl
  | n + 1, x => congrArg (· + 1) (length_toLE n (x / 256))

theorem ofLE_toLE : ∀ (n x : Nat), ofLE (toLE n x) = x % 256 ^ n
  | 0, x => (Nat.mod_one x).symm
  | n + 1, x => by
    rw [toLE, ofLE, ofLE_toLE n (x / 256), Nat.pow_succ', Nat.mod_mul, BitVec.toNat_ofNat]

theorem toLE_eq_map : ∀ (n x : Nat), toLE n x = (List.range n).map fun i => BitVec.ofNat 8 (x / 2 ^ (8 * i))
  | 0, _ => rfl
  | n + 1, x => by
    rw [toLE, toLE_eq_map n (x / 256), List.range_succ_eq_map, List.map_cons, List.map_map]
    congr 1
    · simp
    · refine List.map_congr_left fun i _ => ?_
      rw [Function.comp_apply, Nat.div_div_eq_div_mul, Nat.mul_succ, Nat.pow_add, Nat.mul_comm (2 ^ (8 * i))]

/-- A write of eight bytes at a register's offset is a write of that register. -/
theorem writeBlock_register (s : State) {off v : Nat} (ho : off % 8 = 0) (hv : v < 2 ^ 64) :
    writeBlock 8 s off (toLE 8 v) = writeRegister s off (BitVec.ofNat 64 v) := by
  have hp : pieceOf off (toLE 8 v).length = (off, 0, 8) := by
    simp [pieceOf, length_toLE, ho]
    omega
  have hne : (toLE 8 v).isEmpty = false := rfl
  have hold : ∀ x : Nat, (toLE 8 x).take 0 ++ (toLE 8 v).take 8 ++ (toLE 8 x).drop (0 + 8) = toLE 8 v := fun _ => rfl
  have hval : ofLE (toLE 8 v) = v := (ofLE_toLE 8 v).trans (Nat.mod_eq_of_lt hv)
  rw [writeBlock, if_neg (by simp [hne]), hp]
  dsimp only
  rw [hold, hval]
  rfl

/-- A read of eight bytes at a register's offset is a read of that register. -/
theorem readBlock_register (s : State) {off : Nat} (ho : off % 8 = 0) : readBlock s off 8 = toLE 8 (readRegister s off).toNat := by
  rw [toLE_eq_map, readBlock]
  refine List.map_congr_left fun i hi => ?_
  have hi : i < 8 := List.mem_range.1 hi
  rw [show (off + i) / 8 * 8 = off by omega, show (off + i) % 8 = i by omega]

/-- The register block lies outside memory (R167, R421). -/
theorem block_not_inMemory (off n : Nat) : inMemory (blockBase + off) n = false := by
  have h1 : isLpddr (blockBase + off) = false := decide_eq_false (by unfold blockBase; omega)
  have h2 : isVault (blockBase + off) = false := 
    Bool.and_eq_false_iff.2 (.inr (decide_eq_false (by unfold blockBase vaultBase; omega)))
  simp [inMemory, h1, h2]

/-! ### What an application core's access does -/

/-- A register without behaviour of its own keeps the bits it has (R5, R421). -/
theorem writeRegister_plain {off m : Nat} (h : plainBits off = some m) (s : State) (v : DWord) :
    writeRegister s off v = setSreg s off (v &&& BitVec.ofNat 64 m) := by
  obtain ⟨before, after, htable, -⟩ := List.lookup_eq_some_iff.1 h
  have hrow : (off, m) ∈ before ++ (off, m) :: after := by simp
  rw [← htable] at hrow
  simp only [List.mem_cons, Prod.mk.injEq, List.not_mem_nil, or_false] at hrow
  rcases hrow with ⟨rfl, rfl⟩ | ⟨rfl, rfl⟩ | ⟨rfl, rfl⟩ | ⟨rfl, rfl⟩ <;> rfl

theorem registerWrite_plain {s : State} {off m : Nat} {v : DWord} (ha : s.arg = .val off v) (h : plainBits off = some m) :
    Gives .registerWrite s fun t => t = { s with sreg := t.sreg } ∧ sregOf t off = v &&& BitVec.ofNat 64 m ∧
      ∀ o, o ≠ off → sregOf t o = sregOf s o := by
  have he : exec .registerWrite s = .next (setSreg s off (v &&& BitVec.ofNat 64 m)) := by
    show execRegisterWrite s = _
    simp only [execRegisterWrite, ha, writeRegister_plain h]
  exact ⟨_, he, rfl, lookD_putD_same _ _ _ _, fun o ho => lookD_putD_other _ _ _ ho _⟩

theorem mem_releaseSystem (s : State) (id : Nat) : id ∈ (releaseSystem s [id]).host.seen := by
  show id ∈ if s.host.seen.contains id then s.host.seen else id :: s.host.seen
  split
  · next h => exact List.contains_iff_mem.1 h
  · exact List.mem_cons_self

/-- A host's write of a range at rest writes its bytes, as a write of its own that is released (R225; log 49). -/
theorem hostWrite_atRest {s : State} {pa : Nat} {bs : List Byte} (h : AtRest s pa bs.length 0) (hb : bs ≠ []) :
    Stored s (hostWrite s pa bs) pa bs ∧ (hostWrite s pa bs).strands = s.strands ∧
      ∃ w, (hostWrite s pa bs).mem.log = w :: s.mem.log ∧ w.id ∈ (hostWrite s pa bs).host.wrote ∧
        w.id ∈ (hostWrite s pa bs).host.seen := by
  obtain ⟨-, hz, -, -⟩ := id h
  obtain ⟨t, ho, hw⟩ := writeNow_atRest (s := (newWrite s).2) (by exact h) hb s.mem.nextWrite none []
  have he : hostWrite s pa bs = releaseSystem (setHost { t with mem := t.mem.perform s.mem.nextWrite pa bs none [] }
      fun h => { h with wrote := s.mem.nextWrite :: h.wrote }) [s.mem.nextWrite] := by
    rw [← hw, hostWrite, settleZero_of_not_zeroing hz]
    rfl
  rw [he]
  obtain ⟨_, _, rfl⟩ := ho
  exact ⟨⟨Memory.read_perform _ _ _ _ _ _, fun a ha => Memory.byteAt_perform_outside _ _ _ _ _ _ a ha⟩, rfl,
    _, rfl, List.mem_cons_self, mem_releaseSystem _ _⟩

/-- A host's read of a range at rest returns its newest bytes where all writes to it are released (R225). -/
theorem hostRead_atRest {s : State} {pa n : Nat} (h : AtRest s pa n 0)
    (hseen : ∀ w ∈ s.mem.log, w.pa < pa + n → pa < w.pa + w.new.length → w.id ∈ s.host.seen) :
    (hostRead s pa n).host.lastRead = s.mem.read pa n ∧ SameBytes s (hostRead s pa n) ∧ (hostRead s pa n).strands = s.strands := by
  obtain ⟨hl, hz, -, -⟩ := h
  have he : hostRead s pa n = setHost (openRead s pa n 0 true) fun h => { h with lastRead := s.mem.read pa n } := by
    rw [hostRead, settleZero_of_not_zeroing hz, readSystem_legible hl hseen]
  rw [he]
  exact ⟨rfl, fun a => congrArg (lookD · a 0) (openRead_legible hl true).1, openRead_strands _ _ _ _ _⟩

theorem hostMemoryAccess_registerWrite {s : State} {off v n : Nat} (ho : off % 8 = 0) (hoff : off + 8 ≤ 2 ^ 44 - 0xC0000000000)
    (ha : s.arg = .host (blockBase + off) n (some (toLE 8 v))) (hv : v < 2 ^ 64) :
    exec .hostMemoryAccess s = .next (writeRegister s off (BitVec.ofNat 64 v)) := by
  rw [hostMemoryAccess_writes_block ha (by simp [toLE]) (block_not_inMemory _ _) (by rw [length_toLE, blockBase]; omega),
    length_toLE, Nat.add_sub_cancel_left, writeBlock_register s ho hv]

theorem hostMemoryAccess_registerRead {s : State} {off : Nat} (ho : off % 8 = 0) (hoff : off + 8 ≤ 2 ^ 44 - 0xC0000000000)
    (ha : s.arg = .host (blockBase + off) 8 none) :
    Gives .hostMemoryAccess s fun t => t.host.lastRead = toLE 8 (readRegister s off).toNat ∧ t = { s with host := t.host } := by
  refine ⟨_, hostMemoryAccess_reads_block ha (by decide) (block_not_inMemory _ _) (by rw [blockBase]; omega), ?_, rfl⟩
  rw [Nat.add_sub_cancel_left, readBlock_register s ho]
  rfl

/-- Settles O45: each access by the lemma about its row. -/
theorem hostAccesses : Obligations.HostAccesses := by
  unfold Obligations.HostAccesses
  refine ⟨fun s off v m ha h => registerWrite_plain ha h, ?_, ?_, ?_, ?_⟩
  · intro s pa n bs ha hb hm hh hs hrest
    exact ⟨_, hostMemoryAccess_writes ha hb hm hh (poolFirst_of_noSaves hs none pa), hostWrite_atRest hrest hb⟩
  · intro s pa n ha hn hm hh hrest hseen
    exact ⟨_, hostMemoryAccess_reads ha hn hm hh, hostRead_atRest hrest hseen⟩
  · intro s off ho hoff
    exact ⟨fun v n ha hv => hostMemoryAccess_registerWrite ho hoff ha hv, hostMemoryAccess_registerRead ho hoff⟩
  · intro s pa n ha hn hm hblock
    exact hostMemoryAccess_stops ha hn hm hblock

end Sys2Proof.Claims
end
